-- ==== Sys2Proof/Word.lean ====
section
/-! DEFINITION. The plain word types of the model: bytes, byte strings and sparse tables. -/

namespace Sys2Proof

/-- One byte. -/
abbrev Byte := BitVec 8

/-- A 32-bit register image (R11). -/
abbrev Reg32 := BitVec 32

/-- A byte string: a payload, a result, a frame on a link, or a run of memory. -/
abbrev Bytes := List Byte

/-- A sparse table: pairs of an index and a value, indexes strictly rising, no value equal to the table's
default. It holds what the spec numbers (courses, channels, rings, words of memory) as plain data. -/
abbrev Tab (α : Type) := List (Nat × α)

end Sys2Proof
end

