-- ==== Sys2Proof/Syntax.lean ====
section
/-! DEFINITION. The commands and events of the block: one constructor per row of the opcode table. -/

namespace Sys2Proof

/-- A ring port (13). -/
inductive Port where
  | e | w
  deriving DecidableEq, Repr

/-- A journal place other than the VKA place, which never leaves service (12 R266, R268). -/
inductive JournalPlace where
  | dieA
  | dram (copy : Fin 2)
  deriving DecidableEq, Repr

/-- A writable Hod register half (21 Table REGS-9). -/
inductive HodReg where
  | ctrl | firstLo | firstHi | skipLo | skipHi
  deriving DecidableEq, Repr

/-- An access error of a Hod channel (15 Table HOST-7), code 1 to 7. -/
inductive HodFault where
  | descFetch | descInvalid | notAllowed | srcRead | srcPoisoned | dstRetired | flushFail
  deriving DecidableEq, Repr

/-- A 64-bit value read under the two-half rule (21 R462). -/
inductive Pair2H where
  | hodHaltAddr (k : Fin 8) | hodLastDone (k : Fin 8) | hodNextBytes (k : Fin 8)
  | hodErrAddr (k : Fin 8) | hodBytes (k : Fin 8) | hodDescs (k : Fin 8)
  | eccCeTotal | eccLastUeAddr | eccEntryAddr (i : Fin 32)
  | laneBlocks (j : Fin 20) | timeNow | timePpsAt
  deriving DecidableEq, Repr

/-- What DRAM training found (16 R365): the data rate in MT/s, the channels that trained, and their densities. -/
structure DramTraining where
  /-- data rate in MT/s -/
  rate : Nat := 0
  /-- bitmap of the channels that trained -/
  channels : BitVec 4 := 0
  /-- GiB on channels 0 to 3 -/
  density : List Nat := []
  deriving DecidableEq, Repr

/-- Who resets die A (12 R274). -/
inductive DieAResetCause where
  | watchdog | rail | thermal | heartbeat
  deriving DecidableEq, Repr

/-- What reading the two copies of a delivery-buffer record meets (16 R376). -/
inductive CopyFault where
  | corrected | firstBad | bothBad
  deriving DecidableEq, Repr

/-- A cause of the Emission Supervisor, bit 0 to 12 (10 Table SAFE-1). -/
abbrev Cause := Fin 13

/-- A converter's result: master-clock edge index n and vernier count k (05 R119). -/
structure Conversion where
  /-- index of the clock edge -/
  n : Nat := 0
  /-- vernier count -/
  k : Nat := 0
  deriving DecidableEq, Repr

/-- A converter's calibration factors K1 and K2 (05 R118). -/
structure Factors where
  /-- sum of the one-period counts -/
  k1 : Nat := 1024
  /-- sum of the two-period counts -/
  k2 : Nat := 2048
  deriving DecidableEq, Repr

/-- The journal entries, by JSEQ, whose check bits fail when die B reads the journal (R271): in VKA, in die A's mirror and
in the two DRAM copies. -/
structure JournalBad where
  /-- in the journal SRAM of the VKA domain -/
  vka : List Nat
  /-- in die A's mirror -/
  dieA : List Nat
  /-- in the DRAM copy on channel 2 -/
  dram0 : List Nat
  /-- in the DRAM copy on channel 3 -/
  dram1 : List Nat
  deriving DecidableEq, Repr

/-- How far a Hod channel had come when a reset stopped it (R287): the elements whose writes had all left the engine, and
the bytes that a host source gave for them. -/
structure HodProgress where
  /-- the channel -/
  ch : Fin 8
  /-- elements written, counted from element 0 of the descriptor -/
  done : Nat
  /-- bytes read from host memory for those not yet written -/
  host : List Byte
  deriving DecidableEq, Repr

/-- One constructor per row of the opcode table, with the row's operands: what the outside world puts in. -/
inductive Instr where
  /-- MBX_DOORBELL (R236) -/
  | mbxDoorbell (mb : Fin 8) (value : BitVec 32)
  /-- COMMAND_CHECK (R237) -/
  | commandCheck (mb : Fin 8) (hostPayload : Option (List Byte))
  /-- COMMAND_ACCEPTED (R238) -/
  | commandAccepted (mb : Fin 8)
  /-- RESULT_WRITE_FAIL (R242) -/
  | resultWriteFail (mb : Fin 8)
  /-- JOURNAL_MIRROR_REBUILT (R268) -/
  | journalMirrorRebuilt (place : JournalPlace)
  /-- HELLO (R255) -/
  | hello (mb : Fin 8)
  /-- GOODBYE (R257) -/
  | goodbye (mb : Fin 8)
  /-- NOP (R257) -/
  | nop (mb : Fin 8)
  /-- IDENT (R439) -/
  | ident (mb : Fin 8)
  /-- FW_IMAGE_WRITE (R436) -/
  | fwImageWrite (mb : Fin 8)
  /-- FW_IMAGE_SELECT (R437) -/
  | fwImageSelect (mb : Fin 8)
  /-- GRID_SET_COLUMNS (R48) -/
  | gridSetColumns (mb : Fin 8)
  /-- GRID_GET_COLUMNS (R48) -/
  | gridGetColumns (mb : Fin 8)
  /-- ANGLE_SET_SCAN (R46) -/
  | angleSetScan (mb : Fin 8)
  /-- ANGLE_SET_INDEX (R46) -/
  | angleSetIndex (mb : Fin 8)
  /-- ANGLE_STATUS (R49) -/
  | angleStatus (mb : Fin 8)
  /-- SHOT_SET_PROGRAM (R103) -/
  | shotSetProgram (mb : Fin 8)
  /-- ALLOC_SET (R103) -/
  | allocSet (mb : Fin 8)
  /-- TPM_SET_WEIGHTS (R104) -/
  | tpmSetWeights (mb : Fin 8)
  /-- TPM_READ (R105) -/
  | tpmRead (mb : Fin 8)
  /-- SHOT_COURSE_ENABLE (R91) -/
  | shotCourseEnable (mb : Fin 8)
  /-- SHOT_SCHEDULER (R92) -/
  | shotScheduler (mb : Fin 8)
  /-- SHOT_STATUS (R107) -/
  | shotStatus (mb : Fin 8)
  /-- RECV_SET_COURSE (R127) -/
  | recvSetCourse (mb : Fin 8)
  /-- RECV_SET_THRESHOLDS (R110) -/
  | recvSetThresholds (mb : Fin 8)
  /-- RECV_STATUS (R128) -/
  | recvStatus (mb : Fin 8)
  /-- HIST_SET_COURSE (R149) -/
  | histSetCourse (mb : Fin 8)
  /-- HIST_SET_WALK (R151) -/
  | histSetWalk (mb : Fin 8)
  /-- HIST_STATUS (R152) -/
  | histStatus (mb : Fin 8)
  /-- HIST_CAPTURE_TILE (R153) -/
  | histCaptureTile (mb : Fin 8)
  /-- CAPTURE_TILE_TIMEOUT (R153) -/
  | captureTileTimeout 
  /-- REJ_SET_COURSE (R166) -/
  | rejSetCourse (mb : Fin 8)
  /-- REJ_SET_DEVICE (R166) -/
  | rejSetDevice (mb : Fin 8)
  /-- REJ_STATUS (R167) -/
  | rejStatus (mb : Fin 8)
  /-- DLV_SET_RING (R188) -/
  | dlvSetRing (mb : Fin 8)
  /-- DLV_STATUS (R191) -/
  | dlvStatus (mb : Fin 8)
  /-- FREEZE_HISTORY (R189) -/
  | freezeHistory (mb : Fin 8)
  /-- READ_HISTORY (R190) -/
  | readHistory (mb : Fin 8)
  /-- HIST_INFO (R192) -/
  | histInfo (mb : Fin 8)
  /-- FILT_CONFIG (R55) -/
  | filtConfig (mb : Fin 8)
  /-- FILT_CONTROL (R57) -/
  | filtControl (mb : Fin 8)
  /-- DET_CONFIG (R59) -/
  | detConfig (mb : Fin 8)
  /-- LOOP_CONFIG (R78) -/
  | loopConfig (mb : Fin 8)
  /-- LOOP_LOAD (R71) -/
  | loopLoad (mb : Fin 8)
  /-- LOOP_CONTROL (R78) -/
  | loopControl (mb : Fin 8)
  /-- LOOP_STATUS (R79) -/
  | loopStatus (mb : Fin 8)
  /-- CAPT_CONFIG (R199) -/
  | captConfig (mb : Fin 8)
  /-- CAPT_SET_MASK (R204) -/
  | captSetMask (mb : Fin 8)
  /-- CAPT_CONTROL (R204) -/
  | captControl (mb : Fin 8)
  /-- CAPT_READ (R205) -/
  | captRead (mb : Fin 8)
  /-- CAPT_STATUS (R206) -/
  | captStatus (mb : Fin 8)
  /-- ES_STATUS (R234) -/
  | esStatus (mb : Fin 8)
  /-- ES_UNLOCK (R225) -/
  | esUnlock (mb : Fin 8)
  /-- ES_LOCK (R225) -/
  | esLock (mb : Fin 8)
  /-- ES_STAGE (R227) -/
  | esStage (mb : Fin 8)
  /-- ES_COMMIT (R227) -/
  | esCommit (mb : Fin 8)
  /-- ES_REARM (R220) -/
  | esRearm (mb : Fin 8)
  /-- ES_CONFIRM (R220) -/
  | esConfirm (mb : Fin 8)
  /-- ES_TRIP (R215) -/
  | esTrip (mb : Fin 8)
  /-- ES_SET_PASSWORD (R224) -/
  | esSetPassword (mb : Fin 8)
  /-- ES_CHANGELOG_READ (R228) -/
  | esChangelogRead (mb : Fin 8)
  /-- ES_LEDGER_READ (R233) -/
  | esLedgerRead (mb : Fin 8)
  /-- RING_CONFIG (R319) -/
  | ringConfig (mb : Fin 8)
  /-- RING_STATUS (R320) -/
  | ringStatus (mb : Fin 8)
  /-- RING_MEMBERS (R321) -/
  | ringMembers (mb : Fin 8)
  /-- RING_LEAVE (R322) -/
  | ringLeave (mb : Fin 8)
  /-- RING_SET_PHASE (R323) -/
  | ringSetPhase (mb : Fin 8)
  /-- RING_QUARANTINE_CLEAR (R324) -/
  | ringQuarantineClear (mb : Fin 8)
  /-- RING_PEER_IDENT (R325) -/
  | ringPeerIdent (mb : Fin 8)
  /-- LANE_EYE_SCAN (R341) -/
  | laneEyeScan (mb : Fin 8)
  /-- LANE_EYE_SCAN_DONE (R341) -/
  | laneEyeScanDone (counts : List Nat)
  /-- LANE_STATUS (R342) -/
  | laneStatus (mb : Fin 8)
  /-- HK_CONFIG (R389) -/
  | hkConfig (mb : Fin 8)
  /-- HK_CAL (R395) -/
  | hkCal (mb : Fin 8)
  /-- HK_CAL_DONE (R395) -/
  | hkCalDone (offset : Int) (gain : Nat) (currents : List Nat)
  /-- HK_READ (R408) -/
  | hkRead (mb : Fin 8)
  /-- HK_SET_SWITCH (R394) -/
  | hkSetSwitch (mb : Fin 8)
  /-- TH_CONFIG (R400) -/
  | thConfig (mb : Fin 8)
  /-- TH_STATUS (R410) -/
  | thStatus (mb : Fin 8)
  /-- MEM_STATUS (R383) -/
  | memStatus (mb : Fin 8)
  /-- ECC_TABLE_READ (R384) -/
  | eccTableRead (mb : Fin 8)
  /-- ECC_TABLE_CLEAR (R385) -/
  | eccTableClear (mb : Fin 8)
  /-- ECC_TEST (R381) -/
  | eccTest (mb : Fin 8)
  /-- LOG_SET_LIMIT (R422) -/
  | logSetLimit (mb : Fin 8)
  /-- LEDGER_READ (R422) -/
  | ledgerRead (mb : Fin 8)
  /-- LOG_HOST_EVENT (R422) -/
  | logHostEvent (mb : Fin 8)
  /-- COMMIT (R248) -/
  | commit (mb : Fin 8)
  /-- COMMIT_APPLY_STOPPED (R249) -/
  | commitApplyStopped 
  /-- STAGE_DISCARD (R252) -/
  | stageDiscard (mb : Fin 8)
  /-- SNAPSHOT (R253) -/
  | snapshot (mb : Fin 8)
  /-- RUN_ARM (R258) -/
  | runArm (mb : Fin 8)
  /-- RUN_DISARM (R259) -/
  | runDisarm (mb : Fin 8)
  /-- RUN_STATUS (R260) -/
  | runStatus (mb : Fin 8)
  /-- HOD_DOORBELL (R353) -/
  | hodDoorbell (ch : Fin 8)
  /-- HOD_ABORT (R353) -/
  | hodAbort (ch : Fin 8)
  /-- HOD_CONFIG_WRITE (R467) -/
  | hodConfigWrite (ch : Fin 8) (reg : HodReg) (value : BitVec 32)
  /-- HOD_DESCRIPTOR_FETCH (R354) -/
  | hodDescriptorFetch (ch : Fin 8) (host : Option (List Byte))
  /-- HOD_DESCRIPTOR_COMPLETE (R359) -/
  | hodDescriptorComplete (ch : Fin 8) (host : List Byte) (refetch : Option (List Byte))
  /-- HOD_ERROR (R363) -/
  | hodError (ch : Fin 8) (code : HodFault) (addr : Nat) (done : Nat) (host : List Byte)
  /-- HOD_ABORT_DONE (R353) -/
  | hodAbortDone (ch : Fin 8) (done : Nat) (host : List Byte)
  /-- WIN_BASE_LO_WRITE (R346) -/
  | winBaseLoWrite (value : BitVec 32) (hi : Option (BitVec 32))
  /-- BAR2_READ (R347) -/
  | bar2Read (offset : Nat) (len : Nat)
  /-- BAR2_WRITE (R347) -/
  | bar2Write (offset : Nat) (bytes : List Byte)
  /-- IRQ_CAUSE_CLEAR (R350) -/
  | irqCauseClear (mask : BitVec 32) (arriving : BitVec 32)
  /-- IRQ_ENABLE_WRITE (R350) -/
  | irqEnableWrite (value : BitVec 32)
  /-- IRQ_MAP_WRITE (R465) -/
  | irqMapWrite (n : Fin 8) (value : BitVec 32)
  /-- ID_BOOT_CHUNK (R433) -/
  | idBootChunk (value : BitVec 32)
  /-- ID_BOOT_RESET (R433) -/
  | idBootReset 
  /-- HOST_LOAD_VERIFY_DONE (R431) -/
  | hostLoadVerifyDone 
  /-- HK_LATCH (R470) -/
  | hkLatch 
  /-- TIME_LOAD_NOW (R472) -/
  | timeLoadNow 
  /-- TIME_LOAD_AT_PPS (R472) -/
  | timeLoadAtPps 
  /-- TIME_CANCEL_LOAD (R472) -/
  | timeCancelLoad 
  /-- TWO_HALF_LOW_READ (R288) -/
  | twoHalfLowRead (pair : Pair2H) (wide : Bool)
  /-- TWO_HALF_HIGH_READ (R14) -/
  | twoHalfHighRead (pair : Pair2H)
  /-- PAYLOAD_SRAM_READ (R466) -/
  | payloadSramRead (offset : Nat) (len : Nat)
  /-- BAR0_BAD_ACCESS (R344) -/
  | bar0BadAccess (offset : Nat) (size : Nat) (isWrite : Bool)
  /-- REGISTER_WRITE (R11) -/
  | registerWrite (offset : Nat) (bytes : List Byte)
  /-- DIE_B_POWER_UP (R424) -/
  | dieBPowerUp (training : DramTraining)
  /-- BOOT_ROM_START (R431) -/
  | bootRomStart (sel : BitVec 2)
  /-- FW_READY (R432) -/
  | fwReady (corrected uncorrectable : Nat) (bad : JournalBad)
  /-- FW_READY_TIMEOUT (R432) -/
  | fwReadyTimeout 
  /-- VKA_POWERUP (R285) -/
  | vkaPowerup 
  /-- VKA_LOSS (R425) -/
  | vkaLoss 
  /-- ES_POWER_ON (R223) -/
  | esPowerOn (selfTestOk : Bool) (crc : BitVec 32)
  /-- RAIL_WARNING (R283) -/
  | railWarning 
  /-- MAIN_POWER_RETURN (R283) -/
  | mainPowerReturn (training : DramTraining)
  /-- MEMORY_SUPPLY_LOSS (R284) -/
  | memorySupplyLoss 
  /-- RESET_N (R278) -/
  | resetN (sel : BitVec 2) (training : DramTraining) (hods : List HodProgress)
  /-- PERST_N (R279) -/
  | perstN (hods : List HodProgress)
  /-- HOT_RESET (R279) -/
  | hotReset (hods : List HodProgress)
  /-- FUNCTION_LEVEL_RESET (R351) -/
  | functionLevelReset (hods : List HodProgress)
  /-- BUS_MASTER_ENABLE (R176) -/
  | busMasterEnable (msix mask : Bool) (payload : Fin 3) (read : Fin 6)
  /-- D3HOT_ENTRY (R351) -/
  | d3hotEntry 
  /-- D0_RETURN (R351) -/
  | d0Return 
  /-- CP_RESTART (R273) -/
  | cpRestart (lockstep : Bool)
  /-- DIE_A_RESET (R274) -/
  | dieAReset (cause : DieAResetCause)
  /-- DIE_A_RESTORED (R276) -/
  | dieARestored 
  /-- DIE_A_RESTORE_TIMEOUT (R276) -/
  | dieARestoreTimeout 
  /-- HEARTBEAT_LOSS (R18) -/
  | heartbeatLoss (atDieA : Bool)
  /-- MORTAR_LINK_UP (R338) -/
  | mortarLinkUp 
  /-- MORTAR_LANE_LOSS (R339) -/
  | mortarLaneLoss (lane : Fin 12)
  /-- MORTAR_LANE_REGAINED (R337) -/
  | mortarLaneRegained (lane : Fin 12)
  /-- DRAM_CHANNEL_FAILED (R380) -/
  | dramChannelFailed (ch : Fin 4) (cause : Fin 3)
  /-- DRAM_RETIRE_DONE (R280) -/
  | dramRetireDone (ch : Fin 4)
  /-- DRAM_RETRAIN (R380) -/
  | dramRetrain (ch : Fin 4) (ok : Bool)
  /-- ANGLE_UPDATE (R35) -/
  | angleUpdate 
  /-- MISSED_UPDATE (R36) -/
  | missedUpdate 
  /-- FRAME_BOUNDARY (R30) -/
  | frameBoundary 
  /-- COLUMN_BOUNDARY (R110) -/
  | columnBoundary (c : Fin 2049)
  /-- SHOT_DUE (R90) -/
  | shotDue (course : Fin 128)
  /-- SHOT_LAUNCH (R88) -/
  | shotLaunch (course : Fin 128) (startA startB : Conversion)
  /-- DOUBLE_PULSE_SECOND (R85) -/
  | doublePulseSecond (course : Fin 128)
  /-- LOW_DISCRIMINATOR_EDGE (R116) -/
  | lowDiscriminatorEdge (ch : Fin 256) (rise : Conversion) (fall : Option Conversion) (high : Bool)
  /-- WINDOW_CLOSE (R115) -/
  | windowClose (ch : Fin 256)
  /-- STAMP_DELIVERY (R117) -/
  | stampDelivery (ch : Fin 256)
  /-- TDC_CALIBRATION_DONE (R118) -/
  | tdcCalibrationDone (ch : Fin 256) (rise fall : Factors)
  /-- ENGINE_P1_START (R131) -/
  | engineP1Start (e : Fin 32)
  /-- ENGINE_P1_DONE (R131) -/
  | engineP1Done (e : Fin 32) (corr uncorr : Nat)
  /-- ENGINE_P2_DONE (R131) -/
  | engineP2Done (e : Fin 32) (corr uncorr : Nat)
  /-- INDEX_EDGE (R37) -/
  | indexEdge (rising : Bool) (ti : Nat)
  /-- PICK_CROSSING (R196) -/
  | pickCrossing (pick : Fin 2) (t : Nat) (samples : List (BitVec 14))
  /-- INDEX_MISSING (R42) -/
  | indexMissing 
  /-- RECORD_ARRIVAL (R173) -/
  | recordArrival 
  /-- RECORD_COMMIT (R173) -/
  | recordCommit 
  /-- HISTORY_SLOT_ARRIVAL (R185) -/
  | historySlotArrival 
  /-- PALLET_TIMEOUT (R175) -/
  | palletTimeout (r : Fin 64)
  /-- PALLET_WRITE (R175) -/
  | palletWrite (r : Fin 64) (faults : List (Nat × CopyFault))
  /-- IRQ_HOLDOFF_END (R175) -/
  | irqHoldoffEnd (r : Fin 64)
  /-- CI_POLL (R176) -/
  | ciPoll (r : Fin 64)
  /-- CI_READ_COMPLETE (R176) -/
  | ciReadComplete (r : Fin 64) (ci : BitVec 64)
  /-- TIME_PPS_EDGE (R183) -/
  | timePpsEdge 
  /-- CHAIN_OUTPUT (R54) -/
  | chainOutput (chain : Fin 2) (samples : List (BitVec 14))
  /-- LOOP_SELFTEST_DONE (R69) -/
  | loopSelftestDone (ok : Bool)
  /-- LOOP_START_SLOW (R69) -/
  | loopStartSlow 
  /-- PWM_CYCLE_START (R75) -/
  | pwmCycleStart (levels : BitVec 3)
  /-- HK_CONVERSION (R387) -/
  | hkConversion (code : Int) (overRange brk : Bool)
  /-- HK_ROUND_BOUNDARY (R470) -/
  | hkRoundBoundary 
  /-- CAPTURE_TRIGGER (R197) -/
  | captureTrigger (u : Fin 2) (t : Nat) (samples : List (BitVec 10))
  /-- SHOT_QUAL_TIMEOUT (R197) -/
  | shotQualTimeout (u : Fin 2)
  /-- MASK_VIOLATION (R203) -/
  | maskViolation (u : Fin 2) (samples : List Nat)
  /-- CAPTURE_COMPLETE (R200) -/
  | captureComplete (u : Fin 2) (samples : List Nat)
  /-- CAPTURE_HOLDOFF_END (R201) -/
  | captureHoldoffEnd (u : Fin 2)
  /-- ES_PULSE_COUNT (R212) -/
  | esPulseCount (port : Fin 128)
  /-- LEDGER_BUCKET_CLOSE (R211) -/
  | ledgerBucketClose (k : Fin 3)
  /-- ES_CAUSE_ARISES (R215) -/
  | esCauseArises (c : Cause)
  /-- ES_CAUSE_CLEARS (R218) -/
  | esCauseClears (c : Cause)
  /-- ES_CLOCK_CHECK (R209) -/
  | esClockCheck (ppm : Int) (railOk : Bool)
  /-- ES_SELFTEST (R216) -/
  | esSelftest (ok : Bool)
  /-- ES_CRC_CHECK (R226) -/
  | esCrcCheck (crc : BitVec 32)
  /-- POWERUP_HOLD_END (R223) -/
  | powerupHoldEnd 
  /-- REARM_TIMEOUT (R218) -/
  | rearmTimeout 
  /-- ES_UNLOCK_TIMEOUT (R225) -/
  | esUnlockTimeout 
  /-- UNLOCK_REFUSAL_END (R225) -/
  | unlockRefusalEnd 
  /-- SAFE_ACK_FALL (R219) -/
  | safeAckFall 
  /-- SAFE_ACK_RISE (R219) -/
  | safeAckRise 
  /-- ES_STATE_MESSAGE_SEND (R229) -/
  | esStateMessageSend 
  /-- ES_STATE_MESSAGE (R230) -/
  | esStateMessage 
  /-- SAFE_PATH_TIMEOUT (R230) -/
  | safePathTimeout (node : BitVec 16) (ring : Fin 2)
  /-- TEMP_READING (R398) -/
  | tempReading (ts : Fin 12) (reading : Option Int)
  /-- TH_RATE_MARK (R399) -/
  | thRateMark 
  /-- TH_SHUTDOWN_ENTRY (R405) -/
  | thShutdownEntry 
  /-- LOG_WRITE (R412) -/
  | logWrite 
  /-- LOG_TOKEN_REFILL (R414) -/
  | logTokenRefill (code : BitVec 16)
  /-- HOURS_TICK (R419) -/
  | hoursTick 
  /-- RING_JOIN_TIMEOUT (R293) -/
  | ringJoinTimeout 
  /-- RING_ISOLATED_RETRY (R293) -/
  | ringIsolatedRetry 
  /-- RING_LEAVING_DONE (R293) -/
  | ringLeavingDone 
  /-- PORT_STATE_TIMEOUT (R330) -/
  | portStateTimeout (p : Port)
  /-- LANE_TRAINED (R330) -/
  | laneTrained (lane : Fin 20)
  /-- TS_BLOCK (R330) -/
  | tsBlock (lane : Fin 20) (damaged trained ratePending : Bool)
  /-- BLOCK_LOCK_ACQUIRED (R331) -/
  | blockLockAcquired (lane : Fin 20)
  /-- BLOCK_LOCK_LOST (R331) -/
  | blockLockLost (lane : Fin 20) (cut : List Byte)
  /-- ALIGN_BLOCK (R332) -/
  | alignBlock (lane : Fin 20) (damaged : Bool) (skew : Nat) (marker : Nat)
  /-- CAPS_RECEIVED (R333) -/
  | capsReceived (p : Port) (caps : List Byte)
  /-- RING_FRAME_RECEIVED (R298) -/
  | ringFrameReceived (p : Port) (stomped : Bool) (frame : List Byte)
  /-- QUARANTINE_RETRY (R302) -/
  | quarantineRetry (p : Port)
  /-- ACK_BLOCK (R334) -/
  | ackBlock (p : Port) (lseq : BitVec 32)
  /-- NAK_BLOCK (R334) -/
  | nakBlock (p : Port) (code : Nat) (lseq : BitVec 32)
  /-- CREDIT_BLOCK (R334) -/
  | creditBlock (p : Port) (general reserved : Nat)
  /-- REPLAY_TIMEOUT (R334) -/
  | replayTimeout (p : Port)
  /-- PROBE_SEND (R335) -/
  | probeSend (p : Port)
  /-- PROBE_BLOCK (R335) -/
  | probeBlock (p : Port) (reply : Bool) (number residence : Nat)
  /-- RESTRIPE_BLOCK (R336) -/
  | restripeBlock (p : Port) (mask : BitVec 2)
  /-- SWITCH_BLOCK (R336) -/
  | switchBlock (p : Port) (mask : BitVec 2) (cut : List Byte)
  /-- LEAVE_BLOCK (R330) -/
  | leaveBlock (p : Port) (reason : Nat)
  /-- ANNOUNCE_SEND (R304) -/
  | announceSend 
  /-- ANNOUNCE_RECEIVED (R304) -/
  | announceReceived 
  /-- ROSTER_EXPIRY (R304) -/
  | rosterExpiry (node : BitVec 16)
  /-- SYNC_SEND (R306) -/
  | syncSend 
  /-- SYNC_RECEIVED (R306) -/
  | syncReceived 
  /-- SYNC_LOST (R306) -/
  | syncLost 
  /-- PALLET_RECEIVED (R312) -/
  | palletReceived 
  /-- PALLET_ACK (R312) -/
  | palletAck 
  /-- CI_READ_MESSAGE (R311) -/
  | ciReadMessage (ci : BitVec 64)
  /-- E2E_RESEND (R300) -/
  | e2eResend 
  /-- MGMT_COMMAND (R314) -/
  | mgmtCommand 
  /-- MGMT_RESULT (R314) -/
  | mgmtResult 
  /-- REMOTE_TIMEOUT (R314) -/
  | remoteTimeout (mb : Fin 8)
  /-- SAFETY_HEARTBEAT (R18) -/
  | safetyHeartbeat (atDieA : Bool)
  /-- READ_HISTORY_DONE (R190) -/
  | readHistoryDone 
  /-- TIME_DISCIPLINED_LAPSE (R183) -/
  | timeDisciplinedLapse 
  /-- BUS_MASTER_ENABLE_CLEARED (R351) -/
  | busMasterEnableCleared 
  /-- PARTNER_TERMINATION_SENSED (R330) -/
  | partnerTerminationSensed (p : Port)
  deriving DecidableEq, Repr

end Sys2Proof
end

