-- ==== Sys2Proof/Decode.lean ====
section
/-! DEFINITION. The command a word spells by the bits of the opcode table. The table gives no row any bits: a command
reaches the block as a register access, a mailbox header, a frame or an event, never as an instruction word. -/

namespace Sys2Proof

/-- The command that `nbits` bits of value `w` spell by the opcode table: none, since no row has bits. -/
def decodeTableWord (_nbits _w : Nat) : Option Instr := none

end Sys2Proof
end

