-- ==== Sys2Proof/Config.lean ====
section
/-! DEFINITION. What the spec leaves open: each value is an opaque constant with no body, so that nothing can be
proved of it and a claim holds whatever it is. -/

namespace Sys2Proof

/-- Free value (log 20): FRAME_RATE in mHz before any LOOP_CONFIG. The spec defines the nominal rate from FRAME_RATE
alone (03 R62). -/
opaque Config.frameRateUnset : Nat

/-- Free value (log 20): the fit of a column of the given width while SLOT_COUNTS is 0, as an open ω_ref may make it
(04 R83). -/
opaque Config.fitUnset : Nat → Nat

/-- Free value (log 20): T_col of a column of the given width while ω_ref is 0 (06 R133). -/
opaque Config.periodUnset : Nat → Nat

/-- Free value (log 21): the ns by which ES time advances in one ns of the device timebase; the ES runs on its own
oscillator (10 R208). -/
opaque Config.esAdvance : Nat → Nat

/-- Free value (log 22): whether the verification after the n-th program of the NV ledger fails (18 R420). -/
opaque Config.nvFails : Nat → Bool

/-- Free value (log 23): the salted SHA-256 hash of a password, 32 bytes: how the salt enters is not given (10 R224). -/
opaque Config.passwordHash (salt password : Bytes) : Bytes

/-- Free value (log 23): the salt drawn for a password, 16 bytes (10 R224). -/
opaque Config.salt : Nat → Bytes

/-- Free value (log 24): the 32-bit token of an ES_REARM (10 R220). -/
opaque Config.rearmToken : Nat → Nat

/-- Free value (log 25): which column each data bit of a DRAM word has, of those left (16 R369). -/
opaque Config.dramColumn : Nat → Nat

/-- Free value (log 25): which column each data bit of an SRAM byte has, of those left (16 R371). -/
opaque Config.sramColumn : Nat → Nat

/-- Free value (log 25): which column each data bit of an engine word has, of those left (06 R148). -/
opaque Config.engineColumn : Nat → Nat

/-- Free value (log 26): byte at a DRAM address whose layout is the device's own: delivery buffer, journal and standby
regions (16 Table MEM-2), at the n-th reading. -/
opaque Config.deviceByte (n addr : Nat) : Byte

/-- Free value (log 27): UNIQUE_ID, 128 bits (19). -/
opaque Config.uniqueId : Nat

/-- Free value (log 28): what binary32 arithmetic adds to the exact value of a housekeeping curve, to be folded into its
bound, and the whole value in Q15.16 where the curve gives no finite one, for a conversion, the even-round conversion of
curve 6, the factors in force and the current in pA (17 R388). -/
opaque Config.hkCurve (curve : Nat) (params : Bytes) (code even offset : Int) (gain current : Nat) : Int

/-- Free value (log 29): the receiver equaliser setting of a ring lane (14 Table LANE-7). -/
opaque Config.equaliser (lane n : Nat) : Nat

/-- Free value (log 115): invalid headers of a lane in block lock that led to no loss of lock (14 Table LANE-7). -/
opaque Config.strayHeaders (lane n : Nat) : Nat

/-- Free value (log 115): NAK_SENT, NAK_RECEIVED, REPLAYED and STOMPED of a Mortar direction (14 Table LANE-7). -/
opaque Config.mortarCount (kind which n : Nat) : Nat

/-- Free value (log 32): a frame field of a result when there is no such frame: no plane holds one, or none is closed
(08 R192). -/
opaque Config.noFrame : Nat → Nat

/-- Free value (log 35): the error of the electrical phase of a sine and cosine pair, of which 3 to 2^32 - 3 are folded
to the allowed bound (03 Table LOOP-1). -/
opaque Config.atanError (y x : Int) : Nat

/-- Free value (log 37): what the checks of an image other than its SVN find: 0 good, 1 header, 2 key hash, 3 signature,
modulo 4 (19 R431, R436). -/
opaque Config.imageVerdict (image : Bytes) : Nat

/-- Free value (log 37): the security version in an image's header (19 R430). -/
opaque Config.imageSvn (image : Bytes) : Nat

/-- Free value (log 37): the security version of the image a slot holds as manufactured (19 R430). -/
opaque Config.factorySvn (slot : Nat) : Nat

/-- Free value (log 38): the identity public key, 64 bytes (19 R438). -/
opaque Config.publicKey : Bytes

/-- Free value (log 38): the certificate signature, 64 bytes (19 R438). -/
opaque Config.certificate : Bytes

/-- Free value (log 38): the ECDSA signature over a message, 64 bytes, at the n-th drawing (19 R439). -/
opaque Config.signature (n : Nat) (message : Bytes) : Bytes

/-- Free value (log 39): the word of the delivery buffer that an error met in reading it lies in (16 R372, R374). -/
opaque Config.bufferWord : Nat → Nat

/-- Free value (log 39): the syndrome of a corrected word of the delivery buffer (16 R372). -/
opaque Config.bufferSyndrome : Nat → Nat

/-- Free value (log 39): the position corrected in a word of the delivery buffer (16 R372). -/
opaque Config.bufferBit : Nat → Nat

/-- Free value (log 38): Sornor's patch level (11 Table MBOX-14b). -/
opaque Config.fwPatch : Nat

/-- Free value (log 38): Vustad's PCI Vendor ID, 16 bits (15 R343, 21 Table REGS-2). -/
opaque Config.vendorId : Nat

/-- Free value (log 50): byte `i` of payload SRAM with its check bits, 13 bits, from the n-th die B power-up until it is
written: the content is undefined then (21 Table REGS-1). -/
opaque Config.payloadByte (n i : Nat) : Nat

end Sys2Proof
end

