-- ==== Sys2Proof/Machine/Bits.lean ====
section
/-! DEFINITION. Bit-field, byte-order, saturation, checksum and sparse-table helpers. -/

namespace Sys2Proof.Machine

open Sys2Proof

/-- Value at index `k` of a sparse table whose unlisted entries are `d`. -/
def tabGet {α : Type} (d : α) : Tab α → Nat → α
  | [], _ => d
  | (i, v) :: m, k => if i = k then v else tabGet d m k

/-- Remove index `k`. -/
def tabErase {α : Type} : Tab α → Nat → Tab α
  | [], _ => []
  | (i, v) :: m, k => if i = k then m else if k < i then (i, v) :: m else (i, v) :: tabErase m k

/-- Insert or replace index `k`, keeping the indexes rising. -/
def tabInsert {α : Type} : Tab α → Nat → α → Tab α
  | [], k, x => [(k, x)]
  | (i, v) :: m, k, x =>
    if i = k then (k, x) :: m else if k < i then (k, x) :: (i, v) :: m else (i, v) :: tabInsert m k x

/-- Write index `k`, in canonical form: writing the default removes the entry. -/
def tabSet {α : Type} [DecidableEq α] (d : α) (m : Tab α) (k : Nat) (x : α) : Tab α :=
  if x = d then tabErase m k else tabInsert m k x

/-- Apply `f` at index `k`. -/
def tabMod {α : Type} [DecidableEq α] (d : α) (m : Tab α) (k : Nat) (f : α → α) : Tab α :=
  tabSet d m k (f (tabGet d m k))

/-- Every index of the table is above `lo` (or any, for `none`) and the indexes rise strictly. -/
def tabRising {α : Type} : Option Nat → Tab α → Bool
  | _, [] => true
  | none, (i, _) :: m => tabRising (some i) m
  | some lo, (i, _) :: m => decide (lo < i) && tabRising (some i) m

/-- The canonical form of a sparse table. -/
def tabWf {α : Type} [DecidableEq α] (d : α) (m : Tab α) : Bool :=
  tabRising none m && m.all (fun e => decide (e.2 ≠ d))

/-- 32-bit counter that saturates at 0xFFFF_FFFF. -/
def sat32 (n : Nat) : Nat := min n 0xFFFFFFFF

/-- 16-bit counter that saturates. -/
def sat16 (n : Nat) : Nat := min n 0xFFFF

/-- 48-bit counter that saturates. -/
def sat48 (n : Nat) : Nat := min n (2 ^ 48 - 1)

/-- 64-bit counter that wraps. -/
def wrap64 (n : Nat) : Nat := n % 2 ^ 64

/-- 32-bit value that wraps. -/
def wrap32 (n : Nat) : Nat := n % 2 ^ 32

/-- Bits `hi` down to `lo` of a number. -/
def field (v hi lo : Nat) : Nat := (v >>> lo) % 2 ^ (hi + 1 - lo)

/-- Bit `i` of a number. -/
def bit (v i : Nat) : Bool := v.testBit i

/-- A flag as a number. -/
def b2n (b : Bool) : Nat := if b then 1 else 0

/-- The bitmap whose bit `i` is the i-th flag. -/
def bitmap : List Bool → Nat
  | [] => 0
  | b :: bs => b2n b + 2 * bitmap bs

/-- The bitmap over indexes 0 to `n - 1` of a predicate. -/
def bitmapOf (n : Nat) (p : Nat → Bool) : Nat := bitmap ((List.range n).map p)

/-- Two's complement: an `n`-bit pattern as an integer. -/
def signed (n v : Nat) : Int :=
  if v % 2 ^ n < 2 ^ (n - 1) then ((v % 2 ^ n : Nat) : Int) else ((v % 2 ^ n : Nat) : Int) - (2 ^ n : Nat)

/-- Two's complement: an integer as an `n`-bit pattern. -/
def unsigned (n : Nat) (v : Int) : Nat := (v % ((2 ^ n : Nat) : Int)).toNat

/-- Round half to even of `a / b` for positive `b` (00 R9). -/
def rne (a : Int) (b : Nat) : Int :=
  let q := a / (b : Int)
  let r := 2 * (a - q * (b : Int))
  if r < (b : Int) then q else if (b : Int) < r then q + 1 else if q % 2 = 0 then q else q + 1

/-- Saturation of an integer into a signed `n`-bit range. -/
def satS (n : Nat) (v : Int) : Int :=
  max (-((2 ^ (n - 1) : Nat) : Int)) (min v (((2 ^ (n - 1) : Nat) : Int) - 1))

/-- Little-endian value of the first `n` bytes (R7). -/
def leTake : Nat → Bytes → Nat
  | 0, _ => 0
  | _ + 1, [] => 0
  | n + 1, b :: bs => b.toNat + 256 * leTake n bs

/-- Little-endian value of the `n` bytes at offset `off`. Bytes past the end read as 0. -/
def le (bs : Bytes) (off n : Nat) : Nat := leTake n (bs.drop off)

/-- The one byte at offset `off`. -/
def u8 (bs : Bytes) (off : Nat) : Nat := le bs off 1
/-- The 16-bit little-endian field at `off`. -/
def u16 (bs : Bytes) (off : Nat) : Nat := le bs off 2
/-- The 32-bit little-endian field at `off`. -/
def u32 (bs : Bytes) (off : Nat) : Nat := le bs off 4
/-- The 64-bit little-endian field at `off`. -/
def u64 (bs : Bytes) (off : Nat) : Nat := le bs off 8
/-- Signed 16-bit field at `off`. -/
def s16 (bs : Bytes) (off : Nat) : Int := signed 16 (u16 bs off)
/-- Signed 32-bit field at `off`. -/
def s32 (bs : Bytes) (off : Nat) : Int := signed 32 (u32 bs off)

/-- `n` bytes of a value, least significant first (R7). -/
def leBytes : Nat → Nat → Bytes
  | 0, _ => []
  | n + 1, v => BitVec.ofNat 8 v :: leBytes n (v / 256)

/-- One byte. -/
def b1 (v : Nat) : Bytes := leBytes 1 v
/-- Two bytes, little-endian. -/
def b2 (v : Nat) : Bytes := leBytes 2 v
/-- Three bytes, little-endian. -/
def b3 (v : Nat) : Bytes := leBytes 3 v
/-- Four bytes, little-endian. -/
def b4 (v : Nat) : Bytes := leBytes 4 v
/-- Eight bytes, little-endian. -/
def b8 (v : Nat) : Bytes := leBytes 8 v
/-- Signed `n`-byte field. -/
def bS (n : Nat) (v : Int) : Bytes := leBytes n (unsigned (8 * n) v)
/-- `n` reserved bytes, which read 0 (R12). -/
def zeros (n : Nat) : Bytes := List.replicate n 0

/-- Overwrite the bytes at `off` with `new`; nothing beyond the string's end is written. -/
def overwrite (bs : Bytes) (off : Nat) (new : Bytes) : Bytes :=
  (bs.take off ++ new.take (bs.length - off)) ++ bs.drop (off + new.length)

/-- Bytes `off` to `off + n - 1`, zeros past the end. -/
def slice (bs : Bytes) (off n : Nat) : Bytes :=
  let t := (bs.drop off).take n
  t ++ zeros (n - t.length)

/-- `bs` padded or cut to `n` bytes. -/
def fit (n : Nat) (bs : Bytes) : Bytes := slice bs 0 n

/-- All bytes in the range are 0. -/
def allZero (bs : Bytes) (off n : Nat) : Bool := (slice bs off n).all (fun b => decide (b = 0))

/-- One bit of a reflected CRC. -/
def crcBit (poly c : Nat) : Nat := if c % 2 = 1 then (c / 2) ^^^ poly else c / 2

/-- Eight bits of a reflected CRC. -/
def crcByte (poly c : Nat) (b : Byte) : Nat :=
  let x := c ^^^ b.toNat
  crcBit poly (crcBit poly (crcBit poly (crcBit poly (crcBit poly (crcBit poly (crcBit poly (crcBit poly x)))))))

/-- CRC-32 of IEEE 802.3. -/
def crc32 (bs : Bytes) : Nat :=
  (bs.foldl (crcByte 0xEDB88320) 0xFFFFFFFF) ^^^ 0xFFFFFFFF

/-- One bit of an unreflected CRC of width `w`. -/
def crcBitM (w poly c : Nat) : Nat :=
  if c.testBit (w - 1) then ((2 * c) % 2 ^ w) ^^^ poly else (2 * c) % 2 ^ w

/-- Eight bits of an unreflected CRC of width `w`. -/
def crcByteM (w poly c : Nat) (b : Byte) : Nat :=
  let x := c ^^^ (b.toNat <<< (w - 8))
  crcBitM w poly (crcBitM w poly (crcBitM w poly (crcBitM w poly
    (crcBitM w poly (crcBitM w poly (crcBitM w poly (crcBitM w poly x)))))))

/-- Ceiling division. -/
def ceilDiv (a b : Nat) : Nat := (a + b - 1) / b

/-- Round-to-nearest division of integers, halves away from zero. -/
def roundDivI (a : Int) (b : Nat) : Int :=
  if a < 0 then -((2 * (-a) + b) / (2 * b)) else (2 * a + b) / (2 * b)

/-- Integer floor division by a power of two (arithmetic right shift). -/
def shrI (a : Int) (n : Nat) : Int := a / ((2 ^ n : Nat) : Int)

/-- Greatest `r ≤ hi` with `r * r ≤ n`, found bit by bit from `2 ^ bits`. -/
def sqrtBits (n : Nat) : Nat → Nat → Nat
  | 0, r => r
  | k + 1, r => let t := r + 2 ^ k; sqrtBits n k (if t * t ≤ n then t else r)

/-- Integer square root (floor) of a value below `2 ^ 128`. -/
def isqrt (n : Nat) : Nat := sqrtBits n 64 0

/-- The items of a list at index `i` replaced by `f`. -/
def listMod {α : Type} (l : List α) (i : Nat) (f : α → α) : List α := l.modify i f

/-- Item `i` of a list of numbers, 0 past its end. -/
def nth (l : List Nat) (i : Nat) : Nat := l.getD i 0

/-- Item `i` of a list of integers, 0 past its end. -/
def nthI (l : List Int) (i : Nat) : Int := l.getD i 0

/-- The largest of a list of numbers, 0 for none. -/
def listMax : List Nat → Nat
  | [] => 0
  | a :: l => max a (listMax l)

/-- The sum of a list of numbers. -/
def listSum : List Nat → Nat
  | [] => 0
  | a :: l => a + listSum l

/-- The sum of a list of integers. -/
def listSumI : List Int → Int
  | [] => 0
  | a :: l => a + listSumI l

/-- Insert into a list kept in ascending order of a key, after its equals. -/
def insertBy {α : Type} (key : α → Nat) (x : α) : List α → List α
  | [] => [x]
  | y :: l => if key y ≤ key x then y :: insertBy key x l else x :: y :: l

/-- Insertion sort by a key, stable. -/
def sortBy {α : Type} (key : α → Nat) : List α → List α
  | [] => []
  | y :: l => insertFirst key y (sortBy key l)
where
  /-- Insert before the equals, so that the sort is stable. -/
  insertFirst {α : Type} (key : α → Nat) (x : α) : List α → List α
    | [] => [x]
    | y :: l => if key y < key x then y :: insertFirst key x l else x :: y :: l

/-- Apply `f` for each number below `n`, in ascending order. -/
def forUpto {σ : Type} : Nat → (Nat → σ → σ) → σ → σ
  | 0, _, s => s
  | n + 1, f, s => f n (forUpto n f s)

/-- Apply `f` for each item of a list, in order. -/
def forEach {α σ : Type} : List α → (α → σ → σ) → σ → σ
  | [], _, s => s
  | a :: l, f, s => forEach l f (f a s)

/-- Forward distance from `a` to `b` on a counter of `2 ^ n` values (R5). -/
def ringDist (n a b : Nat) : Nat := (b + 2 ^ n - a % 2 ^ n) % 2 ^ n

/-- The wrap-aware order of R5: `a` is after `b` on an `n`-bit counter. -/
def after (n a b : Nat) : Bool :=
  let d := ringDist n b a
  decide (0 < d ∧ d < 2 ^ (n - 1))

end Sys2Proof.Machine
end

