-- ==== Sys2Proof/Machine/State.lean ====
section
/-! DEFINITION. The state of the block: every register, buffer, counter, mode and pin the spec gives it, as plain
data, and the queue of commands that wait. A field's docstring gives its width, the file and rule of the spec that
name it and its value at reset. Sparse tables (`Tab`) list only what differs from the entry's default. -/

namespace Sys2Proof.Machine

open Sys2Proof

/-- The block stops with a fault: never in this model, whose every command has its effect or cannot occur. -/
inductive Fault where
  /-- nobody raises it; it keeps the type inhabited (safe) -/
  | none
  deriving DecidableEq, Repr

/-- A command without a meaning in this model. -/
inductive Refusal where
  /-- raised by `exec` for a row whose meaning is not written; safe, since nothing follows from it -/
  | notModelled (mnemonic : String)
  deriving DecidableEq, Repr

/-- What left the device's edges, newest first in `State.out`: the model's own trace of outputs. -/
inductive Out where
  /-- a memory write on PCI Express, with its EP bit (15 R345, 16 R376) -/
  | hostWrite (addr : Nat) (bytes : Bytes) (ep : Bool)
  /-- a memory read request on PCI Express (08 R176, 15 R359) -/
  | hostRead (addr len : Nat)
  /-- an MSI-X message: vector, message address and data (15 R349) -/
  | msix (vector addr data : Nat)
  /-- a completion with data of a host read, with the EP bit (15 R347, 21 R466) -/
  | completion (bytes : Bytes) (poisoned : Bool)
  /-- an Unsupported Request completed or reported (15 R344, R347) -/
  | unsupported
  /-- a write of the host is discarded and reported through AER as an Unsupported Request (15 R344, R347) -/
  | aerUnsupported
  /-- a FIRE pulse: course, rising edge in 1/128 ns, width in ns (04 R86) -/
  | fire (course start width : Nat)
  /-- a FIRE pulse ended early at this TB instant (04 R88) -/
  | fireCut (course tick : Nat)
  /-- the idle level of every FIRE_P/FIRE_N pair: P low and N high (true), or both held low (false) (04 R89) -/
  | firePorts (idle : Bool)
  /-- a ring frame sent on a port (13) -/
  | frame (p : Port) (bytes : Bytes)
  /-- the copy of a frame in transit that could not be completed, ended with STOMP (14 R329) -/
  | stomped (p : Port) (bytes : Bytes)
  /-- a control block sent on a port: the lane it must leave on, where the spec names one, its kind and content (14) -/
  | block (p : Port) (lane : Option Nat) (kind : Nat) (content : Bytes)
  /-- the external permit outputs and SAFE_FAULT_N: granting or denying (01 R17, 10) -/
  | permit (grant : Bool)
  deriving DecidableEq, Repr

/-! ### Angle, timebase and vehicle time (02, 08) -/

/-- Scan kind (Table ANGL-1). -/
inductive ScanKind where
  | rotor | mirror
  deriving DecidableEq, Repr

/-- The column boundary table: explicit entries, or the even table of Table ANGL-8. -/
inductive ColTable where
  | even (first last : Nat)
  | explicit (entries : List Nat)
  deriving DecidableEq, Repr

/-- Scan settings (Table ANGL-7). -/
structure ScanSettings where
  /-- 1; 02_angle_timebase.md R24; SCAN_KIND; reset ROTOR (R46) -/
  kind : ScanKind := .rotor
  /-- 33; 02_angle_timebase.md Table ANGL-7; FORWARD_SPAN in counts; reset 2^32 (R46) -/
  forwardSpan : Nat := 2 ^ 32
  /-- 32; 02_angle_timebase.md Table ANGL-7; MECH_SPAN in microdegrees; reset 360,000,000 (R46) -/
  mechSpan : Nat := 360000000
  deriving DecidableEq, Repr

/-- Index settings (Table ANGL-9). -/
structure IndexSettings where
  /-- 3; 02_angle_timebase.md Table ANGL-9; SOURCE; reset 0 -/
  source : Nat := 0
  /-- signed 14; 02_angle_timebase.md Table ANGL-9; LEVEL; reset 0 (R46, required for INDEX) -/
  level : Int := 0
  /-- 32; 02_angle_timebase.md Table ANGL-9; INDEX_ANGLE; reset 0x4000 -/
  angle : Nat := 0x4000
  /-- 32; 02_angle_timebase.md Table ANGL-9; SUSPECT_BOUND; reset 11,930 -/
  suspectBound : Nat := 11930
  /-- 32; 02_angle_timebase.md Table ANGL-9; RELOCK_BOUND; reset 0x100000 -/
  relockBound : Nat := 0x100000
  /-- 32; 02_angle_timebase.md Table ANGL-9; HOLDOFF; reset 0x80000000 -/
  holdoff : Nat := 0x80000000
  deriving DecidableEq, Repr

/-- Predictor state (Table ANGL-5). -/
inductive PredState where
  | stopped | acquire | coarse | locked | holdover
  deriving DecidableEq, Repr

/-- An angle update (Table ANGL-3). -/
structure AngleUpdate where
  /-- 32 + 24; 02_angle_timebase.md Table ANGL-3; phase, LSB 2^-24 count -/
  theta : Nat := 0
  /-- signed 42; 02_angle_timebase.md Table ANGL-3; angular velocity, LSB 2^-32 count per ns -/
  omega : Int := 0
  /-- signed 41; 02_angle_timebase.md Table ANGL-3; angular acceleration, LSB 2^-48 count per ns^2 -/
  alpha : Int := 0
  /-- 64; 02_angle_timebase.md R33; sample instant -/
  ts : Nat := 0
  /-- 2; 02_angle_timebase.md Table ANGL-3; index generation -/
  gen : Nat := 0
  deriving DecidableEq, Repr

/-- A slew in progress (R35): parts still to be added, one a tick. -/
structure Slew where
  /-- 02_angle_timebase.md R35; the value slewed, LSB 2^-24 count -/
  x : Int
  /-- 9; 02_angle_timebase.md R35; parts still to come -/
  left : Nat
  deriving DecidableEq, Repr

/-- Corrections attributed to one frame (R39 to R41). -/
structure FrameAttr where
  /-- 02_angle_timebase.md R39; a correction is attributed to the frame -/
  corrected : Bool := false
  /-- 02_angle_timebase.md R41; one of them exceeds SUSPECT_BOUND -/
  exceeded : Bool := false
  deriving DecidableEq, Repr

/-- Angle prediction and frame placement. -/
structure AngleState where
  /-- 3; 02_angle_timebase.md R43; predictor state; reset STOPPED (Table ANGL-5) -/
  pred : PredState := .stopped
  /-- 64 + 24; 02_angle_timebase.md R24; U, LSB 2^-24 count; reset 0 (DESIGN CHOICE, log 9) -/
  u : Nat := 0
  /-- 4,000 x 88; 02_angle_timebase.md R38; the 4 us history of U, newest first; reset empty -/
  hist : List Nat := []
  /-- 88; 02_angle_timebase.md R34; Us of the update in force; reset 0 (DESIGN CHOICE, log 9) -/
  us : Int := 0
  /-- 02_angle_timebase.md R34; the update in force; reset none -/
  upd : Option AngleUpdate := none
  /-- 56; 02_angle_timebase.md R35; the slewed correction c, LSB 2^-24 count; reset 0 -/
  c : Int := 0
  /-- 02_angle_timebase.md R35; slews in progress; reset none -/
  slews : List Slew := []
  /-- 64; 02_angle_timebase.md R36; arrival of the last accepted update; reset 0 -/
  lastArrival : Nat := 0
  /-- 32; 02_angle_timebase.md R36; consecutive periods already counted missed; reset 0 -/
  missed : Nat := 0
  /-- 32; 02_angle_timebase.md R36; T_c in force at die A, ns; reset 32 (DESIGN CHOICE, the smallest period, log 9) -/
  tc : Nat := 32
  /-- 2; 02_angle_timebase.md R38; index generation die A last sent; reset 0 -/
  gen : Nat := 0
  /-- up to 3 signed; 02_angle_timebase.md R38; the -E of the last index generations, newest first, which die A adds to updates of an earlier generation; reset none -/
  genAdds : List Int := []
  /-- signed, one per index; 02_angle_timebase.md R38; -E sent to die B and not yet taken by the control engine; reset none -/
  toDieB : List Int := []
  /-- 64; 02_angle_timebase.md R37; Uref of the last accepted index; reset none -/
  uref : Option Nat := none
  /-- 1; 02_angle_timebase.md R42; INDEX_MISSING already logged since that index; reset 0 -/
  missingLogged : Bool := false
  /-- per frame; 02_angle_timebase.md R39; corrections attributed, by unwrapped frame number; reset none -/
  attr : Tab FrameAttr := []
  /-- 64; 02_angle_timebase.md R40; last frame one of whose tiles has completed; reset none -/
  firstDone : Option Nat := none
  /-- 3; 02_angle_timebase.md R42; consecutive frames without an attributed correction; reset 0 -/
  uncorrected : Nat := 0
  /-- 02_angle_timebase.md R476; corrections made in the COARSE interval; reset 0 -/
  ivCount : Nat := 0
  /-- 1; 02_angle_timebase.md R476; one of them above SUSPECT_BOUND; reset 0 -/
  ivBad : Bool := false
  /-- 64; 02_angle_timebase.md Table ANGL-10; last frame counted in SUSPECT_FRAMES; reset none -/
  lastSuspect : Option Nat := none
  /-- signed 32; 02_angle_timebase.md Table ANGL-10; LAST_E; reset 0 -/
  lastE : Int := 0
  /-- 32; 02_angle_timebase.md Table ANGL-10; MAX_ABS_E; reset 0 -/
  maxAbsE : Nat := 0
  /-- 32; 02_angle_timebase.md R49; SUSPECT_FRAMES; reset 0 -/
  suspectFrames : Nat := 0
  /-- 32; 02_angle_timebase.md R34, R49; HOLD_NS; reset 0 -/
  holdNs : Nat := 0
  /-- 32; 02_angle_timebase.md R36, R49; MISSED_UPDATES; reset 0 -/
  missedUpdates : Nat := 0
  /-- 32; 02_angle_timebase.md R37, R49; INDEX_REJECTED; reset 0 -/
  indexRejected : Nat := 0
  /-- 32; 02_angle_timebase.md R42, R49; INDEX_MISSING; reset 0 -/
  indexMissing : Nat := 0
  /-- 64 (32 reported); 00_scope.md R5, R6; last frame number used, unwrapped; reset 0xFFFF_FFFF (R6) -/
  frame : Nat := 0xFFFFFFFF
  /-- 1; 00_scope.md R6; a frame has been opened since VKA power-up; reset 0 -/
  opened : Bool := false
  /-- 1; 02_angle_timebase.md R30, R44; a frame is in progress; reset 0 -/
  inFrame : Bool := false
  /-- 16; 00_scope.md R5, R6; epoch in force; reset 0 (R6) -/
  epoch : Nat := 0
  /-- 12; 02_angle_timebase.md R28; next column boundary of the frame to be crossed, 2,049 when all are; reset 2,049 -/
  nextCol : Nat := 2049
  /-- 64; 02_angle_timebase.md R32; the device timebase TB in ns; reset 0 -/
  tb : Nat := 0
  deriving DecidableEq, Repr

/-- Vehicle time (08 R182, R183; 21 Table REGS-14). -/
structure VehicleTime where
  /-- 64; 08_records_and_history.md R182; V in ns; reset 0 -/
  v : Nat := 0
  /-- 1; 21_register_map.md Table REGS-15; TIME_VALID; reset 0 -/
  valid : Bool := false
  /-- 1; 08_records_and_history.md R183; TIME_DISCIPLINED; reset 0 -/
  disciplined : Bool := false
  /-- 1; 21_register_map.md Table REGS-15; STEPPED; reset 0 -/
  stepped : Bool := false
  /-- 1; 08_records_and_history.md R183; TIME_STEPPED due in the next frame header; reset 0 -/
  stepFlag : Bool := false
  /-- 64; 21_register_map.md Table REGS-14; TIME_SET; reset 0 -/
  set : Nat := 0
  /-- 1; 21_register_map.md Table REGS-14; TIME_CONFIG.DISCIPLINE; reset 0 -/
  discipline : Bool := false
  /-- 1; 21_register_map.md Table REGS-15; LOAD_PENDING; reset 0 -/
  loadPending : Bool := false
  /-- signed 32; 21_register_map.md Table REGS-14; TIME_LAST_E; reset 0 -/
  lastE : Int := 0
  /-- 1; 08_records_and_history.md R183; an e has been evaluated, so that LAST_E is one; reset 0 -/
  evaluated : Bool := false
  /-- signed; 21_register_map.md Table REGS-14; TIME_TRIM in 10^-9; reset 0 -/
  trim : Int := 0
  /-- 08_records_and_history.md R183; fraction of a ns accumulated by the trim, in 10^-9 ns; reset 0 -/
  trimAcc : Int := 0
  /-- signed; 08_records_and_history.md R183; slew still to be applied, ns; reset 0 -/
  slewLeft : Int := 0
  /-- 08_records_and_history.md R183; ticks into the slew; reset 0 -/
  slewTick : Nat := 0
  /-- signed; 08_records_and_history.md R183; total of the slew in progress, ns; reset 0 -/
  slewTotal : Int := 0
  /-- 32; 21_register_map.md Table REGS-14; TIME_PPS_EDGES; reset 0 -/
  edges : Nat := 0
  /-- 64; 21_register_map.md Table REGS-14; TIME_PPS_AT; reset 0 -/
  ppsAt : Nat := 0
  /-- 64; 08_records_and_history.md R183; TB of the last edge or accepted SYNC; reset none -/
  lastEdge : Option Nat := none
  deriving DecidableEq, Repr

/-! ### Filter chains and the scan loop (03) -/

/-- Detector settings of a chain (Table LOOP-11). -/
structure DetSettings where
  /-- 5; 03_scan_loop_and_filters.md Table LOOP-11; RMS_LOG2N; reset 0 (DESIGN CHOICE, log 13) -/
  rmsLog2n : Nat := 0
  /-- 1; 03_scan_loop_and_filters.md Table LOOP-11; ENV_SRC is omega; reset 0 (DESIGN CHOICE, log 13) -/
  envOmega : Bool := false
  /-- 5; 03_scan_loop_and_filters.md Table LOOP-11; DECAY_SHIFT; reset 1 (DESIGN CHOICE, log 13) -/
  decayShift : Nat := 1
  /-- signed 24; 03_scan_loop_and_filters.md Table LOOP-11; ENV_CENTER; reset 0 (DESIGN CHOICE, log 13) -/
  envCenter : Int := 0
  /-- signed 24; 03_scan_loop_and_filters.md Table LOOP-11; TH_LEVEL; reset 0 (DESIGN CHOICE, log 13) -/
  thLevel : Int := 0
  /-- 23; 03_scan_loop_and_filters.md Table LOOP-11; TH_HYST; reset 0 (DESIGN CHOICE, log 13) -/
  thHyst : Int := 0
  /-- 1; 03_scan_loop_and_filters.md Table LOOP-11; TH_ENABLE; reset 0 (DESIGN CHOICE, log 13) -/
  thEnable : Bool := false
  deriving DecidableEq, Repr

/-- One filter and decimation chain. -/
structure Chain where
  /-- 1; 03_scan_loop_and_filters.md Table LOOP-10; FILT_CONFIG was accepted; reset 0 -/
  configured : Bool := false
  /-- 1; 03_scan_loop_and_filters.md R55; running; reset 0 (stopped) -/
  running : Bool := false
  /-- 5; 03_scan_loop_and_filters.md Table LOOP-9; CIC decimation 4, 8 or 16; reset 4 (DESIGN CHOICE, log 13) -/
  cicDec : Nat := 4
  /-- 8; 03_scan_loop_and_filters.md Table LOOP-9; FIR length 32, 64 or 128; reset 32 (DESIGN CHOICE, log 13) -/
  firLen : Nat := 32
  /-- 6; 03_scan_loop_and_filters.md Table LOOP-9; FIR decimation; reset 1 (DESIGN CHOICE, log 13) -/
  firDec : Nat := 1
  /-- L/2 x signed 18; 03_scan_loop_and_filters.md Table LOOP-9; taps; reset none (DESIGN CHOICE, log 13) -/
  taps : List Int := []
  /-- 2; 03_scan_loop_and_filters.md R56; source: 0 PICK0, 1 PICK1, 2 housekeeping; reset 0 (DESIGN CHOICE, log 13) -/
  source : Nat := 0
  /-- 4; 03_scan_loop_and_filters.md R56; HK_CH; reset 0 (DESIGN CHOICE, log 13) -/
  hkCh : Nat := 0
  /-- Dc x Df x signed 14; 03_scan_loop_and_filters.md R56; housekeeping samples that entered since the last output, oldest first; reset none -/
  held : List Int := []
  /-- 64; 03_scan_loop_and_filters.md R60; JSEQ of the FILT_CONTROL that started it; reset 0 -/
  startedBy : Nat := 0
  /-- 4 x 32; 03_scan_loop_and_filters.md R51; CIC integrators, modulo 2^32; reset 0 (R55) -/
  integ : List Nat := [0, 0, 0, 0]
  /-- 4 x 32; 03_scan_loop_and_filters.md R51; CIC comb delays, modulo 2^32; reset 0 (R55) -/
  comb : List Nat := [0, 0, 0, 0]
  /-- up to 128 x signed 24; 03_scan_loop_and_filters.md R51; FIR delay line, newest first; reset 0 (R55) -/
  line : List Int := []
  /-- 8; 03_scan_loop_and_filters.md R54; outputs still to carry UNSETTLED; reset 0 -/
  unsettled : Nat := 0
  /-- 32; 03_scan_loop_and_filters.md R60; outputs since the start, for K; reset 0 -/
  count : Nat := 0
  /-- signed 24; 03_scan_loop_and_filters.md R51; last output, LSB 2^-8 code; reset 0 -/
  out : Int := 0
  /-- 1; 03_scan_loop_and_filters.md R54; the last output was settled; reset 0 -/
  settled : Bool := false
  /-- 03_scan_loop_and_filters.md R60; an output of this chain waits for the other's; reset 0 -/
  fresh : Bool := false
  /-- 1; 03_scan_loop_and_filters.md R67; CHAIN_SAT; reset 0 -/
  sat : Bool := false
  /-- 03_scan_loop_and_filters.md Table LOOP-11; detector settings in force; reset as `DetSettings` -/
  det : DetSettings := {}
  /-- 03_scan_loop_and_filters.md R59; DET_CONFIG waiting for the next output; reset none -/
  detNew : Option DetSettings := none
  /-- signed 24; 03_scan_loop_and_filters.md R58; peak maximum; reset empty -/
  peakMax : Option Int := none
  /-- signed 24; 03_scan_loop_and_filters.md R58; peak minimum; reset empty -/
  peakMin : Option Int := none
  /-- 03_scan_loop_and_filters.md R58; sum of squares of the RMS block; reset 0 -/
  rmsSum : Nat := 0
  /-- 17; 03_scan_loop_and_filters.md R58; outputs in the RMS block; reset 0 -/
  rmsCount : Nat := 0
  /-- 32; 03_scan_loop_and_filters.md R58; last complete RMS block; reset 0 -/
  rms : Nat := 0
  /-- 32; 03_scan_loop_and_filters.md R58; envelope; reset 0 -/
  env : Nat := 0
  /-- 1; 03_scan_loop_and_filters.md R58; threshold state HIGH; reset 0 -/
  high : Bool := false
  deriving DecidableEq, Repr

/-- LOOP_CONFIG settings (Table LOOP-12). -/
structure LoopConfig where
  /-- 2; 03_scan_loop_and_filters.md Table LOOP-12; MODE -/
  mode : Nat := 0
  /-- 1; 03_scan_loop_and_filters.md Table LOOP-12; DRIVE_KIND is PWM -/
  pwm : Bool := false
  /-- 4; 03_scan_loop_and_filters.md Table LOOP-12; K -/
  k : Nat := 1
  /-- 7; 03_scan_loop_and_filters.md Table LOOP-12; CYCLES -/
  cycles : Nat := 1
  /-- 1; 03_scan_loop_and_filters.md Table LOOP-12; TRAJ -/
  traj : Nat := 0
  /-- 1; 03_scan_loop_and_filters.md Table LOOP-12; DRV_INTERP -/
  interp : Bool := false
  /-- 2; 03_scan_loop_and_filters.md Table LOOP-12; DRV1_MODE -/
  drv1Mode : Nat := 0
  /-- 2; 03_scan_loop_and_filters.md Table LOOP-12; FAULT_ACTION -/
  faultAction : Nat := 0
  /-- 15; 03_scan_loop_and_filters.md Table LOOP-12; FRAME_RATE in mHz -/
  frameRate : Nat := 20000
  /-- signed 24; 03_scan_loop_and_filters.md Table LOOP-12; X_START -/
  xStart : Int := 0
  /-- signed 24; 03_scan_loop_and_filters.md Table LOOP-12; X_END -/
  xEnd : Int := 0
  /-- signed 16; 03_scan_loop_and_filters.md Table LOOP-12; DRV1_VALUE -/
  drv1Value : Int := 0
  /-- 5; 03_scan_loop_and_filters.md Table LOOP-12; POLE_PAIRS -/
  polePairs : Nat := 0
  /-- 7; 03_scan_loop_and_filters.md Table LOOP-12; STALL_COUNT -/
  stallCount : Nat := 1
  /-- 32; 03_scan_loop_and_filters.md Table LOOP-12; COMM_OFFSET -/
  commOffset : Nat := 0
  /-- 31; 03_scan_loop_and_filters.md Table LOOP-12; TRACK_BOUND -/
  trackBound : Nat := 1
  /-- 7; 03_scan_loop_and_filters.md Table LOOP-12; TRACK_COUNT -/
  trackCount : Nat := 1
  /-- 1; 03_scan_loop_and_filters.md Table LOOP-12; STALL_CHAIN -/
  stallChain : Nat := 0
  /-- 16; 03_scan_loop_and_filters.md Table LOOP-12; SETTLE_PERIODS -/
  settlePeriods : Nat := 1
  /-- 32; 03_scan_loop_and_filters.md Table LOOP-12; SPEED_WIN -/
  speedWin : Nat := 0
  /-- 32; 03_scan_loop_and_filters.md Table LOOP-12; CAPTURE_BOUND -/
  captureBound : Nat := 0
  /-- 32; 03_scan_loop_and_filters.md Table LOOP-12; STALL_LEVEL -/
  stallLevel : Nat := 0
  /-- 15; 03_scan_loop_and_filters.md Table LOOP-12; DAC_TOL -/
  dacTol : Nat := 1
  /-- 14; 03_scan_loop_and_filters.md Table LOOP-12; PWM_PERIOD -/
  pwmPeriod : Nat := 0
  /-- signed 18; 03_scan_loop_and_filters.md Table LOOP-12; VEL_W in Q1.16 -/
  velW : Int := 0
  /-- 17; 03_scan_loop_and_filters.md Table LOOP-12; G1 in Q0.17 -/
  g1 : Nat := 0
  /-- 17; 03_scan_loop_and_filters.md Table LOOP-12; G2 in Q0.17 -/
  g2 : Nat := 0
  /-- 17; 03_scan_loop_and_filters.md Table LOOP-12; G3 in Q0.17 -/
  g3 : Nat := 0
  /-- 32; 03_scan_loop_and_filters.md Table LOOP-12; PHASE_SLEW -/
  phaseSlew : Nat := 0
  deriving DecidableEq, Repr

/-- One stage of a coefficient set (Table LOOP-13). -/
structure StageCoef where
  /-- signed 18; 03_scan_loop_and_filters.md R63, R64; b0 -/
  b0 : Int := 0
  /-- signed 18; 03_scan_loop_and_filters.md R63, R64; b1 -/
  b1 : Int := 0
  /-- signed 18; 03_scan_loop_and_filters.md R63, R64; b2 -/
  b2 : Int := 0
  /-- signed 18; 03_scan_loop_and_filters.md R63, R64; a1 -/
  a1 : Int := 0
  /-- signed 18; 03_scan_loop_and_filters.md R63, R64; a2 -/
  a2 : Int := 0
  /-- signed 6; 03_scan_loop_and_filters.md R63, R64; exponent Gk or Fk -/
  exp : Int := 0
  /-- 2; 03_scan_loop_and_filters.md R64; post-shift Pk -/
  pshift : Nat := 0
  deriving DecidableEq, Repr

/-- A coefficient set (R63, R64). -/
structure CoefSet where
  /-- 1; 03_scan_loop_and_filters.md R71; the set has been loaded; reset 0 -/
  loaded : Bool := false
  /-- 4; 03_scan_loop_and_filters.md Table LOOP-13; NSTAGES; reset 1 (DESIGN CHOICE, log 13) -/
  nStages : Nat := 1
  /-- signed 6; 03_scan_loop_and_filters.md Table LOOP-13; EXP_IN; reset 0 (DESIGN CHOICE, log 13) -/
  expIn : Int := 0
  /-- 8 stages; 03_scan_loop_and_filters.md Table LOOP-13; coefficients; reset none (DESIGN CHOICE, log 13) -/
  stages : List StageCoef := []
  deriving DecidableEq, Repr

/-- The states of one stage: its last two inputs and outputs, as mantissas (R63, R64). -/
structure StageState where
  /-- signed 18; 03_scan_loop_and_filters.md R63; x1; reset 0 -/
  x1 : Int := 0
  /-- signed 18; 03_scan_loop_and_filters.md R63; x2; reset 0 -/
  x2 : Int := 0
  /-- signed 24; 03_scan_loop_and_filters.md R65; y1; reset 0 -/
  y1 : Int := 0
  /-- signed 24; 03_scan_loop_and_filters.md R65; y2; reset 0 -/
  y2 : Int := 0
  deriving DecidableEq, Repr

/-- Loop state (Table LOOP-7). -/
inductive LoopRun where
  | stopped | startup | service | manual | fault | recovery | selftest
  deriving DecidableEq, Repr

/-- A LOOP_CONTROL waiting for the start of the next control period. -/
structure LoopAction where
  /-- 64; 03_scan_loop_and_filters.md R78; JSEQ of the command -/
  jseq : Nat
  /-- 3; 03_scan_loop_and_filters.md Table LOOP-13; ACTION -/
  action : Nat
  /-- signed 16; 03_scan_loop_and_filters.md Table LOOP-13; MANUAL_DRIVE -/
  drive : Int
  deriving DecidableEq, Repr

/-- A stream trigger unit of die B (09 R196). -/
structure PickUnit where
  /-- 14; 09_waveform_capture.md R195; the last sample tested; reset none -/
  last : Option Int := none
  /-- 1; 09_waveform_capture.md R195; a sample at or below LEVEL - 16 since the last qualifying crossing; reset 0 -/
  low : Bool := false
  /-- 1; 09_waveform_capture.md R195; a sample at or above LEVEL + 16 since the last qualifying crossing; reset 0 -/
  high : Bool := false
  /-- 64; 09_waveform_capture.md R196; instant of the next sample to test, ns; reset 0 -/
  next : Nat := 0
  deriving DecidableEq, Repr

/-- Filter chains, loop and drive. -/
structure LoopState where
  /-- 2 chains; 03_scan_loop_and_filters.md R51; reset as `Chain` -/
  chains : Tab Chain := []
  /-- 03_scan_loop_and_filters.md R78; LOOP_CONFIG in force; reset none (no LOOP_CONFIG since VKA power-up) -/
  config : Option LoopConfig := none
  /-- 3 sets; 03_scan_loop_and_filters.md R68; banks 0 and 1 and the start-up set (index 2); reset as `CoefSet` -/
  sets : Tab CoefSet := []
  /-- 1; 03_scan_loop_and_filters.md R71; bank in force; reset 0 (DESIGN CHOICE, log 13) -/
  bank : Nat := 0
  /-- 3; 03_scan_loop_and_filters.md Table LOOP-7; loop state; reset STOPPED (R278) -/
  run : LoopRun := .stopped
  /-- 1; 03_scan_loop_and_filters.md Table LOOP-14; the signals are Q15; reset 0 (DESIGN CHOICE, log 13) -/
  q15 : Bool := false
  /-- 8 stages; 03_scan_loop_and_filters.md R63; stage states; reset 0 -/
  stages : List StageState := []
  /-- signed 24; 03_scan_loop_and_filters.md R65; a preset target of the integrator, taken at the next period; reset none -/
  preset : Option Int := none
  /-- 1; 03_scan_loop_and_filters.md R71; the integrator saturated in the last period; reset 0 -/
  integSat : Bool := false
  /-- 03_scan_loop_and_filters.md R78; LOOP_CONTROL commands not yet taken, oldest first; reset none -/
  actions : List LoopAction := []
  /-- 03_scan_loop_and_filters.md R79; LOOP_STATUS commands waiting for a period start, oldest first: JSEQ and CLEAR; reset none -/
  reads : List (Nat × Bool) := []
  /-- 32; 03_scan_loop_and_filters.md Table LOOP-14; PERIOD; reset 0 -/
  period : Nat := 0
  /-- 64; 03_scan_loop_and_filters.md R61; sample instant of the estimate; reset 0 -/
  ts : Nat := 0
  /-- 32 + 24; 03_scan_loop_and_filters.md R61; phase th, LSB 2^-24 count; reset 0 -/
  th : Int := 0
  /-- signed 42; 03_scan_loop_and_filters.md R61; velocity w, LSB 2^-32 count per ns; reset 0 -/
  w : Int := 0
  /-- signed 41; 03_scan_loop_and_filters.md R61; acceleration a, LSB 2^-48 count per ns^2; reset 0 -/
  a : Int := 0
  /-- 03_scan_loop_and_filters.md Table LOOP-1; electrical cycle count k, ROTOR_SINCOS; reset 0 -/
  cycle : Nat := 0
  /-- 32; 03_scan_loop_and_filters.md Table LOOP-1; last electrical phase, ROTOR_SINCOS; reset none -/
  lastPhi : Option Nat := none
  /-- 03_scan_loop_and_filters.md R61; ROTOR_SINGLE crossings waiting for their period, oldest first: instant in 1/64 ns and theta_m; reset none -/
  crossings : List (Nat × Nat) := []
  /-- 2 units; 09_waveform_capture.md R196; the stream trigger units; reset as `PickUnit` -/
  picks : Tab PickUnit := []
  /-- 32 + 24; 03_scan_loop_and_filters.md Table LOOP-1; measurement angle of ROTOR_SINGLE, LSB 2^-24 count; reset 0 -/
  thetaM : Nat := 0
  /-- 2; 02_angle_timebase.md R38; index generation of the control engine; reset 0 -/
  gen : Nat := 0
  /-- 32 + 24; 03_scan_loop_and_filters.md R62; theta_ref, LSB 2^-24 count; reset 0 -/
  thetaRef : Int := 0
  /-- signed 32; 03_scan_loop_and_filters.md Table LOOP-14; ERROR; reset 0 -/
  error : Int := 0
  /-- 17; 03_scan_loop_and_filters.md Table LOOP-7; consecutive settled periods; reset 0 -/
  settle : Nat := 0
  /-- 4; 10_emission_supervisor.md Table SAFE-1; consecutive periods in SERVICE, up to 10; reset 0 -/
  service : Nat := 0
  /-- 7; 03_scan_loop_and_filters.md Table LOOP-8; consecutive stall evaluations; reset 0 -/
  stall : Nat := 0
  /-- 7; 03_scan_loop_and_filters.md Table LOOP-8; consecutive tracking periods; reset 0 -/
  track : Nat := 0
  /-- 2; 03_scan_loop_and_filters.md Table LOOP-8; consecutive DAC-stuck rounds; reset 0 -/
  dacRounds : Nat := 0
  /-- 2; 03_scan_loop_and_filters.md Table LOOP-8; consecutive PWM-stuck cycles; reset 0 -/
  pwmCycles : Nat := 0
  /-- 2; 03_scan_loop_and_filters.md Table LOOP-8; the last fault detected in the period in progress; reset none -/
  faultNew : Option Nat := none
  /-- 2; 03_scan_loop_and_filters.md Table LOOP-14; FAULT_CAUSE; reset 0 -/
  faultCause : Nat := 0
  /-- 1; 03_scan_loop_and_filters.md Table LOOP-7; a fault since entering RECOVERY; reset 0 -/
  recovered : Bool := false
  /-- 1; 10_emission_supervisor.md Table SAFE-1; loop-fault input of the Emission Supervisor; reset 0 -/
  esInput : Bool := false
  /-- signed 16; 03_scan_loop_and_filters.md R74; drive code in force on DRV0; reset 0 (19 Table BOOT-2) -/
  drv0 : Int := 0
  /-- signed 16; 03_scan_loop_and_filters.md R74; drive code in force on DRV1; reset 0 (19 Table BOOT-2) -/
  drv1 : Int := 0
  /-- signed 16; 03_scan_loop_and_filters.md R74; start of the DRV0 ramp; reset 0 -/
  rampFrom : Int := 0
  /-- 64; 03_scan_loop_and_filters.md R74; instant the ramp or hold began; reset 0 -/
  rampAt : Nat := 0
  /-- signed 16; 03_scan_loop_and_filters.md R60; drive code computed for the next period; reset none (hold) -/
  next : Option Int := none
  /-- 1; 03_scan_loop_and_filters.md R74; drive on; reset 0 -/
  driveOn : Bool := false
  /-- 1; 03_scan_loop_and_filters.md Table LOOP-7; drive off at the next period (FAULT_ACTION ZERO); reset 0 -/
  offNext : Bool := false
  /-- 3 x 14; 03_scan_loop_and_filters.md R75; PWM duties in force, in 4 ns ticks; reset 0 (all low) -/
  duty : List Nat := [0, 0, 0]
  /-- 3 x 14; 03_scan_loop_and_filters.md R75; duties waiting for the next PWM cycle; reset none -/
  dutyNew : Option (List Nat) := none
  /-- 02_angle_timebase.md R33; angle update computed and sent at the next period start; reset none -/
  update : Option AngleUpdate := none
  /-- 02_angle_timebase.md R36; angle updates on the Mortar link, oldest first; reset none -/
  sent : List AngleUpdate := []
  /-- 8; 03_scan_loop_and_filters.md R67; SAT; reset 0 -/
  sat : Nat := 0
  /-- 8; 03_scan_loop_and_filters.md R67; ACC; reset 0 -/
  acc : Nat := 0
  /-- 1; 03_scan_loop_and_filters.md R67; DRV_SAT; reset 0 -/
  drvSat : Bool := false
  /-- 1; 03_scan_loop_and_filters.md R69; SELFTEST_FAILED; reset 0 -/
  selftestFailed : Bool := false
  /-- 64; 03_scan_loop_and_filters.md R69; JSEQ of the LOOP_CONTROL running the self-test; reset none -/
  selftestOf : Option Nat := none
  /-- 64; 03_scan_loop_and_filters.md R69; entry into STARTUP; reset 0 -/
  startupAt : Nat := 0
  /-- 1; 03_scan_loop_and_filters.md R69; LOOP_START_SLOW logged; reset 0 -/
  slowLogged : Bool := false
  /-- 32; 03_scan_loop_and_filters.md Table LOOP-14; SWAPS; reset 0 -/
  swaps : Nat := 0
  /-- 32; 03_scan_loop_and_filters.md Table LOOP-14; FAULTS; reset 0 -/
  faults : Nat := 0
  deriving DecidableEq, Repr

/-! ### Shot programs, allocation and the scheduler (04) -/

/-- One course's shot program (Table SHOT-1). CODE_FAMILY's default is the course number, so it is held as an
override. -/
structure ShotProgram where
  /-- 24; 04_shot_scheduling.md Table SHOT-1; OFFSET; reset 0 -/
  offset : Nat := 0
  /-- 13; 04_shot_scheduling.md Table SHOT-1; WINDOW in ns; reset 2,048 -/
  window : Nat := 2048
  /-- 12; 04_shot_scheduling.md Table SHOT-1; GUARD in ns; reset 400 -/
  guard : Nat := 400
  /-- 12; 04_shot_scheduling.md Table SHOT-1; CODE_FAMILY; reset the course number (none) -/
  family : Option Nat := none
  /-- 4; 04_shot_scheduling.md Table SHOT-1; DSPAN_LOG2; reset 8 -/
  dspan : Nat := 8
  /-- 1; 04_shot_scheduling.md Table SHOT-1; DP_ENABLE; reset 0 -/
  dpEnable : Bool := false
  /-- 4; 04_shot_scheduling.md Table SHOT-1; spacing index; reset 0 -/
  dpIndex : Nat := 0
  /-- 5; 04_shot_scheduling.md Table SHOT-1; PULSE in ns; reset 4 -/
  pulse : Nat := 4
  /-- signed 16; 04_shot_scheduling.md Table SHOT-1; DESKEW in 7.8125 ps; reset 0 -/
  deskew : Int := 0
  deriving DecidableEq, Repr

/-- Allocation settings (Table SHOT-9). -/
structure AllocSettings where
  /-- 2; 04_shot_scheduling.md Table SHOT-9; MODE; reset 0 UNIFORM -/
  mode : Nat := 0
  /-- 6; 04_shot_scheduling.md Table SHOT-9; N_UNIFORM; reset 8 -/
  nUniform : Nat := 8
  /-- 6; 04_shot_scheduling.md Table SHOT-9; N_MIN; reset 1 -/
  nMin : Nat := 1
  /-- 6; 04_shot_scheduling.md Table SHOT-9; N_MAX; reset 32 -/
  nMax : Nat := 32
  /-- 16 x 8; 04_shot_scheduling.md Table SHOT-9; G[0..15]; reset 16 each -/
  g : List Nat := List.replicate 16 16
  /-- 128 x 32; 04_shot_scheduling.md Table SHOT-9; BUDGET[0..127]; reset 16,384 each -/
  budget : Tab Nat := []
  deriving DecidableEq, Repr

/-- One tile parameter map entry (Table SHOT-5). -/
structure TpmEntry where
  /-- 6; 04_shot_scheduling.md Table SHOT-5; N; reset 8 (R95) -/
  n : Nat := 8
  /-- 4; 04_shot_scheduling.md Table SHOT-5; Q; reset 0 (R95) -/
  q : Nat := 0
  /-- 1; 04_shot_scheduling.md Table SHOT-5; LOWGAIN; reset 0 (R95) -/
  lowGain : Bool := false
  deriving DecidableEq, Repr

/-- One of the allocator's two state sets of a course (R100). -/
structure AllocSet where
  /-- 32; 04_shot_scheduling.md R100; d_prev; reset 0 -/
  dPrev : Nat := 0
  /-- 04_shot_scheduling.md R100; carry in 2^-16 shot; reset 0 -/
  carry : Nat := 0
  /-- 32; 04_shot_scheduling.md R100; spend; reset 0 -/
  spend : Nat := 0
  /-- 32; 04_shot_scheduling.md R100; d_run; reset 0 -/
  dRun : Nat := 0
  deriving DecidableEq, Repr

/-- A shot that passed Table SHOT-4 and whose window is not closed. -/
structure Flight where
  /-- 04_shot_scheduling.md R90; frame of its tile, unwrapped -/
  frame : Nat := 0
  /-- 11; 04_shot_scheduling.md R82; column of its tile -/
  column : Nat := 0
  /-- 5; 04_shot_scheduling.md R82; shot number within the tile -/
  k : Nat := 0
  /-- 64; 04_shot_scheduling.md R86; due tick -/
  due : Nat := 0
  /-- 8; 04_shot_scheduling.md R84; dither -/
  dither : Nat := 0
  /-- 04_shot_scheduling.md R86; launch instant in 1/128 ns -/
  launch : Nat := 0
  /-- 1; 04_shot_scheduling.md R88; the first pulse was emitted -/
  launched : Bool := false
  /-- 1; 04_shot_scheduling.md R85; a second pulse is still due -/
  second : Bool := false
  /-- 04_shot_scheduling.md R88; rising edges of its pulses that have left and were not cut, in 1/128 ns; reset none -/
  pulses : List Nat := []
  deriving DecidableEq, Repr

/-- The scheduler's state of one course. -/
structure CourseShot where
  /-- 04_shot_scheduling.md R82; SLOT_COUNTS of the frame; reset 0 (no frame has opened) -/
  slotCounts : Nat := 0
  /-- 16; 04_shot_scheduling.md R84, 07_rejection.md R159; dither state, never 0; reset 1 (DESIGN CHOICE, set at every frame boundary, log 10) -/
  dither : Nat := 1
  /-- 32; 04_shot_scheduling.md R98; CAP_c latched at the frame boundary; reset 0 (no frame has opened) -/
  cap : Nat := 0
  /-- 64; 04_shot_scheduling.md R100; last_f, unwrapped; reset none (empty) -/
  lastF : Option Nat := none
  /-- 04_shot_scheduling.md R100; cur; reset empty -/
  cur : AllocSet := {}
  /-- 04_shot_scheduling.md R100; prv; reset empty -/
  prv : AllocSet := {}
  /-- 1; 04_shot_scheduling.md R106; course disabled; reset 0 (all courses enabled, R106) -/
  disabled : Bool := false
  /-- 1; 04_shot_scheduling.md R92; an ENABLE waits for the course's next column boundary; reset 0 -/
  enablePending : Bool := false
  /-- 04_shot_scheduling.md R90; shots passed and not yet closed; reset none -/
  flights : List Flight := []
  /-- 04_shot_scheduling.md R90; launch instants of the port's launches in the last 1,000 ns, in 1/128 ns; reset none -/
  launches : List Nat := []
  /-- 64; 04_shot_scheduling.md Table SHOT-11; FIRED, wrapping; reset 0 -/
  fired : Nat := 0
  /-- 64; 04_shot_scheduling.md Table SHOT-11; SKIP_OPEN, wrapping; reset 0 -/
  skipOpen : Nat := 0
  /-- 32; 04_shot_scheduling.md Table SHOT-11; SKIP_RATE; reset 0 -/
  skipRate : Nat := 0
  /-- 32; 04_shot_scheduling.md Table SHOT-11; DENIED; reset 0 -/
  denied : Nat := 0
  /-- 32; 04_shot_scheduling.md Table SHOT-11; CANCELLED; reset 0 -/
  cancelled : Nat := 0
  /-- 32; 04_shot_scheduling.md Table SHOT-11; CAPPED_FRAMES; reset 0 -/
  cappedFrames : Nat := 0
  /-- 64; 04_shot_scheduling.md Table SHOT-11; last frame counted in CAPPED_FRAMES; reset none -/
  cappedLast : Option Nat := none
  /-- 32; 04_shot_scheduling.md Table SHOT-11; EXHAUSTED_FRAMES; reset 0 -/
  exhaustedFrames : Nat := 0
  /-- 64; 04_shot_scheduling.md Table SHOT-11; last frame counted in EXHAUSTED_FRAMES; reset none -/
  exhaustedLast : Option Nat := none
  /-- 1; 04_shot_scheduling.md R90; row 3 or 4 acted on the course in the frame in progress; reset 0 -/
  governed : Bool := false
  deriving DecidableEq, Repr

/-- The die-A scheduler. -/
structure ShotState where
  /-- 128 courses; 04_shot_scheduling.md R80; per-course scheduler and allocator state; reset as `CourseShot` -/
  courses : Tab CourseShot := []
  /-- 262,144 x 32; 04_shot_scheduling.md R95; N, Q and LOWGAIN of the tile parameter map; reset as `TpmEntry` -/
  tpm : Tab TpmEntry := []
  /-- 1; 04_shot_scheduling.md R106; scheduler enabled; reset 0 -/
  enabled : Bool := false
  /-- 1; 04_shot_scheduling.md R92; an ENABLE waits for the next frame boundary; reset 0 -/
  enablePending : Bool := false
  /-- 1; 01_frame_walkthrough.md R18; heartbeat hold of FIRE; reset 1 (no heartbeat received) -/
  hold : Bool := true
  /-- 64; 01_frame_walkthrough.md R18; instant of the last valid heartbeat; reset 0 -/
  lastBeat : Nat := 0
  /-- 7; 01_frame_walkthrough.md R18; consecutive valid heartbeats, up to 64; reset 0 -/
  beats : Nat := 0
  /-- 1; 10_emission_supervisor.md R222; die A has opened its gating since the last grant; reset 0 -/
  granted : Bool := false
  /-- 1; 04_shot_scheduling.md R88; no off-path denied at the end of the tick before this one: the sample of FIRE gating; reset 0 -/
  sampled : Bool := false
  deriving DecidableEq, Repr

/-! ### Receive channels (05) -/

/-- Per-course receive settings (Table RECV-5). -/
structure RecvCourse where
  /-- 2; 05_receive_and_tdc.md Table RECV-5; GAIN_MODE; reset 0 AUTO -/
  gainMode : Nat := 0
  /-- 2; 05_receive_and_tdc.md Table RECV-5; SIDES; reset 3 -/
  sides : Nat := 3
  /-- 1; 05_receive_and_tdc.md Table RECV-5; VALIDATE; reset 1 -/
  validate : Bool := true
  /-- 5; 05_receive_and_tdc.md Table RECV-5; BLANK in ns; reset 0 -/
  blank : Nat := 0
  /-- 8; 05_receive_and_tdc.md Table RECV-5; AR_SAT_WIDTH; reset 160 -/
  arSat : Nat := 160
  /-- 7; 05_receive_and_tdc.md Table RECV-5; AR_COUNT; reset 4 -/
  arCount : Nat := 4
  /-- 8; 05_receive_and_tdc.md Table RECV-5; AR_LOW_WIDTH; reset 40 -/
  arLow : Nat := 40
  deriving DecidableEq, Repr

/-- Threshold codes of a channel (Table RECV-6). -/
structure Thresholds where
  /-- 8; 05_receive_and_tdc.md R109; TL_X4; reset 20 -/
  tl4 : Nat := 20
  /-- 8; 05_receive_and_tdc.md R109; TH_X4; reset 60 -/
  th4 : Nat := 60
  /-- 8; 05_receive_and_tdc.md R109; TL_X1; reset 20 -/
  tl1 : Nat := 20
  /-- 8; 05_receive_and_tdc.md R109; TH_X1; reset 60 -/
  th1 : Nat := 60
  deriving DecidableEq, Repr

/-- An open listening window of a channel (R113, R114). -/
structure Window where
  /-- 05_receive_and_tdc.md R130; frame of the tile, unwrapped -/
  frame : Nat := 0
  /-- 11; 05_receive_and_tdc.md R117; column of the tile -/
  column : Nat := 0
  /-- 5; 05_receive_and_tdc.md R117; shot number within the tile -/
  k : Nat := 0
  /-- 64; 05_receive_and_tdc.md R114; launch instant, ns, floored -/
  start : Nat := 0
  /-- 05_receive_and_tdc.md R119; the start's conversion n, k -/
  startConv : Conversion := {}
  /-- 13; 05_receive_and_tdc.md R114; WINDOW in ns -/
  len : Nat := 0
  /-- 8; 06_replay_histograms.md Table HIST-9; dither of the shot -/
  dither : Nat := 0
  /-- 1; 05_receive_and_tdc.md R112; the window runs at x1 -/
  lowGain : Bool := false
  /-- 1; 05_receive_and_tdc.md R121; a converter's factors are not fresh -/
  stale : Bool := false
  /-- 05_receive_and_tdc.md R116; exact position of the last converted edge, numerator and denominator -/
  lastEdge : Option (Int × Nat) := none
  /-- up to 64 x 32; 05_receive_and_tdc.md R123; stored stamps, in edge order -/
  stamps : List Nat := []
  /-- 1; 05_receive_and_tdc.md R113; no side is enabled: the window stores nothing -/
  dead : Bool := false
  /-- 1; 05_receive_and_tdc.md R117; the window has closed and its stamps wait for delivery -/
  closed : Bool := false
  deriving DecidableEq, Repr

/-- One receive channel. -/
structure Channel where
  /-- 32; 05_receive_and_tdc.md R110; threshold setting last received; reset 20/60 at both gains (R109) -/
  set : Thresholds := {}
  /-- 32; 05_receive_and_tdc.md R110; the setting received before it, on an earlier tick, and not latched; reset none -/
  setBefore : Option Thresholds := none
  /-- 64; 05_receive_and_tdc.md R110; tick at which that setting reached die A; reset none -/
  setAt : Option Nat := none
  /-- 32; 05_receive_and_tdc.md R110; thresholds latched at die A; reset 20/60 at both gains (R109) -/
  latched : Thresholds := {}
  /-- 32; 05_receive_and_tdc.md R126; die B's copy of the thresholds in force; reset 20/60 at both gains (R109) -/
  copy : Thresholds := {}
  /-- 32; 05_receive_and_tdc.md Table RECV-7; APPLIED_FRAME; reset 0 (DESIGN CHOICE, log 11) -/
  appliedFrame : Nat := 0
  /-- 16; 05_receive_and_tdc.md Table RECV-7; APPLIED_COLUMN; reset 0 (DESIGN CHOICE, log 11) -/
  appliedColumn : Nat := 0
  /-- 1; 05_receive_and_tdc.md Table RECV-7; gain of the last window; reset 0 (DESIGN CHOICE, log 11) -/
  lastGain : Bool := false
  /-- 1; 05_receive_and_tdc.md Table RECV-7; last window CAL_STALE; reset 0 (DESIGN CHOICE, log 11) -/
  lastStale : Bool := false
  /-- 05_receive_and_tdc.md R114, R117; windows open or awaiting delivery; reset none -/
  windows : List Window := []
  /-- 2 x 16; 05_receive_and_tdc.md R118; factors of the rise converter; reset none accepted since die A start (nominal 1,024 and 2,048, R121) -/
  rise : Option Factors := none
  /-- 2 x 16; 05_receive_and_tdc.md R118; factors of the fall converter; reset none accepted (R121) -/
  fall : Option Factors := none
  /-- 1; 05_receive_and_tdc.md R121; rise calibration accepted since the previous window's close; reset 0 -/
  riseFresh : Bool := false
  /-- 1; 05_receive_and_tdc.md R121; fall calibration accepted since the previous window's close; reset 0 -/
  fallFresh : Bool := false
  /-- 64; 05_receive_and_tdc.md R120; start of the calibration in progress; reset none (die A does not run) -/
  calStart : Option Nat := none
  /-- 64; 05_receive_and_tdc.md Table RECV-7; STAMPS, wrapping; reset 0 -/
  stamps : Nat := 0
  /-- 32; 05_receive_and_tdc.md Table RECV-7; OVERFLOW; reset 0 -/
  overflow : Nat := 0
  /-- 32; 05_receive_and_tdc.md Table RECV-7; BLANKED; reset 0 -/
  blanked : Nat := 0
  /-- 32; 05_receive_and_tdc.md Table RECV-7; REVERSED; reset 0 -/
  reversed : Nat := 0
  /-- 32; 05_receive_and_tdc.md Table RECV-7; TIE; reset 0 -/
  tie : Nat := 0
  /-- 32; 05_receive_and_tdc.md Table RECV-7; PILEUP; reset 0 -/
  pileup : Nat := 0
  /-- 32; 05_receive_and_tdc.md Table RECV-7; UNVALIDATED; reset 0 -/
  unvalidated : Nat := 0
  /-- 32; 05_receive_and_tdc.md Table RECV-7; CAL_STALE_WINDOWS; reset 0 -/
  staleWindows : Nat := 0
  /-- 32; 05_receive_and_tdc.md Table RECV-7; CAL_REJECTS; reset 0 -/
  calRejects : Nat := 0
  deriving DecidableEq, Repr

/-! ### Histogram engines and rejection (06, 07) -/

/-- Per-course histogram settings (Table HIST-7). -/
structure HistCourse where
  /-- 2; 06_replay_histograms.md Table HIST-7; MODE; reset 0 OR -/
  mode : Nat := 0
  /-- 4; 06_replay_histograms.md Table HIST-7; PAIR_WEIGHT; reset 4 -/
  pairWeight : Nat := 4
  /-- 8; 06_replay_histograms.md Table HIST-7; K in 1/16; reset 80 -/
  k : Nat := 80
  /-- 8; 06_replay_histograms.md Table HIST-7; MIN_COUNT; reset 3 -/
  minCount : Nat := 3
  /-- 3; 06_replay_histograms.md Table HIST-7; POLICY; reset 3 ALL4 -/
  policy : Nat := 3
  /-- 3; 06_replay_histograms.md Table HIST-7; RET_MAX; reset 4 -/
  retMax : Nat := 4
  /-- signed 24; 06_replay_histograms.md Table HIST-7; TOF_OFFSET; reset 0 -/
  tofOffset : Int := 0
  /-- 32; 06_replay_histograms.md Table HIST-7; RINDEX in Q2.30; reset 0x40046C76 -/
  rindex : Nat := 0x40046C76
  deriving DecidableEq, Repr

/-- Per-course rejection settings (Table REJ-4). -/
structure RejCourse where
  /-- 10; 07_rejection.md Table REJ-4; NEAR_END; reset 0 -/
  nearEnd : Nat := 0
  /-- 8; 07_rejection.md Table REJ-4; NEAR_K in 1/16; reset 112 -/
  nearK : Nat := 112
  /-- 8; 07_rejection.md Table REJ-4; DIFFUSE_LIMIT; reset 16 -/
  diffuseLimit : Nat := 16
  /-- 1; 07_rejection.md Table REJ-4; SKIP_DIFFUSE_EARLY; reset 0 -/
  skipDiffuse : Bool := false
  deriving DecidableEq, Repr

/-- One window's stamps in a stamp buffer (R117, R129). -/
structure TileWindow where
  /-- 5; 06_replay_histograms.md Table HIST-9; shot number in the tile -/
  k : Nat
  /-- 1; 06_replay_histograms.md Table HIST-9; side, 0 A or 1 B -/
  side : Nat
  /-- 8; 06_replay_histograms.md Table HIST-9; dither of the shot -/
  dither : Nat
  /-- up to 64 x 32; 06_replay_histograms.md Table HIST-9; stored stamps in delivery order -/
  stamps : List Nat
  deriving DecidableEq, Repr

/-- A candidate chosen by the first pass (R139). -/
structure Candidate where
  /-- 12; 06_replay_histograms.md R138; peak bin p -/
  p : Nat
  /-- 16; 06_replay_histograms.md R138; strength v -/
  v : Nat
  deriving DecidableEq, Repr

/-- Where a tile stands in die A. -/
inductive TileStage where
  | opened | complete | ready | p1 | p1Done | p2
  deriving DecidableEq, Repr

/-- A tile that has opened and has not left the engine. It keeps the settings of its own epoch (R30, R149). -/
structure Tile where
  /-- 64; 02_angle_timebase.md R30; frame, unwrapped -/
  frame : Nat := 0
  /-- 16; 02_angle_timebase.md R30; epoch -/
  epoch : Nat := 0
  /-- 7; 00_scope.md R3; course -/
  course : Nat := 0
  /-- 11; 00_scope.md R3; column -/
  column : Nat := 0
  /-- 04_shot_scheduling.md R93; shot program of its epoch -/
  prog : ShotProgram := {}
  /-- 05_receive_and_tdc.md R110; receive settings of its epoch -/
  recv : RecvCourse := {}
  /-- 06_replay_histograms.md R149; histogram settings of its epoch -/
  hist : HistCourse := {}
  /-- 07_rejection.md R166; rejection settings of its epoch -/
  rej : RejCourse := {}
  /-- 64 x signed 12; 06_replay_histograms.md R149, R151; walk table of side A at the tile's gain, of its epoch (empty: all 0) -/
  walkA : List Int := []
  /-- 64 x signed 12; 06_replay_histograms.md R149, R151; walk table of side B -/
  walkB : List Int := []
  /-- 64; 04_shot_scheduling.md R82; target of shot 0, unwrapped count -/
  target : Nat := 0
  /-- 04_shot_scheduling.md R82; SLOT_COUNTS of its frame -/
  slotCounts : Nat := 0
  /-- 33; 04_shot_scheduling.md R83; width of its column in counts -/
  width : Nat := 0
  /-- 04_shot_scheduling.md R98, R102, 06 R149; allocation settings of its epoch -/
  alloc : AllocSettings := {}
  /-- 32; 04_shot_scheduling.md R98; CAP of its course, latched at the boundary that opened its frame -/
  cap : Nat := 0
  /-- 6; 04_shot_scheduling.md R97; shots scheduled -/
  nOpen : Nat := 0
  /-- 6; 04_shot_scheduling.md R90; shots already due -/
  next : Nat := 0
  /-- 1; 04_shot_scheduling.md R94; a due shot passed row 1 -/
  scheduled : Bool := false
  /-- 1; 04_shot_scheduling.md R94; PARTIAL -/
  partialTile : Bool := false
  /-- 6; 08_records_and_history.md Table TILE-1; shots fired -/
  fired : Nat := 0
  /-- 6; 08_records_and_history.md Table TILE-1; shots skipped -/
  skipped : Nat := 0
  /-- 1; 05_receive_and_tdc.md R112; the tile's windows run at x1 -/
  lowGain : Bool := false
  /-- 1; 04_shot_scheduling.md R97, 06 R130, R133; THINNED -/
  thinned : Bool := false
  /-- 1; 04_shot_scheduling.md R97; ES_CAPPED with n_open 0 -/
  capped : Bool := false
  /-- 1; 06_replay_histograms.md R129; the tile holds a stamp buffer -/
  buffer : Bool := false
  /-- 02_angle_timebase.md R44; its shots in flight -/
  inFlight : Nat := 0
  /-- 05_receive_and_tdc.md R115; its windows open -/
  openWindows : Nat := 0
  /-- 05_receive_and_tdc.md R117; its windows whose stamps are not delivered -/
  undelivered : Nat := 0
  /-- 1; 01_frame_walkthrough.md R21; its closing boundary was crossed -/
  boundary : Bool := false
  /-- 1; 02_angle_timebase.md R44; its frame was ended by a predictor transition -/
  cut : Bool := false
  /-- 64; 01_frame_walkthrough.md R21; instant of completion -/
  completedAt : Nat := 0
  /-- 1; 08_records_and_history.md Table TILE-2; ANGLE_SUSPECT -/
  suspect : Bool := false
  /-- 64; 06_replay_histograms.md R131; instant of readiness -/
  readyAt : Nat := 0
  /-- 3; 06_replay_histograms.md R131; stage -/
  stage : TileStage := .opened
  /-- 64; 06_replay_histograms.md R131; end of the stage in progress -/
  stageEnd : Nat := 0
  /-- up to 4,096 stamps; 06_replay_histograms.md R129; the stamp buffer -/
  windows : List TileWindow := []
  /-- 16; 05_receive_and_tdc.md R125; OVERFLOW -/
  overflow : Nat := 0
  /-- 10; 05_receive_and_tdc.md R125; WINDOW_DIRT -/
  dirt : Nat := 0
  /-- NB x 25; 06_replay_histograms.md R136; coarse histogram words of non-empty bins -/
  coarse : Tab Nat := []
  /-- 06_replay_histograms.md R137; F16 -/
  f16 : Nat := 0
  /-- up to 4; 06_replay_histograms.md R139; chosen candidates -/
  cands : List Candidate := []
  /-- 06_replay_histograms.md R139, R146; MERGED so far -/
  merged : Nat := 0
  /-- 07_rejection.md R163; CODE_MISMATCH so far -/
  mismatch : Nat := 0
  /-- 06_replay_histograms.md R135; REV_EXCLUDED -/
  revExcluded : Nat := 0
  /-- 1; 06_replay_histograms.md R148; an uncorrectable engine error was read -/
  fault : Bool := false
  /-- 1; 06_replay_histograms.md R153; HIST_CAPTURE_TILE took this opening -/
  captured : Bool := false
  deriving DecidableEq, Repr

/-- One histogram engine's counters (Table HIST-8). -/
structure Engine where
  /-- 1; 17_housekeeping_and_thermal.md R401; clock halved; reset 0 -/
  halved : Bool := false
  /-- 32; 06_replay_histograms.md Table HIST-8; QUEUE_MAX; reset 0 -/
  queueMax : Nat := 0
  /-- 64; 06_replay_histograms.md Table HIST-8; TILES; reset 0 -/
  tiles : Nat := 0
  /-- 64; 06_replay_histograms.md Table HIST-8; STAMPS; reset 0 -/
  stamps : Nat := 0
  /-- 32; 06_replay_histograms.md Table HIST-8; REV_EXCLUDED; reset 0 -/
  revExcluded : Nat := 0
  /-- 32; 06_replay_histograms.md Table HIST-8; THINNED; reset 0 -/
  thinned : Nat := 0
  /-- 32; 06_replay_histograms.md Table HIST-8; BUFFER_BUSY; reset 0 -/
  bufferBusy : Nat := 0
  /-- 32; 06_replay_histograms.md Table HIST-8; CANDIDATES; reset 0 -/
  candidates : Nat := 0
  /-- 32; 06_replay_histograms.md Table HIST-8; RETURNS; reset 0 -/
  returns : Nat := 0
  /-- 32; 06_replay_histograms.md Table HIST-8; FINE_REJECTS; reset 0 -/
  fineRejects : Nat := 0
  /-- 32; 06_replay_histograms.md Table HIST-8; MERGED; reset 0 -/
  merged : Nat := 0
  /-- 32; 06_replay_histograms.md Table HIST-8; ECC_CORR; reset 0 -/
  eccCorr : Nat := 0
  /-- 32; 06_replay_histograms.md Table HIST-8; ECC_UNCORR; reset 0 -/
  eccUncorr : Nat := 0
  /-- 32; 06_replay_histograms.md Table HIST-8; MAX_LATENCY; reset 0 -/
  maxLatency : Nat := 0
  deriving DecidableEq, Repr

/-- A course's rejection counters (Table REJ-6). -/
structure RejCounters where
  /-- 16; 07_rejection.md Table REJ-6; AMBIENT_LAST; reset 0 -/
  ambientLast : Nat := 0
  /-- 64; 07_rejection.md Table REJ-6; CODE_MISMATCH; reset 0 -/
  codeMismatch : Nat := 0
  /-- 32; 07_rejection.md Table REJ-6; AMBIENT_SAT_TILES; reset 0 -/
  ambientSat : Nat := 0
  /-- 32; 07_rejection.md Table REJ-6; DIFFUSE_RETURNS; reset 0 -/
  diffuseReturns : Nat := 0
  /-- 32; 07_rejection.md Table REJ-6; DIFFUSE_SKIPPED; reset 0 -/
  diffuseSkipped : Nat := 0
  /-- 32; 07_rejection.md Table REJ-6; NEAR_RETURNS; reset 0 -/
  nearReturns : Nat := 0
  /-- 32; 07_rejection.md Table REJ-6; CODE_OK_RETURNS; reset 0 -/
  codeOkReturns : Nat := 0
  /-- 8; 07_rejection.md Table REJ-6; MAX_CODE_MISMATCH; reset 0 -/
  maxMismatch : Nat := 0
  deriving DecidableEq, Repr

/-- The armed HIST_CAPTURE_TILE (R153). -/
structure TileCapture where
  /-- 64; 06_replay_histograms.md R153; JSEQ of the command -/
  jseq : Nat
  /-- 18; 06_replay_histograms.md R153; the tile -/
  tile : Nat
  /-- 64; 06_replay_histograms.md R153; instant of acceptance -/
  tick : Nat
  /-- 1; 06_replay_histograms.md R153; an opening of the tile has been taken -/
  taken : Bool
  deriving DecidableEq, Repr

/-- Tiles in die A, the engines and the rejection state. -/
structure EngineState where
  /-- 06_replay_histograms.md R129 to R131; tiles opened and not yet handed over, in order of opening; reset none -/
  tiles : List Tile := []
  /-- 32 engines; 06_replay_histograms.md Table HIST-8; reset as `Engine` -/
  engines : Tab Engine := []
  /-- 128 courses; 07_rejection.md Table REJ-6; reset as `RejCounters` -/
  rej : Tab RejCounters := []
  /-- 06_replay_histograms.md R153; armed capture; reset none -/
  capture : Option TileCapture := none
  /-- 5; 07_rejection.md R164; BLOCK in force; reset 0 (R165) -/
  block : Nat := 0
  /-- 5; 07_rejection.md R165; BLOCK received and not yet applied; reset none -/
  blockNew : Option Nat := none
  /-- 1; 07_rejection.md R165; a block has been assigned since VKA power-up; reset 0 -/
  blockSet : Bool := false
  /-- 32; 07_rejection.md Table REJ-6; BLOCK_FRAME; reset 0xFFFF_FFFF -/
  blockFrame : Nat := 0xFFFFFFFF
  /-- 1; 07_rejection.md R164; FAMILY_SHARED; reset 0 -/
  familyShared : Bool := false
  /-- 1; 07_rejection.md R164; FAMILY_RANGE; reset 0 -/
  familyRange : Bool := false
  deriving DecidableEq, Repr

/-! ### Records, delivery rings and tile stacks (08) -/

/-- Delivery ring settings (Table TILE-9). -/
structure RingSettings where
  /-- 1; 08_records_and_history.md Table TILE-9; ENABLE; reset 0 -/
  enable : Bool := false
  /-- 7; 08_records_and_history.md Table TILE-9; FIRST_COURSE; reset 0 (DESIGN CHOICE, log 12) -/
  first : Nat := 0
  /-- 7; 08_records_and_history.md Table TILE-9; LAST_COURSE; reset 0 (DESIGN CHOICE, log 12) -/
  last : Nat := 0
  /-- 1; 08_records_and_history.md Table TILE-9; SUPPRESS_EMPTY; reset 0 -/
  suppress : Bool := false
  /-- 5; 08_records_and_history.md Table TILE-9; LOG2_RECORDS; reset 11 (DESIGN CHOICE, log 12) -/
  log2 : Nat := 11
  /-- 8; 08_records_and_history.md Table TILE-9; VECTOR; reset 0xFF (DESIGN CHOICE, log 12) -/
  vector : Nat := 0xFF
  /-- 64; 08_records_and_history.md Table TILE-9; BASE; reset 0 (DESIGN CHOICE, log 12) -/
  base : Nat := 0
  /-- 64; 08_records_and_history.md Table TILE-9; PI_ADDR; reset 0 (DESIGN CHOICE, log 12) -/
  piAddr : Nat := 0
  /-- 64; 08_records_and_history.md Table TILE-9; CI_ADDR; reset 0 (DESIGN CHOICE, log 12) -/
  ciAddr : Nat := 0
  /-- 16; 08_records_and_history.md Table TILE-9; PALLET_TIMEOUT in us; reset 16 -/
  palletTimeout : Nat := 16
  /-- 16; 08_records_and_history.md Table TILE-9; IRQ_HOLDOFF in us; reset 0 -/
  irqHoldoff : Nat := 0
  deriving DecidableEq, Repr

/-- A committed record, held in both copies of the delivery buffer until CI passes it. -/
structure DlvRecord where
  /-- 64; 08_records_and_history.md R173; SEQ -/
  seq : Nat
  /-- 512; 08_records_and_history.md R168; the record -/
  bytes : Bytes
  /-- 64; 08_records_and_history.md R22, R191; completion instant of its tile; none for a header or GAP record -/
  born : Option Nat
  deriving DecidableEq, Repr

/-- One delivery ring. -/
structure DlvRing where
  /-- 08_records_and_history.md Table TILE-9; settings in force; reset disabled -/
  cfg : RingSettings := {}
  /-- 64; 08_records_and_history.md R177; frames from this boundary on are delivered, unwrapped; reset 0 -/
  fromFrame : Nat := 0
  /-- 64; 08_records_and_history.md R177; first frame no longer delivered, unwrapped; reset none -/
  toFrame : Option Nat := none
  /-- 08_records_and_history.md R177; the course range before a reconfiguration, and the first frame of the new one; reset none -/
  older : Option (Nat × Nat × Nat) := none
  /-- 25; 08_records_and_history.md R180; share in records; reset 0 (Table TILE-11) -/
  share : Nat := 0
  /-- 64; 08_records_and_history.md R173; SEQ of the next committed record; reset 0 -/
  seq : Nat := 0
  /-- 64; 08_records_and_history.md R174; last PI written; reset 0 -/
  pi : Nat := 0
  /-- 64; 08_records_and_history.md R176; last CI read; reset 0 -/
  ci : Nat := 0
  /-- 08_records_and_history.md R176; committed records with SEQ >= CI, in order; reset none -/
  records : List DlvRecord := []
  /-- 64; 08_records_and_history.md R175; SEQ of the first record of the open pallet; reset 0 -/
  palletFrom : Nat := 0
  /-- 64; 08_records_and_history.md R175; instant its first record was committed; reset 0 -/
  openAt : Nat := 0
  /-- 08_records_and_history.md R175; first SEQs after each closed pallet not yet written; reset none -/
  closed : List Nat := []
  /-- 64; 08_records_and_history.md R176; SEQ from which records are to be written; reset 0 -/
  toWrite : Nat := 0
  /-- 2; 08_records_and_history.md R176; 1 while CI is to be read first, 2 while records from CI on are rewritten before PI; reset 0 -/
  replay : Nat := 0
  /-- 64; 08_records_and_history.md R175; instant of the ring's previous interrupt; reset none -/
  lastIrq : Option Nat := none
  /-- 64; 08_records_and_history.md R175; PI at the previous interrupt; reset 0 -/
  irqPi : Nat := 0
  /-- 1; 08_records_and_history.md R175; PI has advanced since the last interrupt, which waits for the hold-off; reset 0 -/
  irqPending : Bool := false
  /-- 64; 08_records_and_history.md R176; a CI read is outstanding; its instant; reset none -/
  ciRead : Option Nat := none
  /-- 1; 08_records_and_history.md R181; DROPPING; reset 0 -/
  dropping : Bool := false
  /-- 64; 08_records_and_history.md R181; frame of the first record discarded; reset 0 -/
  dropFirst : Nat := 0
  /-- 64; 08_records_and_history.md R181; records discarded since DROPPING began; reset 0 -/
  dropCount : Nat := 0
  /-- 64; 08_records_and_history.md R181; LAST_FRAME of the last GAP: its frame and earlier ones are discarded; reset none -/
  gapLast : Option Nat := none
  /-- 1; 12_guarantees_and_recovery.md R281, R284; a GAP at SEQ = PI is due before the next record; reset none: frame of PI - 1, last frame and count -/
  gapDue : Option (Nat × Nat × Nat) := none
  /-- 32; 12_guarantees_and_recovery.md R281; frame of the record at PI - 1; reset 0 -/
  lastPiFrame : Nat := 0
  /-- 32; 08_records_and_history.md R179; suppressed records of the frame in progress; reset 0 -/
  suppPrev : Nat := 0
  /-- 32; 08_records_and_history.md R179; suppressed records of earlier frames since the last header; reset 0 -/
  suppLate : Nat := 0
  /-- 32; 08_records_and_history.md Table TILE-11; GAPS; reset 0 -/
  gaps : Nat := 0
  /-- 64; 08_records_and_history.md Table TILE-11; DROPPED; reset 0 -/
  dropped : Nat := 0
  /-- 64; 08_records_and_history.md Table TILE-11; SUPPRESSED; reset 0 -/
  suppressed : Nat := 0
  /-- 32; 08_records_and_history.md Table TILE-11; BAD_CONSUMER; reset 0 -/
  badConsumer : Nat := 0
  /-- 32; 08_records_and_history.md Table TILE-11; MAX_DELIVERY_NS; reset 0 -/
  maxDelivery : Nat := 0
  deriving DecidableEq, Repr

/-- A tile's result on the Mortar link (R131, R173). -/
structure TileResult where
  /-- 64; 02_angle_timebase.md R30; frame, unwrapped -/
  frame : Nat
  /-- 18; 00_scope.md R3; tile index -/
  tile : Nat
  /-- 512; 08_records_and_history.md Table TILE-1; the record, SEQ_LO still 0 -/
  record : Bytes
  /-- 256; 08_records_and_history.md Table TILE-8; the slot tag -/
  tag : Bytes
  /-- 16,384; 08_records_and_history.md Table TILE-7; the slot's non-zero bytes by offset -/
  slot : Tab Byte
  /-- 64; 01_frame_walkthrough.md R21; completion instant -/
  born : Nat
  /-- 64; 08_records_and_history.md R173; instant at which it was queued on the Mortar link -/
  queued : Nat := 0
  /-- 1; 14_serial_lanes.md R339; the slot is lost with Mortar lanes, and its record says so -/
  lost : Bool := false
  deriving DecidableEq, Repr

/-- A tile record written to the delivery buffer and awaiting both acknowledgements (R173). -/
structure WrittenRecord where
  /-- 6; 08_records_and_history.md R177; delivery ring -/
  ring : Nat
  /-- 64; 02_angle_timebase.md R30; frame, unwrapped -/
  frame : Nat
  /-- 512; 08_records_and_history.md Table TILE-1; the record -/
  record : Bytes
  /-- 64; 01_frame_walkthrough.md R21; completion instant -/
  born : Nat
  deriving DecidableEq, Repr

/-- A plane of the stacks (R184, R185). -/
structure Plane where
  /-- 64; 08_records_and_history.md R185; frame held, unwrapped; reset none -/
  frame : Option Nat := none
  /-- up to 262,144; 08_records_and_history.md R190; tiles of the frame written, without repeats, newest first; reset none -/
  written : List Nat := []
  deriving DecidableEq, Repr

/-- A READ_HISTORY in progress (R190). -/
structure HistRead where
  /-- 64; 08_records_and_history.md R190; JSEQ of the command -/
  jseq : Nat
  /-- 3; 08_records_and_history.md R190; Hod channel -/
  ch : Nat
  /-- 08_records_and_history.md R190; frames named, unwrapped -/
  frames : List Nat
  /-- 3; 08_records_and_history.md R190; PARTS -/
  parts : Nat
  /-- 18; 08_records_and_history.md R190; FIRST_TILE -/
  firstTile : Nat
  /-- 19; 08_records_and_history.md R190; TILE_COUNT -/
  count : Nat
  /-- 64; 08_records_and_history.md R190; DEST -/
  dest : Nat
  deriving DecidableEq, Repr

/-- Delivery and history. -/
structure DlvState where
  /-- 64 rings; 08_records_and_history.md R174; reset as `DlvRing` -/
  rings : Tab DlvRing := []
  /-- 08_records_and_history.md R173; tile records crossing the Mortar link, oldest first; reset none -/
  link : List TileResult := []
  /-- 08_records_and_history.md R185; history slots crossing the Mortar link, oldest first; reset none -/
  slots : List TileResult := []
  /-- 08_records_and_history.md R173; records written and not yet acknowledged, oldest first; reset none -/
  written : List WrittenRecord := []
  /-- 12_guarantees_and_recovery.md R275; frames with tiles whose record has not arrived: frame, epoch and the tiles arrived; reset none -/
  arrived : Tab (Nat × List Nat) := []
  /-- 8; 08_records_and_history.md R184; DEPTH; reset 0 until DRAM training ends (21 Table REGS-11) -/
  depth : Nat := 0
  /-- up to 224 planes; 08_records_and_history.md R184; reset as `Plane` -/
  planes : Tab Plane := []
  /-- 8; 08_records_and_history.md R185; last plane taken (VKA); reset none -/
  lastPlane : Option Nat := none
  /-- up to 8; 08_records_and_history.md R189; frozen ranges FIRST_FRAME, LAST_FRAME; reset none -/
  frozen : List (Nat × Nat) := []
  /-- 08_records_and_history.md R190; READ_HISTORY commands in progress; reset none -/
  reads : List HistRead := []
  /-- 64; 14_serial_lanes.md R339; frames whose slots are dropped after a lane loss, unwrapped; reset none -/
  decimated : List Nat := []
  /-- 1; 12_guarantees_and_recovery.md R281; delivery stopped for want of a mirror pair; reset 0 -/
  stopped : Bool := false
  deriving DecidableEq, Repr

/-! ### Configuration in force and staging (11 R247) -/

/-- One entry of the phase keep-out table (13 R323). -/
structure KeepOut where
  /-- 16; 13_yelxis_ring.md R323; node -/
  node : Nat
  /-- 32; 13_yelxis_ring.md R323; keep-out -/
  keepOut : Nat
  deriving DecidableEq, Repr

/-- A staged command's settings. -/
inductive StagedSetting where
  | columns (t : ColTable)
  | scan (t : ScanSettings)
  | index (t : IndexSettings)
  | programs (first : Nat) (ps : List ShotProgram)
  | alloc (a : AllocSettings)
  | weights (first : Nat) (hs : List Nat)
  | recv (first : Nat) (rs : List RecvCourse)
  | hist (first : Nat) (hs : List HistCourse)
  | walk (first gain : Nat) (ws : List (List Int))
  | rej (first : Nat) (rs : List RejCourse)
  | device (ringCodes : Bool)
  | ring (r : Nat) (cfg : RingSettings)
  | phase (mode : Nat) (table : List KeepOut)
  deriving DecidableEq, Repr

/-- The configuration in force, held in VKA (R266). -/
structure Settings where
  /-- 2,049 x 32; 02_angle_timebase.md R26; column boundary table; reset even, FIRST 0, LAST 0 (R46) -/
  columns : ColTable := .even 0 0
  /-- 16; 02_angle_timebase.md R48; epoch in which it took effect; reset 0 (R46) -/
  columnsEpoch : Nat := 0
  /-- 02_angle_timebase.md R24; scan settings; reset as `ScanSettings` -/
  scan : ScanSettings := {}
  /-- 02_angle_timebase.md R46; index settings; reset as `IndexSettings` -/
  index : IndexSettings := {}
  /-- 128 x 128; 04_shot_scheduling.md R80; shot programs; reset as `ShotProgram` -/
  programs : Tab ShotProgram := []
  /-- 04_shot_scheduling.md R98; allocation settings; reset as `AllocSettings` -/
  alloc : AllocSettings := {}
  /-- 262,144 x 4; 04_shot_scheduling.md R95; host region weights H; reset 1 each -/
  weights : Tab Nat := []
  /-- 128; 05_receive_and_tdc.md Table RECV-5; receive settings; reset as `RecvCourse` -/
  recv : Tab RecvCourse := []
  /-- 128; 06_replay_histograms.md Table HIST-7; histogram settings; reset as `HistCourse` -/
  hist : Tab HistCourse := []
  /-- 512 x 64 x signed 12; 06_replay_histograms.md R151; walk tables, index channel + 256 x gain; reset 0 each -/
  walk : Tab (List Int) := []
  /-- 128; 07_rejection.md Table REJ-4; rejection settings; reset as `RejCourse` -/
  rej : Tab RejCourse := []
  /-- 1; 07_rejection.md Table REJ-5; RING_CODES; reset 0 -/
  ringCodes : Bool := false
  /-- 13_yelxis_ring.md R323; keep-out mode; reset 0 -/
  phaseMode : Nat := 0
  /-- 13_yelxis_ring.md R323; keep-out table; reset none -/
  phaseTable : List KeepOut := []
  deriving DecidableEq, Repr
/-! ### Emission Supervisor (10) -/

/-- ES state (Table SAFE-3). -/
inductive EsRun where
  | tripped | cleared | rearmPending | permit
  deriving DecidableEq, Repr

/-- The ES configuration: parameter blocks 0x0001 to 0x0007 (Table SAFE-4). -/
structure EsConfig where
  /-- 3 x 32; 10_emission_supervisor.md R211; BUCKET_NS; reset 313, 3,125,000, 312,500,000 (R475) -/
  buckets : List Nat := [313, 3125000, 312500000]
  /-- 128 x 16; 10_emission_supervisor.md Table SAFE-4; WEIGHT; reset 1 each (R475) -/
  weights : Tab Nat := []
  /-- 128 x 3 x 48; 10_emission_supervisor.md R212; LIMIT, index 3p + k; reset 0 each (R475) -/
  limits : Tab Nat := []
  /-- 16 x 3 x 48; 10_emission_supervisor.md R212; GLIMIT, index 3g + k; reset 0 each (R475) -/
  glimits : Tab Nat := []
  /-- 32; 10_emission_supervisor.md Table SAFE-4; HK_TRIP; reset 0 (R475) -/
  hkTrip : Nat := 0
  /-- 1; 10_emission_supervisor.md Table SAFE-4; REACTION is TRIP; reset 0 WARN (R475) -/
  reaction : Bool := false
  /-- 17; 10_emission_supervisor.md Table SAFE-4; SAFE_PATH_TIMEOUT in us; reset 1,000 (R475) -/
  pathTimeout : Nat := 1000
  /-- 2; 10_emission_supervisor.md Table SAFE-4; REARM_PATH; reset 0 SAFE_ACK (R475) -/
  rearmPath : Nat := 0
  /-- 14; 10_emission_supervisor.md Table SAFE-4; POWERUP_HOLD in ms; reset 0 (R475) -/
  hold : Nat := 0
  deriving DecidableEq, Repr

/-- A password slot: salted hash and salt (R224). -/
structure Password where
  /-- 256; 10_emission_supervisor.md R224; salted SHA-256 hash -/
  hash : Bytes
  /-- 128; 10_emission_supervisor.md R224; salt -/
  salt : Bytes
  deriving DecidableEq, Repr

/-- A pending ES_REARM (R220). -/
structure Rearm where
  /-- 10_emission_supervisor.md R220; mailbox, or node and mailbox, of the ES_REARM -/
  origin : Nat × Nat
  /-- 32; 10_emission_supervisor.md R220; the token returned -/
  token : Nat
  /-- 64; 10_emission_supervisor.md R220; ES time of its acceptance -/
  tick : Nat
  deriving DecidableEq, Repr

/-- What the receiver holds of one source of ES state messages on one ring (R230). -/
structure PathCopy where
  /-- 24 bytes; 10_emission_supervisor.md R230; the last valid message; reset none -/
  last : Option Bytes := none
  /-- up to 16 of 24 bytes; 13_yelxis_ring.md R315; the last valid messages, by which a copy repeated by a wrap is known; reset none -/
  recent : List Bytes := []
  /-- 64; 10_emission_supervisor.md R230; ES time of the last valid message, or of the source's first; reset 0 -/
  tick : Nat := 0
  /-- 1; 10_emission_supervisor.md R230; the ring's silence has been declared; reset 0 -/
  timedOut : Bool := false
  deriving DecidableEq, Repr

/-- The path monitor of one source (R230, R231). -/
structure PathSource where
  /-- 10_emission_supervisor.md R230; copy of the primary ring; reset as `PathCopy` -/
  primary : PathCopy := {}
  /-- 10_emission_supervisor.md R230; copy of the secondary ring; reset as `PathCopy` -/
  secondary : PathCopy := {}
  /-- 4; 10_emission_supervisor.md R231; consecutive matching messages, up to 10; reset 0 -/
  matching : Nat := 0
  /-- 1; 10_emission_supervisor.md R230; SAFETY_PATH_DEGRADED; reset 0 -/
  degraded : Bool := false
  /-- 1; 10_emission_supervisor.md R230; PEER_SILENT; reset 0 -/
  silent : Bool := false
  deriving DecidableEq, Repr

/-- The Emission Supervisor. -/
structure EsState where
  /-- 1; 10_emission_supervisor.md R208; the ES is powered; reset 0 (before its power-on) -/
  powered : Bool := false
  /-- 64; 10_emission_supervisor.md R211; ES time in ns from ES power-up; reset 0 -/
  time : Nat := 0
  /-- 2; 10_emission_supervisor.md Table SAFE-3; state; reset TRIPPED (R223) -/
  run : EsRun := .tripped
  /-- 1; 01_frame_walkthrough.md R17; the internal pair and the external outputs grant; reset 0 (deny) -/
  permit : Bool := false
  /-- 13; 10_emission_supervisor.md R215; causes present; reset POWERUP and UNCONFIGURED (R223) -/
  present : Nat := 3
  /-- 13; 10_emission_supervisor.md Table SAFE-9; CAUSES_LATCHED; reset 0 -/
  latched : Nat := 0
  /-- 13; 10_emission_supervisor.md Table SAFE-9; FIRST_CAUSE; reset 0 -/
  first : Nat := 0
  /-- 32; 10_emission_supervisor.md R217; TRIPS; reset 0 -/
  trips : Nat := 0
  /-- 32; 10_emission_supervisor.md Table SAFE-9; TRIP_HOURS; reset 0 -/
  tripHours : Nat := 0
  /-- 64; 10_emission_supervisor.md R219; ES time of the last trip; reset 0 -/
  tripAt : Nat := 0
  /-- 8; 10_emission_supervisor.md Table SAFE-9; LEDGER_PORT; reset 0xFF -/
  ledgerPort : Nat := 0xFF
  /-- 8; 10_emission_supervisor.md Table SAFE-9; LEDGER_WINDOW; reset 0xFF -/
  ledgerWindow : Nat := 0xFF
  /-- 8; 10_emission_supervisor.md Table SAFE-9; LEDGER_GROUP; reset 0xFF -/
  ledgerGroup : Nat := 0xFF
  /-- 10_emission_supervisor.md R226; configuration in force; reset the factory configuration (R475) -/
  cfg : EsConfig := {}
  /-- 32; 10_emission_supervisor.md R226; CONFIG_CRC; reset 0 until ES power-on computes it (R223) -/
  crc : Nat := 0
  /-- 1; 10_emission_supervisor.md R223; the NV ledger holds a committed configuration; reset 0 (R475, as manufactured) -/
  committed : Bool := false
  /-- 1; 18_event_log.md R418; the ES_CONFIG copy written last; reset 1 (DESIGN CHOICE, so that the first copy is written first, log 6) -/
  nvCopy : Nat := 1
  /-- 7 blocks; 10_emission_supervisor.md R227; staged blocks by ID; reset none -/
  staged : Tab Bytes := []
  /-- 384 x 33 x 48; 10_emission_supervisor.md R211; port ledgers, index 3p + k, current bucket first; reset zero (R223) -/
  ports : Tab (List Nat) := []
  /-- 48 x 33 x 48; 10_emission_supervisor.md R211; group ledgers, index 3g + k; reset zero (R223) -/
  groups : Tab (List Nat) := []
  /-- 3 x 64; 10_emission_supervisor.md R211; ES time up to which each window's buckets have closed; reset 0 -/
  closedTo : List Nat := [0, 0, 0]
  /-- 1; 10_emission_supervisor.md R216, R223; the last self-test passed; reset 0 -/
  selftestOk : Bool := false
  /-- 1; 10_emission_supervisor.md R223; a valid configuration is loaded; reset 0 -/
  loaded : Bool := false
  /-- 1; 10_emission_supervisor.md Table SAFE-1; the lockstep input is raised; reset 0 -/
  lockstep : Bool := false
  /-- 64; 10_emission_supervisor.md Table SAFE-1; ES time since which the clock check passes; reset none -/
  clockOkSince : Option Nat := none
  /-- signed 32; 10_emission_supervisor.md Table SAFE-9; CLOCK_DEV; reset 0 -/
  clockDev : Int := 0
  /-- 1; 10_emission_supervisor.md R219; recognised level of SAFE_ACK; reset none recognised -/
  ack : Option Bool := none
  /-- 64; 10_emission_supervisor.md R219; ES time of the recognised falling edge that counts; reset none -/
  ackLow : Option Nat := none
  /-- 10_emission_supervisor.md R220; the pending ES_REARM; reset none -/
  rearm : Option Rearm := none
  /-- 32; 10_emission_supervisor.md Table SAFE-9; REARMS_REFUSED; reset 0 -/
  rearmsRefused : Nat := 0
  /-- 4 slots; 10_emission_supervisor.md R224; passwords (NV); reset none set -/
  passwords : Tab (Option Password) := []
  /-- 1; 10_emission_supervisor.md R224; the first slot-0 password has been set; reset 0 -/
  firstSet : Bool := false
  /-- 3; 10_emission_supervisor.md R225; slot that unlocked the ES; reset none (locked) -/
  unlocked : Option Nat := none
  /-- 64; 10_emission_supervisor.md R225; ES time of the last command that extends the 60 s; reset 0 -/
  unlockAt : Nat := 0
  /-- 2; 10_emission_supervisor.md R225; consecutive wrong passwords; reset 0 -/
  wrong : Nat := 0
  /-- 64; 10_emission_supervisor.md R225; end of the refusal, ES time; reset none -/
  refusal : Option Nat := none
  /-- 32; 10_emission_supervisor.md R225; UNLOCK_FAILS; reset 0 -/
  unlockFails : Nat := 0
  /-- 64 x 24 bytes; 10_emission_supervisor.md R228; change log (NV), oldest first; reset empty -/
  changelog : List Bytes := []
  /-- 32; 10_emission_supervisor.md R228; ENTRY of the newest entry (NV); reset 0 -/
  entry : Nat := 0
  /-- 32; 10_emission_supervisor.md R229; SEQ of the next state message; reset 0 (DESIGN CHOICE, log 14) -/
  seq : Nat := 0
  /-- 64; 10_emission_supervisor.md R229; ES time of the last state message sent; reset 0 -/
  sentAt : Nat := 0
  /-- per node; 10_emission_supervisor.md R230; path monitors of the sources heard; reset none -/
  paths : Tab PathSource := []
  /-- 32; 10_emission_supervisor.md Table SAFE-9; PATH_MISMATCHES; reset 0 -/
  pathMismatches : Nat := 0
  /-- 32; 10_emission_supervisor.md Table SAFE-9; PATH_TIMEOUTS; reset 0 -/
  pathTimeouts : Nat := 0
  deriving DecidableEq, Repr
/-! ### Capture units and stream trigger units (09) -/

/-- Capture unit state (Table CAPT-1). -/
inductive CaptRun where
  | stopped | armed | capturing | holdoff | done
  deriving DecidableEq, Repr

/-- CAPT_CONFIG settings (Table CAPT-3). -/
structure CaptConfig where
  /-- 4; 09_waveform_capture.md Table CAPT-3; INPUT -/
  input : Nat := 0
  /-- 1; 09_waveform_capture.md Table CAPT-3; TRIG_MODE is SHOT -/
  shot : Bool := false
  /-- 1; 09_waveform_capture.md Table CAPT-3; EDGE is falling -/
  falling : Bool := false
  /-- 10; 09_waveform_capture.md Table CAPT-3; LEVEL -/
  level : Nat := 1
  /-- 8; 09_waveform_capture.md Table CAPT-3; HYST -/
  hyst : Nat := 1
  /-- 16; 09_waveform_capture.md Table CAPT-3; PRE -/
  pre : Nat := 0
  /-- 17; 09_waveform_capture.md R199; POST in force -/
  post : Nat := 1
  /-- 1; 09_waveform_capture.md R199; POST was clamped -/
  clamped : Bool := false
  /-- 1; 09_waveform_capture.md Table CAPT-3; HOLDOFF_KIND is EVENTS -/
  events : Bool := false
  /-- 7; 09_waveform_capture.md Table CAPT-3; PORT -/
  port : Nat := 0
  /-- 10; 09_waveform_capture.md Table CAPT-3; QUAL_NS -/
  qualNs : Nat := 0
  /-- 30; 09_waveform_capture.md Table CAPT-3; HOLDOFF -/
  holdoff : Nat := 1
  /-- 1; 09_waveform_capture.md Table CAPT-3; REPEAT -/
  repeats : Bool := false
  deriving DecidableEq, Repr

/-- An open SHOT qualification window (R197). -/
structure QualWindow where
  /-- 64; 09_waveform_capture.md R197; launch instant in 1/128 ns -/
  launch : Nat
  /-- 32; 09_waveform_capture.md R197; frame of the shot -/
  frame : Nat
  /-- 18; 09_waveform_capture.md R197; tile of the shot -/
  tile : Nat
  deriving DecidableEq, Repr

/-- A capture: its header data and its samples (Table CAPT-5). -/
structure Capture where
  /-- 4; 09_waveform_capture.md Table CAPT-5; INPUT -/
  input : Nat := 0
  /-- 2; 09_waveform_capture.md Table CAPT-5; TRIG_KIND -/
  kind : Nat := 0
  /-- 16; 09_waveform_capture.md R198; PRE in force -/
  pre : Nat := 0
  /-- 17; 09_waveform_capture.md Table CAPT-5; POST in force -/
  post : Nat := 1
  /-- 16; 09_waveform_capture.md R198; PRE_VALID -/
  preValid : Nat := 0
  /-- 1; 09_waveform_capture.md R199; CLAMPED -/
  clamped : Bool := false
  /-- signed; 09_waveform_capture.md R198; trigger position tau in 1/64 sample -/
  tau : Int := 0
  /-- 64; 09_waveform_capture.md R197; TRIG_TIME in 1/128 ns -/
  trigTime : Nat := 0
  /-- 09_waveform_capture.md R197; shot data under SHOT -/
  shot : Option QualWindow := none
  /-- up to 65,536 x 10; 09_waveform_capture.md R198; stored samples by index, the first PRE of them placed before the trigger -/
  samples : List Nat := []
  /-- 17; 09_waveform_capture.md R203; FAIL_INDEX -/
  fail : Option Nat := none
  /-- 1; 09_waveform_capture.md R203; MASK_UPPER -/
  upper : Bool := false
  /-- 1; 09_waveform_capture.md R203; MASK_LOWER -/
  lower : Bool := false
  deriving DecidableEq, Repr

/-- One capture unit. -/
structure CaptUnit where
  /-- 3; 09_waveform_capture.md Table CAPT-1; state; reset STOPPED (R207) -/
  run : CaptRun := .stopped
  /-- 09_waveform_capture.md Table CAPT-3; configuration in force; reset none (never configured) -/
  cfg : Option CaptConfig := none
  /-- up to 64 points; 09_waveform_capture.md R202; upper envelope, (T, V); reset disabled -/
  upper : List (Int × Nat) := []
  /-- up to 64 points; 09_waveform_capture.md R202; lower envelope; reset disabled -/
  lower : List (Int × Nat) := []
  /-- 64; 09_waveform_capture.md R194, R200; instant of the next sample to store and test, in half ns; reset 0 -/
  storeFrom : Nat := 0
  /-- 64; 09_waveform_capture.md R194; instant of the last input change, ns; reset 0 -/
  changedAt : Nat := 0
  /-- 1; 09_waveform_capture.md R194; the input has been changed; reset 0 -/
  changed : Bool := false
  /-- 65,536 x 10; 09_waveform_capture.md R193, R198; samples stored since arming, newest last; reset none -/
  stored : List Nat := []
  /-- 1; 09_waveform_capture.md R195; a sample at or below LEVEL - HYST since the last qualifying crossing or arming; reset 0 -/
  low : Bool := false
  /-- 1; 09_waveform_capture.md R195; a sample at or above LEVEL + HYST since the last qualifying crossing or arming; reset 0 -/
  high : Bool := false
  /-- 64; 09_waveform_capture.md R197; FORCE waits for the sample of this half ns; reset none -/
  force : Option Nat := none
  /-- 09_waveform_capture.md R197; open qualification windows, oldest first; reset none -/
  quals : List QualWindow := []
  /-- 65,536 x 10; 09_waveform_capture.md R200; the capture in progress or held; reset none -/
  held : Option Capture := none
  /-- 17; 09_waveform_capture.md R201; trigger events since the accepted trigger; reset 0 -/
  events : Nat := 0
  /-- JSEQs; 09_waveform_capture.md R204; STOP commands that wait for the unit to stop; reset none -/
  stops : List Nat := []
  /-- 1; 09_waveform_capture.md R203; mask-violation line to the Emission Supervisor; reset 0 -/
  line : Bool := false
  /-- 32; 09_waveform_capture.md Table CAPT-6; MISSED; reset 0 -/
  missed : Nat := 0
  /-- 64; 09_waveform_capture.md Table CAPT-6; CAPTURES, wrapping; reset 0 -/
  captures : Nat := 0
  /-- 32; 09_waveform_capture.md Table CAPT-6; MASK_FAILS; reset 0 -/
  maskFails : Nat := 0
  /-- 32; 09_waveform_capture.md Table CAPT-6; SHOT_TIMEOUTS; reset 0 -/
  timeouts : Nat := 0
  deriving DecidableEq, Repr

/-! ### The Yelxis ring (13) and the serial lanes (14) -/

/-- Device ring state (Table RING-2). -/
inductive RingRun where
  | bypass | joining | active | wrapped | isolated | leaving
  deriving DecidableEq, Repr

/-- Ring port state (Table LANE-2). -/
inductive PortRun where
  | off | detect | train | lock | caps | active | quarantined
  deriving DecidableEq, Repr

/-- The ring reference phase in force (R307). -/
structure RingPhase where
  /-- 68; 13_yelxis_ring.md R307; local instant the phase is given at, in 1/16 ns -/
  at16 : Int
  /-- 32; 13_yelxis_ring.md R307; PHASE at that instant, counts -/
  phase : Nat
  /-- signed 42; 13_yelxis_ring.md R307; OMEGA, LSB 2^-32 count per ns -/
  omega : Int
  deriving DecidableEq, Repr


/-- What is filled into a SYNC when its first block leaves (R306). -/
inductive SyncStamp where
  /-- sent by this device as master, by this phase: T_SEND, PHASE and VEHICLE_TIME -/
  | own (phase : RingPhase)
  /-- forwarded, having arrived at this instant: the residence time in ACC_DELAY -/
  | onward (tick : Nat)
  deriving DecidableEq, Repr

/-- A frame queued at a port's output (R298). -/
structure OutFrame where
  /-- 4; 13_yelxis_ring.md R298; place in the order of priority: 2 x class rank, plus 1 for an own frame -/
  prio : Nat
  /-- 13_yelxis_ring.md Table RING-3; header, LSEQ 0 and HCRC 0, and payload -/
  bytes : Bytes
  /-- 13_yelxis_ring.md R299; port and credits to return when the frame leaves; none for an own frame -/
  credit : Option (Port × Nat)
  /-- 13_yelxis_ring.md R306; what a SYNC still needs when it leaves; none for every other frame -/
  stamp : Option SyncStamp
  deriving DecidableEq, Repr

/-- A frame held in a replay buffer (R334). -/
structure HeldFrame where
  /-- 32; 14_serial_lanes.md R334; LSEQ -/
  lseq : Nat
  /-- 14_serial_lanes.md R334; the frame as sent -/
  bytes : Bytes
  /-- 64; 14_serial_lanes.md R334; instant it was last sent -/
  sentAt : Nat
  deriving DecidableEq, Repr

/-- A ring port: bring-up, link layer and protocol violations. -/
structure RingPort where
  /-- 3; 14_serial_lanes.md Table LANE-2; state; reset OFF -/
  run : PortRun := .off
  /-- 64; 14_serial_lanes.md Table LANE-2; instant the present state or its last retry began; reset 0 -/
  since : Nat := 0
  /-- 2; 14_serial_lanes.md R326; rate, encoded as RATE of Table RING-9; reset 2 (5.15625 Gb/s) -/
  rate : Nat := 2
  /-- 2; 14_serial_lanes.md R328; lane mask of the receive direction; reset 0 -/
  rxMask : Nat := 0
  /-- 2; 14_serial_lanes.md R328; lane mask of the transmit direction; reset 0 -/
  txMask : Nat := 0
  /-- 24 bytes; 14_serial_lanes.md R333; the last valid CAPS of the partner; reset none -/
  caps : Option Bytes := none
  /-- 1; 14_serial_lanes.md R333; SEEN: two consecutive identical valid CAPS received; reset 0 -/
  seen : Bool := false
  /-- 16; 14_serial_lanes.md Table LANE-3; the partner's node ID; reset 0 -/
  partner : Nat := 0
  /-- 32; 14_serial_lanes.md R334; LSEQ of the next frame sent; reset 0 -/
  txNext : Nat := 0
  /-- 32; 14_serial_lanes.md R334; LSEQ expected next; reset 0 -/
  rxNext : Nat := 0
  /-- 64 KiB; 14_serial_lanes.md R334; replay buffer, oldest first; reset empty -/
  replay : List HeldFrame := []
  /-- 13_yelxis_ring.md R298; frames waiting for their turn or for credit; reset empty -/
  queue : List OutFrame := []
  /-- 10; 14_serial_lanes.md R334; general credits held; reset 0 -/
  general : Nat := 0
  /-- 7; 14_serial_lanes.md R334; reserved credits held; reset 0 -/
  reserved : Nat := 0
  /-- 10; 13_yelxis_ring.md R299; general credits granted and not used; reset 0 -/
  grantGeneral : Nat := 0
  /-- 7; 13_yelxis_ring.md R299; reserved credits granted and not used; reset 0 -/
  grantReserved : Nat := 0
  /-- 3; 14_serial_lanes.md R334; frames accepted since the last ACK; reset 0 -/
  unacked : Nat := 0
  /-- 64; 14_serial_lanes.md R334; instant of the last ACK sent; reset 0 -/
  ackAt : Nat := 0
  /-- 32; 14_serial_lanes.md R334; LSEQ from which held frames are still to be resent; reset none -/
  resendAt : Option Nat := none
  /-- 7 x 32; 13_yelxis_ring.md Table RING-8; VIOL[1..7]; reset 0 -/
  viol : Tab Nat := []
  /-- list of 64; 13_yelxis_ring.md R302; instants of the violations of the last 10 ms; reset none -/
  violAt : List Nat := []
  /-- 12; 13_yelxis_ring.md R302; times the waiting time has been doubled; reset 0 -/
  quarDoublings : Nat := 0
  /-- 64; 13_yelxis_ring.md R302; instant of the last automatic retry; reset none -/
  retriedAt : Option Nat := none
  /-- 7; 14_serial_lanes.md R335; number of the next PROBE; reset 0 (DESIGN CHOICE, log 14) -/
  probeNext : Nat := 0
  /-- 14_serial_lanes.md R335; PROBE outstanding: number and instant sent; reset none -/
  probe : Option (Nat × Nat) := none
  /-- 64; 14_serial_lanes.md R335; instant of the last PROBE sent; reset 0 -/
  probeAt : Nat := 0
  /-- 32; 14_serial_lanes.md R335; one-way delay of the link, LSB 1/16 ns; reset 0 -/
  delay : Nat := 0
  /-- 32; 14_serial_lanes.md Table LANE-7; NAK_SENT of the receive direction; reset 0 -/
  nakSent : Nat := 0
  /-- 32; 14_serial_lanes.md Table LANE-7; NAK_RECEIVED of the transmit direction; reset 0 -/
  nakReceived : Nat := 0
  /-- 32; 14_serial_lanes.md Table LANE-7; REPLAYED of the transmit direction; reset 0 -/
  replayed : Nat := 0
  /-- 32; 14_serial_lanes.md Table LANE-7; STOMPED of the receive direction; reset 0 -/
  stomped : Nat := 0
  deriving DecidableEq, Repr

/-- One serial lane (Table LANE-7). -/
structure Lane where
  /-- 1; 14_serial_lanes.md R330; TRAINED; reset 0 -/
  trained : Bool := false
  /-- 1; 14_serial_lanes.md R330; the partner's TS shows the transmit lane of this digit TRAINED; reset 0 -/
  partnerTrained : Bool := false
  /-- 1; 14_serial_lanes.md R331; in block lock; reset 0 -/
  locked : Bool := false
  /-- 1; 14_serial_lanes.md R332; deskewed; reset 0 -/
  deskewed : Bool := false
  /-- 6; 14_serial_lanes.md Table LANE-7; DESKEW; reset 0 -/
  deskew : Nat := 0
  /-- 24; 14_serial_lanes.md R332; marker count of its last ALIGN; reset 0 -/
  marker : Nat := 0
  /-- 64; 14_serial_lanes.md R332; instant of its last ALIGN; reset 0 -/
  markerAt : Nat := 0
  /-- 64; 14_serial_lanes.md R338; instant at which a Mortar lane began to train; reset 0 -/
  since : Nat := 0
  /-- 1; 14_serial_lanes.md R337; retraining in the background; reset 0 -/
  background : Bool := false
  /-- 64; 14_serial_lanes.md R342; BLOCKS up to `countFrom`, wrapping; reset 0 -/
  blocks : Nat := 0
  /-- 64; 14_serial_lanes.md R342; instant from which blocks are being counted; reset none (idle) -/
  countFrom : Option Nat := none
  /-- 32; 14_serial_lanes.md R331; LOCK_LOSSES; reset 0 -/
  lockLosses : Nat := 0
  /-- 32; 14_serial_lanes.md Table LANE-7; INVALID_HEADERS; reset 0 -/
  invalid : Nat := 0
  /-- 32; 14_serial_lanes.md R327; CTRL_ERRORS; reset 0 -/
  ctrlErrors : Nat := 0
  /-- 32; 14_serial_lanes.md R332; DESKEW_FAILS; reset 0 -/
  deskewFails : Nat := 0
  /-- 32; 14_serial_lanes.md R337; RESTRIPES; reset 0 -/
  restripes : Nat := 0
  /-- 32; 14_serial_lanes.md R330, R337; RETRAINS; reset 0 -/
  retrains : Nat := 0
  deriving DecidableEq, Repr

/-- A running eye scan (R341). -/
structure EyeScan where
  /-- 64; 14_serial_lanes.md R341; JSEQ of the command -/
  jseq : Nat
  /-- 5; 14_serial_lanes.md Table LANE-6; LANE -/
  lane : Nat
  /-- 6; 14_serial_lanes.md Table LANE-6; DWELL_LOG2 -/
  dwell : Nat
  /-- 7; 14_serial_lanes.md Table LANE-6; PHASE_COUNT -/
  phases : Nat
  /-- 8; 14_serial_lanes.md Table LANE-6; VOLT_COUNT -/
  volts : Nat
  /-- 64; 14_serial_lanes.md R340; instant the scan began -/
  start : Nat
  /-- 2; 14_serial_lanes.md R340; rate of the lane when it began -/
  rate : Nat
  /-- 14_serial_lanes.md R340; spans of the scan without block lock that have ended: from, to -/
  gaps : List (Nat × Nat)
  /-- 64; 14_serial_lanes.md R340; instant from which the lane is out of block lock now; none in lock -/
  gapFrom : Option Nat
  deriving DecidableEq, Repr

/-- The lanes and the Mortar link. -/
structure LaneState where
  /-- 20 lanes; 14_serial_lanes.md R326; reset as `Lane` -/
  lanes : Tab Lane := []
  /-- 14_serial_lanes.md R341; the eye scan running; reset none -/
  scan : Option EyeScan := none
  /-- 1; 14_serial_lanes.md R338; the Mortar link is up; reset 0 -/
  mortarUp : Bool := false
  /-- 8; 14_serial_lanes.md R339; A to B lanes in the mask; reset 0 -/
  maskAB : Nat := 0
  /-- 4; 14_serial_lanes.md R339; B to A lanes in the mask; reset 0 -/
  maskBA : Nat := 0
  /-- 2; 14_serial_lanes.md Table LANE-5; decimation judged at the last frame boundary: 0 none, 1 odd frames, 2 all; reset 0 -/
  decimate : Nat := 0
  /-- 64; 12_guarantees_and_recovery.md R274; instant of the last A to B heartbeat received; reset 0 -/
  beatAt : Nat := 0
  deriving DecidableEq, Repr

/-- RING_CONFIG settings (Table RING-9). -/
structure RingConfig where
  /-- 16; 13_yelxis_ring.md R319; NODE_ID; reset 0 (R319) -/
  nodeId : Nat := 0
  /-- 1; 13_yelxis_ring.md R319; ENABLE; reset 0 (R319) -/
  enable : Bool := false
  /-- 1; 13_yelxis_ring.md Table RING-9; PERSIST; reset 0 (R319, nothing persisted) -/
  persist : Bool := false
  /-- 2; 13_yelxis_ring.md Table RING-9; RATE; reset 0 -/
  rate : Nat := 0
  /-- 1; 13_yelxis_ring.md Table RING-9; TIME_FROM_RING; reset 0 -/
  timeFromRing : Bool := false
  /-- 10; 13_yelxis_ring.md Table RING-9; SYNC_PERIOD in us; reset 50 -/
  syncPeriod : Nat := 50
  /-- 10; 13_yelxis_ring.md Table RING-9; QUAR_THRESHOLD; reset 64 -/
  quarThreshold : Nat := 64
  /-- 12; 13_yelxis_ring.md Table RING-9; QUAR_RETRY in s; reset 60 -/
  quarRetry : Nat := 60
  deriving DecidableEq, Repr

/-- What the roster holds of one member (R304). -/
structure Member where
  /-- 32; 13_yelxis_ring.md R304; last ASEQ accepted -/
  aseq : Nat
  /-- 64; 13_yelxis_ring.md R304; instant of its last accepted ANNOUNCE -/
  seenAt : Nat
  /-- 16; 13_yelxis_ring.md Table RING-5; AFLAGS -/
  flags : Nat
  /-- 16; 13_yelxis_ring.md Table RING-5; NEIGH_W -/
  neighW : Nat
  /-- 16; 13_yelxis_ring.md Table RING-5; NEIGH_E -/
  neighE : Nat
  /-- 128; 13_yelxis_ring.md Table RING-5; UNIQUE_ID -/
  uid : Nat
  /-- 32; 13_yelxis_ring.md Table RING-5; FRAME_RATE -/
  frameRate : Nat
  /-- 8; 13_yelxis_ring.md Table RING-11; hops to it on the primary ring -/
  hopsPri : Nat
  /-- 8; 13_yelxis_ring.md Table RING-11; hops to it on the secondary ring -/
  hopsSec : Nat
  deriving DecidableEq, Repr

/-- A binding of a node ID to a UNIQUE_ID (R316). -/
structure Binding where
  /-- 16; 13_yelxis_ring.md R316; node ID -/
  node : Nat
  /-- 128; 13_yelxis_ring.md R316; UNIQUE_ID bound -/
  uid : Nat
  /-- 64; 13_yelxis_ring.md R316; instant its node was last in the roster -/
  seenAt : Nat
  deriving DecidableEq, Repr

/-- BLOCK and KEEP_OUT of one member, as the last SYNC gave them (Table RING-6). -/
structure SyncEntry where
  /-- 16; 13_yelxis_ring.md Table RING-6; NODE_ID -/
  node : Nat
  /-- 8; 13_yelxis_ring.md Table RING-6; BLOCK -/
  block : Nat
  /-- 32; 13_yelxis_ring.md Table RING-6; KEEP_OUT -/
  keepOut : Nat
  deriving DecidableEq, Repr

/-- A ring message delivered to this device and not yet taken up. -/
structure RingMessage where
  /-- 3; 13_yelxis_ring.md Table RING-3a; CLASS -/
  cls : Nat
  /-- 5; 13_yelxis_ring.md Table RING-3a; TYPE -/
  typ : Nat
  /-- 1; 13_yelxis_ring.md Table RING-3; ring on which it came: 0 primary, 1 secondary -/
  ring : Nat
  /-- 8; 13_yelxis_ring.md Table RING-3; PATH -/
  path : Nat
  /-- 16; 13_yelxis_ring.md Table RING-3; SRC -/
  src : Nat
  /-- 16; 13_yelxis_ring.md Table RING-3; HOPS -/
  hops : Nat
  /-- 13_yelxis_ring.md Table RING-3; payload -/
  payload : Bytes
  /-- 64; 13_yelxis_ring.md R307; local instant of arrival -/
  tick : Nat
  deriving DecidableEq, Repr

/-- An end-to-end message sent and not acknowledged (R300). -/
structure E2eMessage where
  /-- 16; 13_yelxis_ring.md R300; destination -/
  dst : Nat
  /-- 32; 13_yelxis_ring.md R300; ESEQ -/
  eseq : Nat
  /-- 3; 13_yelxis_ring.md Table RING-3a; CLASS -/
  cls : Nat
  /-- 5; 13_yelxis_ring.md Table RING-3a; TYPE -/
  typ : Nat
  /-- 13_yelxis_ring.md R300; payload, ESEQ included -/
  payload : Bytes
  /-- 64; 13_yelxis_ring.md R300; instant it was last sent -/
  sentAt : Nat
  deriving DecidableEq, Repr

/-- A remote command at its originator (R314). -/
structure RemoteCommand where
  /-- 3; 13_yelxis_ring.md R314; mailbox -/
  box : Nat
  /-- 16; 13_yelxis_ring.md R314; target node -/
  node : Nat
  /-- 64; 13_yelxis_ring.md R314; HOST_SEQ -/
  seq : Nat
  /-- 64; 13_yelxis_ring.md R314; instant it was sent -/
  sentAt : Nat
  /-- 64; 13_yelxis_ring.md R314; JSEQ of its journal entry -/
  jseq : Nat
  deriving DecidableEq, Repr

/-- A pair of originating node and mailbox kept at the target (R314). -/
structure RemotePair where
  /-- 16; 13_yelxis_ring.md R314; originating node -/
  node : Nat
  /-- 3; 13_yelxis_ring.md R314; its mailbox -/
  box : Nat
  /-- 64; 13_yelxis_ring.md R314; HOST_SEQ of the last command executed; none yet -/
  seq : Option Nat
  /-- 16; 13_yelxis_ring.md R314; its stored status -/
  status : Nat
  /-- 32; 13_yelxis_ring.md R314; its stored DETAIL -/
  detail : Nat
  /-- 13_yelxis_ring.md R314; its stored result -/
  result : Bytes
  deriving DecidableEq, Repr

/-- A RING_PEER_IDENT waiting for its answer (R325). -/
structure PeerIdent where
  /-- 64; 13_yelxis_ring.md R325; JSEQ of the command -/
  jseq : Nat
  /-- 16; 13_yelxis_ring.md R325; the member named -/
  node : Nat
  /-- 64; 13_yelxis_ring.md R325; instant it was asked -/
  tick : Nat
  deriving DecidableEq, Repr

/-- The fragments of one remote command or result collected so far (R314). -/
structure Fragments where
  /-- 16; 13_yelxis_ring.md R314; the member that sends them -/
  node : Nat
  /-- 5; 13_yelxis_ring.md R314; the mailbox, plus 16 for a result -/
  key : Nat
  /-- 64; 13_yelxis_ring.md R314; HOST_SEQ -/
  seq : Nat
  /-- 13_yelxis_ring.md R314; their bodies in order -/
  part : Bytes
  deriving DecidableEq, Repr

/-- The ring. -/
structure RingState where
  /-- 3; 13_yelxis_ring.md Table RING-2; state; reset BYPASS -/
  run : RingRun := .bypass
  /-- 64; 13_yelxis_ring.md Table RING-2; instant the state was entered; reset 0 -/
  since : Nat := 0
  /-- 64; 13_yelxis_ring.md Table RING-2; in JOINING, instant from which one port alone is in service; reset none -/
  oneSince : Option Nat := none
  /-- 1; 13_yelxis_ring.md R294; the bypass is closed; reset 1 -/
  bypass : Bool := true
  /-- 13_yelxis_ring.md Table RING-9; settings in force; reset as `RingConfig` -/
  cfg : RingConfig := {}
  /-- 2 ports, 0 E and 1 W; 13_yelxis_ring.md R291; reset as `RingPort` -/
  ports : Tab RingPort := []
  /-- 1; 13_yelxis_ring.md R296; port the device wraps at; reset none -/
  wrappedAt : Option Port := none
  /-- 1; 13_yelxis_ring.md R303; DUPLICATE_ID; reset 0 -/
  duplicateId : Bool := false
  /-- per node; 13_yelxis_ring.md R304; roster without this device; reset empty -/
  roster : List (Nat × Member) := []
  /-- per node; 13_yelxis_ring.md R304; last ASEQ accepted from nodes that left the roster; reset none -/
  aseqs : Tab Nat := []
  /-- 32; 13_yelxis_ring.md R304; ASEQ of the next ANNOUNCE; reset 1 (DESIGN CHOICE, log 14) -/
  aseq : Nat := 1
  /-- 64; 13_yelxis_ring.md R304; instant of the last ANNOUNCE sent; reset none -/
  announcedAt : Option Nat := none
  /-- up to 256; 13_yelxis_ring.md R316; binding table (NV); reset empty (DESIGN CHOICE, log 6) -/
  bindings : List Binding := []
  /-- nodes; 13_yelxis_ring.md R316; MEMBERSHIP_CHANGED; reset none -/
  changed : List Nat := []
  /-- up to 256; 13_yelxis_ring.md R321; expected order; reset none set -/
  expected : List Nat := []
  /-- 13_yelxis_ring.md R295; last complete ring order seen since VKA power-up; reset none -/
  lastOrder : List Nat := []
  /-- 16; 13_yelxis_ring.md R305; master, 0 for none; reset 0 -/
  master : Nat := 0
  /-- 64; 13_yelxis_ring.md R305; instant since which this device stands in the master's place; reset none -/
  placeSince : Option Nat := none
  /-- 1; 13_yelxis_ring.md R305; this device sends SYNC; reset 0 -/
  sending : Bool := false
  /-- 32; 13_yelxis_ring.md R306; SSEQ of the last SYNC accepted; reset none accepted -/
  sseq : Option Nat := none
  /-- 32; 13_yelxis_ring.md R306; SSEQ of the last SYNC sent; reset 0 (DESIGN CHOICE, log 14) -/
  sseqSent : Nat := 0
  /-- 64; 13_yelxis_ring.md R306; instant of the last SYNC sent; reset 0 -/
  syncSentAt : Nat := 0
  /-- 64; 13_yelxis_ring.md R306; instant of the last SYNC accepted; reset none -/
  syncAt : Option Nat := none
  /-- 64; 13_yelxis_ring.md R305; instant of the last SYNC accepted from a lower node ID; reset none -/
  lowerAt : Option Nat := none
  /-- 2; 13_yelxis_ring.md R308; consecutive sync periods with an accepted SYNC, up to 3; reset 0 -/
  syncRun : Nat := 0
  /-- 32; 13_yelxis_ring.md R306; FRAME_RATE of the last SYNC accepted; reset 0 -/
  syncRate : Nat := 0
  /-- 10; 13_yelxis_ring.md Table RING-8; the master's SYNC_PERIOD in force, us; reset 50 (Table RING-9) -/
  syncPeriod : Nat := 50
  /-- 32; 13_yelxis_ring.md Table RING-8; ACC_DELAY of the last accepted SYNC, LSB 1/16 ns; reset 0 -/
  accDelay : Nat := 0
  /-- 13_yelxis_ring.md R307; ring reference phase; reset none -/
  phase : Option RingPhase := none
  /-- 13_yelxis_ring.md R306; entries of the last SYNC accepted or sent; reset none -/
  entries : List SyncEntry := []
  /-- 1; 13_yelxis_ring.md R307; RATE_MISMATCH; reset 0 -/
  rateMismatch : Bool := false
  /-- 2 x 1; 13_yelxis_ring.md R310; the ring's share in RING_TOO_LONG, which is set while one of them is; reset 0 -/
  tooLong : List Bool := [false, false]
  /-- 2 x 2; 13_yelxis_ring.md R310; consecutive returning SYNCs beyond the bound, per ring; reset 0 -/
  longRun : List Nat := [0, 0]
  /-- 2 x 2; 13_yelxis_ring.md R310; consecutive returning SYNCs within it, per ring; reset 0 -/
  shortRun : List Nat := [0, 0]
  /-- 2 x 32; 13_yelxis_ring.md R310; returning ACC_DELAY per ring, LSB 1/16 ns; reset 0 -/
  returned : List Nat := [0, 0]
  /-- 13_yelxis_ring.md R298; messages delivered to this device, oldest first; reset none -/
  inbox : List RingMessage := []
  /-- 13_yelxis_ring.md R300; end-to-end messages not acknowledged, in order; reset none -/
  unacked : List E2eMessage := []
  /-- per destination; 13_yelxis_ring.md R300; next ESEQ sent; reset 0 (DESIGN CHOICE, log 14) -/
  eseqOut : Tab Nat := []
  /-- per source; 13_yelxis_ring.md R300; next ESEQ accepted; reset 0 (DESIGN CHOICE, log 14) -/
  eseqIn : Tab Nat := []
  /-- 13_yelxis_ring.md R312; at the sink, highest PI written per source and PI_ADDR; reset none -/
  sinkPi : List (Nat × Nat × Nat) := []
  /-- 13_yelxis_ring.md R314; fragments of remote commands and results being collected; reset none -/
  fragments : List Fragments := []
  /-- 13_yelxis_ring.md R314; remote commands sent and not answered; reset none -/
  remote : List RemoteCommand := []
  /-- up to 64; 13_yelxis_ring.md R314; pairs served as target; reset none -/
  pairs : List RemotePair := []
  /-- 13_yelxis_ring.md R325; RING_PEER_IDENT commands waiting; reset none -/
  idents : List PeerIdent := []
  /-- JSEQs; 13_yelxis_ring.md R322; RING_LEAVE commands waiting; reset none -/
  leaves : List Nat := []
  /-- 32; 13_yelxis_ring.md Table RING-8; WRAPS; reset 0 -/
  wraps : Nat := 0
  /-- 32; 13_yelxis_ring.md Table RING-8; QUARANTINES; reset 0 -/
  quarantines : Nat := 0
  /-- 32; 13_yelxis_ring.md Table RING-8; SYNC_LATE; reset 0 -/
  syncLate : Nat := 0
  /-- 32; 13_yelxis_ring.md Table RING-8; SYNC_LOST; reset 0 -/
  syncLost : Nat := 0
  /-- 32; 13_yelxis_ring.md Table RING-8; MASTER_CHANGES; reset 0 -/
  masterChanges : Nat := 0
  /-- 32; 13_yelxis_ring.md Table RING-8; TTL_EXPIRED; reset 0 -/
  ttlExpired : Nat := 0
  /-- 32; 13_yelxis_ring.md Table RING-8; E2E_RESENT; reset 0 -/
  resent : Nat := 0
  deriving DecidableEq, Repr
/-! ### Attached memory and the SRAMs (16) -/

/-- A correctable-error entry (Table MEM-4). -/
structure CeEntry where
  /-- 37; 16_memory_and_ecc.md Table MEM-4; ADDRESS -/
  addr : Nat
  /-- 8; 16_memory_and_ecc.md Table MEM-4; SYNDROME -/
  syndrome : Nat
  /-- 8; 16_memory_and_ecc.md Table MEM-4; BIT -/
  bit : Nat
  /-- 8; 16_memory_and_ecc.md Table MEM-4; HITS -/
  hits : Nat
  /-- 1; 16_memory_and_ecc.md R373; CLEARED_BY_WRITE -/
  cleared : Bool
  /-- 1; 16_memory_and_ecc.md R372; REAPPEARED -/
  reappeared : Bool
  /-- 32; 16_memory_and_ecc.md Table MEM-4; HOURS -/
  hours : Nat
  deriving DecidableEq, Repr

/-- DRAM, its error records, and the SRAMs the host reaches. -/
structure MemState where
  /-- 2^34 words of 64 + 8; 16_memory_and_ecc.md R366, R369; data plus 2^64 times the difference between the stored check bits and those the code gives for the data, by address / 8; reset 0, clean (DESIGN CHOICE, log 15) -/
  dram : Tab Nat := []
  /-- 8; 16_memory_and_ecc.md Table MEM-7; INSTALLED_GIB, 0 while DRAM is unusable; reset 0 (not trained) -/
  gib : Nat := 0
  /-- 16; 16_memory_and_ecc.md R365; rate in MT/s; reset 0 (not trained) -/
  rate : Nat := 0
  /-- 4; 16_memory_and_ecc.md Table MEM-7; channels in service; reset 0 (not trained) -/
  inService : Nat := 0
  /-- 4; 16_memory_and_ecc.md Table MEM-7; channels retired; reset 0 -/
  retired : Nat := 0
  /-- 19_power_boot_identity.md Table BOOT-5, 21 Table REGS-11; DRAM training that has not ended, and what it will find; reset none -/
  training : Option DramTraining := none
  /-- 4; 12_guarantees_and_recovery.md R280; channels declared failed whose retirement is not complete; reset 0 -/
  failed : Nat := 0
  /-- 4 x 2; 16_memory_and_ecc.md R380; consecutive failed retrainings; reset 0 -/
  retrainFails : Tab Nat := []
  /-- 16_memory_and_ecc.md R380; instants and channels of the uncorrectable reads of the last second; reset none -/
  ueAt : List (Nat × Nat) := []
  /-- words; 16_memory_and_ecc.md R378; words poisoned by a partial write, not counted by R380; reset none -/
  kept : Tab Bool := []
  /-- up to 32; 16_memory_and_ecc.md R372; correctable-error table in order of first sight; reset empty (Table REGS-11) -/
  ce : List CeEntry := []
  /-- 32; 16_memory_and_ecc.md R372; OVERFLOW; reset 0 -/
  overflow : Nat := 0
  /-- 64; 16_memory_and_ecc.md R383; CE_TOTAL, wrapping; reset 0 -/
  ceTotal : Nat := 0
  /-- 32; 16_memory_and_ecc.md R374; UE_TOTAL; reset 0 -/
  ueTotal : Nat := 0
  /-- 32; 16_memory_and_ecc.md R383; RMW_MERGES; reset 0 -/
  rmw : Nat := 0
  /-- 32; 16_memory_and_ecc.md R376; MIRROR_FALLBACKS; reset 0 -/
  fallbacks : Nat := 0
  /-- 32; 16_memory_and_ecc.md R371; SRAM_CE; reset 0 -/
  sramCe : Nat := 0
  /-- 32; 16_memory_and_ecc.md R371; SRAM_UE; reset 0 -/
  sramUe : Nat := 0
  /-- 64; 16_memory_and_ecc.md R374; LAST_UE address; reset 0 -/
  lastUeAddr : Nat := 0
  /-- 32; 16_memory_and_ecc.md R374; LAST_UE hours; reset 0 -/
  lastUeHours : Nat := 0
  /-- 262,144 x (8 + 5); 11_mailbox_interface.md R241, 16 R371; payload SRAM by byte, byte plus 256 times the difference of its check bits, none until written; reset none (content undefined, 21 Table REGS-1, log 50) -/
  payload : Tab (Option Nat) := []
  /-- the model's own number of the die B power-up, for the undefined content of payload SRAM; reset 0 (DESIGN CHOICE, log 50) -/
  payloadGen : Nat := 0
  /-- 64 x (8 + 5); 16_memory_and_ecc.md R381; journal test area; reset 0, clean (DESIGN CHOICE, log 15) -/
  testArea : Tab Nat := []
  /-- 512 x (32 + 7); 16_memory_and_ecc.md R381; engine test words, index 16 x engine + word; reset 0, clean (DESIGN CHOICE, log 15) -/
  testWords : Tab Nat := []
  deriving DecidableEq, Repr
/-! ### Housekeeping inputs and thermal management (17) -/

/-- A threshold switch (R393). -/
structure HkSwitch where
  /-- 1; 17_housekeeping_and_thermal.md Table HKTH-7; ENABLE; reset 0 -/
  enable : Bool := false
  /-- signed Q15.16; 17_housekeeping_and_thermal.md Table HKTH-7; LEVEL; reset 0 (DESIGN CHOICE, log 16) -/
  level : Int := 0
  /-- Q15.16; 17_housekeeping_and_thermal.md Table HKTH-7; HYST; reset 0 (DESIGN CHOICE, log 16) -/
  hyst : Int := 0
  /-- 1; 17_housekeeping_and_thermal.md R393; asserted; reset 0 -/
  on : Bool := false
  deriving DecidableEq, Repr

/-- Excitation, curve and parameters of a pair (Table HKTH-6). -/
structure HkSetting where
  /-- 2; 17_housekeeping_and_thermal.md R386; EXC; reset 0 -/
  exc : Nat := 0
  /-- 3; 17_housekeeping_and_thermal.md Table HKTH-2; CURVE of an external pair; reset 0 -/
  curve : Nat := 0
  /-- 132 bytes; 17_housekeeping_and_thermal.md Table HKTH-6; PARAMS; reset none (DESIGN CHOICE, unused by curve 0, log 16) -/
  params : Bytes := []
  deriving DecidableEq, Repr

/-- One housekeeping channel. -/
structure HkChannel where
  /-- 17_housekeeping_and_thermal.md R386; setting in force; reset as `HkSetting` -/
  set : HkSetting := {}
  /-- 17_housekeeping_and_thermal.md R394; HK_CONFIG waiting for the next round; reset none -/
  setNew : Option HkSetting := none
  /-- 17_housekeeping_and_thermal.md R393; high switch; reset as `HkSwitch` -/
  high : HkSwitch := {}
  /-- 17_housekeeping_and_thermal.md R393; low switch; reset as `HkSwitch` -/
  low : HkSwitch := {}
  /-- 17_housekeeping_and_thermal.md R394; high switch setting waiting for the next round; reset none -/
  highNew : Option HkSwitch := none
  /-- 17_housekeeping_and_thermal.md R394; low switch setting waiting for the next round; reset none -/
  lowNew : Option HkSwitch := none
  /-- signed 64; 17_housekeeping_and_thermal.md R390; SUM; reset 0 -/
  sum : Int := 0
  /-- 32; 17_housekeeping_and_thermal.md R390; N; reset 0 -/
  n : Nat := 0
  /-- signed Q15.16; 17_housekeeping_and_thermal.md R390; MIN; reset 0 -/
  min : Int := 0
  /-- signed Q15.16; 17_housekeeping_and_thermal.md R390; MAX; reset 0 -/
  max : Int := 0
  /-- 32; 17_housekeeping_and_thermal.md R391; OVER_COUNT; reset 0 -/
  overCount : Nat := 0
  /-- 32; 17_housekeeping_and_thermal.md R392; BREAKS; reset 0 -/
  breaks : Nat := 0
  /-- 1; 17_housekeeping_and_thermal.md Table HKTH-8; OVER since clear; reset 0 -/
  overSince : Bool := false
  /-- 1; 17_housekeeping_and_thermal.md R392; BREAK now; reset 0 -/
  breakNow : Bool := false
  /-- 1; 17_housekeeping_and_thermal.md Table HKTH-8; BREAK since clear; reset 0 -/
  breakSince : Bool := false
  /-- 1; 17_housekeeping_and_thermal.md R390; ACC_FULL; reset 0 -/
  full : Bool := false
  /-- signed 16; 17_housekeeping_and_thermal.md R389; even-round conversion of a curve-6 channel; reset none -/
  even : Option Int := none
  deriving DecidableEq, Repr

/-- An HK_READ waiting for its round boundary (R408). -/
structure HkRead where
  /-- 64; 17_housekeeping_and_thermal.md R408; JSEQ of the command -/
  jseq : Nat
  /-- 6; 17_housekeeping_and_thermal.md R408; FIRST -/
  first : Nat
  /-- 6; 17_housekeeping_and_thermal.md R408; COUNT -/
  count : Nat
  /-- 1; 17_housekeeping_and_thermal.md R408; CLEAR -/
  clear : Bool
  deriving DecidableEq, Repr

/-- The housekeeping ADC. -/
structure HkState where
  /-- 36 channels; 17_housekeeping_and_thermal.md R387; reset as `HkChannel` -/
  chans : Tab HkChannel := []
  /-- 32; 17_housekeeping_and_thermal.md R408; ROUND, rounds since die B start, wrapping; reset 0 -/
  round : Nat := 0
  /-- 6; 17_housekeeping_and_thermal.md R387; next slot, 36 when the round's last slot is converted; reset 0 -/
  slot : Nat := 0
  /-- 64; 17_housekeeping_and_thermal.md R387; instant the round began; reset 0 -/
  roundAt : Nat := 0
  /-- 17_housekeeping_and_thermal.md R395; HK_CAL running: JSEQ and start; reset none -/
  cal : Option (Nat × Nat) := none
  /-- 1; 17_housekeeping_and_thermal.md R395; UNCAL and blocker bit 0; reset 1 (R395) -/
  uncal : Bool := true
  /-- signed 32; 17_housekeeping_and_thermal.md R409; OFFSET in 1/256 code; reset 0 (nominal, R395) -/
  offset : Int := 0
  /-- 32; 17_housekeeping_and_thermal.md R409; GAIN, Q2.30; reset 2^30 (nominal, R395) -/
  gain : Nat := 2 ^ 30
  /-- 48 x 32; 17_housekeeping_and_thermal.md R409; currents in pA, index 3i + source; reset none measured (nominal, R395) -/
  currents : List Nat := []
  /-- 17_housekeeping_and_thermal.md R408; HK_READ commands waiting; reset none -/
  reads : List HkRead := []
  /-- 1; 21_register_map.md R470; latch pending; reset 0 -/
  latchPending : Bool := false
  /-- 32; 21_register_map.md Table REGS-13; HK_LATCH_SEQ; reset 0 -/
  latchSeq : Nat := 0
  /-- 32; 21_register_map.md Table REGS-13; HK_LATCH_ROUND; reset 0 -/
  latchRound : Nat := 0
  /-- 36 x 32 bytes; 21_register_map.md R470; HK_ENTRY mirror; reset 0 -/
  mirror : Bytes := []
  deriving DecidableEq, Repr

/-- One temperature sensor (R396 to R402). -/
structure ThSensor where
  /-- signed 16; 17_housekeeping_and_thermal.md Table HKTH-9; last reading, 1/16 C; reset none (TEMP reads 0) -/
  last : Option Int := none
  /-- signed 16; 17_housekeeping_and_thermal.md Table HKTH-9; TMAX; reset none (reads 0) -/
  tmax : Option Int := none
  /-- 2; 17_housekeeping_and_thermal.md R398; level set by the limits: 0 NORMAL to 3 SHUTDOWN; reset 0 -/
  level : Nat := 0
  /-- 3; 17_housekeeping_and_thermal.md R398; consecutive readings at or above WARN; reset 0 -/
  atWarn : Nat := 0
  /-- 3; 17_housekeeping_and_thermal.md R398; consecutive readings at or above THROTTLE; reset 0 -/
  atThrottle : Nat := 0
  /-- 3; 17_housekeeping_and_thermal.md R398; consecutive readings at or above SHUTDOWN; reset 0 -/
  atShutdown : Nat := 0
  /-- 3; 17_housekeeping_and_thermal.md R398; consecutive readings below the level's limit less 3 C; reset 0 -/
  below : Nat := 0
  /-- 1; 17_housekeeping_and_thermal.md R397; fast cadence; reset 0 -/
  fast : Bool := false
  /-- 6; 17_housekeeping_and_thermal.md R397; consecutive fast readings more than 12 C below WARN; reset 0 -/
  cool : Nat := 0
  /-- 64; 17_housekeeping_and_thermal.md R397; instant of its last reading; reset 0 -/
  readAt : Nat := 0
  /-- 2; 17_housekeeping_and_thermal.md R402; consecutive bad readings; reset 0 -/
  bad : Nat := 0
  /-- 1; 17_housekeeping_and_thermal.md R402; broken; reset 0 -/
  broken : Bool := false
  /-- 1; 17_housekeeping_and_thermal.md R399; rate hold at THROTTLE; reset 0 -/
  hold : Bool := false
  /-- 7; 17_housekeeping_and_thermal.md R399; consecutive marks with a 200 ms rise below 2 C; reset 0 -/
  calm : Nat := 0
  /-- 1; 17_housekeeping_and_thermal.md R399; RATE_WARN; reset 0 -/
  rateWarn : Bool := false
  /-- signed 16; 17_housekeeping_and_thermal.md Table HKTH-9; RISE over the last 1 s; reset 0 -/
  rise : Int := 0
  /-- 101 x signed 16; 17_housekeeping_and_thermal.md R399; readings at the 10 ms marks of the last second, newest first; reset none -/
  marks : List Int := []
  deriving DecidableEq, Repr

/-- A shutdown whose ledger entry is due (R405). -/
structure ShutdownEntry where
  /-- 64; 17_housekeeping_and_thermal.md R405; instant of the shutdown -/
  tick : Nat
  /-- 8; 17_housekeeping_and_thermal.md Table HKTH-4; SENSOR -/
  sensor : Nat
  /-- signed 16; 17_housekeeping_and_thermal.md Table HKTH-4; TMAX so far -/
  tmax : Int
  /-- signed 16; 17_housekeeping_and_thermal.md Table HKTH-4; RISE -/
  rise : Int
  deriving DecidableEq, Repr

/-- The thermal manager. -/
structure ThState where
  /-- 12 sensors; 17_housekeeping_and_thermal.md Table HKTH-3; reset as `ThSensor` -/
  sensors : Tab ThSensor := []
  /-- signed 16; 17_housekeeping_and_thermal.md R400; WARN in 1/16 C; reset 2,320 (145 C) -/
  warn : Int := 2320
  /-- signed 16; 17_housekeeping_and_thermal.md R400; THROTTLE in 1/16 C; reset 2,432 (152 C) -/
  throttle : Int := 2432
  /-- signed 16; 17_housekeeping_and_thermal.md R400; SHUTDOWN in 1/16 C; reset 2,592 (162 C) -/
  shutdown : Int := 2592
  /-- 16; 17_housekeeping_and_thermal.md R400; RISE_1S in 1/16 C; reset 80 (5 C) -/
  rise1s : Int := 80
  /-- 16; 17_housekeeping_and_thermal.md R400; RISE_200MS in 1/16 C; reset 80 (5 C) -/
  rise200 : Int := 80
  /-- 2; 17_housekeeping_and_thermal.md R398; device level; reset 0 NORMAL -/
  level : Nat := 0
  /-- 1; 17_housekeeping_and_thermal.md R404; shutdown in force (VKA); reset 0 -/
  shut : Bool := false
  /-- 1; 17_housekeeping_and_thermal.md R404; die A gated by the shutdown; reset 0 -/
  gated : Bool := false
  /-- signed 16; 17_housekeeping_and_thermal.md Table HKTH-9; DIODE_A in 1/16 C; reset none (reads 0) -/
  diodeA : Option Int := none
  /-- signed 16; 17_housekeeping_and_thermal.md R405; die B substrate diode in 1/16 C; reset none -/
  diodeB : Option Int := none
  /-- list; 17_housekeeping_and_thermal.md R405; instants and values of the readings of the last second; reset none -/
  recent : List (Nat × Int) := []
  /-- 17_housekeeping_and_thermal.md R405; ledger entry due; reset none -/
  entry : Option ShutdownEntry := none
  /-- 32; 17_housekeeping_and_thermal.md R405; shutdown entries written since manufacture (NV); reset 0 -/
  entries : Nat := 0
  /-- 32; 17_housekeeping_and_thermal.md Table HKTH-9; SHUTDOWNS; reset 0 -/
  shutdowns : Nat := 0
  /-- 32; 17_housekeeping_and_thermal.md Table HKTH-9; THROTTLE_MS up to `throttleFrom`, in ns; reset 0 -/
  throttleNs : Nat := 0
  /-- 64; 17_housekeeping_and_thermal.md Table HKTH-9; instant since which a sensor is at THROTTLE; reset none -/
  throttleFrom : Option Nat := none
  /-- 64; 17_housekeeping_and_thermal.md R399; instant of the last 10 ms mark; reset 0 -/
  markAt : Nat := 0
  deriving DecidableEq, Repr

/-! ### PCI Express endpoint, BAR0 interrupt block, BAR2 window and two-half shadows (15, 21) -/

/-- One MSI-X table entry (R349): message address, message data and vector control. -/
structure MsixEntry where
  /-- 64; 15_host_and_hod.md R349; message address; reset DESIGN CHOICE 0 (log 5) -/
  addr : Nat := 0
  /-- 32; 15_host_and_hod.md R349; message data; reset DESIGN CHOICE 0 (log 5) -/
  data : Nat := 0
  /-- 1; 15_host_and_hod.md R349; vector mask bit; reset PRESUMED 1, the PCI Express reset value (log 5) -/
  masked : Bool := true
  deriving DecidableEq, Repr

/-- The endpoint function, its interrupt block and the BAR2 window. -/
structure PcieState where
  /-- 1; 12_guarantees_and_recovery.md R279; Bus Master Enable; reset PRESUMED 0 (log 5) -/
  bme : Bool := false
  /-- 1; 15_host_and_hod.md R351; device power state is D3hot; reset PRESUMED 0 (log 5) -/
  d3hot : Bool := false
  /-- 1; 15_host_and_hod.md R349; MSI-X Enable; reset PRESUMED 0 (log 5) -/
  msixEnable : Bool := false
  /-- 1; 15_host_and_hod.md R349; MSI-X function mask; reset PRESUMED 0 (log 5) -/
  functionMask : Bool := false
  /-- 10; 15_host_and_hod.md R343, R358; max payload size in bytes; reset PRESUMED 128 (log 5) -/
  maxPayload : Nat := 128
  /-- 13; 15_host_and_hod.md R343, R358; max read request size in bytes; reset PRESUMED 512 (log 5) -/
  maxRead : Nat := 512
  /-- 64 x 128; 15_host_and_hod.md R349; the MSI-X table; reset as `MsixEntry` -/
  msix : Tab MsixEntry := []
  /-- 64; 15_host_and_hod.md R349; Pending Bit Array; reset 0 (21 R460) -/
  pba : Nat := 0
  /-- 22; 15_host_and_hod.md R350; IRQ_CAUSE; reset 0 (Table REGS-7) -/
  irqCause : Nat := 0
  /-- 22; 15_host_and_hod.md R350; IRQ_ENABLE; reset 0 (Table REGS-7) -/
  irqEnable : Nat := 0
  /-- 22 x 8; 21_register_map.md R465; IRQ_MAP vector of each source; reset 0xFF each (Table REGS-7) -/
  irqMap : Tab Nat := []
  /-- 5; 21_register_map.md Table REGS-12; WIN_BASE_HI as held; reset 0 -/
  winHi : Nat := 0
  /-- 12; 21_register_map.md Table REGS-12; WIN_BASE_LO[31:20]; reset 0 -/
  winLo : Nat := 0
  /-- 37; 15_host_and_hod.md R346; WIN_BASE in force; reset 0 -/
  winBase : Nat := 0
  /-- 32; 15_host_and_hod.md R347; WIN_PROTECTED, saturating; reset 0 (Table REGS-12) -/
  winProtected : Nat := 0
  /-- 1; 00_scope.md R14; ID_ERROR.STALE_PAIR; reset 0 (Table REGS-5) -/
  stalePair : Bool := false
  /-- 1; 15_host_and_hod.md R344; ID_ERROR.BAD_ACCESS; reset 0 (Table REGS-5) -/
  badAccess : Bool := false
  /-- 1; 21_register_map.md R473; ID_ERROR.TIME_CMD_IGNORED; reset 0 (Table REGS-5) -/
  timeCmdIgnored : Bool := false
  /-- 32 + full flag, one per 2H pair; 00_scope.md R14, 12 R288; the two-half shadows by pair number; reset empty -/
  shadows : Tab (Option Nat) := []
  deriving DecidableEq, Repr

/-- HOD_STATUS.STATE (Table HOST-4). -/
inductive HodRun where
  | idle | running | endHalt | error | aborting
  deriving DecidableEq, Repr

/-- A descriptor as fetched (Table HOST-6). -/
structure HodDesc where
  /-- 32; 15_host_and_hod.md Table HOST-6; CTRL -/
  ctrl : Nat := 0
  /-- 32; 15_host_and_hod.md Table HOST-6; ELEM_SIZE -/
  elemSize : Nat := 0
  /-- 64; 15_host_and_hod.md Table HOST-6; SRC -/
  src : Nat := 0
  /-- 64; 15_host_and_hod.md Table HOST-6; DST -/
  dst : Nat := 0
  /-- 3 x 17; 15_host_and_hod.md Table HOST-6; loop counts -/
  counts : List Nat := []
  /-- 3 x signed 32; 15_host_and_hod.md Table HOST-6; source steps -/
  srcSteps : List Int := []
  /-- 3 x signed 32; 15_host_and_hod.md Table HOST-6; destination steps -/
  dstSteps : List Int := []
  /-- 64; 15_host_and_hod.md Table HOST-6; NEXT -/
  next : Nat := 0
  deriving DecidableEq, Repr

/-- One Hod channel (Tables HOST-3, HOST-4). -/
structure HodChannel where
  /-- 2; 21_register_map.md Table REGS-10; HOD_CTRL; reset 0 -/
  ctrl : Nat := 0
  /-- 64; 21_register_map.md Table REGS-9; HOD_FIRST; reset 0 -/
  first : Nat := 0
  /-- 64; 21_register_map.md Table REGS-9; HOD_SKIP; reset 0 -/
  skip : Nat := 0
  /-- 64; 15_host_and_hod.md Table HOST-5; elements that the start in hand skips in its first descriptor; reset 0 -/
  startSkip : Nat := 0
  /-- 64; 21_register_map.md Table REGS-9; HOD_HALT_ADDR; reset 0 -/
  haltAddr : Nat := 0
  /-- 64; 12_guarantees_and_recovery.md R287; HOD_LAST_DONE; reset 0 -/
  lastDone : Nat := 0
  /-- 64; 12_guarantees_and_recovery.md R287; HOD_NEXT_BYTES; reset 0 -/
  nextBytes : Nat := 0
  /-- 64; 15_host_and_hod.md R363; HOD_ERR_ADDR; reset 0 -/
  errAddr : Nat := 0
  /-- 64; 15_host_and_hod.md Table HOST-3; HOD_BYTES, wrapping; reset 0 -/
  bytes : Nat := 0
  /-- 64; 15_host_and_hod.md Table HOST-3; HOD_DESCS, wrapping; reset 0 -/
  descs : Nat := 0
  /-- 32; 15_host_and_hod.md Table HOST-3; HOD_IGNORED, saturating; reset 0 -/
  ignored : Nat := 0
  /-- 3; 15_host_and_hod.md Table HOST-4; STATE; reset IDLE -/
  state : HodRun := .idle
  /-- 8; 15_host_and_hod.md Table HOST-4; ERR_CODE; reset 0 -/
  errCode : Nat := 0
  /-- 1; 15_host_and_hod.md Table HOST-4; DEVICE_OWNED; reset 0 -/
  deviceOwned : Bool := false
  /-- 1; 15_host_and_hod.md Table HOST-4; RESET_STOPPED; reset 0 -/
  resetStopped : Bool := false
  /-- 1; 15_host_and_hod.md Table HOST-4; PENDING; reset 0 -/
  pending : Bool := false
  /-- 1; 15_host_and_hod.md Table HOST-4; ORDERED; reset 0 -/
  ordered : Bool := false
  /-- 64; 15_host_and_hod.md R353; address of the descriptor to be fetched, if a fetch is due; reset none -/
  fetch : Option Nat := none
  /-- 64; 15_host_and_hod.md R354; address of the descriptor in progress; reset 0 -/
  descAddr : Nat := 0
  /-- 512; 15_host_and_hod.md Table HOST-6; the descriptor in progress; reset none -/
  desc : Option HodDesc := none
  /-- 64; 15_host_and_hod.md Table HOST-5; elements of it already done or skipped; reset 0 -/
  done : Nat := 0
  deriving DecidableEq, Repr

/-! ### Mailboxes, journal, staging and run control (11, 12) -/

/-- Mailbox STATE (Table MBOX-3). -/
inductive MbxStatus where
  | free | posted | accepted | done
  deriving DecidableEq, Repr

/-- Who sent a command: a mailbox of this device, or a ring member's mailbox (R246, R314). -/
inductive Origin where
  | mailbox (m : Nat)
  | remote (node : Nat) (m : Nat) (seq : Nat)
  deriving DecidableEq, Repr

/-- One mailbox: MBX_HDR, the latched header and the completion area (Tables MBOX-1 to MBOX-3). -/
structure Mailbox where
  /-- 512; 11_mailbox_interface.md Table MBOX-1; MBX_HDR as last written; reset 0 (21 "Mailboxes and payload SRAM") -/
  hdr : Bytes := List.replicate 64 0
  /-- 512; 11_mailbox_interface.md R236; the latched header; reset 0 (no command was posted) -/
  latched : Bytes := List.replicate 64 0
  /-- 8; 11_mailbox_interface.md Table MBOX-3; STATE; reset FREE (Table MBOX-6) -/
  state : MbxStatus := .free
  /-- 8; 11_mailbox_interface.md Table MBOX-3; CFLAGS; reset 0 -/
  cflags : Nat := 0
  /-- 16; 11_mailbox_interface.md Table MBOX-3; STATUS; reset 0 -/
  status : Nat := 0
  /-- 16; 11_mailbox_interface.md Table MBOX-3; ORIG_STATUS; reset 0 -/
  origStatus : Nat := 0
  /-- 16; 11_mailbox_interface.md Table MBOX-3; OPCODE; reset 0 -/
  opcode : Nat := 0
  /-- 64; 11_mailbox_interface.md Table MBOX-3; HOST_SEQ; reset 0 -/
  hostSeq : Nat := 0
  /-- 64; 11_mailbox_interface.md Table MBOX-3; LAST_SEQ; reset 0 -/
  lastSeq : Nat := 0
  /-- 16; 11_mailbox_interface.md Table MBOX-5 check 5; opcode of the last accepted command; reset 0 -/
  lastOp : Nat := 0
  /-- 32; 11_mailbox_interface.md Table MBOX-3; RESULT_LEN; reset 0 -/
  resultLen : Nat := 0
  /-- 32; 11_mailbox_interface.md Table MBOX-3; DETAIL; reset 0 -/
  detail : Nat := 0
  /-- 16; 11_mailbox_interface.md Table MBOX-3; EPOCH; reset 0 -/
  epoch : Nat := 0
  /-- 32; 11_mailbox_interface.md Table MBOX-3; FRAME; reset 0 -/
  frame : Nat := 0
  /-- 64; 11_mailbox_interface.md Table MBOX-3; HOST_TAG; reset 0 -/
  hostTag : Nat := 0
  /-- 64; 11_mailbox_interface.md Table MBOX-3; ACCEPT_TB; reset 0 -/
  acceptTb : Nat := 0
  /-- 64; 15_host_and_hod.md R351; since when a result for host memory waits for bus mastering; reset none -/
  waiting : Option Nat := none
  /-- 1; 11_mailbox_interface.md R242; the host-memory result write of the command in hand fails; reset 0 -/
  writeFails : Bool := false
  deriving DecidableEq, Repr

/-- Where a staged command's settings stand (R250). -/
inductive StageMark where
  | none | staged | covered
  deriving DecidableEq, Repr

/-- One journal entry (R266). -/
structure JEntry where
  /-- 64; 12_guarantees_and_recovery.md R266; JSEQ -/
  jseq : Nat := 0
  /-- 12_guarantees_and_recovery.md R266; the mailbox, or ring member and mailbox, of the command -/
  origin : Origin := .mailbox 0
  /-- 512; 12_guarantees_and_recovery.md R266; the latched header -/
  header : Bytes := []
  /-- 12_guarantees_and_recovery.md R266; the payload as read -/
  payload : Bytes := []
  /-- 12_guarantees_and_recovery.md R269; arena room taken by the payload and the largest result -/
  room : Nat := 0
  /-- 1; 12_guarantees_and_recovery.md R267; the ACCEPTED mark -/
  accepted : Bool := false
  /-- 64; 11_mailbox_interface.md R238; instant of acceptance -/
  acceptedAt : Nat := 0
  /-- 1; 12_guarantees_and_recovery.md R266; progress mark: the command has taken effect or started -/
  started : Bool := false
  /-- 1; 12_guarantees_and_recovery.md R266; the command is DONE -/
  done : Bool := false
  /-- 16; 11_mailbox_interface.md R240; final status -/
  status : Nat := 0
  /-- 16; 11_mailbox_interface.md R240; ORIG_STATUS of a duplicate answered by another member -/
  orig : Nat := 0
  /-- 32; 11_mailbox_interface.md Table MBOX-3; DETAIL of the completion -/
  detail : Nat := 0
  /-- 11_mailbox_interface.md R240; the stored result -/
  result : Bytes := []
  /-- 11_mailbox_interface.md R250; whether staged settings still hold the entry -/
  stage : StageMark := .none
  deriving DecidableEq, Repr

/-- An accepted COMMIT not yet applied or failed (R248). -/
structure PendingCommit where
  /-- 64; 11_mailbox_interface.md R247; JSEQ of the COMMIT -/
  jseq : Nat
  /-- 64; 11_mailbox_interface.md R248; its instant of acceptance -/
  tick : Nat
  /-- 1; 11_mailbox_interface.md R249; it was taken up with the predictor STOPPED or ACQUIRE -/
  free : Bool
  /-- 11_mailbox_interface.md R247; the settings it covers, in acceptance order, each with its JSEQ -/
  settings : List (Nat × StagedSetting)
  deriving DecidableEq, Repr

/-- A SNAPSHOT waiting for its latch (R253). -/
structure PendingSnapshot where
  /-- 64; 11_mailbox_interface.md R253; JSEQ of the SNAPSHOT -/
  jseq : Nat
  /-- 64; 11_mailbox_interface.md R253; its instant of acceptance -/
  tick : Nat
  /-- 32; 11_mailbox_interface.md R253; SECTIONS -/
  sections : Nat
  deriving DecidableEq, Repr

/-- Mailboxes, journal, staging set and run control. -/
structure MbxState where
  /-- 8 blocks; 11_mailbox_interface.md R235; mailboxes MB0 to MB7; reset as `Mailbox` -/
  boxes : Tab Mailbox := []
  /-- 4,096 entries; 12_guarantees_and_recovery.md R266, R269; the journal in acceptance order; reset empty -/
  journal : List JEntry := []
  /-- 64; 12_guarantees_and_recovery.md R266; next JSEQ; reset DESIGN CHOICE 1 (log 8) -/
  nextJseq : Nat := 1
  /-- 1; 12_guarantees_and_recovery.md R268; die A journal mirror in service; reset 0 (die A does not run yet) -/
  mirrorA : Bool := false
  /-- 2; 12_guarantees_and_recovery.md R266, R268; DRAM journal copies in service; reset 0 (DRAM is not trained yet) -/
  copies : Nat := 0
  /-- JSEQs; 12_guarantees_and_recovery.md R266; entries the die A mirror holds; reset empty -/
  heldA : List Nat := []
  /-- JSEQs; 12_guarantees_and_recovery.md R266; entries DRAM copy 0 holds; reset empty -/
  held0 : List Nat := []
  /-- JSEQs; 12_guarantees_and_recovery.md R266; entries DRAM copy 1 holds; reset empty -/
  held1 : List Nat := []
  /-- 9 x 64; 12_guarantees_and_recovery.md R270; JSEQ of the last command each block applied; reset 0 -/
  applied : Tab Nat := []
  /-- 11_mailbox_interface.md R247; the staging set, in acceptance order; reset empty -/
  staging : List (Nat × StagedSetting) := []
  /-- 11_mailbox_interface.md R248; COMMITs accepted and not yet applied or failed; reset empty -/
  commits : List PendingCommit := []
  /-- 11_mailbox_interface.md R253; SNAPSHOTs waiting for their latch; reset empty -/
  snapshots : List PendingSnapshot := []
  /-- 1; 11_mailbox_interface.md R254; session open; reset 0 -/
  session : Bool := false
  /-- 1; 11_mailbox_interface.md R258; run state ARMED; reset 0 (Table REGS-4) -/
  armed : Bool := false
  /-- 32; 11_mailbox_interface.md R237; REFUSED, saturating; reset 0 -/
  refused : Nat := 0
  /-- 32; 11_mailbox_interface.md R236; DOORBELL_IGNORED, saturating; reset 0 -/
  ignored : Nat := 0
  /-- 32; 11_mailbox_interface.md R240; DUPLICATES, saturating; reset 0 -/
  duplicates : Nat := 0
  /-- 64; 11_mailbox_interface.md R260; ACCEPTED_TOTAL, wrapping; reset 0 -/
  acceptedTotal : Nat := 0
  /-- 32; 11_mailbox_interface.md R242; RESULT_LOST, saturating; reset 0 -/
  resultLost : Nat := 0
  deriving DecidableEq, Repr

/-! ### Event log and non-volatile ledger (18) -/

/-- An event waiting for the log writer (R412). -/
structure LogEvent where
  /-- 64; 18_event_log.md R412; the die-B clock it was raised on -/
  tick : Nat := 0
  /-- 16; 18_event_log.md Table LOG-4; CODE -/
  code : Nat := 0
  /-- 4; 18_event_log.md Table LOG-2; severity -/
  sev : Nat := 0
  /-- 4; 18_event_log.md Table LOG-3; source block -/
  src : Nat := 0
  /-- 32; 18_event_log.md Table LOG-1; operating hours at the event -/
  hours : Nat := 0
  /-- 24; 18_event_log.md Table LOG-1; power cycles at the event -/
  pcycles : Nat := 0
  /-- 32; 18_event_log.md Table LOG-1; P0 -/
  p0 : Nat := 0
  /-- 32; 18_event_log.md Table LOG-1; P1 -/
  p1 : Nat := 0
  /-- 32; 18_event_log.md Table LOG-1; P2 -/
  p2 : Nat := 0
  deriving DecidableEq, Repr

/-- The rate-limit bucket of an event code (R414). -/
structure LogBucket where
  /-- 8; 18_event_log.md R414; RATE; reset 8 -/
  rate : Nat := 8
  /-- 8; 18_event_log.md R414; BURST; reset 16 -/
  burst : Nat := 16
  /-- 8; 18_event_log.md R414; tokens; reset 16 (a full bucket) -/
  tokens : Nat := 16
  /-- 64; 18_event_log.md R414; the instant the bucket first fell below BURST; reset none -/
  since : Option Nat := none
  /-- 32; 18_event_log.md R414; refill intervals ended since that instant; reset 0 -/
  gained : Nat := 0
  /-- 16; 18_event_log.md Table LOG-1; events dropped since the last stored record, saturating; reset 0 -/
  suppressed : Nat := 0
  deriving DecidableEq, Repr

/-- The event log in the VKA domain. -/
structure LogState where
  /-- 1,024 x 32 bytes; 18_event_log.md R411; the records by index; reset unwritten (reads zero, 21 "Event log window") -/
  records : Tab Bytes := []
  /-- 32; 18_event_log.md R411; NUMBER of the next record; reset 0 (R417) -/
  number : Nat := 0
  /-- per code; 18_event_log.md R414; the buckets; reset the defaults (R415) -/
  buckets : Tab LogBucket := []
  /-- up to 64 events; 18_event_log.md R412; the writer's queue; reset empty -/
  queue : List LogEvent := []
  /-- 32; 18_event_log.md R412; events dropped on a full queue; reset 0 -/
  lost : Nat := 0
  deriving DecidableEq, Repr

/-- The non-volatile ledger and the counters it backs (R418 to R420). -/
structure NvState where
  /-- 8 regions of bytes; 18_event_log.md R418; ledger contents as stored; reset DESIGN CHOICE 0, the manufacturing data is not given (log 6) -/
  regions : Tab (Tab Byte) := []
  /-- 8 x 32; 18_event_log.md R418; program cycles per region; reset 0 (DESIGN CHOICE, log 6) -/
  wear : Tab Nat := []
  /-- 8; 18_event_log.md R420; regions whose LEDGER_WEAR was logged; reset 0 (DESIGN CHOICE, log 6) -/
  wearLogged : Nat := 0
  /-- 7; 18_event_log.md R419; next COUNTERS slot; reset 0 (DESIGN CHOICE, log 6) -/
  slot : Nat := 0
  /-- 32; 18_event_log.md R419; operating hours, LSB 1/256 h; reset 0 (R419, end of manufacture) -/
  hours : Nat := 0
  /-- 24; 18_event_log.md R419; power-cycle count; reset 0 (R419, end of manufacture) -/
  pcycles : Nat := 0
  /-- 7; 17_housekeeping_and_thermal.md R405; next THERMAL entry; reset 0 (DESIGN CHOICE, log 6) -/
  thermalNext : Nat := 0
  deriving DecidableEq, Repr

/-! ### Power, boot and identity (19), resets (12) -/

/-- Where die B stands between power-on and a running Sornor. -/
inductive BootPhase where
  | off        -- held in the power-on reset, or unpowered (R424, R425)
  | rom        -- boot ROM busy (ID_BOOT_STATUS.STATE 0)
  | hostWait   -- host load, waiting for a chunk (1)
  | hostVerify -- host load, verifying (2)
  | hostReject -- host load, rejected (4)
  | started    -- an image runs, Sornor not ready (3)
  | ready      -- Sornor accepts HELLO (3, FW_READY)
  deriving DecidableEq, Repr

/-- One copy of the boot record (R430). -/
structure BootRecord where
  /-- 1; 19_power_boot_identity.md R430; the copy's CRC-32 holds; reset DESIGN CHOICE 1 (log 7) -/
  valid : Bool := true
  /-- 32; 19_power_boot_identity.md R430; generation; reset DESIGN CHOICE 0 (log 7) -/
  generation : Nat := 0
  /-- 1; 19_power_boot_identity.md R430; preferred image; reset DESIGN CHOICE 0, image A (log 7) -/
  preferred : Nat := 0
  deriving DecidableEq, Repr

/-- One flash slot (R430, R436). -/
structure FlashSlot where
  /-- up to 8 MiB; 19_power_boot_identity.md R436; parts written since the last erase, newest first, offset and data; reset DESIGN CHOICE empty (log 7) -/
  parts : List (Nat × Bytes) := []
  /-- 1; 19_power_boot_identity.md R437; the slot has verified since its last write; reset DESIGN CHOICE 1 (log 7) -/
  verified : Bool := true
  deriving DecidableEq, Repr

/-- Power, boot and reset state. -/
structure PowerState where
  /-- 1; 19_power_boot_identity.md R424; VKA is in range; reset 0 (before the first power-up) -/
  vka : Bool := false
  /-- 1; 19_power_boot_identity.md R424, R425; main power is in range and die B is out of its power-on reset; reset 0 -/
  main : Bool := false
  /-- 1; 19_power_boot_identity.md R424; every main rail is in range, whatever die B does (R425); reset 0 -/
  rails : Bool := false
  /-- 1; 12_guarantees_and_recovery.md R283; the memory supply kept DRAM contents; reset 0 -/
  memory : Bool := false
  /-- 1; 12_guarantees_and_recovery.md R283; the rail warning stopped acceptance; reset 0 -/
  warning : Bool := false
  /-- 3; 19_power_boot_identity.md R431, R433; boot phase; reset power-on reset -/
  phase : BootPhase := .off
  /-- 2; 19_power_boot_identity.md R429; BOOT_SEL as sampled; reset 0 (on-die pull-downs) -/
  bootSel : Nat := 0
  /-- 1; 19_power_boot_identity.md R429; the ROM start that follows samples BOOT_SEL; reset 0 -/
  selDue : Bool := false
  /-- 8; 21_register_map.md Table REGS-6; ID_BOOT_STATUS.CHUNKS, saturating; reset 0 -/
  chunks : Nat := 0
  /-- up to 8 MiB; 19_power_boot_identity.md R433; bytes loaded; reset empty -/
  loaded : Bytes := []
  /-- 2; 19_power_boot_identity.md R432; BOOT_IMAGE: 0 A, 1 B, 2 host load; reset 0 -/
  image : Nat := 0
  /-- 64; 19_power_boot_identity.md R432; instant the image was started; reset 0 -/
  startedAt : Nat := 0
  /-- 2; 19_power_boot_identity.md R432; images marked failed (VKA); reset 0 -/
  failed : Nat := 0
  /-- 2 x 64 KiB copies; 19_power_boot_identity.md R430; the boot records; reset as `BootRecord` -/
  records : Tab BootRecord := []
  /-- 2 x 8 MiB; 19_power_boot_identity.md R430; flash slots A and B; reset as `FlashSlot` -/
  slots : Tab FlashSlot := []
  /-- 32; 19_power_boot_identity.md R437; OTP minimum SVN; reset DESIGN CHOICE 0 (log 7) -/
  minSvn : Nat := 0
  /-- 10; 11_mailbox_interface.md Table MBOX-14b; RESETS since the previous HELLO; reset 0, bit 0 set by the VKA power-up -/
  resets : Nat := 0
  /-- 1; 12_guarantees_and_recovery.md R286; a fatal die B fault is in force; reset 0 -/
  fatal : Bool := false
  /-- list of 64; 12_guarantees_and_recovery.md R286; instants of lockstep restarts in the last 10 s; reset empty -/
  lockstepAt : List Nat := []
  /-- 1; 12_guarantees_and_recovery.md R274; die A runs, neither in reset nor gated; reset 0 -/
  dieA : Bool := false
  /-- 64; 05_receive_and_tdc.md R121; instant die A was last started; reset 0 -/
  dieAAt : Nat := 0
  /-- 1; 12_guarantees_and_recovery.md R276; die A was started since the last die B power-up, so that a restore is due; reset 0 -/
  dieAStarted : Bool := false
  /-- 64; 12_guarantees_and_recovery.md R276; instant of the die A reset being answered; reset 0 -/
  dieAResetAt : Nat := 0
  /-- 2; 12_guarantees_and_recovery.md R276; repeats of the reset so far; reset 0 -/
  dieAAttempts : Nat := 0
  /-- 1; 12_guarantees_and_recovery.md R276; die A could not be restored; reset 0 -/
  dieAFailed : Bool := false
  /-- 64; 12_guarantees_and_recovery.md R273; instant of the control-processor restart in progress; reset none -/
  restartAt : Option Nat := none
  deriving DecidableEq, Repr

/-! ### The whole state -/

/-- The state of the block. -/
structure State where
  /-- predictor, frames and timebase (02) -/
  angle : AngleState := {}
  /-- vehicle time (08, 21) -/
  time : VehicleTime := {}
  /-- filter chains, loop and drive (03) -/
  loop : LoopState := {}
  /-- scheduler and allocator (04) -/
  shot : ShotState := {}
  /-- 256 receive channels (05); reset as `Channel` -/
  recv : Tab Channel := []
  /-- tiles, engines and rejection (06, 07) -/
  eng : EngineState := {}
  /-- delivery and history (08) -/
  dlv : DlvState := {}
  /-- Emission Supervisor (10) -/
  es : EsState := {}
  /-- 2 capture units (09); reset as `CaptUnit` -/
  capt : Tab CaptUnit := []
  /-- Yelxis ring (13) -/
  ring : RingState := {}
  /-- serial lanes and Mortar link (14) -/
  lanes : LaneState := {}
  /-- DRAM, payload SRAM and test words (16) -/
  mem : MemState := {}
  /-- housekeeping ADC (17) -/
  hk : HkState := {}
  /-- thermal manager (17) -/
  th : ThState := {}
  /-- configuration in force (11 R247) -/
  set : Settings := {}
  /-- endpoint, interrupts and window (15, 21) -/
  pcie : PcieState := {}
  /-- 8 Hod channels (15); reset as `HodChannel` -/
  hod : Tab HodChannel := []
  /-- mailboxes, journal, staging and run control (11, 12) -/
  mbx : MbxState := {}
  /-- event log (18) -/
  log : LogState := {}
  /-- non-volatile ledger (18) -/
  nv : NvState := {}
  /-- power, boot and resets (19, 12) -/
  power : PowerState := {}
  /-- the model's own counter of free values drawn so far; reset 0 (DESIGN CHOICE, log 3) -/
  free : Nat := 0
  /-- the model's own trace of outputs, newest first; reset empty (DESIGN CHOICE, log 4) -/
  out : List Out := []
  /-- the commands that wait, first in, first out; reset empty -/
  pending : List Instr := []
  deriving DecidableEq, Repr

/-- The machine right after reset: no rail in range yet, the VKA domain at its defaults. -/
def State.reset : State := {}

end Sys2Proof.Machine
end

