-- ==== Sys2Proof/Machine/Ops.lean ====
section
/-! DEFINITION. The named operations every family shares: the clock, the trace of outputs, sparse-table accessors,
raising an event in the log, raising an interrupt source, and memory writes on PCI Express. -/

namespace Sys2Proof.Machine

open Sys2Proof

/-- The device timebase TB in ns (02 R32). -/
def now (s : State) : Nat := s.angle.tb

/-- Record an output at the device's edges. -/
def emit (o : Out) (s : State) : State := { s with out := o :: s.out }

/-- The number of a fresh free value, and the state that has drawn it. -/
def drawFree (s : State) : Nat × State := (s.free, { s with free := s.free + 1 })

/-! #### Accessors of numbered things -/

/-- A course's scheduler state. -/
def course (s : State) (c : Nat) : CourseShot := tabGet {} s.shot.courses c
/-- Change a course's scheduler state. -/
def modCourse (c : Nat) (f : CourseShot → CourseShot) (s : State) : State :=
  { s with shot.courses := tabMod {} s.shot.courses c f }
/-- A receive channel. -/
def chan (s : State) (ch : Nat) : Channel := tabGet {} s.recv ch
/-- Change a receive channel. -/
def modChan (ch : Nat) (f : Channel → Channel) (s : State) : State := { s with recv := tabMod {} s.recv ch f }
/-- A histogram engine. -/
def engine (s : State) (e : Nat) : Engine := tabGet {} s.eng.engines e
/-- Change a histogram engine. -/
def modEngine (e : Nat) (f : Engine → Engine) (s : State) : State :=
  { s with eng.engines := tabMod {} s.eng.engines e f }
/-- A course's rejection counters. -/
def rejOf (s : State) (c : Nat) : RejCounters := tabGet {} s.eng.rej c
/-- Change a course's rejection counters. -/
def modRej (c : Nat) (f : RejCounters → RejCounters) (s : State) : State :=
  { s with eng.rej := tabMod {} s.eng.rej c f }
/-- A delivery ring. -/
def dring (s : State) (r : Nat) : DlvRing := tabGet {} s.dlv.rings r
/-- Change a delivery ring. -/
def modRing (r : Nat) (f : DlvRing → DlvRing) (s : State) : State :=
  { s with dlv.rings := tabMod {} s.dlv.rings r f }
/-- A plane of the stacks. -/
def plane (s : State) (k : Nat) : Plane := tabGet {} s.dlv.planes k
/-- Change a plane. -/
def modPlane (k : Nat) (f : Plane → Plane) (s : State) : State :=
  { s with dlv.planes := tabMod {} s.dlv.planes k f }
/-- A Hod channel. -/
def hod (s : State) (k : Nat) : HodChannel := tabGet {} s.hod k
/-- Change a Hod channel. -/
def modHod (k : Nat) (f : HodChannel → HodChannel) (s : State) : State := { s with hod := tabMod {} s.hod k f }
/-- A mailbox. -/
def box (s : State) (m : Nat) : Mailbox := tabGet {} s.mbx.boxes m
/-- Change a mailbox. -/
def modBox (m : Nat) (f : Mailbox → Mailbox) (s : State) : State :=
  { s with mbx.boxes := tabMod {} s.mbx.boxes m f }
/-- A capture unit. -/
def capt (s : State) (u : Nat) : CaptUnit := tabGet {} s.capt u
/-- Change a capture unit. -/
def modCapt (u : Nat) (f : CaptUnit → CaptUnit) (s : State) : State := { s with capt := tabMod {} s.capt u f }
/-- A housekeeping channel. -/
def hkChan (s : State) (i : Nat) : HkChannel := tabGet {} s.hk.chans i
/-- Change a housekeeping channel. -/
def modHk (i : Nat) (f : HkChannel → HkChannel) (s : State) : State :=
  { s with hk.chans := tabMod {} s.hk.chans i f }
/-- A temperature sensor. -/
def sensor (s : State) (i : Nat) : ThSensor := tabGet {} s.th.sensors i
/-- Change a temperature sensor. -/
def modSensor (i : Nat) (f : ThSensor → ThSensor) (s : State) : State :=
  { s with th.sensors := tabMod {} s.th.sensors i f }
/-- A serial lane. -/
def lane (s : State) (i : Nat) : Lane := tabGet {} s.lanes.lanes i
/-- The running eye scan notes that its lane loses or regains block lock (14 R340). -/
def noteLock (i : Nat) (locked : Bool) (t : Nat) (scan : Option EyeScan) : Option EyeScan :=
  scan.map (fun x =>
    if x.lane ≠ i then x
    else
      match locked, x.gapFrom with
      | true, some t0 => { x with gaps := x.gaps ++ [(t0, t)], gapFrom := none }
      | false, none => { x with gapFrom := some t }
      | _, _ => x)

/-- The lanes with one of them changed. -/
def lanesWith (i : Nat) (f : Lane → Lane) (t : Nat) (l : LaneState) : LaneState :=
  let was := tabGet {} l.lanes i
  let is := f was
  { l with
    lanes := tabMod {} l.lanes i f
    scan := if was.locked = is.locked then l.scan else noteLock i is.locked t l.scan }

/-- Change a lane. -/
def modLane (i : Nat) (f : Lane → Lane) (s : State) : State := { s with lanes := lanesWith i f (now s) s.lanes }

/-- Index of a ring port. -/
def portIx (p : Port) : Nat := match p with | .e => 0 | .w => 1
/-- A ring port. -/
def port (s : State) (p : Port) : RingPort := tabGet {} s.ring.ports (portIx p)
/-- Change a ring port. -/
def modPort (p : Port) (f : RingPort → RingPort) (s : State) : State :=
  { s with ring.ports := tabMod {} s.ring.ports (portIx p) f }
/-- A filter chain. -/
def chain (s : State) (i : Nat) : Chain := tabGet {} s.loop.chains i
/-- Change a filter chain. -/
def modChain (i : Nat) (f : Chain → Chain) (s : State) : State :=
  { s with loop.chains := tabMod {} s.loop.chains i f }
/-- A course's shot program in force. -/
def progOf (s : State) (c : Nat) : ShotProgram := tabGet {} s.set.programs c
/-- A course's receive settings in force. -/
def recvOf (s : State) (c : Nat) : RecvCourse := tabGet {} s.set.recv c
/-- A course's histogram settings in force. -/
def histOf (s : State) (c : Nat) : HistCourse := tabGet {} s.set.hist c
/-- A course's rejection settings in force. -/
def rejSet (s : State) (c : Nat) : RejCourse := tabGet {} s.set.rej c
/-- Apply a change to each course, in ascending order. -/
def eachCourse (f : Nat → State → State) (s : State) : State := forUpto 128 f s

/-! #### Numbers of frame and epoch -/

/-- The frame number as every status and result reports it (00 R6). -/
def frameNo (s : State) : Nat := if s.angle.opened then s.angle.frame % 2 ^ 32 else 0xFFFFFFFF

/-- The epoch in force. -/
def epochNo (s : State) : Nat := s.angle.epoch

/-! #### Event log (18 R412, R421) -/

/-- Severity and source of an event code (18 Table LOG-4). Lane events take their source from the lane (R421). -/
def eventInfo (code : Nat) : Option (Nat × Nat) :=
  match code with
  | 0x0101 | 0x0102 | 0x0105 => some (1, 0)
  | 0x0103 | 0x0104 => some (0, 0)
  | 0x0106 => some (3, 0)
  | 0x0107 => some (4, 0)
  | 0x0108 => some (3, 1)
  | 0x0109 => some (1, 1)
  | 0x010A => some (4, 1)
  | 0x0201 | 0x0205 | 0x0206 => some (1, 1)
  | 0x0202 | 0x0203 | 0x0204 | 0x0301 => some (2, 1)
  | 0x0302 => some (3, 1)
  | 0x0401 => some (1, 1)
  | 0x0402 | 0x0403 => some (2, 0)
  | 0x0501 | 0x0502 | 0x0504 => some (2, 4)
  | 0x0503 => some (3, 4)
  | 0x0505 | 0x0506 => some (0, 4)
  | 0x0601 => some (3, 3)
  | 0x0602 => some (1, 3)
  | 0x0603 => some (2, 3)
  | 0x0604 => some (0, 3)
  | 0x0701 => some (3, 11)
  | 0x0801 => some (4, 2)
  | 0x0802 | 0x0803 | 0x0805 => some (1, 2)
  | 0x0804 | 0x0807 => some (2, 2)
  | 0x0806 => some (3, 2)
  | 0x0901 | 0x0904 | 0x0905 | 0x0906 | 0x090A | 0x090B => some (2, 6)
  | 0x0902 | 0x0907 | 0x0909 => some (3, 6)
  | 0x0903 | 0x0908 | 0x090C => some (1, 6)
  | 0x090D => some (2, 7)
  | 0x0A01 | 0x0A05 => some (3, 8)
  | 0x0A02 | 0x0A06 => some (1, 8)
  | 0x0A03 | 0x0A04 => some (2, 8)
  | 0x0A07 => some (4, 8)
  | 0x0B01 => some (1, 5)
  | 0x0B02 | 0x0B03 => some (3, 5)
  | 0x0B04 => some (4, 5)
  | 0x0B05 => some (2, 9)
  | 0x0B06 => some (3, 9)
  | 0x0C01 => some (2, 0)
  | 0x0C02 => some (0, 0)
  | 0x0C03 | 0x0C04 => some (3, 0)
  | 0x0D01 | 0x0D03 => some (1, 0)
  | 0x0D02 | 0x0D04 => some (2, 0)
  | _ => none

/-- Put an event into the log writer's queue, or count it lost when 64 events wait (18 R412). Events of one clock
stand in ascending source, then ascending code order. While main power is absent no event is recorded (R417). -/
def logPush (sev src code p0 p1 p2 : Nat) (s : State) : State :=
  if !s.power.main then s
  else if 64 ≤ s.log.queue.length then { s with log.lost := s.log.lost + 1 }
  else
    let e : LogEvent := ⟨now s, code, sev, src, s.nv.hours, s.nv.pcycles, wrap32 p0, wrap32 p1, wrap32 p2⟩
    { s with log.queue := insertBy (fun e => 0x10000 * (16 * e.tick + e.src) + e.code) e s.log.queue }

/-- Raise an event of Table LOG-4. An unlisted code is never stored (18 R421). -/
def logEv (code p0 p1 p2 : Nat) (s : State) : State :=
  match eventInfo code with
  | some (sev, src) => logPush sev src code p0 p1 p2 s
  | none => s

/-- Raise a lane event: source 6 for a ring lane, 7 for a Mortar lane (18 R421). -/
def logLane (code lane p1 : Nat) (s : State) : State :=
  match eventInfo code with
  | some (sev, _) => logPush sev (if lane < 8 then 6 else 7) code lane p1 0 s
  | none => s

/-! #### The NV ledger (18 R418 to R420) -/

/-- Bytes `off` to `off + n - 1` of a ledger region. -/
def nvRead (s : State) (region off n : Nat) : Bytes :=
  let t := tabGet [] s.nv.regions region
  (List.range n).map (fun i => tabGet 0 t (off + i))

/-- Store bytes in a sparse byte table. -/
def storeBytes (t : Tab Byte) (off : Nat) (bs : Bytes) : Tab Byte :=
  (bs.zipIdx).foldl (fun t e => tabSet 0 t (off + e.2) e.1) t

/-- Store bytes in a ledger region. -/
def nvStore (region off : Nat) (bs : Bytes) (s : State) : State :=
  { s with nv.regions := tabMod [] s.nv.regions region (fun t => storeBytes t off bs) }

/-- Rated cycles of a region: 10,000 for each place its writes rotate over (18 R418 to R420). -/
def nvRated (region : Nat) : Nat :=
  match region with
  | 1 | 5 => 1280000
  | 2 => 20000
  | 4 => 640000
  | _ => 10000

/-- Count a program cycle of a region, and log LEDGER_WEAR once at its rated cycles (18 R420). -/
def nvCycle (region : Nat) (s : State) : State :=
  let n := tabGet 0 s.nv.wear region + 1
  let s1 := nvStore 7 (4 * region) (b4 n) { s with nv.wear := tabSet 0 s.nv.wear region n }
  if nvRated region ≤ n ∧ s.nv.wearLogged.testBit region = false then
    logEv 0x0C03 region n 0 { s1 with nv.wearLogged := s1.nv.wearLogged ||| 2 ^ region }
  else s1

/-- One program of a region, and whether it verifies. -/
def nvProgram (region off : Nat) (bs : Bytes) (s : State) : Bool × State :=
  let (k, s1) := drawFree (nvCycle region s)
  if Config.nvFails k then (false, s1) else (true, nvStore region off bs s1)

/-- A write of a region: a program that fails verification is retried once, and a second failure is logged (18 R420). -/
def nvWrite (region off : Nat) (bs : Bytes) (s : State) : Bool × State :=
  let (ok, s1) := nvProgram region off bs s
  if ok then (true, s1)
  else
    let (ok2, s2) := nvProgram region off bs s1
    if ok2 then (true, s2) else (false, logEv 0x0C04 region 0 0 s2)

/-- CRC-8 with polynomial 0x07 and initial value 0. -/
def crc8 (bs : Bytes) : Nat := bs.foldl (crcByteM 8 0x07) 0

/-- CRC-16 with polynomial 0x1021 and initial value 0xFFFF. -/
def crc16 (bs : Bytes) : Nat := bs.foldl (crcByteM 16 0x1021) 0xFFFF

/-- The content of a COUNTERS slot (18 Table LOG-5). -/
def counterSlot (s : State) : Bytes :=
  let b := b4 s.nv.hours ++ b3 s.nv.pcycles
  b ++ b1 (crc8 b)

/-- Write the hours and the power cycles to the next COUNTERS slot; a slot that fails is skipped (18 R419, R420). -/
def writeCounters (s : State) : State :=
  let k := s.nv.slot % 128
  let (ok, s1) := nvWrite 1 (8 * k) (counterSlot s) { s with nv.slot := (k + 1) % 128 }
  if ok then s1
  else (nvWrite 1 (8 * ((k + 1) % 128)) (counterSlot s1) { s1 with nv.slot := (k + 2) % 128 }).2

/-- Load the COUNTERS slot with the largest valid hours value (18 R419). -/
def loadCounters (s : State) : State :=
  let best := (List.range 128).foldl (fun (m : Nat × Nat) k =>
    let b := nvRead s 1 (8 * k) 8
    if crc8 (b.take 7) = u8 b 7 ∧ m.1 ≤ u32 b 0 then (u32 b 0, le b 4 3) else m) (0, 0)
  { s with nv.hours := best.1, nv.pcycles := best.2 }

/-! #### Register access -/

/-- BAR0 answers: die B is out of reset (19 R433). -/
def bar0Up (s : State) : Bool := s.power.main && decide (s.power.phase ≠ .off)

/-- The boot ROM is in host load (19 R433). -/
def inHostLoad (s : State) : Bool :=
  decide (s.power.phase = .hostWait ∨ s.power.phase = .hostVerify ∨ s.power.phase = .hostReject)

/-- Registers outside the identity block and payload SRAM are served: not in host load (19 R433, 21 R460). -/
def bar0Served (s : State) : Bool := bar0Up s && !inHostLoad s

/-! #### PCI Express output (15 R345, R349, R350) -/

/-- The device may issue memory requests and messages (15 R351). -/
def canMaster (s : State) : Bool := s.pcie.bme && !s.pcie.d3hot

/-- A bitmap with bit `i` set. -/
def setBit (v i : Nat) : Nat := v ||| 2 ^ i

/-- A bitmap with bit `i` clear. -/
def clrBit (v i : Nat) : Nat := if bit v i then v - 2 ^ i else v

/-- Send an MSI-X message, or set its pending bit while it is masked (15 R349). -/
def msixSend (v : Nat) (s : State) : State :=
  if 64 ≤ v || !s.pcie.msixEnable then s
  else
    let e := tabGet {} s.pcie.msix v
    if e.masked || s.pcie.functionMask then { s with pcie.pba := s.pcie.pba ||| 2 ^ v }
    else if canMaster s then emit (.msix v e.addr e.data) s
    else s

/-- A pending MSI-X message whose vector is no longer masked is sent (15 R349). -/
def sendPending (v : Nat) (s : State) : State :=
  if bit s.pcie.pba v && !(tabGet {} s.pcie.msix v).masked && !s.pcie.functionMask && canMaster s && s.pcie.msixEnable then
    msixSend v { s with pcie.pba := clrBit s.pcie.pba v }
  else s

/-- The vector of an IRQ_MAP source, 0xFF for none (21 R465). -/
def irqVector (s : State) (n : Nat) : Nat := tabGet 0xFF s.pcie.irqMap n

/-- A source event of Table HOST-2, which numbers its sources 0 to 21: set its cause bit and, when it goes from 0 to 1
while enabled and mapped, send the message (15 R350). -/
def raiseIrq (n : Nat) (s : State) : State :=
  if 22 ≤ n || s.pcie.irqCause.testBit n then s
  else
    let s1 := { s with pcie.irqCause := s.pcie.irqCause ||| 2 ^ n }
    if s.pcie.irqEnable.testBit n && irqVector s n != 0xFF then msixSend (irqVector s n) s1 else s1

/-- The writes that carry bytes to host memory: a head up to the next multiple of the max payload size, whole
max-payload writes, and a tail (15 R358). -/
def hostPieces (mps : Nat) (ep : Bool) : Nat → Nat → Bytes → List Out
  | 0, _, _ => []
  | fuel + 1, addr, bs =>
    if bs.isEmpty then [] else
      let n := mps - addr % mps
      Out.hostWrite addr (bs.take n) ep :: hostPieces mps ep fuel (addr + n) (bs.drop n)

/-- Write bytes to host memory, in write order, with or without the EP bit. -/
def hostWriteEp (ep : Bool) (addr : Nat) (bs : Bytes) (s : State) : State :=
  if canMaster s then
    { s with out := (hostPieces s.pcie.maxPayload ep (bs.length + 1) addr bs).reverse ++ s.out }
  else s

/-- Write bytes to host memory. -/
def hostWrite (addr : Nat) (bs : Bytes) (s : State) : State := hostWriteEp false addr bs s

/-! #### Emission gating (01 R17, R18, R20) -/

/-- Less than 3 µs have passed since the last valid heartbeat from die B (01 R18). -/
def beatFresh (s : State) : Bool := decide (now s < s.shot.lastBeat + 3000)

/-- No emission off-path denies: the pair grants, die A has opened its gating, the heartbeat hold is released, and the
last heartbeat is less than 3 µs old. -/
def emitOk (s : State) : Bool := s.es.permit && s.shot.granted && !s.shot.hold && s.power.dieA && beatFresh s

/-- The levels of FIRE_P and FIRE_N of a course: both low while die A is down, else N the complement of P, which is high
during a pulse (04 R89). -/
def fireLegs (c : Nat) (s : State) : Bool × Bool :=
  let high := (course s c).flights.any (fun fl => fl.pulses.any (fun p =>
    decide (p / 128 ≤ now s ∧ now s < p / 128 + (progOf s c).pulse)))
  if s.power.dieA then (high, !high) else (false, false)

end Sys2Proof.Machine
end

