-- ==== Sys2Proof/Machine/Angle.lean ====
section
/-! DEFINITION. Angle prediction (02): column table, crossings, the predictor's model, slews, index corrections and
predictor states. -/

namespace Sys2Proof.Machine

open Sys2Proof

/-- Round half to even of a quotient of natural numbers. -/
def rneN (a b : Nat) : Nat := (rne (a : Int) b).toNat

/-- One angle turn, in counts. -/
def turn : Nat := 2 ^ 32
/-- One count of U in its LSB of 2^-24 count. -/
def lsb24 : Nat := 2 ^ 24
/-- One turn in the LSB of U. -/
def turn24 : Nat := 2 ^ 56

/-! #### Column table (02 R26, Table ANGL-8) -/

/-- Entry `c` of a column table; entry 2048 reads 2^32 for 0 (02 R26). -/
def colEntry (t : ColTable) (c : Nat) : Nat :=
  match t with
  | .even first last =>
    let l := if last = 0 then turn else last
    first + c * (l - first) / 2048
  | .explicit es =>
    let e := nth es c
    if c = 2048 ∧ e = 0 then turn else e

/-- Index of the first entry from `c` on that breaks the first three conditions of 02 R26, over `n` entries. -/
def colBreak (t : ColTable) : Nat → Nat → Option Nat
  | 0, _ => none
  | n + 1, c =>
    if c ≠ 0 ∧ (colEntry t c < colEntry t (c - 1) + 4096 ∨ colEntry t c % turn = 0 ∧ c ≠ 2048) then some c
    else colBreak t n (c + 1)

/-- The first offending entry of a table taken alone (02 R48). -/
def colFirstBreak (t : ColTable) : Option Nat := colBreak t 2049 0

/-- The fourth condition of 02 R26, judged at COMMIT. -/
def colFits (t : ColTable) (scan : ScanSettings) : Bool :=
  match scan.kind with
  | .rotor => true
  | .mirror => decide (colEntry t 2048 ≤ scan.forwardSpan)

/-! #### The nominal rate (03 R62) -/

/-- FRAME_RATE in mHz (03 Table LOOP-12); open before any LOOP_CONFIG. -/
def frameRate (s : State) : Nat :=
  match s.loop.config with
  | some cfg => cfg.frameRate
  | none => Config.frameRateUnset

/-- ω_ref in LSB of 2^-32 count per ns. -/
def omegaRef (s : State) : Nat := rneN (2 ^ 64 * frameRate s) (1000 * 10 ^ 9)

/-- SLOT_NS of a program (04 R80). -/
def slotNs (p : ShotProgram) : Nat := 2 ^ p.dspan + p.window + p.guard

/-- SLOT_COUNTS of a program (04 R82). -/
def slotCountsOf (s : State) (p : ShotProgram) : Nat := rneN (slotNs p * omegaRef s) turn

/-! #### The predictor's model (02 R34, R35) -/

/-- Um at `t`, floored to 2^-24 count: the exact value in units of 2^-49 count is divided by 2^25. -/
def modelAt (us : Int) (u : AngleUpdate) (t : Nat) : Int :=
  let dt : Int := (t : Int) - (u.ts : Int)
  (us * 2 ^ 25 + u.omega * dt * 2 ^ 17 + u.alpha * dt * dt) / 2 ^ 25

/-- `theta` placed within 2^31 counts of `u`, both in LSB of 2^-24 count (02 R34). -/
def placeNear (u : Int) (theta : Nat) : Int :=
  let m : Int := (turn24 : Nat)
  let d := ((theta : Int) - u) % m
  u + (if d < m / 2 then d else d - m)

/-- The next part of a slew (02 R35). -/
def slewPart (w : Slew) : Int := if w.left = 1 then w.x - 255 * (w.x / 256) else w.x / 256

/-- The slews after one tick. -/
def slewStep (ws : List Slew) : List Slew :=
  (ws.map (fun w => { w with left := w.left - 1 })).filter (fun w => decide (w.left ≠ 0))

/-- One TB tick of the timebase and the predictor (02 R32, R34, R35). -/
def tickAngle (a : AngleState) : AngleState :=
  let t := wrap64 (a.tb + 1)
  match a.pred, a.upd with
  | .stopped, _ => { a with tb := t }
  | _, none => { a with tb := t }
  | _, some u =>
    let c := satS 56 (a.c + listSumI (a.slews.map slewPart))
    let un := modelAt a.us u t + c
    let u' := max a.u un.toNat
    { a with
      tb := t
      c := c
      slews := slewStep a.slews
      u := u'
      hist := (u' :: a.hist).take 4000
      holdNs := if un < (a.u : Int) then sat32 (a.holdNs + 1) else a.holdNs }

/-- Integer part of U. -/
def uInt (s : State) : Nat := s.angle.u / lsb24

/-- Integer part of U one tick ago; 0 before the first tick of the history. -/
def uPrev (s : State) : Nat := s.angle.hist.getD 1 0 / lsb24

/-- No frame is in progress, and COMMITs and SNAPSHOTs do not wait for a boundary (11 R249). -/
def unframed (s : State) : Bool := decide (s.angle.pred = .stopped ∨ s.angle.pred = .acquire)

/-- The boundary of the next frame is crossed and has not taken effect: die A runs, and the predictor is neither STOPPED
nor in ACQUIRE (02 R28, R44). -/
def frameDue (s : State) : Bool :=
  s.power.dieA && !unframed s && decide (turn * (s.angle.frame + 1) ≤ uInt s)

/-- U(ti) times 64, for `ti` in 1/64 ns steps before or at now; none outside the 4 µs history (02 R38). -/
def uAt64 (s : State) (ti64 : Nat) : Option Nat :=
  let t0 := ti64 / 64
  let f := ti64 % 64
  if now s < t0 ∨ (f ≠ 0 ∧ now s ≤ t0) then none else
    match s.angle.hist[now s - t0]?, s.angle.hist[now s - t0 - 1]? with
    | some u0, some u1 => some (if f = 0 then 64 * u0 else u0 * (64 - f) + u1 * f)
    | some u0, none => if f = 0 then some (64 * u0) else none
    | none, _ => none

/-! #### Predictor states (02 Table ANGL-5) -/

/-- Number of a predictor state (Table ANGL-10). -/
def predNo : PredState → Nat
  | .stopped => 0 | .acquire => 1 | .coarse => 2 | .locked => 3 | .holdover => 4

/-- Tiles with shots in flight carry PARTIAL when new shots stop (02 Table ANGL-5). -/
def markFlying (s : State) : State :=
  { s with eng.tiles := s.eng.tiles.map (fun t =>
      if t.stage = .opened ∧ 0 < t.inFlight then { t with partialTile := true } else t) }

/-- Enter a predictor state and log the change (02 "Predictor states"); entry into COARSE starts an interval of R476, and
leaving LOCKED for COARSE or HOLDOVER stops new shots. -/
def setPred (p : PredState) (s : State) : State :=
  if s.angle.pred = p then s
  else
    let s0 := if s.angle.pred = .locked ∧ (p = .coarse ∨ p = .holdover) then markFlying s else s
    let s1 := logEv 0x0201 (predNo s.angle.pred) (predNo p) (frameNo s) s0
    { s1 with
      angle.pred := p
      angle.ivCount := if p = .coarse then 0 else s1.angle.ivCount
      angle.ivBad := if p = .coarse then false else s1.angle.ivBad }

/-- The control engine's T_c reaches die A with the loop's configuration (02 R36). -/
def sendTc (tc : Nat) (s : State) : State := { s with angle.tc := tc }

/-- θ of an update as die A uses it: with every −E added whose index generation the update does not carry yet (02
R38). -/
def thetaOf (a : AngleState) (u : AngleUpdate) : Nat :=
  let behind := (a.gen + 4 - u.gen % 4) % 4
  (((u.theta : Int) + listSumI (a.genAdds.take behind) * (lsb24 : Nat)) % ((turn24 : Nat) : Int)).toNat

/-- An arriving angle update (02 R35, R36, Table ANGL-5). -/
def takeUpdate (u : AngleUpdate) (s : State) : State :=
  let a := s.angle
  let stale : Bool := match a.upd with
    | some v => decide (a.pred ≠ .stopped ∧ u.ts ≤ v.ts)
    | none => false
  if stale then { s with angle.missedUpdates := sat32 (a.missedUpdates + 1) }
  else
    let us := placeNear (a.u : Int) (thetaOf a u)
    let t := now s
    match a.pred with
    | .stopped =>
      let u0 := max a.u (modelAt us u t).toNat
      setPred .acquire
        { s with
          angle.upd := some u
          angle.us := us
          angle.c := 0
          angle.slews := []
          angle.u := u0
          angle.hist := [u0]
          angle.uref := none
          angle.missingLogged := false
          angle.lastArrival := t
          angle.missed := 0 }
    | _ =>
      let old := match a.upd with
        | some v => modelAt a.us v t + a.c
        | none => (a.u : Int)
      let e := modelAt us u t - old
      let s1 : State :=
        { s with
          angle.upd := some u
          angle.us := us
          angle.c := satS 56 (-e)
          angle.slews := [⟨e, 256⟩]
          angle.lastArrival := t
          angle.missed := 0 }
      if a.pred = PredState.holdover then setPred .coarse s1 else s1

/-- ANGLE_UPDATE (02 R35): the oldest update on the Mortar link arrives. -/
def execAngleUpdate (s : State) : Host.Outcome State Fault Refusal :=
  .next <|
    match s.loop.sent with
    | [] => s
    | u :: rest =>
      let s1 := { s with loop.sent := rest }
      if s.power.dieA then takeUpdate u s1 else s1

/-- MISSED_UPDATE (02 R36): a control period has passed without an accepted update. -/
def execMissedUpdate (s : State) : Host.Outcome State Fault Refusal :=
  .next <|
    if s.angle.pred = .stopped ∨ now s < s.angle.lastArrival + s.angle.tc * (s.angle.missed + 1) + 1000 then s
    else
      let s1 : State :=
        { s with
          angle.missed := s.angle.missed + 1
          angle.missedUpdates := sat32 (s.angle.missedUpdates + 1) }
      if 3 ≤ s1.angle.missed ∧ s1.angle.pred = .locked then setPred .holdover s1 else s1

/-! #### Index correction (02 R37 to R41) -/

/-- The frame a correction made now is attributed to (02 R39), unwrapped. -/
def attrFrame (s : State) : Nat :=
  if s.angle.inFrame then
    (match s.angle.firstDone with
     | some f => if s.angle.frame ≤ f then s.angle.frame + 1 else s.angle.frame
     | none => s.angle.frame)
  else s.angle.frame + 1

/-- The difference E of an accepted index and its Uref: `u64` is U(ti) times 64 (02 R38). -/
def indexError (u64 : Nat) (angle : Nat) : Int × Int :=
  let ui : Int := ((u64 / (64 * lsb24) : Nat) : Int)
  let d := ((angle : Int) - ui) % (turn : Int)
  let d := if d < (turn : Int) / 2 then d else d - (turn : Int)
  (max (-(2 ^ 31 - 1)) (min (2 ^ 31 - 1) (-d)), ui + d)

/-- Note E in the status counters (Table ANGL-10). -/
def noteE (e : Int) (a : AngleState) : AngleState :=
  { a with lastE := e, maxAbsE := max a.maxAbsE e.natAbs }

/-- Send −E to die B: the control engine takes it at its next control period, and die A adds it to every update of an
earlier generation (02 R38). -/
def sendMinusE (e : Int) (a : AngleState) : AngleState :=
  { a with
    toDieB := a.toDieB ++ [-e]
    genAdds := (-e :: a.genAdds).take 3
    gen := (a.gen + 1) % 4 }

/-- An index accepted outside ACQUIRE: the correction slews in, is sent to die B and is attributed to a frame. -/
def correctIndex (e uref : Int) (s : State) : State :=
  let bound := s.set.index.suspectBound
  let f := attrFrame s
  let bad := decide (bound < e.natAbs)
  let relock := decide (s.set.index.relockBound < e.natAbs) && decide (s.angle.pred = .locked)
  let a := sendMinusE e (noteE e s.angle)
  let s1 : State :=
    { s with
      angle := { a with
        slews := a.slews ++ [⟨-e * (lsb24 : Nat), 256⟩]
        uref := some uref.toNat
        missingLogged := false
        attr := tabMod {} a.attr f (fun x => { corrected := true, exceeded := x.exceeded || bad })
        ivCount := a.ivCount + 1
        ivBad := a.ivBad || bad }
      loop.cycle := 0 }
  let s2 := if bad then logEv 0x0203 (unsigned 32 e) (f % turn) 0 s1 else s1
  if relock then setPred .coarse s2 else s2

/-- The model in force at `ti64`, in 1/64 ns, interpolated between ticks as 02 R38 interpolates U. -/
def modelAt64 (us : Int) (u : AngleUpdate) (ti64 : Nat) : Int :=
  (modelAt us u (ti64 / 64) * ((64 - ti64 % 64 : Nat) : Int) + modelAt us u (ti64 / 64 + 1) * ((ti64 % 64 : Nat) : Int)) / 64

/-- The index accepted in ACQUIRE at `ti64`, in 1/64 ns: the model is moved so that θ(ti) is INDEX_ANGLE with c 0, U
follows it from this tick, and COARSE begins (Table ANGL-5). -/
def acquireIndex (ti64 : Nat) (e : Int) (s : State) : State :=
  let want : Int := ((turn * s.angle.frame + s.set.index.angle : Nat) : Int) * (lsb24 : Nat)
  let shift := match s.angle.upd with
    | some v => want - modelAt64 s.angle.us v ti64
    | none => want - (s.angle.u : Int)
  let um := match s.angle.upd with
    | some v => modelAt (s.angle.us + shift) v (now s)
    | none => want
  let a := sendMinusE e (noteE e s.angle)
  setPred .coarse
    { s with
      angle := { a with
        us := a.us + shift
        c := 0
        slews := []
        u := um.toNat
        hist := [um.toNat]
        uref := some (turn * s.angle.frame + s.set.index.angle)
        missingLogged := false
        nextCol := 2049
        inFrame := false }
      loop.cycle := 0 }

/-- An index event at `ti64`, in 1/64 ns, at which U times 64 is `u64` (02 R37, R38). -/
def takeIndex (ti64 u64 : Nat) (s : State) : State :=
  if s.angle.pred = .stopped then s
  else
    let ui := u64 / (64 * lsb24)
    let early : Bool := match s.angle.uref with
      | some r => decide (ui < r + s.set.index.holdoff)
      | none => false
    if early then { s with angle.indexRejected := sat32 (s.angle.indexRejected + 1) }
    else
      let (e, r) := indexError u64 s.set.index.angle
      if s.angle.pred = .acquire then acquireIndex ti64 e s else correctIndex e r s

/-- INDEX_MISSING (02 R42): U has advanced 1.25 turns past Uref without a new index. -/
def execIndexMissing (s : State) : Host.Outcome State Fault Refusal :=
  .next <|
    match s.angle.uref with
    | none => s
    | some r =>
      if s.angle.missingLogged ∨ uInt s < r + 5 * 2 ^ 30 ∨ s.angle.pred = .stopped then s
      else
        logEv 0x0202 (frameNo s) 0 0
          { s with
            angle.missingLogged := true
            angle.indexMissing := sat32 (s.angle.indexMissing + 1) }

/-! #### Frames and tiles under suspicion (02 R40 to R43) -/

/-- The frame carries ANGLE_SUSPECT for want of a correction or for a large one (02 R40, R41). -/
def frameSuspect (s : State) (f : Nat) : Bool :=
  let x := tabGet {} s.angle.attr f
  !x.corrected || x.exceeded

/-- A tile completing now falls in COARSE or HOLDOVER (02 R43). -/
def predSuspect (s : State) : Bool := decide (s.angle.pred = .coarse ∨ s.angle.pred = .holdover)

/-- Count a frame once in SUSPECT_FRAMES (Table ANGL-10). -/
def countSuspect (f : Nat) (s : State) : State :=
  match s.angle.lastSuspect with
  | some g =>
    if f ≤ g then s
    else { s with angle.lastSuspect := some f, angle.suspectFrames := sat32 (s.angle.suspectFrames + 1) }
  | none => { s with angle.lastSuspect := some f, angle.suspectFrames := sat32 (s.angle.suspectFrames + 1) }

end Sys2Proof.Machine
end

