-- ==== Sys2Proof/Machine/Catalogue.lean ====
section
/-! DEFINITION. The command catalogue (11 Table MBOX-13): opcodes, largest payloads and largest results. -/

namespace Sys2Proof.Machine

open Sys2Proof

/-- A row of the catalogue: opcode, largest payload and largest result in bytes. -/
structure CatRow where
  /-- OPCODE -/
  op : Nat
  /-- largest payload the defining table allows -/
  payload : Nat
  /-- largest result the defining table allows -/
  result : Nat
  deriving DecidableEq, Repr

/-- Groups 0x01xx and 0x02xx. -/
def cat1 : List CatRow :=
  [⟨0x0101, 8, 128⟩, ⟨0x0102, 0, 0⟩, ⟨0x0103, 256, 256⟩, ⟨0x0104, 32, 224⟩, ⟨0x0105, 65552, 4⟩, ⟨0x0106, 4, 4⟩,
   ⟨0x0201, 8200, 0⟩, ⟨0x0202, 0, 8204⟩, ⟨0x0203, 12, 0⟩, ⟨0x0204, 24, 0⟩, ⟨0x0205, 0, 48⟩, ⟨0x0206, 2056, 0⟩,
   ⟨0x0207, 536, 0⟩, ⟨0x0208, 262152, 0⟩, ⟨0x0209, 8, 262152⟩, ⟨0x020A, 24, 0⟩, ⟨0x020B, 4, 0⟩, ⟨0x020C, 4, 48⟩]

/-- Groups 0x03xx to 0x05xx. -/
def cat2 : List CatRow :=
  [⟨0x0301, 1032, 0⟩, ⟨0x0302, 1032, 0⟩, ⟨0x0303, 4, 64⟩, ⟨0x0304, 2056, 0⟩, ⟨0x0305, 32776, 0⟩, ⟨0x0306, 4, 64⟩,
   ⟨0x0307, 8, 16648⟩, ⟨0x0401, 1032, 0⟩, ⟨0x0402, 8, 0⟩, ⟨0x0403, 4, 48⟩, ⟨0x0501, 48, 0⟩, ⟨0x0502, 4, 64⟩,
   ⟨0x0503, 12, 0⟩, ⟨0x0504, 40, 16⟩, ⟨0x0505, 0, 112⟩]

/-- Groups 0x06xx to 0x08xx. -/
def cat3 : List CatRow :=
  [⟨0x0601, 264, 0⟩, ⟨0x0602, 8, 0⟩, ⟨0x0603, 24, 0⟩, ⟨0x0604, 80, 0⟩, ⟨0x0605, 200, 0⟩, ⟨0x0606, 8, 8⟩,
   ⟨0x0607, 4, 64⟩, ⟨0x0701, 32, 8⟩, ⟨0x0702, 520, 0⟩, ⟨0x0703, 8, 0⟩, ⟨0x0704, 12, 131136⟩, ⟨0x0705, 4, 32⟩,
   ⟨0x0801, 0, 64⟩, ⟨0x0802, 24, 0⟩, ⟨0x0803, 0, 0⟩, ⟨0x0804, 3080, 0⟩, ⟨0x0805, 0, 8⟩, ⟨0x0806, 0, 8⟩,
   ⟨0x0807, 8, 0⟩, ⟨0x0808, 0, 0⟩, ⟨0x0809, 24, 0⟩, ⟨0x080A, 0, 1544⟩, ⟨0x080B, 8, 48⟩]

/-- Groups 0x09xx to 0x0Dxx. -/
def cat4 : List CatRow :=
  [⟨0x0901, 16, 0⟩, ⟨0x0902, 0, 112⟩, ⟨0x0903, 520, 8200⟩, ⟨0x0904, 0, 8⟩, ⟨0x0905, 2056, 0⟩, ⟨0x0906, 4, 0⟩,
   ⟨0x0907, 40, 248⟩, ⟨0x0908, 16, 32784⟩, ⟨0x0909, 4, 64⟩, ⟨0x0A01, 140, 0⟩, ⟨0x0A02, 0, 208⟩, ⟨0x0A03, 4, 1160⟩,
   ⟨0x0A04, 12, 0⟩, ⟨0x0A05, 16, 0⟩, ⟨0x0A06, 0, 128⟩, ⟨0x0B01, 0, 64⟩, ⟨0x0B02, 0, 544⟩, ⟨0x0B03, 4, 4⟩,
   ⟨0x0B04, 32, 16⟩, ⟨0x0C01, 8, 4⟩, ⟨0x0C02, 12, 8192⟩, ⟨0x0C03, 16, 4⟩, ⟨0x0D01, 0, 16⟩, ⟨0x0D02, 0, 4⟩,
   ⟨0x0D03, 8, 38216⟩, ⟨0x0D04, 0, 8⟩, ⟨0x0D05, 0, 0⟩, ⟨0x0D06, 0, 48⟩]

/-- Every opcode of interface level IL4 (11 R261). -/
def catalogue : List CatRow := cat1 ++ cat2 ++ cat3 ++ cat4

/-- The row of an opcode. -/
def catRow (op : Nat) : Option CatRow := catalogue.find? (fun r => r.op == op)

/-- Length of SNAPSHOT section `i` (11 Table MBOX-12b). -/
def sectionLen (i : Nat) : Nat :=
  nth [48, 48, 64, 6192, 16384, 2048, 6192, 4096, 64, 64, 112, 112, 1280, 1160, 128, 64] i

/-- SNAPSHOT's result for a bitmap of sections (11 R253). -/
def snapshotLen (sections : Nat) : Nat :=
  32 + listSum ((List.range 16).map (fun i => if bit sections i then 8 + sectionLen i else 0))

/-- The commands whose largest result depends on the payload (11 Table MBOX-5 check 8). -/
def dependent (op : Nat) : Bool := [0x0103, 0x0209, 0x0704, 0x0908, 0x0A03, 0x0C02, 0x0D03].contains op

/-- Largest result of such a command for the payload as read, never above the largest of all (11 Table MBOX-5 check 8,
DEDUCED, log 30). -/
def largestResult (op : Nat) (p : Bytes) : Nat :=
  let all := match catRow op with
    | some r => r.result
    | none => 0
  match op with
  | 0x0103 => min all p.length
  | 0x0209 => min all (8 + 4 * u32 p 4)
  | 0x0704 => min all (64 + 2 * u32 p 8)
  | 0x0908 => min all (16 + 4 * u8 p 4 * u8 p 7)
  | 0x0A03 => min all (8 + 32 * u8 p 1)
  | 0x0C02 => min all (u32 p 8)
  | 0x0D03 => min all (snapshotLen (u32 p 0))
  | _ => all

/-- The command's action needs die A (12 R277): ECC_TEST does when it writes or reads an engine SRAM (16 R381). COMMIT and
SNAPSHOT start without it and wait for it afterwards. -/
def needsDieA (op : Nat) (p : Bytes) : Bool :=
  [0x0205, 0x0209, 0x020A, 0x020B, 0x020C, 0x0302, 0x0303, 0x0306, 0x0307, 0x0403, 0x0701, 0x0702, 0x0703, 0x0704,
    0x0705].contains op || (decide (op = 0x0B04 ∧ u8 p 0 = 3 ∧ u8 p 1 ≠ 0))

/-- The block that records the last JSEQ it applied (12 R270): 0 scheduler, 1 receive, 2 engine settings, 3 loop,
4 capture, 5 Emission Supervisor, 6 ECC tables, 7 delivery engine, 8 staging set. -/
def blockOf (op : Nat) : Option Nat :=
  match op with
  | 0x0205 | 0x020A | 0x020B | 0x020C | 0x0D05 => some 0
  | 0x0302 | 0x0303 => some 1
  | 0x0306 | 0x0307 | 0x0403 => some 2
  | 0x0601 | 0x0602 | 0x0603 | 0x0604 | 0x0605 | 0x0606 | 0x0607 => some 3
  | 0x0701 | 0x0702 | 0x0703 | 0x0704 | 0x0705 => some 4
  | 0x0801 | 0x0802 | 0x0803 | 0x0804 | 0x0805 | 0x0806 | 0x0807 | 0x0808 | 0x0809 | 0x080A | 0x080B => some 5
  | 0x0B01 | 0x0B02 | 0x0B03 | 0x0B04 => some 6
  | 0x0502 | 0x0503 | 0x0504 | 0x0505 => some 7
  | 0x0201 | 0x0203 | 0x0204 | 0x0206 | 0x0207 | 0x0208 | 0x0301 | 0x0304 | 0x0305 | 0x0401 | 0x0402 | 0x0501 | 0x0905
  | 0x0D01 | 0x0D02 => some 8
  | _ => none

end Sys2Proof.Machine
end

