-- ==== Sys2Proof/Machine/Link.lean ====
section
/-! DEFINITION. The ring's link layer: frames, output queues, credits, replay, and end-to-end messages (13 R296 to R300,
14 R328, R334). -/

namespace Sys2Proof.Machine

open Sys2Proof

/-- This device's node ID. -/
def ownNode (s : State) : Nat := s.ring.cfg.nodeId

/-- The device is an ACTIVE member: ACTIVE or WRAPPED (13 R293). -/
def ringMember (s : State) : Bool := decide (s.ring.run = .active ∨ s.ring.run = .wrapped)

/-- The other port. -/
def otherPort (p : Port) : Port := match p with | .e => .w | .w => .e
/-- The port a ring leaves by: the primary by E, the secondary by W (13 Table RING-1). -/
def outPort (ring : Nat) : Port := if ring = 0 then .e else .w
/-- The ring that leaves by a port. -/
def ringOut (p : Port) : Nat := match p with | .e => 0 | .w => 1
/-- The ring that arrives at a port. -/
def ringIn (p : Port) : Nat := match p with | .e => 1 | .w => 0

/-! #### Lanes of a port (14 "Lane identifiers and rates") -/

/-- Lane ID of a port's receive lane `d`. -/
def rxLane (p : Port) (d : Nat) : Nat := match p with | .w => d | .e => 2 + d
/-- Lane ID of a port's transmit lane `d`. -/
def txLane (p : Port) (d : Nat) : Nat := match p with | .w => 4 + d | .e => 6 + d
/-- The port of a ring lane. -/
def lanePort (i : Nat) : Port := if i / 2 % 2 = 0 then .w else .e
/-- The four lanes of a port. -/
def portLanes (p : Port) : List Nat := [rxLane p 0, rxLane p 1, txLane p 0, txLane p 1]
/-- The digits of a mask. -/
def digits (m : Nat) : List Nat := (List.range 2).filter (fun d => m.testBit d)

/-! #### Ports in service (13 R293, R295) -/

/-- Members strictly between two nodes of an order, going forward. -/
def between (order : List Nat) (a b : Nat) : Nat :=
  match order.findIdx? (· == a), order.findIdx? (· == b) with
  | some i, some j => (j + 2 * order.length - i - 1) % order.length
  | _, _ => 0

/-- The order R295 uses. -/
def ringOrder (s : State) : List Nat := if s.ring.expected.isEmpty then s.ring.lastOrder else s.ring.expected

/-- k of R295 for the link at a port. -/
def bypassedAt (s : State) (p : Port) : Nat :=
  let n := (port s p).partner
  match p with
  | .e => between (ringOrder s) (ownNode s) n
  | .w => between (ringOrder s) n (ownNode s)

/-- The link at a port is declared broken (13 R295). -/
def portBroken (s : State) (p : Port) : Bool := decide (3 ≤ bypassedAt s p)

/-- The port is in service: ACTIVE, neither quarantined nor broken (13 R293). -/
def inService (s : State) (p : Port) : Bool := decide ((port s p).run = .active) && !portBroken s p

/-! #### Frames (13 R297) -/

/-- CLASS of a frame. -/
def frCls (f : Bytes) : Nat := u8 f 0 % 8
/-- TYPE of a frame. -/
def frTyp (f : Bytes) : Nat := u8 f 0 / 8
/-- PATH of a frame. -/
def frPath (f : Bytes) : Nat := u8 f 1
/-- SRC of a frame. -/
def frSrc (f : Bytes) : Nat := u16 f 2
/-- DST of a frame. -/
def frDst (f : Bytes) : Nat := u16 f 4
/-- LEN of a frame. -/
def frLen (f : Bytes) : Nat := u16 f 6
/-- LSEQ of a frame. -/
def frLseq (f : Bytes) : Nat := u32 f 8
/-- HOPS of a frame. -/
def frHops (f : Bytes) : Nat := u16 f 12
/-- Payload of a frame. -/
def frPayload (f : Bytes) : Bytes := (f.drop 16).take (frLen f)

/-- A frame without LSEQ, checks or CRC-32: header and payload. -/
def frameBody (cls typ path src dst hops : Nat) (payload : Bytes) : Bytes :=
  b1 (cls + 8 * typ) ++ b1 path ++ b2 src ++ b2 dst ++ b2 payload.length ++ b4 0 ++ b2 hops ++ b2 0 ++ payload

/-- The frame as sent on a hop: LSEQ, HCRC and CRC-32 filled in. -/
def sealFrame (lseq : Nat) (body : Bytes) : Bytes :=
  let h := overwrite body 8 (b4 lseq)
  let h := overwrite h 14 (b2 (crc16 (h.take 14)))
  h ++ b4 (crc32 h)

/-- Credits a frame needs (13 R299). -/
def creditsOf (body : Bytes) : Nat := ceilDiv (20 + frLen body) 64

/-- SAFETY and SYNC frames use the reserved pool (13 R299). -/
def usesReserved (body : Bytes) : Bool := frCls body == 1 || frCls body == 3

/-- Rank of a class in the order of priority (13 R298). -/
def classRank (cls : Nat) : Nat :=
  match cls with
  | 3 => 0 | 1 => 1 | 4 => 2 | _ => 3

/-! #### Control blocks (14 Table LANE-1) -/

/-- A link control block as sent: seven bytes and their CRC-8 (14 R327). -/
def blockOut (p : Port) (l : Option Nat) (kind : Nat) (content : Bytes) : Out :=
  let b := b1 kind ++ fit 6 content
  .block p l kind (b ++ b1 (crc8 b))

/-- Send a link control block on a port. -/
def sendBlock (p : Port) (kind : Nat) (content : Bytes) (s : State) : State := emit (blockOut p none kind content) s

/-- Send a link control block on every locked lane of a port's transmit direction, as RESTRIPE and LEAVE go (14 R328). -/
def sendBlockAll (p : Port) (kind : Nat) (content : Bytes) (s : State) : State :=
  forEach (digits (port s p).txMask) (fun d s => emit (blockOut p (some (txLane p d)) kind content) s) s

/-- Return credits to the partner (14 R334); never more are granted than at ACTIVE. -/
def returnCredit (p : Port) (reserved : Bool) (n : Nat) (s : State) : State :=
  if (port s p).run ≠ .active then s
  else
    let s1 := modPort p (fun x =>
      if reserved then { x with grantReserved := min 64 (x.grantReserved + n) }
      else { x with grantGeneral := min 960 (x.grantGeneral + n) }) s
    sendBlock p 0xB4 (if reserved then b2 0 ++ b2 n else b2 n ++ b2 0) s1

/-! #### Sending (13 R298, R299, 14 R334) -/

/-- Bytes held in a port's replay buffer. -/
def heldBytes (x : RingPort) : Nat := listSum (x.replay.map (fun h => h.bytes.length))

/-- Credits held in the pool that a frame uses. -/
def creditsHeld (x : RingPort) (f : Bytes) : Nat := if usesReserved f then x.reserved else x.general

/-- The credits of a frame are used. -/
def spend (f : Bytes) (x : RingPort) : RingPort :=
  if usesReserved f then { x with reserved := x.reserved - creditsOf f } else { x with general := x.general - creditsOf f }

/-- A queued frame can be sent now: no resend waits, its pool covers it and the replay buffer holds it. -/
def sendable (x : RingPort) (f : OutFrame) : Bool :=
  x.resendAt.isNone && decide (creditsOf f.bytes ≤ creditsHeld x f.bytes) &&
  decide (heldBytes x + f.bytes.length + 4 ≤ 65536)

/-- Φ at an instant, in counts (13 R307). -/
def phaseAt (p : RingPhase) (t : Nat) : Nat :=
  unsigned 32 ((p.phase : Int) + rne (p.omega * (16 * (t : Int) - p.at16)) (16 * 2 ^ 32))

/-- A frame as its first block leaves: a SYNC of this device takes T_SEND, PHASE and VEHICLE_TIME, and a forwarded one its
residence time (13 R306, Table RING-6). -/
def stampFrame (s : State) (f : OutFrame) : Bytes :=
  match f.stamp with
  | none => f.bytes
  | some (.own p) =>
    overwrite (overwrite (overwrite f.bytes 24 (b8 (now s))) 44 (b4 (phaseAt p (now s)))) 56 (b8 s.time.v)
  | some (.onward t) => overwrite f.bytes 32 (b4 (u32 f.bytes 32 + 16 * (now s - t)))

/-- Send the first sendable frame of a port, if any. -/
def sendOne (p : Port) (s : State) : State :=
  let x := port s p
  match x.queue.find? (sendable x) with
  | none => s
  | some f =>
    let fr := sealFrame x.txNext (stampFrame s f)
    let s1 := modPort p (fun x => { spend f.bytes x with
      queue := x.queue.erase f
      txNext := (x.txNext + 1) % 2 ^ 32
      replay := x.replay ++ [⟨x.txNext, fr, now s⟩] }) s
    let s2 := emit (.frame p fr) s1
    match f.credit with
    | some (q, k) => returnCredit q (usesReserved f.bytes) k s2
    | none => s2

/-- Send while frames can be sent; the first argument bounds their number. -/
def drainPort : Nat → Port → State → State
  | 0, _, s => s
  | n + 1, p, s => drainPort n p (sendOne p s)

/-- Send everything a port may send now. -/
def drain (p : Port) (s : State) : State := drainPort (port s p).queue.length p s

/-- The held frame stands at or after an LSEQ. -/
def lseqFrom (lseq : Nat) (h : HeldFrame) : Bool := decide (ringDist 32 lseq h.lseq < 2 ^ 31)

/-- Resend the next held frame of a resend in hand, if the credits held cover it (13 R299, 14 R334). A resent frame uses
credits again, since its reception returns them again (DEDUCED, log 41). -/
def resendOne (p : Port) (s : State) : State :=
  let x := port s p
  match x.resendAt with
  | none => s
  | some q =>
    match x.replay.find? (lseqFrom q) with
    | none => modPort p (fun x => { x with resendAt := none }) s
    | some h =>
      if creditsHeld x h.bytes < creditsOf h.bytes then s
      else
        emit (.frame p h.bytes) (modPort p (fun x => { spend h.bytes x with
          replay := x.replay.map (fun k => if k.lseq = h.lseq then { k with sentAt := now s } else k)
          replayed := sat32 (x.replayed + 1)
          resendAt := some ((h.lseq + 1) % 2 ^ 32) }) s)

/-- Resend while frames can be resent; the first argument bounds their number. -/
def resendMany : Nat → Port → State → State
  | 0, _, s => s
  | n + 1, p, s => resendMany n p (resendOne p s)

/-- Go on with a resend in hand, then with the queue. -/
def pump (p : Port) (s : State) : State := drain p (resendMany ((port s p).replay.length + 1) p s)

/-- Every held frame from an LSEQ on is to be resent, in order (14 R334). -/
def resendFrom (p : Port) (lseq : Nat) (s : State) : State :=
  pump p (modPort p (fun x => { x with resendAt := some lseq }) s)

/-- Put a frame into a port's output queue, in the order of priority, and send what may be sent. -/
def enqueue (p : Port) (f : OutFrame) (s : State) : State :=
  drain p (modPort p (fun x => { x with queue := insertBy (fun g => g.prio) f x.queue }) s)

/-- Where a frame of a ring leaves: its own port, or the other with WRAPPED set (13 R296); none with no port. -/
def routeOf (s : State) (ring : Nat) : Option (Port × Nat) :=
  if inService s (outPort ring) then some (outPort ring, ring)
  else if inService s (otherPort (outPort ring)) then some (otherPort (outPort ring), (1 - ring) + 2)
  else none

/-- Forward a frame on a ring: `credit` names what its reception holds, `stamp` what a SYNC still needs. -/
def forwardOn (ring : Nat) (body : Bytes) (own : Bool) (credit : Option (Port × Nat)) (stamp : Option SyncStamp)
    (s : State) : State :=
  match routeOf s ring with
  | none =>
    (match credit with
     | some (q, k) => returnCredit q (usesReserved body) k s
     | none => s)
  | some (p, path) =>
    let path := path ||| (if own then 0 else frPath body / 2 % 2 * 2)
    enqueue p ⟨2 * classRank (frCls body) + b2n own, overwrite body 1 (b1 path), credit, stamp⟩ s

/-- Send an own message on a ring. -/
def sendOn (ring cls typ dst : Nat) (payload : Bytes) (s : State) : State :=
  forwardOn ring (frameBody cls typ 0 (ownNode s) dst 0 payload) true none none s

/-- Broadcast an own message on both rings. -/
def broadcast (cls typ : Nat) (p0 p1 : Bytes) (s : State) : State :=
  sendOn 1 cls typ 0xFFFF p1 (sendOn 0 cls typ 0xFFFF p0 s)

/-- Drop the frames held for a link (13 R296). -/
def dropHeld (p : Port) (s : State) : State :=
  let back := (port s p).queue.filterMap (fun f => f.credit.map (fun c => (c, usesReserved f.bytes)))
  forEach back (fun e s => returnCredit e.1.1 e.2 e.1.2 s)
    (modPort p (fun x => { x with replay := [], queue := [], resendAt := none }) s)

/-! #### Frames received (13 R298, R301, 14 R329) -/

/-- The header is bad (code 1). -/
def badHeader (f : Bytes) : Bool :=
  decide (crc16 (f.take 14) ≠ u16 f 14 ∨ 2112 < frLen f ∨ 4 ≤ frPath f ∨ frSrc f = 0 ∨ frSrc f = 0xFFFF)

/-- Credits a received frame needs: by its LEN, or by its length where its header is bad (13 R299). -/
def wireCredits (f : Bytes) : Nat := if badHeader f then ceilDiv f.length 64 else creditsOf f

/-- The frame uses credits granted to the sender. -/
def useCredits (p : Port) (f : Bytes) (s : State) : State :=
  modPort p (fun x =>
    if usesReserved f then { x with grantReserved := x.grantReserved - wireCredits f }
    else { x with grantGeneral := x.grantGeneral - wireCredits f }) s

/-- The receiver has finished with a frame. -/
def freeCredits (p : Port) (f : Bytes) (s : State) : State := returnCredit p (usesReserved f) (wireCredits f) s

/-- A frame that is dropped: its credits are used and return at once. -/
def dropFrame (p : Port) (f : Bytes) (s : State) : State := freeCredits p f (useCredits p f s)

/-- This device is a destination of the frame. -/
def forMe (s : State) (f : Bytes) : Bool := decide (frDst f = ownNode s ∨ frDst f = 0xFFFF)

/-- The frame goes on: every broadcast and every frame for another, unless this device sent it; a SYNC is forwarded when
it has been judged. -/
def goesOn (s : State) (f : Bytes) : Bool :=
  decide (frDst f ≠ ownNode s ∧ frSrc f ≠ ownNode s) && !(forMe s f && decide (frCls f = 1 ∧ frTyp f = 1))

/-- The frame as it is forwarded: header and payload with HOPS counted on. -/
def onwardBody (f : Bytes) : Bytes :=
  overwrite (overwrite (overwrite (f.take (16 + frLen f)) 8 (zeros 4)) 12 (b2 (frHops f + 1))) 14 (zeros 2)

/-- A message class (13 Table RING-3). -/
def knownClass (f : Bytes) : Bool := decide (1 ≤ frCls f ∧ frCls f ≤ 4)

/-- The device passes frames on: it is a member, or is leaving. -/
def carriesFrames (s : State) : Bool := ringMember s || decide (s.ring.run = .leaving)

/-- End with STOMP the device's own copy of a frame in transit that cannot be completed (14 R329): the copy that cut-through
had begun on an idle output. It takes no LSEQ and, as the next member returns them, its credits. -/
def stompCopy (p : Port) (f : Bytes) (s : State) : State :=
  match routeOf s (ringIn p) with
  | none => s
  | some (q, path) =>
    let x := port s q
    if badHeader f || !knownClass f || !carriesFrames s || !goesOn s f || decide (300 < frHops f + 1 ∨ frLseq f ≠ (port s p).rxNext ∨ x.queue ≠ []) ||
        x.resendAt.isSome || decide (creditsHeld x f < creditsOf f) then s
    else
      let b := overwrite (overwrite (onwardBody f) 1 (b1 (path ||| (frPath f / 2 % 2 * 2)))) 8 (b4 x.txNext)
      emit (.stomped q (overwrite b 14 (b2 (crc16 (b.take 14))))) (modPort q (spend f) s)

/-- A frame whose reception a loss of lock or a switch of lanes has cut short, as far as it came: it is dropped, and its
copy ends with STOMP (14 R329, R336). -/
def cutReception (p : Port) (cut : Bytes) (s : State) : State :=
  if cut.length < 16 then s else dropFrame p cut (stompCopy p cut s)

/-! #### Blocks of a lane (14 R326, R342) -/

/-- Duration of a block in ps at a rate of 13 Table RING-9. -/
def blockPs (rate : Nat) : Nat := nth [4125, 6400, 12800] rate

/-- Blocks a lane has carried up to an instant (14 Table LANE-7). -/
def blocksAt (rate t : Nat) (x : Lane) : Nat :=
  match x.countFrom with
  | some t0 => wrap64 (x.blocks + (t - t0) * 1000 / blockPs rate)
  | none => x.blocks

/-- The lane carries no further block. -/
def stopCount (rate t : Nat) (x : Lane) : Lane := { x with blocks := blocksAt rate t x, countFrom := none }

/-- The lane carries blocks from now on. -/
def startCount (t : Nat) (x : Lane) : Lane := { x with countFrom := some (x.countFrom.getD t) }

/-! #### End-to-end messages (13 R300) -/

/-- The roster entry of a node. -/
def member (s : State) (n : Nat) : Option Member := (s.ring.roster.find? (fun e => e.1 == n)).map (fun e => e.2)

/-- The node stands in the roster, which holds this device too (13 R304). -/
def inRoster (s : State) (n : Nat) : Bool := (ringMember s && decide (n = ownNode s)) || (member s n).isSome

/-- The ring with fewer hops to a node, the primary on a tie (13 R311). -/
def ringTo (s : State) (n : Nat) : Nat :=
  match member s n with
  | some m => if m.hopsSec < m.hopsPri then 1 else 0
  | none => 0

/-- Send a RECORDS or MGMT message under the next ESEQ of its destination and keep it until it is acknowledged; a device
that is LEAVING originates none (13 Table RING-2). -/
def e2eSend (cls typ dst : Nat) (body : Bytes) (s : State) : State :=
  let q := tabGet 0 s.ring.eseqOut dst
  let payload := b4 q ++ body
  if s.ring.run = .leaving then s
  else
    sendOn (ringTo s dst) cls typ dst payload
      { s with
        ring.eseqOut := tabSet 0 s.ring.eseqOut dst ((q + 1) % 2 ^ 32)
        ring.unacked := s.ring.unacked ++ [⟨dst, q, cls, typ, payload, now s⟩] }

/-- Send a list of messages again, in order. -/
def e2eResend (ms : List E2eMessage) (s : State) : State :=
  forEach ms (fun m s => sendOn (ringTo s m.dst) m.cls m.typ m.dst m.payload s)
    { s with
      ring.unacked := s.ring.unacked.map (fun m => if ms.contains m then { m with sentAt := now s } else m)
      ring.resent := sat32 (s.ring.resent + ms.length) }

/-- The path of the messages has changed: every unacknowledged one is sent again (13 R300). -/
def e2ePathChange (s : State) : State := e2eResend s.ring.unacked s

/-- Acknowledge end to end the highest ESEQ accepted from a source (13 R300, R312): PALLET_ACK for a pallet, E2E_ACK for
an MGMT message. -/
def e2eAck (cls src : Nat) (s : State) : State :=
  let q := (tabGet 0 s.ring.eseqIn src + 2 ^ 32 - 1) % 2 ^ 32
  sendOn (ringTo s src) cls (if cls = 2 then 2 else 3) src (b4 q) s

/-- Take an end-to-end message: true if it is the next in order, and acknowledge (13 R300). -/
def e2eAccept (m : RingMessage) (s : State) : Bool × State :=
  let want := tabGet 0 s.ring.eseqIn m.src
  if u32 m.payload 0 = want then
    (true, e2eAck m.cls m.src { s with ring.eseqIn := tabSet 0 s.ring.eseqIn m.src ((want + 1) % 2 ^ 32) })
  else (false, e2eAck m.cls m.src s)

/-- An acknowledgement of ESEQ `q` arrives from a node: messages up to it are released. -/
def e2eAcked (src q : Nat) (s : State) : State :=
  { s with ring.unacked := s.ring.unacked.filter (fun m => !(m.dst == src && decide (ringDist 32 m.eseq q < 2 ^ 31))) }

end Sys2Proof.Machine
end

