-- ==== Sys2Proof/Machine/Memory.lean ====
section
/-! DEFINITION. DRAM with its inline code, poison and error table, and the SRAMs the host reaches (16). -/

namespace Sys2Proof.Machine

open Sys2Proof

/-! #### Capacity map (16 R365 to R368) -/

/-- DEPTH of an installed capacity (16 Table MEM-1). -/
def depthOf (gib : Nat) : Nat :=
  match gib with
  | 16 => 16 | 32 => 48 | 64 => 104 | 128 => 224 | _ => 0

/-- The entry of Table MEM-1 that an installed capacity is treated as, 0 for none (16 R365). -/
def tableGib (gib : Nat) : Nat :=
  if 128 ≤ gib then 128 else if 64 ≤ gib then 64 else if 32 ≤ gib then 32 else if 16 ≤ gib then 16 else 0

/-- Usable capacity in bytes (16 Table MEM-1). -/
def usable (s : State) : Nat := s.mem.gib * 15 * 2 ^ 26

/-- Base of the header copies. -/
def headerBase : Nat := 0x108000000
/-- Base of the slot tags. -/
def tagBase : Nat := 0x110000000
/-- Base of the stack planes. -/
def planeBase : Nat := 0x180000000

/-- Header copy of plane `k`. -/
def headerAddr (k : Nat) : Nat := headerBase + 64 * k
/-- Tag of tile `t` in plane `k`. -/
def tagAddr (k t : Nat) : Nat := tagBase + 2 ^ 23 * k + 32 * t
/-- Slot of tile `t` in plane `k`. -/
def slotAddr (k t : Nat) : Nat := planeBase + 2 ^ 29 * k + 2048 * t

/-- First address of the host area. -/
def hostAreaBase (s : State) : Nat := planeBase + 2 ^ 29 * s.dlv.depth
/-- Size of the host area (16 Table MEM-1). -/
def hostAreaSize (s : State) : Nat := usable s - hostAreaBase s

/-- Channel of an address (16 Table MEM-2, R367). -/
def channelOf (a : Nat) : Nat :=
  if a < 0x42000000 then 0 else if a < 0x84000000 then 1 else if a < 0xC6000000 then 2
  else if a < 0x108000000 then 3 else a / 2048 % 4

/-- A channel is in service. -/
def channelUp (s : State) (ch : Nat) : Bool := s.mem.inService.testBit ch

/-- Every tile of a plane's frame has been written (08 R190). -/
def planeClosed (p : Plane) : Bool := decide (p.frame.isSome ∧ p.written.length = 262144)

/-- The wrap-aware order of frame numbers: `a` is `b` or after it (00 R5). -/
def notBefore (a b : Nat) : Bool := decide (a % 2 ^ 32 = b % 2 ^ 32) || after 32 a b

/-- A frame lies in a range of frame numbers. -/
def inRange (f lo hi : Nat) : Bool := notBefore f lo && notBefore hi f

/-- A frame number lies in a frozen range (08 R189). -/
def frameFrozen (s : State) (f : Nat) : Bool := s.dlv.frozen.any (fun r => inRange f r.1 r.2)

/-- A plane is frozen. -/
def planeFrozen (s : State) (p : Plane) : Bool :=
  match p.frame with
  | some f => frameFrozen s f
  | none => false

/-- Host-writable addresses (16 R368). -/
def hostWritable (s : State) (a : Nat) : Bool :=
  if usable s ≤ a then false
  else if hostAreaBase s ≤ a then true
  else
    let k := if planeBase ≤ a then (a - planeBase) / 2 ^ 29
      else if tagBase ≤ a then (a - tagBase) / 2 ^ 23
      else if headerBase ≤ a then (a - headerBase) / 64 else s.dlv.depth
    decide (k < s.dlv.depth) && planeFrozen s (plane s k) && planeClosed (plane s k)

/-- Addresses whose content is laid out by the device alone: delivery buffer, journal and standby regions. -/
def deviceLayout (a : Nat) : Bool := decide (a < headerBase)

/-! #### The codes (16 R369, R371) -/

/-- What a decoder makes of a word. -/
inductive Decoded where
  | clean
  | corrected (bit : Nat)
  | bad
  deriving DecidableEq, Repr

/-- Syndrome to verdict for a code of `data` data bits and `check` check bits with the given data columns. -/
def decodeWith (col : Nat → Nat) (data check syn : Nat) : Decoded :=
  if syn = 0 then .clean
  else
    match (List.range check).find? (fun i => decide (2 ^ i = syn)) with
    | some i => .corrected (data + i)
    | none =>
      match (List.range data).find? (fun i => decide (col i = syn)) with
      | some i => .corrected i
      | none => .bad

/-- The data columns a code of `check` check bits may use: odd weight, at least 3 (DESIGN CHOICE, log 25). Two errors then
give an even syndrome that no single error gives. -/
def oddColumns (check : Nat) : List Nat :=
  (List.range (2 ^ check)).filter (fun c =>
    let w := ((List.range check).filter (fun i => c.testBit i)).length
    decide (3 ≤ w ∧ w % 2 = 1))

/-- `n` different columns out of `free`, which ones being the free values. -/
def pickColumns (choose : Nat → Nat) : Nat → List Nat → List Nat
  | 0, _ => []
  | n + 1, free =>
    let c := nth free (choose n % free.length)
    c :: pickColumns choose n (free.erase c)

/-- Column of data bit `i` of a DRAM word. -/
def dramColumn (i : Nat) : Nat := nth (pickColumns Config.dramColumn 64 (oddColumns 8)) i
/-- Column of data bit `i` of an SRAM byte. -/
def sramColumn (i : Nat) : Nat := nth (pickColumns Config.sramColumn 8 (oddColumns 5)) i
/-- Column of data bit `i` of an engine word. -/
def engineColumn (i : Nat) : Nat := nth (pickColumns Config.engineColumn 32 (oddColumns 7)) i

/-- The DRAM decoder. Inverting check bits [1:0] leaves a word uncorrectable (16 R378). -/
def dramDecode (syn : Nat) : Decoded := decodeWith dramColumn 64 8 syn
/-- The SRAM byte decoder. -/
def sramDecode (syn : Nat) : Decoded := decodeWith sramColumn 8 5 syn
/-- The engine word decoder. -/
def engineDecode (syn : Nat) : Decoded := decodeWith engineColumn 32 7 syn

/-- Check bits a linear code gives for a value of `n` bits. -/
def checkBits (col : Nat → Nat) (n v : Nat) : Nat :=
  (List.range n).foldl (fun c i => if v.testBit i then c ^^^ col i else c) 0

/-- Data with the corrected position flipped; a corrected check bit leaves the data. -/
def correctBit (data n v i : Nat) : Nat := if i < data then (v ^^^ 2 ^ i) % 2 ^ n else v

/-- Data of a stored DRAM word. -/
def wordData (x : Nat) : Nat := x % 2 ^ 64
/-- Difference of its check bits from those of its data. -/
def wordSyn (x : Nat) : Nat := x / 2 ^ 64

/-! #### Correctable and uncorrectable errors (16 R372 to R374) -/

/-- Put a correction into the table; `covered` marks an entry a partial write has just covered (16 R372, R377). -/
def noteCe (w syn bit : Nat) (s : State) : State :=
  let a := 8 * w
  let s1 := { s with mem.ceTotal := wrap64 (s.mem.ceTotal + 1) }
  if s.mem.ce.any (fun e => e.addr == a) then
    { s1 with mem.ce := s.mem.ce.map (fun e =>
        if e.addr = a then
          { e with hits := min 255 (e.hits + 1), cleared := false, reappeared := e.reappeared || e.cleared }
        else e) }
  else if s.mem.ce.length < 32 then
    logEv 0x0B01 (a % 2 ^ 32) (a / 2 ^ 32) s.mem.ce.length
      (raiseIrq 11 { s1 with mem.ce := s.mem.ce ++ [⟨a, syn, bit, 1, false, false, s.nv.hours⟩] })
  else { s1 with mem.overflow := sat32 (s.mem.overflow + 1) }

/-- A write covers a word (16 R373). -/
def markWritten (w : Nat) (s : State) : State :=
  { s with mem.ce := s.mem.ce.map (fun e => if e.addr = 8 * w then { e with cleared := true } else e) }

/-- A poisoned word is read (16 R374, R380). -/
def noteUe (w : Nat) (s : State) : State :=
  let a := 8 * w
  let counted := !tabGet false s.mem.kept w
  raiseIrq 12 (logEv 0x0B02 (a % 2 ^ 32) (a / 2 ^ 32) 0
    { s with
      mem.ueTotal := sat32 (s.mem.ueTotal + 1)
      mem.lastUeAddr := a
      mem.lastUeHours := s.nv.hours
      mem.ueAt := if counted then
          (s.mem.ueAt.filter (fun e => decide (now s < e.1 + 1000000000))) ++ [(now s, channelOf a)]
        else s.mem.ueAt })

/-! #### Reads and writes of DRAM (16 R369, R370, R375 to R378) -/

/-- Read the word of index `w`: its value, whether it is poisoned, and the state after. -/
def dramReadWord (w : Nat) (s : State) : (Nat × Bool) × State :=
  let a := 8 * w
  if !channelUp s (channelOf a) then ((2 ^ 64 - 1, true), s)
  else if deviceLayout a then
    let (n, s1) := drawFree s
    ((leTake 8 ((List.range 8).map (fun i => Config.deviceByte n (a + i))), false), s1)
  else
    let x := tabGet 0 s.mem.dram w
    match dramDecode (wordSyn x) with
    | .clean => ((wordData x, false), s)
    | .corrected i => ((correctBit 64 64 (wordData x) i, false), noteCe w (wordSyn x) i s)
    | .bad => ((wordData x, true), noteUe w s)

/-- Read the words of the range from word `w`, in ascending order: bytes, each with its word's poison. -/
def dramReadWords : Nat → Nat → State → List (Byte × Bool) × State
  | 0, _, s => ([], s)
  | n + 1, w, s =>
    let ((v, bad), s1) := dramReadWord w s
    let (rest, s2) := dramReadWords n (w + 1) s1
    ((b8 v).map (fun b => (b, bad)) ++ rest, s2)

/-- Read bytes of DRAM: the bytes, whether any is poisoned, and the state after. -/
def dramRead (a n : Nat) (s : State) : Bytes × Bool × State :=
  if n = 0 then ([], false, s)
  else
    let (l, s1) := dramReadWords ((n + 7 + a % 8) / 8) (a / 8) s
    let l := (l.drop (a % 8)).take n
    (l.map (fun e => e.1), l.any (fun e => e.2), s1)

/-- Store the word of index `w`, clean. -/
def storeWord (w v : Nat) (s : State) : State :=
  { s with mem.dram := tabSet 0 s.mem.dram w (v % 2 ^ 64), mem.kept := tabSet false s.mem.kept w false }

/-- A partial write of a word: its bytes from `off` on are replaced (16 R377, R378). -/
def mergeWord (w off : Nat) (bs : Bytes) (s : State) : State :=
  let x := tabGet 0 s.mem.dram w
  let put (v : Nat) : Nat := leTake 8 (overwrite (b8 v) off bs)
  match dramDecode (wordSyn x) with
  | .clean => markWritten w (storeWord w (put (wordData x)) s)
  | .corrected i =>
    markWritten w (storeWord w (put (correctBit 64 64 (wordData x) i)) (noteCe w (wordSyn x) i s))
  | .bad =>
    let a := 8 * w
    let s1 := noteUe w s
    logEv 0x0B03 (a % 2 ^ 32) (a / 2 ^ 32) 0 (markWritten w
      { s1 with
        mem.dram := tabSet 0 s1.mem.dram w (put (wordData x) + 3 * 2 ^ 64)
        mem.kept := tabSet false s1.mem.kept w true })

/-- Write bytes from address `a`, word by word; the first argument bounds the words. A retired channel discards. -/
def dramWriteFrom : Nat → Nat → Bytes → State → State
  | 0, _, _, s => s
  | n + 1, a, bs, s =>
    if bs.isEmpty then s
    else
      let off := a % 8
      let part := bs.take (8 - off)
      let w := a / 8
      let s1 :=
        if !channelUp s (channelOf a) then s
        else if part.length = 8 then markWritten w (storeWord w (leTake 8 part) s)
        else mergeWord w off part s
      dramWriteFrom n (a + part.length) (bs.drop part.length) s1

/-- The 64-byte lines that a write merges by hardware read-modify-write (16 R370). -/
def rmwLines (a n : Nat) : Nat :=
  if n = 0 then 0
  else
    let head := decide (a % 8 ≠ 0 ∨ (n < 8 ∧ (a + n) % 8 ≠ 0 ∧ a / 8 = (a + n) / 8))
    let tail := decide ((a + n) % 8 ≠ 0)
    if head && tail then (if a / 64 = (a + n - 1) / 64 then 1 else 2) else b2n (head || tail)

/-- Write bytes to DRAM. -/
def dramWrite (a : Nat) (bs : Bytes) (s : State) : State :=
  dramWriteFrom (bs.length + 1) a bs
    { s with mem.rmw := sat32 (s.mem.rmw + rmwLines a bs.length) }

/-! #### Payload SRAM and test locations (16 R371, R381) -/

/-- A byte of payload SRAM as stored, with its check bits; undefined since the die B power-up until it is written (21
Table REGS-1, log 50). -/
def payloadAt (s : State) (i : Nat) : Nat :=
  match tabGet none s.mem.payload i with
  | some x => x
  | none => Config.payloadByte s.mem.payloadGen i % 2 ^ 13

/-- Read one byte of payload SRAM: its value, whether it is uncorrectable, and the state after. -/
def sramReadByte (i : Nat) (s : State) : (Byte × Bool) × State :=
  let x := payloadAt s i
  match sramDecode (x / 256) with
  | .clean => ((BitVec.ofNat 8 x, false), s)
  | .corrected b =>
    ((BitVec.ofNat 8 (correctBit 8 8 (x % 256) b), false), { s with mem.sramCe := sat32 (s.mem.sramCe + 1) })
  | .bad => ((BitVec.ofNat 8 x, true), { s with mem.sramUe := sat32 (s.mem.sramUe + 1) })

/-- Read `n` bytes of payload SRAM from offset `i`. -/
def sramRead : Nat → Nat → State → Bytes × Bool × State
  | 0, _, s => ([], false, s)
  | n + 1, i, s =>
    let ((b, bad), s1) := sramReadByte i s
    let (bs, bad2, s2) := sramRead n (i + 1) s1
    (b :: bs, bad || bad2, s2)

/-- Write bytes of payload SRAM; bytes past its end are dropped. -/
def sramWrite (i : Nat) (bs : Bytes) (s : State) : State :=
  { s with mem.payload := (bs.zipIdx).foldl (fun m e =>
      if i + e.2 < 0x40000 then tabSet none m (i + e.2) (some e.1.toNat) else m) s.mem.payload }

/-! #### Service and capacity -/

/-- A pair of channels still has one in service; the delivery pair is 0 and 1, the journal pair 2 and 3. -/
def pairUp (s : State) (first : Nat) : Bool := channelUp s first || channelUp s (first + 1)

/-- DRAM is usable (16 R365). -/
def dramUsable (s : State) : Bool := decide (s.mem.inService ≠ 0)

/-- GiB on a channel. -/
def densityOf (t : DramTraining) (ch : Nat) : Nat := nth t.density ch

/-- Channels that trained with the density of channel 0 (16 R365). -/
def matchedChannels (t : DramTraining) : Nat :=
  bitmap ((List.range 4).map (fun ch => t.channels.toNat.testBit ch && decide (densityOf t ch = densityOf t 0)))

/-- What training at power-up or RESET_N leaves: an unusable DRAM retires every channel (16 R365, R380). -/
def trainDram (t : DramTraining) (s : State) : State :=
  let gib := if t.channels.toNat.testBit 0 then tableGib (4 * densityOf t 0) else 0
  let up := if gib = 0 then 0 else matchedChannels t
  { s with
    mem.gib := gib
    mem.rate := t.rate
    mem.inService := up
    mem.retired := 15 - up
    mem.failed := 0
    mem.retrainFails := []
    mem.ueAt := []
    dlv.depth := depthOf gib }

end Sys2Proof.Machine
end

