-- ==== Sys2Proof/Machine/Mailbox.lean ====
section
/-! DEFINITION. Mailboxes and the journal (11 R235 to R246, 12 R266 to R271): posting, the acceptance checks, acceptance,
running a command once in acceptance order, and completing it. -/

namespace Sys2Proof.Machine

open Sys2Proof

/-! #### Headers and entries -/

/-- OPCODE of a header. -/
def hOp (h : Bytes) : Nat := u16 h 0
/-- FLAGS of a header. -/
def hFlags (h : Bytes) : Nat := u16 h 2
/-- TARGET_NODE of a header. -/
def hTarget (h : Bytes) : Nat := u16 h 4
/-- VECTOR of a header. -/
def hVector (h : Bytes) : Nat := u8 h 6
/-- HOST_SEQ of a header. -/
def hSeq (h : Bytes) : Nat := u64 h 8
/-- RESULT_MAX of a header. -/
def hMax (h : Bytes) : Nat := u32 h 40

/-- The mailbox of an origin, here or at the originating member. -/
def originBox (o : Origin) : Nat := match o with | .mailbox m => m | .remote _ m _ => m

/-- The member a command came from, or this device. -/
def originPair (s : State) (o : Origin) : Nat × Nat :=
  match o with
  | .mailbox m => (ownNode s, m)
  | .remote n m _ => (n, m)

/-- Change a journal entry. -/
def modEntry (jseq : Nat) (f : JEntry → JEntry) (s : State) : State :=
  { s with mbx.journal := s.mbx.journal.map (fun e => if e.jseq = jseq then f e else e) }

/-- A journal entry by its JSEQ. -/
def entryOf (s : State) (jseq : Nat) : Option JEntry := s.mbx.journal.find? (fun e => e.jseq == jseq)

/-- Sornor takes commands: it is ready, main power is up and die B has no fatal fault. -/
def sornor (s : State) : Bool := decide (s.power.phase = .ready) && s.power.main && !s.power.fatal

/-- The entry is the last accepted command of its mailbox, whose result a repost obtains (11 R240, R250). -/
def isLast (s : State) (e : JEntry) : Bool :=
  match e.origin with
  | .mailbox m => e.accepted && decide (hSeq e.header = (box s m).lastSeq ∧ hOp e.header ≠ 0x0101)
  | .remote .. => false

/-- Free the entries that R250 no longer holds. -/
def sweep (s : State) : State :=
  let keep := s.mbx.journal.filter (fun e => !e.done || decide (e.stage ≠ .none) || isLast s e)
  let live (j : Nat) : Bool := keep.any (fun e => e.jseq == j)
  { s with
    mbx.journal := keep
    mbx.heldA := s.mbx.heldA.filter live
    mbx.held0 := s.mbx.held0.filter live
    mbx.held1 := s.mbx.held1.filter live }

/-! #### Messages and misuse -/

/-- Log a host misuse (11 R245). -/
def misuse (mb case : Nat) (s : State) : State := logEv 0x0D04 mb case 0 s

/-- The message of a mailbox's transition (11 R243): `bitNo` 0 for ACCEPTED, 1 for DONE. -/
def mbxMessage (mb bitNo : Nat) (s : State) : State :=
  let h := (box s mb).latched
  if bit (hFlags h) bitNo && decide (hVector h ≠ 0xFF) then msixSend (hVector h) s else s

/-! #### Results (11 R240 to R242) -/

/-- What a command answers. -/
structure Reply where
  /-- STATUS -/
  status : Nat := 0
  /-- DETAIL -/
  detail : Nat := 0
  /-- result -/
  result : Bytes := []
  /-- ORIG_STATUS, where another member has answered with a duplicate -/
  orig : Nat := 0
  deriving DecidableEq, Repr

/-- OK without a result. -/
def ok : Reply := {}
/-- OK with a result. -/
def okWith (r : Bytes) : Reply := { result := r }
/-- A status without a result. -/
def failWith (st : Nat) : Reply := { status := st }
/-- BAD_LENGTH (11 R474). -/
def badLength : Reply := failWith 0x11
/-- BAD_FIELD at a payload offset (11 R474). -/
def badField (off : Nat) : Reply := { status := 0x12, detail := 0x20000000 + off }
/-- LOCKED. -/
def locked : Reply := failWith 0x14
/-- BUSY_EPOCH. -/
def busyEpoch : Reply := failWith 0x15
/-- CLAMPED with a result. -/
def clampedWith (r : Bytes) : Reply := { status := 0x16, result := r }
/-- NOT_ARMED. -/
def notArmed : Reply := failWith 0x20
/-- NO_RESOURCE. -/
def noResource : Reply := failWith 0x30
/-- FAULT. -/
def faulted : Reply := failWith 0x40

/-- The result of the mailbox's latched header goes to host memory. -/
def resultToHost (s : State) (mb : Nat) (r : Bytes) : Bool := bit (hFlags (box s mb).latched) 3 && !r.isEmpty

/-- Write a result at RESULT_ADDR (11 R241). -/
def writeResult (mb : Nat) (r : Bytes) (s : State) : State :=
  let a := u64 (box s mb).latched 32
  if bit (hFlags (box s mb).latched) 3 then hostWrite a r s else sramWrite (0x8000 * mb + a) r s

/-- Enter DONE with a command's outcome; a lost result leaves RESULT_LEN 0 and counts (11 R241 to R243). -/
def completeBox (mb : Nat) (r : Reply) (lost : Bool) (s : State) : State :=
  let s1 := if lost then s else writeResult mb r.result s
  let s2 := modBox mb (fun b => { b with
    state := .done
    status := r.status
    origStatus := r.orig
    resultLen := if lost then 0 else r.result.length
    detail := r.detail
    cflags := b.cflags ||| (if lost then 2 else 0)
    waiting := none
    writeFails := false }) s1
  let s3 := if lost then misuse mb 9 { s2 with mbx.resultLost := sat32 (s2.mbx.resultLost + 1) } else s2
  mbxMessage mb 1 s3

/-! #### Remote completion (13 R314) -/

/-- Send an MGMT message in fragments: node, mailbox, last-fragment mark, HOST_SEQ, then at most 2,048 bytes of the
body. The layout inside the fragment is the model's (DESIGN CHOICE, log 31). -/
def sendFragments : Nat → Nat → Nat → Nat → Nat → Nat → Bytes → State → State
  | 0, _, _, _, _, _, _, s => s
  | n + 1, typ, dst, node, mb, seq, body, s =>
    let part := body.take 2048
    let rest := body.drop 2048
    let s1 := e2eSend 4 typ dst (b2 node ++ b1 mb ++ b1 (b2n rest.isEmpty) ++ b8 seq ++ part) s
    if rest.isEmpty then s1 else sendFragments n typ dst node mb seq rest s1

/-- Send a whole MGMT message. -/
def sendMgmt (typ dst node mb seq : Nat) (body : Bytes) (s : State) : State :=
  sendFragments (body.length / 2048 + 1) typ dst node mb seq body s

/-- A command of another member is done: the result is kept for its pair and sent to the originator. When the originator
has left the roster, or has waited its 1 s, which the target counts from the command's arrival (DEDUCED, log 116), the
execution is logged (13 R314). -/
def answerRemote (arrived node mb seq : Nat) (r : Reply) (s : State) : State :=
  let s1 := { s with ring.pairs := s.ring.pairs.map (fun p =>
    if p.node = node ∧ p.box = mb then { p with status := r.status, detail := r.detail, result := r.result } else p) }
  let s2 := if inRoster s node && decide (now s < arrived + 1000000000) then s1 else logEv 0x090A node mb seq s1
  if inRoster s node then sendMgmt 2 node node mb seq (b2 r.status ++ b2 0 ++ b4 r.detail ++ r.result) s2 else s2

/-- Complete a command: its outcome is stored in the journal, then its mailbox or its originator learns it (11 R241, 12
R266). A result for host memory waits while bus mastering is off (15 R351). -/
def finish (jseq : Nat) (r : Reply) (s : State) : State :=
  match entryOf s jseq with
  | none => s
  | some e =>
    if e.done then s
    else
      let s1 := modEntry jseq (fun e => { e with
        started := true, status := r.status, orig := r.orig, detail := r.detail, result := r.result }) s
      match e.origin with
      | .remote n m q => sweep (answerRemote e.acceptedAt n m q r (modEntry jseq (fun e => { e with done := true }) s1))
      | .mailbox m =>
        if resultToHost s1 m r.result && !(box s1 m).writeFails && !canMaster s1 then
          modBox m (fun b => { b with waiting := some (now s1) }) s1
        else
          let lost := resultToHost s1 m r.result && (box s1 m).writeFails
          sweep (completeBox m r lost (modEntry jseq (fun e => { e with done := true }) s1))

/-- The command of a mailbox that is accepted and not done. -/
def openEntry (s : State) (mb : Nat) : Option JEntry :=
  s.mbx.journal.find? (fun e => decide (e.origin = .mailbox mb) && e.accepted && !e.done)

/-- A waiting result is written, or lost (11 R242, 15 R351). -/
def releaseResult (lost : Bool) (mb : Nat) (s : State) : State :=
  match openEntry s mb, (box s mb).waiting with
  | some e, some _ =>
    sweep (completeBox mb ⟨e.status, e.detail, e.result, e.orig⟩ lost
      (modEntry e.jseq (fun e => { e with done := true }) s))
  | _, _ => s

/-! #### Posting (11 R236, Table MBOX-6) -/

/-- A doorbell write (11 R236, R245, 19 R435). -/
def doorbell (mb value : Nat) (s : State) : State :=
  let b := box s mb
  let seq := u64 b.hdr 8
  let busy := decide (b.state = .posted ∨ b.state = .accepted)
  if busy || decide (value ≠ seq % 2 ^ 32) then
    misuse mb (if busy then 2 else 1) { s with mbx.ignored := sat32 (s.mbx.ignored + 1) }
  else
    modBox mb (fun b => { b with
      latched := b.hdr
      state := .posted
      cflags := 0
      status := 0
      origStatus := 0
      resultLen := 0
      detail := 0
      opcode := hOp b.hdr
      hostSeq := seq
      hostTag := u64 b.hdr 48
      waiting := none
      writeFails := false }) s

/-- MBX_DOORBELL (11 R236). -/
def execMbxDoorbell (mb : Fin 8) (value : BitVec 32) (s : State) : Host.Outcome State Fault Refusal :=
  .next (if bar0Served s then doorbell mb.val value.toNat s else s)

/-! #### Acceptance checks (11 Table MBOX-5) -/

/-- A refusal: status, DETAIL and the misuse case, 0 for none. -/
structure Refuse where
  /-- STATUS -/
  status : Nat
  /-- header offset for DETAIL KIND 1, none for DETAIL 0 -/
  off : Option Nat
  /-- case of Table MBOX-8, 0 for none -/
  case : Nat := 0
  deriving DecidableEq, Repr

/-- DETAIL of a refusal. -/
def refuseDetail (r : Refuse) : Nat :=
  match r.off with
  | some o => 0x10000000 + o
  | none => 0

/-- Enter DONE with a command refused (11 R237). -/
def refuse (mb : Nat) (r : Refuse) (s : State) : State :=
  let s1 := modBox mb (fun b => { b with
    state := .done
    status := r.status
    cflags := b.cflags ||| 1
    detail := refuseDetail r
    epoch := epochNo s
    frame := frameNo s
    acceptTb := 0
    waiting := none }) { s with mbx.refused := sat32 (s.mbx.refused + 1) }
  mbxMessage mb 1 (if r.case = 0 then s1 else misuse mb r.case s1)

/-- Check 1: reserved fields and bits; VECTOR is 0 to 63 or 0xFF. -/
def check1 (h : Bytes) : Option Refuse :=
  if 32 ≤ hFlags h then some ⟨0x12, some 2, 0⟩
  else if 64 ≤ hVector h ∧ hVector h ≠ 0xFF then some ⟨0x12, some 6, 0⟩
  else if !allZero h 7 1 then some ⟨0x12, some 7, 0⟩
  else if !allZero h 44 4 then some ⟨0x12, some 44, 0⟩
  else if !allZero h 56 8 then some ⟨0x12, some 56, 0⟩
  else none

/-- Check 4 and check 5. -/
def check45 (b : Mailbox) (h : Bytes) : Option Refuse :=
  if hOp h = 0x0101 then none
  else if hSeq h < b.lastSeq ∨ hSeq h = 0 then some ⟨0x13, some 8, 0⟩
  else if hSeq h = b.lastSeq ∧ hOp h ≠ b.lastOp then some ⟨0x13, some 8, 6⟩
  else none

/-- An area is misplaced: a multiple of 4, 0 when empty, inside the partition when in SRAM. -/
def badArea (inHost : Bool) (a n : Nat) : Bool :=
  decide (a % 4 ≠ 0 ∨ (n = 0 ∧ a ≠ 0)) || (!inHost && decide (0x8000 < a + n))

/-- The payload area of check 6: case 7 of Table MBOX-8. -/
def checkPayloadArea (h : Bytes) : Option Refuse :=
  if badArea (bit (hFlags h) 2) (u64 h 16) (u32 h 24) then some ⟨0x12, some 16, 7⟩ else none

/-- The result area of check 6. -/
def checkResultArea (h : Bytes) : Option Refuse :=
  if badArea (bit (hFlags h) 3) (u64 h 32) (hMax h) then some ⟨0x12, some 32, 0⟩ else none

/-- Check 6. -/
def check6 (h : Bytes) : Option Refuse := (checkPayloadArea h).orElse fun _ => checkResultArea h

/-- The header is a repost of the last accepted command (11 R240). -/
def isRepost (b : Mailbox) (h : Bytes) : Bool :=
  decide (hOp h ≠ 0x0101 ∧ hSeq h = b.lastSeq ∧ hOp h = b.lastOp)

/-- Check 9: the target is this device, or an ACTIVE ring member for a command outside group 0x01xx. The roster names this
device too (13 R304). -/
def check9 (s : State) (h : Bytes) : Option Refuse :=
  if hTarget h = 0xFFFF then none
  else if hOp h / 256 = 1 then some ⟨0x12, some 4, 0⟩
  else if ringMember s && inRoster s (hTarget h) then none
  else some ⟨0x30, some 4, 0⟩

/-- Checks 1 to 5. -/
def earlyChecks (s : State) (b : Mailbox) (h : Bytes) : Option Refuse :=
  (check1 h).orElse fun _ =>
  (if (catRow (hOp h)).isNone then some ⟨0x10, some 0, 0⟩ else none).orElse fun _ =>
  (if !s.mbx.session && decide (hOp h ≠ 0x0101) then some ⟨0x20, none, 5⟩ else none).orElse fun _ =>
  (check45 b h)

/-- The fixed length checks 7 and 8. -/
def check78 (h : Bytes) : Option Refuse :=
  match catRow (hOp h) with
  | none => none
  | some r =>
    if r.payload < u32 h 24 then some ⟨0x11, some 24, 0⟩
    else if !dependent (hOp h) && decide (hMax h < r.result) then some ⟨0x11, some 40, 0⟩
    else none

/-- Room the arena must have for a command (12 R269). -/
def arenaRoom (op : Nat) (p : Bytes) : Nat := p.length + largestResult op p

/-- The journal has a free entry (11 R250, 12 R269). -/
def journalFree (s : State) (room : Nat) : Bool :=
  decide (s.mbx.journal.length < 4096 ∧ listSum (s.mbx.journal.map (fun e => e.room)) + room ≤ 1792 * 1024)

/-- The checks after the payload is read: 11, the rest of 8, and 12. -/
def lateChecks (s : State) (h p : Bytes) : Option Refuse :=
  if bit (hFlags h) 4 && decide (crc32 p ≠ u32 h 28) then some ⟨0x12, some 28, 4⟩
  else if dependent (hOp h) && decide (hMax h < largestResult (hOp h) p) then some ⟨0x11, some 40, 0⟩
  else if !journalFree s (arenaRoom (hOp h) p) then some ⟨0x30, none, 0⟩
  else none

/-- Read the payload of a posted command: the bytes, or none where the read fails (11 check 10). -/
def readPayload (mb : Nat) (h : Bytes) (host : Option Bytes) (s : State) : Option Bytes × State :=
  let n := u32 h 24
  let a := u64 h 16
  if n = 0 then (some [], s)
  else if bit (hFlags h) 2 then
    if !canMaster s then (none, s)
    else
      match host with
      | some p => (some (slice p 0 n), emit (.hostRead a n) s)
      | none => (none, emit (.hostRead a n) s)
  else
    let (p, bad, s1) := sramRead n (0x8000 * mb + a) s
    (if bad then none else some p, s1)

/-- A repost answered from the stored result (11 R240). -/
def answerRepost (mb : Nat) (h : Bytes) (s : State) : State :=
  match s.mbx.journal.find? (fun e => decide (e.origin = .mailbox mb) && e.done && isLast s e) with
  | none => s
  | some e =>
    if hMax h < e.result.length then refuse mb ⟨0x11, some 40, 0⟩ s
    else
      let count (s : State) : State :=
        { (modBox mb (fun b => { b with epoch := epochNo s, frame := frameNo s, acceptTb := 0 }) s) with
          mbx.duplicates := sat32 (s.mbx.duplicates + 1) }
      let r : Reply := ⟨2, 0, e.result, e.status⟩
      if resultToHost s mb e.result && !canMaster s && !(box s mb).writeFails then
        match (box s mb).waiting with
        | none => modBox mb (fun b => { b with waiting := some (now s) }) s
        | some t => if t + 100000000 ≤ now s then completeBox mb r true (count s) else s
      else completeBox mb r (resultToHost s mb e.result && (box s mb).writeFails) (count s)

/-- Put a checked command into the journal; its ACCEPTED mark is still to be written (12 R266, R267). -/
def journalEntry (mb : Nat) (h p : Bytes) (s : State) : State :=
  let e : JEntry :=
    { jseq := s.mbx.nextJseq, origin := .mailbox mb, header := h, payload := p, room := arenaRoom (hOp h) p }
  { s with mbx.journal := s.mbx.journal ++ [e], mbx.nextJseq := s.mbx.nextJseq + 1 }

/-- Checks 6 to 9. -/
def middleChecks (s : State) (h : Bytes) : Option Refuse :=
  (check6 h).orElse fun _ =>
  (check78 h).orElse fun _ =>
  (check9 s h)

/-- COMMAND_CHECK of a posted command: check 5 answers a repost (11 R240), whose stored result needs a result area that
check 6 allows (DEDUCED, log 112). -/
def commandCheck (mb : Nat) (host : Option Bytes) (s : State) : State :=
  let b := box s mb
  let h := b.latched
  match earlyChecks s b h with
  | some r => refuse mb r s
  | none =>
    if isRepost b h then
      match checkResultArea h with
      | some r => refuse mb r s
      | none => answerRepost mb h s
    else
      match middleChecks s h with
      | some r => refuse mb r s
      | none =>
        let (p, s1) := readPayload mb h host s
        match p with
        | none => refuse mb ⟨0x40, some 16, if bit (hFlags h) 2 then 8 else 0⟩ s1
        | some p =>
          match lateChecks s1 h p with
          | some r => refuse mb r s1
          | none => journalEntry mb h p s1

/-- A mailbox's command stands in the journal without its ACCEPTED mark. -/
def unaccepted (s : State) (mb : Nat) : Bool :=
  s.mbx.journal.any (fun e => decide (e.origin = .mailbox mb) && !e.accepted)

/-- COMMAND_CHECK (11 R237): a POSTED command is taken up, unless acceptance is suspended (12 R268, R280, R283). -/
def execCommandCheck (mb : Fin 8) (hostPayload : Option (List Byte)) (s : State) :
    Host.Outcome State Fault Refusal :=
  .next <|
    if decide ((box s mb.val).state = .posted) && sornor s && !s.power.warning && decide (s.mem.failed = 0) &&
        !unaccepted s mb.val then
      commandCheck mb.val hostPayload s
    else s

/-! #### Acceptance (11 R238, R239, 12 R266 to R268) -/

/-- Every place in service holds the entry. -/
def placeEntry (jseq : Nat) (s : State) : State :=
  { s with
    mbx.heldA := if s.mbx.mirrorA then s.mbx.heldA ++ [jseq] else s.mbx.heldA
    mbx.held0 := if s.mbx.copies.testBit 0 then s.mbx.held0 ++ [jseq] else s.mbx.held0
    mbx.held1 := if s.mbx.copies.testBit 1 then s.mbx.held1 ++ [jseq] else s.mbx.held1 }

/-- The next command to take effect: the oldest accepted entry that has not started (11 R239). -/
def nextEntry (s : State) : Option JEntry := s.mbx.journal.find? (fun e => e.accepted && !e.started && !e.done)

/-- A command of a mailbox here that another member is to execute (11 R246). -/
def forwarded (e : JEntry) : Bool :=
  match e.origin with
  | .mailbox _ => decide (hTarget e.header ≠ 0xFFFF)
  | .remote .. => false

/-- Forward a command to its target member (11 R246, 13 R314). -/
def forwardRemote (e : JEntry) (s : State) : State :=
  let t := hTarget e.header
  let mb := originBox e.origin
  sendMgmt 1 t (ownNode s) mb (hSeq e.header) (e.header ++ e.payload)
    { modEntry e.jseq (fun e => { e with started := true }) s with
      ring.remote := s.ring.remote ++ [⟨mb, t, hSeq e.header, now s, e.jseq⟩] }

/-- Forward the command that is next to take effect, if it is one for another member: in acceptance order, as every other
command (11 R239, R246). -/
def forwardNext (s : State) : State :=
  match nextEntry s with
  | some e => if forwarded e && sornor s then forwardRemote e s else s
  | none => s

/-- Write the ACCEPTED mark of an entry and let its mailbox enter ACCEPTED. -/
def acceptEntry (e : JEntry) (mb : Nat) (s : State) : State :=
  let hello := decide (hOp e.header = 0x0101)
  let s1 := placeEntry e.jseq (modEntry e.jseq (fun e => { e with accepted := true, acceptedAt := now s }) s)
  let s2 := modBox mb (fun b => { b with
    state := .accepted
    status := 1
    lastSeq := if hello then b.lastSeq else hSeq e.header
    lastOp := if hello then b.lastOp else hOp e.header
    cflags := if hTarget e.header = 0xFFFF then b.cflags else b.cflags ||| 4
    epoch := epochNo s
    frame := frameNo s
    acceptTb := now s }) { s1 with mbx.acceptedTotal := wrap64 (s1.mbx.acceptedTotal + 1) }
  mbxMessage mb 0 (sweep s2)

/-- COMMAND_ACCEPTED (11 R238): the oldest checked command is marked accepted; one for another member is forwarded at once
if every command before it has taken effect. -/
def execCommandAccepted (mb : Fin 8) (s : State) : Host.Outcome State Fault Refusal :=
  .next <|
    match s.mbx.journal.find? (fun e => !e.accepted) with
    | none => s
    | some e => if e.origin = .mailbox mb.val && sornor s then forwardNext (acceptEntry e mb.val s) else s

/-- RESULT_WRITE_FAIL (11 R242, 15 R351): the write of a result to host memory fails, or bus mastering stayed off for
100 ms. -/
def execResultWriteFail (mb : Fin 8) (s : State) : Host.Outcome State Fault Refusal :=
  .next <|
    let b := box s mb.val
    if (b.state = .accepted ∨ b.state = .posted) ∧ bit (hFlags b.latched) 3 = true then
      match b.waiting with
      | none => modBox mb.val (fun b => { b with writeFails := true }) s
      | some t =>
        if b.state = .posted then modBox mb.val (fun b => { b with writeFails := true }) s
        else if canMaster s || decide (t + 100000000 ≤ now s) then releaseResult true mb.val s
        else s
    else s

/-- JOURNAL_MIRROR_REBUILT (12 R268): a place returns to service once it holds every live entry. -/
def execJournalMirrorRebuilt (place : JournalPlace) (s : State) : Host.Outcome State Fault Refusal :=
  .next <|
    let all := (s.mbx.journal.filter (fun e => e.accepted)).map (fun e => e.jseq)
    match place with
    | .dieA =>
      if s.power.dieA && s.lanes.mortarUp && decide (2 ≤ ((List.range 4).filter (fun i => s.lanes.maskBA.testBit i)).length)
      then { s with mbx.mirrorA := true, mbx.heldA := all }
      else s
    | .dram c =>
      if channelUp s (2 + c.val) then
        if c.val = 0 then { s with mbx.copies := s.mbx.copies ||| 1, mbx.held0 := all }
        else { s with mbx.copies := s.mbx.copies ||| 2, mbx.held1 := all }
      else s

/-! #### Staged settings (11 R247, R250) -/

/-- The entries of a COMMIT's settings are no longer held by the staging set (11 R250). -/
def unstage (js : List Nat) (s : State) : State := forEach js (modEntry · (fun e => { e with stage := .none })) s

/-- The oldest COMMIT has applied or failed. -/
def dropCommit (c : PendingCommit) (s : State) : State :=
  sweep (unstage (c.settings.map (fun e => e.1)) { s with mbx.commits := s.mbx.commits.tail })

/-! #### Running a command (11 R239, 12 R270, R277) -/

/-- What a command does, and its answer if it completes at once. -/
abbrev Handler := Origin → Nat → Bytes → State → State × Option Reply

/-- Record the JSEQ in the block that applies the command (12 R270). -/
def noteApplied (op jseq : Nat) (s : State) : State :=
  match blockOf op with
  | some b => { s with mbx.applied := tabSet 0 s.mbx.applied b jseq }
  | none => s

/-- The block that applies the command has not yet applied it or a later one (12 R270). -/
def unapplied (op jseq : Nat) (s : State) : Bool :=
  match blockOf op with
  | some b => decide (tabGet 0 s.mbx.applied b < jseq)
  | none => true

/-- Die A is not restored within 100 ms of its reset (12 R277). -/
def dieAOverdue (s : State) : Bool :=
  !s.power.dieA && s.power.dieAStarted && decide (s.power.dieAResetAt + 100000000 ≤ now s)

/-- Run the next command if it is this one. A command for die A waits while die A is down and completes with FAULT after
100 ms (12 R277). A step that its block has already applied is dropped, and the command completes with what is stored
(12 R270, R271). -/
def runCommand (op : Nat) (mb : Fin 8) (h : Handler) (s : State) : Host.Outcome State Fault Refusal :=
  .next <|
    match nextEntry s with
    | none => s
    | some e =>
      if hOp e.header = op && originBox e.origin = mb.val && sornor s && !forwarded e then
        if needsDieA op e.payload && !s.power.dieA then
          if dieAOverdue s then finish e.jseq faulted s else s
        else if !unapplied op e.jseq s then finish e.jseq ⟨e.status, e.detail, e.result, e.orig⟩ s
        else
          let s1 := noteApplied op e.jseq (modEntry e.jseq (fun e => { e with started := true }) s)
          let (s2, r) := h e.origin e.jseq e.payload s1
          match r with
          | some r => finish e.jseq r s2
          | none => s2
      else s

/-! #### Payload checks (11 R474) -/

/-- The first field check that fails: pairs of "holds" and payload offset, in ascending order. -/
def firstBad : List (Bool × Nat) → Option Reply
  | [] => none
  | (good, off) :: l => if good then firstBad l else some (badField off)

/-- A fixed-length payload: long enough, its fields, then exactly long enough. -/
def fixedPayload (p : Bytes) (n : Nat) (fields : List (Bool × Nat)) : Option Reply :=
  if p.length < n then some badLength
  else
    match firstBad fields with
    | some r => some r
    | none => if p.length = n then none else some badLength

/-- A payload of a fixed part and a variable part whose length and fields the fixed part implies. -/
def varPayload (p : Bytes) (n : Nat) (fixed : List (Bool × Nat)) (len : Nat) (fields : List (Bool × Nat)) :
    Option Reply :=
  if p.length < n then some badLength
  else
    match firstBad fixed with
    | some r => some r
    | none => if p.length = len then firstBad fields else some badLength

/-- A reserved run of a payload is 0. -/
def rsv (p : Bytes) (off n : Nat) : Bool × Nat := (allZero p off n, off)

/-- A value lies in a range. -/
def within (lo v hi : Nat) : Bool := decide (lo ≤ v ∧ v ≤ hi)
/-- A signed value lies in a range. -/
def withinI (lo v hi : Int) : Bool := decide (lo ≤ v ∧ v ≤ hi)

/-- A handler that answers at once, after its payload checks. -/
def checked (bad : Option Reply) (s : State) (go : Unit → State × Reply) : State × Option Reply :=
  match bad with
  | some r => (s, some r)
  | none =>
    let (s1, r) := go ()
    (s1, some r)

end Sys2Proof.Machine
end

