-- ==== Sys2Proof/Machine/Tiles.lean ====
section
/-! DEFINITION. Tiles in die A: opening, due shots, launches, listening windows, stamps and completion (01 R21, 04, 05,
06 R129 to R133). -/

namespace Sys2Proof.Machine

open Sys2Proof

/-- The tile of a frame, course and column. -/
def isTile (f c j : Nat) (t : Tile) : Bool := t.frame == f && t.course == c && t.column == j

/-- Find a tile in die A. -/
def findTile (f c j : Nat) (s : State) : Option Tile := s.eng.tiles.find? (isTile f c j)

/-- Change a tile in die A. -/
def modTile (f c j : Nat) (g : Tile → Tile) (s : State) : State :=
  { s with eng.tiles := s.eng.tiles.map (fun t => if isTile f c j t then g t else t) }

/-! #### Completion and readiness (01 R21, 06 R131) -/

/-- No shot of the tile can fire any more, and R21 or R44 says it is complete. -/
def tileDone (t : Tile) : Bool :=
  decide (t.inFlight = 0 ∧ t.openWindows = 0) &&
  (t.cut || (decide (t.nOpen ≤ t.next) && (t.boundary || decide (0 < t.fired))))

/-- Tiles of an engine that wait for P1. -/
def waitingP1 (e : Nat) (s : State) : Nat :=
  (s.eng.tiles.filter (fun t => t.course / 4 == e && t.stage == .ready)).length

/-- A complete tile whose stamps are all delivered becomes ready (06 R131). -/
def readyTile (f c j : Nat) (s : State) : State :=
  match findTile f c j s with
  | none => s
  | some t =>
    if t.stage = .complete ∧ t.undelivered = 0 then
      let s1 := modTile f c j (fun t => { t with stage := .ready, readyAt := now s }) s
      let e := c / 4
      modEngine e (fun x => { x with queueMax := max x.queueMax (waitingP1 e s1) }) s1
    else s

/-- Complete the tile if R21 or R44 says so now, judging ANGLE_SUSPECT and PARTIAL at this instant (02 R40 to R44). -/
def settleTile (f c j : Nat) (s : State) : State :=
  match findTile f c j s with
  | none => s
  | some t =>
    if t.stage = .opened ∧ tileDone t = true then
      let sus := t.cut || predSuspect s || frameSuspect s f
      let s1 := modTile f c j
        (fun t => { t with
          stage := .complete
          completedAt := now s
          suspect := sus
          partialTile := t.partialTile || t.cut }) s
      let s2 := { s1 with angle.firstDone := some (max f (s1.angle.firstDone.getD 0)) }
      readyTile f c j (if sus then countSuspect f s2 else s2)
    else s

/-- The courses on which row 3 or 4 of Table SHOT-4 acted in the frame in progress. -/
def governedCourses (s : State) : List Nat := (List.range 128).filter (fun c => (course s c).governed)

/-- The frame in progress ends: RATE_GOVERNED is logged if rows 3 or 4 acted in it (04 R90). -/
def logGoverned (s : State) : State :=
  match governedCourses s with
  | [] => s
  | c :: l =>
    logEv 0x0204 (s.angle.frame % turn) c (l.length + 1)
      (forEach (c :: l) (fun c s => modCourse c (fun x => { x with governed := false }) s) s)

/-- A predictor entering STOPPED or ACQUIRE ends the frame in progress: its open tiles are cut; those of an earlier frame
run to their own completion (02 R30, R44). -/
def cutFrame (s : State) : State :=
  let ends (t : Tile) : Bool := t.stage == .opened && t.frame == s.angle.frame
  let live := s.eng.tiles.filter ends
  let s1 : State :=
    { (logGoverned s) with
      angle.inFrame := false
      angle.nextCol := 2049
      eng.tiles := s.eng.tiles.map (fun t => if ends t then { t with cut := true } else t) }
  forEach live (fun t x => settleTile t.frame t.course t.column x) s1

/-- The loop stopped or faulted: the predictor enters STOPPED (02 Table ANGL-5, R44), and a COMMIT that waits for a
boundary waits for it no more (11 R249). -/
def stopPredictor (s : State) : State :=
  if s.angle.pred = .stopped then s
  else
    let s1 := setPred .stopped s
    cutFrame { s1 with
      angle.upd := none, angle.slews := [], angle.c := 0
      mbx.commits := s1.mbx.commits.map (fun c => { c with free := true }) }

/-! #### Opening a tile (04 R97, 05 R110, R112, 06 R129, R130, R133) -/

/-- The fit of a column of width `w` for a program under its SLOT_COUNTS (04 R83); open while SLOT_COUNTS is 0. -/
def fitOf (p : ShotProgram) (w slots : Nat) : Nat :=
  if w ≤ p.offset then 0
  else if slots = 0 then min 32 (Config.fitUnset w)
  else min 32 ((w - p.offset) / slots)

/-- Width of column `j` in counts (02 R32). -/
def colWidth (s : State) (j : Nat) : Nat := colEntry s.set.columns (j + 1) - colEntry s.set.columns j

/-- The fit of column `j` for a program under the ω_ref in force, as COMMIT checks it (04 R81, R83). -/
def nFit (s : State) (p : ShotProgram) (j : Nat) : Nat := fitOf p (colWidth s j) (slotCountsOf s p)

/-- Budget of course `c` under allocation settings, without the allowance (04 Table SHOT-6). -/
def modeBudget (a : AllocSettings) (c : Nat) : Nat :=
  if a.mode = 0 then 2048 * a.nUniform else tabGet 16384 a.budget c

/-- The budget B of course `c` under an allowance (04 Table SHOT-6). -/
def budgetOf (a : AllocSettings) (c cap : Nat) : Nat := min (modeBudget a c) cap

/-- N_MIN_eff (04 R99). -/
def nMinEff (a : AllocSettings) (c cap : Nat) : Nat := min a.nMin (budgetOf a c cap / 2048)

/-- Clock factor of an engine (06 R131). -/
def clockFactor (s : State) (e : Nat) : Nat := if (engine s e).halved then 2 else 1

/-- P1 time for `n` stamps (06 Table HIST-1). -/
def p1Time (f n : Nat) : Nat := f * (ceilDiv n 4 + 80)
/-- P2 time for `n` stamps (06 Table HIST-1). -/
def p2Time (f n : Nat) : Nat := f * (ceilDiv n 4 + 48)

/-- Sides enabled by SIDES. -/
def sideCount (sides : Nat) : Nat := b2n (bit sides 0) + b2n (bit sides 1)

/-- Largest `n` from the first argument down whose worst-case processing fits the column period (06 R133). -/
def thinTo (f sides tcol : Nat) : Nat → Nat
  | 0 => 0
  | n + 1 =>
    let sm := 64 * (n + 1) * sides
    if 4 * p1Time f sm + p2Time f sm ≤ tcol then n + 1 else thinTo f sides tcol n

/-- T_col of a column (06 R133). -/
def colPeriod (s : State) (j : Nat) : Nat :=
  if omegaRef s = 0 then Config.periodUnset (colWidth s j) else turn * colWidth s j / omegaRef s

/-- Put a threshold setting in force on a channel, from column `j` of frame `f` on. -/
def putThresholds (f j : Nat) (t : Thresholds) (x : Channel) : Channel :=
  { x with latched := t, copy := t, setBefore := none, appliedFrame := f % turn, appliedColumn := j }

/-- Latch the thresholds of a channel at an opening crossing of frame `f`: the last setting received before this tick
applies (05 R110). -/
def latchThresholds (f ch j : Nat) (s : State) : State :=
  match (chan s ch).setAt with
  | some t =>
    if t < now s then modChan ch (fun x => { (putThresholds f j x.set x) with setAt := none }) s
    else
      match (chan s ch).setBefore with
      | some old => modChan ch (putThresholds f j old) s
      | none => s
  | none => s

/-- The gain of a tile at its opening: true for x1 (05 R112). -/
def openGain (s : State) (c j : Nat) : Bool :=
  match (recvOf s c).gainMode with
  | 0 => (tabGet {} s.shot.tpm (2048 * c + j)).lowGain
  | 1 => false
  | _ => true

/-- A tile of course `c`, column `j` opens in the frame of `v`, the state whose settings are those of its epoch. -/
def openTile (v : State) (j c : Nat) (s0 : State) : State :=
  let s := latchThresholds v.angle.frame (2 * c + 1) j (latchThresholds v.angle.frame (2 * c) j s0)
  let p := progOf v c
  let rc := recvOf v c
  let cap := (course v c).cap
  let low := openGain v c j
  let fit := fitOf p (colWidth v j) (course v c).slotCounts
  let n0 := (tabGet {} s.shot.tpm (2048 * c + j)).n
  let want := max (nMinEff v.set.alloc c cap) (min n0 v.set.alloc.nMax)
  let n1 := min fit want
  let n2 := thinTo (clockFactor s (c / 4)) (sideCount rc.sides) (colPeriod v j) n1
  let held := (s.eng.tiles.filter (fun t => t.course == c && t.buffer)).length
  let busy := decide (2 ≤ held)
  let thin := busy || decide (n1 < want) || decide (n2 < n1)
  let take : Bool := match s.eng.capture with
    | some k => decide (k.tile = 2048 * c + j) && !k.taken
    | none => false
  let t : Tile :=
    { frame := v.angle.frame, epoch := v.angle.epoch, course := c, column := j, prog := p, recv := rc,
      hist := histOf v c, rej := rejSet v c,
      walkA := tabGet [] v.set.walk (2 * c + 256 * b2n low),
      walkB := tabGet [] v.set.walk (2 * c + 1 + 256 * b2n low),
      target := turn * v.angle.frame + colEntry v.set.columns j + p.offset,
      slotCounts := (course v c).slotCounts, width := colWidth v j, alloc := v.set.alloc, cap := cap,
      nOpen := (if busy then 0 else n2), lowGain := low,
      thinned := thin, capped := decide (want = 0), buffer := !busy, captured := take }
  let s1 := { s with eng.tiles := s.eng.tiles ++ [t], eng.capture := s.eng.capture.map (fun k =>
      if take then { k with taken := true } else k) }
  modEngine (c / 4) (fun x => { x with
    thinned := if thin then sat32 (x.thinned + 1) else x.thinned
    bufferBusy := if busy then sat32 (x.bufferBusy + 1) else x.bufferBusy }) s1

/-- The closing boundary of a tile of frame `f` is crossed. -/
def closeTile (f j c : Nat) (s : State) : State :=
  settleTile f c j (modTile f c j (fun t => { t with boundary := true }) s)

/-- An ENABLE that waits for a column boundary takes effect on the course (04 R92). -/
def enableCourse (c : Nat) (s : State) : State :=
  if (course s c).enablePending then modCourse c (fun x => { x with disabled := false, enablePending := false }) s
  else s

/-- The crossing of column boundary `c` in the frame of `v` (02 R28, R29): waiting ENABLEs take effect, the tiles before
the boundary close in ascending course order, then those after it open. -/
def crossColumn (v : State) (c : Nat) (s0 : State) : State :=
  let s := eachCourse enableCourse s0
  let s1 := if 0 < c then eachCourse (closeTile v.angle.frame (c - 1)) s else s
  let s2 := if c < 2048 then eachCourse (openTile v c) s1 else s1
  { s2 with angle.nextCol := c + 1 }

/-- The column boundary lies at 2^32, where the frame boundary takes effect before it (02 R29). -/
def afterFrame (s : State) (c : Nat) : Bool := decide (turn ≤ colEntry s.set.columns c)

/-- The next column boundary of the frame in progress is crossed, as U stood at `u`, and has not taken effect. -/
def columnDue (s : State) (u : Nat) : Bool :=
  s.angle.inFrame && s.power.dieA && decide (s.angle.nextCol ≤ 2048) && !afterFrame s s.angle.nextCol &&
    decide (turn * s.angle.frame + colEntry s.set.columns s.angle.nextCol ≤ u)

/-- COLUMN_BOUNDARY (05 R110): the next column boundary of the frame in progress has been crossed. One that is crossed on
the tick of a frame boundary takes effect within FRAME_BOUNDARY, after the frame's own effects (02 R29). -/
def execColumnBoundary (c : Fin 2049) (s : State) : Host.Outcome State Fault Refusal :=
  .next <|
    if s.angle.nextCol = c.val && columnDue s (if frameDue s then uPrev s else uInt s) then crossColumn s c.val s
    else s

/-! #### Dither (07 R159, R160) -/

/-- One shift of the dither register (07 R159). -/
def ditherShift (x : Nat) : Nat := if x % 2 = 1 then (x / 2) ^^^ 0xB400 else x / 2

/-- `n` shifts. -/
def ditherShifts : Nat → Nat → Nat
  | 0, x => x
  | n + 1, x => ditherShifts n (ditherShift x)

/-- One step of the dither sequence (07 R159). -/
def ditherStep (x : Nat) : Nat := ditherShifts 16 x

/-- START(f): 16 f steps from 0x0001 (07 R160). -/
def ditherStart : Nat → Nat
  | 0 => 1
  | f + 1 => ditherShifts 256 (ditherStart f)

/-- The effective family of a course (07 R164). -/
def familyOf (s : State) (c : Nat) : Nat :=
  let f := (progOf s c).family.getD c
  if s.set.ringCodes then (f + 128 * s.eng.block) % 4096 else f

/-- The dither of a due shot (04 R84). -/
def ditherOf (dspan x : Nat) : Nat := x / 2 ^ (16 - dspan)

/-! #### Due shots (04 R90, Table SHOT-4) -/

/-- Launch instants of all ports in the 1,000 ns that end at `l` (04 Table SHOT-4 row 4); of the interval's two ends `l`
belongs to it and the instant 1,000 ns earlier does not (log 92). -/
def launchesIn (s : State) (l : Nat) : Nat :=
  listSum (s.shot.courses.map (fun e =>
    (e.2.launches.filter (fun x => decide (x ≤ l ∧ l < x + 128000))).length))

/-- The tile whose next shot is due now on a course. -/
def dueTile (c : Nat) (s : State) : Option Tile :=
  s.eng.tiles.find? (fun t => t.course == c && t.stage == .opened && !t.cut &&
    decide (t.next < t.nOpen ∧ t.target + t.next * t.slotCounts ≤ uInt s))

/-- Which row of Table SHOT-4 decides a due shot of course `c` with launch instant `l`. -/
def shotFate (c l : Nat) (s : State) : Nat :=
  let x := course s c
  if !s.shot.enabled || x.disabled || decide (s.angle.pred ≠ .locked) then 1
  else if !x.flights.isEmpty then 2
  else if x.launches.any (fun p => decide (p ≤ l ∧ l < p + 128000)) then 3
  else if 64 ≤ launchesIn s l then 4
  else if !emitOk s then 5
  else 6

/-- A due shot of a tile: the dither advances, then the first matching row of Table SHOT-4 decides. -/
def dueShot (t : Tile) (s : State) : State :=
  let c := t.course
  let d' := ditherStep (course s c).dither
  let d := ditherOf t.prog.dspan d'
  let l := ((((now s + 24 + d) * 128 : Nat) : Int) + t.prog.deskew).toNat
  let s0 := modCourse c (fun x => { x with dither := d' }) s
  let upd (g : Tile → Tile) (x : State) : State :=
    modTile t.frame c t.column (fun y => g { y with next := y.next + 1 }) x
  let s1 := match shotFate c l s0 with
    | 1 => upd (fun y => { y with partialTile := y.partialTile || y.scheduled }) s0
    | 2 => upd (fun y => { y with scheduled := true, skipped := y.skipped + 1 })
        (modCourse c (fun x => { x with skipOpen := wrap64 (x.skipOpen + 1) }) s0)
    | 3 | 4 => upd (fun y => { y with scheduled := true, skipped := y.skipped + 1 })
        (modCourse c (fun x => { x with skipRate := sat32 (x.skipRate + 1), governed := true }) s0)
    | 5 => upd (fun y => { y with scheduled := true, partialTile := true })
        (modCourse c (fun x => { x with denied := sat32 (x.denied + 1) }) s0)
    | _ => upd (fun y => { y with scheduled := true, inFlight := y.inFlight + 1 })
        (modCourse c (fun x => { x with
          flights := x.flights ++ [{ frame := t.frame, column := t.column, k := t.next, due := now s, dither := d, launch := l }]
          launches := (x.launches.filter (fun p => decide (l < p + 256000))) ++ [l] }) s0)
  settleTile t.frame c t.column s1

/-- SHOT_DUE (04 R90): the next shot of the course is due at this crossing. Boundaries come first, and shots due together
are decided in ascending course order (02 R29). -/
def execShotDue (c : Fin 128) (s : State) : Host.Outcome State Fault Refusal :=
  .next <|
    if !s.angle.inFrame || !s.power.dieA || frameDue s || columnDue s (uInt s) ||
        (List.range c.val).any (fun k => (dueTile k s).isSome) then s
    else
      match dueTile c.val s with
      | some t => dueShot t s
      | none => s

/-! #### Launch and windows (04 R85 to R88, 05 R113 to R115, R121) -/

/-- The spacing of a double-pulse code, ns (04 Table SHOT-2). -/
def dpSpacing (i : Nat) : Nat := nth [6, 7, 8, 9, 10, 11, 12, 13, 14, 16, 18, 20, 23, 26, 30, 34] i

/-- Factors in use by a converter: nominal until one is accepted since die A start (05 R121). -/
def factorsOf (f : Option Factors) : Factors := f.getD {}

/-- Open the window of one side of a launched shot; a dead one keeps the time of a course without sides and leaves its
channel to calibrate (05 R113, R114, R121). -/
def openWindow (t : Tile) (fl : Flight) (conv : Conversion) (dead : Bool) (side : Nat) (s : State) : State :=
  let ch := 2 * t.course + side
  let x := chan s ch
  let stale := !x.riseFresh || !x.fallFresh
  let w : Window :=
    { frame := t.frame, column := t.column, k := fl.k, start := fl.launch / 128, startConv := conv,
      len := t.prog.window, dither := fl.dither, lowGain := t.lowGain, stale := stale, dead := dead }
  let s1 := modTile t.frame t.course t.column
    (fun y => { y with openWindows := y.openWindows + 1, undelivered := y.undelivered + 1 }) s
  if dead then modChan ch (fun x => { x with windows := x.windows ++ [w] }) s1
  else
    modChan ch (fun x => { x with
      windows := x.windows ++ [w]
      calStart := none
      lastGain := t.lowGain
      lastStale := stale
      staleWindows := if stale then sat32 (x.staleWindows + 1) else x.staleWindows }) s1

/-- The shot's windows open on each enabled side; with no side enabled, one dead window keeps its time (05 R113). -/
def openWindows (t : Tile) (fl : Flight) (a b : Conversion) (s : State) : State :=
  if t.recv.sides % 4 = 0 then openWindow t fl a true 0 s
  else
    let s1 := if bit t.recv.sides 0 then openWindow t fl a false 0 s else s
    if bit t.recv.sides 1 then openWindow t fl b false 1 s1 else s1

/-- Drop a flight of a course. -/
def dropFlight (c : Nat) (fl : Flight) (s : State) : State :=
  modCourse c (fun x => { x with flights := x.flights.filter (fun y => decide (y ≠ fl)) }) s

/-- Change one flight of a course. -/
def modFlight (c : Nat) (fl : Flight) (g : Flight → Flight) (s : State) : State :=
  modCourse c (fun x => { x with flights := x.flights.map (fun y => if y = fl then g y else y) }) s

/-- The channels of a shot's enabled sides have armed for it: 4 ns before its launch (05 R114). -/
def armed (s : State) (ch : Nat) (fl : Flight) : Bool :=
  !fl.launched && decide (fl.launch / 128 ≤ now s + 4) &&
    (match findTile fl.frame (ch / 2) fl.column s with
     | some t => bit t.recv.sides (ch % 2)
     | none => false)

/-- A shot that armed its channels and does not launch lets them calibrate again from now on (05 R120; DESIGN CHOICE: the
spec is silent on a window that never opens, log 94). -/
def disarm (c : Nat) (fl : Flight) (s : State) : State :=
  let one (ch : Nat) (x : State) : State :=
    if armed s ch fl then modChan ch (fun y => { y with calStart := some (now s) }) x else x
  one (2 * c + 1) (one (2 * c) s)

/-- A pulse of a launched shot leaves, or, when permission has gone since the sample, ends at once and its tile carries
PARTIAL (04 R86, R88). The edge given is the internal launch (R87): the static skew of the port comes after it (log 93). -/
def emitPulse (c edge : Nat) (fl : Flight) (t : Tile) (s : State) : State :=
  if emitOk s then
    emit (.fire c edge t.prog.pulse) (modFlight c fl (fun y => { y with pulses := y.pulses ++ [edge] }) s)
  else modTile fl.frame c fl.column (fun y => { y with partialTile := true }) s

/-- A shot that passed Table SHOT-4 and does not launch: it leaves flight, and its tile carries PARTIAL. -/
def unfired (c : Nat) (fl : Flight) (s : State) : State :=
  let s1 := modCourse c (fun x => { x with launches := x.launches.filter (fun p => decide (p ≠ fl.launch)) })
    (dropFlight c fl (disarm c fl s))
  settleTile fl.frame c fl.column
    (modTile fl.frame c fl.column (fun t => { t with inFlight := t.inFlight - 1, partialTile := true }) s1)

/-- The first pulse of a shot: the start is latched at its internal launch, the windows open and the shot counts as fired
(04 R86 to R88). -/
def launchShot (c : Nat) (fl : Flight) (t : Tile) (a b : Conversion) (s : State) : State :=
  let fl' := { fl with launched := true, second := t.prog.dpEnable }
  let s1 := modCourse c (fun x => { x with fired := wrap64 (x.fired + 1) }) (modFlight c fl (fun _ => fl') s)
  let s2 := modTile fl.frame c fl.column (fun y => { y with fired := y.fired + 1 }) s1
  openWindows t fl a b (emitPulse c fl.launch fl' t s2)

/-- The flight of a course that waits for its launch and whose instant has come. -/
def launchable (c : Nat) (s : State) : Option Flight :=
  (course s c).flights.find? (fun f => !f.launched && decide (f.launch / 128 ≤ now s))

/-- The launch instant of a shot: the sample of FIRE gating 1 ns before it fires or denies (04 R88, 01 R20). -/
def shotLaunch (c : Nat) (a b : Conversion) (s : State) : State :=
  match launchable c s with
  | none => s
  | some fl =>
    match findTile fl.frame c fl.column s with
    | none => s
    | some t =>
      if s.shot.sampled then launchShot c fl t a b s
      else unfired c fl (modCourse c (fun x => { x with denied := sat32 (x.denied + 1) }) s)

/-- DOUBLE_PULSE_SECOND (04 R85, R88): the second pulse rises the coded spacing after the first, unless the sample 1 ns
before it denies. -/
def execDoublePulseSecond (c : Fin 128) (s : State) : Host.Outcome State Fault Refusal :=
  .next <|
    match (course s c.val).flights.find? (fun f => f.second) with
    | none => s
    | some fl =>
      match findTile fl.frame c.val fl.column s with
      | none => s
      | some t =>
        let at2 := fl.launch + 128 * dpSpacing t.prog.dpIndex
        if now s < at2 / 128 then s
        else
          let fl' := { fl with second := false }
          let s1 := modFlight c.val fl (fun _ => fl') s
          if s.shot.sampled then emitPulse c.val at2 fl' t s1
          else modTile fl.frame c.val fl.column (fun y => { y with partialTile := true }) s1

/-- Permission is removed: a pulse that is high ends within 1 ns, and its tile carries PARTIAL (04 R88). -/
def cutPulses (s : State) : State :=
  eachCourse (fun c s =>
    forEach (course s c).flights (fun fl s =>
      match findTile fl.frame c fl.column s with
      | none => s
      | some t =>
        let high (p : Nat) : Bool := decide (p / 128 ≤ now s ∧ now s < p / 128 + t.prog.pulse)
        if fl.pulses.any high then
          emit (.fireCut c (now s))
            (modTile fl.frame c fl.column (fun y => { y with partialTile := true })
              (modFlight c fl (fun y => { y with pulses := y.pulses.filter (fun p => !high p) }) s))
        else s) s) s

/-- A course stops at once: its shots that have not launched are cancelled, and no second pulse follows (04 R91). -/
def stopCourse (c : Nat) (s : State) : State :=
  forEach (course s c).flights (fun fl s =>
    if fl.launched then
      if fl.second then
        modTile fl.frame c fl.column (fun y => { y with partialTile := true })
          (modFlight c fl (fun y => { y with second := false }) s)
      else s
    else unfired c fl (modCourse c (fun x => { x with cancelled := sat32 (x.cancelled + 1) }) s)) s

/-- A window's flight has ended once none of its shot's windows is open. -/
def endFlight (c : Nat) (w : Window) (s : State) : State :=
  let same (y : Window) : Bool := y.frame == w.frame && y.column == w.column && y.k == w.k && !y.closed
  if (chan s (2 * c)).windows.any same || (chan s (2 * c + 1)).windows.any same then s
  else
    modTile w.frame c w.column (fun t => { t with inFlight := t.inFlight - 1 })
      (modCourse c (fun x => { x with
        flights := x.flights.filter (fun f => !(f.frame == w.frame && f.column == w.column && f.k == w.k)) }) s)

/-- WINDOW_CLOSE (05 R115): the channel's window closes at start + WINDOW. -/
def execWindowClose (ch : Fin 256) (s : State) : Host.Outcome State Fault Refusal :=
  .next <|
    match (chan s ch.val).windows.find? (fun w => !w.closed) with
    | none => s
    | some w =>
      if now s < w.start + w.len then s
      else
        let c := ch.val / 2
        let shut (x : Channel) : Channel :=
          { x with windows := x.windows.map (fun y => if y = w then { y with closed := true } else y) }
        let s1 := modChan ch.val (fun x =>
          if w.dead then shut x
          else { (shut x) with riseFresh := false, fallFresh := false, calStart := some (now s + 16) }) s
        let s2 := modTile w.frame c w.column (fun t => { t with openWindows := t.openWindows - 1 }) s1
        settleTile w.frame c w.column (endFlight c w s2)

/-- STAMP_DELIVERY (05 R117): a closed window's stamps reach the engine, framed by shot and side. -/
def execStampDelivery (ch : Fin 256) (s : State) : Host.Outcome State Fault Refusal :=
  .next <|
    match (chan s ch.val).windows.find? (fun w => w.closed) with
    | none => s
    | some w =>
      let c := ch.val / 2
      let side := ch.val % 2
      let tw : TileWindow := ⟨w.k, side, w.dither, w.stamps⟩
      let s1 := modChan ch.val (fun x => { x with windows := x.windows.filter (fun y => decide (y ≠ w)) }) s
      let s2 := modTile w.frame c w.column (fun t => { t with
        undelivered := t.undelivered - 1
        windows := if w.dead then t.windows
          else insertBy (fun v => 2 * v.k + v.side) tw t.windows }) s1
      readyTile w.frame c w.column s2

/-! #### Stamps (05 R116 to R124) -/

/-- Exact position of a conversion: numerator over `K2 - K1` (05 R119). -/
def posOf (v : Conversion) (f : Factors) : Int × Nat :=
  let d := f.k2 - f.k1
  ((128 * (v.n : Int) - 128) * (d : Int) - 128 * (8 * (v.k : Int) - (f.k1 : Int)), d)

/-- Difference of two positions as a fraction. -/
def posSub (a b : Int × Nat) : Int × Nat := (a.1 * (b.2 : Int) - b.1 * (a.2 : Int), a.2 * b.2)

/-- A fraction is less than a whole number. -/
def fracLt (a : Int × Nat) (n : Int) : Bool := decide (a.1 < n * (a.2 : Int))
/-- A whole number is less than a fraction. -/
def ltFrac (n : Int) (a : Int × Nat) : Bool := decide (n * (a.2 : Int) < a.1)

/-- What the tests of Table RECV-2 make of a rising edge. -/
inductive EdgeFate where
  | pileup | outside | unvalidated | blanked | overflow | stored
  deriving DecidableEq, Repr

/-- A stamp's classification (05 R124): TIE, REVERSED or neither, and its TIME. -/
def classify (d : Int × Nat) : Bool × Bool × Nat :=
  if fracLt d (-1) then (false, true, (rne (-d.1) d.2).toNat)
  else if ltFrac 1 d then (false, false, (rne d.1 d.2).toNat)
  else (true, false, 0)

/-- The thresholds of a gain, TL and TH (05 Table RECV-6). -/
def levelsOf (x : Thresholds) (lowGain : Bool) : Nat × Nat := if lowGain then (x.tl1, x.th1) else (x.tl4, x.th4)

/-- The fate of a rising edge with exact difference `d` (05 Table RECV-2). `valid` is what test 3 passes. The 4 ns of test
1 lie between exact positions, that of the present edge included although a piled-up edge is not converted (DESIGN CHOICE:
the spec does not say how they are measured, log 95). -/
def edgeFate (w : Window) (rc : RecvCourse) (d : Int × Nat) (pos : Int × Nat) (valid : Bool) : EdgeFate :=
  let near : Bool := match w.lastEdge with
    | some p => fracLt (posSub pos p) 512
    | none => false
  let t := rne d.1 d.2
  let (_, rev, time) := classify d
  if near then .pileup
  else if t < -512 ∨ (128 * w.len : Nat) ≤ t then .outside
  else if rc.validate && !valid then .unvalidated
  else if !rev && decide (time < 128 * rc.blank) then .blanked
  else if 64 ≤ w.stamps.length then .overflow
  else .stored

/-- The width code of a stamp (05 R119). -/
def widthOf (pos : Int × Nat) (fall : Option Conversion) (f : Factors) : Nat :=
  match fall with
  | none => 255
  | some v =>
    let d := posSub (posOf v f) pos
    min 255 (rne d.1 (8 * d.2)).toNat

/-- The stamp word (05 Table RECV-4). -/
def stampWord (time width : Nat) (tie rev stale low : Bool) : Nat :=
  4096 * time + 16 * width + b2n tie * 8 + b2n rev * 4 + b2n stale * 2 + b2n low

/-- LOW_DISCRIMINATOR_EDGE (05 R116): a rising edge on a channel whose window stands. -/
def execLowDiscriminatorEdge (ch : Fin 256) (rise : Conversion) (fall : Option Conversion) (high : Bool)
    (s : State) : Host.Outcome State Fault Refusal :=
  .next <|
    let x := chan s ch.val
    match x.windows.find? (fun w => !w.dead && !w.closed) with
    | none => s
    | some w =>
      match findTile w.frame (ch.val / 2) w.column s with
      | none => s
      | some t =>
        let fr := factorsOf x.rise
        let pos := posOf rise fr
        let d := posSub pos (posOf w.startConv fr)
        let (tl, th) := levelsOf x.latched w.lowGain
        let fate := edgeFate w t.recv d pos (high || decide (th ≤ tl))
        let (tie, rev, time) := classify d
        let word := stampWord time (widthOf pos fall (factorsOf x.fall)) tie rev w.stale w.lowGain
        let setW (g : Window → Window) (x : Channel) : Channel :=
          { x with windows := x.windows.map (fun y => if y = w then g y else y) }
        let conv (w : Window) : Window := { w with lastEdge := some pos }
        let onTile (g : Tile → Tile) (z : State) : State := modTile w.frame (ch.val / 2) w.column g z
        match fate with
        | .pileup => modChan ch.val (fun x => { x with pileup := sat32 (x.pileup + 1) }) s
        | .outside => modChan ch.val (setW conv) s
        | .unvalidated =>
          modChan ch.val (fun x => setW conv { x with unvalidated := sat32 (x.unvalidated + 1) }) s
        | .blanked =>
          onTile (fun t => { t with dirt := t.dirt + 1 })
            (modChan ch.val (fun x => setW conv { x with blanked := sat32 (x.blanked + 1) }) s)
        | .overflow =>
          onTile (fun t => { t with overflow := sat16 (t.overflow + 1) })
            (modChan ch.val (fun x => setW conv { x with overflow := sat32 (x.overflow + 1) }) s)
        | .stored =>
          modChan ch.val (fun x => setW (fun w => { conv w with stamps := w.stamps ++ [word] })
            { x with
              stamps := wrap64 (x.stamps + 1)
              reversed := if rev then sat32 (x.reversed + 1) else x.reversed
              tie := if tie then sat32 (x.tie + 1) else x.tie }) s

/-! #### Converter calibration (05 R118, R120, R121) -/

/-- A calibration's factors are accepted (05 R118). -/
def calOk (f : Factors) : Bool := decide (768 + f.k1 ≤ f.k2 ∧ f.k2 ≤ 1280 + f.k1)

/-- The calibration in progress on a channel started at this instant, if one runs: none while a window of the channel is
open or its course's next shot has armed it (05 R120). -/
def calRunning (s : State) (ch : Nat) : Option Nat :=
  let x := chan s ch
  if x.windows.any (fun w => !w.closed && !w.dead) || (course s (ch / 2)).flights.any (armed s ch) then none
  else some (x.calStart.getD s.power.dieAAt)

/-- Log a rejected calibration (05 R118). -/
def logReject (ch conv : Nat) (f : Factors) (s : State) : State :=
  if calOk f then s else logEv 0x0301 ch conv (unsigned 32 ((f.k2 : Int) - (f.k1 : Int))) s

/-- TDC_CALIBRATION_DONE (05 R118): the channel's 320 ns calibration completes. -/
def execTdcCalibrationDone (ch : Fin 256) (rise fall : Factors) (s : State) :
    Host.Outcome State Fault Refusal :=
  .next <|
    match calRunning s ch.val with
    | none => s
    | some t0 =>
      if !s.power.dieA || now s < t0 + 320 then s
      else
        let s1 := modChan ch.val (fun x => { x with
          rise := if calOk rise then some rise else x.rise
          fall := if calOk fall then some fall else x.fall
          riseFresh := x.riseFresh || calOk rise
          fallFresh := x.fallFresh || calOk fall
          calRejects := sat32 (x.calRejects + b2n (!calOk rise) + b2n (!calOk fall))
          calStart := some (now s) }) s
        logReject ch.val 1 fall (logReject ch.val 0 rise s1)

end Sys2Proof.Machine
end

