-- ==== Sys2Proof/Machine/Es.lean ====
section
/-! DEFINITION. The Emission Supervisor (10): causes, trips and grants, energy ledgers, SAFE_ACK, the safety path
monitor and the 0x08xx commands. -/

namespace Sys2Proof.Machine

open Sys2Proof

/-! #### Causes, trip and grant (10 R215, R217, R218, R222) -/

/-- Permission is removed on every path, and a pulse in progress is cut (10 R217, 04 R88). -/
def esDeny (s : State) : State :=
  let s1 := { s with es.permit := false, shot.granted := false }
  if s.es.permit then cutPulses (emit (.permit false) s1) else s1

/-- A housekeeping switch that is asserted and enabled to trip (10 Table SAFE-4 HK_TRIP). -/
def hkTripInput (s : State) : Bool :=
  (List.range 16).any (fun i =>
    (bit s.es.cfg.hkTrip (2 * i) && (hkChan s i).high.on) || (bit s.es.cfg.hkTrip (2 * i + 1) && (hkChan s i).low.on))

/-- A source of the safety path is degraded. -/
def pathDegraded (s : State) : Bool := s.es.paths.any (fun e => e.2.degraded)

/-- The input of a cause is raised; the causes without an input here arise in the commands and checks that judge
them. -/
def causeInput (c : Nat) (s : State) : Bool :=
  match c with
  | 3 => s.loop.esInput
  | 4 => (capt s 0).line || (capt s 1).line
  | 5 => s.th.shut
  | 8 => s.es.lockstep
  | 10 => hkTripInput s
  | 11 => s.es.cfg.reaction && pathDegraded s
  | _ => false

/-- The raised inputs not yet present, in ascending order. -/
def raisedInputs (s : State) : List Nat :=
  (List.range 13).filter (fun c => causeInput c s && !bit s.es.present c)

/-- The trip: TRIPPED with every present cause latched; `c` is the lowest cause that arose (10 R215, R217). -/
def esTrip (c : Nat) (s : State) : State :=
  let s1 := esDeny { s with
    es.run := .tripped
    es.rearm := none
    es.trips := sat32 (s.es.trips + 1)
    es.latched := s.es.present
    es.first := 2 ^ c
    es.tripHours := s.nv.hours
    es.tripAt := s.es.time }
  raiseIrq 8 (logEv 0x0801 s1.es.first s1.es.latched s1.es.trips s1)

/-- FIRST_CAUSE once more causes arise in TRIPPED: the lowest of those of the trip's own ES tick of 20 ns (10 R215). The
event of the trip keeps the causes it was logged with (log 111). -/
def firstCause (cs : List Nat) (s : State) : Nat :=
  if s.es.first ≠ 0 ∧ s.es.time / 20 = s.es.tripAt / 20 then cs.foldl (fun f c => min f (2 ^ c)) s.es.first
  else s.es.first

/-- Causes arise, together with every other raised input: the ES takes in all that arise on one of its ticks. A trip, or in
TRIPPED more latched causes (10 R215). -/
def esArise (c : Nat) (s : State) : State :=
  if !s.es.powered || bit s.es.present c then s
  else
    let cs := c :: raisedInputs s
    let s1 := { s with es.present := cs.foldl setBit s.es.present }
    if s.es.run = .tripped then
      { s1 with es.latched := cs.foldl setBit s1.es.latched, es.first := firstCause cs s1 }
    else esTrip (cs.foldl min c) s1

/-- The causes are tested: every raised input is taken in (10 R218: first in every state). -/
def takeCauses (s : State) : State :=
  match raisedInputs s with
  | [] => s
  | c :: _ => esArise c s

/-- A cause is absent; with none present, and no input raised, TRIPPED becomes CLEARED (10 Table SAFE-3). -/
def esClear (c : Nat) (s : State) : State :=
  if !s.es.powered || !bit s.es.present c then s
  else
    let s0 := takeCauses s
    let s1 := { s0 with es.present := clrBit s0.es.present c }
    if s1.es.run = .tripped ∧ s1.es.present = 0 then
      raiseIrq 9 (logEv 0x0802 0 0 0 { s1 with es.run := .cleared })
    else s1

/-- The grant (10 R222): `path` 0 for SAFE_ACK, 1 for the mailbox. -/
def esGrant (path : Nat) (s : State) : State :=
  logEv 0x0803 path 0 0 (emit (.permit true) { s with es.run := .permit, es.permit := true, es.rearm := none })

/-- A pending rearm is cancelled (10 Table SAFE-3): `why` 0 wrong state, 1 invalid confirm, 2 timeout. -/
def cancelRearm (why : Nat) (s : State) : State :=
  logEv 0x0807 why 0 0
    { s with es.run := .cleared, es.rearm := none, es.rearmsRefused := sat32 (s.es.rearmsRefused + 1) }

/-! #### Ledgers (10 R211 to R213) -/

/-- BUCKET_NS of a window. -/
def bucketNs (cfg : EsConfig) (k : Nat) : Nat := max 1 (nth cfg.buckets k)
/-- The sum of a ledger, 48 bits, saturating. -/
def ledgerSum (l : List Nat) : Nat := sat48 (listSum l)
/-- Add a weight to the current bucket of a ledger. -/
def addBucket (w : Nat) (l : List Nat) : List Nat :=
  match l with
  | [] => if w = 0 then [] else [w]
  | a :: t => (a + w) :: t
/-- Close the current bucket of a ledger: 33 buckets stay; an empty list is a ledger of zeros. -/
def closeBucket (l : List Nat) : List Nat :=
  let m := (0 :: l).take 33
  if m.all (fun a => decide (a = 0)) then [] else m
/-- The whole sum moves to the current bucket (10 R227). -/
def foldBuckets (l : List Nat) : List Nat := if listSum l = 0 then [] else [ledgerSum l]

/-- Sum of a port's ledger. -/
def portSum (s : State) (p k : Nat) : Nat := ledgerSum (tabGet [] s.es.ports (3 * p + k))
/-- Sum of a group's ledger. -/
def groupSum (s : State) (g k : Nat) : Nat := ledgerSum (tabGet [] s.es.groups (3 * g + k))
/-- LIMIT of a port and window. -/
def portLimit (s : State) (p k : Nat) : Nat := tabGet 0 s.es.cfg.limits (3 * p + k)
/-- GLIMIT of a group and window. -/
def groupLimit (s : State) (g k : Nat) : Nat := tabGet 0 s.es.cfg.glimits (3 * g + k)

/-- Apply `f` to every ledger of window `k` in a table. -/
def mapWindow (k : Nat) (f : List Nat → List Nat) (t : Tab (List Nat)) : Tab (List Nat) :=
  (t.map (fun e => (e.1, if e.1 % 3 = k then f e.2 else e.2))).filter (fun e => decide (e.2 ≠ []))

/-- The first window of port `p` over its limit, then of its group: window, and whether it is the group's (10 R212). -/
def overLimit (s : State) (p : Nat) : Option (Nat × Bool) :=
  let g := p / 8
  match (List.range 3).find? (fun k => decide (portLimit s p k < portSum s p k)) with
  | some k => some (k, false)
  | none =>
    match (List.range 3).find? (fun k => decide (groupLimit s g k < groupSum s g k)) with
    | some k => some (k, true)
    | none => none

/-- LEDGER arises; the LEDGER fields are written only by a trip (10 R212, R215). -/
def esLedger (port window group : Nat) (s : State) : State :=
  let trips := s.es.powered && decide (s.es.run ≠ .tripped) && !bit s.es.present 2
  esArise 2 (if trips then
      { s with es.ledgerPort := port, es.ledgerWindow := window, es.ledgerGroup := group }
    else s)

/-- Count a pulse of port `p` (10 R212). -/
def countPulse (p : Nat) (s : State) : State :=
  let w := tabGet 1 s.es.cfg.weights p
  let g := p / 8
  let s1 := forUpto 3 (fun k s =>
    { s with
      es.ports := tabMod [] s.es.ports (3 * p + k) (addBucket w)
      es.groups := tabMod [] s.es.groups (3 * g + k) (addBucket w) }) s
  match overLimit s1 p with
  | some (k, grp) => esLedger p k (if grp then g else 0xFF) s1
  | none => s1

/-- ES_PULSE_COUNT (10 R210, R212, R213): the tap of an output stage sees a pulse, whatever launched it. -/
def execEsPulseCount (port : Fin 128) (s : State) : Host.Outcome State Fault Refusal :=
  .next (if s.es.powered then countPulse port.val s else s)

/-- LEDGER_BUCKET_CLOSE (10 R211): ES time has reached a multiple of BUCKET_NS. -/
def execLedgerBucketClose (k : Fin 3) (s : State) : Host.Outcome State Fault Refusal :=
  .next <|
    let b := bucketNs s.es.cfg k.val
    let due := (nth s.es.closedTo k.val / b + 1) * b
    if !s.es.powered || decide (s.es.time < due) then s
    else
      { s with
        es.closedTo := s.es.closedTo.set k.val due
        es.ports := mapWindow k.val closeBucket s.es.ports
        es.groups := mapWindow k.val closeBucket s.es.groups }

/-- Every ledger is at most half its limit (10 Table SAFE-1). -/
def ledgersHalf (s : State) : Bool :=
  s.es.ports.all (fun e => decide (2 * ledgerSum e.2 ≤ tabGet 0 s.es.cfg.limits e.1)) &&
    s.es.groups.all (fun e => decide (2 * ledgerSum e.2 ≤ tabGet 0 s.es.cfg.glimits e.1))

/-! #### Causes that arise and clear (10 Table SAFE-1) -/

/-- ES_CAUSE_ARISES (10 R215): a raised input is taken in. -/
def execEsCauseArises (c : Cause) (s : State) : Host.Outcome State Fault Refusal :=
  .next (if causeInput c.val s then esArise c.val s else s)

/-- A cause is no longer present by its own condition (10 Table SAFE-1). -/
def causeGone (c : Nat) (s : State) : Bool :=
  match c with
  | 0 => s.es.selftestOk && s.es.loaded && decide (1000000 * s.es.cfg.hold ≤ s.es.time)
  | 2 => ledgersHalf s
  | 3 | 4 | 5 | 8 | 10 => !causeInput c s
  | 9 =>
    (match s.es.clockOkSince with
     | some t => decide (t + 1000000 ≤ s.es.time)
     | none => false)
  | 11 => !pathDegraded s
  | 12 => true
  | _ => false

/-- ES_CAUSE_CLEARS (10 R218). UNCONFIGURED, CONFIG_CRC and SELFTEST clear in the events that judge them. -/
def execEsCauseClears (c : Cause) (s : State) : Host.Outcome State Fault Refusal :=
  .next (if causeGone c.val s then esClear c.val s else s)

/-- POWERUP_HOLD_END (10 R223): POWERUP_HOLD has elapsed since ES power-on. -/
def execPowerupHoldEnd (s : State) : Host.Outcome State Fault Refusal :=
  .next (if causeGone 0 s then esClear 0 s else s)

/-! #### Checks (10 R209, R216, R226) -/

/-- ES_CLOCK_CHECK (10 R209): the comparison over 100 us, deviation in ppm, and the rail monitor. -/
def execEsClockCheck (ppm : Int) (railOk : Bool) (s : State) : Host.Outcome State Fault Refusal :=
  .next <|
    if !s.es.powered then s
    else
      let s1 := { s with es.clockDev := ppm }
      if railOk && decide (ppm.natAbs ≤ 30000) then { s1 with es.clockOkSince := some (s.es.clockOkSince.getD s.es.time) }
      else esArise 9 { s1 with es.clockOkSince := none }

/-- ES_SELFTEST (10 R216). -/
def execEsSelftest (ok : Bool) (s : State) : Host.Outcome State Fault Refusal :=
  .next <|
    if !s.es.powered then s
    else
      let s1 := { s with es.selftestOk := ok }
      if ok then esClear 7 s1 else esArise 7 s1

/-- ES_CRC_CHECK (10 R226): the CRC recomputed over the configuration in force. -/
def execEsCrcCheck (crc : BitVec 32) (s : State) : Host.Outcome State Fault Refusal :=
  .next <|
    if !s.es.powered then s
    else if crc.toNat = s.es.crc then esClear 6 { s with es.loaded := true }
    else esArise 6 s

/-! #### Parameter blocks (10 Table SAFE-4) -/

/-- The bytes of a parameter block. -/
def blockBytes (cfg : EsConfig) (id : Nat) : Bytes :=
  match id with
  | 1 => (List.range 3).flatMap (fun k => b4 (nth cfg.buckets k))
  | 2 => (List.range 128).flatMap (fun p => b2 (tabGet 1 cfg.weights p))
  | 3 => (List.range 384).flatMap (fun i => b8 (tabGet 0 cfg.limits i))
  | 4 => (List.range 48).flatMap (fun i => b8 (tabGet 0 cfg.glimits i))
  | 5 => b4 cfg.hkTrip
  | 6 => b4 (b2n cfg.reaction) ++ b4 cfg.pathTimeout
  | 7 => b4 cfg.rearmPath ++ b4 cfg.hold
  | _ => []

/-- The configuration with a block replaced. -/
def putBlock (cfg : EsConfig) (id : Nat) (p : Bytes) : EsConfig :=
  match id with
  | 1 => { cfg with buckets := (List.range 3).map (fun k => u32 p (4 * k)) }
  | 2 => { cfg with weights := (List.range 128).foldl (fun t i => tabSet 1 t i (u16 p (2 * i))) [] }
  | 3 => { cfg with limits := (List.range 384).foldl (fun t i => tabSet 0 t i (u64 p (8 * i))) [] }
  | 4 => { cfg with glimits := (List.range 48).foldl (fun t i => tabSet 0 t i (u64 p (8 * i))) [] }
  | 5 => { cfg with hkTrip := u32 p 0 }
  | 6 => { cfg with reaction := decide (u32 p 0 = 1), pathTimeout := u32 p 4 }
  | 7 => { cfg with rearmPath := u32 p 0, hold := u32 p 4 }
  | _ => cfg

/-- Size of a parameter block. -/
def blockSize (id : Nat) : Nat := nth [0, 12, 256, 3072, 384, 4, 8, 8] id

/-- The configuration's bytes, blocks in ascending ID order. -/
def configBytes (cfg : EsConfig) : Bytes := (List.range 7).flatMap (fun i => blockBytes cfg (i + 1))

/-- The field checks of a block that starts at payload offset 8. -/
def blockFields (id : Nat) (p : Bytes) : List (Bool × Nat) :=
  match id with
  | 1 => (List.range 3).map (fun k => (within 313 (u32 p (8 + 4 * k)) 312500000, 8 + 4 * k))
  | 3 | 4 => (List.range (blockSize id / 8)).map (fun i => (decide (u64 p (8 + 8 * i) < 2 ^ 48), 8 + 8 * i))
  | 6 => [(decide (u32 p 8 < 2), 8), (within 100 (u32 p 12) 100000, 12)]
  | 7 => [(decide (u32 p 8 < 3), 8), (decide (u32 p 12 ≤ 10000), 12)]
  | _ => []

/-! #### Power-on and locking (10 R223, R225) -/

/-- ES_POWER_ON (10 R223): the die-B rails come up; what the NV ledger holds stays, all else starts afresh. The CRC
computed over the configuration loaded is held against the one stored with it, and a self-test that fails arises in
TRIPPED (R215). -/
def execEsPowerOn (selfTestOk : Bool) (crc : BitVec 32) (s : State) : Host.Outcome State Fault Refusal :=
  .next <|
    if !s.power.vka || s.es.powered then s
    else
      let e := s.es
      let stored := crc32 (configBytes e.cfg)
      let valid := decide (crc.toNat = stored)
      let s1 := esDeny { s with
        es := { powered := true, present := bitmap [true, !e.committed], cfg := e.cfg, crc := stored,
                committed := e.committed, nvCopy := e.nvCopy, selftestOk := selfTestOk, loaded := valid,
                passwords := e.passwords, firstSet := e.firstSet, changelog := e.changelog, entry := e.entry,
                permit := e.permit } }
      let s2 := if valid then s1 else esArise 6 s1
      if selfTestOk then s2 else esArise 7 s2

/-- The ES locks at every event that closes the session or restarts Sornor (10 R225). -/
def esLock (s : State) : State := { s with es.unlocked := none }

/-- ES_UNLOCK_TIMEOUT (10 R225): 60 s without a command that extends the unlock. -/
def execEsUnlockTimeout (s : State) : Host.Outcome State Fault Refusal :=
  .next (if s.es.unlocked.isSome && decide (s.es.unlockAt + 60000000000 ≤ s.es.time) then esLock s else s)

/-- UNLOCK_REFUSAL_END (10 R225). -/
def execUnlockRefusalEnd (s : State) : Host.Outcome State Fault Refusal :=
  .next <|
    match s.es.refusal with
    | some t => if t ≤ s.es.time then { s with es.refusal := none, es.wrong := 0 } else s
    | none => s

/-! #### SAFE_ACK (10 R219) -/

/-- SAFE_ACK_FALL (10 R219): a low level is recognised. It is a falling edge, which starts the low count, only after a
recognised high level: not when it is the first level since ES power-on. -/
def execSafeAckFall (s : State) : Host.Outcome State Fault Refusal :=
  .next <|
    if !s.es.powered || decide (s.es.ack = some false) then s
    else { s with es.ack := some false, es.ackLow := if s.es.ack = some true then some s.es.time else none }

/-- The rising edge is qualified: low for 10 ms from the later of the falling edge and the last trip. -/
def ackQualified (s : State) : Bool :=
  match s.es.ackLow with
  | some t => decide (max t s.es.tripAt + 10000000 ≤ s.es.time)
  | none => false

/-- SAFE_ACK_RISE (10 R219, Table SAFE-3): a high level is recognised. Causes are tested first (R218), and a first level
since ES power-on is no qualified edge, because no low count runs. -/
def execSafeAckRise (s : State) : Host.Outcome State Fault Refusal :=
  .next <|
    if !s.es.powered || decide (s.es.ack = some true) then s
    else
      let s0 := takeCauses s
      let s1 := { s0 with es.ack := some true, es.ackLow := none }
      let path := s.es.cfg.rearmPath
      if ackQualified s0 && decide (s0.es.present = 0) &&
          decide ((s0.es.run = .cleared ∧ path ≠ 1) ∨ (s0.es.run = .rearmPending ∧ path = 2)) then esGrant 0 s1
      else s1

/-- REARM_TIMEOUT (10 Table SAFE-3): 2 s since the ES_REARM. -/
def execRearmTimeout (s : State) : Host.Outcome State Fault Refusal :=
  .next <|
    match s.es.rearm with
    | some r => if r.tick + 2000000000 ≤ s.es.time then cancelRearm 2 s else s
    | none => s

/-! #### Safety path (10 R229 to R231) -/

/-- Number of an ES state (10 Table SAFE-6). -/
def esNo : EsRun → Nat
  | .tripped => 0 | .cleared => 1 | .rearmPending => 2 | .permit => 3

/-- The ES state message for a ring (10 Table SAFE-6). -/
def stateMessage (ring : Nat) (s : State) : Bytes :=
  let m (r : Nat) : Bytes :=
    b2 (ownNode s) ++ b1 (esNo s.es.run) ++ b1 r ++ b4 s.es.seq ++ b4 s.es.present ++ b4 s.es.trips ++ b4 s.es.crc
  m ring ++ b4 (crc32 (m 0))

/-- ES_STATE_MESSAGE_SEND (10 R229): every 20 us, on both rings with one SEQ. -/
def execEsStateMessageSend (s : State) : Host.Outcome State Fault Refusal :=
  .next <|
    if !s.es.powered || !ringMember s || decide (s.es.time < s.es.sentAt + 20000) then s
    else
      broadcast 3 1 (stateMessage 0 s) (stateMessage 1 s)
        { s with es.seq := (s.es.seq + 1) % 2 ^ 32, es.sentAt := s.es.time }

/-- The bytes of a state message in which two copies must agree. -/
def comparedBytes (m : Bytes) : Bytes := overwrite (m.take 20) 3 (zeros 1)

/-- A copy with the SEQ of another differs from it. -/
def copyDiffers (m : Bytes) (c : PathCopy) : Bool :=
  match c.last with
  | some l => decide (u32 l 4 = u32 m 4 ∧ comparedBytes l ≠ comparedBytes m)
  | none => false

/-- A copy agrees with the other ring's of the same SEQ. -/
def copyMatches (m : Bytes) (c : PathCopy) : Bool :=
  match c.last with
  | some l => decide (u32 l 4 = u32 m 4 ∧ comparedBytes l = comparedBytes m)
  | none => false

/-- The copy does not follow the last one of its ring directly. -/
def copyJumps (m : Bytes) (c : PathCopy) : Bool :=
  match c.last with
  | some l => decide ((u32 l 4 + 1) % 2 ^ 32 ≠ u32 m 4)
  | none => true

/-- SAFETY_PATH_DEGRADED is declared for a source (10 R231). -/
def degradePath (node : Nat) (s : State) : State :=
  let x := tabGet {} s.es.paths node
  let s1 := { s with es.paths := tabSet {} s.es.paths node { x with degraded := true, matching := 0 } }
  if x.degraded then s1
  else
    let s2 := raiseIrq 10 (logEv 0x0806 node 0 0 s1)
    if s.es.cfg.reaction then esArise 11 s2 else s2

/-- A source whose both rings have delivered 10 consecutive matching messages is healthy again (10 R231). -/
def healPath (node : Nat) (s : State) : State :=
  let x := tabGet {} s.es.paths node
  if x.degraded && decide (10 ≤ x.matching) && !x.primary.timedOut && !x.secondary.timedOut then
    let s1 := { s with es.paths := tabSet {} s.es.paths node { x with degraded := false } }
    if pathDegraded s1 then s1 else esClear 11 s1
  else s

/-- The last messages of a ring with a new one: the largest transit of a ring of 300 hops, 220 µs, is shorter than 16
intervals of 20 µs (13 R315). -/
def recentWith (m : Bytes) (c : PathCopy) : List Bytes := (m :: c.recent).take 16

/-- A valid ES state message (10 R230, R231). A copy repeated by a wrap has the SEQ and the content of one of the ring's
last messages and changes nothing (13 R315). -/
def takeStateMessage (m : Bytes) (s : State) : State :=
  let node := u16 m 0
  let x := tabGet {} s.es.paths node
  let first := x.primary.last.isNone && x.secondary.last.isNone
  let x := if first then
      { x with primary := { x.primary with tick := s.es.time }, secondary := { x.secondary with tick := s.es.time } }
    else x
  let sec := decide (u8 m 3 = 1)
  let mine := if sec then x.secondary else x.primary
  let other := if sec then x.primary else x.secondary
  if mine.recent.contains m then s
  else
    let new : PathCopy := { last := some m, recent := recentWith m mine, tick := s.es.time, timedOut := false }
    let n := (if copyJumps m mine then 0 else x.matching) + b2n (copyMatches m other)
    let y : PathSource :=
      { x with
        primary := if sec then x.primary else new
        secondary := if sec then new else x.secondary
        matching := min 10 n
        silent := false }
    let s1 := { s with es.paths := tabSet {} s.es.paths node y }
    if copyDiffers m mine || copyDiffers m other then degradePath node s1 else healPath node s1

/-- Take the oldest delivered message of a class and type. -/
def takeInbox (cls typ : Nat) (s : State) : Option (RingMessage × State) :=
  match s.ring.inbox.find? (fun m => m.cls == cls && m.typ == typ) with
  | some m => some (m, { s with ring.inbox := s.ring.inbox.erase m })
  | none => none

/-- ES_STATE_MESSAGE (10 R230): a message arrives; one whose CRC is wrong is counted and dropped. -/
def execEsStateMessage (s : State) : Host.Outcome State Fault Refusal :=
  .next <|
    match takeInbox 3 1 s with
    | none => s
    | some (m, s1) =>
      if !s.es.powered || !ringMember s then s1
      else if decide (m.payload.length = 24) &&
          decide (crc32 (overwrite (m.payload.take 20) 3 (zeros 1)) = u32 m.payload 20) then
        takeStateMessage m.payload s1
      else { s1 with es.pathMismatches := sat32 (s1.es.pathMismatches + 1) }

/-- SAFE_PATH_TIMEOUT (10 R230): a ring has delivered nothing from a source for SAFE_PATH_TIMEOUT. -/
def execSafePathTimeout (node : BitVec 16) (ring : Fin 2) (s : State) : Host.Outcome State Fault Refusal :=
  .next <|
    let n := node.toNat
    let x := tabGet {} s.es.paths n
    let lim := 1000 * s.es.cfg.pathTimeout
    let mine := if ring.val = 0 then x.primary else x.secondary
    let other := if ring.val = 0 then x.secondary else x.primary
    let heard := x.primary.last.isSome || x.secondary.last.isSome
    if !s.es.powered || !ringMember s || !heard || decide (s.es.time < mine.tick + lim) then s
    else if other.tick + lim ≤ s.es.time then
      { s with es.paths := tabSet {} s.es.paths n { x with silent := true } }
    else if mine.timedOut then s
    else
      let c := { mine with timedOut := true }
      let y := if ring.val = 0 then { x with primary := c } else { x with secondary := c }
      degradePath n { s with
        es.paths := tabSet {} s.es.paths n y
        es.pathTimeouts := sat32 (s.es.pathTimeouts + 1) }

/-! #### Commands (10 Table SAFE-8) -/

/-- The ES_STATUS result (10 Table SAFE-9). -/
def esStatus (s : State) : Bytes :=
  let e := s.es
  b1 (esNo e.run) ++
    b1 (bitmap [e.unlocked.isSome, !e.staged.isEmpty, pathDegraded s, decide (e.ack = some true), e.permit, !e.permit,
      e.permit]) ++
    b1 (e.unlocked.getD 0xFF) ++ b1 0 ++ b4 e.present ++ b4 e.latched ++ b4 e.first ++ b4 e.trips ++ b4 e.tripHours ++
    b4 e.crc ++ b1 e.ledgerPort ++ b1 e.ledgerWindow ++ b1 e.ledgerGroup ++ b1 0 ++ b4 e.pathMismatches ++
    b4 e.pathTimeouts ++ b4 e.rearmsRefused ++ b4 e.unlockFails ++ b4 e.entry ++ bS 4 e.clockDev ++ b8 0

/-- ES_STATUS (10 R234). -/
def execEsStatus (mb : Fin 8) (s : State) : Host.Outcome State Fault Refusal :=
  runCommand 0x0801 mb (fun _ _ p s => checked (fixedPayload p 0 []) s (fun _ => (s, okWith (esStatus s)))) s

/-- The salted SHA-256 of a password, as a slot holds it (10 R224). -/
def slotHash (salt pw : Bytes) : Bytes := fit 32 (Config.passwordHash salt pw)

/-- The password opens a slot; an unset slot opens for none (10 R224). -/
def passwordFits (slot : Nat) (pw : Bytes) (s : State) : Bool :=
  match tabGet none s.es.passwords slot with
  | some x => decide (slotHash x.salt pw = x.hash)
  | none => false

/-- ES_UNLOCK's effect (10 R225). -/
def unlock (slot : Nat) (pw : Bytes) (s : State) : State × Reply :=
  if s.es.refusal.isSome then (s, locked)
  else if passwordFits slot pw s then
    ({ s with es.unlocked := some slot, es.wrong := 0, es.unlockAt := s.es.time }, ok)
  else
    let n := s.es.wrong + 1
    (logEv 0x0804 slot 0 0 { s with
      es.unlocked := none
      es.wrong := n
      es.unlockFails := sat32 (s.es.unlockFails + 1)
      es.refusal := if 3 ≤ n then some (s.es.time + 60000000000) else none }, locked)

/-- ES_UNLOCK (10 R225). -/
def execEsUnlock (mb : Fin 8) (s : State) : Host.Outcome State Fault Refusal :=
  runCommand 0x0802 mb (fun _ _ p s =>
    checked (fixedPayload p 24 [(decide (u8 p 0 < 4), 0), rsv p 1 7]) s
      (fun _ => unlock (u8 p 0) (slice p 8 16) s)) s

/-- ES_LOCK (10 R225). -/
def execEsLock (mb : Fin 8) (s : State) : Host.Outcome State Fault Refusal :=
  runCommand 0x0803 mb (fun _ _ p s => checked (fixedPayload p 0 []) s (fun _ => (esLock s, ok))) s

/-- ES_STAGE (10 R227). -/
def execEsStage (mb : Fin 8) (s : State) : Host.Outcome State Fault Refusal :=
  runCommand 0x0804 mb (fun _ _ p s =>
    let id := u16 p 0
    checked (varPayload p 8 [(within 1 id 7, 0), rsv p 2 6] (8 + blockSize id) (blockFields id p)) s (fun _ =>
      if s.es.unlocked.isNone then (s, locked)
      else
        ({ s with es.staged := tabSet [] s.es.staged id (p.drop 8), es.unlockAt := s.es.time }, ok))) s

/-- Write one change-log entry (10 R228): whether the NV ledger took it. -/
def appendLog (slot param old new : Nat) (s : State) : Bool × State :=
  let n := s.es.entry + 1
  let e := b4 n ++ b4 s.nv.hours ++ b3 s.nv.pcycles ++ b1 slot ++ b2 param ++ b2 0 ++ b4 old ++ b4 new
  let (ok, s1) := nvWrite 4 (24 * ((n - 1) % 64)) e s
  if ok then
    (true, { s1 with
      es.entry := n
      es.changelog := (s1.es.changelog ++ [e]).drop (s1.es.changelog.length + 1 - 64) })
  else (false, s1)

/-- The staged blocks that differ from those in force. -/
def changedBlocks (s : State) : List (Nat × Bytes) :=
  s.es.staged.filter (fun e => decide (blockBytes s.es.cfg e.1 ≠ e.2))

/-- Write the change-log entries of ES_COMMIT: whether every one was taken. -/
def logChanges : List (Nat × Bytes) → State → Bool × State
  | [], s => (true, s)
  | e :: l, s =>
    let (ok, s1) := appendLog (s.es.unlocked.getD 0xFF) e.1 (crc32 (blockBytes s.es.cfg e.1)) (crc32 e.2) s
    if ok then logChanges l s1 else (false, s1)

/-- The first ledger over its limit at a commit, in the order of R212: port, window and group fields. -/
def firstOver (s : State) : Option (Nat × Nat × Nat) :=
  match (List.range 384).find? (fun i => decide (portLimit s (i % 128) (i / 128) < portSum s (i % 128) (i / 128))) with
  | some i => some (i % 128, i / 128, 0xFF)
  | none =>
    match (List.range 48).find? (fun i => decide (groupLimit s (i % 16) (i / 16) < groupSum s (i % 16) (i / 16))) with
    | some i => some (0xFF, i / 16, i % 16)
    | none => none

/-- A new window length: each ledger's old sum moves to its current bucket (10 R227). -/
def refold (old : EsConfig) (s : State) : State :=
  forUpto 3 (fun k s =>
    if bucketNs old k = bucketNs s.es.cfg k then s
    else
      { s with
        es.closedTo := s.es.closedTo.set k s.es.time
        es.ports := mapWindow k foldBuckets s.es.ports
        es.groups := mapWindow k foldBuckets s.es.groups }) s

/-- A configuration comes into force: LEDGER may arise, UNCONFIGURED and CONFIG_CRC clear (10 R227). -/
def applyConfig (cfg : EsConfig) (s : State) : State :=
  let s1 := refold s.es.cfg { s with
    es.cfg := cfg
    es.crc := crc32 (configBytes cfg)
    es.committed := true
    es.loaded := true
    es.nvCopy := 1 - s.es.nvCopy
    es.staged := []
    es.unlocked := none }
  let s2 := match firstOver s1 with
    | some (p, k, g) => esLedger p k g s1
    | none => s1
  esClear 6 (esClear 1 s2)

/-- ES_COMMIT's effect (10 R227). -/
def commitConfig (s : State) : State × Reply :=
  if s.es.unlocked.isNone then (s, locked)
  else if (tabGet [] s.es.staged 1).isEmpty = false ∧ s.es.run ≠ .tripped then (s, busyEpoch)
  else
    let diffs := changedBlocks s
    let cfg := s.es.staged.foldl (fun c e => putBlock c e.1 e.2) s.es.cfg
    let bs := configBytes cfg
    let (ok1, s1) := logChanges diffs s
    let (ok2, s2) := if ok1 then nvWrite 2 (4096 * (1 - s1.es.nvCopy)) (bs ++ b4 (crc32 bs)) s1 else (false, s1)
    if ok2 then
      let s3 := applyConfig cfg s2
      (logEv 0x0805 diffs.length s3.es.crc 0 s3, okWith (b4 diffs.length ++ b4 s3.es.crc))
    else ({ s2 with es.staged := [] }, faulted)

/-- ES_COMMIT (10 R227). -/
def execEsCommit (mb : Fin 8) (s : State) : Host.Outcome State Fault Refusal :=
  runCommand 0x0805 mb (fun _ _ p s => checked (fixedPayload p 0 []) s (fun _ => commitConfig s)) s

/-- ES time at which a command was accepted (10 R220). -/
def acceptedEs (jseq : Nat) (s : State) : Nat :=
  match entryOf s jseq with
  | some e => s.es.time - (now s - e.acceptedAt)
  | none => s.es.time

/-- ES_REARM's effect (10 R220); causes are tested first. -/
def rearm (o : Nat × Nat) (jseq : Nat) (s : State) : State × Reply :=
  let s0 := takeCauses s
  if s0.es.run = .rearmPending then (cancelRearm 0 s0, notArmed)
  else if s0.es.powered ∧ s0.es.run = .cleared ∧ s0.es.cfg.rearmPath ≠ 0 then
    let (n, s1) := drawFree s0
    let tok := Config.rearmToken n % 2 ^ 32
    ({ s1 with es.run := .rearmPending, es.rearm := some ⟨o, tok, acceptedEs jseq s1⟩ }, okWith (b4 tok ++ b4 0))
  else (logEv 0x0807 0 0 0 s0, notArmed)

/-- ES_REARM (10 R220). -/
def execEsRearm (mb : Fin 8) (s : State) : Host.Outcome State Fault Refusal :=
  runCommand 0x0806 mb (fun o j p s => checked (fixedPayload p 0 []) s (fun _ => rearm (originPair s o) j s)) s

/-- ES_CONFIRM's judgement, in the order of R220, its instant being that of its acceptance; causes are tested first
(R218). -/
def confirm (o : Nat × Nat) (tok jseq : Nat) (s : State) : State × Reply :=
  let s0 := takeCauses s
  let t := acceptedEs jseq s0
  match s0.es.rearm with
  | none => (s0, notArmed)
  | some r =>
    if s0.es.run ≠ .rearmPending then (s0, notArmed)
    else if r.origin ≠ o then (cancelRearm 1 s0, failWith 0x12)
    else if r.token ≠ tok then (cancelRearm 1 s0, badField 0)
    else if t < r.tick + 100000000 then (cancelRearm 1 s0, notArmed)
    else if r.tick + 2000000000 < t then (cancelRearm 2 s0, notArmed)
    else (esGrant 1 s0, ok)

/-- ES_CONFIRM (10 R220). -/
def execEsConfirm (mb : Fin 8) (s : State) : Host.Outcome State Fault Refusal :=
  runCommand 0x0807 mb (fun o j p s =>
    checked (fixedPayload p 8 [rsv p 4 4]) s (fun _ => confirm (originPair s o) (u32 p 0) j s)) s

/-- ES_TRIP (10 R215): HOST_TRIP arises. -/
def execEsTrip (mb : Fin 8) (s : State) : Host.Outcome State Fault Refusal :=
  runCommand 0x0808 mb (fun _ _ p s => checked (fixedPayload p 0 []) s (fun _ => (esArise 12 s, ok))) s

/-- No password slot is set. -/
def allUnset (s : State) : Bool := (List.range 4).all (fun i => (tabGet none s.es.passwords i).isNone)

/-- ES_SET_PASSWORD's effect (10 R224, R228). The change-log entry and the slot are written; if either write fails,
nothing changes (11 R244) and the unlock is not extended (R225). -/
def setPassword (slot : Nat) (pw : Bytes) (s : State) : State × Reply :=
  let firstTime := allUnset s && decide (slot = 0) && !s.es.firstSet
  let allowed := firstTime || decide (s.es.unlocked = some 0 ∨ s.es.unlocked = some slot)
  if !allowed then (s, locked)
  else
    let (n, s1) := drawFree s
    let salt := fit 16 (Config.salt n)
    let hash := slotHash salt pw
    let old := match tabGet none s.es.passwords slot with
      | some x => crc32 x.hash
      | none => 0
    let (ok1, s2) := appendLog (s.es.unlocked.getD 0xFF) (0x10 + slot) old (crc32 hash) s1
    if !ok1 then (s2, faulted)
    else
      let (ok2, s3) := nvWrite 3 (64 * slot) (hash ++ salt) s2
      if ok2 then
        ({ s3 with
          es.passwords := tabSet none s3.es.passwords slot (some ⟨hash, salt⟩)
          es.firstSet := true
          es.unlockAt := s3.es.time }, ok)
      else ({ s3 with es.changelog := s.es.changelog, es.entry := s.es.entry }, faulted)

/-- ES_SET_PASSWORD (10 R224). -/
def execEsSetPassword (mb : Fin 8) (s : State) : Host.Outcome State Fault Refusal :=
  runCommand 0x0809 mb (fun _ _ p s =>
    checked (fixedPayload p 24 [(decide (u8 p 0 < 4), 0), rsv p 1 7]) s
      (fun _ => setPassword (u8 p 0) (slice p 8 16) s)) s

/-- ES_CHANGELOG_READ (10 R228). -/
def execEsChangelogRead (mb : Fin 8) (s : State) : Host.Outcome State Fault Refusal :=
  runCommand 0x080A mb (fun _ _ p s =>
    checked (fixedPayload p 0 []) s (fun _ =>
      (s, okWith (b4 s.es.changelog.length ++ b4 0 ++ fit 1536 (s.es.changelog.flatMap id))))) s

/-- ES_LEDGER_READ (10 Table SAFE-8). -/
def execEsLedgerRead (mb : Fin 8) (s : State) : Host.Outcome State Fault Refusal :=
  runCommand 0x080B mb (fun _ _ p s =>
    checked (fixedPayload p 8 [(decide (u8 p 0 < 128), 0), rsv p 1 7]) s (fun _ =>
      let q := u8 p 0
      (s, okWith ((List.range 3).flatMap (fun k => b8 (portSum s q k)) ++
        (List.range 3).flatMap (fun k => b8 (groupSum s (q / 8) k)))))) s

/-! #### The frame allowance (10 R214) -/

/-- One term of the allowance, none when its divisor is 0. -/
def capTerm (limit t w sumW : Nat) : Option Nat :=
  if w * sumW = 0 then none else some (32 * limit * t / (33 * w * sumW))

/-- w_c of a course: doubled by a double-pulse code. -/
def courseWeight (s : State) (c : Nat) : Nat :=
  tabGet 1 s.es.cfg.weights c * (if (progOf s c).dpEnable then 2 else 1)

/-- CAP_c (10 R214). -/
def capOf (s : State) (c : Nat) : Nat :=
  let t := 10 ^ 12 / frameRate s
  let g := c / 8
  let sumW := listSum ((List.range 8).map (fun i => courseWeight s (8 * g + i)))
  let terms := (List.range 3).flatMap (fun k =>
    let w := 32 * bucketNs s.es.cfg k
    [capTerm (portLimit s c k) t w (courseWeight s c), capTerm (groupLimit s g k) t w sumW])
  (terms.filterMap id).foldl min 65536

end Sys2Proof.Machine
end

