-- ==== Sys2Proof/Machine/Filters.lean ====
section
/-! DEFINITION. The filter and decimation chains and their detectors (03 R51 to R59), with FILT_CONFIG, FILT_CONTROL and
DET_CONFIG. -/

namespace Sys2Proof.Machine

open Sys2Proof

/-- Input sample period of a chain in ns: 50 for a PICK source, one round for a housekeeping channel (03 R52, R56). -/
def samplePeriod (x : Chain) : Nat := if x.source = 2 then 36000 else 50
/-- T_out in ns (03 R52). -/
def tOut (x : Chain) : Nat := x.cicDec * x.firDec * samplePeriod x
/-- Group delay Ng in input samples (03 R53). -/
def groupDelay (x : Chain) : Nat := 2 * (x.cicDec - 1) + x.cicDec * (x.firLen - 1) / 2
/-- U of R54: the outputs that carry UNSETTLED after a start or a switch. -/
def unsettledCount (x : Chain) : Nat := ceilDiv x.firLen x.firDec + 4

/-- A housekeeping conversion as an input sample: divided by 4, rounded half to even and saturated to 14 bits (03 R56). -/
def hkSample (code : Int) : Int := satS 14 (rne code 4)

/-- A conversion of channel `ch` enters the running chains whose source it is, at the end of its slot (03 R56). -/
def feedHk (ch : Nat) (code : Int) (s : State) : State :=
  forUpto 2 (fun c s => modChain c (fun x =>
    if x.running && decide (x.source = 2 ∧ x.hkCh = ch) then { x with held := x.held ++ [hkSample code] } else x) s) s

/-- The input samples of an output: those of the pick-off stream and the housekeeping samples held, the source in force
having come last. -/
def inputSamples (x : Chain) (stream : List (BitVec 14)) : List Int :=
  let xs := stream.map BitVec.toInt
  if x.source = 2 then xs ++ x.held else x.held ++ xs

/-! #### CIC and FIR (03 R51, Table LOOP-2) -/

/-- The four integrators take one value, each adding the one before it, modulo 2^32. -/
def integrate : List Nat → Nat → List Nat
  | [], _ => []
  | a :: l, v =>
    let a' := (a + v) % 2 ^ 32
    a' :: integrate l a'

/-- The four combs take one value: what leaves them, and their delays after. -/
def combs : List Nat → Nat → List Nat × Nat
  | [], v => ([], v)
  | d :: l, v =>
    let r := combs l ((v + 2 ^ 32 - d) % 2 ^ 32)
    (v :: r.1, r.2)

/-- The CIC output of the sum leaving the combs. -/
def cicOut (dc v : Nat) : Int := rne (signed 32 v * 256) (dc ^ 4)

/-- Feed input samples; `n` counts those since the last CIC output. -/
def feed : Chain → Nat → List Int → Chain
  | x, _, [] => x
  | x, n, a :: l =>
    let x1 := { x with integ := integrate x.integ (unsigned 32 a) }
    if n + 1 = x.cicDec then
      let (comb, v) := combs x1.comb (nth x1.integ 3)
      feed { x1 with comb := comb, line := (cicOut x.cicDec v :: x1.line).take x.firLen } 0 l
    else feed x1 (n + 1) l

/-- Tap `i` of the symmetric FIR (03 R53). -/
def tapAt (x : Chain) (i : Nat) : Int := nthI x.taps (if i < x.firLen / 2 then i else x.firLen - 1 - i)

/-- The FIR accumulator, LSB 2^-25 code. -/
def firSum (x : Chain) : Int := listSumI ((List.range x.firLen).map (fun i => tapAt x i * nthI x.line i))

/-! #### Detectors (03 R58, R59) -/

/-- The envelope takes a value. -/
def envelope (d : DetSettings) (e a : Nat) : Nat := if e ≤ a then a else e - e / 2 ^ d.decayShift

/-- The threshold state after `x` (03 R58). -/
def threshold (d : DetSettings) (high : Bool) (x : Int) : Bool :=
  if !d.thEnable then high
  else if d.thLevel + d.thHyst ≤ x then true
  else if x ≤ d.thLevel - d.thHyst then false
  else high

/-- The detectors take a settled output. -/
def detect (x : Chain) (v : Int) : Chain :=
  let sum := x.rmsSum + v.natAbs ^ 2
  let n := x.rmsCount + 1
  let full := decide (2 ^ x.det.rmsLog2n ≤ n)
  let top : Int := match x.peakMax with
    | some m => max m v
    | none => v
  let bottom : Int := match x.peakMin with
    | some m => min m v
    | none => v
  { x with
    peakMax := some top
    peakMin := some bottom
    rms := if full then isqrt (sum / n) else x.rms
    rmsSum := if full then 0 else sum
    rmsCount := if full then 0 else n
    env := if x.det.envOmega then x.env else envelope x.det x.env (v - x.det.envCenter).natAbs
    high := threshold x.det x.high v }

/-- DET_CONFIG takes effect at the next output and restarts the RMS block (03 R59). -/
def takeDet (x : Chain) : Chain :=
  match x.detNew with
  | some d => { x with det := d, detNew := none, rmsSum := 0, rmsCount := 0 }
  | none => x

/-- One output of a chain from the samples that feed it (03 R51, R54). -/
def chainStep (x : Chain) (samples : List Int) : Chain :=
  let y := takeDet (feed x 0 samples)
  let raw := rne (firSum y) (2 ^ 17)
  let v := satS 24 raw
  let settled := decide (y.unsettled = 0)
  let z : Chain :=
    { y with
      out := v, settled := settled, unsettled := y.unsettled - 1, count := y.count + 1, fresh := true,
      held := [], sat := y.sat || decide (v ≠ raw) }
  if settled then detect z v else z

/-- A start or a source switch resets the detectors (03 R59). -/
def resetDetectors (x : Chain) : Chain :=
  { x with
    peakMax := none, peakMin := none, rmsSum := 0, rmsCount := 0, env := 0, high := false,
    unsettled := unsettledCount x }

/-- START of a chain (03 R54, R55). -/
def startChain (source hkCh jseq : Nat) (x : Chain) : Chain :=
  resetDetectors { x with
    running := true, source := source, hkCh := hkCh, startedBy := jseq, integ := [0, 0, 0, 0], comb := [0, 0, 0, 0],
    line := [], held := [], count := 0, fresh := false, settled := false }

/-! #### Commands (03 Tables LOOP-9 to LOOP-11) -/

/-- The loop mode uses a chain (03 Table LOOP-1). -/
def modeUses (mode c : Nat) : Bool := decide (c = 0 ∨ mode = 0)

/-- The loop uses a chain and is not STOPPED (03 R57). -/
def loopHolds (s : State) (c : Nat) : Bool :=
  decide (s.loop.run ≠ .stopped) &&
    (match s.loop.config with
     | some cfg => modeUses cfg.mode c
     | none => false)

/-- Dc of a CIC_DEC code, and L of a FIR_LEN code. -/
def decOf (code : Nat) : Nat := nth [4, 8, 16] code
/-- L of a FIR_LEN code. -/
def lenOf (code : Nat) : Nat := nth [32, 64, 128] code

/-- A field of `n` bytes holds a signed `w`-bit value, sign-extended. -/
def signExt (p : Bytes) (off n w : Nat) : Bool :=
  let v := signed (8 * n) (le p off n)
  decide (satS w v = v)

/-- FILT_CONFIG's effect (03 R52, R55). -/
def filtConfig (p : Bytes) (s : State) : State × Reply :=
  let c := u8 p 0
  let len := lenOf (u8 p 2)
  if decOf (u8 p 1) * u8 p 3 < 100 then (s, badField 3)
  else if (chain s c).running then (s, busyEpoch)
  else
    (modChain c (fun x => { x with
      configured := true, cicDec := decOf (u8 p 1), firLen := len, firDec := u8 p 3,
      taps := (List.range (len / 2)).map (fun i => s32 p (8 + 4 * i)) }) s, ok)

/-- FILT_CONFIG (03 R55). -/
def execFiltConfig (mb : Fin 8) (s : State) : Host.Outcome State Fault Refusal :=
  runCommand 0x0601 mb (fun _ _ p s =>
    let len := lenOf (u8 p 2)
    checked (varPayload p 8 [(decide (u8 p 0 < 2), 0), (decide (u8 p 1 < 3), 1), (decide (u8 p 2 < 3), 2),
      (within 1 (u8 p 3) 32, 3), rsv p 4 4] (8 + 2 * len)
      ((List.range (len / 2)).map (fun i => (signExt p (8 + 4 * i) 4 18, 8 + 4 * i)))) s
      (fun _ => filtConfig p s)) s

/-- The chains a CHAIN field names. -/
def chainsOf (c : Nat) : List Nat := if c = 2 then [0, 1] else [c]

/-- The action would stop, restart or switch a chain that the loop uses while it is not STOPPED (03 R57). -/
def loopRefuses (s : State) (action c : Nat) : Bool :=
  loopHolds s c && ((chain s c).running || decide (action = 2))

/-- FILT_CONTROL's effect (03 R55, R57). -/
def filtControl (j : Nat) (p : Bytes) (s : State) : State × Reply :=
  let cs := chainsOf (u8 p 0)
  let all (f : Chain → Chain) : State := forEach cs (fun c s => modChain c f s) s
  if cs.any (loopRefuses s (u8 p 1)) then (s, busyEpoch)
  else
    match u8 p 1 with
    | 0 => (all (fun x => { x with running := false, fresh := false, held := [] }), ok)
    | 1 =>
      if cs.all (fun c => (chain s c).configured) then (all (startChain (u8 p 2) (u8 p 3) j), ok) else (s, notArmed)
    | _ => (all (fun x => resetDetectors { x with source := u8 p 2, hkCh := u8 p 3 }), ok)

/-- DET_CONFIG (03 R59). -/
def execDetConfig (mb : Fin 8) (s : State) : Host.Outcome State Fault Refusal :=
  runCommand 0x0603 mb (fun _ _ p s =>
    checked (fixedPayload p 24 [(decide (u8 p 0 < 2), 0), (decide (u8 p 1 ≤ 16), 1), (decide (u8 p 2 < 2), 2),
      (within 1 (u8 p 3) 16, 3), (signExt p 4 4 24, 4), (signExt p 8 4 24, 8), (decide (u32 p 12 < 2 ^ 23), 12),
      (decide (u8 p 16 < 2), 16), rsv p 17 7]) s
      (fun _ =>
        let d : DetSettings :=
          { rmsLog2n := u8 p 1, envOmega := decide (u8 p 2 = 1), decayShift := u8 p 3, envCenter := s32 p 4,
            thLevel := s32 p 8, thHyst := ((u32 p 12 : Nat) : Int), thEnable := decide (u8 p 16 = 1) }
        (modChain (u8 p 0) (fun x => { x with detNew := some d }) s, ok))) s

end Sys2Proof.Machine
end

