-- ==== Sys2Proof/Machine/Trig.lean ====
section
/-! DEFINITION. Sine, cosine and the four-quadrant arctangent in fixed point, for the scan loop (03 Table LOOP-1, R62,
R75). Values carry 96 fraction bits, far below any rounding that follows (DEDUCED, log 34). -/

namespace Sys2Proof.Machine

/-- 2^96. -/
def one96 : Int := 2 ^ 96
/-- pi in units of 2^-96. -/
def pi96 : Int := 248902613312231085230521944622

/-- Terms of the cosine and sine series of `t`, from term `k` on: the sum of the next `n` terms that step by two. -/
def series (t : Int) : Nat → Nat → Int → Int
  | 0, _, _ => 0
  | n + 1, k, term =>
    term + series t n (k + 2) (-(term * t / one96 * t / one96) / (((k + 1) * (k + 2) : Nat) : Int))

/-- Cosine of `t` radians for `t` from 0 to pi / 2, in units of 2^-96. -/
def cos96 (t : Int) : Int := series t 26 0 one96
/-- Sine of `t` radians for `t` from 0 to pi / 2. -/
def sin96 (t : Int) : Int := series t 26 1 t

/-- Sine of the fraction `num / den` of a turn. -/
def sinTurn (num den : Nat) : Int :=
  let q := 4 * (num % den) / den
  let r := 4 * (num % den) - q * den
  let t := pi96 * (r : Int) / (2 * (den : Int))
  match q with
  | 0 => sin96 t
  | 1 => cos96 t
  | 2 => -sin96 t
  | _ => -cos96 t

/-- Cosine of the fraction `num / den` of a turn. -/
def cosTurn (num den : Nat) : Int := sinTurn (4 * num + den) (4 * den)

/-- Largest angle below a quarter turn, in 2^-32 turn, whose tangent does not exceed `y / x`, bit by bit. -/
def atanBits (y x : Nat) : Nat → Nat → Nat
  | 0, a => a
  | n + 1, a =>
    let b := a + 2 ^ n
    atanBits y x n (if sinTurn b (2 ^ 32) * (x : Int) ≤ cosTurn b (2 ^ 32) * (y : Int) then b else a)

/-- Angle of a first-quadrant vector, in 2^-32 turn, rounded down. -/
def atanFirst (y x : Nat) : Nat := if x = 0 then 2 ^ 30 else if y = x then 2 ^ 29 else atanBits y x 30 0

/-- The vector lies on an axis or a diagonal, where its angle is a whole number of 2^-32 turn. -/
def atanExact (y x : Int) : Bool := decide (y = 0 ∨ x = 0 ∨ y.natAbs = x.natAbs)

/-- The unsigned 32-bit fraction of a turn at which the vector (x, y) points, rounded down; 0 for the zero vector. -/
def atan2Turn (y x : Int) : Nat :=
  let a : Int := ((atanFirst y.natAbs x.natAbs : Nat) : Int)
  let up : Int := if atanExact y x then a else a + 1
  let v : Int :=
    if 0 ≤ x then (if 0 ≤ y then a else -up)
    else if 0 ≤ y then 2 ^ 31 - up else 2 ^ 31 + a
  if y = 0 ∧ x = 0 then 0 else (v % (2 ^ 32 : Int)).toNat

end Sys2Proof.Machine
end

