-- ==== Sys2Proof/Machine/Loop.lean ====
section
/-! DEFINITION. The scan loop (03 R60 to R79): estimator, reference, error, the 8-stage control engine, loop states,
coefficient banks, drive outputs, loop faults, and the loop commands. -/

namespace Sys2Proof.Machine

open Sys2Proof

/-- The loop settings in force; the defaults of the structure before any LOOP_CONFIG, when the loop cannot start. -/
def loopCfg (s : State) : LoopConfig := s.loop.config.getD {}

/-- T_c in ns (03 R60). -/
def controlPeriodNs (s : State) : Nat := (loopCfg s).k * tOut (chain s 0)

/-- An exact value as numerator and positive denominator. -/
structure Exact where
  /-- numerator -/
  num : Int := 0
  /-- denominator -/
  den : Nat := 1
  deriving DecidableEq, Repr

/-- `v * 2 ^ e` rounded half to even, for `v` exact. -/
def rneShift (v : Exact) (e : Int) : Int :=
  if 0 ≤ e then rne (v.num * 2 ^ e.toNat) v.den else rne v.num (v.den * 2 ^ (-e).toNat)

/-- `m * 2 ^ e` rounded half to even, for an integer. -/
def rneInt (m e : Int) : Int := rneShift ⟨m, 1⟩ e

/-- The absolute value of an exact number exceeds a whole number. -/
def exceeds (v : Exact) (n : Nat) : Bool := decide (n * v.den < v.num.natAbs)

/-! #### Estimator (03 R61) -/

/-- Wrap a phase difference in LSB of 2^-24 count to half a turn either way. -/
def wrap56 (d : Int) : Int :=
  let m : Int := (turn24 : Nat)
  let r := d % m
  if r < m / 2 then r else r - m

/-- The largest angular velocity, 255.99 counts per ns, in LSB of 2^-32 count per ns, rounded half to even (02 Table
ANGL-3; DESIGN CHOICE: the table does not place 255.99 in the format, log 97). -/
def omegaTop : Int := rne (25599 * 2 ^ 32) 100

/-- An angular velocity in the format of Table ANGL-3: limited to 0 to 255.99 counts per ns. -/
def satOmega (v : Int) : Int := max 0 (min omegaTop v)

/-- Prediction of phase and velocity over `tn / td` ns. -/
def predict (l : LoopState) (tn td : Nat) : Int × Int :=
  (rne (l.th * (2 ^ 25 * (td : Int) ^ 2) + l.w * (2 ^ 17 * (tn : Int) * td) + l.a * (tn : Int) ^ 2)
      (2 ^ 25 * td ^ 2) % ((turn24 : Nat) : Int),
    satOmega (rne (l.w * (2 ^ 16 * (td : Int)) + l.a * tn) (2 ^ 16 * td)))

/-- The estimate after `tn / td` ns with a measurement, or without. -/
def estimate (cfg : LoopConfig) (tn td : Nat) (thm : Option Int) (l : LoopState) : LoopState :=
  let (tp, wp) := predict l tn td
  match thm with
  | none => { l with th := tp, w := wp }
  | some m =>
    let r := wrap56 (m - tp)
    { l with
      th := rne (tp * 2 ^ 17 + (cfg.g1 : Int) * r) (2 ^ 17) % ((turn24 : Nat) : Int)
      w := satOmega (rne (wp * (2 ^ 9 * (tn : Int)) + (cfg.g2 : Int) * r * td) (2 ^ 9 * tn))
      a := satS 41 (rne (l.a * (tn : Int) ^ 2 + (cfg.g3 : Int) * r * 2 ^ 7 * (td : Int) ^ 2) (tn ^ 2)) }

/-- The electrical phase of a sine and cosine pair, within the 2 counts of Table LOOP-1: the error is free (log 35). The
exact phase lies in the count above what `atan2Turn` gives, so -1 to 2 are all the counts within 2 of it. -/
def sincosPhase (s : State) : Nat :=
  let y := (chain s 1).out
  let x := (chain s 0).out
  let e := Config.atanError y x
  (atan2Turn y x + turn + (if atanExact y x then e % 5 else e % 4 + 1) - 2) % turn

/-- K_POS times a pick-off difference, in LSB of 2^-24 count (03 Table LOOP-1). -/
def mirrorMeasure (s : State) : Int :=
  let cfg := loopCfg s
  let d := cfg.xEnd - cfg.xStart
  let v := ((chain s 0).out - cfg.xStart) * (s.set.scan.forwardSpan : Int) * 2 ^ 24
  if d < 0 then rne (-v) d.natAbs else rne v (max 1 d.natAbs)

/-- The estimator of ROTOR_SINCOS: cycles are counted by the wrap of the electrical phase. -/
def estimateSincos (t : Nat) (s : State) : LoopState :=
  let cfg := loopCfg s
  let phi := sincosPhase s
  let l := s.loop
  let step : Int := match l.lastPhi with
    | some q => if phi + 2 ^ 31 ≤ q then 1 else if q + 2 ^ 31 ≤ phi then -1 else 0
    | none => 0
  let k := (((l.cycle : Int) + step) % (cfg.cycles : Int)).toNat
  estimate cfg t 1 (some (rne (((lsb24 * (turn * k + phi) : Nat)) : Int) cfg.cycles))
    { l with cycle := k, lastPhi := some phi }

/-- The estimator of ROTOR_SINGLE at sample instant `ts`, a period of `t` after the previous one: the update is made at
the last crossing of the period and extrapolated (03 R61; DESIGN CHOICE: the spec says nothing of two crossings in one
period, log 98). A crossing later than the sample instant waits for its period. -/
def estimateSingle (t ts : Nat) (s : State) : LoopState :=
  let cfg := loopCfg s
  let l := { s.loop with crossings := s.loop.crossings.filter (fun x => decide (64 * ts < x.1)) }
  match (s.loop.crossings.filter (fun x => decide (x.1 ≤ 64 * ts ∧ 64 * ts < x.1 + 64 * t))).getLast? with
  | some (at64, thm) =>
    let n := at64 + 64 * t - 64 * ts
    let l1 := estimate cfg n 64 (some (thm : Int)) l
    if n = 64 * t then l1 else estimate cfg (64 * t - n) 64 none l1
  | none => estimate cfg t 1 none l

/-- The estimator of one control period with a settled input of sample instant `ts`, in every loop state (03 R61). -/
def runEstimator (ts : Nat) (s : State) : LoopState :=
  let t := controlPeriodNs s
  let fwd := decide (s.loop.thetaRef % ((turn24 : Nat) : Int) < ((s.set.scan.forwardSpan * lsb24 : Nat) : Int))
  match (loopCfg s).mode with
  | 0 => estimateSincos t s
  | 1 => estimateSingle t ts s
  | _ => estimate (loopCfg s) t 1 (some (if fwd then mirrorMeasure s else s.loop.thetaRef)) s.loop

/-! #### Reference and error (03 R62, 13 R307) -/

/-- The target of θ_ref on the ring at an instant, in LSB of 2^-24 count; none standing alone (13 R307). The master's own
target is its Φ plus its KEEP_OUT (03 R62, 13 R308, DEDUCED, log 40). -/
def ringTarget (s : State) (t : Int) : Option Int :=
  match s.ring.phase with
  | none => none
  | some p =>
    if ringMember s && (s.ring.sending || decide (s.ring.syncRate = frameRate s)) then
      let keep := match s.ring.entries.find? (fun e => e.node == ownNode s) with
        | some e => e.keepOut
        | none => 0
      some (((p.phase + keep : Nat) : Int) * (lsb24 : Nat) + rne (p.omega * (16 * t - p.at16)) 4096)
    else none

/-- Advance θ_ref by a period, moving it toward the ring's target by at most PHASE_SLEW counts (03 R62). -/
def advanceRef (ts : Nat) (s : State) : LoopState :=
  let l := s.loop
  let r := l.thetaRef + rne ((omegaRef s * controlPeriodNs s : Nat) : Int) 256
  match ringTarget s (ts : Int) with
  | none => { l with thetaRef := r % ((turn24 : Nat) : Int) }
  | some g =>
    let d := wrap56 (g - r)
    let slew : Int := (((loopCfg s).phaseSlew * lsb24 : Nat) : Int)
    let mv := max (-slew) (min slew d)
    { l with thetaRef := (r + mv) % ((turn24 : Nat) : Int) }

/-- The flyback fraction of the trajectory in units of 2^-96: u, or (1 - cos(pi u)) / 2 (03 R62). -/
def flyback (traj num den : Nat) : Int :=
  if traj = 0 then (num : Int) * one96 / (den : Int) else (one96 - cosTurn num (2 * den)) / 2

/-- The error of MIRROR mode: (p(θ_ref) - x0) * K_POS (03 R62). -/
def mirrorError (s : State) : Exact :=
  let cfg := loopCfg s
  let fs := s.set.scan.forwardSpan
  let phi := (s.loop.thetaRef % ((turn24 : Nat) : Int)).toNat
  let x0 := (chain s 0).out
  let d := cfg.xEnd - cfg.xStart
  let sign (v : Exact) : Exact := if d < 0 then ⟨-v.num, v.den⟩ else v
  if phi < fs * lsb24 then
    sign ⟨(phi : Int) * d - (x0 - cfg.xStart) * ((fs * lsb24 : Nat) : Int), lsb24 * max 1 d.natAbs⟩
  else
    let u := flyback cfg.traj (phi - fs * lsb24) (max 1 (turn24 - fs * lsb24))
    sign ⟨((cfg.xEnd - x0) * one96 - d * u) * (fs : Int), one96.toNat * max 1 d.natAbs⟩

/-- The error e of the period, saturated (03 R62). -/
def loopError (s : State) : Exact :=
  let cfg := loopCfg s
  let lim : Int := 2 ^ 31 - 1
  let raw : Exact :=
    if cfg.mode = 2 then mirrorError s
    else
      let vel := cfg.velW * ((omegaRef s : Int) - s.loop.w) * (controlPeriodNs s : Int)
      let pos := if s.loop.run = .service ∨ s.loop.run = .manual then wrap56 (s.loop.thetaRef - s.loop.th) else 0
      ⟨pos * 2 ^ 24 + vel, 2 ^ 48⟩
  if lim * raw.den < raw.num then ⟨lim, 1⟩ else if raw.num < -(lim * raw.den) then ⟨-lim, 1⟩ else raw

/-! #### Stage arithmetic (03 R63 to R65) -/

/-- Saturation to `n` bits, and whether it acted. -/
def satFlag (n : Nat) (v : Int) : Int × Bool := (satS n v, decide (satS n v ≠ v))

/-- One addition in the 40-bit accumulator (03 R64). -/
def accAdd (x : Int × Bool) (v : Int) : Int × Bool :=
  let r := satFlag 40 (x.1 + v)
  (r.1, x.2 || r.2)

/-- What a stage leaves: its states, its output mantissa, whether that saturated, whether that or a preset did, whether
the accumulator did. -/
structure StageOut where
  /-- states after the period -/
  st : StageState
  /-- output mantissa -/
  out : Int
  /-- the output saturated -/
  osat : Bool
  /-- SAT -/
  sat : Bool
  /-- ACC -/
  acc : Bool
  deriving DecidableEq, Repr

/-- The forward part of a stage in units of its output mantissa (03 R68). -/
def forwardPart (q15 : Bool) (c : StageCoef) (gin : Int) (st : StageState) (x : Int) : Int :=
  let b := c.b0 * x + c.b1 * st.x1 + c.b2 * st.x2
  if q15 then rneInt b ((c.pshift : Int) - 15) else rneInt b (gin - c.exp - 16)

/-- The preset of an integrator to a target code (03 R68). -/
def presetY1 (q15 : Bool) (c : StageCoef) (gin : Int) (st : StageState) (x target : Int) : Int × Bool :=
  satFlag 24 (rneInt target (if q15 then 0 else -c.exp) - forwardPart q15 c gin st x)

/-- One stage of a period (03 R63, R64), its integrator preset first where one is due. -/
def runStage (q15 : Bool) (c : StageCoef) (gin : Int) (preset : Option Int) (st : StageState) (x : Int) : StageOut :=
  let (y1, psat) := match preset with
    | some t => presetY1 q15 c gin st x t
    | none => (st.y1, false)
  let (m, sat, acc) :=
    if q15 then
      let a := [c.b0 * x, c.b1 * st.x1, c.b2 * st.x2, -(c.a1 * y1), -(c.a2 * st.y2)].foldl accAdd (0, false)
      let r := satFlag 16 (rneInt a.1 ((c.pshift : Int) - 15))
      (r.1, r.2, a.2)
    else
      let b := c.b0 * x + c.b1 * st.x1 + c.b2 * st.x2
      let a := c.a1 * y1 + c.a2 * st.y2
      let d := gin - c.exp
      let v := if 0 ≤ d then rneInt (b * 2 ^ d.toNat - a) (-16) else rneInt (b - a * 2 ^ (-d).toNat) (d - 16)
      let r := satFlag 18 v
      (r.1, r.2, false)
  ⟨{ x1 := x, x2 := st.x1, y1 := m, y2 := y1 }, m, sat, sat || psat, acc⟩

/-- What the stages leave. -/
structure EngineOut where
  /-- states, in order -/
  states : List StageState := []
  /-- output mantissa of the last stage run -/
  out : Int := 0
  /-- SAT bits -/
  sat : Nat := 0
  /-- ACC bits -/
  acc : Nat := 0
  /-- the output of the last stage saturated -/
  lastSat : Bool := false
  deriving DecidableEq, Repr

/-- Run the stages from number `k` on; the preset goes to the last. -/
def runStages (q15 : Bool) (preset : Option Int) : Nat → List StageCoef → List StageState → Int → Int → EngineOut
  | _, [], sts, _, x => { states := sts, out := x }
  | k, c :: cs, sts, gin, x =>
    let r := runStage q15 c gin (if cs.isEmpty then preset else none) (sts.headD {}) x
    let e := runStages q15 preset (k + 1) cs (sts.drop 1) c.exp r.out
    { states := r.st :: e.states, out := e.out, sat := e.sat ||| (if r.sat then 2 ^ k else 0),
      acc := e.acc ||| (if r.acc then 2 ^ k else 0), lastSat := if cs.isEmpty then r.osat else e.lastSat }

/-- The coefficient set a format and a bank select. -/
def setIn (s : State) (q15 : Bool) (bank : Nat) : CoefSet := tabGet {} s.loop.sets (if q15 then 2 else bank)
/-- The coefficient set in force. -/
def setNow (s : State) : CoefSet := setIn s s.loop.q15 s.loop.bank

/-- The stages of a set. -/
def stagesOf (c : CoefSet) : List StageCoef := (List.range c.nStages).map (fun k => c.stages.getD k {})
/-- The integrator stage of a set. -/
def integratorOf (c : CoefSet) : StageCoef := c.stages.getD (c.nStages - 1) {}

/-- The input mantissa of stage 0 (03 R63, R64). -/
def inputMantissa (q15 : Bool) (c : CoefSet) (e : Exact) : Int × Bool :=
  if q15 then satFlag 16 (rneShift e (15 - c.expIn)) else satFlag 18 (rneShift e (-c.expIn))

/-- The DAC code of an integrator output (03 R65). -/
def dacCode (q15 : Bool) (g m : Int) : Int × Bool := satFlag 16 (if q15 then m else rneInt m g)

/-! #### Conversions between formats (03 R68) -/

/-- Exponent of the signal in front of stage `k`. -/
def expBefore (c : CoefSet) (k : Nat) : Int := if k = 0 then c.expIn else (c.stages.getD (k - 1) {}).exp

/-- A mantissa of the old format in the new one: exponents `go` and `gn`, and the width of the new mantissa. -/
def convertM (qo qn : Bool) (go gn : Int) (w : Nat) (m : Int) : Int × Bool :=
  satFlag w (rneInt m ((go - (if qo then 15 else 0)) - (gn - (if qn then 15 else 0))))

/-- Convert the states of stage `k`; a stage absent in either set starts from zero. -/
def convertStage (qo : Bool) (co : CoefSet) (qn : Bool) (cn : CoefSet) (k : Nat) (st : StageState) :
    StageState × Bool :=
  if co.nStages ≤ k ∨ cn.nStages ≤ k then ({}, false)
  else
    let wx := if qn then 16 else 18
    let wy := if k + 1 = cn.nStages then 24 else wx
    let fx := convertM qo qn (expBefore co k) (expBefore cn k) wx
    let fy := convertM qo qn (expBefore co (k + 1)) (expBefore cn (k + 1)) wy
    let (x1, a) := fx st.x1
    let (x2, b) := fx st.x2
    let (y1, c) := fy st.y1
    let (y2, d) := fy st.y2
    ({ x1 := x1, x2 := x2, y1 := y1, y2 := y2 }, a || b || c || d)

/-- Put another coefficient set in force, its states converted; `preset` names the code the integrator is to give. -/
def convertTo (q15 : Bool) (bank : Nat) (preset : Option Int) (s : State) : State :=
  let r := (List.range 8).map (fun k =>
    convertStage s.loop.q15 (setNow s) q15 (setIn s q15 bank) k (s.loop.stages.getD k {}))
  { s with
    loop.q15 := q15
    loop.bank := bank
    loop.stages := r.map (fun e => e.1)
    loop.sat := s.loop.sat ||| bitmap (r.map (fun e => e.2))
    loop.preset := preset }

/-! #### Drive outputs (03 R74, R75) -/

/-- The code on DRV0 now: held, or on the straight line over T_c, stepped every 500 ns with each code rounded (03
R74). -/
def drv0Now (s : State) : Int :=
  let tc := controlPeriodNs s
  let t := (now s - s.loop.rampAt) / 500 * 500
  if (loopCfg s).interp && decide (t < tc) then
    rne (s.loop.rampFrom * ((tc - t : Nat) : Int) + s.loop.drv0 * (t : Int)) tc
  else s.loop.drv0

/-- The code on DRV1 for a code on DRV0; it changes with the code in force and does not follow the ramp (03 R74; DESIGN
CHOICE: the spec gives DRV1 no ramp, log 99). -/
def drv1For (cfg : LoopConfig) (code : Int) : Int :=
  match cfg.drv1Mode with
  | 0 => 0
  | 1 => satS 16 (-code)
  | _ => cfg.drv1Value

/-- The PWM duty of phase `i` in ticks for a drive code and the phase now (03 R75). -/
def pwmDuty (s : State) (code : Int) (i : Nat) : Nat :=
  let cfg := loopCfg s
  let phase := s.loop.th.toNat * cfg.polePairs + cfg.commOffset * lsb24
  let sn := sinTurn (3 * phase + turn24 * i) (3 * turn24)
  (rne ((cfg.pwmPeriod : Int) * (32768 * one96 + code * sn)) (2 * 32768 * one96.toNat)).toNat

/-- The duties of the code in force follow the phase: they are computed at each period start and load at the next PWM
cycle (03 R75). -/
def commutate (s : State) : State :=
  { s with loop.dutyNew :=
      if (loopCfg s).pwm && s.loop.driveOn then some ((List.range 3).map (pwmDuty s s.loop.drv0)) else none }

/-- Put a drive code on the outputs; a ramp begins at the previous code. -/
def applyDrive (code : Int) (s : State) : State :=
  commutate { s with
    loop.rampFrom := s.loop.drv0
    loop.rampAt := now s
    loop.drv0 := code
    loop.drv1 := drv1For (loopCfg s) code
    loop.driveOn := true }

/-- The drive goes off. -/
def driveOff (s : State) : State :=
  { s with
    loop.drv0 := 0
    loop.drv1 := 0
    loop.rampFrom := 0
    loop.rampAt := now s
    loop.next := none
    loop.driveOn := false
    loop.offNext := false
    loop.duty := [0, 0, 0]
    loop.dutyNew := none
    loop.dacRounds := 0
    loop.pwmCycles := 0 }

/-! #### Loop faults (03 R76, R77) -/

/-- Number of a loop state (03 Table LOOP-14). -/
def loopNo : LoopRun → Nat
  | .stopped => 0 | .startup => 1 | .service => 2 | .manual => 3 | .fault => 4 | .recovery => 5 | .selftest => 6

/-- A loop fault is detected: it is counted and logged, the supervisor's input rises, the predictor stops and no further
angle update is sent; one that is on the Mortar link at this instant is dropped (DESIGN CHOICE, log 100). The state changes
at the next period start. -/
def loopFault (cause : Nat) (s : State) : State :=
  stopPredictor (logEv 0x0601 cause s.loop.period (loopNo s.loop.run)
    { s with
      loop.faultNew := some cause
      loop.faultCause := cause
      loop.faults := sat32 (s.loop.faults + 1)
      loop.esInput := true
      loop.service := 0
      loop.update := none
      loop.sent := [] })

/-- Stall detection is armed in a state (03 Table LOOP-8). -/
def stallArmed (r : LoopRun) : Bool := decide (r = .service ∨ r = .manual ∨ r = .recovery)

/-- Stall detection at an evaluation of the envelope of chain `c`. After a detection the count starts anew, as it does for
each fault of Table LOOP-8 (DESIGN CHOICE, log 101). -/
def stallCheck (c : Nat) (s : State) : State :=
  let cfg := loopCfg s
  if !stallArmed s.loop.run || decide (c ≠ cfg.stallChain) then s
  else if (chain s c).env < cfg.stallLevel then
    if cfg.stallCount ≤ s.loop.stall + 1 then loopFault 1 { s with loop.stall := 0 }
    else { s with loop.stall := s.loop.stall + 1 }
  else { s with loop.stall := 0 }

/-- Tracking check of a period in SERVICE. -/
def trackCheck (e : Exact) (s : State) : State :=
  let cfg := loopCfg s
  if s.loop.run ≠ .service then s
  else if exceeds e cfg.trackBound then
    if cfg.trackCount ≤ s.loop.track + 1 then loopFault 2 { s with loop.track := 0 }
    else { s with loop.track := s.loop.track + 1 }
  else { s with loop.track := 0 }

/-- Readback of the DAC on DRV0, in codes, at a housekeeping conversion (03 Table LOOP-8). -/
def dacCheck (readback : Int) (s : State) : State :=
  if !s.loop.driveOn || (loopCfg s).pwm then s
  else if (loopCfg s).dacTol < (readback - drv0Now s).natAbs then
    if 3 ≤ s.loop.dacRounds + 1 then loopFault 3 { s with loop.dacRounds := 0 }
    else { s with loop.dacRounds := s.loop.dacRounds + 1 }
  else { s with loop.dacRounds := 0 }

/-- The levels commanded in the middle of the cycle in progress: a centre-aligned pin is high there unless its duty is 0,
and low while the drive is off (03 R75, Table LOOP-8; DEDUCED, log 102). -/
def midLevels (s : State) : BitVec 3 :=
  let high (i : Nat) : Bool := s.loop.driveOn && decide (nth s.loop.duty i ≠ 0)
  BitVec.ofNat 3 (bitmap [high 0, high 1, high 2])

/-- PWM_CYCLE_START (03 R75, R76): the pin levels read in the middle of the cycle that ended are compared with those
commanded, and waiting duties load. -/
def execPwmCycleStart (levels : BitVec 3) (s : State) : Host.Outcome State Fault Refusal :=
  .next <|
    if !(loopCfg s).pwm || !s.power.main then s
    else
      let load (x : State) : State := { x with loop.duty := x.loop.dutyNew.getD x.loop.duty, loop.dutyNew := none }
      if !s.loop.driveOn then load s
      else if levels = midLevels s then load { s with loop.pwmCycles := 0 }
      else if 3 ≤ s.loop.pwmCycles + 1 then loopFault 3 (load { s with loop.pwmCycles := 0 })
      else load { s with loop.pwmCycles := s.loop.pwmCycles + 1 }

/-! #### Loop states (03 R69 to R72) -/

/-- The answer of a LOOP_CONTROL (03 Table LOOP-13). -/
def controlReply (s : State) : Bytes := b4 (wrap32 s.loop.period) ++ b1 (loopNo s.loop.run) ++ b1 s.loop.bank ++ b2 0

/-- Complete a LOOP_CONTROL. -/
def endControl (status jseq : Nat) (s : State) : State := finish jseq ⟨status, 0, controlReply s, 0⟩ s

/-- Enter a state; the counters of its conditions start anew, but that of the stall detection only where it was not
armed before. -/
def enterLoop (r : LoopRun) (s : State) : State :=
  { s with
    loop.run := r
    loop.settle := 0
    loop.stall := if stallArmed s.loop.run && stallArmed r then s.loop.stall else 0
    loop.track := 0
    loop.service := 0 }

/-- Enter STOPPED: the drive goes off and the predictor stops; an angle update sent or on the Mortar link is dropped
(DESIGN CHOICE, log 100). -/
def stopLoop (s : State) : State :=
  stopPredictor (driveOff (enterLoop .stopped
    { s with loop.update := none, loop.sent := [], loop.faultNew := none, loop.recovered := false }))

/-- Enter STARTUP: the start-up set, states zero (03 Tables LOOP-6, LOOP-7). th, w and a are those of the estimator, which
runs in every state (R61; DESIGN CHOICE: START sets none of them, log 103). -/
def startLoop (s : State) : State :=
  let s1 := enterLoop .startup s
  sendTc (controlPeriodNs s)
    { s1 with
      loop.q15 := true
      loop.stages := []
      loop.preset := none
      loop.integSat := false
      loop.period := 0
      loop.startupAt := now s
      loop.slowLogged := false
      loop.recovered := false
      loop.driveOn := true
      loop.thetaRef := if (loopCfg s).mode = 2 then 0 else s.loop.thetaRef }

/-- Each entry into SERVICE sets θ_ref to th in a rotor mode, standing alone (03 R62). -/
def alignRef (s : State) : State :=
  if (loopCfg s).mode ≠ 2 ∧ ringTarget s (now s : Int) = none then { s with loop.thetaRef := s.loop.th } else s

/-- Enter SERVICE from a Q15 state: convert and preset (03 Table LOOP-6). -/
def serveLoop (s : State) : State :=
  alignRef (enterLoop .service (convertTo false s.loop.bank (some s.loop.drv0) s))

/-- AUTO: enter SERVICE from MANUAL, the integrator preset to the last manual code (03 R70). -/
def autoLoop (s : State) : State :=
  alignRef (enterLoop .service { s with loop.preset := some s.loop.drv0 })

/-- Enter RECOVERY (03 Table LOOP-6). -/
def recoverLoop (s : State) : State :=
  let s1 := enterLoop .recovery (convertTo true s.loop.bank (some s.loop.drv0) s)
  sendTc (controlPeriodNs s) { s1 with loop.recovered := true, loop.driveOn := true }

/-- Enter FAULT (03 R69). -/
def faultLoop (s : State) : State :=
  let was := s.loop.run
  let s1 := { (enterLoop .fault s) with loop.next := none, loop.update := none }
  if was = .recovery then driveOff s1
  else if (loopCfg s).faultAction = 1 then { s1 with loop.offNext := true }
  else s1

/-- A bank swap (03 R71). -/
def swapBank (s : State) : State :=
  let b := 1 - s.loop.bank
  let sat := s.loop.integSat && !s.loop.q15
  let s1 := if s.loop.q15 then { s with loop.bank := b }
    else convertTo false b (if sat then some s.loop.drv0 else s.loop.preset) s
  logEv 0x0602 (b2n sat) b s.loop.period
    { s1 with loop.swaps := sat32 (s1.loop.swaps + 1), loop.integSat := s1.loop.integSat && s1.loop.q15 }

/-- An action is allowed by Table LOOP-7 in a state; a swap in every state. -/
def actionAllowed (r : LoopRun) (a : Nat) : Bool :=
  match a with
  | 0 => decide (r ≠ .stopped ∧ r ≠ .selftest)
  | 1 => decide (r = .stopped ∨ r = .fault)
  | 2 => decide (r = .stopped ∨ r = .service ∨ r = .manual)
  | 3 => decide (r = .manual)
  | 4 => true
  | _ => decide (r = .stopped)

/-- MANUAL takes effect: from STOPPED with states zero, else with the integrator frozen (03 Table LOOP-7, R70). -/
def manualLoop (drive : Int) (s : State) : State :=
  let s1 := enterLoop .manual s
  let s2 : State := if s.loop.run = .stopped then
      sendTc (controlPeriodNs s)
        { s1 with
          loop.q15 := false
          loop.stages := []
          loop.preset := none
          loop.integSat := false
          loop.period := 0
          loop.recovered := false }
    else s1
  { (applyDrive drive s2) with loop.next := none }

/-- The chains the loop mode uses run. -/
def chainsRun (s : State) : Bool :=
  (chain s 0).running && ((loopCfg s).mode != 0 || (chain s 1).running)

/-- Control periods start: their chains run and there are settings. -/
def hasPeriods (s : State) : Bool := s.loop.config.isSome && chainsRun s

/-- Take a pending action at a period start; `faulted` tells that a fault was detected in the period that ends. -/
def takeAction (faulted : Bool) (a : LoopAction) (s : State) : State :=
  if a.action = 4 then (if faulted then endControl 0x40 a.jseq s else endControl 0 a.jseq (swapBank s))
  else if !actionAllowed s.loop.run a.action || (decide (a.action = 1) && !chainsRun s) then endControl 0x20 a.jseq s
  else
    match a.action with
    | 0 => endControl 0 a.jseq (stopLoop s)
    | 1 => endControl 0 a.jseq (startLoop s)
    | 2 => endControl 0 a.jseq (manualLoop a.drive s)
    | 3 => endControl 0 a.jseq (autoLoop s)
    | _ => { (stopPredictor (driveOff (enterLoop .selftest s))) with loop.selftestOf := some a.jseq }

/-- Take every pending action, swaps of the same start before the rest (03 R72). -/
def takeActions (faulted : Bool) (s : State) : State :=
  let l := s.loop.actions
  let s1 := { s with loop.actions := [] }
  let s2 := forEach (l.filter (fun a => a.action == 4)) (takeAction faulted) s1
  forEach (l.filter (fun a => a.action != 4)) (takeAction faulted) s2

/-- The state table at a period start: a fault of the period that ended first, then the actions, then the settle condition
(03 Table LOOP-7). -/
def loopStates (s : State) : State :=
  let faulted := s.loop.faultNew.isSome
  let s1 := { s with loop.faultNew := none }
  let s2 := if s1.loop.run = .fault ∧ (loopCfg s1).faultAction = 2 ∧ s1.loop.recovered = false then recoverLoop s1
    else if faulted && decide (s1.loop.run ≠ .stopped ∧ s1.loop.run ≠ .fault ∧ s1.loop.run ≠ .selftest) then faultLoop s1
    else s1
  let s3 := takeActions faulted s2
  if (s3.loop.run = .startup ∨ s3.loop.run = .recovery) ∧ (loopCfg s3).settlePeriods ≤ s3.loop.settle then serveLoop s3
  else s3

/-! #### One control period (03 R60) -/

/-- The engine sends angle updates in this state (03 R69). -/
def sendsUpdates (r : LoopRun) : Bool := decide (r = .startup ∨ r = .service ∨ r = .manual ∨ r = .recovery)

/-- What the previous period computed takes effect: the drive code, and the angle update (03 R60, R33). -/
def releasePeriod (s : State) : State :=
  let s1 := match s.loop.next with
    | some u => if s.loop.driveOn then applyDrive u s else s
    | none => { s with loop.rampFrom := s.loop.drv0 }
  let s2 := commutate (if s1.loop.offNext then driveOff s1 else s1)
  { s2 with
    loop.next := none
    loop.update := none
    loop.sent := match s2.loop.update with
      | some u => if sendsUpdates s2.loop.run && s2.lanes.mortarUp then s2.loop.sent ++ [u] else s2.loop.sent
      | none => s2.loop.sent }

/-- The control engine takes each −E that has come and increments its index generation (02 R38). -/
def takeMinusE (s : State) : State :=
  let x := listSumI s.angle.toDieB * ((lsb24 : Nat) : Int)
  let move (m : Nat) : Nat := (((m : Int) + x) % ((turn24 : Nat) : Int)).toNat
  { s with
    angle.toDieB := []
    loop.th := (s.loop.th + x) % ((turn24 : Nat) : Int)
    loop.thetaM := move s.loop.thetaM
    loop.crossings := s.loop.crossings.map (fun e => (e.1, move e.2))
    loop.gen := (s.loop.gen + s.angle.toDieB.length) % 4 }

/-- The engine runs its stages on the error: the next drive code, except in MANUAL (03 R63 to R70). Saturation of stage
0's input sets SAT[0] (DESIGN CHOICE: R67 names outputs, conversions and presets only, log 104). -/
def runEngine (e : Exact) (s : State) : State :=
  let q := s.loop.q15
  let c := setNow s
  let manual := decide (s.loop.run = .manual)
  let cs := if manual then (stagesOf c).dropLast else stagesOf c
  let (x, isat) := inputMantissa q c e
  let r := runStages q (if manual then none else s.loop.preset) 0 cs s.loop.stages c.expIn x
  let (code, dsat) := dacCode q (integratorOf c).exp r.out
  { s with
    loop.stages := r.states
    loop.sat := s.loop.sat ||| r.sat ||| b2n isat
    loop.acc := s.loop.acc ||| r.acc
    loop.preset := if manual then s.loop.preset else none
    loop.integSat := if manual then s.loop.integSat else r.lastSat
    loop.drvSat := s.loop.drvSat || (dsat && !manual)
    loop.next := if manual then none else some code }

/-- Count a period for the settle condition, and for the supervisor's LOOP_FAULT (03 R69, 10 Table SAFE-1). -/
def countPeriod (e : Exact) (s : State) : State :=
  let cfg := loopCfg s
  let good := if cfg.mode = 2 then !exceeds e cfg.captureBound
    else decide (((omegaRef s : Int) - s.loop.w).natAbs ≤ 2 ^ 16 * cfg.speedWin)
  let n := if s.loop.run = .service then min 10 (s.loop.service + 1) else 0
  { s with
    loop.settle := if good then s.loop.settle + 1 else 0
    loop.service := n
    loop.esInput := s.loop.esInput && decide (n < 10) }

/-- The envelopes that follow |ω| take this period's velocity (03 Table LOOP-4). -/
def omegaEnvelopes (s : State) : State :=
  forUpto 2 (fun c s =>
    if (chain s c).det.envOmega && (chain s c).running then
      stallCheck c (modChain c (fun x => { x with env := envelope x.det x.env (s.loop.w.natAbs / 2 ^ 16) }) s)
    else s) s

/-- Two peaks of a chain, 0 while empty (03 Table LOOP-14). -/
def peakBytes (x : Chain) : Bytes := bS 4 (x.peakMax.getD 0) ++ bS 4 (x.peakMin.getD 0)

/-- The LOOP_STATUS result (03 Table LOOP-14). -/
def loopStatus (s : State) : Bytes :=
  let a := chain s 0
  let b := chain s 1
  b1 (loopNo s.loop.run) ++ b1 s.loop.bank ++ b1 (b2n s.loop.q15) ++ b1 s.loop.faultCause ++ b4 s.loop.period ++
    bS 4 s.loop.error ++ bS 2 (drv0Now s) ++ bS 2 s.loop.drv1 ++ b4 a.env ++ b4 b.env ++ peakBytes a ++ peakBytes b ++
    b4 a.rms ++ b4 b.rms ++ b1 s.loop.sat ++ b1 s.loop.acc ++
    b1 (bitmap [a.sat, b.sat, s.loop.drvSat, a.high, b.high, s.loop.selftestFailed]) ++
    b1 a.unsettled ++ b1 b.unsettled ++ zeros 3 ++ b4 s.loop.swaps ++ b4 s.loop.faults

/-- CLEAR of LOOP_STATUS (03 R58, R67). -/
def clearLoopStatus (s : State) : State :=
  let cl (x : Chain) : Chain := { x with peakMax := none, peakMin := none, sat := false }
  modChain 0 cl (modChain 1 cl { s with loop.sat := 0, loop.acc := 0, loop.drvSat := false })

/-- The LOOP_STATUS commands that wait complete: all latch the same instant, before CLEAR acts (03 R79). -/
def takeReads (s : State) : State :=
  let r := okWith (loopStatus s)
  let s1 := { s with loop.reads := [] }
  forEach s.loop.reads (fun e x => finish e.1 r x)
    (if s.loop.reads.any (fun e => e.2) then clearLoopStatus s1 else s1)

/-- The error exists in a state: in MIRROR in every state, else where the engine runs (03 R62). -/
def errorRuns (s : State) : Bool := sendsUpdates s.loop.run || decide ((loopCfg s).mode = 2)

/-- The engine's part of a period with a settled input: ERROR is the exact e rounded half to even to whole counts (DESIGN
CHOICE: R79 says "signed counts", log 105). -/
def computeDrive (ts : Nat) (s : State) : State :=
  let e := loopError s
  let s1 := if errorRuns s then { s with loop.error := rneShift e 0 } else s
  if sendsUpdates s.loop.run then
    trackCheck e (countPeriod e (runEngine e { s1 with
      loop.update := some ⟨s.loop.th.toNat, s.loop.w, s.loop.a, ts, s.loop.gen⟩ }))
  else s1

/-- The computation of a period with a settled input of sample instant `ts`. -/
def computePeriod (ts : Nat) (s : State) : State :=
  let s1 := { s with loop := { (runEstimator ts s) with ts := ts } }
  omegaEnvelopes (computeDrive ts { s1 with loop := advanceRef ts s1 })

/-- A control period begins (03 R60). With an UNSETTLED input the drive is held and no update is sent, and only θ_ref
advances (R54, R62). -/
def controlPeriod (s : State) : State :=
  let x := chain s 0
  let settled := x.settled && ((loopCfg s).mode != 0 || (chain s 1).settled)
  let ts := now s - groupDelay x * samplePeriod x
  let s1 := takeReads (loopStates (releasePeriod (takeMinusE { s with loop.period := wrap32 (s.loop.period + 1) })))
  if settled then computePeriod ts s1
  else { s1 with loop := { (advanceRef ts s1) with next := none, update := none } }

/-- An output of chain `c` begins a control period: every K-th of chain 0, or of both in ROTOR_SINCOS (03 R60). -/
def beginsPeriod (c : Nat) (s : State) : Bool :=
  match s.loop.config with
  | none => false
  | some cfg =>
    if cfg.mode = 0 then
      (chain s 0).fresh && (chain s 1).fresh && decide ((chain s 0).count % cfg.k = 0)
    else decide (c = 0 ∧ (chain s 0).count % cfg.k = 0)

/-- A threshold detector changed state (03 R58). -/
def thresholdEvent (c : Nat) (was : Bool) (s : State) : State :=
  let h := (chain s c).high
  if h = was then s else raiseIrq 14 (logEv 0x0604 c (b2n h) 0 s)

/-- CHAIN_OUTPUT (03 R54): an output of a chain emerges from the samples that feed it. -/
def execChainOutput (c : Fin 2) (stream : List (BitVec 14)) (s : State) : Host.Outcome State Fault Refusal :=
  .next <|
    let x := chain s c.val
    let samples := inputSamples x stream
    if !x.running || !s.power.main || decide (samples.length ≠ x.cicDec * x.firDec) then s
    else
      let s1 := thresholdEvent c.val x.high (modChain c.val (fun y => chainStep y samples) s)
      let y := chain s1 c.val
      let s2 := if y.settled && !y.det.envOmega then stallCheck c.val s1 else s1
      if beginsPeriod c.val s2 then
        controlPeriod (modChain 0 (fun x => { x with fresh := false }) (modChain 1 (fun x => { x with fresh := false }) s2))
      else if (loopCfg s2).mode = 0 ∧ (chain s2 0).fresh = true ∧ (chain s2 1).fresh = true then
        modChain 0 (fun x => { x with fresh := false }) (modChain 1 (fun x => { x with fresh := false }) s2)
      else s2

/-! #### Raw crossings (03 Table LOOP-1, 09 R195, R196) -/

/-- A level crossing between two samples: rising or falling, and its fraction in 1/64 (09 R195). -/
def crossingOf (x0 x1 level : Int) : Option (Bool × Nat) :=
  if x0 < level ∧ level ≤ x1 then some (true, (rne (64 * (level - x0)) (x1 - x0).toNat).toNat)
  else if level < x0 ∧ x1 ≤ level then some (false, (rne (64 * (x0 - level)) (x0 - x1).toNat).toNat)
  else none

/-- A ROTOR_SINGLE crossing moves θm on by a cycle (03 Table LOOP-1). -/
def singleCrossing (at64 : Nat) (s : State) : State :=
  let cfg := loopCfg s
  if cfg.mode ≠ 1 then s
  else
    let m := (s.loop.thetaM + rneN turn24 cfg.cycles) % turn24
    { s with loop.thetaM := m, loop.crossings := s.loop.crossings ++ [(at64, m)] }

/-! #### Events (03 R69) -/

/-- LOOP_SELFTEST_DONE (03 R69): the ROM vector has run. -/
def execLoopSelftestDone (pass : Bool) (s : State) : Host.Outcome State Fault Refusal :=
  .next <|
    if s.loop.run ≠ .selftest then s
    else
      let s1 := { (enterLoop .stopped s) with loop.selftestFailed := !pass, loop.selftestOf := none }
      match s.loop.selftestOf with
      | some j => endControl (if pass then 0 else 0x40) j s1
      | none => s1

/-- LOOP_START_SLOW (03 R69): STARTUP has lasted 10 s. -/
def execLoopStartSlow (s : State) : Host.Outcome State Fault Refusal :=
  .next <|
    if s.loop.run = .startup ∧ s.loop.slowLogged = false ∧ s.loop.startupAt + 10000000000 ≤ now s then
      logEv 0x0603 s.loop.period 0 0 { s with loop.slowLogged := true }
    else s

/-! #### Commands (03 R78, R79) -/

/-- LOOP_CONFIG settings of a payload. -/
def loopConfigOf (p : Bytes) : LoopConfig :=
  { mode := u8 p 0, pwm := decide (u8 p 1 = 1), k := u8 p 2, cycles := u8 p 3, traj := u8 p 4,
    interp := decide (u8 p 5 = 1), drv1Mode := u8 p 6, faultAction := u8 p 7, frameRate := u32 p 8, xStart := s32 p 12,
    xEnd := s32 p 16, drv1Value := s16 p 20, polePairs := u8 p 22, stallCount := u8 p 23, commOffset := u32 p 24,
    trackBound := u32 p 28, trackCount := u8 p 32, stallChain := u8 p 33, settlePeriods := u16 p 34,
    speedWin := u32 p 36, captureBound := u32 p 40, stallLevel := u32 p 44, dacTol := u16 p 48, pwmPeriod := u32 p 52,
    velW := s32 p 56, g1 := u32 p 60, g2 := u32 p 64, g3 := u32 p 68, phaseSlew := u32 p 72 }

/-- The field checks of LOOP_CONFIG (03 Table LOOP-12). -/
def loopConfigFields (p : Bytes) : List (Bool × Nat) :=
  let mirror := decide (u8 p 0 = 2)
  let pwm := decide (u8 p 1 = 1)
  [(decide (u8 p 0 < 3), 0), (decide (u8 p 1 < 2), 1), (within 1 (u8 p 2) 8, 2),
    (if mirror then decide (u8 p 3 = 0) else within 1 (u8 p 3) 64, 3),
    (decide (u8 p 4 ≤ b2n mirror), 4), (decide (u8 p 5 < 2), 5), (decide (u8 p 6 < 3), 6), (decide (u8 p 7 < 3), 7),
    (within 5000 (u32 p 8) 30000, 8), (signExt p 12 4 24 && (mirror || decide (u32 p 12 = 0)), 12),
    (signExt p 16 4 24 && (if mirror then decide (u32 p 16 ≠ u32 p 12) else decide (u32 p 16 = 0)), 16),
    (if pwm then within 1 (u8 p 22) 16 else decide (u8 p 22 = 0), 22), (within 1 (u8 p 23) 64, 23),
    (within 1 (u32 p 28) (2 ^ 31 - 1), 28), (within 1 (u8 p 32) 64, 32), (decide (u8 p 33 < 2), 33),
    (decide (1 ≤ u16 p 34), 34), (within 1 (u16 p 48) 32767, 48), rsv p 50 2,
    (if pwm then within 2500 (u32 p 52) 15625 else decide (u32 p 52 = 0), 52), (signExt p 56 4 18, 56),
    (decide (u32 p 60 < 2 ^ 17), 60), (decide (u32 p 64 < 2 ^ 17), 64), (decide (u32 p 68 < 2 ^ 17), 68), rsv p 76 4]

/-- The state once every LOOP_CONTROL accepted so far has taken effect (03 R78). -/
def projectedRun (s : State) : LoopRun :=
  s.loop.actions.foldl (fun r a =>
    if !actionAllowed r a.action then r
    else match a.action with
      | 0 => .stopped
      | 1 => .startup
      | 2 => .manual
      | 3 => .service
      | 4 => r
      | _ => .selftest) s.loop.run

/-- Where no period will start any more, the LOOP_STATUS commands and the actions that wait are taken at once. -/
def settleLoop (s : State) : State :=
  if hasPeriods s then s else takeActions s.loop.faultNew.isSome (takeReads s)

/-- LOOP_CONFIG (03 R78). -/
def execLoopConfig (mb : Fin 8) (s : State) : Host.Outcome State Fault Refusal :=
  runCommand 0x0604 mb (fun _ _ p s =>
    checked (fixedPayload p 80 (loopConfigFields p)) s (fun _ =>
      if projectedRun s = .stopped ∨ projectedRun s = .fault then
        let s1 := { s with loop.config := some (loopConfigOf p) }
        (settleLoop (sendTc (controlPeriodNs s1) s1), ok)
      else (s, busyEpoch))) s

/-- FILT_CONTROL (03 R55 to R57). -/
def execFiltControl (mb : Fin 8) (s : State) : Host.Outcome State Fault Refusal :=
  runCommand 0x0602 mb (fun _ j p s =>
    checked (fixedPayload p 8 [(decide (u8 p 0 < 3), 0), (decide (u8 p 1 < 3), 1), (decide (u8 p 2 < 3), 2),
      (decide (u8 p 3 < 16 ∧ (u8 p 2 = 2 ∨ u8 p 3 = 0)), 3), rsv p 4 4]) s (fun _ =>
        let (s1, r) := filtControl j p s
        (settleLoop s1, r))) s

/-- A stage of a LOOP_LOAD payload. -/
def stageOf (p : Bytes) (k : Nat) : StageCoef :=
  let o := 8 + 24 * k
  { b0 := s32 p o, b1 := s32 p (o + 4), b2 := s32 p (o + 8), a1 := s32 p (o + 12), a2 := s32 p (o + 16),
    exp := signed 8 (u8 p (o + 20)), pshift := u8 p (o + 21) }

/-- The field checks of stage `k` (03 R65, R66): ranges, the integrator's form, adjacent exponents, and zero fields of
the stages above NSTAGES. -/
def stageFields (p : Bytes) (k : Nat) : List (Bool × Nat) :=
  let o := 8 + 24 * k
  let q := decide (u8 p 0 = 2)
  let used := decide (k < u8 p 1)
  let integ := decide (k + 1 = u8 p 1)
  let e := signed 8 (u8 p (o + 20))
  let before := if k = 0 then signed 8 (u8 p 2) else signed 8 (u8 p (o - 4))
  let coef (i : Nat) : Bool := signExt p (o + 4 * i) 4 (if q then 16 else 18) && (used || decide (u32 p (o + 4 * i) = 0))
  [(coef 0, o), (coef 1, o + 4), (coef 2, o + 8),
    (coef 3 && (!integ || decide (s32 p (o + 12) = if q then -32768 else -65536)), o + 12),
    (coef 4 && (!integ || decide (u32 p (o + 16) = 0)), o + 16),
    (signExt p (o + 20) 1 6 && (used || decide (u8 p (o + 20) = 0)) &&
      (!integ || (if q then decide (e = 15) else withinI (-2) e 0)) && (!used || decide ((e - before).natAbs ≤ 24)), o + 20),
    (if q && used then decide (u8 p (o + 21) < 4) else decide (u8 p (o + 21) = 0), o + 21), rsv p (o + 22) 2]

/-- LOOP_LOAD (03 R66, R71). -/
def execLoopLoad (mb : Fin 8) (s : State) : Host.Outcome State Fault Refusal :=
  runCommand 0x0605 mb (fun _ _ p s =>
    checked (fixedPayload p 200 ([(decide (u8 p 0 < 3), 0), (within 1 (u8 p 1) 8, 1), (signExt p 2 1 6, 2), rsv p 3 5] ++
      (List.range 8).flatMap (stageFields p))) s (fun _ =>
      let t := u8 p 0
      let busy := if t = 2 then
          decide (s.loop.run = .startup ∨ s.loop.run = .recovery ∨ s.loop.run = .selftest)
        else decide (t = s.loop.bank)
      if busy then (s, busyEpoch)
      else
        let c : CoefSet :=
          { loaded := true, nStages := u8 p 1, expIn := signed 8 (u8 p 2), stages := (List.range 8).map (stageOf p) }
        ({ s with loop.sets := tabSet {} s.loop.sets t c }, ok))) s

/-- Both chains have the same configuration and one start (03 R60). -/
def chainsMatch (s : State) : Bool :=
  let a := chain s 0
  let b := chain s 1
  decide (a.cicDec = b.cicDec ∧ a.firLen = b.firLen ∧ a.firDec = b.firDec ∧ a.taps = b.taps ∧ a.startedBy = b.startedBy)

/-- The BAD_FIELD conditions of START (03 R50, R56, R60). -/
def startFits (s : State) : Bool :=
  let cfg := loopCfg s
  let rotor := decide (s.set.scan.kind = .rotor)
  (if cfg.mode = 2 then !rotor else rotor) &&
    (cfg.mode != 1 || decide (s.set.index.source ≤ 1)) &&
    decide ((chain s 0).source ≠ 2) && (cfg.mode != 0 || decide ((chain s 1).source ≠ 2)) &&
    decide (5000 ≤ controlPeriodNs s ∧ controlPeriodNs s ≤ 40000) &&
    (cfg.mode != 0 || chainsMatch s)

/-- The status of a LOOP_CONTROL at its checks, 0 when they pass (03 R78). -/
def controlCheck (a : Nat) (s : State) : Option Reply :=
  if !actionAllowed s.loop.run a then some notArmed
  else if (a = 1 ∨ a = 2) ∧ s.loop.run = .stopped ∧ s.loop.config = none then some notArmed
  else if a = 4 ∧ (tabGet {} s.loop.sets (1 - s.loop.bank)).loaded = false then some notArmed
  else if a = 1 ∧ (chainsRun s = false ∨ s.loop.selftestFailed = true) then some notArmed
  else if a = 1 ∧ startFits s = false then some (badField 0)
  else none

/-- LOOP_CONTROL (03 R78): the action waits for the start of the next control period; with no chain to give one, it is
taken at once. -/
def execLoopControl (mb : Fin 8) (s : State) : Host.Outcome State Fault Refusal :=
  runCommand 0x0606 mb (fun _ j p s =>
    match fixedPayload p 8 [(decide (u8 p 0 < 6), 0), rsv p 1 1, (decide (u8 p 0 = 2 ∨ u16 p 2 = 0), 2), rsv p 4 4] with
    | some r => (s, some r)
    | none =>
      match controlCheck (u8 p 0) s with
      | some r => (s, some r)
      | none =>
        let s1 := { s with loop.actions := s.loop.actions ++ [⟨j, u8 p 0, s16 p 2⟩] }
        (settleLoop s1, none)) s

/-- The result of a LOOP_CONTROL that RESET_N or a loss of main power has ended: period 0, STOPPED (03 R78). -/
def cancelledReply (s : State) (status : Nat) : Reply := ⟨status, 0, b4 0 ++ b1 0 ++ b1 s.loop.bank ++ b2 0, 0⟩

/-- RESET_N or a loss of main power has stopped the loop: pending LOOP_CONTROLs end, a self-test among them, and waiting
LOOP_STATUS commands complete (03 R78). -/
def cancelActions (s : State) : State :=
  let s1 := forEach s.loop.actions (fun a s =>
    finish a.jseq (cancelledReply s (if a.action = 0 then 0 else 0x40)) s) { s with loop.actions := [] }
  let s2 := match s1.loop.selftestOf with
    | some j => finish j (cancelledReply s1 0x40) { s1 with loop.selftestOf := none }
    | none => s1
  takeReads s2

/-- LOOP_STATUS (03 R79): it latches at the next period start, or at once while no period can start. -/
def execLoopStatus (mb : Fin 8) (s : State) : Host.Outcome State Fault Refusal :=
  runCommand 0x0607 mb (fun _ j p s =>
    match fixedPayload p 4 [(decide (u8 p 0 < 2), 0), rsv p 1 3] with
    | some r => (s, some r)
    | none => (settleLoop { s with loop.reads := s.loop.reads ++ [(j, decide (u8 p 0 = 1))] }, none)) s

end Sys2Proof.Machine
end

