-- ==== Sys2Proof/Machine/Capture.lean ====
section
/-! DEFINITION. Waveform capture units, their triggers and masks (09), and the launch of a shot with its capture hook
(04 R86 to R88). -/

namespace Sys2Proof.Machine

open Sys2Proof

/-! #### Triggers (09 R195 to R201) -/

/-- The unit's settings, those of a unit never configured being the defaults. -/
def captCfg (x : CaptUnit) : CaptConfig := x.cfg.getD {}

/-- A unit takes settings only while STOPPED or DONE (09 R194, R204). -/
def captIdle (x : CaptUnit) : Bool := decide (x.run = .stopped ∨ x.run = .done)

/-- A unit in CAPTURING or HOLDOFF: its trigger events are missed (09 R201). -/
def captBusy (x : CaptUnit) : Bool := decide (x.run = .capturing ∨ x.run = .holdoff)

/-- A trigger event that arrives while the unit is busy (09 R201). -/
def missTrigger (x : CaptUnit) : CaptUnit := { x with missed := sat32 (x.missed + 1), events := x.events + 1 }

/-- A launch of a shot of port `c` reaches the capture units (09 R197). -/
def captureLaunch (c : Nat) (fl : Flight) (s : State) : State :=
  forUpto 2 (fun u s =>
    let x := capt s u
    let cfg := captCfg x
    if x.cfg.isNone || !cfg.shot || decide (cfg.port ≠ c) then s
    else if x.run = .armed then
      modCapt u (fun x => { x with quals := x.quals ++ [⟨fl.launch, fl.frame % turn, 2048 * c + fl.column⟩] }) s
    else if captBusy x then modCapt u missTrigger s
    else s) s

/-- SHOT_LAUNCH (04 R86 to R88): the launch instant of the course's next shot. -/
def execShotLaunch (c : Fin 128) (startA startB : Conversion) (s : State) : Host.Outcome State Fault Refusal :=
  .next <|
    if !s.power.dieA then s
    else
      match launchable c.val s with
      | none => s
      | some fl =>
        let s1 := shotLaunch c.val startA startB s
        if (course s1 c.val).fired = (course s c.val).fired then s1 else captureLaunch c.val fl s1

/-- A stored code: 10 bits, the ends standing for every input beyond the range (09 R193). -/
def captCode (v : Nat) : Nat := min v 1023

/-- The capture that a trigger at sample `t0 + 1` with fraction `f` begins, the samples stored before it being `pre`
(09 R197, R198). -/
def beginCapture (kind t0 f : Nat) (pre : List Nat) (x1 : Nat) (shot : Option QualWindow) (x : CaptUnit) : CaptUnit :=
  let cfg := captCfg x
  let valid := min cfg.pre pre.length
  let c : Capture :=
    { input := cfg.input, kind := kind, pre := cfg.pre, post := cfg.post, preValid := valid, clamped := cfg.clamped,
      tau := 64 * ((cfg.pre : Int) - 1) + f, trigTime := 64 * t0 + f, shot := shot
      samples := List.replicate (cfg.pre - valid) 0 ++ pre.drop (pre.length - valid) ++ [x1] }
  { x with run := .capturing, held := some c, quals := [], events := 0, force := none }

/-- The sample `v` ends a crossing in the direction the unit looks for, and its hysteresis lets it qualify: its fraction
(09 R195). -/
def captCrossing (x : CaptUnit) (v : Nat) : Option Nat :=
  let cfg := captCfg x
  match x.stored.getLast? with
  | none => none
  | some x0 =>
    match crossingOf x0 v cfg.level with
    | some (rising, f) =>
      if rising != cfg.falling && (if cfg.falling then x.high else x.low) then some f else none
    | none => none

/-- The newest `n` entries of a list. -/
def newest {α : Type} (n : Nat) (l : List α) : List α := l.drop (l.length - n)

/-- The sample `v` of half ns `n` is stored and moves the hysteresis; `q`: it ended a qualifying crossing (09 R195,
R200). -/
def storeSample (n v : Nat) (q : Bool) (x : CaptUnit) : CaptUnit :=
  let cfg := captCfg x
  { x with
    storeFrom := n + 1
    stored := newest 65536 (x.stored ++ [v])
    low := (x.low && !q) || decide (v + cfg.hyst ≤ cfg.level)
    high := (x.high && !q) || decide (cfg.level + cfg.hyst ≤ v) }

/-- A crossing at `t` (1/128 ns) lies in a qualification window (09 R197). -/
def inQual (cfg : CaptConfig) (t : Nat) (w : QualWindow) : Bool :=
  decide (w.launch ≤ t ∧ t < w.launch + 128 * cfg.qualNs)

/-- Unit `u` tests the sample `v` of half ns `n`: FORCE, a LEVEL crossing or a SHOT crossing may trigger, or is missed
(09 R197, R200, R201). A sample before `storeFrom` is neither stored nor tested (R194). -/
def captureSample (u n v : Nat) (s : State) : State :=
  let x := capt s u
  let cfg := captCfg x
  if captIdle x || decide (n < x.storeFrom) then s
  else
    let q := captCrossing x v
    let s1 := modCapt u (storeSample n v q.isSome) s
    if x.run = .armed then
      if x.force = some n then modCapt u (beginCapture 2 (n - 1) 0 x.stored v none) s1
      else
        match q with
        | none => s1
        | some f =>
          if !cfg.shot then modCapt u (beginCapture 0 (n - 1) f x.stored v none) s1
          else
            match x.quals.find? (inQual cfg (64 * (n - 1) + f)) with
            | some w => modCapt u (beginCapture 1 (n - 1) f x.stored v (some w)) s1
            | none => s1
    else if !cfg.shot && q.isSome then modCapt u missTrigger s1
    else s1

/-- Unit `u` tests samples in turn, the first being of half ns `n`. -/
def captureSamples (u : Nat) : Nat → List (BitVec 10) → State → State
  | _, [], s => s
  | n, v :: l, s => captureSamples u (n + 1) l (captureSample u n v.toNat s)

/-- CAPTURE_TRIGGER (09 R195, R197): samples of the unit's input, the last of half ns `t`. They reach back to the first
sample that the unit has not yet tested, so that its hysteresis has seen them all. -/
def execCaptureTrigger (u : Fin 2) (t : Nat) (samples : List (BitVec 10)) (s : State) :
    Host.Outcome State Fault Refusal :=
  .next <|
    if s.power.dieA && decide (t ≤ 2 * now s + 1 ∧ samples.length ≤ t + 1 ∧
        t + 1 ≤ (capt s u.val).storeFrom + samples.length) then
      captureSamples u.val (t + 1 - samples.length) samples s
    else s

/-- SHOT_QUAL_TIMEOUT (09 R197): a qualification window ends without a crossing. -/
def execShotQualTimeout (u : Fin 2) (s : State) : Host.Outcome State Fault Refusal :=
  .next <|
    let x := capt s u.val
    match x.quals with
    | [] => s
    | w :: rest =>
      if x.run = .armed ∧ w.launch + 128 * (captCfg x).qualNs ≤ 128 * now s then
        modCapt u.val (fun x => { x with quals := rest, timeouts := sat32 (x.timeouts + 1) }) s
      else s

/-! #### Masks (09 R202, R203) -/

/-- A sample at `u` breaks the segment of an envelope from point `a` to point `b`, in exact arithmetic. -/
def breaksSegment (upper : Bool) (a b : Int × Nat) (u : Int) (v : Nat) : Bool :=
  let lhs := ((v : Int) - (a.2 : Int)) * (b.1 - a.1)
  let rhs := ((b.2 : Int) - (a.2 : Int)) * (u - a.1)
  if upper then decide (rhs < lhs) else decide (lhs < rhs)

/-- A sample breaks an envelope; outside the envelope's span it is not tested. -/
def breaksEnvelope (upper : Bool) : List (Int × Nat) → Int → Nat → Bool
  | a :: b :: l, u, v =>
    (decide (a.1 ≤ u ∧ u ≤ b.1) && breaksSegment upper a b u v) || breaksEnvelope upper (b :: l) u v
  | _, _, _ => false

/-- What the mask tester finds at a stored sample: true for the upper envelope. -/
def maskTest (x : CaptUnit) (c : Capture) (i v : Nat) : Option Bool :=
  let u := 64 * (i : Int) - c.tau
  if breaksEnvelope true x.upper u v then some true
  else if breaksEnvelope false x.lower u v then some false
  else none

/-- The first violation among samples from index `i` on; the first argument is where valid samples begin. -/
def firstViolation (from_ : Nat) (x : CaptUnit) (c : Capture) : Nat → List Nat → Option (Nat × Bool)
  | _, [] => none
  | i, v :: l =>
    if i < from_ then firstViolation from_ x c (i + 1) l
    else
      match maskTest x c i v with
      | some up => some (i, up)
      | none => firstViolation from_ x c (i + 1) l

/-- Half-ns instant of the sample at index `i` of a capture. -/
def captInstant (c : Capture) (i : Nat) : Int :=
  ((c.trigTime : Int) - (c.tau - 64 * ((c.pre : Int) - 1))) / 64 + 1 + (i : Int) - (c.pre : Int)

/-- The sample at index `i` has been taken. -/
def sampled (c : Capture) (i : Nat) (s : State) : Bool := decide (captInstant c i ≤ 2 * (now s : Int) + 1)

/-- The STOP commands that wait for a unit complete: it is STOPPED (09 R204). -/
def endStops (u : Nat) (s : State) : State :=
  forEach (capt s u).stops (fun j s => finish j ok s) (modCapt u (fun x => { x with stops := [] }) s)

/-- A capture ends: its counters, its interrupt, and a STOP that waits takes effect (09 R200). -/
def endCaptureUnit (u : Nat) (x : CaptUnit) (s : State) : State :=
  let s1 := raiseIrq 17 (modCapt u (fun _ => { x with captures := wrap64 (x.captures + 1) }) s)
  if x.stops.isEmpty then s1 else endStops u (modCapt u (fun x => { x with run := .stopped, line := false }) s1)

/-- A violation at index `i` (09 R203). A STOP that waits then takes the unit out of DONE (Table CAPT-1), so that the
unit's line to the Emission Supervisor is a pulse (DEDUCED, log 110): the cause has arisen, and clears again unless the
other unit's line stands. -/
def violate (u i : Nat) (up : Bool) (c : Capture) (s : State) : State :=
  let x := capt s u
  let c' := { c with samples := c.samples.take (max (i + 1) (c.pre + 1)), fail := some i, upper := up, lower := !up }
  let s1 := logEv 0x0701 u i (b2n (!up)) s
  let s2 := if x.stops.isEmpty then s1 else esArise 4 s1
  let s3 := endCaptureUnit u { (capt s2 u) with
    run := .done, held := some c', line := true, maskFails := sat32 (x.maskFails + 1) } s2
  if x.stops.isEmpty || causeInput 4 s3 then s3 else esClear 4 s3

/-- The capture of a CAPTURING unit with the samples after the trigger added. -/
def withSamples (c : Capture) (samples : List Nat) : Capture :=
  { c with samples := c.samples ++ (samples.take (c.post - 1)).map captCode }

/-- MASK_VIOLATION (09 R203): the samples after the trigger up to the violating one. -/
def execMaskViolation (u : Fin 2) (samples : List Nat) (s : State) : Host.Outcome State Fault Refusal :=
  .next <|
    let x := capt s u.val
    match x.held with
    | none => s
    | some c =>
      if x.run ≠ .capturing then s
      else
        let c' := withSamples c samples
        match firstViolation (c.pre - c.preValid) x c' 0 c'.samples with
        | none => s
        | some (i, up) => if sampled c (max i c.pre) s then violate u.val i up c' s else s

/-- CAPTURE_COMPLETE (09 R200): POST samples are stored. -/
def execCaptureComplete (u : Fin 2) (samples : List Nat) (s : State) : Host.Outcome State Fault Refusal :=
  .next <|
    let x := capt s u.val
    match x.held with
    | none => s
    | some c =>
      if x.run ≠ .capturing ∨ samples.length + 1 < c.post then s
      else
        let c' := withSamples c samples
        match firstViolation (c.pre - c.preValid) x c' 0 c'.samples with
        | some (i, up) => if sampled c (max i c.pre) s then violate u.val i up c' s else s
        | none =>
          if sampled c (c.pre + c.post - 1) s then
            endCaptureUnit u.val { x with run := if (captCfg x).repeats then .holdoff else .done, held := some c' } s
          else s

/-- The hold-off is over (09 R201). -/
def holdoffOver (x : CaptUnit) (s : State) : Bool :=
  let cfg := captCfg x
  if cfg.events then decide (cfg.holdoff ≤ x.events)
  else
    match x.held with
    | some c => decide (c.trigTime + 128 * cfg.holdoff ≤ 128 * now s)
    | none => true

/-- A unit is armed: pre-trigger storing starts at half ns `n` (09 R195, R200). -/
def arm (n : Nat) (x : CaptUnit) : CaptUnit :=
  { x with run := .armed, held := none, quals := [], force := none, stored := [], low := false, high := false
           storeFrom := n }

/-- CAPTURE_HOLDOFF_END (09 R201): the unit re-arms. -/
def execCaptureHoldoffEnd (u : Fin 2) (s : State) : Host.Outcome State Fault Refusal :=
  .next <|
    let x := capt s u.val
    if x.run = .holdoff ∧ holdoffOver x s = true then
      modCapt u.val (arm (2 * now s)) s
    else s

/-! #### Commands (09 R204 to R206) -/

/-- The settings of a CAPT_CONFIG payload, POST as R199 has it. -/
def captConfigOf (p : Bytes) : CaptConfig :=
  { input := u8 p 1, shot := decide (u8 p 2 = 1), falling := decide (u8 p 3 = 1), level := u16 p 4, hyst := u16 p 6,
    pre := u32 p 8, post := min (u32 p 12) (65536 - u32 p 8), clamped := decide (65536 - u32 p 8 < u32 p 12),
    events := decide (u8 p 16 = 1), port := u8 p 17, qualNs := u16 p 18, holdoff := u32 p 20,
    repeats := decide (u8 p 24 = 1) }

/-- The fields of CAPT_CONFIG (09 Table CAPT-3). -/
def captFields (p : Bytes) : List (Bool × Nat) :=
  let shot := decide (u8 p 2 = 1)
  [(decide (u8 p 0 < 2), 0), (decide (u8 p 1 < 16), 1), (decide (u8 p 2 < 2), 2), (decide (u8 p 3 < 2), 3),
    (within 1 (u16 p 4) 1022, 4), (within 1 (u16 p 6) 255, 6), (decide (u32 p 8 ≤ 65535), 8),
    (decide (u32 p 12 ≠ 0), 12), (decide (u8 p 16 < 2), 16),
    (decide (if shot then u8 p 17 < 128 else u8 p 17 = 0), 17),
    (if shot then within 1 (u16 p 18) 1023 else decide (u16 p 18 = 0), 18),
    (within 1 (u32 p 20) (if u8 p 16 = 1 then 65535 else 1000000000), 20), (decide (u8 p 24 < 2), 24), rsv p 25 7]

/-- CAPT_CONFIG's effect (09 R194, R199). -/
def captConfig (p : Bytes) (s : State) : State × Reply :=
  let u := u8 p 0
  let x := capt s u
  if !captIdle x then (s, busyEpoch)
  else
    let cfg := captConfigOf p
    let moved := decide ((captCfg x).input ≠ cfg.input)
    let s1 := modCapt u (fun x => { x with
      cfg := some cfg
      changed := x.changed || moved
      changedAt := if moved then now s else x.changedAt }) s
    let r := b4 cfg.post ++ b4 0
    (s1, if cfg.clamped then clampedWith r else okWith r)

/-- CAPT_CONFIG (09 R199, R204). -/
def execCaptConfig (mb : Fin 8) (s : State) : Host.Outcome State Fault Refusal :=
  runCommand 0x0701 mb (fun _ _ p s => checked (fixedPayload p 32 (captFields p)) s (fun _ => captConfig p s)) s

/-- The checks of one mask point (09 Table CAPT-4). -/
def pointFields (p : Bytes) (k : Nat) : List (Bool × Nat) :=
  let o := 8 + 8 * k
  if k < u8 p 2 then
    [(decide (k = 0) || decide (s32 p (o - 8) < s32 p o), o), (decide (u16 p (o + 4) < 1024), o + 4), rsv p (o + 6) 2]
  else [rsv p o 4, rsv p (o + 4) 2, rsv p (o + 6) 2]

/-- CAPT_SET_MASK (09 R202, R204). -/
def execCaptSetMask (mb : Fin 8) (s : State) : Host.Outcome State Fault Refusal :=
  runCommand 0x0702 mb (fun _ _ p s =>
    checked (fixedPayload p 520 ([(decide (u8 p 0 < 2), 0), (decide (u8 p 1 < 2), 1),
        (decide (u8 p 2 ≤ 64 ∧ u8 p 2 ≠ 1), 2), rsv p 3 5] ++ (List.range 64).flatMap (pointFields p))) s (fun _ =>
      if !captIdle (capt s (u8 p 0)) then (s, busyEpoch)
      else
        let e := (List.range (u8 p 2)).map (fun k => (s32 p (8 + 8 * k), u16 p (12 + 8 * k)))
        (modCapt (u8 p 0) (fun x =>
          if u8 p 1 = 0 then { x with upper := e } else { x with lower := e }) s, ok))) s

/-- ARM (09 Table CAPT-1, R194): the samples of the first 100 ns after an input change are discarded. -/
def armUnit (u : Nat) (s : State) : State :=
  modCapt u (fun x => { (arm (if x.changed then max (2 * now s) (2 * (x.changedAt + 100)) else 2 * now s) x) with
    line := false
    events := 0 }) s

/-- CAPT_CONTROL's action (09 R200, R204): a STOP of a CAPTURING unit waits for it to stop. -/
def captControl (j u action : Nat) (s : State) : State × Option Reply :=
  let x := capt s u
  match action with
  | 0 =>
    if x.run = .capturing then (modCapt u (fun x => { x with stops := x.stops ++ [j] }) s, none)
    else (modCapt u (fun x => { x with run := .stopped, line := false, quals := [], force := none }) s, some ok)
  | 1 =>
    if x.cfg.isNone then (s, some notArmed)
    else if captIdle x then (armUnit u s, some ok)
    else (s, some ok)
  | _ =>
    if x.run = .armed then
      (modCapt u (fun x => { x with force := some (max x.storeFrom (2 * now s + 1)) }) s, some ok)
    else (s, some notArmed)

/-- CAPT_CONTROL (09 R204). -/
def execCaptControl (mb : Fin 8) (s : State) : Host.Outcome State Fault Refusal :=
  runCommand 0x0703 mb (fun _ j p s =>
    match fixedPayload p 8 [(decide (u8 p 0 < 2), 0), (decide (u8 p 1 < 3), 1), rsv p 2 6] with
    | some r => (s, some r)
    | none => captControl j (u8 p 0) (u8 p 1) s) s

/-- A valid stored sample stands at an end of the range (09 R193). -/
def overRange (c : Capture) : Bool :=
  (c.samples.drop (c.pre - c.preValid)).any (fun v => decide (v = 0 ∨ v = 1023))

/-- The capture header (09 Table CAPT-5). -/
def captHeader (u : Nat) (c : Capture) : Bytes :=
  b1 u ++ b1 c.input ++ b1 c.kind ++ b1 (b2n c.fail.isSome) ++ b4 c.samples.length ++ b4 c.preValid ++ b4 c.post ++
    bS 4 c.tau ++ b4 (c.fail.getD 0xFFFFFFFF) ++ b8 c.trigTime ++
    (match c.shot with
     | some w => b8 w.launch ++ b4 w.frame ++ b4 (w.tile + 2 ^ 18)
     | none => zeros 16) ++
    b2 (bitmap [c.clamped, decide (c.preValid < c.pre), overRange c, c.upper, c.lower]) ++ zeros 14

/-- CAPT_READ's result: the header and COUNT samples from FIRST (09 R205). -/
def captReadResult (u first count : Nat) (c : Capture) : Bytes :=
  captHeader u c ++ (List.range count).flatMap (fun i => b2 (nth c.samples (first + i)))

/-- CAPT_READ (09 R205). -/
def execCaptRead (mb : Fin 8) (s : State) : Host.Outcome State Fault Refusal :=
  runCommand 0x0704 mb (fun _ _ p s =>
    checked (fixedPayload p 12 [(decide (u8 p 0 < 2), 0), rsv p 1 3, (decide (u32 p 4 < 65536), 4),
      (within 1 (u32 p 8) (65536 - u32 p 4), 8)]) s (fun _ =>
      let x := capt s (u8 p 0)
      if !captIdle x then (s, busyEpoch)
      else
        match x.held with
        | none => (s, notArmed)
        | some c => (s, okWith (captReadResult (u8 p 0) (u32 p 4) (u32 p 8) c)))) s

/-- Number of a capture state (09 Table CAPT-6). -/
def captNo : CaptRun → Nat
  | .stopped => 0 | .armed => 1 | .capturing => 2 | .holdoff => 3 | .done => 4

/-- HOLDOFF_LEFT: whole ns, counted up, or events. -/
def holdoffLeft (x : CaptUnit) (s : State) : Nat :=
  let cfg := captCfg x
  if x.run ≠ .holdoff then 0
  else if cfg.events then cfg.holdoff - x.events
  else
    match x.held with
    | some c => ceilDiv (c.trigTime + 128 * cfg.holdoff - 128 * now s) 128
    | none => 0

/-- The CAPT_STATUS result (09 Table CAPT-6). -/
def captStatus (u : Nat) (s : State) : Bytes :=
  let x := capt s u
  b1 u ++ b1 (captNo x.run) ++ b1 (captCfg x).input ++ b1 0 ++ b4 x.missed ++ b8 x.captures ++ b4 x.maskFails ++
    b4 x.timeouts ++ b4 (holdoffLeft x s) ++ b4 0

/-- CAPT_STATUS (09 R206). -/
def execCaptStatus (mb : Fin 8) (s : State) : Host.Outcome State Fault Refusal :=
  runCommand 0x0705 mb (fun _ _ p s =>
    checked (fixedPayload p 4 [(decide (u8 p 0 < 2), 0), (decide (u8 p 1 < 2), 1), rsv p 2 2]) s (fun _ =>
      (if u8 p 1 = 1 then modCapt (u8 p 0) (fun x => { x with missed := 0 }) s else s,
        okWith (captStatus (u8 p 0) s)))) s

/-- A die A reset stops both units with no capture held (09 R207). -/
def resetCapture (s : State) : State :=
  forUpto 2 (fun u s =>
    endStops u (modCapt u (fun x => { x with
      run := .stopped, held := none, line := false, quals := [], force := none, events := 0 }) s)) s

end Sys2Proof.Machine
end

