-- ==== Sys2Proof/Machine/Hod.lean ====
section
/-! DEFINITION. The Hod DMA engine (15 R352 to R364, 12 R287): fetching and checking descriptors, copying elements in
loop order, completion, errors, aborts and resets. -/

namespace Sys2Proof.Machine

open Sys2Proof

/-! #### Descriptors (15 R354 to R356) -/

/-- A 64-byte descriptor image (15 Table HOST-6). -/
def descOf (b : Bytes) : HodDesc :=
  { ctrl := u32 b 0, elemSize := u32 b 4, src := u64 b 8, dst := u64 b 16,
    counts := [u16 b 24 + 1, u16 b 26 + 1, u16 b 28 + 1],
    srcSteps := [s32 b 32, s32 b 36, s32 b 40], dstSteps := [s32 b 44, s32 b 48, s32 b 52], next := u64 b 56 }

/-- CTRL.END. -/
def dEnd (d : HodDesc) : Bool := bit d.ctrl 0
/-- CTRL.FLUSH. -/
def dFlush (d : HodDesc) : Bool := bit d.ctrl 1
/-- CTRL.IRQ. -/
def dIrq (d : HodDesc) : Bool := bit d.ctrl 2
/-- CTRL.ORDERED. -/
def dOrdered (d : HodDesc) : Bool := bit d.ctrl 3
/-- The source is in device DRAM. -/
def srcDram (d : HodDesc) : Bool := bit d.ctrl 4
/-- The destination is in device DRAM. -/
def dstDram (d : HodDesc) : Bool := bit d.ctrl 5

/-- Number of elements. -/
def elements (d : HodDesc) : Nat := nth d.counts 0 * nth d.counts 1 * nth d.counts 2

/-- Lowest address of a bounding box. -/
def boxLo (addr : Nat) (d : HodDesc) (steps : List Int) : Int :=
  addr + listSumI ((List.range 3).map (fun j => min 0 (((nth d.counts j : Int) - 1) * nthI steps j)))

/-- Highest address of a bounding box. -/
def boxHi (addr : Nat) (d : HodDesc) (steps : List Int) : Int :=
  addr + listSumI ((List.range 3).map (fun j => max 0 (((nth d.counts j : Int) - 1) * nthI steps j))) + d.elemSize - 1

/-- Address of element `e` in loop order (15 R355). -/
def elemAddr (addr : Nat) (d : HodDesc) (steps : List Int) (e : Nat) : Nat :=
  let c0 := nth d.counts 0
  let c1 := nth d.counts 1
  ((addr : Int) + (e % c0 : Nat) * nthI steps 0 + (e / c0 % c1 : Nat) * nthI steps 1 +
    (e / (c0 * c1) : Nat) * nthI steps 2).toNat

/-- Source address of element `e`. -/
def srcAddr (d : HodDesc) (e : Nat) : Nat := elemAddr d.src d d.srcSteps e
/-- Destination address of element `e`. -/
def dstAddr (d : HodDesc) (e : Nat) : Nat := elemAddr d.dst d d.dstSteps e

/-- The boxes of a descriptor in one space meet (15 R356). -/
def boxesMeet (d : HodDesc) : Bool :=
  decide (boxLo d.src d d.srcSteps ≤ boxHi d.dst d d.dstSteps ∧ boxLo d.dst d d.dstSteps ≤ boxHi d.src d d.srcSteps)

/-- The descriptor runs in ordered mode (15 R356). -/
def runsOrdered (d : HodDesc) : Bool := dOrdered d || (srcDram d == dstDram d && boxesMeet d)

/-- A box leaves the address space, or the usable DRAM. -/
def boxBad (s : State) (dram : Bool) (lo hi : Int) : Bool :=
  decide (lo < 0 ∨ ((2 ^ 64 : Nat) : Int) ≤ hi) || (dram && decide ((usable s : Int) ≤ hi))

/-- The checks of R354 that answer DESC_INVALID. -/
def descInvalid (s : State) (b : Bytes) (d : HodDesc) (skip : Nat) : Bool :=
  decide (64 ≤ d.ctrl) || !allZero b 30 2 || !decide (1 ≤ d.elemSize ∧ d.elemSize ≤ 4096) ||
    (!dEnd d && decide (d.next % 64 ≠ 0)) || boxBad s (srcDram d) (boxLo d.src d d.srcSteps) (boxHi d.src d d.srcSteps) ||
    boxBad s (dstDram d) (boxLo d.dst d d.dstSteps) (boxHi d.dst d d.dstSteps) || decide (elements d ≤ skip)

/-- The ranges of DRAM that belong to a plane: header copy, tags, slots. -/
def planeRanges (k : Nat) : List (Nat × Nat) :=
  [(headerAddr k, headerAddr k + 64), (tagAddr k 0, tagAddr k 0 + 2 ^ 23), (slotAddr k 0, slotAddr k 0 + 2 ^ 29)]

/-- The host-writable ranges of DRAM (16 R368). -/
def writableRanges (s : State) : List (Nat × Nat) :=
  (hostAreaBase s, usable s) :: ((List.range s.dlv.depth).flatMap (fun k =>
    if planeFrozen s (plane s k) && planeClosed (plane s k) then planeRanges k else []))

/-- Addresses `a` to `hi` lie in the ranges; the first argument bounds the ranges used. -/
def covered (rs : List (Nat × Nat)) : Nat → Nat → Nat → Bool
  | 0, a, hi => decide (hi < a)
  | n + 1, a, hi =>
    if hi < a then true
    else
      match rs.find? (fun r => decide (r.1 ≤ a ∧ a < r.2)) with
      | some r => covered rs n r.2 hi
      | none => false

/-- The destination box touches a device-owned region (15 R354). -/
def boxProtected (s : State) (d : HodDesc) : Bool :=
  let rs := writableRanges s
  dstDram d && !covered rs rs.length (boxLo d.dst d d.dstSteps).toNat (boxHi d.dst d d.dstSteps).toNat

/-- A host-started descriptor in hand may still write to plane `k` (16 R368). -/
def hodTouches (s : State) (k : Nat) : Bool :=
  (List.range 8).any (fun ch =>
    let x := hod s ch
    decide (x.state = .running ∨ x.state = .aborting) && !x.deviceOwned && x.fetch.isNone &&
      (match x.desc with
       | some d => dstDram d && (planeRanges k).any (fun r =>
          decide (boxLo d.dst d d.dstSteps < (r.2 : Int) ∧ (r.1 : Int) ≤ boxHi d.dst d d.dstSteps))
       | none => false))

/-! #### Errors (15 R363) -/

/-- Error code of Table HOST-7. -/
def hodCode : HodFault → Nat
  | .descFetch => 1 | .descInvalid => 2 | .notAllowed => 3 | .srcRead => 4 | .srcPoisoned => 5 | .dstRetired => 6
  | .flushFail => 7

/-- The channel enters ERROR. -/
def hodFail (ch : Nat) (f : HodFault) (addr : Nat) (s : State) : State :=
  raiseIrq ch (logEv 0x0B06 ch (hodCode f) (addr % 2 ^ 32)
    (modHod ch (fun x => { x with
      state := .error
      errCode := hodCode f
      errAddr := addr
      fetch := none
      desc := none
      ordered := false
      pending := false }) s))

/-! #### Moving elements (15 R357, R358) -/

/-- The read requests for bytes of host memory: at most the max read request size, never across 4 KiB. -/
def hostReads (mrrs : Nat) : Nat → Nat → Nat → List Out
  | 0, _, _ => []
  | fuel + 1, addr, n =>
    if n = 0 then [] else
      let k := min n (min mrrs (4096 - addr % 4096))
      Out.hostRead addr k :: hostReads mrrs fuel (addr + k) (n - k)

/-- Issue the read requests of a run of host memory. -/
def askHost (addr n : Nat) (s : State) : State := { s with out := (hostReads s.pcie.maxRead (n + 1) addr n).reverse ++ s.out }

/-- Read an element from device DRAM in the aligned 64-byte units that cover it (15 R358). -/
def readUnits (a n : Nat) (s : State) : Bytes × Bool × State :=
  let lo := a / 64 * 64
  let hi := (a + n + 63) / 64 * 64
  let (b, bad, s1) := dramRead lo (hi - lo) s
  (slice b (a - lo) n, bad, s1)

/-- The first address of a run that lies on a channel out of service. -/
def firstRetired (a n : Nat) (s : State) : Option Nat :=
  ((List.range n).map (fun i => a + i)).find? (fun x => !channelUp s (channelOf x))

/-- Read element `e`: its bytes, or the error that stops it. -/
def readElem (d : HodDesc) (e : Nat) (fromHost : Bytes) (s : State) : Except (HodFault × Nat) Bytes × State :=
  if srcDram d then
    let (b, bad, s1) := readUnits (srcAddr d e) d.elemSize s
    (if bad then .error (.srcPoisoned, srcAddr d e) else .ok b, s1)
  else (.ok fromHost, askHost (srcAddr d e) d.elemSize s)

/-- Write element `e`, or the error that stops it. -/
def writeElem (d : HodDesc) (e : Nat) (b : Bytes) (s : State) : Option (HodFault × Nat) × State :=
  if dstDram d then
    match firstRetired (dstAddr d e) d.elemSize s with
    | some a => (some (.dstRetired, a), s)
    | none => (none, dramWrite (dstAddr d e) b s)
  else (none, hostWrite (dstAddr d e) b s)

/-- Copy `n` elements from element `e` on, each read whole and then written: how many were done, and what stopped them. -/
def copyElems (ch : Nat) (d : HodDesc) : Nat → Nat → Bytes → State → Nat × Option (HodFault × Nat) × State
  | 0, e, _, s => (e, none, s)
  | n + 1, e, h, s =>
    match readElem d e (slice h 0 d.elemSize) s with
    | (.error f, s1) => (e, some f, s1)
    | (.ok b, s1) =>
      match writeElem d e b s1 with
      | (some f, s2) => (e, some f, s2)
      | (none, s2) =>
        copyElems ch d n (e + 1) (h.drop d.elemSize)
          (modHod ch (fun x => { x with done := e + 1, bytes := wrap64 (x.bytes + d.elemSize) }) s2)

/-- Copy the channel's elements up to `upTo`; NEXT_BYTES then counts the elements done. -/
def advance (ch : Nat) (d : HodDesc) (upTo : Nat) (h : Bytes) (s : State) : Option (HodFault × Nat) × State :=
  let x := hod s ch
  let (e, f, s1) := copyElems ch d (upTo - x.done) x.done h s
  (f, modHod ch (fun x => { x with nextBytes := wrap64 (e * d.elemSize) }) s1)

/-- The descriptor stalls: it needs host memory that the device cannot reach (15 R351), or device DRAM while a fatal fault
makes it inaccessible (12 Table GUAR-1). -/
def hodStalled (s : State) (d : HodDesc) : Bool :=
  (!canMaster s && (!srcDram d || !dstDram d)) || (s.power.fatal && (srcDram d || dstDram d))

/-! #### Fetch (15 R353, R354, R362) -/

/-- Halt at END. -/
def haltAtEnd (ch : Nat) (s : State) : State :=
  let s1 := modHod ch (fun x => { x with
    state := .endHalt, haltAddr := x.descAddr, fetch := none, desc := none, ordered := false }) s
  if bit (hod s ch).ctrl 1 then raiseIrq ch s1 else s1

/-- A re-fetch has read CTRL and NEXT of the descriptor that completed with END set (15 R362). -/
def refetched (ch : Nat) (b : Bytes) (s : State) : State :=
  let d := descOf b
  if dEnd d then haltAtEnd ch s
  else if d.next % 64 ≠ 0 then hodFail ch .descInvalid (hod s ch).descAddr s
  else modHod ch (fun x => { x with fetch := some d.next, desc := none }) s

/-- A whole descriptor has been fetched from `addr`: it is checked and starts at the element to be skipped to. -/
def startDesc (ch addr : Nat) (b : Bytes) (s : State) : State :=
  let d := descOf b
  let skip := (hod s ch).startSkip
  let s1 := modHod ch (fun x => { x with
    startSkip := 0, descAddr := addr, nextBytes := wrap64 (skip * d.elemSize), done := skip }) s
  if descInvalid s b d skip then hodFail ch .descInvalid addr s1
  else if boxProtected s d then hodFail ch .notAllowed addr s1
  else modHod ch (fun x => { x with fetch := none, desc := some d, ordered := runsOrdered d }) s1

/-- Act on a descriptor image read for a fetch or a re-fetch. -/
def gotDesc (ch addr : Nat) (b : Bytes) (s : State) : State :=
  if (hod s ch).desc.isSome then refetched ch b s else startDesc ch addr b s

/-- Read a descriptor and act on it: from device DRAM, or from the host as given. -/
def fetchDesc (ch addr : Nat) (host : Option Bytes) (s : State) : State :=
  if bit (hod s ch).ctrl 0 then
    if usable s ≤ addr + 63 then hodFail ch .descFetch addr s
    else
      let (b, bad, s1) := dramRead addr 64 s
      if bad then hodFail ch .descFetch addr s1 else gotDesc ch addr b s1
  else
    match host with
    | none => hodFail ch .descFetch addr (askHost addr 64 s)
    | some b => gotDesc ch addr (fit 64 b) (askHost addr 64 s)

/-- A channel works for the host. -/
def hodActive (x : HodChannel) : Bool := decide (x.state = .running) && !x.deviceOwned

/-- HOD_DESCRIPTOR_FETCH (15 R354): a fetch or re-fetch that is due reads its descriptor; `host` is what host memory
answers, none for a read that ends in error. -/
def execHodDescriptorFetch (ch : Fin 8) (host : Option (List Byte)) (s : State) : Host.Outcome State Fault Refusal :=
  .next <|
    let x := hod s ch.val
    match x.fetch with
    | none => s
    | some a =>
      if !hodActive x || (if bit x.ctrl 0 then s.power.fatal else !canMaster s) then s else fetchDesc ch.val a host s

/-! #### Doorbell and abort (15 Table HOST-5) -/

/-- A doorbell or abort that has no effect is counted. -/
def hodIgnore (ch : Nat) (s : State) : State := modHod ch (fun x => { x with ignored := sat32 (x.ignored + 1) }) s

/-- A doorbell write. -/
def hodDoorbell (ch : Nat) (s : State) : State :=
  let x := hod s ch
  if x.deviceOwned then hodIgnore ch s
  else
    match x.state with
    | .idle => modHod ch (fun x => { x with
        state := .running, lastDone := 0, resetStopped := false, fetch := some x.first, desc := none, nextBytes := 0,
        done := 0, startSkip := x.skip, skip := 0 }) s
    | .running => modHod ch (fun x => { x with pending := true }) s
    | .endHalt => modHod ch (fun x => { x with
        state := .running, fetch := some x.haltAddr, descAddr := x.haltAddr, desc := some {} }) s
    | .error => hodIgnore ch s
    | .aborting => hodIgnore ch s

/-- An abort write. -/
def hodAbort (ch : Nat) (s : State) : State :=
  let x := hod s ch
  if x.deviceOwned then hodIgnore ch s
  else
    match x.state with
    | .idle => s
    | .running => modHod ch (fun x => { x with state := .aborting }) s
    | .endHalt => modHod ch (fun x => { x with state := .idle }) s
    | .error => modHod ch (fun x => { x with state := .idle, errCode := 0 }) s
    | .aborting => hodIgnore ch s

/-- HOD_DOORBELL (15 R353). -/
def execHodDoorbell (ch : Fin 8) (s : State) : Host.Outcome State Fault Refusal :=
  .next (if bar0Served s then hodDoorbell ch.val s else s)

/-- HOD_ABORT (15 R353). -/
def execHodAbort (ch : Fin 8) (s : State) : Host.Outcome State Fault Refusal :=
  .next (if bar0Served s then hodAbort ch.val s else s)

/-- A write of one half of a channel's registers (21 R467). -/
def hodConfigWrite (ch : Nat) (reg : HodReg) (v : Nat) (s : State) : State :=
  if (hod s ch).state ≠ .idle then s
  else
    modHod ch (fun x =>
      match reg with
      | .ctrl => { x with ctrl := v % 4 }
      | .firstLo => { x with first := x.first / 2 ^ 32 * 2 ^ 32 + v / 64 * 64 }
      | .firstHi => { x with first := x.first % 2 ^ 32 + 2 ^ 32 * v }
      | .skipLo => { x with skip := x.skip / 2 ^ 32 * 2 ^ 32 + v }
      | .skipHi => { x with skip := x.skip % 2 ^ 32 + 2 ^ 32 * v }) s

/-- HOD_CONFIG_WRITE (21 R467). -/
def execHodConfigWrite (ch : Fin 8) (reg : HodReg) (value : BitVec 32) (s : State) : Host.Outcome State Fault Refusal :=
  .next (if bar0Served s then hodConfigWrite ch.val reg value.toNat s else s)

/-! #### Completion (15 R359, R362) -/

/-- The doubleword that holds the last destination byte. -/
def flushTarget (d : HodDesc) : Nat := (dstAddr d (elements d - 1) + d.elemSize - 1) / 4 * 4

/-- A descriptor completes: LAST_DONE, and only then the cause bit. -/
def signalDone (ch : Nat) (d : HodDesc) (s : State) : State :=
  let s1 := modHod ch (fun x => { x with
    lastDone := x.descAddr, nextBytes := 0, descs := wrap64 (x.descs + 1), ordered := false }) s
  if dIrq d then raiseIrq ch s1 else s1

/-- What follows a completed descriptor: NEXT, a re-fetch, or the halt. -/
def afterDone (ch : Nat) (d : HodDesc) (again : Option Bytes) (s : State) : State :=
  if !dEnd d then modHod ch (fun x => { x with fetch := some d.next, desc := none }) s
  else if (hod s ch).pending then
    let s1 := modHod ch (fun x => { x with pending := false, fetch := some x.descAddr }) s
    if !bit (hod s ch).ctrl 0 && !canMaster s then s1 else fetchDesc ch (hod s ch).descAddr again s1
  else haltAtEnd ch s

/-- The FLUSH read of a host destination. -/
def flushRead (d : HodDesc) (s : State) : State :=
  if dFlush d && !dstDram d then emit (.hostRead (flushTarget d) 0) s else s

/-- HOD_DESCRIPTOR_COMPLETE (15 R359): the rest of the descriptor's elements are moved and it completes. `host` holds the
bytes read from a host source, `refetch` what host memory answers to a re-fetch. -/
def execHodDescriptorComplete (ch : Fin 8) (host : List Byte) (refetch : Option (List Byte)) (s : State) :
    Host.Outcome State Fault Refusal :=
  .next <|
    let x := hod s ch.val
    match x.desc with
    | none => s
    | some d =>
      if !hodActive x || x.fetch.isSome || hodStalled s d then s
      else
        match advance ch.val d (elements d) host s with
        | (some f, s1) => hodFail ch.val f.1 f.2 s1
        | (none, s1) => afterDone ch.val d refetch (signalDone ch.val d (flushRead d s1))

/-! #### Errors reported from outside, aborts and resets -/

/-- The fault can be reported from outside at this point: a read of host memory, or the FLUSH read, ended in error. -/
def faultFits (d : HodDesc) (x : HodChannel) (f : HodFault) (done : Nat) : Bool :=
  match f with
  | .srcRead | .srcPoisoned => !srcDram d && decide (x.done ≤ done ∧ done < elements d)
  | .flushFail => dFlush d && !dstDram d
  | _ => false

/-- HOD_ERROR (15 R363): an access to host memory ends in error after `done` elements. -/
def execHodError (ch : Fin 8) (code : HodFault) (addr : Nat) (done : Nat) (host : List Byte) (s : State) :
    Host.Outcome State Fault Refusal :=
  .next <|
    let x := hod s ch.val
    if !hodActive x || !canMaster s then s
    else
      match x.fetch, x.desc with
      | some a, _ => if code = .descFetch ∧ bit x.ctrl 0 = false then hodFail ch.val .descFetch a s else s
      | none, none => s
      | none, some d =>
        if !faultFits d x code done then s
        else
          let upTo := if code = .flushFail then elements d else done
          match advance ch.val d upTo host s with
          | (some f, s1) => hodFail ch.val f.1 f.2 s1
          | (none, s1) =>
            hodFail ch.val code (if code = .flushFail then flushTarget d else addr) (if code = .flushFail then flushRead d s1 else s1)

/-- HOD_ABORT_DONE (15 R353, 12 R287): the elements read before the abort are written, none if the channel stalls; one
that ends the descriptor completes it, unless a FLUSH read would be due. -/
def execHodAbortDone (ch : Fin 8) (done : Nat) (host : List Byte) (s : State) : Host.Outcome State Fault Refusal :=
  .next <|
    let x := hod s ch.val
    if x.state ≠ .aborting then s
    else
      let idle (s : State) : State := modHod ch.val (fun x => { x with
        state := .idle, fetch := none, desc := none, ordered := false, pending := false, startSkip := 0 }) s
      match x.fetch, x.desc with
      | none, some d =>
        if done < x.done ∨ elements d < done ∨ (x.done < done ∧ hodStalled s d = true) then s
        else
          let (f, s1) := advance ch.val d done host s
          if f.isNone && decide (done = elements d) && (!dFlush d || dstDram d) then idle (signalDone ch.val d s1)
          else idle s1
      | _, _ => idle s

/-- Before a reset halts a channel, elements up to `done` have left the engine, as the reset's command tells; `host` holds
the bytes read from a host source (12 R287). -/
def leftEngine (p : HodProgress) (s : State) : State :=
  let ch := p.ch.val
  let x := hod s ch
  match x.fetch, x.desc with
  | none, some d =>
    if x.deviceOwned || decide (x.state ≠ .running ∧ x.state ≠ .aborting) || decide (p.done < x.done ∨ elements d < p.done) ||
        hodStalled s d then s
    else (advance ch d p.done p.host s).2
  | _, _ => s

/-- A PCIe reset or RESET_N stops every channel the host started and clears its RW registers; NEXT_BYTES keeps the count of
what had left the engine (12 R287, 15 R352, 21 R467). -/
def stopHods (l : List HodProgress) (s : State) : State :=
  forUpto 8 (fun ch s => modHod ch (fun x =>
    let y := { x with ctrl := 0, first := 0, skip := 0, startSkip := 0 }
    if x.deviceOwned then y
    else { y with
      state := .idle, errCode := 0, resetStopped := true, pending := false, ordered := false, fetch := none
      desc := none }) s) (forEach l leftEngine s)

end Sys2Proof.Machine
end

