-- ==== Sys2Proof/Machine/Delivery.lean ====
section
/-! DEFINITION. Delivery of records (08 R172 to R181, 13 R311), the planes of the stacks (08 R184 to R187), the records
synthesised for a die A reset (12 R275), and the delivery and history commands (08 R188 to R192). -/

namespace Sys2Proof.Machine

open Sys2Proof

/-! #### Rings and shares -/

/-- Records of a ring with SEQ at or after CI (08 R180). -/
def occupancy (x : DlvRing) : Nat := x.records.length

/-- The ring takes the records of a frame (08 R177). -/
def takesFrame (x : DlvRing) (f : Nat) : Bool :=
  decide (x.fromFrame ≤ f) &&
    (match x.toFrame with
     | some t => decide (f < t)
     | none => x.cfg.enable)

/-- The courses a ring serves of a frame: those of its settings in that frame's epoch (08 R177, R178). -/
def servesCourse (x : DlvRing) (c f : Nat) : Bool :=
  match x.older with
  | some (a, b, g) => if f < g then decide (a ≤ c ∧ c ≤ b) else decide (x.cfg.first ≤ c ∧ c ≤ x.cfg.last)
  | none => decide (x.cfg.first ≤ c ∧ c ≤ x.cfg.last)

/-- The ring that delivers a course's record of a frame, if any (08 R177). -/
def ringFor (s : State) (c f : Nat) : Option Nat :=
  (List.range 64).find? (fun r => servesCourse (dring s r) c f && takesFrame (dring s r) f)

/-- The numbers of the enabled rings. -/
def enabledRings (s : State) : List Nat := (List.range 64).filter (fun r => (dring s r).cfg.enable)

/-- Recompute the share of every enabled ring (08 R180). -/
def setShares (s : State) : State :=
  let e := (enabledRings s).length
  forEach (enabledRings s) (fun r s => modRing r (fun x => { x with share := 16777216 / e }) s) s

/-! #### Commit (08 R173, R175, R181) -/

/-- A record with its SEQ_LO, and its SEQ in a header or GAP record. -/
def withSeq (full : Bool) (seq : Nat) (w : Bytes) : Bytes :=
  let b := overwrite w 14 (b2 (seq % 65536))
  if full then overwrite b 24 (b8 seq) else b

/-- Close the open pallet, if it holds a record (08 R175). -/
def closePallet (x : DlvRing) : DlvRing :=
  if x.palletFrom < x.seq then { x with closed := x.closed ++ [x.seq], palletFrom := x.seq } else x

/-- Append a record to a ring at its next SEQ; a full pallet closes, and one that would cross the array's end. -/
def appendRecord (full : Bool) (w : Bytes) (born : Option Nat) (t : Nat) (x : DlvRing) : DlvRing :=
  let x1 : DlvRing :=
    { x with
      records := x.records ++ [⟨x.seq, withSeq full x.seq w, born⟩]
      openAt := if x.palletFrom = x.seq then t else x.openAt
      seq := x.seq + 1 }
  if x1.seq - x1.palletFrom = 32 ∨ x1.seq % 2 ^ x1.cfg.log2 = 0 then closePallet x1 else x1

/-- A GAP record (08 Table TILE-5), its SEQ still 0. -/
def gapBytes (r first last epoch dropped : Nat) : Bytes :=
  b4 (first % turn) ++ b4 0x80000000 ++ b2 epoch ++ b1 r ++ b1 0 ++ b2 0x80 ++ b2 0 ++ b4 (last % turn) ++ b4 0 ++
    b8 0 ++ b8 dropped ++ zeros 24

/-- Commit a GAP record to a ring. -/
def commitGap (r first last dropped : Nat) (s : State) : State :=
  let w := gapBytes r first last (epochNo s) dropped
  logEv 0x0501 r (first % turn) (last % turn)
    (modRing r (fun x => { (appendRecord true w none (now s) x) with gaps := sat32 (x.gaps + 1) }) s)

/-- A GAP due after a loss goes before the next record (12 R281, R284). -/
def commitDueGap (r : Nat) (s : State) : State :=
  match (dring s r).gapDue with
  | some (first, last, n) => commitGap r first last n (modRing r (fun x => { x with gapDue := none }) s)
  | none => s

/-- Count a discarded record. -/
def discard (frame : Nat) (x : DlvRing) : DlvRing :=
  if x.dropping then { x with dropCount := x.dropCount + 1, dropped := wrap64 (x.dropped + 1) }
  else { x with dropping := true, dropFirst := frame, dropCount := 1, dropped := wrap64 (x.dropped + 1) }

/-- Commit a tile record to a ring, or discard it (08 R173, R181). -/
def commitTile (r frame : Nat) (w : Bytes) (born : Nat) (s : State) : State :=
  let x := dring s r
  let late : Bool := match x.gapLast with
    | some g => decide (frame ≤ g)
    | none => false
  if x.dropping then modRing r (discard frame) s
  else if late then modRing r (fun x => { x with dropped := wrap64 (x.dropped + 1) }) s
  else
    let s1 := commitDueGap r s
    if (dring s1 r).share < occupancy (dring s1 r) + 1 then modRing r (discard frame) s1
    else modRing r (appendRecord false w (some born) (now s)) s1

/-! #### Arrival (08 R173, R179, R184) -/

/-- The plane that holds a frame. -/
def planeOf (s : State) (f : Nat) : Option Nat :=
  (List.range s.dlv.depth).find? (fun k => decide ((plane s k).frame = some f))

/-- A record that arrives now has no stored slot: its frame has no plane, or its slots stopped with Mortar lanes (08 R184,
14 R339). -/
def undepicted (s : State) (f : Nat) : Bool := (planeOf s f).isNone || s.dlv.decimated.contains f

/-- FLAGS with HISTORY_DECIMATED where it applies. -/
def withDecimated (s : State) (f flags : Nat) : Nat := if undepicted s f then flags ||| 16 else flags

/-- The slot queued with a record that arrives after its frame's slots stopped is lost; its tag says what the record says
(14 R339, 08 R187). A slot whose record arrived before counts as sent (DESIGN CHOICE, log 108). -/
def loseSlot (f t : Nat) (s : State) : State :=
  if s.dlv.decimated.contains f then
    { s with dlv.slots := s.dlv.slots.map (fun x =>
        if x.frame = f ∧ x.tile = t then
          { x with lost := true, tag := overwrite x.tag 16 (b2 (u16 x.tag 16 ||| 16)) }
        else x) }
  else s

/-- A tile record is empty in the sense of R179. -/
def emptyRecord (w : Bytes) : Bool :=
  decide (u32 w 4 / 2 ^ 30 = 0 ∧ u16 w 12 = 0 ∧ u16 w 52 = 0 ∧ u16 w 54 = 0 ∧ u8 w 56 = 0)

/-- Note that a tile's record has arrived. -/
def noteArrived (f t : Nat) (s : State) : State :=
  { s with dlv.arrived := s.dlv.arrived.map (fun e => if e.1 = f then (e.1, (e.2.1, t :: e.2.2)) else e) }

/-- A record reaches die B: it is suppressed, or written to both copies of the delivery buffer (08 R173, R177, R179). -/
def arriveRecord (x : TileResult) (s : State) : State :=
  let s := loseSlot x.frame x.tile (noteArrived x.frame x.tile s)
  let w := overwrite x.record 12 (b2 (withDecimated s x.frame (u16 x.record 12)))
  match ringFor s (x.tile / 2048) x.frame with
  | none => s
  | some r =>
    if (dring s r).cfg.suppress && emptyRecord w then
      modRing r (fun y => { y with
        suppressed := wrap64 (y.suppressed + 1)
        suppPrev := if x.frame = s.angle.frame then y.suppPrev + 1 else y.suppPrev
        suppLate := if x.frame = s.angle.frame then y.suppLate else y.suppLate + 1 }) s
    else { s with dlv.written := s.dlv.written ++ [⟨r, x.frame, w, x.born⟩] }

/-- Die B stores records: DRAM holds the delivery buffer (08 R173, 12 R281). -/
def delivers (s : State) : Bool := s.power.main && dramUsable s && !s.dlv.stopped && !s.power.fatal

/-- Take the oldest record off the Mortar link. -/
def recordArrival (s : State) : State :=
  match s.dlv.link with
  | [] => s
  | x :: rest => arriveRecord x { s with dlv.link := rest }

/-- RECORD_ARRIVAL (08 R173): a tile record arrives in full over the Mortar link. -/
def execRecordArrival (s : State) : Host.Outcome State Fault Refusal :=
  .next (if delivers s && s.lanes.mortarUp then recordArrival s else s)

/-- Commit the oldest written record: both copies have acknowledged it. -/
def recordCommit (s : State) : State :=
  match s.dlv.written with
  | [] => s
  | w :: rest => commitTile w.ring w.frame w.record w.born { s with dlv.written := rest }

/-- RECORD_COMMIT (08 R173). -/
def execRecordCommit (s : State) : Host.Outcome State Fault Refusal :=
  .next (if delivers s then recordCommit s else s)

/-- Every record whose processing ended before a boundary is committed before its header (08 R172, DEDUCED, log 33). -/
def flushRecords (s : State) : State :=
  let s1 := forUpto s.dlv.link.length (fun _ s => recordArrival s) s
  forUpto s1.dlv.written.length (fun _ s => recordCommit s) s1

/-! #### Frame headers (08 R172, R181) -/

/-- The frame header record, its SEQ still 0 (08 Table TILE-4); `r` 0xFF in a history copy. -/
def headerBytes (s : State) (r : Nat) (suppOn : Bool) (prev late : Nat) (first last : Nat) (step : Bool) : Bytes :=
  let f := s.angle.frame
  let k := planeOf s f
  let flags := bitmap [s.time.valid, s.time.disciplined, step, k.isNone, suppOn, false, false, true]
  b4 (f % turn) ++ b4 (first + 128 * last + 0x40000000) ++ b2 (epochNo s) ++ b1 r ++ b1 0 ++ b2 flags ++ b2 0 ++
    b8 s.time.v ++ b8 0 ++ b8 (now s) ++ b4 (k.getD 0xFFFFFFFF) ++ b4 (sat32 prev) ++
    b2 (if ringMember s then ownNode s else 0) ++ b2 0 ++ b4 (sat32 late) ++ zeros 8

/-- A ring in DROPPING leaves it at this boundary: its occupancy is at most half its share (08 R181). -/
def resumes (x : DlvRing) : Bool := x.dropping && decide (2 * occupancy x ≤ x.share)

/-- A ring leaves DROPPING with a GAP record, after the one due for a loss (08 R181; 12 R281, R284). -/
def resumeRing (r : Nat) (s : State) : State :=
  let x := dring s r
  let f := s.angle.frame
  commitGap r x.dropFirst (f - 1) x.dropCount
    (modRing r (fun x => { x with dropping := false, dropCount := 0, gapLast := some (f - 1) }) (commitDueGap r s))

/-- The header of the new frame goes to one ring: after the GAP records due, or it is discarded while the ring drops or is
full. -/
def commitHeader (step : Bool) (r : Nat) (s : State) : State :=
  let f := s.angle.frame
  let s1 := if resumes (dring s r) then resumeRing r s else if (dring s r).dropping then s else commitDueGap r s
  let y := dring s1 r
  if y.dropping || decide (y.share < occupancy y + 1) then
    modRing r (fun y => { (discard f y) with suppPrev := 0, suppLate := y.suppLate + y.suppPrev }) s1
  else
    let w := headerBytes s1 r y.cfg.suppress y.suppPrev y.suppLate y.cfg.first y.cfg.last step
    modRing r (fun y => { (closePallet (appendRecord true w none (now s) y)) with suppPrev := 0, suppLate := 0 }) s1

/-- Commit the header of the new frame to every enabled ring, in ascending order. -/
def commitHeaders (step : Bool) (s : State) : State := forEach (enabledRings s) (commitHeader step) s

/-! #### Pallets (08 R174 to R176, 13 R311, R312) -/

/-- PALLET_TIMEOUT (08 R175): the open pallet closes. -/
def execPalletTimeout (r : Fin 64) (s : State) : Host.Outcome State Fault Refusal :=
  .next <|
    let x := dring s r.val
    if x.palletFrom < x.seq ∧ x.openAt + 1000 * x.cfg.palletTimeout ≤ now s then modRing r.val closePallet s else s

/-- The sink of this device's records: the master, when this device has no PCI Express of its own (13 R311). -/
def sinkOf (s : State) : Option Nat :=
  if canMaster s then none
  else if ringMember s && decide (s.ring.master ≠ 0 ∧ s.ring.master ≠ ownNode s) then some s.ring.master
  else none

/-- Records may leave: by PCI Express or to a sink. -/
def canDeliver (s : State) : Bool := canMaster s || (sinkOf s).isSome

/-- One past the last SEQ that the next burst writes: the target, the host's room, 32 records and the array's end. -/
def burstEnd (x : DlvRing) : Nat :=
  let size := 2 ^ x.cfg.log2
  let target := if x.replay = 2 then x.seq else x.closed.headD x.toWrite
  min (min target (x.ci + size)) (min (x.toWrite + 32) ((x.toWrite / size + 1) * size))

/-- The rewrite after a reset ends at this burst (08 R176). -/
def replayEnds (x : DlvRing) (n : Nat) : Bool := decide (x.replay = 2 ∧ min x.seq (x.ci + 2 ^ x.cfg.log2) ≤ n)

/-- A corrected or uncorrectable word is met in the delivery buffer; which word, syndrome and position is free (16 R372,
R374). -/
def bufferError (bad : Bool) (s : State) : State :=
  let (k, s1) := drawFree s
  let w := Config.bufferWord k % 0x10800000
  if bad then noteUe w s1 else noteCe w (Config.bufferSyndrome k % 256) (Config.bufferBit k % 72) s1

/-- Read the two copies of a record as R376 says: counts, and whether it leaves poisoned. -/
def readCopies (r seq : Nat) (faults : List (Nat × CopyFault)) (s : State) : Bool × State :=
  match faults.find? (fun f => f.1 == seq) with
  | none => (false, s)
  | some (_, .corrected) => (false, bufferError false s)
  | some (_, .firstBad) =>
    let s1 := bufferError true s
    (false, { s1 with mem.fallbacks := sat32 (s1.mem.fallbacks + 1) })
  | some (_, .bothBad) => (true, logEv 0x0503 r (seq % turn) (seq / turn) (bufferError true (bufferError true s)))

/-- Read the records of a burst: each with its poison. -/
def readBurst (r : Nat) (faults : List (Nat × CopyFault)) : List DlvRecord → State → List (DlvRecord × Bool) × State
  | [], s => ([], s)
  | x :: l, s =>
    let (bad, s1) := readCopies r x.seq faults s
    let (rest, s2) := readBurst r faults l s1
    ((x, bad) :: rest, s2)

/-- Raise a ring's vector after a PI write, or leave it to the end of the hold-off if PI has advanced since the last
interrupt (08 R175); true when it is raised. -/
def ringIrq (r : Nat) (s : State) : Bool × State :=
  let x := dring s r
  if x.cfg.vector = 0xFF then (false, s)
  else
    let free : Bool := match x.lastIrq with
      | some t => decide (t + 1000 * x.cfg.irqHoldoff ≤ now s)
      | none => true
    if free then (true, modRing r (fun x => { x with lastIrq := some (now s), irqPi := x.pi, irqPending := false }) s)
    else (false, modRing r (fun x => { x with irqPending := x.irqPending || decide (x.irqPi < x.pi) }) s)

/-- Note a PI write: the measured delivery times of the tile records it is the first to cover, and the closed pallets it
ends (08 R191). -/
def notePi (n t : Nat) (x : DlvRing) : DlvRing :=
  let fresh := x.records.filter (fun y => decide (x.pi ≤ y.seq ∧ y.seq < n))
  { x with
    pi := n
    closed := x.closed.filter (fun e => decide (n < e))
    replay := if x.replay = 2 then 0 else x.replay
    lastPiFrame := match fresh.getLast? with
      | some w => u32 w.bytes 0
      | none => x.lastPiFrame
    maxDelivery := sat32 (max x.maxDelivery (listMax (fresh.filterMap (fun w => w.born.map (fun b => t - b))))) }

/-- Write the next burst of a ring on PCI Express. -/
def writeBurst (r : Nat) (faults : List (Nat × CopyFault)) (s : State) : State :=
  let x := dring s r
  let n := burstEnd x
  let final := decide (x.replay ≠ 2) || replayEnds x n
  let recs := x.records.filter (fun y => decide (x.toWrite ≤ y.seq ∧ y.seq < n))
  let (l, s1) := readBurst r faults recs s
  let slot (seq : Nat) : Nat := x.cfg.base + 64 * (seq % 2 ^ x.cfg.log2)
  let s2 := if l.any (fun e => e.2) then forEach l (fun e s => hostWriteEp e.2 (slot e.1.seq) e.1.bytes s) s1
    else hostWrite (slot x.toWrite) (recs.flatMap (fun y => y.bytes)) s1
  let s3 := modRing r (fun x => { x with toWrite := n }) s2
  if !final then s3
  else
    let s4 := hostWrite x.cfg.piAddr (b8 n) (modRing r (notePi n (now s)) s3)
    let (irq, s5) := ringIrq r s4
    if irq then msixSend x.cfg.vector s5 else s5

/-- Send the next burst of a ring to the sink (13 Table RING-7). -/
def sendBurst (sink r : Nat) (faults : List (Nat × CopyFault)) (s : State) : State :=
  let x := dring s r
  let n := burstEnd x
  let final := decide (x.replay ≠ 2) || replayEnds x n
  let recs := x.records.filter (fun y => decide (x.toWrite ≤ y.seq ∧ y.seq < n))
  let (_, s1) := readBurst r faults recs s
  let s2 := modRing r (fun x =>
    let y := { x with toWrite := n }
    if final then notePi n (now s) y else y) s1
  let (irq, s3) := if final then ringIrq r s2 else (false, s2)
  e2eSend 2 1 sink (b1 r ++ b1 recs.length ++ b1 (if irq then x.cfg.vector else 0xFF) ++ b1 0 ++
    b8 (x.cfg.base + 64 * (x.toWrite % 2 ^ x.cfg.log2)) ++ b8 (if final then n else x.pi) ++ b8 x.cfg.piAddr ++
    recs.flatMap (fun y => y.bytes)) s3

/-- PALLET_WRITE (08 R175): the next burst of a closed pallet, or of the rewrite after a reset, leaves for the host. -/
def execPalletWrite (r : Fin 64) (faults : List (Nat × CopyFault)) (s : State) : Host.Outcome State Fault Refusal :=
  .next <|
    let x := dring s r.val
    if !delivers s || x.replay = 1 || burstEnd x ≤ x.toWrite then s
    else if canMaster s then writeBurst r.val faults s
    else
      match sinkOf s with
      | some k => sendBurst k r.val faults s
      | none => s

/-- IRQ_HOLDOFF_END (08 R175). -/
def execIrqHoldoffEnd (r : Fin 64) (s : State) : Host.Outcome State Fault Refusal :=
  .next <|
    let x := dring s r.val
    let due : Bool := match x.lastIrq with
      | some t => decide (t + 1000 * x.cfg.irqHoldoff ≤ now s)
      | none => true
    if x.irqPending && due && canMaster s then
      msixSend x.cfg.vector
        (modRing r.val (fun x => { x with lastIrq := some (now s), irqPi := x.pi, irqPending := false }) s)
    else s

/-! #### The consumer index (08 R176, 13 R311) -/

/-- A ring's CI is to be read: records wait, room is short, the rewrite waits for it, or a disabled ring empties. -/
def wantsCi (x : DlvRing) : Bool :=
  decide (x.replay = 1 ∨ x.pi < x.seq ∨ x.ci + 2 ^ x.cfg.log2 < x.pi + 32) || !x.records.isEmpty

/-- CI_POLL (08 R176): the device reads CI_ADDR, itself or through the sink. -/
def execCiPoll (r : Fin 64) (s : State) : Host.Outcome State Fault Refusal :=
  .next <|
    let x := dring s r.val
    if !delivers s || x.ciRead.isSome || !wantsCi x then s
    else
      let s1 := modRing r.val (fun x => { x with ciRead := some (now s) }) s
      if canMaster s then emit (.hostRead x.cfg.ciAddr 8) s1
      else
        match sinkOf s with
        | some k => e2eSend 2 3 k (b1 0 ++ b1 r.val ++ b2 0 ++ b8 x.cfg.ciAddr) s1
        | none => s

/-- A ring once its CI has been read after a pause: what lies from CI on is written again before PI (08 R176). -/
def startRewrite (x : DlvRing) : DlvRing :=
  let y := closePallet { x with toWrite := x.ci, closed := x.closed.filter (fun e => decide (x.pi < e)) }
  { y with replay := if y.ci < y.seq then 2 else 0 }

/-- The consumer has moved to `ci`: its records leave the buffer, and a rewrite in progress goes on from there. -/
def moveCi (ci : Nat) (x : DlvRing) : DlvRing :=
  let w := max x.toWrite ci
  { x with
    ci := ci
    records := x.records.filter (fun y => decide (ci ≤ y.seq))
    toWrite := w
    replay := if x.replay = 2 ∧ x.seq ≤ w then 0 else x.replay }

/-- Take a CI read from the host (08 R176). -/
def takeCi (r ci : Nat) (s : State) : State :=
  let x := dring s r
  let s0 := modRing r (fun x => { x with ciRead := none }) s
  let s1 := if ci < x.ci ∨ x.pi < ci then
      logEv 0x0502 r (ci % turn) 0 (modRing r (fun x => { x with badConsumer := sat32 (x.badConsumer + 1) }) s0)
    else modRing r (moveCi ci) s0
  if x.replay = 1 then modRing r startRewrite s1 else s1

/-- CI_READ_COMPLETE (08 R176). -/
def execCiReadComplete (r : Fin 64) (ci : BitVec 64) (s : State) : Host.Outcome State Fault Refusal :=
  .next (if (dring s r.val).ciRead.isSome ∧ delivers s = true then takeCi r.val ci.toNat s else s)

/-- Delivery pauses: after it, CI is read first and what the host may have missed is written again (08 R176). -/
def pauseDelivery (s : State) : State :=
  forUpto 64 (fun r s =>
    let x := dring s r
    if x.records.isEmpty && !x.cfg.enable then s
    else modRing r (fun x => { x with replay := 1, ciRead := none }) s) s

/-! #### Configuration of a ring at COMMIT (08 R177, R178) -/

/-- A ring enabled or reconfigured from frame `f` on: its SEQ restarts. A ring that was enabled goes on with the records
of its earlier frames, by its earlier courses; what its interrupts wait for stays (08 R175, R177, R178). -/
def freshRing (f : Nat) (cfg : RingSettings) (x : DlvRing) : DlvRing :=
  { gaps := x.gaps, dropped := x.dropped, suppressed := x.suppressed, badConsumer := x.badConsumer,
    maxDelivery := x.maxDelivery, cfg := cfg, lastPiFrame := f, lastIrq := x.lastIrq, irqPending := x.irqPending,
    fromFrame := if x.cfg.enable then x.fromFrame else f,
    older := if x.cfg.enable then some (x.cfg.first, x.cfg.last, f) else none }

/-- DLV_SET_RING takes effect at a boundary: `f` is the first frame of the new epoch. The write of PI 0 raises the ring's
vector as every PI write does (08 R175, R178). -/
def applyRing (r f : Nat) (cfg : RingSettings) (s : State) : State :=
  let x := dring s r
  if cfg.enable then
    let s1 := hostWrite cfg.piAddr (b8 0) (setShares (modRing r (freshRing f cfg) s))
    let (irq, s2) := ringIrq r s1
    if irq then msixSend cfg.vector s2 else s2
  else if x.cfg.enable then
    setShares (modRing r (fun x => { x with cfg := { x.cfg with enable := false }, toFrame := some f }) s)
  else modRing r (fun x => { x with cfg := { cfg with first := x.cfg.first, last := x.cfg.last } }) s

/-! #### Planes (08 R184 to R187) -/

/-- The frames that hold a plane. -/
def heldFrames (s : State) : List Nat := (List.range s.dlv.depth).filterMap (fun k => (plane s k).frame)

/-- The oldest frame still held. -/
def oldestFrame (s : State) : Option Nat := (heldFrames s).min?

/-- The part of a frame range from frame `next` on, as distances from it. -/
def aheadOf (next : Nat) (r : Nat × Nat) : Option (Nat × Nat) :=
  if notBefore r.2 next then some (if notBefore r.1 next then ringDist 32 next r.1 else 0, ringDist 32 next r.2)
  else none

/-- The numbers from `m` on that intervals in ascending order of their first number cover. -/
def unionSize : Nat → List (Nat × Nat) → Nat
  | _, [] => 0
  | m, (a, b) :: l =>
    let a' := max a m
    if b < a' then unionSize m l else (b + 1 - a') + unionSize (b + 1) l

/-- Planes that the frozen ranges and the running reads keep or will keep: frames that hold a plane now, and frames still
to come that a range covers, each counted once (08 R189, R190). -/
def keptCount (s : State) (ranges : List (Nat × Nat)) (held : List Nat) : Nat :=
  let here := (heldFrames s).filter (fun f => ranges.any (fun r => inRange f r.1 r.2) || held.contains f)
  here.length + unionSize 0 (sortBy (fun x => x.1) (ranges.filterMap (aheadOf ((frameNo s + 1) % turn))))

/-- FREEZE_HISTORY (08 R189). -/
def freezeHistory (p : Bytes) (s : State) : State × Reply :=
  let r := (u32 p 4, u32 p 8)
  if u8 p 0 = 0 then
    let ranges := s.dlv.frozen ++ [r]
    if 8 < ranges.length ∨ s.dlv.depth < keptCount s ranges (s.dlv.reads.flatMap (fun x => x.frames)) + 8 then
      (s, noResource)
    else if (match oldestFrame s with | some f => !notBefore r.1 f | none => false) then (s, badField 4)
    else (logEv 0x0505 0 r.1 r.2 { s with dlv.frozen := ranges }, ok)
  else if s.dlv.frozen.contains r then (logEv 0x0505 1 r.1 r.2 { s with dlv.frozen := s.dlv.frozen.erase r }, ok)
  else (s, badField 4)

/-- The field checks of FREEZE_HISTORY. -/
def freezeFields (p : Bytes) : Option Reply :=
  fixedPayload p 12 [(decide (u8 p 0 < 2), 0), rsv p 1 3, (notBefore (u32 p 8) (u32 p 4), 8)]

/-- The frozen ranges once every FREEZE_HISTORY accepted so far has run: a freeze protects its frames from its acceptance
on (08 R189). -/
def frozenAhead (s : State) : List (Nat × Nat) :=
  (forEach (s.mbx.journal.filter (fun e => e.accepted && !e.started && !e.done && decide (hOp e.header = 0x0503)))
    (fun e x => if (freezeFields e.payload).isNone then (freezeHistory e.payload x).1 else x) s).dlv.frozen

/-- A frame is held by a running READ_HISTORY (08 R190). -/
def frameHeld (s : State) (f : Nat) : Bool := s.dlv.reads.any (fun x => x.frames.contains f)

/-- A plane is frozen, now or by a freeze already accepted, or held, or a Hod descriptor in hand writes to it (08 R185,
R189, 16 R368). -/
def planeKept (s : State) (k : Nat) : Bool :=
  hodTouches s k ||
    (match (plane s k).frame with
     | some f => (s.dlv.frozen ++ frozenAhead s).any (fun r => inRange f r.1 r.2) || frameHeld s f
     | none => false)

/-- The next plane after the last one taken that is neither frozen nor held. -/
def nextPlane (s : State) : Option Nat :=
  let d := s.dlv.depth
  let first := match s.dlv.lastPlane with
    | some k => k + 1
    | none => 0
  ((List.range d).map (fun i => (first + i) % d)).find? (fun k => !planeKept s k)

/-- The new frame takes a plane by the lane count judged at the boundary: none of odd frames, or none at all (08 R184,
R185). Its header copy is written. -/
def takePlane (step : Bool) (s : State) : State :=
  let f := s.angle.frame
  let skip := decide (s.lanes.decimate = 2 ∨ (s.lanes.decimate = 1 ∧ f % 2 = 1))
  if skip || !dramUsable s then s
  else
    match nextPlane s with
    | none => s
    | some k =>
      let s1 := modPlane k (fun _ => { frame := some f }) { s with dlv.lastPlane := some k }
      dramWrite (headerAddr k) (headerBytes s1 0xFF false 0 0 0 127 step) s1

/-- Write a tile's slot and tag to the plane of its frame; without a plane, or when its slots are lost, it is dropped. -/
def storeSlot (f t : Nat) (tag : Bytes) (slot : Tab Byte) (s : State) : State :=
  match planeOf s f with
  | none => s
  | some k =>
    let s1 := dramWrite (slotAddr k t) ((List.range 2048).map (fun i => tabGet 0 slot i)) s
    modPlane k (fun p => { p with written := if p.written.contains t then p.written else t :: p.written })
      (dramWrite (tagAddr k t) tag s1)

/-- The tag of an INCOMPLETE tile: FLAGS and EPOCH (12 R275). -/
def incompleteTag (epoch flags : Nat) : Bytes := zeros 16 ++ b2 flags ++ zeros 10 ++ b2 epoch ++ zeros 2

/-- A record that was queued no later than a slot has still to leave: its class goes first (01 R15). -/
def recordFirst (s : State) (x : TileResult) : Bool := s.dlv.link.any (fun y => decide (y.queued ≤ x.queued))

/-- A slot reaches die B; in place of a lost one stands an all-zero slot (14 R339). -/
def takeSlot (x : TileResult) (s : State) : State := storeSlot x.frame x.tile x.tag (if x.lost then [] else x.slot) s

/-- HISTORY_SLOT_ARRIVAL (08 R185): the oldest history slot on the Mortar link arrives, behind the records queued with or
before it. -/
def execHistorySlotArrival (s : State) : Host.Outcome State Fault Refusal :=
  .next <|
    if !delivers s || !s.lanes.mortarUp then s
    else
      match s.dlv.slots with
      | [] => s
      | x :: rest => if recordFirst s x then s else takeSlot x { s with dlv.slots := rest }

/-! #### INCOMPLETE records (12 R275) -/

/-- The record of an interrupted tile. -/
def incompleteRecord (f tile epoch flags : Nat) : Bytes :=
  b4 (f % turn) ++ b4 tile ++ b2 epoch ++ b2 0 ++ b2 flags ++ zeros 46 ++ b1 8 ++ zeros 3

/-- The frames a die A reset interrupts: the frame in progress and those with a tile in processing or on the link. -/
def interrupted (s : State) : List Nat :=
  (s.dlv.arrived.map (fun e => e.1)).filter (fun f =>
    (s.angle.inFrame && decide (f = s.angle.frame)) || s.eng.tiles.any (fun t => t.frame == f) ||
      s.dlv.link.any (fun x => x.frame == f))

/-- Synthesise one tile's record and slot. -/
def synthesise (f epoch : Nat) (have_ : List Nat) (tile : Nat) (s : State) : State :=
  if have_.contains tile then s
  else
    let s1 := storeSlot f tile (incompleteTag epoch 0x8000) [] s
    match ringFor s1 (tile / 2048) f with
    | some r => commitTile r f (incompleteRecord f tile epoch 0x8000) (now s) s1
    | none => s1

/-- The number of records a reset synthesises. -/
def synthCount (s : State) : Nat :=
  listSum ((interrupted s).map (fun f => 262144 - ((tabGet (0, []) s.dlv.arrived f).2).length))

/-- A slot lost with the Mortar link although its record has arrived: an all-zero slot takes its place, under the record's
tag (DESIGN CHOICE, log 109). -/
def dropSlot (x : TileResult) (s : State) : State :=
  if s.dlv.link.any (fun y => y.frame == x.frame && y.tile == x.tile) then s else storeSlot x.frame x.tile x.tag [] s

/-- Die B commits an INCOMPLETE record for every tile of the interrupted frames without a record, in ascending tile
index, after the records it already holds (12 R275). -/
def synthesiseAll (s : State) : State :=
  let s0 := forEach s.dlv.slots dropSlot (forUpto s.dlv.written.length (fun _ s => recordCommit s) s)
  let fs := interrupted s0
  let s1 := forEach fs (fun f s =>
    let e := tabGet (0, []) s.dlv.arrived f
    forUpto 262144 (synthesise f e.1 e.2) s) s0
  { s1 with dlv.link := [], dlv.slots := [], dlv.arrived := [] }

/-- Forget frames whose tiles have all left die A, and begin to note the arrivals of the new frame. -/
def openArrivals (s : State) : State :=
  let busy (f : Nat) : Bool := s.eng.tiles.any (fun t => t.frame == f) || s.dlv.link.any (fun x => x.frame == f)
  { s with dlv.arrived :=
      tabInsert (s.dlv.arrived.filter (fun e => busy e.1)) s.angle.frame (s.angle.epoch, []) }

/-! #### Commands (08 R188 to R192) -/

/-- Ring settings of a DLV_SET_RING payload. -/
def ringSettings (p : Bytes) : RingSettings :=
  { enable := decide (u8 p 1 = 1), first := u8 p 2, last := u8 p 3, suppress := decide (u8 p 4 = 1), log2 := u8 p 5,
    vector := u8 p 6, base := u64 p 8, piAddr := u64 p 16, ciAddr := u64 p 24, palletTimeout := u16 p 32,
    irqHoldoff := u16 p 34 }

/-- Add settings to the staging set under the command's JSEQ (11 R247). -/
def stage (jseq : Nat) (x : StagedSetting) (s : State) : State :=
  modEntry jseq (fun e => { e with stage := .staged }) { s with mbx.staging := s.mbx.staging ++ [(jseq, x)] }

/-- DLV_SET_RING (08 R188). -/
def execDlvSetRing (mb : Fin 8) (s : State) : Host.Outcome State Fault Refusal :=
  runCommand 0x0501 mb (fun _ j p s =>
    checked (fixedPayload p 48 [(decide (u8 p 0 < 64), 0), (decide (u8 p 1 < 2), 1), (decide (u8 p 2 < 128), 2),
      (within (u8 p 2) (u8 p 3) 127, 3), (decide (u8 p 4 < 2), 4), (within 11 (u8 p 5) 24, 5),
      (decide (u8 p 6 < 64 ∨ u8 p 6 = 0xFF), 6), rsv p 7 1, (decide (u64 p 8 % 4096 = 0), 8),
      (decide (u64 p 16 % 8 = 0), 16), (decide (u64 p 24 % 8 = 0), 24), (within 1 (u16 p 32) 28, 32),
      (decide (u16 p 34 ≤ 1000), 34), rsv p 36 12]) s
      (fun _ => (stage j (.ring (u8 p 0) (ringSettings p)) s, ok))) s

/-- STATE of DLV_STATUS (08 Table TILE-11). -/
def ringState (x : DlvRing) : Nat :=
  if !x.cfg.enable then (if x.records.isEmpty then 0 else 4)
  else if x.dropping then 3
  else if x.ci + 2 ^ x.cfg.log2 ≤ x.pi then 2 else 1

/-- The DLV_STATUS result of a ring (08 Table TILE-11). -/
def dlvStatus (s : State) (r : Nat) : Bytes :=
  let x := dring s r
  b1 r ++ b1 (ringState x) ++ b2 0 ++ b4 x.share ++ b8 x.seq ++ b8 x.pi ++ b8 x.ci ++ b4 (occupancy x) ++ b4 x.gaps ++
    b8 x.dropped ++ b8 x.suppressed ++ b4 x.badConsumer ++ b4 x.maxDelivery

/-- DLV_STATUS (08 R191). -/
def execDlvStatus (mb : Fin 8) (s : State) : Host.Outcome State Fault Refusal :=
  runCommand 0x0502 mb (fun _ _ p s =>
    checked (fixedPayload p 4 [(decide (u8 p 0 < 64), 0), rsv p 1 3]) s (fun _ => (s, okWith (dlvStatus s (u8 p 0))))) s

/-- FREEZE_HISTORY (08 R189). -/
def execFreezeHistory (mb : Fin 8) (s : State) : Host.Outcome State Fault Refusal :=
  runCommand 0x0503 mb (fun _ _ p s =>
    checked (freezeFields p) s (fun _ => freezeHistory p s)) s

/-- A channel is busy in every state other than IDLE (15 R353). -/
def hodBusy (x : HodChannel) : Bool := decide (x.state ≠ .idle) || x.deviceOwned

/-- The unwrapped numbers of the frames a READ_HISTORY names: those that hold a plane. -/
def namedFrames (s : State) (first count : Nat) : List (Option Nat) :=
  (List.range count).map (fun i => (heldFrames s).find? (fun f => f % turn == (first + i) % turn))

/-- READ_HISTORY (08 R190). -/
def readHistory (j : Nat) (p : Bytes) (s : State) : State × Option Reply :=
  let fs := namedFrames s (u32 p 0) (u16 p 4)
  let frames := fs.filterMap id
  let isClosed (f : Nat) : Bool := match planeOf s f with
    | some k => planeClosed (plane s k)
    | none => false
  if fs.any (fun f => f.isNone) then (s, some (badField 0))
  else if !frames.all isClosed then (s, some busyEpoch)
  else if hodBusy (hod s (u8 p 7)) then (s, some noResource)
  else if s.dlv.depth < keptCount s s.dlv.frozen (frames ++ s.dlv.reads.flatMap (fun x => x.frames)) + 8 then
    (s, some noResource)
  else
    (modHod (u8 p 7) (fun x => { x with deviceOwned := true, state := .running })
      { s with dlv.reads := s.dlv.reads ++ [⟨j, u8 p 7, frames, u8 p 6, u32 p 8, u32 p 12, u64 p 16⟩] }, none)

/-- READ_HISTORY (08 R190). -/
def execReadHistory (mb : Fin 8) (s : State) : Host.Outcome State Fault Refusal :=
  runCommand 0x0504 mb (fun _ j p s =>
    match fixedPayload p 40 [(within 1 (u16 p 4) s.dlv.depth, 4), (within 1 (u8 p 6) 7, 6), (decide (u8 p 7 < 8), 7),
        (decide (u32 p 8 < 262144), 8), (within 1 (u32 p 12) (262144 - u32 p 8), 12), (decide (u64 p 16 % 64 = 0), 16),
        rsv p 24 16] with
    | some r => (s, some r)
    | none => readHistory j p s) s

/-- What a history read has written so far: address, bytes written and poisoned tiles. -/
structure HistCopy where
  /-- next host address -/
  addr : Nat
  /-- bytes written -/
  bytes : Nat := 0
  /-- poisoned tiles -/
  bad : Nat := 0
  deriving DecidableEq, Repr

/-- Put bytes at the next host address. -/
def copyOut (bs : Bytes) (c : HistCopy × State) : HistCopy × State :=
  ({ c.1 with addr := c.1.addr + bs.length, bytes := c.1.bytes + bs.length }, hostWrite c.1.addr bs c.2)

/-- A tile's tag as written: READ_STATUS tells which reads were poisoned. -/
def copyTag (x : HistRead) (k t : Nat) (c : HistCopy × State) : HistCopy × State :=
  let d := dramRead (tagAddr k t) 32 c.2
  let badS := bit x.parts 2 && (dramRead (slotAddr k t) 2048 d.2.2).2.1
  copyOut (overwrite d.1 30 (b2 (b2n badS + 2 * b2n d.2.1))) (c.1, d.2.2)

/-- A tile's slot as read. -/
def copySlot (k t : Nat) (c : HistCopy × State) : HistCopy × State :=
  let d := dramRead (slotAddr k t) 2048 c.2
  copyOut d.1 (c.1, d.2.2)

/-- A selected part of a tile is poisoned. -/
def tilePoisoned (x : HistRead) (k t : Nat) (s : State) : Bool :=
  (bit x.parts 1 && (dramRead (tagAddr k t) 32 s).2.1) || (bit x.parts 2 && (dramRead (slotAddr k t) 2048 s).2.1)

/-- The parts of one frame, contiguously (08 R190). -/
def copyFrame (x : HistRead) (f : Nat) (c : HistCopy × State) : HistCopy × State :=
  match planeOf c.2 f with
  | none => c
  | some k =>
    let tiles (g : Nat → HistCopy × State → HistCopy × State) (c : HistCopy × State) : HistCopy × State :=
      forUpto x.count (fun i c => g (x.firstTile + i) c) c
    let bad := ((List.range x.count).filter (fun i => tilePoisoned x k (x.firstTile + i) c.2)).length
    let c1 := if bit x.parts 0 then
        let d := dramRead (headerAddr k) 64 c.2
        copyOut d.1 (c.1, d.2.2)
      else c
    let c2 := if bit x.parts 1 then tiles (copyTag x k) c1 else c1
    let c3 := if bit x.parts 2 then tiles (copySlot k) c2 else c2
    ({ c3.1 with bad := c3.1.bad + bad }, c3.2)

/-- READ_HISTORY_DONE (08 R190): the oldest READ_HISTORY has written everything and its writes are flushed. -/
def execReadHistoryDone (s : State) : Host.Outcome State Fault Refusal :=
  .next <|
    match s.dlv.reads with
    | [] => s
    | x :: rest =>
      if !canMaster s || !s.power.main || s.power.fatal then s
      else
        let (c, s1) := forEach x.frames (copyFrame x) ({ addr := x.dest }, s)
        let s2 := modHod x.ch (fun h => { h with deviceOwned := false, state := .idle }) { s1 with dlv.reads := rest }
        let first := (x.frames.headD 0) % turn
        finish x.jseq (okWith (b8 c.bytes ++ b4 c.bad ++ b4 0)) (logEv 0x0506 first x.frames.length c.bad s2)

/-- A frame field, or a free value when there is no such frame. -/
def frameOr (f : Option Nat) (s : State) : Nat :=
  match f with
  | some f => f % turn
  | none => Config.noFrame s.free % turn

/-- The HIST_INFO result (08 R192). -/
def histInfo (s : State) : Bytes :=
  let closedFrames := (List.range s.dlv.depth).filterMap (fun k =>
    let p := plane s k
    if planeClosed p then p.frame else none)
  let kept := ((heldFrames s).filter (fun f => frameFrozen s f || frameHeld s f)).length
  b4 s.dlv.depth ++ b4 kept ++ b4 (frameOr (oldestFrame s) s) ++ b4 (frameOr closedFrames.max? s) ++ b8 planeBase ++
    b8 tagBase ++ b8 headerBase ++ b4 (b2n (decide (s.lanes.decimate ≠ 0))) ++ b4 0 ++
    fit 64 (s.dlv.frozen.flatMap (fun r => b4 r.1 ++ b4 r.2))

/-- HIST_INFO (08 R192). -/
def execHistInfo (mb : Fin 8) (s : State) : Host.Outcome State Fault Refusal :=
  runCommand 0x0505 mb (fun _ _ p s => checked (fixedPayload p 0 []) s
    (fun _ => ({ s with free := s.free + 1 }, okWith (histInfo s)))) s

end Sys2Proof.Machine
end

