-- ==== Sys2Proof/Machine/GridCommands.lean ====
section
/-! DEFINITION. The angle and grid commands (02 R46 to R49) and the shot and allocation commands (04 R91, R92, R103 to
R107). -/

namespace Sys2Proof.Machine

open Sys2Proof

/-! #### Angle and grid (02) -/

/-- The column table of a GRID_SET_COLUMNS payload (02 Table ANGL-8). -/
def columnsOf (p : Bytes) : ColTable :=
  if u32 p 0 = 1 then .even (u32 p 4) (u32 p 8) else .explicit ((List.range 2049).map (fun k => u32 p (4 + 4 * k)))

/-- GRID_SET_COLUMNS's checks of the table taken alone (02 R48). -/
def columnsReply (p : Bytes) : Option Reply :=
  match colFirstBreak (columnsOf p) with
  | some c => some (badField (if u32 p 0 = 1 then 8 else 4 + 4 * c))
  | none => none

/-- GRID_SET_COLUMNS (02 R48). -/
def execGridSetColumns (mb : Fin 8) (s : State) : Host.Outcome State Fault Refusal :=
  runCommand 0x0201 mb (fun _ j p s =>
    checked ((varPayload p 4 [(decide (u32 p 0 < 2), 0)] (if u32 p 0 = 1 then 12 else 8200) []).orElse
      (fun _ => columnsReply p)) s (fun _ => (stage j (.columns (columnsOf p)) s, ok))) s

/-- The GRID_GET_COLUMNS result (02 R48). -/
def columnsResult (s : State) : Bytes :=
  b4 0 ++ (List.range 2049).flatMap (fun c => b4 (colEntry s.set.columns c)) ++ b2 s.set.columnsEpoch ++ b2 0

/-- GRID_GET_COLUMNS (02 R48). -/
def execGridGetColumns (mb : Fin 8) (s : State) : Host.Outcome State Fault Refusal :=
  runCommand 0x0202 mb (fun _ _ p s => checked (fixedPayload p 0 []) s (fun _ => (s, okWith (columnsResult s)))) s

/-- The field checks of ANGLE_SET_SCAN (02 Table ANGL-7). -/
def scanFields (p : Bytes) : List (Bool × Nat) :=
  let rotor := decide (u32 p 0 = 0)
  [(decide (u32 p 0 < 2), 0),
    (if rotor then decide (u32 p 4 = 0) else within 0x10000000 (u32 p 4) 0xFFFFF000, 4),
    (if rotor then decide (u32 p 8 = 360000000) else within 1 (u32 p 8) 360000000, 8)]

/-- ANGLE_SET_SCAN (02 R46). -/
def execAngleSetScan (mb : Fin 8) (s : State) : Host.Outcome State Fault Refusal :=
  runCommand 0x0203 mb (fun _ j p s =>
    checked (fixedPayload p 12 (scanFields p)) s (fun _ =>
      let x : ScanSettings :=
        { kind := if u32 p 0 = 0 then .rotor else .mirror
          forwardSpan := if u32 p 4 = 0 then turn else u32 p 4
          mechSpan := u32 p 8 }
      (stage j (.scan x) s, ok))) s

/-- ANGLE_SET_INDEX (02 Table ANGL-9). -/
def execAngleSetIndex (mb : Fin 8) (s : State) : Host.Outcome State Fault Refusal :=
  runCommand 0x0204 mb (fun _ j p s =>
    checked (fixedPayload p 24 [(decide (u8 p 0 < 6), 0), rsv p 1 1,
      (signExt p 2 2 14 && decide (2 ≤ u8 p 0 ∨ u16 p 2 = 0), 2), (within 1 (u32 p 8) 0x1000000, 8),
      (within (u32 p 8) (u32 p 12) 0x40000000, 12), (within 0x1000000 (u32 p 16) 0xF0000000, 16), rsv p 20 4]) s
      (fun _ =>
        let x : IndexSettings :=
          { source := u8 p 0, level := s16 p 2, angle := u32 p 4, suspectBound := u32 p 8, relockBound := u32 p 12,
            holdoff := u32 p 16 }
        (stage j (.index x) s, ok))) s

/-- ω in force, 0 while no update is (02 Table ANGL-10). -/
def omegaNow (s : State) : Int :=
  match s.angle.upd with
  | some u => u.omega
  | none => 0

/-- The ANGLE_STATUS result (02 Table ANGL-10). -/
def angleStatus (s : State) : Bytes :=
  let a := s.angle
  b1 (predNo a.pred) ++ b1 s.set.index.source ++ b2 0 ++ b4 (frameNo s) ++ bS 4 a.lastE ++ b4 a.maxAbsE ++
    bS 8 (omegaNow s) ++ b4 a.suspectFrames ++ b4 a.holdNs ++ b4 a.missedUpdates ++ b4 a.indexRejected ++
    b4 a.indexMissing ++ b4 0

/-- ANGLE_STATUS (02 R49): MAX_ABS_E is cleared. -/
def execAngleStatus (mb : Fin 8) (s : State) : Host.Outcome State Fault Refusal :=
  runCommand 0x0205 mb (fun _ _ p s =>
    checked (fixedPayload p 0 []) s (fun _ => ({ s with angle.maxAbsE := 0 }, okWith (angleStatus s)))) s

/-! #### Entries of a course range -/

/-- FIRST and COUNT_M1 of a course range, and its 6 reserved bytes. -/
def courseRange (p : Bytes) : List (Bool × Nat) :=
  [(decide (u8 p 0 < 128), 0), (decide (u8 p 0 + u8 p 1 ≤ 127), 1), rsv p 2 6]

/-- The checks of each of `n` entries of `w` bytes from offset 8. -/
def entryFields (n w : Nat) (f : Nat → List (Bool × Nat)) : List (Bool × Nat) :=
  (List.range n).flatMap (fun i => f (8 + w * i))

/-! #### Shot programs (04 R80, R81, R103) -/

/-- The shot program entry at an offset (04 Table SHOT-1). -/
def programAt (p : Bytes) (o : Nat) : ShotProgram :=
  { offset := u32 p o, window := u16 p (o + 4), guard := u16 p (o + 6), family := some (u16 p (o + 8)),
    dspan := u8 p (o + 10), dpEnable := bit (u8 p (o + 11)) 7, dpIndex := u8 p (o + 11) % 16, pulse := u8 p (o + 12),
    deskew := s16 p (o + 14) }

/-- The field ranges of a shot program entry (04 Table SHOT-1). -/
def programFields (p : Bytes) (o : Nat) : List (Bool × Nat) :=
  [(decide (u32 p o ≤ 0xFFFFFF), o), (within 256 (u16 p (o + 4)) 4096 && decide (u16 p (o + 4) % 16 = 0), o + 4),
    (within 400 (u16 p (o + 6)) 4095, o + 6), (decide (u16 p (o + 8) < 4096), o + 8),
    (decide (u8 p (o + 10) ≤ 8), o + 10), (decide (u8 p (o + 11) / 16 % 8 = 0), o + 11),
    (within 2 (u8 p (o + 12)) 16, o + 12), rsv p (o + 13) 1, (withinI (-256) (s16 p (o + 14)) 256, o + 14)]

/-- A double pulse leaves at least 4 ns between its pulses (04 R81). -/
def spacingOk (x : ShotProgram) : Bool := !x.dpEnable || decide (x.pulse + 4 ≤ dpSpacing x.dpIndex)

/-- SHOT_SET_PROGRAM (04 R103): the spacing rule is judged after the field ranges, its DETAIL at DP. -/
def execShotSetProgram (mb : Fin 8) (s : State) : Host.Outcome State Fault Refusal :=
  runCommand 0x0206 mb (fun _ j p s =>
    let n := u8 p 1 + 1
    let xs := (List.range n).map (fun i => programAt p (8 + 16 * i))
    checked ((varPayload p 8 (courseRange p) (8 + 16 * n) (entryFields n 16 (programFields p))).orElse
      (fun _ => firstBad ((xs.zipIdx).map (fun e => (spacingOk e.1, 8 + 16 * e.2 + 11))))) s
      (fun _ => (stage j (.programs (u8 p 0) xs) s, ok))) s

/-- Allocation settings of a payload (04 Table SHOT-9). -/
def allocOf (p : Bytes) : AllocSettings :=
  { mode := u8 p 0, nUniform := u8 p 1, nMin := u8 p 2, nMax := u8 p 3,
    g := (List.range 16).map (fun i => u8 p (8 + i)),
    budget := (List.range 128).foldl (fun t c => tabSet 16384 t c (u32 p (24 + 4 * c))) [] }

/-- ALLOC_SET (04 Table SHOT-9). -/
def execAllocSet (mb : Fin 8) (s : State) : Host.Outcome State Fault Refusal :=
  runCommand 0x0207 mb (fun _ j p s =>
    checked (fixedPayload p 536 ([(decide (u8 p 0 < 3), 0), (within 1 (u8 p 1) 32, 1), (within 1 (u8 p 2) 32, 2),
      (within (u8 p 2) (u8 p 3) 32, 3), rsv p 4 4] ++
      (List.range 128).map (fun c => (within (2048 * u8 p 2) (u32 p (24 + 4 * c)) 65536, 24 + 4 * c)))) s
      (fun _ => (stage j (.alloc (allocOf p)) s, ok))) s

/-- TPM_SET_WEIGHTS (04 R104). -/
def execTpmSetWeights (mb : Fin 8) (s : State) : Host.Outcome State Fault Refusal :=
  runCommand 0x0208 mb (fun _ j p s =>
    let n := u32 p 4
    let ws := (p.drop 8).map (fun b => b.toNat)
    checked (varPayload p 8 [(decide (u32 p 0 < 262144), 0), (within 1 n (262144 - u32 p 0), 4)] (8 + n)
      ((ws.zipIdx).map (fun e => (decide (e.1 < 16), 8 + e.2)))) s
      (fun _ => (stage j (.weights (u32 p 0) ws) s, ok))) s

/-- An entry of the tile parameter map as it reads (04 Table SHOT-5). -/
def tpmWord (s : State) (t : Nat) : Nat :=
  let x := tabGet {} s.shot.tpm t
  x.n + 2 ^ 8 * tabGet 1 s.set.weights t + 2 ^ 12 * x.q + 2 ^ 16 * b2n x.lowGain

/-- TPM_READ (04 R105): the read begins and ends in one frame. -/
def execTpmRead (mb : Fin 8) (s : State) : Host.Outcome State Fault Refusal :=
  runCommand 0x0209 mb (fun _ _ p s =>
    checked (fixedPayload p 8 [(decide (u32 p 0 < 262144), 0),
      (within 1 (u32 p 4) (min 65536 (262144 - u32 p 0)), 4)]) s
      (fun _ => (s, okWith (b4 (frameNo s) ++ b4 (frameNo s) ++
        (List.range (u32 p 4)).flatMap (fun i => b4 (tpmWord s (u32 p 0 + i))))))) s

/-! #### Enabling and disabling (04 R91, R92, R106) -/

/-- Disable a course at once (04 R91). -/
def disableCourse (c : Nat) (s : State) : State :=
  stopCourse c (modCourse c (fun x => { x with disabled := true, enablePending := false }) s)

/-- The action changes the course: a DISABLE of a disabled course and an ENABLE of an enabled one change nothing (04
R106). -/
def courseChanges (action : Nat) (s : State) (c : Nat) : Bool :=
  let x := course s c
  let off := x.disabled && !x.enablePending
  if action = 0 then !off else off

/-- SHOT_COURSE_ENABLE's action on the courses of a list; the log names those it changes. -/
def courseAction (action : Nat) (cs : List Nat) (s : State) : State :=
  let hit := cs.filter (courseChanges action s)
  let s1 := forEach hit (fun c s =>
    if action = 0 then disableCourse c s else modCourse c (fun x => { x with enablePending := true }) s) s
  match hit with
  | [] => s1
  | c :: _ => logEv 0x0205 action c hit.length s1

/-- SHOT_COURSE_ENABLE (04 R91, R92). -/
def execShotCourseEnable (mb : Fin 8) (s : State) : Host.Outcome State Fault Refusal :=
  runCommand 0x020A mb (fun _ _ p s =>
    checked (fixedPayload p 24 [(decide (u8 p 0 < 2), 0), rsv p 1 7, (!allZero p 8 16, 8)]) s
      (fun _ => (courseAction (u8 p 0) ((List.range 128).filter (fun c => bit (le p 8 16) c)) s, ok))) s

/-- The scheduler stops at once on all courses (04 R92). -/
def schedulerOff (s : State) : State :=
  let was := s.shot.enabled || s.shot.enablePending
  let s1 := eachCourse stopCourse { s with shot.enabled := false, shot.enablePending := false }
  if was then logEv 0x0206 0 0 0 s1 else s1

/-- The scheduler is to start at the next frame boundary (04 R92). -/
def schedulerOn (s : State) : State :=
  if s.shot.enabled || s.shot.enablePending then s
  else logEv 0x0206 1 0 0 { s with shot.enablePending := true }

/-- SHOT_SCHEDULER (04 R92, 11 R259). -/
def execShotScheduler (mb : Fin 8) (s : State) : Host.Outcome State Fault Refusal :=
  runCommand 0x020B mb (fun _ _ p s =>
    checked (fixedPayload p 4 [(decide (u8 p 0 < 2), 0), rsv p 1 3]) s (fun _ =>
      if u8 p 0 = 0 then (schedulerOff s, ok)
      else if s.mbx.armed then (schedulerOn s, ok)
      else (s, notArmed))) s

/-! #### SHOT_STATUS (04 R107) -/

/-- The courses a COURSE field names. -/
def coursesOf (c : Nat) : List Nat := if c = 0xFF then List.range 128 else [c]

/-- A sum of counters over courses. -/
def sumCourses (cs : List Nat) (s : State) (f : CourseShot → Nat) : Nat := listSum (cs.map (fun c => f (course s c)))

/-- The SHOT_STATUS result (04 Table SHOT-11). -/
def shotStatus (c : Nat) (s : State) : Bytes :=
  let cs := coursesOf c
  let sum := sumCourses cs s
  let one := decide (c ≠ 0xFF)
  b8 (sum (fun x => x.fired)) ++ b8 (sum (fun x => x.skipOpen)) ++ b4 (sat32 (sum (fun x => x.skipRate))) ++
    b4 (sat32 (sum (fun x => x.denied))) ++ b4 (sat32 (sum (fun x => x.cancelled))) ++
    b4 (bitmap [s.shot.enabled, one && !(course s c).disabled]) ++
    b4 (if one then (course s c).cur.dPrev else 0) ++
    b4 (sat32 (sum (fun x => if x.lastF = some s.angle.frame then x.cur.spend else 0))) ++
    b4 (sat32 (sum (fun x => x.cappedFrames))) ++ b4 (sat32 (sum (fun x => x.exhaustedFrames)))

/-- CLEAR of SHOT_STATUS. -/
def clearShot (c : Nat) (s : State) : State :=
  forEach (coursesOf c) (fun c s => modCourse c (fun x => { x with cappedFrames := 0, exhaustedFrames := 0 }) s) s

/-- The checks of a 4-byte payload with COURSE and CLEAR. -/
def courseClear (p : Bytes) : Option Reply :=
  fixedPayload p 4 [(decide (u8 p 0 < 128 ∨ u8 p 0 = 0xFF), 0), (decide (u8 p 1 < 2), 1), rsv p 2 2]

/-- SHOT_STATUS (04 R107). -/
def execShotStatus (mb : Fin 8) (s : State) : Host.Outcome State Fault Refusal :=
  runCommand 0x020C mb (fun _ _ p s =>
    checked (courseClear p) s (fun _ =>
      (if u8 p 1 = 1 then clearShot (u8 p 0) s else s, okWith (shotStatus (u8 p 0) s)))) s

end Sys2Proof.Machine
end

