-- ==== Sys2Proof/Machine/Run.lean ====
section
/-! DEFINITION. The run state and its blockers (11 R258 to R260). -/

namespace Sys2Proof.Machine

open Sys2Proof

/-- A channel enabled by SIDES has a converter without an accepted calibration since die A start (05 R122). -/
def uncalibrated (s : State) : Bool :=
  (List.range 256).any (fun ch =>
    bit (recvOf s (ch / 2)).sides (ch % 2) && ((chan s ch).rise.isNone || (chan s ch).fall.isNone))

/-- BLOCKERS (11 Table MBOX-15a). -/
def blockers (s : State) : Nat :=
  bitmap [s.hk.uncal, uncalibrated s, bit s.es.present 1 || bit s.es.present 7,
    !s.power.dieA || !s.lanes.mortarUp, s.th.shut, !dramUsable s]

/-- The run state becomes UNARMED and the scheduler is disabled (11 R259). -/
def unarm (s : State) : State :=
  let s1 := schedulerOff { s with mbx.armed := false }
  if s.mbx.armed then logEv 0x0D03 0 (blockers s1) 0 s1 else s1

/-- The RUN_ARM result. -/
def blockersResult (s : State) : Bytes := b4 (blockers s) ++ b4 0

/-- RUN_ARM's effect (11 R258). -/
def armRun (s : State) : State × Reply :=
  let r := blockersResult s
  if s.mbx.armed then (s, okWith r)
  else if blockers s = 0 then (logEv 0x0D03 1 0 0 { s with mbx.armed := true }, okWith r)
  else (s, ⟨0x20, 0, r, 0⟩)

/-- RUN_ARM (11 R258). -/
def execRunArm (mb : Fin 8) (s : State) : Host.Outcome State Fault Refusal :=
  runCommand 0x0D04 mb (fun _ _ p s => checked (fixedPayload p 0 []) s (fun _ => armRun s)) s

/-- RUN_DISARM (11 R259). -/
def execRunDisarm (mb : Fin 8) (s : State) : Host.Outcome State Fault Refusal :=
  runCommand 0x0D05 mb (fun _ _ p s => checked (fixedPayload p 0 []) s (fun _ => (unarm s, ok))) s

/-- The RUN_STATUS result (11 R260). -/
def runStatus (s : State) : Bytes :=
  b1 (b2n s.mbx.armed) ++ b1 (b2n s.mbx.session) ++ b2 (epochNo s) ++ b4 (frameNo s) ++ b4 (blockers s) ++
    b2 s.mbx.commits.length ++ b2 (4096 - s.mbx.journal.length) ++ b4 s.mbx.staging.length ++ b4 s.mbx.refused ++
    b4 s.mbx.ignored ++ b4 s.mbx.duplicates ++ b8 s.mbx.acceptedTotal ++ b4 s.mbx.resultLost ++ b4 0

/-- RUN_STATUS (11 R260). -/
def execRunStatus (mb : Fin 8) (s : State) : Host.Outcome State Fault Refusal :=
  runCommand 0x0D06 mb (fun _ _ p s => checked (fixedPayload p 0 []) s (fun _ => (s, okWith (runStatus s)))) s

/-! #### Resets and the session (11 R254, R255, 18 R417) -/

/-- A reset of Table MBOX-14b occurs: RESETS has its bit and a RESET record reports it (DEDUCED from 11 R255). -/
def noteReset (b : Nat) (s : State) : State :=
  logEv 0x0102 (2 ^ b) 0 0 { s with power.resets := s.power.resets ||| 2 ^ b }

/-- The session closes, and the ES locks (11 R254, 10 R225): `code` is the RESETS bit, 0xFF for GOODBYE. -/
def closeSession (code : Nat) (s : State) : State :=
  let s1 := esLock { s with mbx.session := false }
  if s.mbx.session then logEv 0x0104 code 0 0 s1 else s1

end Sys2Proof.Machine
end

