-- ==== Sys2Proof/Machine/DieA.lean ====
section
/-! DEFINITION. Die A: heartbeats (01 R18), its reset and restore (12 R274 to R277), and the Mortar link's lanes (14 R337
to R339). -/

namespace Sys2Proof.Machine

open Sys2Proof

/-- Apply `f` to every listed entry of a table whose default is `d` and a fixed point of `f`. -/
def tabMap {α : Type} [DecidableEq α] (d : α) (f : α → α) (t : Tab α) : Tab α :=
  (t.map (fun e => (e.1, f e.2))).filter (fun e => decide (e.2 ≠ d))

/-! #### Mortar lanes (14 R337 to R339) -/

/-- Bits set in a mask of at most 8 lanes. -/
def laneCount (m : Nat) : Nat := ((List.range 8).filter (fun i => m.testBit i)).length

/-- Lane IDs 8 to 19 leave reset at die A's start: they train, and no lane is in the link (14 R338). -/
def mortarDown (s : State) : State :=
  forUpto 12 (fun i s => modLane (8 + i) (fun x =>
      { (stopCount 0 (now s) x) with
        trained := false, locked := false, deskewed := false, background := false, since := now s }) s)
    { s with lanes.mortarUp := false, lanes.maskAB := 0, lanes.maskBA := 0 }

/-- Die A is out of reset, so that its Mortar lanes run. -/
def mortarRuns (s : State) : Bool :=
  s.power.main && !decide (s.power.phase = .off) && !s.th.gated && !s.power.dieAFailed

/-- The lanes of `n` Mortar lanes from lane ID `first` that are in block lock and deskewed, as a mask. -/
def lockedMask (s : State) (first n : Nat) : Nat :=
  bitmapOf n (fun k => (lane s (first + k)).locked && (lane s (first + k)).deskewed)

/-- The die A journal mirror leaves service (12 R268, R274). -/
def mirrorDown (s : State) : State := { s with mbx.mirrorA := false, mbx.heldA := [] }

/-- What the lanes left in service have as effect (14 R339, Table LANE-5): `before` is the count of A to B lanes before the
loss. A fall to 5 or fewer ends the slots of the frame in progress. -/
def lanesLeft (before : Nat) (s : State) : State :=
  let ab := laneCount s.lanes.maskAB
  let cut (s : State) : State :=
    if s.angle.inFrame && !s.dlv.decimated.contains s.angle.frame then
      { s with dlv.decimated := s.dlv.decimated ++ [s.angle.frame] }
    else s
  let s1 := if ab ≤ 5 ∧ ab < before then logEv 0x090D ab (frameNo s) 0 (cut s) else s
  let s2 := if laneCount s.lanes.maskBA ≤ 1 then mirrorDown s1 else s1
  if ab = 0 ∨ laneCount s.lanes.maskBA = 0 then { s2 with lanes.mortarUp := false } else s2

/-- MORTAR_LINK_UP (14 R338): each direction has a locked lane, and the link is up over the lanes that have locked and are
deskewed; the others train on in the background. TB stands aligned (02 R32). -/
def execMortarLinkUp (s : State) : Host.Outcome State Fault Refusal :=
  .next <|
    let ab := lockedMask s 8 8
    let ba := lockedMask s 16 4
    if !mortarRuns s || s.lanes.mortarUp || decide (ab = 0 ∨ ba = 0) then s
    else
      forUpto 12 (fun i s => modLane (8 + i) (fun x =>
          { x with background := if i < 8 then !ab.testBit i else !ba.testBit (i - 8) }) s)
        { s with lanes.mortarUp := true, lanes.maskAB := ab, lanes.maskBA := ba }

/-- Mortar lane `i` of 0 to 11 loses block lock; `hunt` when its headers failed. A lane in use leaves the stripe and
retrains in the background (14 R331, R336, R339). -/
def mortarLaneLoss (i : Nat) (hunt : Bool) (s : State) : State :=
  let ab := decide (i < 8)
  let m := if ab then s.lanes.maskAB else s.lanes.maskBA
  let k := if ab then i else i - 8
  let used := s.lanes.mortarUp && m.testBit k
  let s1 := modLane (8 + i) (fun x => { (stopCount 0 (now s) x) with
    locked := false
    deskewed := false
    lockLosses := sat32 (x.lockLosses + 1)
    invalid := if hunt then sat32 (x.invalid + 16) else x.invalid }) s
  let s2 := logLane 0x090B (8 + i) 0 s1
  if !used then raiseIrq 19 s2
  else
    let m' := clrBit m k
    let s3 := if ab then { s2 with lanes.maskAB := m' } else { s2 with lanes.maskBA := m' }
    let s4 := modLane (8 + i) (fun x => { x with
      trained := false
      background := true
      since := now s
      restripes := sat32 (x.restripes + 1) }) s3
    lanesLeft (laneCount s.lanes.maskAB) (raiseIrq 19 (logLane 0x090C (8 + i) m' s4))

/-- MORTAR_LANE_LOSS (14 R336, R339): a lane in use loses block lock and leaves the stripe. -/
def execMortarLaneLoss (i : Fin 12) (s : State) : Host.Outcome State Fault Refusal :=
  .next (if (lane s (8 + i.val)).locked then mortarLaneLoss i.val true s else s)

/-- MORTAR_LANE_REGAINED (14 R337): a lane that trained in the background, locked again and deskewed, returns to the
stripe. -/
def execMortarLaneRegained (i : Fin 12) (s : State) : Host.Outcome State Fault Refusal :=
  .next <|
    let ab := decide (i.val < 8)
    let m := if ab then s.lanes.maskAB else s.lanes.maskBA
    let k := if ab then i.val else i.val - 8
    let x := lane s (8 + i.val)
    if !s.lanes.mortarUp || m.testBit k || !x.locked || !x.deskewed then s
    else
      let m' := setBit m k
      let s1 := if ab then { s with lanes.maskAB := m' } else { s with lanes.maskBA := m' }
      raiseIrq 19 (logLane 0x090C (8 + i.val) m' (modLane (8 + i.val) (fun x => { x with
        background := false
        retrains := sat32 (x.retrains + 1) }) s1))

/-! #### Die A reset (12 R274, R275, R277) -/

/-- Die A's own state is lost; counters from VKA power-up stay (04 R95, R100, R106; 05 R109, R126; 02 Table ANGL-5). -/
def loseDieA (s0 : State) : State :=
  let s := setPred .stopped s0
  let a := s.angle
  emit (.firePorts false) { s with
    angle := { a with
      pred := .stopped, hist := [], us := 0, upd := none, c := 0, slews := [], missed := 0, gen := s.loop.gen,
      genAdds := [], toDieB := [], uref := none, missingLogged := false, attr := [], firstDone := none,
      uncorrected := 0, ivCount := 0, ivBad := false, inFrame := false, nextCol := 2049 }
    shot.courses := tabMap {} (fun x => { x with
      slotCounts := 0, dither := 1, cap := 0, lastF := none, cur := {}, prv := {}, flights := [], launches := [],
      governed := false }) s.shot.courses
    shot.tpm := []
    shot.enablePending := s.shot.enabled || s.shot.enablePending
    shot.enabled := false
    shot.hold := true
    shot.beats := 0
    shot.granted := false
    shot.sampled := false
    recv := tabMap {} (fun x => { x with
      latched := {}, windows := [], rise := none, fall := none, riseFresh := false, fallFresh := false,
      calStart := none }) s.recv
    eng.tiles := []
    loop.sent := []
    power.dieA := false }

/-- A capture of a tile armed at the reset completes with FAULT (12 R277). -/
def failCapture (s : State) : State :=
  match s.eng.capture with
  | some k => finish k.jseq faulted { s with eng.capture := none }
  | none => s

/-- Die A goes down: pulses end, its frames are completed by INCOMPLETE records, and its mirror leaves service. -/
def stopDieA (s : State) : State :=
  let s1 := synthesiseAll (cutPulses (if s.angle.inFrame then logGoverned s else s))
  mortarDown (mirrorDown (resetCapture (failCapture (loseDieA s1))))

/-- A die A reset by a cause: 0 watchdog, 1 rail, 2 thermal, 3 heartbeat (DEDUCED from the order of 12 R274). -/
def resetDieA (cause : Nat) (s : State) : State :=
  let n := synthCount s
  let s1 := stopDieA s
  let s2 := { s1 with
    power.dieAResetAt := now s
    power.dieAAttempts := 0
    th.gated := s1.th.gated || decide (cause = 2) }
  raiseIrq 20 (noteReset 8 (logEv 0x0108 cause (frameNo s) n s2))

/-- The cause's number in the log. -/
def dieACause : DieAResetCause → Nat
  | .watchdog => 0 | .rail => 1 | .thermal => 2 | .heartbeat => 3

/-- DIE_A_RESET (12 R274): a running die A is reset; by heat only in shutdown, by die B only without heartbeats. -/
def execDieAReset (cause : DieAResetCause) (s : State) : Host.Outcome State Fault Refusal :=
  .next <|
    let due : Bool := match cause with
      | .thermal => s.th.shut
      | .heartbeat => decide (s.lanes.beatAt + 3000 ≤ now s)
      | _ => true
    if s.power.dieA && s.power.main && due then resetDieA (dieACause cause) s else s

/-! #### Restore (12 R276) -/

/-- The predictor restored into LOCKED, U being taken from the control engine's phase at this tick. -/
def restorePredictor (s : State) : State :=
  if s.loop.run ≠ .service then s
  else
    let l := s.loop
    let m : Int := (turn24 : Nat)
    let u : AngleUpdate := ⟨(l.th % m).toNat, l.w, l.a, l.ts, l.gen⟩
    let v := modelAt u.theta u (now s)
    let u0 := turn24 * s.angle.frame + (v % m).toNat
    setPred .locked { s with
      angle.upd := some u
      angle.us := (u0 : Int) - v + u.theta
      angle.u := u0
      angle.hist := [u0]
      angle.lastArrival := now s }

/-- DIE_A_RESTORED (12 R276, 19 Table BOOT-5): die A starts, or starts again with its settings and enables restored. -/
def execDieARestored (s : State) : Host.Outcome State Fault Refusal :=
  .next <|
    if s.power.dieA || !s.power.main || s.power.dieAFailed || s.th.gated || !s.lanes.mortarUp then s
    else
      let s1 := emit (.firePorts true) { s with
        power.dieA := true
        power.dieAAt := now s
        power.dieAStarted := true
        shot.lastBeat := now s
        shot.beats := 0
        shot.hold := true
        lanes.beatAt := now s
        angle.gen := s.loop.gen
        angle.genAdds := []
        recv := tabMap {} (fun x => { x with latched := x.copy }) s.recv }
      if s.power.dieAStarted then
        raiseIrq 20 (logEv 0x0109 ((s.angle.frame + 1) % turn) 0 0 (restorePredictor s1))
      else s1

/-- The accepted commands that wait for die A complete with FAULT: those not yet started, the COMMITs and the SNAPSHOTs
(12 R277). -/
def failWaiting (s : State) : State :=
  let js := (s.mbx.journal.filter
    (fun e => e.accepted && !e.started && !e.done && needsDieA (hOp e.header) e.payload && !forwarded e)).map (fun e => e.jseq)
  let s1 := forEach js (fun j s => finish j faulted s) s
  let s2 := forEach s1.mbx.commits (fun c s => finish c.jseq faulted (logEv 0x0D02 0x40 0 0 (dropCommit c s))) s1
  forEach s2.mbx.snapshots (fun k s => finish k.jseq faulted s) { s2 with mbx.snapshots := [] }

/-- DIE_A_RESTORE_TIMEOUT (12 R276, R277): 100 ms without a restore; the reset is repeated up to three times. -/
def execDieARestoreTimeout (s : State) : Host.Outcome State Fault Refusal :=
  .next <|
    if s.power.dieA || !s.power.main || !s.power.dieAStarted || s.power.dieAFailed || s.th.shut ||
        decide (now s < s.power.dieAResetAt + 100000000) then s
    else
      let s1 := failWaiting s
      if s.power.dieAAttempts < 3 then
        mortarDown { s1 with power.dieAAttempts := s.power.dieAAttempts + 1, power.dieAResetAt := now s }
      else logEv 0x010A (s.power.dieAAttempts + 1) 0 0 { s1 with power.dieAFailed := true }

/-! #### Heartbeats (01 R18, 12 R274) -/

/-- HEARTBEAT_LOSS (01 R18, 12 R274): 3 µs without a heartbeat, at die A or at die B. At die A it starts the hold, or the
count of heartbeats again while the hold stands. -/
def execHeartbeatLoss (atDieA : Bool) (s : State) : Host.Outcome State Fault Refusal :=
  .next <|
    if !s.power.dieA then s
    else if atDieA then
      if beatFresh s then s
      else if s.shot.hold then { s with shot.beats := 0 }
      else cutPulses { s with shot.hold := true, shot.beats := 0 }
    else if now s < s.lanes.beatAt + 3000 then s
    else resetDieA 3 s

/-- SAFETY_HEARTBEAT (01 R18): a valid heartbeat arrives; a gap of 3 µs starts the count of 64 again. -/
def execSafetyHeartbeat (atDieA : Bool) (s : State) : Host.Outcome State Fault Refusal :=
  .next <|
    if !s.power.dieA || !s.lanes.mortarUp then s
    else if atDieA then
      { s with
        shot.lastBeat := now s
        shot.beats := if now s < s.shot.lastBeat + 3000 then min 64 (s.shot.beats + 1) else 1 }
    else { s with lanes.beatAt := now s }

end Sys2Proof.Machine
end

