-- ==== Sys2Proof/Machine/Engines.lean ====
section
/-! DEFINITION. The histogram engines (06), the rejection rules inside them (07) and the allocator (04 R98 to R101):
both passes over a tile's stamps, its returns, its record, tag and slot, and what it leaves in the parameter map. -/

namespace Sys2Proof.Machine

open Sys2Proof

/-! #### Stamps and weights (06 R134, R135) -/

/-- TIME of a stamp word. -/
def stTime (w : Nat) : Nat := w / 4096
/-- WIDTH of a stamp word. -/
def stWidth (w : Nat) : Nat := w / 16 % 256
/-- REVERSED of a stamp word. -/
def stRev (w : Nat) : Bool := bit w 2
/-- CAL_STALE of a stamp word. -/
def stStale (w : Nat) : Bool := bit w 1

/-- A stamp with its side and weight. -/
structure WStamp where
  /-- side, 0 A or 1 B -/
  side : Nat
  /-- TIME -/
  time : Nat
  /-- WIDTH -/
  width : Nat
  /-- weight wt -/
  wt : Nat
  /-- CAL_STALE -/
  stale : Bool
  deriving DecidableEq, Repr

/-- Which stamps of side A and of side B of one shot are paired (06 R135); the first argument bounds the steps. -/
def pairFlags : Nat → List Nat → List Nat → List Bool × List Bool
  | 0, a, b => (a.map (fun _ => false), b.map (fun _ => false))
  | _ + 1, [], b => ([], b.map (fun _ => false))
  | _ + 1, a, [] => (a.map (fun _ => false), [])
  | n + 1, x :: a, y :: b =>
    if x ≤ y + 128 ∧ y ≤ x + 128 then
      let r := pairFlags n a b
      (true :: r.1, true :: r.2)
    else if x < y then
      let r := pairFlags n a (y :: b)
      (false :: r.1, r.2)
    else
      let r := pairFlags n (x :: a) b
      (r.1, false :: r.2)

/-- Weight of a stamp (06 Table HIST-2). -/
def weightOf (h : HistCourse) (paired : Bool) : Nat :=
  match h.mode, paired with
  | 0, _ => 1
  | 1, true => 1
  | 1, false => 0
  | _, true => h.pairWeight
  | _, false => 1

/-- Non-REVERSED stamps of a shot and side, in delivery order. -/
def sideStamps (t : Tile) (k side : Nat) : List Nat :=
  match t.windows.find? (fun w => w.k == k && w.side == side) with
  | some w => w.stamps.filter (fun x => !stRev x)
  | none => []

/-- The weighted stamps of one window. -/
def weighWindow (t : Tile) (w : TileWindow) : List WStamp :=
  let a := sideStamps t w.k 0
  let b := sideStamps t w.k 1
  let fl := pairFlags (a.length + b.length) (a.map stTime) (b.map stTime)
  let mine := if w.side = 0 then a.zip fl.1 else b.zip fl.2
  mine.map (fun e => ⟨w.side, stTime e.1, stWidth e.1, weightOf t.hist e.2, stStale e.1⟩)

/-- Every stamp that takes part, in delivery order (06 R135). -/
def weighted (t : Tile) : List WStamp :=
  (t.windows.flatMap (weighWindow t)).filter (fun x => decide (0 < x.wt))

/-- All stored stamps of a tile. -/
def allStamps (t : Tile) : List Nat := t.windows.flatMap (fun w => w.stamps)

/-! #### First pass (06 R136 to R139, 07 R156, R161) -/

/-- h[b] of a coarse word. -/
def cwSum (w : Nat) : Nat := w % 65536
/-- Largest width of a coarse word. -/
def cwWidth (w : Nat) : Nat := w / 65536 % 256
/-- Side of that width. -/
def cwSide (w : Nat) : Nat := w / 2 ^ 24 % 2

/-- Add a weighted stamp to the coarse histogram (06 R136). -/
def coarseAdd (m : Tab Nat) (x : WStamp) : Tab Nat :=
  tabMod 0 m (x.time / 128) (fun w =>
    let sum := min 65535 (cwSum w + x.wt)
    if w = 0 ∨ cwWidth w < x.width then sum + 65536 * x.width + 2 ^ 24 * x.side
    else sum + 65536 * cwWidth w + 2 ^ 24 * cwSide w)

/-- The coarse histogram: words of the non-empty bins. -/
def coarseOf (t : Tile) : Tab Nat := (weighted t).foldl coarseAdd []

/-- F16 of a coarse histogram over the bins BLANK to NB - 1 (06 R137). -/
def floorF16 (m : Tab Nat) (nb blank : Nat) : Nat :=
  let bins := nb - blank
  let q := bins / 4
  let vals := sortBy id ((m.filter (fun e => decide (blank ≤ e.1 ∧ e.1 < nb))).map (fun e => cwSum e.2))
  let empty := bins - vals.length
  16 * listSum (vals.take (q - empty)) / q

/-- A bin qualifies (06 R138, 07 R156). -/
def binQualifies (t : Tile) (f16 : Nat) (b h : Nat) : Bool :=
  let k := if b < t.rej.nearEnd then t.rej.nearK else t.hist.k
  decide (t.recv.blank ≤ b ∧ t.hist.minCount ≤ h ∧ f16 + k * isqrt (256 * f16) / 64 < 16 * h)

/-- The runs of qualifying bins, each with its peak and strength; the last argument is the run being followed: its
last bin, peak and strength (06 R138). -/
def runsFrom (q : Nat → Nat → Bool) : Tab Nat → Option (Nat × Candidate) → List Candidate
  | [], none => []
  | [], some (_, c) => [c]
  | (b, w) :: m, cur =>
    let h := cwSum w
    match cur with
    | none => if q b h then runsFrom q m (some (b, ⟨b, h⟩)) else runsFrom q m none
    | some (last, c) =>
      if q b h then
        if b = last + 1 then runsFrom q m (some (b, if c.v < h then ⟨b, h⟩ else c))
        else c :: runsFrom q m (some (b, ⟨b, h⟩))
      else c :: runsFrom q m none

/-- The runs in the order the POLICY sets (06 R139). -/
def policyOrder (policy : Nat) (rs : List Candidate) : List Candidate :=
  match policy with
  | 1 => sortBy (fun r => r.p) rs
  | 2 => sortBy (fun r => 8192 - r.p) rs
  | _ => sortBy (fun r => (65536 - r.v) * 8192 + r.p) rs

/-- A run stands `S - 1` to `S + 1` bins after `p` (07 R161). -/
def partnerAt (rs : List Candidate) (p sp : Nat) : Bool :=
  rs.any (fun r => decide (p + sp ≤ r.p + 1 ∧ r.p ≤ p + sp + 1))

/-- What the first pass leaves: chosen candidates, MERGED and CODE_MISMATCH. -/
structure Chosen where
  /-- candidates in order of choice -/
  cands : List Candidate := []
  /-- dropped and merged runs -/
  merged : Nat := 0
  /-- runs that fail the code check -/
  mismatch : Nat := 0
  deriving DecidableEq, Repr

/-- Take one run in policy order (06 R139, 07 R161). -/
def chooseRun (t : Tile) (rs : List Candidate) (x : Chosen) (r : Candidate) : Chosen :=
  let sp := dpSpacing t.prog.dpIndex
  if x.cands.length = 4 then { x with merged := x.merged + 1 }
  else if x.cands.any (fun c => decide (c.p < r.p + 8 ∧ r.p < c.p + 8)) then { x with merged := x.merged + 1 }
  else if !t.prog.dpEnable || partnerAt rs r.p sp then { x with cands := x.cands ++ [r] }
  else if rs.any (fun y => decide (y.p + sp ≤ r.p + 1 ∧ r.p ≤ y.p + sp + 1)) then x
  else { x with mismatch := x.mismatch + 1 }

/-- The first pass over a tile's stamps. -/
def pass1 (t : Tile) : Tile :=
  let m := coarseOf t
  let f16 := floorF16 m t.prog.window t.recv.blank
  let rs := runsFrom (binQualifies t f16) m none
  let ch := (policyOrder t.hist.policy rs).foldl (chooseRun t rs) {}
  { t with
    coarse := m
    f16 := f16
    cands := ch.cands
    merged := ch.merged
    mismatch := ch.mismatch
    revExcluded := ((allStamps t).filter stRev).length }

/-! #### Second pass (06 R140 to R146, 07 R157, R158, R162) -/

/-- The walk of a width under a walk table (06 R140). -/
def walkOf (tab : List Int) (w : Nat) : Int :=
  let idx := w / 4
  if idx = 63 then nthI tab 63
  else rne (4 * nthI tab idx + (nthI tab (idx + 1) - nthI tab idx) * ((w % 4 : Nat) : Int)) 4

/-- The walk table of a side of a tile. -/
def walkTab (t : Tile) (side : Nat) : List Int := if side = 0 then t.walkA else t.walkB

/-- Corrected time of a stamp (06 R140). -/
def corrected (t : Tile) (x : WStamp) : Int := (x.time : Int) - walkOf (walkTab t x.side) x.width

/-- Start of a candidate's fine window (06 R141). -/
def fineStart (t : Tile) (c : Candidate) : Nat :=
  let w := tabGet 0 t.coarse c.p
  (128 * (c.p : Int) + 64 - walkOf (walkTab t (cwSide w)) (cwWidth w) - 512).toNat

/-- The stamps of a fine window, each with its bin (06 R141). -/
def fineStamps (t : Tile) (start : Nat) : List (Nat × WStamp) :=
  (weighted t).filterMap (fun x =>
    let g := (corrected t x - (start : Int)) / 8
    if 0 ≤ g ∧ g < 128 then some (g.toNat, x) else none)

/-- A fine histogram: the non-empty bins (06 R141). -/
def fineHist (l : List (Nat × WStamp)) : Tab Nat :=
  l.foldl (fun m e => tabMod 0 m e.1 (fun v => min 65535 (v + e.2.wt))) []

/-- The largest bin of a fine histogram, the earliest on a tie, and its value (06 R142). -/
def finePeak (m : Tab Nat) : Nat × Nat :=
  m.foldl (fun b e => if b.2 < e.2 then e else b) (0, 0)

/-- One return (06 R143 to R145). -/
structure Ret where
  /-- index of its candidate in order of choice -/
  idx : Nat
  /-- strength v of its candidate -/
  v : Nat
  /-- TOF in 1/1024 ns -/
  tof : Nat
  /-- RANGE in 0.25 mm -/
  range : Nat
  /-- INTENSITY -/
  intensity : Nat
  /-- WIDTH -/
  width : Nat
  /-- SNR in 0.25 dB -/
  snr : Nat
  /-- RFLAGS (06 Table HIST-3) -/
  flags : Nat
  deriving DecidableEq, Repr

/-- DIFFUSE of a return. -/
def Ret.diffuse (r : Ret) : Bool := bit r.flags 0
/-- NEAR of a return. -/
def Ret.near (r : Ret) : Bool := bit r.flags 4
/-- CODE_OK of a return. -/
def Ret.codeOk (r : Ret) : Bool := bit r.flags 6

/-- Largest `n` up to the first argument with `x ^ 80 ≥ 10 ^ n`, for `x ^ 2 = num ^ 2 / den` (06 R144). -/
def snrFrom (num den : Nat) : Nat → Nat
  | 0 => 0
  | n + 1 => if 10 ^ (n + 1) * den ^ 40 ≤ num ^ 80 then n + 1 else snrFrom num den n

/-- SNR of a return of strength `v` over a floor F16 (06 R144). -/
def snrOf (v f16 : Nat) : Nat := snrFrom (16 * v - f16) (16 * max f16 16) 255

/-- A window of the second pass: its start, its fine histogram and what becomes of its candidate. -/
structure FineWindow where
  /-- start s_i -/
  start : Nat
  /-- fine bins -/
  bins : Tab Nat
  /-- its return, if accepted -/
  ret : Option Ret
  /-- rejected by R142 -/
  fineReject : Bool
  /-- rejected by R162 -/
  codeReject : Bool
  deriving DecidableEq, Repr

/-- Offset of the parabola's vertex (06 R142). -/
def vertex (m : Tab Nat) (p y0 : Nat) : Int :=
  let ym : Int := ((tabGet 0 m (p - 1) : Nat) : Int)
  let yp : Int := ((tabGet 0 m (p + 1) : Nat) : Int)
  let d := ym - 2 * (y0 : Int) + yp
  if d = 0 then 0 else rne (-(32 * (ym - yp))) (-d).toNat

/-- RANGE of a time of flight, unsaturated (06 R143). -/
def rangeOf (tof rindex : Nat) : Nat := rneN (2 ^ 30 * 299792458 * tof) (512000000 * rindex)

/-- The second pass over one candidate. -/
def fineWindow (t : Tile) (i : Nat) (c : Candidate) : FineWindow :=
  let start := fineStart t c
  let l := fineStamps t start
  let m := fineHist l
  let pk := finePeak m
  let partner := finePeak (fineHist (fineStamps t (start + 128 * dpSpacing t.prog.dpIndex)))
  let codeOk := decide (t.hist.minCount ≤ partner.2 ∧ partner.1 ≤ pk.1 + 1 ∧ pk.1 ≤ partner.1 + 1)
  if pk.2 < t.hist.minCount then ⟨start, m, none, true, false⟩
  else if t.prog.dpEnable && !codeOk then ⟨start, m, none, false, true⟩
  else
    let edge := decide (pk.1 = 0 ∨ pk.1 = 127)
    let off := if edge then 0 else vertex m pk.1 pk.2
    let raw := ((8 * start + 64 * pk.1 + 32 : Nat) : Int) + off - t.hist.tofOffset
    let tof := min (2 ^ 24 - 1) raw.toNat
    let rg := rangeOf tof t.hist.rindex
    let clipped := decide (raw < 0 ∨ 2 ^ 24 ≤ raw ∨ 2 ^ 24 ≤ rg)
    let sw := listSum (l.map (fun e => e.2.width))
    let spread := (m.filter (fun e => decide (pk.2 ≤ 2 * e.2))).length
    let flags := bitmap [decide (t.rej.diffuseLimit < spread), edge, l.any (fun e => e.2.width == 255), t.lowGain,
      decide (t.recv.blank ≤ c.p ∧ c.p < t.rej.nearEnd), l.any (fun e => e.2.stale), t.prog.dpEnable, clipped]
    ⟨start, m, some ⟨i, c.v, tof, min (2 ^ 24 - 1) rg, min 65535 (64 * sw / t.fired), rneN sw l.length,
      snrOf c.v t.f16, flags⟩, false, false⟩

/-- The windows of all candidates, in order of choice. -/
def fineWindows (t : Tile) : List FineWindow :=
  (t.cands.zipIdx).map (fun e => fineWindow t e.2 e.1)

/-- Keep the strongest of close returns: those kept, newest last, and the number removed (06 R146 step 1). -/
def resolveClose : List Ret → List Ret → Nat → List Ret × Nat
  | [], kept, n => (kept, n)
  | r :: rs, kept, n =>
    if kept.any (fun k => decide (k.tof < r.tof + 4096 ∧ r.tof < k.tof + 4096)) then resolveClose rs kept (n + 1)
    else resolveClose rs (kept ++ [r]) n

/-- The diffuse-skip step: what remains and the number removed (07 R158). -/
def skipDiffuse (t : Tile) (rs : List Ret) : List Ret × Nat :=
  let solid := (rs.filter (fun r => !r.diffuse)).map (fun r => r.tof)
  if t.rej.skipDiffuse && (t.hist.policy == 2 || t.hist.policy == 4) && !solid.isEmpty then
    let far := listMax solid
    let kept := rs.filter (fun r => !(r.diffuse && decide (r.tof < far)))
    (kept, rs.length - kept.length)
  else (rs, 0)

/-- The order of the reported returns (06 R146 step 2). -/
def reportOrder (policy : Nat) (rs : List Ret) : List Ret :=
  let strong (r : Ret) : Nat := 2 ^ 24 * (65536 - r.v) + r.tof
  match policy with
  | 0 => sortBy strong rs
  | 4 => sortBy strong (rs.filter (fun r => !r.diffuse)) ++ sortBy strong (rs.filter (fun r => r.diffuse))
  | 2 => sortBy (fun r => 2 ^ 24 - r.tof) rs
  | _ => sortBy (fun r => r.tof) rs

/-- What the second pass leaves. -/
structure Pass2 where
  /-- fine windows in order of choice -/
  wins : List FineWindow := []
  /-- reported returns, in reported order -/
  rets : List Ret := []
  /-- MERGED of the tile -/
  merged : Nat := 0
  /-- FINE_REJECTS of the tile -/
  fineRejects : Nat := 0
  /-- CODE_MISMATCH of the tile -/
  mismatch : Nat := 0
  /-- returns removed by R158 -/
  skippedDiffuse : Nat := 0
  deriving DecidableEq, Repr

/-- The second pass over a tile (06 R141 to R146, 07 R158, R162, R163); a tile with ENGINE_FAULT reports no return
(06 R148). -/
def pass2 (t : Tile) : Pass2 :=
  let ws := fineWindows t
  let acc := sortBy (fun r => 2 ^ 24 * (65536 - r.v) + r.tof) (ws.filterMap (fun w => w.ret))
  let (kept, gone) := resolveClose acc [] 0
  let (left, skipped) := skipDiffuse t kept
  let rets := (reportOrder t.hist.policy left).take t.hist.retMax
  { wins := ws
    rets := if t.fault then [] else rets
    merged := t.merged + gone
    fineRejects := (ws.filter (fun w => w.fineReject)).length
    mismatch := min 255 (t.mismatch + (ws.filter (fun w => w.codeReject)).length)
    skippedDiffuse := skipped }

/-- The strongest return of the tile: largest v, then smallest TOF (06 R146). -/
def strongest (rs : List Ret) : Option Ret :=
  (sortBy (fun r => 2 ^ 24 * (65536 - r.v) + r.tof) rs).head?

/-! #### What the tile leaves in the map (04 R96, R98 to R101, 05 R112) -/

/-- The SNR band of a tile that fired (04 R96). -/
def snrBand (rs : List Ret) : Nat :=
  match strongest rs with
  | some r => min 15 (1 + r.snr / 16)
  | none => 0

/-- LOWGAIN after a tile's processing (05 R112). -/
def autoRange (t : Tile) (old : Bool) : Bool :=
  if t.recv.gainMode ≠ 0 ∨ t.fired = 0 then old
  else
    let live := (allStamps t).filter (fun w => !stRev w)
    if !t.lowGain && decide (t.recv.arCount ≤ (live.filter (fun w => decide (t.recv.arSat ≤ stWidth w))).length) then
      true
    else if t.lowGain && !live.any (fun w => decide (t.recv.arLow ≤ stWidth w)) then false
    else old

/-- Demand of a tile under the weight `h` in force and its SNR band (04 Table SHOT-6, R102). -/
def demandOf (t : Tile) (h q : Nat) : Nat :=
  match t.alloc.mode with
  | 0 => 1
  | 1 => h
  | _ => h * nth t.alloc.g q

/-- One run of the allocator for a tile on a state set, under the settings and the allowance of the tile's frame: the
shot count, whether avail bound it, and the set after (04 R98 to R100). -/
def allocate (t : Tile) (d : Nat) (x : AllocSet) : Nat × Bool × AllocSet :=
  let b := budgetOf t.alloc t.course t.cap
  let nmin := nMinEff t.alloc t.course t.cap
  let nmax := min t.alloc.nMax (fitOf t.prog t.width t.slotCounts)
  let dsum := if t.alloc.mode = 0 then 2048 else x.dPrev
  let (dd, ds) := if dsum = 0 then (1, 2048) else (d, dsum)
  let a := 65536 * (dd * b) / ds + x.carry
  let n := a / 65536
  let avail : Int := (b : Int) - (x.spend : Int) - ((nmin * (2047 - t.column) : Nat) : Int)
  let m : Int := min (n : Int) (min (nmax : Int) avail)
  let r := (max (nmin : Int) m).toNat
  (r, decide (avail < min (n : Int) (nmax : Int)),
    { dPrev := x.dPrev, carry := a - 65536 * n, spend := x.spend + r, dRun := x.dRun + d })

/-- The allocator's step for a tile with weight `h` and SNR band `q` on its course's state (04 R100): N for the tile's
next opening, whether avail bound it, and the course's state. -/
def runAllocator (t : Tile) (h q : Nat) (x : CourseShot) : Nat × Bool × CourseShot :=
  let x1 : CourseShot :=
    if (match x.lastF with | some g => decide (g < t.frame) | none => true) then
      { x with prv := x.cur, cur := { dPrev := x.cur.dRun }, lastF := some t.frame }
    else x
  let d := demandOf t h q
  if x1.lastF = some t.frame then
    let r := allocate t d x1.cur
    (r.1, r.2.1, { x1 with cur := r.2.2 })
  else
    let r := allocate t d x1.prv
    (r.1, r.2.1, { x1 with prv := r.2.2 })

/-! #### Record, tag and slot (08 R168 to R171, R186, R187) -/

/-- One return slot (08 Table TILE-3). -/
def retBytes (r : Ret) : Bytes :=
  b3 r.tof ++ b3 r.range ++ b2 r.intensity ++ b1 r.width ++ b1 r.snr ++ b1 r.flags ++ b1 0

/-- The return slot at position `i`, zero without a return. -/
def retSlot (rs : List Ret) (i : Nat) : Bytes :=
  match rs[i]? with
  | some r => retBytes r
  | none => zeros 12

/-- AMBIENT of a tile (07 R154). -/
def ambientOf (t : Tile) : Nat :=
  let d := t.fired * sideCount t.recv.sides
  if d = 0 then 0 else min 65535 (1000 * t.f16 / d)

/-- FLAGS of a tile record (08 Table TILE-2), without INCOMPLETE and HISTORY_DECIMATED; `capped` is R101's. -/
def tileFlags (t : Tile) (capped : Bool) (nret : Nat) : Nat :=
  bitmap [false, false, false, t.prog.dpEnable, false, (allStamps t).any stStale, t.lowGain, decide (nret = 4),
    decide (0 < t.overflow), t.capped || capped, t.thinned,
    decide (0 < t.nOpen ∧ t.fired = 0) && !t.scheduled && !t.partialTile,
    t.partialTile, t.suspect, t.fault, false]

/-- The tile record, SEQ_LO still 0 (08 Table TILE-1). -/
def tileRecord (t : Tile) (p : Pass2) (flags nNext : Nat) (q : Nat) (low : Bool) : Bytes :=
  b4 (t.frame % turn) ++
  b4 (2048 * t.course + t.column + 2 ^ 18 * t.fired + 2 ^ 24 * t.skipped + 2 ^ 30 * (p.rets.length % 4)) ++
  b2 t.epoch ++ b2 (ambientOf t) ++ b2 flags ++ b2 0 ++
  retSlot p.rets 0 ++ retSlot p.rets 1 ++ retSlot p.rets 2 ++
  b2 t.overflow ++ b2 t.dirt ++ b1 p.mismatch ++ b1 (min 255 p.merged) ++ b1 p.fineRejects ++
  b1 (min 255 t.revExcluded) ++ b1 nNext ++ b1 (q + 16 * b2n low) ++ b2 0

/-- The coarse history code (06 Table HIST-4). -/
def coarseCode (v : Nat) : Nat :=
  if v < 4 then v else if v < 6 then 4 else if v < 8 then 5 else if v < 12 then 6 else if v < 16 then 7
  else if v < 24 then 8 else if v < 32 then 9 else if v < 48 then 10 else if v < 64 then 11
  else if v < 96 then 12 else if v < 128 then 13 else if v < 192 then 14 else 15

/-- The coarse entries of a history slot, before coding: entry and value (06 R147). -/
def coarseEntries (t : Tile) : Tab Nat :=
  if t.prog.window ≤ 2048 then t.coarse.map (fun e => (e.1, cwSum e.2))
  else t.coarse.foldl (fun m e => tabMod 0 m (e.1 / 2) (fun v => min 65535 (v + cwSum e.2))) []

/-- The reported position, 1 to 4, of the return of candidate `i`, or 0 (08 Table TILE-8). -/
def retIdx (rs : List Ret) (i : Nat) : Nat :=
  match rs.findIdx? (fun r => r.idx == i) with
  | some k => k + 1
  | none => 0

/-- Put bytes into a sparse byte table. -/
def putBytes (m : Tab Byte) (off : Nat) (bs : Bytes) : Tab Byte :=
  (bs.zipIdx).foldl (fun m e => tabSet 0 m (off + e.2) e.1) m

/-- The history slot (08 Table TILE-7, R186): its non-zero bytes. -/
def slotBytes (t : Tile) (p : Pass2) : Tab Byte :=
  let coarse := (coarseEntries t).foldl (fun m e =>
    tabMod 0 m (e.1 / 2) (fun v => v + BitVec.ofNat 8 (coarseCode e.2 * (if e.1 % 2 = 0 then 1 else 16)))) []
  let fine := (p.wins.zipIdx).foldl (fun m e =>
    e.1.bins.foldl (fun m x => putBytes m (1024 + 256 * e.2 + 2 * x.1) (b2 x.2)) m) coarse
  match p.rets[3]? with
  | some r => putBytes fine (1024 + 256 * r.idx + 244) (retBytes r)
  | none => fine

/-- START of fine window `i` in the slot tag (08 Table TILE-8). -/
def tagStart (p : Pass2) (i : Nat) : Bytes :=
  match p.wins[i]? with
  | some w => b4 (w.start % 2 ^ 20 + 2 ^ 20 * retIdx p.rets i + 2 ^ 23)
  | none => zeros 4

/-- The slot tag (08 Table TILE-8). -/
def slotTag (t : Tile) (p : Pass2) (flags : Nat) : Bytes :=
  tagStart p 0 ++ tagStart p 1 ++ tagStart p 2 ++ tagStart p 3 ++
  b2 flags ++ b1 t.fired ++ b1 t.skipped ++ b2 (ambientOf t) ++
  b1 (p.rets.length + 8 * b2n (decide (2048 < t.prog.window))) ++ b1 p.mismatch ++
  b2 t.overflow ++ b2 t.dirt ++ b2 t.epoch ++ b2 0

/-! #### Stages (06 R131, R148) -/

/-- The oldest ready tile of an engine: by instant of readiness, then by course (06 R131). -/
def nextReady (e : Nat) (s : State) : Option Tile :=
  (sortBy (fun t : Tile => 128 * t.readyAt + t.course)
    (s.eng.tiles.filter (fun t => t.course / 4 == e && t.stage == .ready))).head?

/-- The tile of an engine in a stage. -/
def inStage (e : Nat) (g : TileStage) (s : State) : Option Tile :=
  s.eng.tiles.find? (fun t => t.course / 4 == e && t.stage == g)

/-- ENGINE_P1_START (06 R131): a free P1 unit takes the next ready tile. -/
def execEngineP1Start (e : Fin 32) (s : State) : Host.Outcome State Fault Refusal :=
  .next <|
    if (inStage e.val .p1 s).isSome ∨ (inStage e.val .p1Done s).isSome then s
    else
      match nextReady e.val s with
      | none => s
      | some t =>
        let n := (allStamps t).length
        let s1 := modTile t.frame t.course t.column (fun y => { y with
          stage := .p1
          stageEnd := now s + p1Time (clockFactor s e.val) n }) s
        modEngine e.val (fun x => { x with stamps := wrap64 (x.stamps + n) }) s1

/-- A tile whose first pass has ended enters P2 when it is free (06 R131). -/
def enterP2 (e : Nat) (s : State) : State :=
  match inStage e .p2 s, inStage e .p1Done s with
  | none, some t =>
    modTile t.frame t.course t.column (fun y => { y with
      stage := .p2
      stageEnd := now s + p2Time (clockFactor s e) (allStamps t).length }) s
  | _, _ => s

/-- Errors read in the engine's SRAM while a tile is processed (06 R148). -/
def engineErrors (e : Nat) (t : Tile) (corr uncorr : Nat) (s : State) : State :=
  let s1 := modEngine e (fun x => { x with
    eccCorr := sat32 (x.eccCorr + corr)
    eccUncorr := sat32 (x.eccUncorr + uncorr) }) s
  if uncorr = 0 then s1
  else
    raiseIrq 12 (logEv 0x0302 e (2048 * t.course + t.column) (t.frame % turn)
      (modTile t.frame t.course t.column (fun y => { y with fault := true }) s1))

/-- ENGINE_P1_DONE (06 R131, R134 to R139): the first pass ends. -/
def execEngineP1Done (e : Fin 32) (corr uncorr : Nat) (s : State) : Host.Outcome State Fault Refusal :=
  .next <|
    match inStage e.val .p1 s with
    | none => s
    | some t =>
      if now s < t.stageEnd then s
      else
        let t1 := pass1 t
        let s1 := modTile t.frame t.course t.column (fun y => { pass1 y with stage := .p1Done }) s
        let s2 := modEngine e.val (fun x => { x with
          revExcluded := sat32 (x.revExcluded + t1.revExcluded)
          candidates := sat32 (x.candidates + t1.cands.length) }) s1
        enterP2 e.val (engineErrors e.val t corr uncorr s2)

/-- Count a frame once on a per-frame counter; a CLEAR does not let the same frame, nor a late tile of an earlier one, count
again (DESIGN CHOICE, log 107). -/
def countFrame (hit : Bool) (f : Nat) (n : Nat) (last : Option Nat) : Nat × Option Nat :=
  if hit && (match last with | some g => decide (g < f) | none => true) then (sat32 (n + 1), some f) else (n, last)

/-- The end of a tile's second pass: the map, the counters, and the record and slot handed to the Mortar link (06 R131,
R148; 04 R96, R100, R101; 05 R112; 08 R169 to R171). -/
def finishTile (t : Tile) (s : State) : State :=
  let p := pass2 t
  let tile := 2048 * t.course + t.column
  let map := tabGet {} s.shot.tpm tile
  let q := if t.fired = 0 then map.q else snrBand p.rets
  let low := autoRange t map.lowGain
  let (n, bound, cs) := runAllocator t (tabGet 1 s.set.weights tile) q (course s t.course)
  let capped := decide (t.cap < modeBudget t.alloc t.course)
  let capF := countFrame capped t.frame cs.cappedFrames cs.cappedLast
  let exF := countFrame bound t.frame cs.exhaustedFrames cs.exhaustedLast
  let cs' : CourseShot := { cs with
    cappedFrames := capF.1, cappedLast := capF.2, exhaustedFrames := exF.1, exhaustedLast := exF.2 }
  let flags := tileFlags t capped p.rets.length
  let res : TileResult :=
    { frame := t.frame, tile := tile, record := tileRecord t p flags n q low, tag := slotTag t p flags,
      slot := slotBytes t p, born := t.completedAt, queued := now s }
  let queue := insertBy (fun x : TileResult => 32 * x.queued + x.tile / 8192) res
  let s1 : State :=
    { s with
      shot.tpm := tabSet {} s.shot.tpm tile { n := n, q := q, lowGain := low }
      eng.tiles := s.eng.tiles.filter (fun y => !isTile t.frame t.course t.column y)
      dlv.link := queue s.dlv.link
      dlv.slots := queue s.dlv.slots }
  let s2 := modCourse t.course (fun _ => cs') s1
  let s3 := modEngine (t.course / 4) (fun x => { x with
    tiles := wrap64 (x.tiles + 1)
    returns := sat32 (x.returns + p.rets.length)
    fineRejects := sat32 (x.fineRejects + p.fineRejects)
    merged := sat32 (x.merged + p.merged)
    maxLatency := max x.maxLatency (min 0xFFFFFFFF (now s - t.completedAt)) }) s2
  modRej t.course (fun x => { x with
    ambientLast := ambientOf t
    codeMismatch := wrap64 (x.codeMismatch + p.mismatch)
    ambientSat := if 0 < t.overflow then sat32 (x.ambientSat + 1) else x.ambientSat
    diffuseReturns := sat32 (x.diffuseReturns + (p.rets.filter Ret.diffuse).length)
    diffuseSkipped := sat32 (x.diffuseSkipped + p.skippedDiffuse)
    nearReturns := sat32 (x.nearReturns + (p.rets.filter Ret.near).length)
    codeOkReturns := sat32 (x.codeOkReturns + (p.rets.filter Ret.codeOk).length)
    maxMismatch := max x.maxMismatch p.mismatch }) s3

end Sys2Proof.Machine
end

