-- ==== Sys2Proof/Machine/Curve.lean ====
section
/-! DEFINITION. The linearisation curves of the housekeeping channels as exact values (17 R388, Table HKTH-2). The device
evaluates them in binary32: its rounding errors stand beside them as a bound (DEDUCED, log 28). -/

namespace Sys2Proof.Machine

open Sys2Proof

/-! #### Exact values -/

/-- An integer. -/
def exInt (n : Int) : Exact := ⟨n, 1⟩
/-- Sum. -/
def exAdd (a b : Exact) : Exact := ⟨a.num * (b.den : Int) + b.num * (a.den : Int), a.den * b.den⟩
/-- Opposite. -/
def exNeg (a : Exact) : Exact := ⟨-a.num, a.den⟩
/-- Product. -/
def exMul (a b : Exact) : Exact := ⟨a.num * b.num, a.den * b.den⟩
/-- Magnitude. -/
def exAbs (a : Exact) : Exact := ⟨(a.num.natAbs : Int), a.den⟩
/-- Reciprocal of a value other than 0. -/
def exInv (a : Exact) : Exact := ⟨if 0 ≤ a.num then (a.den : Int) else -(a.den : Int), a.num.natAbs⟩
/-- Quotient by a value other than 0. -/
def exDiv (a b : Exact) : Exact := exMul a (exInv b)

/-- The value of a finite binary32. -/
def f32 (w : Nat) : Exact :=
  let e := w / 2 ^ 23 % 256
  let m : Int := ((w % 2 ^ 23 + (if e = 0 then 0 else 2 ^ 23) : Nat) : Int)
  let m := if bit w 31 then -m else m
  let e := max e 1
  if 150 ≤ e then ⟨m * 2 ^ (e - 150), 1⟩ else ⟨m, 2 ^ (150 - e)⟩

/-! #### The natural logarithm, in units of 2^-96 -/

/-- The next `n` terms of the series of the inverse hyperbolic tangent of z, from `p`, the power z^k. -/
def atanhSum (z2 : Int) : Nat → Nat → Int → Int
  | 0, _, _ => 0
  | n + 1, k, p => p / (k : Int) + atanhSum z2 n (k + 2) (p * z2 / one96)

/-- The natural logarithm of a / b for a at least b and below 2 b. -/
def lnNear (a b : Nat) : Int :=
  let z := ((a : Int) - (b : Int)) * one96 / ((a + b : Nat) : Int)
  2 * atanhSum (z * z / one96) 32 1 z

/-- The natural logarithm of a / b, for a and b above 0. -/
def ln96 (a b : Nat) : Exact :=
  let e : Int := ((Nat.log2 a : Nat) : Int) - ((Nat.log2 b : Nat) : Int)
  let a1 := a * 2 ^ (-e).toNat
  let b1 := b * 2 ^ e.toNat
  let near := if b1 ≤ a1 then lnNear a1 b1 else -lnNear b1 a1
  ⟨near + e * lnNear 4 3 + e * lnNear 3 2, 2 ^ 96⟩

/-! #### The curves -/

/-- The voltage of a conversion with an offset in 1/256 code and a gain in Q2.30, V (17 R386, R388, R409). -/
def voltOf (code offset : Int) (gain : Nat) : Exact :=
  ⟨5 * (256 * code - offset) * (gain : Int), 256 * 2 ^ 30 * 65536⟩

/-- A temperature 1 / d in K as degrees Celsius, with what the errors of d, relative to the sum `m` of the magnitudes in
it, may move. -/
def inverseT (d m : Exact) : Option (Exact × Exact) :=
  if d.num = 0 then none
  else
    let t := exInv d
    let zero : Exact := ⟨27315, 100⟩
    some (exAdd t (exNeg zero), exAdd zero (exMul (exAbs t) (exDiv m (exAbs d))))

/-- The NTC beta model (curve 2). -/
def curveBeta (r : Exact) (p : Nat → Exact) : Option (Exact × Exact) :=
  let x := exDiv r (p 1)
  if x.num ≤ 0 then none
  else
    let base : Exact := ⟨20, 5963⟩
    let l := ln96 x.num.natAbs x.den
    inverseT (exAdd base (exDiv l (p 0))) (exAdd base (exDiv (exAdd (exInt 1) (exAbs l)) (p 0)))

/-- The Steinhart-Hart model (curve 3). -/
def curveSteinhart (r : Exact) (p : Nat → Exact) : Option (Exact × Exact) :=
  if r.num ≤ 0 then none
  else
    let l := ln96 r.num.natAbs r.den
    let m := exAdd (exInt 1) (exAbs l)
    let poly (a b c x : Exact) : Exact := exAdd a (exAdd (exMul b x) (exMul c (exMul x (exMul x x))))
    inverseT (poly (p 0) (p 1) (p 2) l) (poly (exAbs (p 0)) (exAbs (p 1)) (exAbs (p 2)) m)

/-- Resistance over R0 of a platinum sensor at t, in units of 2^-16 degree, scaled by 10^12 x 2^64 (IEC 60751 with its
standard coefficients; PRESUMED, log 28). -/
def platinum (t : Int) : Int :=
  let s : Int := 65536
  10 ^ 12 * s ^ 4 + 3908300000 * t * s ^ 3 - 577500 * t ^ 2 * s ^ 2 -
    (if t < 0 then 4183 * (t - 100 * s) * t ^ 3 / 1000 else 0)

/-- The largest t from `lo` on, in `n` halvings of 2^n, at which the sensor does not exceed the ratio `x`. -/
def platinumBits (x : Exact) : Nat → Int → Int
  | 0, t => t
  | n + 1, t =>
    let u := t + 2 ^ n
    platinumBits x n (if platinum u * (x.den : Int) ≤ x.num * (10 ^ 12 * 2 ^ 64) then u else t)

/-- The temperature of a platinum sensor of resistance `r` with `r0` at 0 degrees, from -200 to 850 (curves 4 and 5). -/
def curvePlatinum (r : Exact) (r0 : Int) : Exact × Exact :=
  let t := min (850 * 65536) (platinumBits (exDiv r (exInt r0)) 27 (-200 * 65536))
  (⟨t, 65536⟩, exInt 1200)

/-- The difference of a diode's voltages at 100 uA and at 10 uA (curve 6). -/
def curveDiode (v even n : Exact) (i10 i100 : Nat) : Option (Exact × Exact) :=
  if i100 ≤ i10 ∨ i10 = 0 ∨ n.num = 0 then none
  else
    let l := ln96 i100 i10
    let k : Exact := exDiv ⟨1602176634000, 138064900⟩ (exMul (exAbs n) l)
    let m := exDiv (exAdd (exInt 1) l) l
    let zero : Exact := ⟨27315, 100⟩
    some (exAdd (exMul k (exAdd v (exNeg even))) (exNeg zero),
      exAdd zero (exMul (exMul k m) (exAdd (exAbs v) (exAbs even))))

/-- Linear interpolation in a table of 33 values from -2.5 to 2.5 V (curve 7). -/
def curveTable (v : Exact) (p : Nat → Exact) : Option (Exact × Exact) :=
  let x := exMul (exAdd v ⟨5, 2⟩) ⟨32, 5⟩
  let k := x.num / (x.den : Int)
  if k < 0 ∨ 32 * (x.den : Int) < x.num then none
  else
    let i := min 31 k.toNat
    let f := exAdd x (exInt (-(i : Int)))
    let a := p i
    let b := p (i + 1)
    some (exAdd a (exMul f (exAdd b (exNeg a))), exAdd (exAbs a) (exAbs b))

/-- The value of a curve for a voltage in V, with the magnitude that rounding errors in it are relative to; none where
Table HKTH-2 gives no finite value. -/
def curveExact (curve : Nat) (params : Bytes) (v even : Exact) (i i10 i100 : Nat) : Option (Exact × Exact) :=
  let p (k : Nat) : Exact := f32 (u32 params (4 * k))
  let r := if i = 0 then exInt 0 else exMul v ⟨10 ^ 12, i⟩
  match curve with
  | 0 => some (v, exAbs v)
  | 1 => some (exAdd (exMul (p 0) v) (p 1), exAdd (exAbs (exMul (p 0) v)) (exAbs (p 1)))
  | 2 => curveBeta r p
  | 3 => curveSteinhart r p
  | 4 => some (curvePlatinum r 100)
  | 5 => some (curvePlatinum r 1000)
  | 6 => curveDiode v even (p 0) i10 i100
  | _ => curveTable v p

/-- In units of 2^-16, how far binary32 arithmetic may move a value: 16 roundings of the magnitude in it, and 1 for the
last rounding. -/
def curveBound (m : Exact) : Nat := 1 + ceilDiv m.num.natAbs (16 * m.den)

/-- The value in Q15.16, an error folded into the bound (17 R388). -/
def curveRounded (x m : Exact) (error : Nat) : Int :=
  let b := curveBound m
  rne (x.num * 65536) x.den + ((error % (2 * b + 1) : Nat) : Int) - (b : Int)

end Sys2Proof.Machine
end

