-- ==== Sys2Proof/Machine/Thermal.lean ====
section
/-! DEFINITION. Temperature sensors, levels, throttling and thermal shutdown (17 R396 to R406, R410). -/

namespace Sys2Proof.Machine

open Sys2Proof

/-! #### Levels (17 R398 to R402) -/

/-- A sensor's level with the rate hold and the broken state (17 R398, R399, R402): 0 NORMAL to 3 SHUTDOWN. -/
def sensorLevel (x : ThSensor) : Nat := if x.hold || x.broken then max 2 x.level else x.level

/-- Broken sensors of a die: TS0 to TS7 are on die A (17 Table HKTH-3). -/
def brokenOn (die : Nat) (s : State) : Nat :=
  ((List.range 12).filter (fun i => decide (i / 8 = die) && (sensor s i).broken)).length

/-- The device level (17 R398, R402); SHUTDOWN does not fall. -/
def deviceLevel (s : State) : Nat :=
  if s.th.level = 3 ∨ 2 ≤ brokenOn 0 s ∨ 2 ≤ brokenOn 1 s then 3
  else listMax ((List.range 12).map (fun i => sensorLevel (sensor s i)))

/-- A die B sensor is at THROTTLE or above (17 R401). -/
def dieBThrottled (s : State) : Bool := (List.range 4).any (fun i => decide (2 ≤ sensorLevel (sensor s (8 + i))))

/-- Some sensor is at THROTTLE or above. -/
def anyThrottle (s : State) : Bool := (List.range 12).any (fun i => decide (2 ≤ sensorLevel (sensor s i)))

/-- EXIT_OK (17 R406): the die A diode and every die B sensor read below 120 °C. -/
def exitOk (s : State) : Bool :=
  let cool (x : Option Int) : Bool := match x with
    | some v => decide (v < 1920)
    | none => false
  cool s.th.diodeA && (List.range 4).all (fun i => cool (sensor s (8 + i)).last)

/-- Note a reading of a sensor or substrate diode for TMAX of a shutdown entry: of the last second only the readings no
later one exceeds are kept (17 R405). -/
def noteReading (v : Int) (s : State) : State :=
  let live := s.th.recent.filter (fun e => decide (now s < e.1 + 1000000000) && decide (v < e.2))
  { s with
    th.recent := (now s, v) :: live
    th.entry := s.th.entry.map (fun e => if s.power.dieA then { e with tmax := max e.tmax v } else e) }

/-- The largest reading of the last second. -/
def recentMax (s : State) : Int :=
  (s.th.recent.filter (fun e => decide (now s ≤ e.1 + 1000000000))).foldl (fun m e => max m e.2) (-880)

/-- The device level becomes SHUTDOWN (17 R404): the thermal input rises, the run state is UNARMED, an entry is due. -/
def declareShutdown (who : Nat) (rise : Int) (s : State) : State :=
  let tmax := recentMax s
  let s1 := { s with
    th.shut := true
    th.shutdowns := sat32 (s.th.shutdowns + 1)
    th.entry := some ⟨now s, who, tmax, rise⟩ }
  noteReset 9 (logEv 0x0A07 who (unsigned 32 tmax) 0 (unarm (esArise 5 s1)))

/-- Halve or restore the clocks of the engines of a die A sensor (17 R401). -/
def setClocks (ts : Nat) (s : State) : State :=
  if 8 ≤ ts then s
  else
    let h := decide (2 ≤ sensorLevel (sensor s ts))
    forUpto 4 (fun i s => modEngine (4 * ts + i) (fun e => { e with halved := h }) s) s

/-- Keep the time with any sensor at THROTTLE (17 Table HKTH-9). -/
def throttleClock (s : State) : State :=
  match anyThrottle s, s.th.throttleFrom with
  | true, none => { s with th.throttleFrom := some (now s) }
  | false, some t => { s with th.throttleNs := s.th.throttleNs + (now s - t), th.throttleFrom := none }
  | _, _ => s

/-- A sensor's level, hold or broken state may have changed: engines, the device level and a shutdown follow (17 R398,
R401, R402, R404). -/
def levelsChanged (ts : Nat) (s : State) : State :=
  let s1 := throttleClock (setClocks ts s)
  let new := deviceLevel s1
  if new = s1.th.level then s1
  else
    let two := decide (2 ≤ brokenOn (ts / 8) s1)
    let who := if two then 0x80 + ts / 8 else ts
    let s2 := raiseIrq 15 (logEv 0x0A03 s1.th.level new who { s1 with th.level := new })
    if new = 3 then declareShutdown who (if two then 0 else (sensor s2 ts).rise) s2 else s2

/-! #### Readings (17 R396 to R398, R402, R403) -/

/-- The limit of a level. -/
def limitOf (s : State) (level : Nat) : Int :=
  match level with
  | 1 => s.th.warn
  | 2 => s.th.throttle
  | _ => s.th.shutdown

/-- The counts of consecutive readings at or above each limit. -/
def countReadings (s : State) (v : Int) (x : ThSensor) : ThSensor :=
  { x with
    atWarn := if s.th.warn ≤ v then min 2 (x.atWarn + 1) else 0
    atThrottle := if s.th.throttle ≤ v then min 2 (x.atThrottle + 1) else 0
    atShutdown := if s.th.shutdown ≤ v then min 4 (x.atShutdown + 1) else 0
    below := if (x.level = 1 ∨ x.level = 2) ∧ v < limitOf s x.level - 48 then min 4 (x.below + 1) else 0 }

/-- The level set by the limits after a reading (17 R398). -/
def judgeLevel (x : ThSensor) : ThSensor :=
  let up := if 4 ≤ x.atShutdown then 3 else if 2 ≤ x.atThrottle then 2 else if 2 ≤ x.atWarn then 1 else 0
  if x.level < up then { x with level := up, below := 0 }
  else if (x.level = 1 ∨ x.level = 2) ∧ 4 ≤ x.below then { x with level := x.level - 1, below := 0 }
  else x

/-- The cadence after a reading (17 R397). -/
def judgeCadence (s : State) (v : Int) (x : ThSensor) : ThSensor :=
  let hot := x.broken || decide (0 < sensorLevel x)
  if hot || decide (s.th.warn - 160 ≤ v) then { x with fast := true, cool := 0 }
  else if !x.fast then x
  else if v < s.th.warn - 192 then
    if 40 ≤ x.cool + 1 then { x with fast := false, cool := 0 } else { x with cool := x.cool + 1 }
  else { x with cool := 0 }

/-- A good reading: it is judged against the limits unless the sensor is broken and so held. -/
def goodReading (s : State) (v : Int) (x : ThSensor) : ThSensor :=
  let x1 := { x with last := some v, tmax := some (max v (x.tmax.getD v)), bad := 0, readAt := now s }
  judgeCadence s v (if x.broken then x1 else judgeLevel (countReadings s v x1))

/-- A bad reading: zero, or outside -55 to 175 °C (17 R402). It is not judged against the limits. -/
def badReading (s : State) (r : Option Int) (x : ThSensor) : ThSensor :=
  let n := min 2 (x.bad + 1)
  let x1 := { x with last := r.orElse (fun _ => x.last), bad := n, readAt := now s }
  if 2 ≤ n then { x1 with broken := true, fast := true, cool := 0 } else x1

/-- A reading lies outside -55 to 175 °C or counted zero. -/
def isBad (r : Option Int) : Bool :=
  match r with
  | some v => !withinI (-880) v 2800
  | none => true

/-- The sensor is not read: a die A sensor while die A is in reset or gated (17 R403). -/
def notRead (s : State) (ts : Nat) : Bool := decide (ts < 8) && !s.power.dieA

/-- A reading of a sensor. -/
def readSensor (ts : Nat) (r : Option Int) (s : State) : State :=
  let was := (sensor s ts).broken
  let s0 := match r with
    | some v => if isBad r then s else noteReading v s
    | none => s
  let s1 := modSensor ts (fun x =>
    if isBad r then badReading s r x else goodReading s (r.getD 0) x) s0
  let s2 := if !was && (sensor s1 ts).broken then logEv 0x0A05 ts 0 0 s1 else s1
  levelsChanged ts s2

/-- TEMP_READING (17 R398): a sensor's gate ends, 250 µs after its last in the fast cadence, 10 ms in the slow one. -/
def execTempReading (ts : Fin 12) (reading : Option Int) (s : State) : Host.Outcome State Fault Refusal :=
  .next <|
    let x := sensor s ts.val
    let period := if x.fast then 250000 else 10000000
    if !s.power.main || notRead s ts.val then s
    else if x.readAt ≠ 0 ∧ now s < x.readAt + period then s
    else readSensor ts.val reading s

/-! #### Rate of rise (17 R399) -/

/-- The rise of the newest mark over the mark `n` before it. -/
def riseOver (n : Nat) (marks : List Int) : Option Int :=
  match marks.head?, marks[n]? with
  | some a, some b => some (a - b)
  | _, _ => none

/-- A 10 ms mark of one sensor. -/
def rateMark (ts : Nat) (s : State) : State :=
  let x := sensor s ts
  match x.last with
  | none => s
  | some v =>
    if notRead s ts then modSensor ts (fun x => { x with marks := [] }) s
    else
      let marks := (v :: x.marks).take 101
      let r1 := riseOver 100 marks
      let r200 := (riseOver 20 marks).getD 0
      let warn := decide (s.th.rise1s ≤ r1.getD 0) && r1.isSome
      let up := decide (s.th.rise200 ≤ r200) && (riseOver 20 marks).isSome
      let calm := if r200 < 32 then x.calm + 1 else 0
      let hold := up || (x.hold && decide (calm < 100))
      let s1 := modSensor ts (fun x => { x with
        marks := marks
        rise := r1.getD 0
        rateWarn := warn
        hold := hold
        fast := x.fast || hold
        calm := if up || !x.hold then 0 else calm }) s
      let s2 := if warn && !x.rateWarn then logEv 0x0A04 ts (unsigned 32 (r1.getD 0)) 0 s1 else s1
      levelsChanged ts s2

/-- TH_RATE_MARK (17 R399): every sensor is evaluated at a 10 ms mark. -/
def execThRateMark (s : State) : Host.Outcome State Fault Refusal :=
  .next (if !s.power.main || decide (now s < s.th.markAt + 10000000) then s
    else forUpto 12 rateMark { s with th.markAt := now s })

/-! #### The shutdown entry (17 R405) -/

/-- A thermal-shutdown entry (17 Table HKTH-4). -/
def shutdownBytes (e : ShutdownEntry) (s : State) : Bytes :=
  b4 (s.th.entries + 1) ++ b4 s.nv.hours ++ b3 s.nv.pcycles ++ b1 e.sensor ++ bS 2 e.tmax ++ bS 2 e.rise

/-- TH_SHUTDOWN_ENTRY (17 R405): die A is gated, so that TMAX is final, and the entry is written. -/
def execThShutdownEntry (s : State) : Host.Outcome State Fault Refusal :=
  .next <|
    match s.th.entry with
    | none => s
    | some e =>
      if s.power.dieA then s
      else
        let (ok, s1) := nvWrite 5 (16 * (s.nv.thermalNext % 128)) (shutdownBytes e s) { s with th.entry := none }
        { s1 with
          nv.thermalNext := (s1.nv.thermalNext + 1) % 128
          th.entries := if ok then s1.th.entries + 1 else s1.th.entries }

/-! #### Commands (17 R400, R410) -/

/-- The fields of TH_CONFIG (17 R400, R410). -/
def thFields (p : Bytes) : List (Bool × Nat) :=
  let w := s16 p 0
  let t := s16 p 2
  let d := s16 p 4
  [(decide (w ≤ 2320), 0), (decide (w + 32 ≤ t ∧ t ≤ 2432), 2), (decide (t + 32 ≤ d ∧ 2000 ≤ d ∧ d ≤ 2592), 4),
    (within 16 (u16 p 6) 80, 6), (within 16 (u16 p 8) 80, 8), rsv p 10 6]

/-- TH_CONFIG (17 R400, R410). -/
def execThConfig (mb : Fin 8) (s : State) : Host.Outcome State Fault Refusal :=
  runCommand 0x0A05 mb (fun _ _ p s =>
    checked (fixedPayload p 16 (thFields p)) s (fun _ =>
      (logEv 0x0A06 (unsigned 32 (s16 p 0)) (unsigned 32 (s16 p 2)) (unsigned 32 (s16 p 4))
        { s with
          th.warn := s16 p 0
          th.throttle := s16 p 2
          th.shutdown := s16 p 4
          th.rise1s := u16 p 6
          th.rise200 := u16 p 8 }, ok))) s

/-- STATE of a sensor; 0 until its first reading (17 Table HKTH-9, 21 R471). -/
def sensorState (s : State) (ts : Nat) : Nat :=
  let x := sensor s ts
  if x.readAt = 0 then 0
  else sensorLevel x + 4 * bitmap [x.fast, x.broken, notRead s ts, x.hold, x.rateWarn]

/-- Bit k of HALVED: engine k runs at half clock. -/
def halvedMap (s : State) : Nat := bitmapOf 32 (fun k => (engine s k).halved)

/-- FLAGS of TH_STATUS. -/
def thFlags (s : State) : Nat :=
  bitmap [exitOk s, s.th.gated, dieBThrottled s, (List.range 12).any (fun i => (sensor s i).rateWarn)]

/-- THROTTLE_MS. -/
def throttleMs (s : State) : Nat :=
  let live := match s.th.throttleFrom with
    | some t => now s - t
    | none => 0
  sat32 ((s.th.throttleNs + live) / 1000000)

/-- The TH_STATUS result (17 Table HKTH-9). -/
def thStatus (s : State) : Bytes :=
  b1 s.th.level ++ b1 (thFlags s) ++ b2 0 ++ b4 (halvedMap s) ++ bS 2 s.th.warn ++ bS 2 s.th.throttle ++
    bS 2 s.th.shutdown ++ bS 2 s.th.rise1s ++ bS 2 s.th.rise200 ++ bS 2 (s.th.diodeA.getD 0) ++ b4 s.th.shutdowns ++
    b4 (throttleMs s) ++ b4 0 ++
    (List.range 12).flatMap (fun i =>
      let x := sensor s i
      bS 2 (x.last.getD 0) ++ bS 2 (x.tmax.getD 0) ++ bS 2 x.rise ++ b1 (sensorState s i) ++ b1 0)

/-- TH_STATUS (17 R410). -/
def execThStatus (mb : Fin 8) (s : State) : Host.Outcome State Fault Refusal :=
  runCommand 0x0A06 mb (fun _ _ p s => checked (fixedPayload p 0 []) s (fun _ => (s, okWith (thStatus s)))) s

end Sys2Proof.Machine
end

