-- ==== Sys2Proof/Machine/Housekeeping.lean ====
section
/-! DEFINITION. The housekeeping ADC: conversion, curves, accumulators, wire break, switches and calibration (17 R386 to
R395, R408, R409; 21 R470). -/

namespace Sys2Proof.Machine

open Sys2Proof

/-! #### Conversion to a value (17 R388, R391, R392) -/

/-- The largest Q15.16 value. -/
def hkTop : Int := 2 ^ 31 - 1

/-- CURVE of a channel: the host's for a pair, 6 for the substrate diodes and 0 for the other internal points. -/
def curveOf (s : State) (ch : Nat) : Nat :=
  if ch < 16 then (hkChan s ch).set.curve else if ch = 29 ∨ ch = 30 then 6 else 0

/-- Nominal current of an excitation, pA. -/
def nominalCurrent (exc : Nat) : Nat := nth [0, 10000000, 100000000, 1000000000] exc

/-- The calibrated current of a pair's excitation, pA. -/
def currentOf (s : State) (ch : Nat) : Nat :=
  let exc := (hkChan s ch).set.exc
  if exc = 0 then 0 else s.hk.currents.getD (3 * ch + exc - 1) (nominalCurrent exc)

/-- The calibrated current of source 1 (10 uA) or 2 (100 uA) of a pair, pA; 0 for an internal point, whose diode has no
stated ideality. -/
def sourceOf (s : State) (ch exc : Nat) : Nat :=
  if ch < 16 then s.hk.currents.getD (3 * ch + exc - 1) (nominalCurrent exc) else 0

/-- The value of a conversion through its curve: exact for curve 0 with nominal factors; else the curve's value within the
errors of binary32 arithmetic; free where the curve gives no finite value (17 R388, log 28). -/
def curveValue (s : State) (ch : Nat) (code even : Int) : Int :=
  let c := curveOf s ch
  let p := (hkChan s ch).set.params
  let i := currentOf s ch
  let free := Config.hkCurve c p code even s.hk.offset s.hk.gain i
  if c = 0 ∧ s.hk.offset = 0 ∧ s.hk.gain = 2 ^ 30 then 5 * code
  else
    match curveExact c p (voltOf code s.hk.offset s.hk.gain) (voltOf even s.hk.offset s.hk.gain) i (sourceOf s ch 1)
      (sourceOf s ch 2) with
    | some (x, m) => satS 32 (curveRounded x m free.natAbs)
    | none => satS 32 free

/-- Accumulate a value (17 R390). -/
def accumulate (y : Int) (x : HkChannel) : HkChannel :=
  let x1 := { x with min := if x.n = 0 then y else min x.min y, max := if x.n = 0 then y else max x.max y }
  if x.full then x1
  else { x1 with sum := satS 64 (x.sum + y), n := x.n + 1, full := decide (x.n + 1 = 0xFFFFFFFF) }

/-- A high switch after a value (17 R393). -/
def highAfter (y : Int) (w : HkSwitch) : Bool :=
  w.enable && (decide (w.level ≤ y) || (w.on && !decide (y ≤ w.level - w.hyst)))

/-- A low switch after a value (17 R393). -/
def lowAfter (y : Int) (w : HkSwitch) : Bool :=
  w.enable && (decide (y ≤ w.level) || (w.on && !decide (w.level + w.hyst ≤ y)))

/-- Set a switch's state; a change is reported (17 R393). -/
def setSwitch (ch : Nat) (low on : Bool) (s : State) : State :=
  let x := hkChan s ch
  let w := if low then x.low else x.high
  if w.on = on then s
  else
    let w' := { w with on := on }
    raiseIrq 16 (logEv 0x0A02 ch (b2n low) (b2n on)
      (modHk ch (fun x => if low then { x with low := w' } else { x with high := w' }) s))

/-- Pass a value to the switches of a channel; a trip switch makes HK_SWITCH present (17 R393, 10 Table SAFE-1). -/
def passSwitches (ch : Nat) (y : Int) (s : State) : State :=
  let x := hkChan s ch
  let s1 := setSwitch ch true (lowAfter y x.low) (setSwitch ch false (highAfter y x.high) s)
  if hkTripInput s1 then esArise 10 s1 else s1

/-- A value of the substrate diodes reaches the thermal manager, in 1/16 °C (17 R403, R405, R406). -/
def diodeReading (ch : Nat) (y : Int) (s : State) : State :=
  let v := rne y 4096
  if ch = 29 then noteReading v { s with th.diodeB := some v }
  else if ch = 30 then noteReading v { s with th.diodeA := some v }
  else s

/-- A value y of a channel: accumulated and passed on (17 R390). -/
def takeValue (ch : Nat) (y : Int) (s : State) : State :=
  diodeReading ch y (passSwitches ch y (modHk ch (accumulate y) s))

/-- A conversion without over-range and break: a curve-6 channel keeps its even-round conversion and gives a value in
odd rounds (17 R389). -/
def goodConversion (ch : Nat) (code : Int) (s : State) : State :=
  if curveOf s ch = 6 then
    if s.hk.round % 2 = 0 then modHk ch (fun x => { x with even := some code }) s
    else
      match (hkChan s ch).even with
      | some e => takeValue ch (curveValue s ch code e) (modHk ch (fun x => { x with even := none }) s)
      | none => s
  else takeValue ch (curveValue s ch code 0) s

/-- A slot is converted (17 R387 to R393, 03 Table LOOP-8). -/
def convertSlot (ch : Nat) (code : Int) (over_ brk : Bool) (s : State) : State :=
  let x := hkChan s ch
  let brk := brk && decide (ch < 16 ∧ x.set.exc ≠ 0)
  let s1 := modHk ch (fun x => { x with
    breaks := if brk then sat32 (x.breaks + 1) else x.breaks
    breakNow := brk
    breakSince := x.breakSince || brk
    overCount := if over_ then sat32 (x.overCount + 1) else x.overCount
    overSince := x.overSince || over_ }) s
  let s2 := if brk && !x.breakNow then logEv 0x0A01 ch 0 0 s1 else s1
  let s3 := if brk || over_ then passSwitches ch hkTop (modHk ch (fun x => { x with even := none }) s2)
    else goodConversion ch code s2
  if ch = 16 then dacCheck (if over_ then code else rne (curveValue s3 16 code 0) 5) s3 else s3

/-- HK_CONVERSION (17 R387): the next slot of the round, one per µs. -/
def execHkConversion (code : Int) (overRange brk : Bool) (s : State) : Host.Outcome State Fault Refusal :=
  .next <|
    let k := s.hk.slot
    if !s.power.main || s.hk.cal.isSome || decide (36 ≤ k) || decide (now s < s.hk.roundAt + 1000 * (k + 1)) then s
    else feedHk k (satS 16 code) (convertSlot k (satS 16 code) overRange brk { s with hk.slot := k + 1 })

/-! #### Round boundary (17 R394, R408, 21 R470) -/

/-- FLAGS of an HK_READ entry. -/
def hkFlags (s : State) (ch : Nat) : Nat :=
  let x := hkChan s ch
  bitmap [x.high.on, x.low.on, x.overSince, x.breakNow, x.breakSince, s.hk.uncal, decide (16 ≤ ch), x.full]

/-- An HK_READ entry (17 Table HKTH-8). -/
def hkEntry (s : State) (ch : Nat) : Bytes :=
  let x := hkChan s ch
  bS 8 x.sum ++ b4 x.n ++ bS 4 (if x.n = 0 then 0 else x.min) ++ bS 4 (if x.n = 0 then 0 else x.max) ++
    b4 x.overCount ++ b4 x.breaks ++ b2 (hkFlags s ch) ++ b1 (curveOf s ch) ++ b1 (if ch < 16 then x.set.exc else 0)

/-- The HK_READ result (17 R408). -/
def hkReadResult (first count : Nat) (s : State) : Bytes :=
  b4 s.hk.round ++ b1 first ++ b1 count ++ b2 0 ++ (List.range count).flatMap (fun i => hkEntry s (first + i))

/-- CLEAR of HK_READ (17 R408). -/
def clearHk (x : HkChannel) : HkChannel :=
  { x with
    sum := 0, n := 0, min := 0, max := 0, full := false, overCount := 0, breaks := 0, overSince := false,
    breakSince := false }

/-- The latches of one boundary: the HK_READs that wait, then their clears, and the mirror of BAR0. -/
def latchReads (s : State) : State :=
  let rs := s.hk.reads
  let s1 := if s.hk.latchPending then
      { s with
        hk.latchPending := false
        hk.latchSeq := wrap32 (s.hk.latchSeq + 1)
        hk.latchRound := s.hk.round
        hk.mirror := (List.range 36).flatMap (hkEntry s) }
    else s
  let s2 := forEach rs (fun r x => finish r.jseq (okWith (hkReadResult r.first r.count s)) x) { s1 with hk.reads := [] }
  forEach (rs.filter (fun r => r.clear)) (fun r x =>
    forUpto r.count (fun i x => modHk (r.first + i) clearHk x) x) s2

/-- New settings of a channel take effect: its accumulator and sticky flags clear and its switches deassert (17 R394). -/
def applyHk (ch : Nat) (s : State) : State :=
  let x := hkChan s ch
  if x.setNew.isNone ∧ x.highNew.isNone ∧ x.lowNew.isNone then s
  else
    let s1 := setSwitch ch true false (setSwitch ch false false s)
    modHk ch (fun x => { x with
      set := x.setNew.getD x.set
      high := x.highNew.getD x.high
      low := x.lowNew.getD x.low
      setNew := none
      highNew := none
      lowNew := none
      sum := 0
      n := 0
      min := 0
      max := 0
      full := false
      overSince := false
      breakSince := false
      even := none }) s1

/-- HK_ROUND_BOUNDARY (21 R470): the round's 36 µs have passed. -/
def execHkRoundBoundary (s : State) : Host.Outcome State Fault Refusal :=
  .next <|
    if !s.power.main || s.hk.cal.isSome || decide (s.hk.slot < 36) || decide (now s < s.hk.roundAt + 36000) then s
    else
      forUpto 36 applyHk (latchReads { s with
        hk.round := wrap32 (s.hk.round + 1)
        hk.slot := 0
        hk.roundAt := s.hk.roundAt + 36000 })

/-- HK_LATCH (21 R470): a write requests a latch. -/
def execHkLatch (s : State) : Host.Outcome State Fault Refusal :=
  .next (if bar0Served s then { s with hk.latchPending := true } else s)

/-! #### Commands (17 R394, R395, R408, R409) -/

/-- A binary32 pattern is finite. -/
def finite32 (v : Nat) : Bool := decide (v / 2 ^ 23 % 256 ≠ 255)
/-- A binary32 pattern is finite and above 0. -/
def positive32 (v : Nat) : Bool := finite32 v && decide (0 < v ∧ v < 2 ^ 31)

/-- Parameters a curve takes (17 Table HKTH-2). -/
def paramCount (curve : Nat) : Nat := nth [0, 2, 2, 3, 0, 0, 1, 33] curve

/-- One parameter of a curve is admissible (17 Table HKTH-6). -/
def paramOk (curve v : Nat) : Bool :=
  match curve with
  | 2 => positive32 v
  | 6 => within 0x3F000000 v 0x40000000
  | _ => finite32 v

/-- The fields of HK_CONFIG (17 R389, Table HKTH-6): a combination of excitation and curve is judged at CURVE. -/
def hkFields (p : Bytes) : List (Bool × Nat) :=
  let exc := u8 p 1
  let curve := u8 p 2
  let fits := if within 2 curve 5 then decide (exc ≠ 0) else if curve = 6 then decide (exc = 1) else true
  [(decide (u8 p 0 < 16), 0), (decide (exc < 4), 1), (decide (curve < 8) && fits, 2), rsv p 3 5] ++
    (List.range 33).map (fun i =>
      (if i < paramCount curve then paramOk curve (u32 p (8 + 4 * i)) else decide (u32 p (8 + 4 * i) = 0), 8 + 4 * i))

/-- A channel belongs to a pair with a switch enabled in HK_TRIP while the ES is locked (17 R394). -/
def hkLocked (s : State) (ch : Nat) : Bool :=
  decide (ch < 16) && s.es.unlocked.isNone && (bit s.es.cfg.hkTrip (2 * ch) || bit s.es.cfg.hkTrip (2 * ch + 1))

/-- HK_CONFIG (17 R389, R394). -/
def execHkConfig (mb : Fin 8) (s : State) : Host.Outcome State Fault Refusal :=
  runCommand 0x0A01 mb (fun _ _ p s =>
    checked (fixedPayload p 140 (hkFields p)) s (fun _ =>
      if hkLocked s (u8 p 0) then (s, locked)
      else
        (modHk (u8 p 0) (fun x => { x with
          setNew := some { exc := u8 p 1, curve := u8 p 2, params := p.drop 8 } }) s, ok))) s

/-- HK_SET_SWITCH (17 R394, Table HKTH-7). -/
def execHkSetSwitch (mb : Fin 8) (s : State) : Host.Outcome State Fault Refusal :=
  runCommand 0x0A04 mb (fun _ _ p s =>
    checked (fixedPayload p 12 [(decide (u8 p 0 < 36), 0), (decide (u8 p 1 < 2), 1), (decide (u8 p 2 < 2), 2), rsv p 3 1,
      (decide (u32 p 8 ≤ 0x7FFFFFFF), 8)]) s (fun _ =>
      if hkLocked s (u8 p 0) then (s, locked)
      else
        let w : HkSwitch := { enable := decide (u8 p 2 = 1), level := s32 p 4, hyst := u32 p 8 }
        (modHk (u8 p 0) (fun x => if u8 p 1 = 0 then { x with highNew := some w } else { x with lowNew := some w }) s,
          ok))) s

/-- HK_READ (17 R408): it completes at the next round boundary. -/
def execHkRead (mb : Fin 8) (s : State) : Host.Outcome State Fault Refusal :=
  runCommand 0x0A03 mb (fun _ j p s =>
    match fixedPayload p 4 [(decide (u8 p 0 < 36), 0), (within 1 (u8 p 1) (36 - u8 p 0), 1), (decide (u8 p 2 < 2), 2),
        rsv p 3 1] with
    | some r => (s, some r)
    | none => ({ s with hk.reads := s.hk.reads ++ [⟨j, u8 p 0, u8 p 1, decide (u8 p 2 = 1)⟩] }, none)) s

/-- HK_CAL (17 R395): the round stops; a second HK_CAL meets BUSY_EPOCH while one runs (DESIGN CHOICE, log 36). -/
def execHkCal (mb : Fin 8) (s : State) : Host.Outcome State Fault Refusal :=
  runCommand 0x0A02 mb (fun _ j p s =>
    match fixedPayload p 0 [] with
    | some r => (s, some r)
    | none =>
      if s.mbx.armed || s.hk.cal.isSome then (s, some busyEpoch)
      else ({ s with hk.cal := some (j, now s) }, none)) s

/-- The measured currents are within 5 % of nominal (17 R395). -/
def currentsOk (cs : List Nat) : Bool :=
  (List.range 48).all (fun i =>
    let n := nominalCurrent (i % 3 + 1)
    decide (20 * ((nth cs i : Int) - n).natAbs ≤ n))

/-- HK_CAL_DONE (17 R395, R409): 12 ms after it began, with what it measured. -/
def execHkCalDone (offset : Int) (gain : Nat) (currents : List Nat) (s : State) : Host.Outcome State Fault Refusal :=
  .next <|
    match s.hk.cal with
    | none => s
    | some (j, t) =>
      if !s.power.main || decide (now s < t + 12000000) then s
      else
        let zeroOk := decide (50 * offset.natAbs ≤ 32768 * 256)
        let gainOk := decide (50 * ((gain : Int) - 2 ^ 30).natAbs ≤ 2 ^ 30)
        let good := zeroOk && gainOk && currentsOk currents
        let cs := (List.range 48).map (nth currents)
        let r := b4 (bitmap [good, !zeroOk, !gainOk, !currentsOk currents]) ++ b4 0 ++ bS 4 offset ++ b4 gain ++
          cs.flatMap b4
        let s1 := { s with hk.cal := none, hk.roundAt := s.hk.roundAt + (now s - t) }
        let s2 := if good then { s1 with hk.uncal := false, hk.offset := offset, hk.gain := gain, hk.currents := cs } else s1
        finish j ⟨if good then 0 else 0x40, 0, r, 0⟩ s2

end Sys2Proof.Machine
end

