-- ==== Sys2Proof/Machine/MemoryCommands.lean ====
section
/-! DEFINITION. Channel failure and retirement (16 R380, 12 R280, R281) and the 0x0Bxx commands (16 R381 to R385). -/

namespace Sys2Proof.Machine

open Sys2Proof

/-! #### Channel failure (16 R380, 12 R280, R281) -/

/-- A channel is declared failed: 0 no response, 1 retraining, 2 uncorrectable reads. -/
def declareFailed (ch cause : Nat) (s : State) : State :=
  logEv 0x0B04 ch cause 0 { s with mem.failed := s.mem.failed ||| 2 ^ ch }

/-- The channel can fail: it is in service and has not failed. -/
def canFail (s : State) (ch : Nat) : Bool := s.power.main && channelUp s ch && !s.mem.failed.testBit ch

/-- Counted uncorrectable reads of a channel in the last second. -/
def recentUes (s : State) (ch : Nat) : Nat :=
  (s.mem.ueAt.filter (fun e => decide (e.2 = ch ∧ now s < e.1 + 1000000000))).length

/-- DRAM_CHANNEL_FAILED (16 R380): cause 0 comes from the channel; causes 1 and 2 from the counts the controller keeps. -/
def execDramChannelFailed (ch : Fin 4) (cause : Fin 3) (s : State) : Host.Outcome State Fault Refusal :=
  .next <|
    let due : Bool := match cause.val with
      | 0 => true
      | 1 => decide (2 ≤ tabGet 0 s.mem.retrainFails ch.val)
      | _ => decide (16 ≤ recentUes s ch.val)
    if canFail s ch.val && due then declareFailed ch.val cause.val s else s

/-- DRAM_RETRAIN (16 R380): a periodic retraining ends; the second failure in a row declares the channel failed. -/
def execDramRetrain (ch : Fin 4) (ok : Bool) (s : State) : Host.Outcome State Fault Refusal :=
  .next <|
    if !canFail s ch.val then s
    else
      let n := if ok then 0 else tabGet 0 s.mem.retrainFails ch.val + 1
      let s1 := { s with mem.retrainFails := tabSet 0 s.mem.retrainFails ch.val n }
      if 2 ≤ n then declareFailed ch.val 1 s1 else s1

/-- What a ring loses with the delivery buffer: its records from PI on, whose numbers are used again; an enabled ring's
next record is a GAP (12 R281, R284). -/
def loseRecords (last : Nat) (x : DlvRing) : DlvRing :=
  let y : DlvRing :=
    { x with
      records := x.records.filter (fun e => decide (e.seq < x.pi))
      seq := x.pi
      palletFrom := x.pi
      closed := []
      toWrite := min x.toWrite x.pi }
  if x.cfg.enable then
    { y with gapDue := some (x.lastPiFrame, last, x.seq - x.pi + (match x.gapDue with
        | some g => g.2.2
        | none => 0)) }
  else y

/-- The delivery buffer is lost. -/
def loseBuffer (last : Nat) (s : State) : State := forUpto 64 (fun r s =>
    if (dring s r).cfg.enable || !(dring s r).records.isEmpty then modRing r (loseRecords last) s else s) s

/-- The delivery buffer's pair before and after a retirement: channels 0 and 1, else, once rebuilt, 2 and 3. -/
def bufferAfter (before s : State) : State :=
  if s.dlv.stopped then s
  else
    let first (x : State) : Bool := pairUp x 0
    let whole := channelUp s 2 && channelUp s 3
    if first s then s
    else if first before then
      (if whole then loseBuffer s.angle.frame s else loseBuffer s.angle.frame { s with dlv.stopped := true })
    else if pairUp s 2 then s
    else loseBuffer s.angle.frame { s with dlv.stopped := true }

/-- DRAM_RETIRE_DONE (12 R280): a failed channel leaves service; the journal and the delivery buffer run on. -/
def execDramRetireDone (ch : Fin 4) (s : State) : Host.Outcome State Fault Refusal :=
  .next <|
    if !s.mem.failed.testBit ch.val then s
    else
      let drop (m : Nat) : Nat := if m.testBit ch.val then m - 2 ^ ch.val else m
      let s1 := { s with
        mem.failed := drop s.mem.failed
        mem.inService := drop s.mem.inService
        mem.retired := s.mem.retired ||| 2 ^ ch.val
        mbx.copies := if ch.val = 2 then s.mbx.copies / 2 * 2 else if ch.val = 3 then s.mbx.copies % 2 else s.mbx.copies
        mbx.held0 := if ch.val = 2 then [] else s.mbx.held0
        mbx.held1 := if ch.val = 3 then [] else s.mbx.held1 }
      raiseIrq 18 (bufferAfter s s1)

/-! #### MEM_STATUS and the error table (16 R383 to R385) -/

/-- The MEM_STATUS result (16 Table MEM-7). -/
def memStatus (s : State) : Bytes :=
  let size := hostAreaSize s
  b1 (s.mem.inService + 16 * s.mem.retired) ++ b1 0 ++ b2 s.mem.gib ++ b2 s.mem.rate ++ b2 s.dlv.depth ++
    b8 (usable s) ++ b8 (if size = 0 then 0 else hostAreaBase s) ++ b8 size ++ b8 s.mem.ceTotal ++ b4 s.mem.ueTotal ++
    b4 s.mem.rmw ++ b4 s.mem.fallbacks ++ b4 s.mem.sramCe ++ b4 s.mem.sramUe ++ b4 0

/-- MEM_STATUS (16 R383). -/
def execMemStatus (mb : Fin 8) (s : State) : Host.Outcome State Fault Refusal :=
  runCommand 0x0B01 mb (fun _ _ p s => checked (fixedPayload p 0 []) s (fun _ => (s, okWith (memStatus s)))) s

/-- An entry of the correctable-error table (16 Table MEM-4). -/
def ceBytes (s : State) (e : CeEntry) : Bytes :=
  let ch := channelOf e.addr
  b8 e.addr ++ b1 e.syndrome ++ b1 e.bit ++ b1 e.hits ++
    b1 (ch + 4 * b2n e.cleared + 8 * b2n e.reappeared + 16 * b2n (s.mem.retired.testBit ch)) ++ b4 e.hours

/-- Entry `i`, zeros when unused. -/
def ceEntry (s : State) (i : Nat) : Bytes :=
  match s.mem.ce[i]? with
  | some e => ceBytes s e
  | none => zeros 16

/-- The ECC_TABLE_READ result (16 R384). -/
def eccTable (s : State) : Bytes :=
  b4 s.mem.ce.length ++ b4 s.mem.overflow ++ b4 s.mem.ueTotal ++ b4 0 ++ b8 s.mem.lastUeAddr ++ b4 s.mem.lastUeHours ++
    b4 0 ++ (List.range 32).flatMap (ceEntry s)

/-- ECC_TABLE_READ (16 R384). -/
def execEccTableRead (mb : Fin 8) (s : State) : Host.Outcome State Fault Refusal :=
  runCommand 0x0B02 mb (fun _ _ p s => checked (fixedPayload p 0 []) s (fun _ => (s, okWith (eccTable s)))) s

/-- Clear the table by MODE. -/
def eccClear (mode : Nat) (s : State) : State × Reply :=
  let keep := if mode = 1 then [] else s.mem.ce.filter (fun e => !(e.cleared && !e.reappeared))
  ({ s with mem.ce := keep, mem.overflow := if mode = 1 then 0 else s.mem.overflow },
    okWith (b4 (s.mem.ce.length - keep.length)))

/-- ECC_TABLE_CLEAR (16 R385). -/
def execEccTableClear (mb : Fin 8) (s : State) : Host.Outcome State Fault Refusal :=
  runCommand 0x0B03 mb (fun _ _ p s =>
    checked (fixedPayload p 4 [(decide (u8 p 0 < 2), 0), rsv p 1 3]) s (fun _ => eccClear (u8 p 0) s)) s

/-! #### ECC_TEST (16 R381) -/

/-- Data bits of a target. -/
def testData (target : Nat) : Nat := if target = 0 then 64 else if target = 3 then 32 else 8
/-- Check bits of a target. -/
def testCheck (target : Nat) : Nat := if target = 0 then 8 else if target = 3 then 7 else 5
/-- The code of a target. -/
def testColumn (target : Nat) : Nat → Nat :=
  if target = 0 then dramColumn else if target = 3 then engineColumn else sramColumn
/-- The decoder of a target. -/
def testDecode (target syn : Nat) : Decoded :=
  if target = 0 then dramDecode syn else if target = 3 then engineDecode syn else sramDecode syn

/-- Check bits the code of a target gives for data. -/
def encodeCheck (target data : Nat) : Nat :=
  checkBits (testColumn target) (testData target) data % 2 ^ testCheck target

/-- The word a target holds: data plus the scaled difference of its check bits. A channel out of service reads all
ones; a word whose layout is the device's own is free. -/
def testWord (target engine addr : Nat) (s : State) : Nat × State :=
  match target with
  | 0 =>
    if !channelUp s (channelOf addr) then (4 * 2 ^ 64 - 1, s)
    else if deviceLayout addr then
      let (n, s1) := drawFree s
      (leTake 8 ((List.range 8).map (fun i => Config.deviceByte n (addr + i))), s1)
    else (tabGet 0 s.mem.dram (addr / 8), s)
  | 1 => (payloadAt s addr, s)
  | 2 => (tabGet 0 s.mem.testArea addr, s)
  | _ => (tabGet 0 s.mem.testWords (16 * engine + addr), s)

/-- Store data and check bits at a target. -/
def writeTest (target engine addr data check : Nat) (s : State) : State :=
  let v := data + 2 ^ testData target * (check ^^^ encodeCheck target data)
  match target with
  | 0 =>
    if channelUp s (channelOf addr) then
      { (markWritten (addr / 8) s) with
        mem.dram := tabSet 0 s.mem.dram (addr / 8) v, mem.kept := tabSet false s.mem.kept (addr / 8) false }
    else s
  | 1 => { s with mem.payload := tabSet none s.mem.payload addr (some v) }
  | 2 => { s with mem.testArea := tabSet 0 s.mem.testArea addr v }
  | _ => { s with mem.testWords := tabSet 0 s.mem.testWords (16 * engine + addr) v }

/-- The READ_RAW result. -/
def readTest (target engine addr : Nat) (s : State) : State × Reply :=
  let (x, s1) := testWord target engine addr s
  let data := x % 2 ^ testData target
  let syn := x / 2 ^ testData target
  let (verdict, pos) : Nat × Nat := match testDecode target syn with
    | .clean => (0, 0xFF)
    | .corrected i => (1, i)
    | .bad => (2, 0xFF)
  (s1, okWith (b8 data ++ b1 (encodeCheck target data ^^^ syn) ++ b1 syn ++ b1 verdict ++ b1 pos ++ b4 0))

/-- Highest address of a target. -/
def testAddrOk (s : State) (target addr : Nat) : Bool :=
  match target with
  | 0 => decide (addr % 8 = 0 ∧ addr < usable s)
  | 1 => decide (addr < 0x40000)
  | 2 => decide (addr < 64)
  | _ => decide (addr < 16)

/-- The fields of ECC_TEST (16 Table MEM-6). -/
def eccTestFields (s : State) (p : Bytes) : List (Bool × Nat) :=
  let t := u8 p 0
  let a := u8 p 1
  [(decide (t < 4), 0), (decide (a < 3), 1), (if t = 3 then decide (u8 p 2 < 32) else decide (u8 p 2 = 0), 2), rsv p 3 5,
    (testAddrOk s t (u64 p 8) && (t != 0 || a != 1 || hostWritable s (u64 p 8)), 8),
    (decide (u64 p 16 < 2 ^ testData t), 16),
    (if a = 1 then decide (u8 p 24 < 2 ^ testCheck t) else decide (u8 p 24 = 0), 24), rsv p 25 7]

/-- A payload SRAM byte lies in the partition of another mailbox that is POSTED or ACCEPTED. -/
def partitionBusy (s : State) (own : Option Nat) (addr : Nat) : Bool :=
  let m := addr / 0x8000
  decide (own ≠ some m) && decide ((box s m).state = .posted ∨ (box s m).state = .accepted)

/-- ECC_TEST. -/
def eccTest (o : Origin) (p : Bytes) (s : State) : State × Reply :=
  let t := u8 p 0
  let e := u8 p 2
  let a := u64 p 8
  let d := u64 p 16
  match u8 p 1 with
  | 0 => (s, okWith (b8 d ++ b1 (encodeCheck t d) ++ b1 0 ++ b1 0 ++ b1 0xFF ++ b4 0))
  | 1 =>
    let own : Option Nat := match o with
      | .mailbox m => some m
      | .remote .. => none
    if t = 1 && partitionBusy s own a then (s, busyEpoch)
    else (writeTest t e a d (u8 p 24) s, okWith (b8 d ++ b1 (u8 p 24) ++ b1 0 ++ b1 0 ++ b1 0xFF ++ b4 0))
  | _ => readTest t e a s

/-- ECC_TEST (16 R381). -/
def execEccTest (mb : Fin 8) (s : State) : Host.Outcome State Fault Refusal :=
  runCommand 0x0B04 mb (fun o _ p s => checked (fixedPayload p 32 (eccTestFields s p)) s (fun _ => eccTest o p s)) s

end Sys2Proof.Machine
end

