-- ==== Sys2Proof/Machine/ReceiveCommands.lean ====
section
/-! DEFINITION. The receive, histogram and rejection commands (05 R127, R128; 06 R149 to R153; 07 R166, R167), and the end
of a tile's second pass. -/

namespace Sys2Proof.Machine

open Sys2Proof

/-! #### Receive (05) -/

/-- The receive settings at an offset (05 Table RECV-5). -/
def recvAt (p : Bytes) (o : Nat) : RecvCourse :=
  { gainMode := u8 p o, sides := u8 p (o + 1), validate := decide (u8 p (o + 2) = 1), blank := u8 p (o + 3),
    arSat := u8 p (o + 4), arCount := u8 p (o + 5), arLow := u8 p (o + 6) }

/-- The field ranges of a receive entry (05 Table RECV-5). -/
def recvFields (p : Bytes) (o : Nat) : List (Bool × Nat) :=
  [(decide (u8 p o < 3), o), (decide (u8 p (o + 1) < 4), o + 1), (decide (u8 p (o + 2) < 2), o + 2),
    (decide (u8 p (o + 3) ≤ 30), o + 3), (decide (1 ≤ u8 p (o + 4)), o + 4), (within 1 (u8 p (o + 5)) 64, o + 5),
    (decide (1 ≤ u8 p (o + 6) ∧ u8 p (o + 6) < u8 p (o + 4)), o + 6), rsv p (o + 7) 1]

/-- The items of a course range payload. -/
def itemsOf {α : Type} (n w : Nat) (f : Nat → α) : List α := (List.range n).map (fun i => f (8 + w * i))

/-- RECV_SET_COURSE (05 R127). -/
def execRecvSetCourse (mb : Fin 8) (s : State) : Host.Outcome State Fault Refusal :=
  runCommand 0x0301 mb (fun _ j p s =>
    let n := u8 p 1 + 1
    checked (varPayload p 8 (courseRange p) (8 + 8 * n) (entryFields n 8 (recvFields p))) s
      (fun _ => (stage j (.recv (u8 p 0) (itemsOf n 8 (recvAt p))) s, ok))) s

/-- FIRST_CH and COUNT of a channel range. -/
def channelRange (p : Bytes) : List (Bool × Nat) :=
  [(decide (u16 p 0 < 256), 0), (within 1 (u16 p 2) (256 - u16 p 0), 2)]

/-- A threshold setting reaches a channel at die A (05 R110). -/
def setThresholds (p : Bytes) (i : Nat) (s : State) : State :=
  let o := 8 + 4 * i
  modChan (u16 p 0 + i) (fun x => { x with
    set := ⟨u8 p o, u8 p (o + 1), u8 p (o + 2), u8 p (o + 3)⟩
    setAt := some (now s)
    setBefore := match x.setAt with
      | some t => if t < now s then some x.set else x.setBefore
      | none => x.setBefore }) s

/-- RECV_SET_THRESHOLDS (05 R110, R127). -/
def execRecvSetThresholds (mb : Fin 8) (s : State) : Host.Outcome State Fault Refusal :=
  runCommand 0x0302 mb (fun _ _ p s =>
    let n := u16 p 2
    checked (varPayload p 8 (channelRange p ++ [rsv p 4 4]) (8 + 4 * n) []) s
      (fun _ => (forUpto n (setThresholds p) s, ok))) s

/-- The RECV_STATUS result (05 Table RECV-7). -/
def recvStatus (ch : Nat) (s : State) : Bytes :=
  let x := chan s ch
  let r := factorsOf x.rise
  let f := factorsOf x.fall
  b2 ch ++ b1 (b2n x.lastGain) ++
    b1 (bitmap [bit (recvOf s (ch / 2)).sides (ch % 2), x.lastStale, x.rise.isNone || x.fall.isNone]) ++
    b1 x.latched.tl4 ++ b1 x.latched.th4 ++ b1 x.latched.tl1 ++ b1 x.latched.th1 ++ b4 x.appliedFrame ++
    b2 x.appliedColumn ++ b2 0 ++ b2 r.k1 ++ b2 r.k2 ++ b2 f.k1 ++ b2 f.k2 ++ b8 x.stamps ++ b4 x.overflow ++
    b4 x.blanked ++ b4 x.reversed ++ b4 x.tie ++ b4 x.pileup ++ b4 x.unvalidated ++ b4 x.staleWindows ++
    b4 x.calRejects

/-- CLEAR of RECV_STATUS: every counter but STAMPS. -/
def clearRecv (ch : Nat) (s : State) : State :=
  modChan ch (fun x => { x with
    overflow := 0, blanked := 0, reversed := 0, tie := 0, pileup := 0, unvalidated := 0, staleWindows := 0,
    calRejects := 0 }) s

/-- RECV_STATUS (05 R128). -/
def execRecvStatus (mb : Fin 8) (s : State) : Host.Outcome State Fault Refusal :=
  runCommand 0x0303 mb (fun _ _ p s =>
    checked (fixedPayload p 4 [(decide (u16 p 0 < 256), 0), (decide (u8 p 2 < 2), 2), rsv p 3 1]) s (fun _ =>
      (if u8 p 2 = 1 then clearRecv (u16 p 0) s else s, okWith (recvStatus (u16 p 0) s)))) s

/-! #### Histograms (06) -/

/-- The histogram settings at an offset (06 Table HIST-7). -/
def histAt (p : Bytes) (o : Nat) : HistCourse :=
  { mode := u8 p o, pairWeight := u8 p (o + 1), k := u8 p (o + 2), minCount := u8 p (o + 3), policy := u8 p (o + 4),
    retMax := u8 p (o + 5), tofOffset := s32 p (o + 8), rindex := u32 p (o + 12) }

/-- The field ranges of a histogram entry (06 Table HIST-7). -/
def histFields (p : Bytes) (o : Nat) : List (Bool × Nat) :=
  [(decide (u8 p o < 3), o), (within 2 (u8 p (o + 1)) 15, o + 1), (decide (1 ≤ u8 p (o + 3)), o + 3),
    (decide (u8 p (o + 4) < 5), o + 4), (within 1 (u8 p (o + 5)) 4, o + 5), rsv p (o + 6) 2,
    (signExt p (o + 8) 4 24, o + 8), (within 0x40000000 (u32 p (o + 12)) 0x60000000, o + 12)]

/-- HIST_SET_COURSE (06 R149). -/
def execHistSetCourse (mb : Fin 8) (s : State) : Host.Outcome State Fault Refusal :=
  runCommand 0x0304 mb (fun _ j p s =>
    let n := u8 p 1 + 1
    checked (varPayload p 8 (courseRange p) (8 + 16 * n) (entryFields n 16 (histFields p))) s
      (fun _ => (stage j (.hist (u8 p 0) (itemsOf n 16 (histAt p))) s, ok))) s

/-- HIST_SET_WALK (06 R151). -/
def execHistSetWalk (mb : Fin 8) (s : State) : Host.Outcome State Fault Refusal :=
  runCommand 0x0305 mb (fun _ j p s =>
    let n := u16 p 2
    checked (varPayload p 8 (channelRange p ++ [(decide (u8 p 4 < 2), 4), rsv p 5 3]) (8 + 128 * n)
      ((List.range (64 * n)).map (fun i => (withinI (-2048) (s16 p (8 + 2 * i)) 2047, 8 + 2 * i)))) s
      (fun _ =>
        let ws := itemsOf n 128 (fun o => (List.range 64).map (fun i => s16 p (o + 2 * i)))
        (stage j (.walk (u16 p 0) (u8 p 4) ws) s, ok))) s

/-- The HIST_STATUS result (06 Table HIST-8). -/
def histStatus (e : Nat) (s : State) : Bytes :=
  let x := engine s e
  b1 e ++ b1 (b2n x.halved) ++ b2 0 ++ b4 x.queueMax ++ b8 x.tiles ++ b8 x.stamps ++ b4 x.revExcluded ++
    b4 x.thinned ++ b4 x.bufferBusy ++ b4 x.candidates ++ b4 x.returns ++ b4 x.fineRejects ++ b4 x.merged ++
    b4 x.eccCorr ++ b4 x.eccUncorr ++ b4 x.maxLatency

/-- HIST_STATUS (06 R152). -/
def execHistStatus (mb : Fin 8) (s : State) : Host.Outcome State Fault Refusal :=
  runCommand 0x0306 mb (fun _ _ p s =>
    checked (fixedPayload p 4 [(decide (u8 p 0 < 32), 0), (decide (u8 p 1 < 2), 1), rsv p 2 2]) s (fun _ =>
      (if u8 p 1 = 1 then modEngine (u8 p 0) (fun x => { x with queueMax := 0, maxLatency := 0 }) s else s,
        okWith (histStatus (u8 p 0) s)))) s

/-! #### HIST_CAPTURE_TILE (06 R153) -/

/-- HIST_CAPTURE_TILE (06 R153): armed until an opening of the tile has been processed. -/
def execHistCaptureTile (mb : Fin 8) (s : State) : Host.Outcome State Fault Refusal :=
  runCommand 0x0307 mb (fun _ j p s =>
    match fixedPayload p 8 [(decide (u32 p 0 < 262144), 0), rsv p 4 4] with
    | some r => (s, some r)
    | none =>
      if s.eng.capture.isSome then (s, some noResource)
      else
        let t0 : Nat := match entryOf s j with
          | some e => e.acceptedAt
          | none => now s
        ({ s with eng.capture := some ⟨j, u32 p 0, t0, false⟩ }, none)) s

/-- A window block of the result (06 Table HIST-9). -/
def windowBlock (w : TileWindow) : Bytes :=
  b4 (w.k % 32 + 2 ^ 5 * w.side + 2 ^ 6 * w.stamps.length + 2 ^ 13 * w.dither) ++ w.stamps.flatMap b4

/-- The HIST_CAPTURE_TILE result (06 Table HIST-9). -/
def captureResult (t : Tile) : Bytes :=
  b4 (t.frame % turn) ++ b2 t.epoch ++ b1 t.windows.length ++ b1 0 ++ t.windows.flatMap windowBlock

/-- The captured tile's second pass has ended. -/
def endCapture (t : Tile) (s : State) : State :=
  match s.eng.capture with
  | some k => if t.captured then finish k.jseq (okWith (captureResult t)) { s with eng.capture := none } else s
  | none => s

/-- CAPTURE_TILE_TIMEOUT (06 R153): the tile has not been processed within 1 s of ACCEPTED. -/
def execCaptureTileTimeout (s : State) : Host.Outcome State Fault Refusal :=
  .next <|
    match s.eng.capture with
    | some k =>
      if k.tick + 1000000000 ≤ now s then
        finish k.jseq notArmed
          { s with
            eng.capture := none
            eng.tiles := s.eng.tiles.map (fun t => { t with captured := false }) }
      else s
    | none => s

/-- ENGINE_P2_DONE (06 R131, R148): the second pass ends, its results leave the engine, and P2 takes the next tile. -/
def execEngineP2Done (e : Fin 32) (corr uncorr : Nat) (s : State) : Host.Outcome State Fault Refusal :=
  .next <|
    match inStage e.val .p2 s with
    | none => s
    | some t =>
      if now s < t.stageEnd then s
      else
        let s1 := engineErrors e.val t corr uncorr s
        let t1 := { t with fault := t.fault || decide (uncorr ≠ 0) }
        enterP2 e.val (endCapture t1 (finishTile t1 s1))

/-! #### Rejection (07) -/

/-- The rejection settings at an offset (07 Table REJ-4). -/
def rejAt (p : Bytes) (o : Nat) : RejCourse :=
  { nearEnd := u16 p o, nearK := u8 p (o + 2), diffuseLimit := u8 p (o + 3), skipDiffuse := decide (u8 p (o + 4) = 1) }

/-- REJ_SET_COURSE (07 R166). -/
def execRejSetCourse (mb : Fin 8) (s : State) : Host.Outcome State Fault Refusal :=
  runCommand 0x0401 mb (fun _ j p s =>
    let n := u8 p 1 + 1
    checked (varPayload p 8 (courseRange p) (8 + 8 * n) (entryFields n 8 (fun o =>
      [(decide (u16 p o < 1024), o), (within 1 (u8 p (o + 3)) 128, o + 3), (decide (u8 p (o + 4) < 2), o + 4),
        rsv p (o + 5) 3]))) s
      (fun _ => (stage j (.rej (u8 p 0) (itemsOf n 8 (rejAt p))) s, ok))) s

/-- REJ_SET_DEVICE (07 R166). -/
def execRejSetDevice (mb : Fin 8) (s : State) : Host.Outcome State Fault Refusal :=
  runCommand 0x0402 mb (fun _ j p s =>
    checked (fixedPayload p 8 [(decide (u8 p 0 < 2), 0), rsv p 1 7]) s
      (fun _ => (stage j (.device (decide (u8 p 0 = 1))) s, ok))) s

/-- A sum of rejection counters over courses. -/
def sumRej (cs : List Nat) (s : State) (f : RejCounters → Nat) : Nat := listSum (cs.map (fun c => f (rejOf s c)))

/-- The REJ_STATUS result (07 Table REJ-6). -/
def rejStatus (c : Nat) (s : State) : Bytes :=
  let cs := coursesOf c
  let sum := sumRej cs s
  let one := decide (c ≠ 0xFF)
  b1 c ++ b1 s.eng.block ++ b1 (bitmap [s.set.ringCodes, s.eng.familyShared, s.eng.familyRange]) ++ b1 0 ++
    b2 (if one then familyOf s c else 0) ++ b2 0 ++ b4 s.eng.blockFrame ++
    b4 (if one then (rejOf s c).ambientLast else 0) ++ b8 (sum (fun x => x.codeMismatch)) ++
    b4 (sat32 (sum (fun x => x.ambientSat))) ++ b4 (sat32 (sum (fun x => x.diffuseReturns))) ++
    b4 (sat32 (sum (fun x => x.diffuseSkipped))) ++ b4 (sat32 (sum (fun x => x.nearReturns))) ++
    b4 (sat32 (sum (fun x => x.codeOkReturns))) ++ b4 (listMax (cs.map (fun c => (rejOf s c).maxMismatch)))

/-- CLEAR of REJ_STATUS. -/
def clearRej (c : Nat) (s : State) : State :=
  forEach (coursesOf c) (fun c s => modRej c (fun x => { x with maxMismatch := 0 }) s) s

/-- REJ_STATUS (07 R167). -/
def execRejStatus (mb : Fin 8) (s : State) : Host.Outcome State Fault Refusal :=
  runCommand 0x0403 mb (fun _ _ p s =>
    checked (courseClear p) s (fun _ =>
      (if u8 p 1 = 1 then clearRej (u8 p 0) s else s, okWith (rejStatus (u8 p 0) s)))) s

end Sys2Proof.Machine
end

