-- ==== Sys2Proof/Machine/Identity.lean ====
section
/-! DEFINITION. The device's identity (19 R438, R439). -/

namespace Sys2Proof.Machine

open Sys2Proof

/-- UNIQUE_ID as 16 bytes. -/
def uidBytes : Bytes := leBytes 16 Config.uniqueId

/-- Bytes 0 to 159 of the IDENT result (19 Table BOOT-6). -/
def identBody (s : State) : Bytes :=
  uidBytes ++ b1 0xB1 ++ zeros 3 ++ b4 s.nv.hours ++ b3 s.nv.pcycles ++ zeros 5 ++ fit 64 Config.publicKey ++
    fit 64 Config.certificate

/-- The IDENT result for a nonce: the signature covers the nonce and the bytes before it (19 R439). -/
def identResult (nonce : Bytes) (s : State) : Bytes × State :=
  let (n, s1) := drawFree s
  (identBody s ++ fit 64 (Config.signature n (nonce ++ identBody s)), s1)

/-- IDENT (19 R439). -/
def execIdent (mb : Fin 8) (s : State) : Host.Outcome State Fault Refusal :=
  runCommand 0x0104 mb (fun _ _ p s =>
    checked (fixedPayload p 32 []) s (fun _ =>
      let (r, s1) := identResult p s
      (s1, okWith r))) s

/-! #### Configuration space (15 R343, R344) -/

/-- The attribute bits of a memory BAR: 64-bit, prefetchable or not. -/
def barLow (prefetchable : Bool) : Bytes := b1 (4 + 8 * b2n prefetchable) ++ zeros 3

/-- The type-0 header as the device gives it before the host writes it (PRESUMED layout, log 5): the IDs, class code
0x118000, BAR0/1 and BAR2/3, no other BAR, no expansion ROM, a capability list and Interrupt Pin 0. -/
def configHeader : Bytes :=
  b2 Config.vendorId ++ b2 0x4256 ++ b2 0 ++ b2 0x10 ++ b1 0xB1 ++ b3 0x118000 ++ zeros 4 ++ barLow false ++ zeros 4 ++
    barLow true ++ zeros 4 ++ zeros 8 ++ zeros 4 ++ b2 Config.vendorId ++ b2 0x4256 ++ zeros 4 ++ b1 0x40 ++ zeros 11

/-- Bytes a BAR decodes (15 R344): BAR0/1 1 MiB, BAR2/3 256 MiB, no other. -/
def barSize (n : Nat) : Nat :=
  match n with
  | 0 => 0x100000
  | 2 => 0x10000000
  | _ => 0

/-- MSI-X table and Pending Bit Array of the MSI-X capability: 64 vectors, BAR0 offsets (15 R349). -/
def msixLayout : Nat × Nat × Nat := (64, 0x1000, 0x1400)

end Sys2Proof.Machine
end

