-- ==== Sys2Proof/Machine/RingState.lean ====
section
/-! DEFINITION. Membership of the Yelxis ring (13 R292 to R296, R302 to R305): port states, the device ring state, the
bypass, wrapping, the roster and the choice of the master. -/

namespace Sys2Proof.Machine

open Sys2Proof

/-! #### Lanes at rest -/

/-- A ring lane at the start of a training, or idle. -/
def idleLane (rate t : Nat) (x : Lane) : Lane :=
  { (stopCount rate t x) with
    trained := false, partnerTrained := false, locked := false, deskewed := false, deskew := 0, background := false }

/-- Every lane of a port is idle. -/
def idleLanes (p : Port) (s : State) : State :=
  forEach (portLanes p) (fun i s => modLane i (idleLane (port s p).rate (now s)) s) s

/-! #### Port states (14 Table LANE-2) -/

/-- A port without a link: what belongs to the link is discarded. -/
def bareLink (run : PortRun) (t : Nat) (x : RingPort) : RingPort :=
  { x with
    run := run, since := t, rxMask := 0, txMask := 0, caps := none, seen := false, partner := 0, replay := [],
    queue := [], general := 0, reserved := 0, grantGeneral := 0, grantReserved := 0, unacked := 0,
    resendAt := none, probe := none }

/-- The port falls to a state without a link; frames in transit that wait at it are dropped and their credits return. -/
def dropLink (p : Port) (run : PortRun) (s : State) : State :=
  modPort p (bareLink run (now s)) (idleLanes p (dropHeld p s))

/-- The port enters TRAIN at a rate: its transmitters send blocks. -/
def trainPort (p : Port) (rate : Nat) (s : State) : State :=
  let s1 := modPort p (fun x => { x with rate := rate }) (dropLink p .train s)
  forEach [txLane p 0, txLane p 1] (fun i s => modLane i (startCount (now s)) s) s1

/-! #### The roster (13 R304) -/

/-- Every node of the roster, this device included, in ascending order. -/
def rosterNodes (s : State) : List Nat := sortBy id (ownNode s :: s.ring.roster.map (fun e => e.1))

/-- A node leaves the roster: its last ASEQ stays known and its remote pairs are released (13 R304, R314). -/
def dropMember (n : Nat) (s : State) : State :=
  match member s n with
  | none => s
  | some m =>
    { s with
      ring.roster := s.ring.roster.filter (fun e => e.1 != n)
      ring.aseqs := tabInsert s.ring.aseqs n m.aseq
      ring.pairs := s.ring.pairs.filter (fun p => p.node != n) }

/-! #### The master (13 R305) -/

/-- The roster member with the lowest node ID whose ANNOUNCE has PCIE set, 0 for none. -/
def masterOf (s : State) : Nat :=
  let ns := (s.ring.roster.filter (fun e => bit e.2.flags 0)).map (fun e => e.1) ++
    (if canMaster s then [ownNode s] else [])
  if ringMember s then (ns.min?).getD 0 else 0

/-- The master is judged anew. When this device's sink changes, delivery starts again from the CI it reads there
(DESIGN CHOICE, log 42). -/
def updateMaster (s : State) : State :=
  let m := masterOf s
  let mine := ringMember s && decide (m = ownNode s)
  let s0 : State :=
    { s with
      ring.placeSince := if mine then some (s.ring.placeSince.getD (now s)) else none
      ring.sending := s.ring.sending && mine }
  if m = s.ring.master then s0
  else
    let s1 := e2ePathChange { s0 with ring.master := m, ring.masterChanges := sat32 (s0.ring.masterChanges + 1) }
    let s2 := raiseIrq 13 (logEv 0x0903 s.ring.master m 0 s1)
    if sinkOf s2 = sinkOf s then s2 else pauseDelivery s2

/-! #### Device ring states (13 Table RING-2) -/

/-- Enter a ring state. -/
def setRing (r : RingRun) (s : State) : State := { s with ring.run := r, ring.since := now s, ring.oneSince := none }

/-- BYPASS or ISOLATED: the bypass closes, both ports are off, and what the device knew of the ring is dropped (13 R293,
R294; the clearing of the phase and of the roster is DEDUCED, log 43). -/
def standAlone (r : RingRun) (s : State) : State :=
  let s1 := dropLink .w .off (dropLink .e .off (setRing r s))
  let s2 := forEach (s1.ring.roster.map (fun e => e.1)) dropMember s1
  updateMaster { s2 with
    ring.bypass := true
    ring.wrappedAt := none
    ring.announcedAt := none
    ring.syncAt := none
    ring.lowerAt := none
    ring.syncRun := 0
    ring.phase := none
    ring.entries := []
    ring.inbox := []
    ring.rateMismatch := false
    ring.tooLong := [false, false]
    ring.longRun := [0, 0]
    ring.shortRun := [0, 0] }

/-- JOINING: the bypass opens and both ports start at DETECT. -/
def openBypass (s : State) : State :=
  dropLink .w .detect (dropLink .e .detect { (setRing .joining s) with ring.bypass := false })

/-- The condition of the first row of Table RING-2, with die B up and without a fatal fault (13 R294). -/
def mayJoin (s : State) : Bool :=
  s.ring.cfg.enable && decide (s.ring.cfg.nodeId ≠ 0) && !s.ring.duplicateId && s.power.main && !s.power.fatal &&
    decide (s.power.phase = .ready ∨ s.power.phase = .started)

/-- BYPASS becomes JOINING when it may. -/
def tryJoin (s : State) : State := if decide (s.ring.run = .bypass) && mayJoin s then openBypass s else s

/-- The device wraps at a port (13 R296). -/
def wrapAt (p : Port) (s : State) : State :=
  let s1 := dropHeld p { (setRing .wrapped s) with ring.wrappedAt := some p, ring.wraps := sat32 (s.ring.wraps + 1) }
  raiseIrq 13 (logEv 0x0901 (portIx p) 1 0 (e2ePathChange s1))

/-- The wrapped port has returned (13 R296). -/
def unwrap (p : Port) (s : State) : State :=
  logEv 0x0901 (portIx p) 0 0 (e2ePathChange { (setRing .active s) with ring.wrappedAt := none })

/-- Follow Table RING-2 after a change of what is in service. -/
def judgeRing (s : State) : State :=
  let e := inService s .e
  let w := inService s .w
  match s.ring.run with
  | .joining =>
    if e && w then updateMaster (setRing .active s)
    else { s with ring.oneSince := if e || w then some (s.ring.oneSince.getD (now s)) else none }
  | .active =>
    if e && w then s
    else
      let s1 := wrapAt (if e then .w else .e) s
      if e || w then s1 else standAlone .isolated s1
  | .wrapped =>
    if e && w then
      (match s.ring.wrappedAt with
       | some p => unwrap p s
       | none => s)
    else if !e && !w then standAlone .isolated s
    else if s.ring.wrappedAt = some (if e then .w else .e) then s
    else wrapAt (if e then .w else .e) s
  | _ => s

/-- LEAVING begins: the device is no member any more and originates no RECORDS or MGMT frames. Its ports stay as they are
until LEAVE has been sent (DESIGN CHOICE between two tables of the spec, log 113). -/
def startLeaving (s : State) : State := updateMaster (setRing .leaving s)

/-- Both values that PERSIST keeps are stored (13 R292; the place in the region is a DESIGN CHOICE, log 6). -/
def persistRing (s : State) : State :=
  (nvWrite 6 0 (b2 s.ring.cfg.nodeId ++ b1 (b2n s.ring.cfg.enable) ++ b1 (b2n s.ring.cfg.persist)) s).2

/-- RING_JOIN_TIMEOUT (13 Table RING-2): 100 ms in JOINING with one port, or none, in service. -/
def execRingJoinTimeout (s : State) : Host.Outcome State Fault Refusal :=
  .next <|
    if s.ring.run ≠ .joining then s
    else
      match s.ring.oneSince with
      | some t =>
        if t + 100000000 ≤ now s then updateMaster (wrapAt (if inService s .e then .w else .e) s) else s
      | none => if s.ring.since + 100000000 ≤ now s then standAlone .isolated s else s

/-- RING_ISOLATED_RETRY (13 Table RING-2): 10 s in ISOLATED. -/
def execRingIsolatedRetry (s : State) : Host.Outcome State Fault Refusal :=
  .next <|
    if decide (s.ring.run = .isolated) && decide (s.ring.since + 10000000000 ≤ now s) && mayJoin s then openBypass s
    else s

/-- Committed records not yet consumed (13 R322). -/
def unconsumed (s : State) : Nat := listSum ((List.range 64).map (fun r => occupancy (dring s r)))

/-- LEAVING ends: the bypass closes, ENABLE is cleared, and the RING_LEAVEs complete (13 Table RING-2, R322). -/
def endLeaving (s : State) : State :=
  let s1 := standAlone .bypass s
  let s2 : State := { s1 with ring.cfg.enable := false, ring.leaves := [] }
  let s3 := if s2.ring.cfg.persist then persistRing s2 else s2
  forEach s.ring.leaves (fun j s => finish j (okWith (b4 (unconsumed s) ++ b4 0)) s) s3

/-- RING_LEAVING_DONE (13 Table RING-2): own frames are acknowledged, or 10 ms have passed. -/
def execRingLeavingDone (s : State) : Host.Outcome State Fault Refusal :=
  .next <|
    if s.ring.run ≠ .leaving ∨ (s.ring.unacked ≠ [] ∧ now s < s.ring.since + 10000000) then s
    else
      let leave (p : Port) (s : State) : State := if (port s p).run = .active then sendBlockAll p 0xF0 (b1 0) s else s
      endLeaving (leave .w (leave .e s))

/-! #### Violations and quarantine (13 R301, R302) -/

/-- A port is quarantined: it sends electrical idle. -/
def quarantine (p : Port) (n : Nat) (s : State) : State :=
  let x := port s p
  let again : Bool := match x.retriedAt with
    | some t => decide (now s < t + 600000000000)
    | none => false
  let s1 := dropLink p .quarantined { s with ring.quarantines := sat32 (s.ring.quarantines + 1) }
  let s2 := modPort p (fun x => { x with
    quarDoublings := if again then min 12 (x.quarDoublings + 1) else 0
    violAt := [] }) s1
  judgeRing (raiseIrq 13 (logEv 0x0902 (portIx p) n 0 s2))

/-- The waiting time of a quarantined port in s, by the QUAR_RETRY in force (13 R302, R319); 0 for no automatic retry. -/
def quarWait (s : State) (p : Port) : Nat := min 3600 (s.ring.cfg.quarRetry * 2 ^ (port s p).quarDoublings)

/-- Count a violation of Table RING-4 on a port's receive direction. -/
def violation (p : Port) (code : Nat) (s : State) : State :=
  let recent := ((port s p).violAt.filter (fun t => decide (now s < t + 10000000))) ++ [now s]
  let s1 := modPort p (fun x => { x with
    viol := tabSet 0 x.viol code (sat32 (tabGet 0 x.viol code + 1))
    violAt := recent }) s
  if s.ring.cfg.quarThreshold < recent.length ∧ (port s p).run = .active then quarantine p recent.length s1 else s1

/-- QUARANTINE_RETRY (13 R302): the waiting time has passed. -/
def execQuarantineRetry (p : Port) (s : State) : Host.Outcome State Fault Refusal :=
  .next <|
    let x := port s p
    if x.run = .quarantined ∧ quarWait s p ≠ 0 ∧ x.since + 1000000000 * quarWait s p ≤ now s then
      modPort p (fun x => { x with retriedAt := some (now s) }) (trainPort p 2 s)
    else s

/-! #### Duplicate node IDs (13 R303) -/

/-- DUPLICATE_ID is set and logged. -/
def setDuplicate (s : State) : State := logEv 0x0907 (ownNode s) 0 0 { s with ring.duplicateId := true }

/-- A neighbour refuses this device's node ID at CAPS: the bypass closes, which in LEAVING ends it (13 Table RING-2). -/
def refusedId (s : State) : State :=
  if s.ring.run = .leaving then endLeaving (setDuplicate s) else standAlone .bypass (setDuplicate s)

end Sys2Proof.Machine
end

