-- ==== Sys2Proof/Machine/Lanes.lean ====
section
/-! DEFINITION. Serial lanes (14): bring-up of the ring ports, block lock, deskew and CAPS, link control blocks, losing and
regaining a lane, eye scan and LANE_STATUS. -/

namespace Sys2Proof.Machine

open Sys2Proof

/-! #### What a port's lanes show -/

/-- The digits of the receive lanes of a port that satisfy `f`. -/
def rxWhere (p : Port) (s : State) (f : Lane → Bool) : List Nat := (List.range 2).filter (fun d => f (lane s (rxLane p d)))
/-- The digits of the transmit lanes of a port that satisfy `f`. -/
def txWhere (p : Port) (s : State) (f : Lane → Bool) : List Nat := (List.range 2).filter (fun d => f (lane s (txLane p d)))
/-- The mask of a list of digits. -/
def maskOf (ds : List Nat) : Nat := bitmapOf 2 (fun d => ds.contains d)
/-! #### CAPS (14 R333) -/

/-- RATES offered for a RATE of Table RING-9: that rate and the lower ones. -/
def ratesOffered (rate : Nat) : Nat := nth [7, 6, 4] rate

/-- A member whose roster holds a node ID with a different UNIQUE_ID refuses it (13 R303). -/
def refusesId (s : State) (node uid : Nat) : Bool :=
  ringMember s &&
    ((decide (node = ownNode s) && decide (uid ≠ Config.uniqueId % 2 ^ 128)) ||
      (match member s node with
       | some m => decide (m.uid ≠ uid)
       | none => false))

/-- NODE_ID of a CAPS. -/
def capsNode (c : Bytes) : Nat := u16 c 4
/-- UNIQUE_ID of a CAPS. -/
def capsUid (c : Bytes) : Nat := le c 6 16

/-- The CAPS this device sends on a port (14 Table LANE-3). -/
def capsContent (s : State) (p : Port) : Bytes :=
  let x := port s p
  let refuse : Bool := match x.caps with
    | some c => refusesId s (capsNode c) (capsUid c)
    | none => false
  let b := b1 (ratesOffered s.ring.cfg.rate) ++ b1 (max 1 (rxWhere p s (fun l => l.locked)).length) ++
    b2 (1 + 16 * b2n x.seen + 32 * b2n refuse) ++ b2 (ownNode s) ++ leBytes 16 Config.uniqueId
  b ++ b2 (crc16 b)

/-- Send the CAPS of a port: four blocks of six bytes. Their repetition every 1 µs is left out. -/
def sendCaps (p : Port) (s : State) : State :=
  let c := capsContent s p
  forUpto 4 (fun i s => emit (.block p none 0x55 (b1 0x55 ++ b1 i ++ slice c (6 * i) 6)) s) s

/-- The highest rate both ends offer, as RATE of Table RING-9; 2 when they share no other. -/
def commonRate (s : State) (c : Bytes) : Nat :=
  let r := ratesOffered s.ring.cfg.rate &&& u8 c 0
  if bit r 0 then 0 else if bit r 1 then 1 else 2

/-! #### From TRAIN to ACTIVE (14 Table LANE-2) -/

/-- TRAIN becomes LOCK: each direction has a TRAINED lane, and the lanes not TRAINED are excluded. -/
def trainToLock (p : Port) (s : State) : State :=
  let rx := rxWhere p s (fun l => l.trained)
  let tx := txWhere p s (fun l => l.partnerTrained)
  if (port s p).run ≠ .train ∨ rx = [] ∨ tx = [] then s
  else
    let s1 := modPort p (fun x => { x with run := .lock, since := now s, rxMask := maskOf rx, txMask := maskOf tx }) s
    forUpto 2 (fun d s =>
      modLane (txLane p d) (fun l => { l with background := !tx.contains d })
        (modLane (rxLane p d) (fun l => { l with background := !rx.contains d }) s)) s1

/-- LOCK becomes CAPS: the locked lanes of the receive direction are deskewed. The partner judges the other direction
(DEDUCED, log 44). -/
def lockToCaps (p : Port) (s : State) : State :=
  let locked := rxWhere p s (fun l => l.locked)
  if (port s p).run ≠ .lock ∨ locked = [] ∨ locked.all (fun d => (lane s (rxLane p d)).deskewed) = false then s
  else sendCaps p (modPort p (fun x => { x with run := .caps, since := now s }) s)

/-- CAPS becomes ACTIVE: both directions start afresh with all credits; the link has the smaller number of lanes that
the two CAPS state, and a lane left out of it trains on in the background (14 R330). -/
def capsToActive (p : Port) (c : Bytes) (s : State) : State :=
  let rx := rxWhere p s (fun l => l.locked && l.deskewed)
  let n := min (u8 c 1 % 4) rx.length
  let rxm := maskOf (rx.take (max 1 n))
  let txm := maskOf ((digits (port s p).txMask).take (max 1 n))
  let s1 := forUpto 2 (fun d s =>
    modLane (txLane p d) (fun l => { l with background := !txm.testBit d })
      (modLane (rxLane p d) (fun l => { l with background := !rxm.testBit d }) s)) s
  judgeRing (modPort p (fun x => { x with
    run := .active
    since := now s
    rxMask := rxm
    txMask := txm
    txNext := 0
    rxNext := 0
    replay := []
    queue := []
    general := 960
    reserved := 64
    grantGeneral := 960
    grantReserved := 64
    unacked := 0
    ackAt := now s
    resendAt := none }) s1)

/-- PARTNER_TERMINATION_SENSED (14 R330): DETECT finds a partner and training starts at 5.15625 Gb/s. -/
def execPartnerTerminationSensed (p : Port) (s : State) : Host.Outcome State Fault Refusal :=
  .next (if (port s p).run = .detect then trainPort p 2 s else s)

/-- Time in ns that a state of Table LANE-2 waits. -/
def portWait (r : PortRun) : Option Nat :=
  match r with
  | .detect | .lock | .caps => some 1000000
  | .train => some 4000000
  | _ => none

/-- PORT_STATE_TIMEOUT (14 R330). -/
def execPortStateTimeout (p : Port) (s : State) : Host.Outcome State Fault Refusal :=
  .next <|
    let x := port s p
    match portWait x.run with
    | none => s
    | some w =>
      if now s < x.since + w then s
      else
        match x.run with
        | .train =>
          forEach (portLanes p) (fun i s => modLane i (fun l => { l with retrains := sat32 (l.retrains + 1) }) s)
            (dropLink p .detect s)
        | .lock | .caps => trainPort p x.rate s
        | _ => modPort p (fun x => { x with since := now s }) s

/-- A lane may train now: its port is in TRAIN, or the lane trains in the background; a Mortar lane trains for 10 µs (14
R337, R338). -/
def mayTrain (s : State) (i : Nat) : Bool :=
  if i < 4 then decide ((port s (lanePort i)).run = .train) || (lane s i).background
  else decide (8 ≤ i) && mortarRuns s && !(lane s i).locked && decide ((lane s i).since + 10000 ≤ now s)

/-- LANE_TRAINED (14 R330): a receiver declares its lane TRAINED. -/
def execLaneTrained (i : Fin 20) (s : State) : Host.Outcome State Fault Refusal :=
  .next <|
    if !mayTrain s i.val then s
    else
      let s1 := modLane i.val (fun l => { l with trained := true }) s
      if i.val < 4 then trainToLock (lanePort i.val) s1 else s1

/-- A control block of a wrong CRC-8 or an unlisted type is dropped and counted on its lane (14 R327). -/
def damagedBlock (i : Nat) (s : State) : State := modLane i (fun l => { l with ctrlErrors := sat32 (l.ctrlErrors + 1) }) s

/-- TS_BLOCK (14 R330): the partner tells whether the transmit lane of this digit is TRAINED. A damaged block, whatever its
type was meant to be, is only counted (R327, log 89). -/
def execTsBlock (i : Fin 20) (damaged trained _ratePending : Bool) (s : State) : Host.Outcome State Fault Refusal :=
  .next <|
    let p := lanePort i.val
    let r := (port s p).run
    if 4 ≤ i.val ∨ r = .off ∨ r = .detect ∨ r = .quarantined then s
    else if damaged then damagedBlock i.val s
    else trainToLock p (modLane (txLane p (i.val % 2)) (fun l => { l with partnerTrained := trained }) s)

/-! #### Link control blocks from a receiver (14 Table LANE-1) -/

/-- Ask the partner to use the lanes of a mask (14 R336, R337). -/
def sendRestripe (p : Port) (mask : Nat) (s : State) : State := sendBlockAll p 0xD2 (b1 mask) s

/-- The port leaves service and looks for a partner again (14 Table LANE-2). -/
def losePort (p : Port) (s : State) : State := judgeRing (dropLink p .detect s)

/-- A ring lane loses block lock (14 R331, R336); `hunt` when its headers failed. -/
def loseLock (i : Nat) (hunt : Bool) (s : State) : State :=
  let p := lanePort i
  let d := i % 2
  let x := port s p
  let s1 := modLane i (fun l => { (stopCount x.rate (now s) l) with
    locked := false
    deskewed := false
    lockLosses := sat32 (l.lockLosses + 1)
    invalid := if hunt then sat32 (l.invalid + 16) else l.invalid }) s
  let s2 := raiseIrq 19 (logLane 0x090B i 0 s1)
  if x.run ≠ .active ∨ x.rxMask.testBit d = false then s2
  else
    let left := (digits x.rxMask).filter (fun e => (lane s2 (rxLane p e)).locked)
    if left = [] then losePort p s2
    else
      sendRestripe p (maskOf left) (modLane i (fun l => { l with
        trained := false
        background := true
        restripes := sat32 (l.restripes + 1) }) s2)

/-- The direction of a ring lane carries blocks: its port is past TRAIN. -/
def pastTrain (s : State) (i : Nat) : Bool :=
  let r := (port s (lanePort i)).run
  decide (r = .lock ∨ r = .caps ∨ r = .active)

/-- BLOCK_LOCK_ACQUIRED (14 R331): 64 consecutive valid headers. -/
def execBlockLockAcquired (i : Fin 20) (s : State) : Host.Outcome State Fault Refusal :=
  .next <|
    let l := lane s i.val
    let may := if i.val < 4 then pastTrain s i.val && l.trained else decide (8 ≤ i.val) && mortarRuns s && l.trained
    if !may || l.locked then s else modLane i.val (fun l => { (startCount (now s) l) with locked := true }) s

/-- BLOCK_LOCK_LOST (14 R331, R336, R339): 16 of 64 headers are invalid. On a ring lane, `cut` is what has come of the frame
being received. -/
def execBlockLockLost (i : Fin 20) (cut : List Byte) (s : State) : Host.Outcome State Fault Refusal :=
  .next <|
    let p := lanePort i.val
    if !(lane s i.val).locked || decide (4 ≤ i.val ∧ i.val < 8) then s
    else if i.val < 4 then
      loseLock i.val true
        (if decide ((port s p).run = .active) && (port s p).rxMask.testBit (i.val % 2) then cutReception p cut s else s)
    else mortarLaneLoss (i.val - 8) true s

/-- The marker count that another lane of the direction stands at now: its last one and one more for every 16,384 blocks
since (14 R332). -/
def markerNow (s : State) (rate : Nat) (x : Lane) : Nat :=
  let period := 16384 * blockPs rate
  (x.marker + (2000 * (now s - x.markerAt) + period) / (2 * period)) % 2 ^ 24

/-- The other deskewed lanes of a lane's direction. -/
def alignedWith (i : Nat) (s : State) : List Nat :=
  let group := if i < 4 then [rxLane (lanePort i) 0, rxLane (lanePort i) 1]
    else if i < 16 then (List.range 8).map (fun k => 8 + k) else (List.range 4).map (fun k => 16 + k)
  group.filter (fun k => k != i && (lane s k).deskewed)

/-- A ring lane is deskewed: LOCK may end, and a lane left out or retrained in the background is offered to the partner (14
R337). -/
def lanesAligned (i : Nat) (s : State) : State :=
  let p := lanePort i
  let x := port s p
  if x.run = .active ∧ (lane s i).background = true then
    sendRestripe p (x.rxMask ||| 2 ^ (i % 2))
      (modLane i (fun l => { l with background := false, retrains := sat32 (l.retrains + 1) }) s)
  else lockToCaps p s

/-- ALIGN_BLOCK (14 R332): a marker arrives `skew` blocks behind the earliest lane. A damaged block, whatever its type was
meant to be, is only counted (R327, log 89). -/
def execAlignBlock (i : Fin 20) (damaged : Bool) (skew : Nat) (marker : Nat) (s : State) : Host.Outcome State Fault Refusal :=
  .next <|
    let l := lane s i.val
    let limit := if i.val < 8 then 32 else 4
    let rate := if i.val < 8 then (port s (lanePort i.val)).rate else 0
    if !l.locked || decide (4 ≤ i.val ∧ i.val < 8) then s
    else if damaged then damagedBlock i.val s
    else if limit < skew ∨ (alignedWith i.val s).any (fun k => decide (marker ≠ markerNow s rate (lane s k))) then
      let s1 := modLane i.val (fun l => { l with deskewFails := sat32 (l.deskewFails + 1) }) s
      if i.val < 4 then loseLock i.val false s1 else mortarLaneLoss (i.val - 8) false s1
    else
      let s1 := modLane i.val (fun l => { l with deskewed := true, deskew := skew, marker := marker, markerAt := now s }) s
      if i.val < 4 then lanesAligned i.val s1 else s1

/-- A valid CAPS of the partner in state CAPS. -/
def takeCaps (p : Port) (c : Bytes) (s : State) : State :=
  let x := port s p
  let new := decide (x.caps ≠ some c)
  let s1 := modPort p (fun x => { x with caps := some c, seen := x.seen || !new, partner := capsNode c, since := now s }) s
  if bit (u16 c 2) 5 then refusedId s1
  else
    let r := commonRate s c
    if r < x.rate then trainPort p r s1
    else if refusesId s (capsNode c) (capsUid c) then sendCaps p (if new then violation p 7 s1 else s1)
    else if (port s1 p).seen && bit (u16 c 2) 4 then capsToActive p c (sendCaps p s1)
    else sendCaps p s1

/-- CAPS_RECEIVED (14 R333): four fragments have arrived in sequence. -/
def execCapsReceived (p : Port) (caps : List Byte) (s : State) : Host.Outcome State Fault Refusal :=
  .next <|
    if (port s p).run = .caps ∧ caps.length = 24 ∧ crc16 (caps.take 22) = u16 caps 22 then takeCaps p caps s else s

/-! #### Link control blocks (14 R334 to R337) -/

/-- The port's link is ACTIVE. -/
def linkUp (s : State) (p : Port) : Bool := decide ((port s p).run = .active)

/-- ACK_BLOCK (14 R334): frames up to an LSEQ are released. -/
def execAckBlock (p : Port) (lseq : BitVec 32) (s : State) : Host.Outcome State Fault Refusal :=
  .next <|
    if linkUp s p then
      pump p (modPort p (fun x => { x with
        replay := x.replay.filter (lseqFrom ((lseq.toNat + 1) % 2 ^ 32)) }) s)
    else s

/-- NAK_BLOCK (14 R334, 13 Table RING-4): resend from an LSEQ, or, for code 3, once credits return. -/
def execNakBlock (p : Port) (code : Nat) (lseq : BitVec 32) (s : State) : Host.Outcome State Fault Refusal :=
  .next <|
    if linkUp s p then
      let s1 := modPort p (fun x => { x with nakReceived := sat32 (x.nakReceived + 1) }) s
      if code = 3 then modPort p (fun x => { x with resendAt := some lseq.toNat }) s1 else resendFrom p lseq.toNat s1
    else s

/-- LSEQ of the oldest frame held for a port, if any. -/
def oldestHeld (s : State) (p : Port) : Option Nat := (port s p).replay.head?.map (fun h => h.lseq)

/-- Resend everything held for a port. -/
def resendAll (p : Port) (s : State) : State :=
  match oldestHeld s p with
  | some q => resendFrom p q s
  | none => s

/-- CREDIT_BLOCK (14 R334): credits return, never above those granted at ACTIVE; a resend that waits for them goes on. -/
def execCreditBlock (p : Port) (general reserved : Nat) (s : State) : Host.Outcome State Fault Refusal :=
  .next <|
    if linkUp s p then
      pump p (modPort p (fun x => { x with
        general := min 960 (x.general + general)
        reserved := min 64 (x.reserved + reserved) }) s)
    else s

/-- REPLAY_TIMEOUT (14 R334): the oldest held frame has waited 10 µs without acknowledgement. -/
def execReplayTimeout (p : Port) (s : State) : Host.Outcome State Fault Refusal :=
  .next <|
    match (port s p).replay with
    | h :: _ => if linkUp s p && decide (h.sentAt + 10000 ≤ now s) then resendFrom p h.lseq s else s
    | [] => s

/-- PROBE_SEND (14 R335): once per sync period. -/
def execProbeSend (p : Port) (s : State) : Host.Outcome State Fault Refusal :=
  .next <|
    let x := port s p
    if linkUp s p && decide (x.probeAt + 1000 * s.ring.syncPeriod ≤ now s) then
      sendBlock p 0xCC (b1 (2 * x.probeNext))
        (modPort p (fun x => { x with
          probe := some (x.probeNext, now s)
          probeAt := now s
          probeNext := (x.probeNext + 1) % 128 }) s)
    else s

/-- PROBE_BLOCK (14 R335): a request is answered in the same instant, so with residence 0 (log 45); a reply within 10 µs
gives the link's one-way delay. -/
def execProbeBlock (p : Port) (reply : Bool) (number residence : Nat) (s : State) : Host.Outcome State Fault Refusal :=
  .next <|
    if !linkUp s p then s
    else if !reply then sendBlock p 0xCC (b1 (2 * (number % 128) + 1) ++ leBytes 5 0) s
    else
      match (port s p).probe with
      | some (n, t) =>
        if n = number ∧ now s ≤ t + 10000 then
          modPort p (fun x => { x with probe := none, delay := (16 * (now s - t) - residence) / 2 }) s
        else s
      | none => s

/-- The lanes of a transmit direction change to a mask (14 R336, R337): what leaves retrains in the background. -/
def setTxMask (p : Port) (mask : Nat) (s : State) : State :=
  let x := port s p
  let s1 := modPort p (fun x => { x with txMask := mask }) s
  forUpto 2 (fun d s =>
    let was := x.txMask.testBit d
    let will := mask.testBit d
    if was = will then s
    else
      raiseIrq 19 (logLane 0x090C (txLane p d) mask (modLane (txLane p d) (fun l =>
        if was then { l with background := true, restripes := sat32 (l.restripes + 1) }
        else { l with background := false, retrains := sat32 (l.retrains + 1) }) s))) s1

/-- RESTRIPE_BLOCK (14 R336, R337): the transmitter sends SWITCH and uses the lanes named; it resends when it lost one. -/
def execRestripeBlock (p : Port) (mask : BitVec 2) (s : State) : Host.Outcome State Fault Refusal :=
  .next <|
    let m := mask.toNat
    let x := port s p
    if !linkUp s p || decide (m = 0 ∨ m = x.txMask) then s
    else
      let s1 := setTxMask p m (sendBlock p 0xE1 (b1 m) s)
      if (digits x.txMask).all (fun d => m.testBit d) then s1 else resendAll p s1

/-- SWITCH_BLOCK (14 R336, R337): the partner uses the lanes named from its next block. `cut` is what has come of the frame
that a lane's loss leaves incomplete. -/
def execSwitchBlock (p : Port) (mask : BitVec 2) (cut : List Byte) (s : State) : Host.Outcome State Fault Refusal :=
  .next <|
    let m := mask.toNat
    let x := port s p
    if !linkUp s p || decide (m = 0 ∨ m = x.rxMask) then s
    else
      let s0 := if (digits x.rxMask).all (fun d => m.testBit d) then s else cutReception p cut s
      let s1 := modPort p (fun x => { x with rxMask := m }) s0
      let s2 := forUpto 2 (fun d s =>
        if x.rxMask.testBit d = m.testBit d then s
        else raiseIrq 19 (logLane 0x090C (rxLane p d) m s)) s1
      if (digits m).any (fun d => (lane s2 (rxLane p d)).locked) then s2 else losePort p s2

/-- LEAVE_BLOCK (14 R330): the partner leaves. -/
def execLeaveBlock (p : Port) (reason : Nat) (s : State) : Host.Outcome State Fault Refusal :=
  .next (if linkUp s p ∧ reason < 256 then losePort p s else s)

/-- RING_QUARANTINE_CLEAR (13 R324). -/
def execRingQuarantineClear (mb : Fin 8) (s : State) : Host.Outcome State Fault Refusal :=
  runCommand 0x0906 mb (fun _ _ q s =>
    checked (fixedPayload q 4 [(decide (u8 q 0 < 3), 0), rsv q 1 3]) s (fun _ =>
      let clear (p : Port) (s : State) : State :=
        if (port s p).run = .quarantined then
          modPort p (fun x => { x with retriedAt := none, quarDoublings := 0 }) (trainPort p 2 s)
        else s
      let s1 := if u8 q 0 = 1 then s else clear .e s
      (if u8 q 0 = 0 then s1 else clear .w s1, ok))) s

/-! #### Eye scan (14 R340, R341) -/

/-- The lane has a receiver that can be scanned. -/
def observable (i : Nat) : Bool := decide (i < 4 ∨ (8 ≤ i ∧ i < 20))

/-- The field checks of LANE_EYE_SCAN (14 Table LANE-6). -/
def eyeFields (p : Bytes) : List (Bool × Nat) :=
  let ph := signed 8 (u8 p 2)
  let v := signed 8 (u8 p 5)
  [(observable (u8 p 0), 0), (within 16 (u8 p 1) 34, 1), (withinI (-32) ph 31, 2), (within 1 (u8 p 3) 64, 3),
    (within 1 (u8 p 4) 64 && decide (ph + (u8 p 3 : Int) * ((u8 p 4 : Int) - 1) ≤ 31), 4), (withinI (-64) v 63, 5),
    (within 1 (u8 p 6) 128, 6),
    (within 1 (u8 p 7) 128 && decide (v + (u8 p 6 : Int) * ((u8 p 7 : Int) - 1) ≤ 63), 7), rsv p 8 8]

/-- RATE of a lane: its port's, 16 Gb/s for a Mortar lane. -/
def laneRate (s : State) (i : Nat) : Nat := if i < 8 then (port s (lanePort i)).rate else 0

/-- The scan a payload asks for. -/
def startScan (s : State) (j : Nat) (p : Bytes) : EyeScan :=
  { jseq := j, lane := u8 p 0, dwell := u8 p 1, phases := u8 p 4, volts := u8 p 7, start := now s,
    rate := laneRate s (u8 p 0), gaps := [], gapFrom := none }

/-- LANE_EYE_SCAN (14 R341). -/
def execLaneEyeScan (mb : Fin 8) (s : State) : Host.Outcome State Fault Refusal :=
  runCommand 0x0908 mb (fun _ j p s =>
    match fixedPayload p 16 (eyeFields p) with
    | some r => (s, some r)
    | none =>
      if !(lane s (u8 p 0)).locked then (s, some notArmed)
      else if s.lanes.scan.isSome then (s, some noResource)
      else ({ s with lanes.scan := some (startScan s j p) }, none)) s

/-- Duration of one point's dwell, in 1/66 ps: 2^DWELL_LOG2 bits at the rate at which the scan began (DEDUCED, log 114). -/
def dwellTime (x : EyeScan) : Nat := 2 ^ x.dwell * blockPs x.rate

/-- Block lock was lost during point `k`, which is dwelt on after the points before it (14 R340). -/
def pointLost (s : State) (x : EyeScan) (k : Nat) : Bool :=
  let t0 := 66000 * x.start + k * dwellTime x
  let t1 := t0 + dwellTime x
  let spans := x.gaps ++ (match x.gapFrom with
    | some t => [(t, now s + 1)]
    | none => [])
  spans.any (fun g => decide (66000 * g.1 < t1 ∧ t0 < 66000 * g.2))

/-- One point as reported: 0xFFFF_FFFF only where lock was lost (14 R340, R341). -/
def eyeCount (lost : Bool) (n : Nat) : Nat := if lost then 0xFFFFFFFF else min n 0xFFFFFFFE

/-- LANE_EYE_SCAN_DONE (14 R341): the last point has been dwelt on; `counts` are the errors the sampler found. -/
def execLaneEyeScanDone (counts : List Nat) (s : State) : Host.Outcome State Fault Refusal :=
  .next <|
    match s.lanes.scan with
    | none => s
    | some x =>
      let n := x.phases * x.volts
      let lost := (List.range n).any (pointLost s x)
      if counts.length ≠ n ∨ 66000 * now s < 66000 * x.start + n * dwellTime x then s
      else
        finish x.jseq (okWith (b1 x.lane ++ b1 (b2n lost) ++ b1 x.phases ++ b1 x.volts ++ b1 x.rate ++
          zeros 3 ++ b8 (2 ^ x.dwell) ++
            (List.range n).flatMap (fun k => b4 (eyeCount (pointLost s x k) (nth counts k)))))
          { s with lanes.scan := none }

/-! #### LANE_STATUS (14 R342) -/

/-- KIND of a lane. -/
def laneKind (i : Nat) : Nat := if i < 4 then 0 else if i < 8 then 1 else if i < 16 then 2 else 3

/-- Number of a port state (14 Table LANE-7). -/
def portNo : PortRun → Nat
  | .off => 0 | .detect => 1 | .train => 2 | .lock => 3 | .caps => 4 | .active => 5 | .quarantined => 6

/-- The lane is in its direction's mask. -/
def inMask (s : State) (i : Nat) : Bool :=
  if i < 4 then (port s (lanePort i)).rxMask.testBit (i % 2)
  else if i < 8 then (port s (lanePort i)).txMask.testBit (i % 2)
  else if i < 16 then s.lanes.maskAB.testBit (i - 8)
  else s.lanes.maskBA.testBit (i - 16)

/-- STATE of a lane (14 Table LANE-7). -/
def laneState (s : State) (i : Nat) : Nat :=
  if i < 8 then
    let p := lanePort i
    if (port s p).run = .active ∧ portBroken s p = true then 7 else portNo (port s p).run
  else if inMask s i then 5
  else if (lane s i).trained then 3
  else if mortarRuns s then 2
  else 0

/-- EQ of a lane: free for a ring receiver (log 29), 0 for the others. -/
def laneEq (s : State) (i : Nat) : Nat := if i < 4 then Config.equaliser i s.free % 2 ^ 16 else 0

/-- INVALID_HEADERS: the headers that led to a loss of lock, and a free number of others, which no row brings (log 115); none
for a transmit lane. -/
def laneInvalid (s : State) (i : Nat) : Nat :=
  if 4 ≤ i ∧ i < 8 then 0 else sat32 ((lane s i).invalid + Config.strayHeaders i s.free)

/-- A counter of a direction: of a Mortar direction, whose frames the host does not see, it is free (log 115). -/
def laneCounter (s : State) (i k ring : Nat) : Nat :=
  if i < 8 then ring else Config.mortarCount (laneKind i) k s.free % 2 ^ 32

/-- LANE_STATUS of a lane (14 Table LANE-7). -/
def laneStatus (s : State) (i : Nat) : Bytes :=
  let l := lane s i
  let x := port s (lanePort i)
  let ring := decide (i < 8)
  let rx := decide (i < 4)
  let tx := ring && !rx
  b1 i ++ b1 (laneKind i) ++ b1 (laneState s i) ++
    b1 (bitmap [inMask s i, l.locked, if tx then l.partnerTrained else l.trained,
      match s.lanes.scan with
      | some e => decide (e.lane = i)
      | none => false]) ++
    b1 (laneRate s i) ++ b1 l.deskew ++ b2 (laneEq s i) ++ b2 (if ring then x.partner else 0) ++ b2 0 ++
    b4 l.lockLosses ++ b8 (blocksAt (laneRate s i) (now s) l) ++ b4 (laneInvalid s i) ++ b4 l.ctrlErrors ++
    b4 l.deskewFails ++ b4 l.restripes ++ b4 (laneCounter s i 0 (if rx then x.nakSent else 0)) ++
    b4 (laneCounter s i 1 (if tx then x.nakReceived else 0)) ++ b4 (laneCounter s i 2 (if tx then x.replayed else 0)) ++
    b4 (laneCounter s i 3 (if rx then x.stomped else 0)) ++ b4 l.retrains ++ b4 0

/-- LANE_STATUS (14 R342). -/
def execLaneStatus (mb : Fin 8) (s : State) : Host.Outcome State Fault Refusal :=
  runCommand 0x0909 mb (fun _ _ p s =>
    checked (fixedPayload p 4 [(decide (u8 p 0 < 20), 0), rsv p 1 3]) s
      (fun _ => ((drawFree s).2, okWith (laneStatus s (u8 p 0))))) s

end Sys2Proof.Machine
end

