-- ==== Sys2Proof/Machine/RingFrames.lean ====
section
/-! DEFINITION. Ring frames and the messages that are not SYNC or ANNOUNCE (13 R297 to R301, R311 to R314, R325). -/

namespace Sys2Proof.Machine

open Sys2Proof

/-! #### Answers to the sender on a link (13 R301, 14 R334) -/

/-- Ask the sender to retransmit. -/
def sendNak (p : Port) (code lseq : Nat) (s : State) : State :=
  sendBlock p 0xAA (b1 code ++ b4 lseq) (modPort p (fun x => { x with nakSent := sat32 (x.nakSent + 1) }) s)

/-- Acknowledge the highest LSEQ accepted in order. -/
def sendAck (p : Port) (s : State) : State :=
  let q := ((port s p).rxNext + 2 ^ 32 - 1) % 2 ^ 32
  sendBlock p 0x99 (b1 (ringIn p) ++ b4 q) (modPort p (fun x => { x with unacked := 0, ackAt := now s }) s)

/-! #### Judging a frame (13 Table RING-4) -/

/-- The frame's CRC-32 is wrong, or the frame is incomplete (code 2). -/
def badCrc (f : Bytes) : Bool :=
  decide (f.length ≠ 20 + frLen f ∨ crc32 (f.take (16 + frLen f)) ≠ u32 f (16 + frLen f))

/-- The frame needs more credits than were granted (code 3). -/
def overrun (s : State) (p : Port) (f : Bytes) : Bool :=
  decide ((if usesReserved f then (port s p).grantReserved else (port s p).grantGeneral) < wireCredits f)

/-- A type of its class (13 Table RING-3a). -/
def knownType (f : Bytes) : Bool := decide (1 ≤ frTyp f ∧ frTyp f ≤ nth [0, 2, 3, 1, 4] (frCls f))

/-- Send an MGMT NAK to a node (13 R301). -/
def mgmtNak (code node : Nat) (s : State) : State := if node = ownNode s then s else e2eSend 4 4 node (b4 code) s

/-! #### Delivering and forwarding (13 R298) -/

/-- The message a frame carries. -/
def messageOf (p : Port) (f : Bytes) (t : Nat) : RingMessage :=
  { cls := frCls f, typ := frTyp f, ring := ringIn p, path := frPath f, src := frSrc f, hops := frHops f,
    payload := frPayload f, tick := t }

/-- Deliver a frame to this device, its own broadcasts among them when they return (13 R298). Acknowledgements and NAKs of
MGMT act at once; the other messages are taken up by the commands of their kinds. -/
def deliver (p : Port) (f : Bytes) (s : State) : State :=
  let m := messageOf p f (now s)
  if frCls f = 4 ∧ frTyp f = 3 then e2eAcked m.src (u32 m.payload 0) s
  else if frCls f = 4 ∧ frTyp f = 4 then (e2eAccept m s).2
  else { s with ring.inbox := s.ring.inbox ++ [m] }

/-- Forward a frame, or drop it when it has travelled 300 hops. -/
def forwardFrame (p : Port) (f : Bytes) (s : State) : State :=
  if 300 < frHops f + 1 then freeCredits p f { s with ring.ttlExpired := sat32 (s.ring.ttlExpired + 1) }
  else forwardOn (ringIn p) (onwardBody f) false (some (p, wireCredits f)) none s

/-- A frame accepted on the link. -/
def acceptedFrame (p : Port) (f : Bytes) (s : State) : State :=
  if !knownClass f then violation p 5 (freeCredits p f s)
  else if !carriesFrames s then freeCredits p f s
  else if forMe s f && !knownType f then violation p 5 (mgmtNak 5 (frSrc f) (freeCredits p f s))
  else
    let s1 := if forMe s f then deliver p f s else s
    if goesOn s f then forwardFrame p f s1 else freeCredits p f s1

/-- The LSEQ stands behind the expected one. -/
def lseqBehind (s : State) (p : Port) (f : Bytes) : Bool := decide (2 ^ 31 ≤ ringDist 32 (port s p).rxNext (frLseq f))

/-- A frame received whole on a port (13 R298, R301). The copy of one whose CRC-32 is wrong ends with STOMP (14 R329). -/
def takeFrame (p : Port) (f : Bytes) (s : State) : State :=
  if badHeader f then violation p 1 (dropFrame p f (sendNak p 1 (port s p).rxNext s))
  else if badCrc f then violation p 2 (dropFrame p f (sendNak p 2 (frLseq f) (stompCopy p f s)))
  else if lseqBehind s p f then dropFrame p f (sendAck p s)
  else if overrun s p f then violation p 3 (dropFrame p f (sendNak p 3 (frLseq f) s))
  else if frLseq f ≠ (port s p).rxNext then violation p 4 (dropFrame p f (sendNak p 4 (port s p).rxNext s))
  else
    let s1 := modPort p (fun x => { x with rxNext := (x.rxNext + 1) % 2 ^ 32, unacked := x.unacked + 1 })
      (useCredits p f s)
    let x := port s1 p
    acceptedFrame p f (if 8 ≤ x.unacked ∨ x.ackAt + 1000 ≤ now s then sendAck p s1 else s1)

/-- A frame that its forwarder ended with STOMP is dropped and counted in STOMPED alone; the expected LSEQ stays (14 R329). -/
def stompedFrame (p : Port) (f : Bytes) (s : State) : State :=
  modPort p (fun x => { x with stomped := sat32 (x.stomped + 1) }) (dropFrame p f s)

/-- RING_FRAME_RECEIVED (13 R298, R301, 14 R329). -/
def execRingFrameReceived (p : Port) (stomped : Bool) (frame : List Byte) (s : State) : Host.Outcome State Fault Refusal :=
  .next (if !linkUp s p then s else if stomped then stompedFrame p frame s else takeFrame p frame s)

/-- E2E_RESEND (13 R300): the oldest message to a destination has waited 500 µs. -/
def execE2eResend (s : State) : Host.Outcome State Fault Refusal :=
  .next <|
    let late := s.ring.unacked.filter (fun m => decide (m.sentAt + 500000 ≤ now s))
    let dsts := (late.map (fun m => m.dst)).dedup
    if late.isEmpty then s else e2eResend (s.ring.unacked.filter (fun m => dsts.contains m.dst)) s

/-! #### Records at the sink (13 R312) -/

/-- Sources whose pallets the sink serves. -/
def served (s : State) : List Nat := (s.ring.sinkPi.map (fun e => e.1)).dedup

/-- The sink writes a pallet's records and then PI, never a lower one. -/
def writePallet (src : Nat) (b : Bytes) (s : State) : State :=
  let pi := u64 b 12
  let addr := u64 b 20
  let s1 := hostWrite (u64 b 4) (slice b 28 (64 * u8 b 1)) s
  match s.ring.sinkPi.find? (fun e => e.1 == src && e.2.1 == addr) with
  | none => hostWrite addr (b8 pi) { s1 with ring.sinkPi := s1.ring.sinkPi ++ [(src, addr, pi)] }
  | some (_, _, top) =>
    if pi < top then s1
    else
      hostWrite addr (b8 pi) { s1 with
        ring.sinkPi := s1.ring.sinkPi.map (fun e => if e.1 = src ∧ e.2.1 = addr then (src, addr, pi) else e) }

/-- PALLET_RECEIVED (13 R312): the sink serves up to 64 sources; without bus mastering a pallet is not accepted. -/
def execPalletReceived (s : State) : Host.Outcome State Fault Refusal :=
  .next <|
    match takeInbox 2 1 s with
    | none => s
    | some (m, s1) =>
      let b := m.payload.drop 4
      let full := !(served s).contains m.src && decide (64 ≤ (served s).length)
      if !ringMember s || !canMaster s || full then s1
      else if u8 b 1 = 0 ∨ 32 < u8 b 1 ∨ m.payload.length ≠ 32 + 64 * u8 b 1 then s1
      else
        let isNew := decide (u32 m.payload 0 = tabGet 0 s1.ring.eseqIn m.src)
        let s2 := if isNew then writePallet m.src b s1 else s1
        let s3 := (e2eAccept m s2).2
        if isNew && decide (u8 b 2 ≠ 0xFF) then msixSend (u8 b 2) s3 else s3

/-- PALLET_ACK (13 R300, R312). -/
def execPalletAck (s : State) : Host.Outcome State Fault Refusal :=
  .next <|
    match takeInbox 2 2 s with
    | none => s
    | some (m, s1) => e2eAcked m.src (u32 m.payload 0) s1

/-- CI_READ_MESSAGE (13 R311): a CI_READ is answered with the value `ci` read from host memory; a CI_VALUE is taken as a
CI read. -/
def execCiReadMessage (ci : BitVec 64) (s : State) : Host.Outcome State Fault Refusal :=
  .next <|
    match takeInbox 2 3 s with
    | none => s
    | some (m, s1) =>
      let b := m.payload.drop 4
      if u8 b 0 = 0 then
        if !ringMember s || !canMaster s then s1
        else
          let (isNew, s2) := e2eAccept m s1
          if isNew then e2eSend 2 3 m.src (b1 1 ++ b1 (u8 b 1) ++ b2 0 ++ b8 ci.toNat) (emit (.hostRead (u64 b 4) 8) s2)
          else s2
      else
        let (isNew, s2) := e2eAccept m s1
        if isNew ∧ (dring s2 (u8 b 1)).ciRead.isSome ∧ u8 b 1 < 64 then takeCi (u8 b 1) (u64 b 4) s2 else s2

/-! #### Remote mailboxes (13 R314) -/

/-- Gather the fragments of a message: the whole body with its last fragment. What is left of an earlier message of the same
sender and mailbox is dropped. -/
def gather (node key seq : Nat) (last : Bool) (part : Bytes) (s : State) : Option Bytes × State :=
  let rest := s.ring.fragments.filter (fun e => !(e.node == node && e.key == key))
  let old := match s.ring.fragments.find? (fun e => e.node == node && e.key == key && e.seq == seq) with
    | some e => e.part
    | none => []
  if last then (some (old ++ part), { s with ring.fragments := rest })
  else (none, { s with ring.fragments := rest ++ [⟨node, key, seq, old ++ part⟩] })

/-- The pair of an originating node and mailbox. -/
def pairOf (s : State) (node mb : Nat) : Option RemotePair :=
  s.ring.pairs.find? (fun p => p.node == node && p.box == mb)

/-- A command of the pair stands in the journal and is not done. -/
def pairBusy (s : State) (node mb seq : Nat) : Bool :=
  s.mbx.journal.any (fun e => decide (e.origin = .remote node mb seq) && !e.done)

/-- Send a RESULT: status, the original status of a duplicate, DETAIL and result. -/
def sendResult (node mb seq st orig detail : Nat) (r : Bytes) (s : State) : State :=
  sendMgmt 2 node node mb seq (b2 st ++ b2 orig ++ b4 detail ++ r) s

/-- Journal a remote command under its pair (12 R266). -/
def journalRemote (node mb seq : Nat) (h p : Bytes) (s : State) : State :=
  let e : JEntry :=
    { jseq := s.mbx.nextJseq, origin := .remote node mb seq, header := h, payload := p, room := arenaRoom (hOp h) p,
      accepted := true, acceptedAt := now s }
  let pair : RemotePair := ⟨node, mb, some seq, 0, 0, []⟩
  placeEntry e.jseq { s with
    mbx.journal := s.mbx.journal ++ [e]
    mbx.nextJseq := s.mbx.nextJseq + 1
    ring.pairs := s.ring.pairs.filter (fun q => !(q.node == node && q.box == mb)) ++ [pair] }

/-- A remote command has arrived whole at its target. -/
def remoteCommand (node mb seq : Nat) (body : Bytes) (s : State) : State :=
  let h := body.take 64
  let p := body.drop 64
  if hOp h = 0x0104 then
    let (r, s1) := identResult (fit 32 p) s
    sendResult node mb seq 0 0 0 r s1
  else
    match pairOf s node mb with
    | none =>
      if 64 ≤ s.ring.pairs.length ∨ journalFree s (arenaRoom (hOp h) p) = false then sendResult node mb seq 0x30 0 0 [] s
      else journalRemote node mb seq h p s
    | some q =>
      let last := q.seq.getD 0
      if seq < last then s
      else if seq = last then
        if pairBusy s node mb seq then s else sendResult node mb seq 2 q.status q.detail q.result s
      else if journalFree s (arenaRoom (hOp h) p) then journalRemote node mb seq h p s
      else sendResult node mb seq 0x30 0 0 [] s

/-- MGMT_COMMAND (13 R314): the next COMMAND fragment is taken up; with the last the command is journaled. -/
def execMgmtCommand (s : State) : Host.Outcome State Fault Refusal :=
  .next <|
    match takeInbox 4 1 s with
    | none => s
    | some (m, s1) =>
      if !ringMember s || !sornor s then s
      else
        let (isNew, s2) := e2eAccept m s1
        if !isNew then s2
        else
          let b := m.payload.drop 4
          let (whole, s3) := gather m.src (u8 b 2) (u64 b 4) (decide (u8 b 3 = 1)) (b.drop 12) s2
          match whole with
          | some body => remoteCommand (u16 b 0) (u8 b 2) (u64 b 4) body s3
          | none => s3

/-- A RESULT completes the command it answers (13 R314, R325). -/
def remoteResult (src mb seq : Nat) (body : Bytes) (s : State) : State :=
  if mb = 8 then
    match s.ring.idents.find? (fun x => x.jseq == seq && x.node == src) with
    | none => s
    | some x =>
      let uid := match member s src with
        | some k => leBytes 16 k.uid
        | none => slice body 8 16
      finish x.jseq (okWith (b2 src ++ zeros 6 ++ uid ++ slice body 8 224))
        { s with ring.idents := s.ring.idents.erase x }
  else
    match s.ring.remote.find? (fun x => x.box == mb && x.node == src && x.seq == seq) with
    | none => s
    | some x =>
      finish x.jseq ⟨u16 body 0, u32 body 4, body.drop 8, u16 body 2⟩ { s with ring.remote := s.ring.remote.erase x }

/-- MGMT_RESULT (13 R314): the next RESULT fragment is taken up; with the last the command completes. -/
def execMgmtResult (s : State) : Host.Outcome State Fault Refusal :=
  .next <|
    match takeInbox 4 2 s with
    | none => s
    | some (m, s1) =>
      if !sornor s then s
      else
        let (isNew, s2) := e2eAccept m s1
        if !isNew then s2
        else
          let b := m.payload.drop 4
          let (whole, s3) := gather m.src (16 + u8 b 2) (u64 b 4) (decide (u8 b 3 = 1)) (b.drop 12) s2
          match whole with
          | some body => remoteResult m.src (u8 b 2) (u64 b 4) body s3
          | none => s3

/-- REMOTE_TIMEOUT (13 R314, R325): the target has left the roster, or has returned nothing within 1 s. -/
def execRemoteTimeout (mb : Fin 8) (s : State) : Host.Outcome State Fault Refusal :=
  .next <|
    let isBox (j : Nat) : Bool := match entryOf s j with
      | some e => decide (originBox e.origin = mb.val)
      | none => false
    let lost := s.ring.remote.filter (fun x =>
      decide (x.box = mb.val) && (!inRoster s x.node || decide (x.sentAt + 1000000000 ≤ now s)))
    let late := s.ring.idents.filter (fun x => isBox x.jseq && decide (x.tick + 1000000000 ≤ now s))
    if !sornor s then s
    else
      forEach (lost.map (fun x => x.jseq) ++ late.map (fun x => x.jseq)) (fun j s => finish j faulted s)
        { s with
          ring.remote := s.ring.remote.filter (fun x => !lost.contains x)
          ring.idents := s.ring.idents.filter (fun x => !late.contains x) }

/-- RING_PEER_IDENT (13 R317, R325): the nonce travels to the member as an MGMT COMMAND of IDENT (log 31). -/
def execRingPeerIdent (mb : Fin 8) (s : State) : Host.Outcome State Fault Refusal :=
  runCommand 0x0907 mb (fun _ j p s =>
    match fixedPayload p 40 [rsv p 2 6] with
    | some r => (s, some r)
    | none =>
      let n := u16 p 0
      if n = ownNode s ∧ ringMember s = true then
        let (r, s1) := identResult (slice p 8 32) s
        (s1, some (okWith (b2 n ++ zeros 6 ++ uidBytes ++ r)))
      else if (member s n).isNone then (s, some noResource)
      else
        (sendMgmt 1 n (ownNode s) 8 j (b2 0x0104 ++ zeros 62 ++ slice p 8 32)
          { s with ring.idents := s.ring.idents ++ [⟨j, n, now s⟩] }, none)) s

end Sys2Proof.Machine
end

