-- ==== Sys2Proof/Machine/Time.lean ====
section
/-! DEFINITION. Vehicle time (08 R182, R183, 21 R472, R473). -/

namespace Sys2Proof.Machine

open Sys2Proof

/-- TIME_FROM_RING is in force: set, on a ring member that is not master (13 R309). -/
def fromRing (s : State) : Bool :=
  s.ring.cfg.timeFromRing && decide (s.ring.run = .active ∨ s.ring.run = .wrapped) &&
    decide (s.ring.master ≠ s.ring.cfg.nodeId)

/-- What the trim adds to one tick, and the fraction left (08 R183). -/
def trimStep (t : VehicleTime) : Int × Int :=
  let a := t.trimAcc + t.trim
  if 1000000000 ≤ a then (1, a - 1000000000) else if a ≤ -1000000000 then (-1, a + 1000000000) else (0, a)

/-- What the slew adds to its `i`-th tick: its total spread evenly over a second (08 R183). -/
def slewAt (total : Int) (i : Nat) : Int :=
  let part (k : Nat) : Nat := k * total.natAbs / 1000000000
  if part i = part (i - 1) then 0 else if total < 0 then -1 else 1

/-- One TB tick of vehicle time. -/
def tickTime (t : VehicleTime) : VehicleTime :=
  let (d, acc) := trimStep t
  let i := t.slewTick + 1
  let w := if t.slewTotal = 0 then 0 else slewAt t.slewTotal i
  let done := decide (1000000000 ≤ i)
  { t with
    v := ((((t.v : Int) + 1 + d + w) % ((2 ^ 64 : Nat) : Int))).toNat
    trimAcc := acc
    slewLeft := if done then 0 else t.slewLeft - w
    slewTick := if t.slewTotal = 0 ∨ done = true then 0 else i
    slewTotal := if done then 0 else t.slewTotal }

/-- Start a slew of `x` ns over the next second. -/
def startSlew (x : Int) (t : VehicleTime) : VehicleTime := { t with slewTotal := x, slewLeft := x, slewTick := 0 }

/-- Load V, which ends any slew (21 R472). -/
def loadTime (v : Nat) (t : VehicleTime) : VehicleTime :=
  { startSlew 0 t with v := v, valid := true, loadPending := false }

/-- Act on a measured difference e: slew and trim, or step (08 R183). -/
def discipline (e : Int) (s : State) : State :=
  let t := { s.time with
    lastE := max (-(2 ^ 31 - 1)) (min (2 ^ 31 - 1) e)
    evaluated := true
    lastEdge := some (now s) }
  if e.natAbs ≤ 1000 then
    { s with time := startSlew (-e) { t with
        trim := max (-100000) (min 100000 (t.trim + rne (-e) 8))
        disciplined := true } }
  else
    let t := startSlew 0 t
    logEv 0x0504 (unsigned 32 t.lastE) (frameNo s) 0
      { s with time := { t with
          v := (((t.v : Int) - e) % ((2 ^ 64 : Nat) : Int)).toNat
          disciplined := false
          stepped := true
          stepFlag := true } }

/-- e of an edge: V less the multiple of 10^9 nearest to it, the lower one on a tie. -/
def edgeError (v : Nat) : Int :=
  let r := v % 1000000000
  if r ≤ 500000000 then (r : Int) else (r : Int) - 1000000000

/-- TIME_PPS_EDGE (08 R183, 21 R472, R473): a rising edge of TIME_PPS. An edge that gives no e of its own leaves
TIME_DISCIPLINED to the last one. -/
def execTimePpsEdge (s : State) : Host.Outcome State Fault Refusal :=
  .next <|
    if fromRing s || !s.power.main then s
    else
      let s1 : State :=
        { s with
          time.edges := sat32 (s.time.edges + 1)
          time.ppsAt := s.time.v
          time.disciplined := s.time.evaluated && decide (s.time.lastE.natAbs ≤ 1000)
          time.lastEdge := some (now s) }
      if s.time.loadPending then { s1 with time := loadTime s.time.set s1.time }
      else if s.time.discipline then discipline (edgeError s.time.v) s1
      else s1

/-- TIME_DISCIPLINED_LAPSE (08 R183): 1.5 s without an edge. -/
def execTimeDisciplinedLapse (s : State) : Host.Outcome State Fault Refusal :=
  .next <|
    let due : Bool := match s.time.lastEdge with
      | some t => decide (t + 1500000000 < now s)
      | none => true
    if s.time.disciplined && due then { s with time.disciplined := false } else s

/-- TIME_LOAD_NOW (21 R472): TIME_CMD.ACTION 1. -/
def execTimeLoadNow (s : State) : Host.Outcome State Fault Refusal :=
  .next (if bar0Served s then { s with time := loadTime s.time.set s.time } else s)

/-- TIME_LOAD_AT_PPS (21 R472, R473): TIME_CMD.ACTION 2. -/
def execTimeLoadAtPps (s : State) : Host.Outcome State Fault Refusal :=
  .next <|
    if !bar0Served s then s
    else if fromRing s then { s with pcie.timeCmdIgnored := true }
    else { s with time.loadPending := true }

/-- TIME_CANCEL_LOAD (21 R472): TIME_CMD.ACTION 3. -/
def execTimeCancelLoad (s : State) : Host.Outcome State Fault Refusal :=
  .next (if bar0Served s then { s with time.loadPending := false } else s)

end Sys2Proof.Machine
end

