-- ==== Sys2Proof/Machine/RingSync.lean ====
section
/-! DEFINITION. ANNOUNCE, roster, SYNC and the 0x090x ring commands (13 R303 to R310, R316, R318 to R323). -/

namespace Sys2Proof.Machine

open Sys2Proof

/-- The sync period in force, in ns. -/
def syncNs (s : State) : Nat := 1000 * s.ring.syncPeriod

/-- The port a ring arrives at (13 Table RING-1). -/
def inPort (ring : Nat) : Port := if ring = 0 then .w else .e

/-! #### ANNOUNCE (13 R304) -/

/-- AFLAGS of this device (13 Table RING-5). -/
def ownFlags (s : State) : Nat :=
  bitmap [canMaster s, s.set.ringCodes, decide (s.ring.run = .wrapped ∧ s.ring.wrappedAt = some .e),
    decide (s.ring.run = .wrapped ∧ s.ring.wrappedAt = some .w), s.time.valid]

/-- The neighbour at a port, 0 if none. -/
def neighbour (s : State) (p : Port) : Nat := if inService s p then (port s p).partner else 0

/-- The ANNOUNCE payload (13 Table RING-5). -/
def announcePayload (s : State) : Bytes :=
  b2 (ownNode s) ++ b2 (ownFlags s) ++ b2 (neighbour s .w) ++ b2 (neighbour s .e) ++ leBytes 16 Config.uniqueId ++
    b4 (frameRate s) ++ b4 s.ring.aseq

/-- ANNOUNCE_SEND (13 R304): once per sync period on both rings. -/
def execAnnounceSend (s : State) : Host.Outcome State Fault Refusal :=
  .next <|
    let due : Bool := match s.ring.announcedAt with
      | some t => decide (t + syncNs s ≤ now s)
      | none => true
    if ringMember s && due then
      broadcast 1 2 (announcePayload s) (announcePayload s)
        { s with ring.announcedAt := some (now s), ring.aseq := (s.ring.aseq + 1) % 2 ^ 32 }
    else s

/-! #### Bindings (13 R316) -/

/-- Store binding `i` in the NV ledger (the layout is a DESIGN CHOICE, log 6). -/
def storeBinding (i node uid : Nat) (s : State) : State := (nvWrite 6 (512 + 18 * i) (b2 node ++ leBytes 16 uid) s).2

/-- The place of the binding whose node has been absent from the roster longest. -/
def oldestBinding (s : State) : Nat :=
  let absent := s.ring.bindings.filter (fun b => (member s b.node).isNone)
  let pool := if absent.isEmpty then s.ring.bindings else absent
  match (pool.map (fun b => b.seenAt)).min? with
  | some t => (s.ring.bindings.findIdx? (fun b => b.seenAt == t && pool.contains b)).getD 0
  | none => 0

/-- A node is seen with a UNIQUE_ID (13 R316). -/
def seeBinding (node uid : Nat) (s : State) : State :=
  match s.ring.bindings.find? (fun b => b.node == node) with
  | some b =>
    let s1 := { s with ring.bindings := s.ring.bindings.map (fun c =>
      if c.node = node then { c with seenAt := now s } else c) }
    if b.uid = uid ∨ s.ring.changed.contains node = true then s1
    else
      raiseIrq 13 (logEv 0x0909 node (b.uid % 2 ^ 32) (uid % 2 ^ 32)
        { s1 with ring.changed := s1.ring.changed ++ [node] })
  | none =>
    let n := s.ring.bindings.length
    let i := if n < 256 then n else oldestBinding s
    let new : Binding := ⟨node, uid, now s⟩
    let s1 := { s with ring.bindings := if n < 256 then s.ring.bindings ++ [new] else s.ring.bindings.set i new }
    logEv 0x0908 node 0 0 (storeBinding i node uid s1)

/-! #### The ring order (13 R295) -/

/-- Follow the E neighbours from a node: the order up to this device, if it is reached. -/
def followEast (s : State) : Nat → Nat → Option (List Nat)
  | 0, _ => none
  | k + 1, n =>
    if n = ownNode s then some []
    else
      match member s n with
      | some m => (followEast s k m.neighE).map (fun l => n :: l)
      | none => none

/-- The ring's order when it is complete: every member of the roster, in primary-ring order. -/
def completeOrder (s : State) : Option (List Nat) :=
  match followEast s 257 (neighbour s .e) with
  | some l => if l.length = s.ring.roster.length then some (ownNode s :: l) else none
  | none => none

/-- The roster has changed: the last complete order, the master and what is in service are judged anew. -/
def rosterChanged (s : State) : State :=
  let s1 := match completeOrder s with
    | some l => { s with ring.lastOrder := l }
    | none => s
  updateMaster (judgeRing s1)

/-! #### Taking an ANNOUNCE (13 R303, R304) -/

/-- Hops to a member as a copy of its ANNOUNCE gives them: a copy on one ring has come the way the other ring goes
(DEDUCED, log 47). 255 stands for a distance not yet heard. -/
def withHops (ring hops : Nat) (m : Member) : Member :=
  if ring = 1 then { m with hopsPri := min 255 (hops + 1) } else { m with hopsSec := min 255 (hops + 1) }

/-- Put a member into the roster, in ascending node ID. -/
def putMember (n : Nat) (m : Member) (s : State) : State :=
  { s with ring.roster := insertBy (fun e => e.1) (n, m) (s.ring.roster.filter (fun e => e.1 != n)) }

/-- The last ASEQ accepted from a node. -/
def lastAseq (s : State) (n : Nat) : Option Nat :=
  match member s n with
  | some m => some m.aseq
  | none => (s.ring.aseqs.find? (fun e => e.1 == n)).map (fun e => e.2)

/-- Another device carries this device's node ID (13 R303). -/
def contest (m : RingMessage) (s : State) : State :=
  let s1 := violation (inPort m.ring) 7 s
  if le m.payload 8 16 < Config.uniqueId % 2 ^ 128 ∧ ringMember s1 = true then startLeaving (setDuplicate s1) else s1

/-- An ANNOUNCE of another node (13 R304, R316). -/
def takeAnnounce (m : RingMessage) (s : State) : State :=
  let p := m.payload
  let n := u16 p 0
  let q := u32 p 28
  let new : Bool := match lastAseq s n with
    | some l => after 32 q l
    | none => true
  let full := (member s n).isNone && decide (255 ≤ s.ring.roster.length)
  if new && !full then
    let old : Member := (member s n).getD ⟨0, 0, 0, 0, 0, 0, 0, 255, 255⟩
    let x : Member := withHops m.ring m.hops
      { old with
        aseq := q, seenAt := now s, flags := u16 p 2, neighW := u16 p 4, neighE := u16 p 6, uid := le p 8 16,
        frameRate := u32 p 24 }
    rosterChanged (seeBinding n x.uid (putMember n x s))
  else
    match member s n with
    | some x => if x.aseq = q then putMember n (withHops m.ring m.hops x) s else s
    | none => s

/-- ANNOUNCE_RECEIVED (13 R304). -/
def execAnnounceReceived (s : State) : Host.Outcome State Fault Refusal :=
  .next <|
    match takeInbox 1 2 s with
    | none => s
    | some (m, s1) =>
      if !ringMember s || decide (m.payload.length ≠ 32) then s1
      else if u16 m.payload 0 = ownNode s then
        if le m.payload 8 16 = Config.uniqueId % 2 ^ 128 then s1 else contest m s1
      else takeAnnounce m s1

/-- ROSTER_EXPIRY (13 R304): no accepted ANNOUNCE within the last 3 sync periods. -/
def execRosterExpiry (node : BitVec 16) (s : State) : Host.Outcome State Fault Refusal :=
  .next <|
    match member s node.toNat with
    | some m => if m.seenAt + 3 * syncNs s ≤ now s then rosterChanged (dropMember node.toNat s) else s
    | none => s

/-! #### Blocks and keep-outs (07 R164, R165, 13 R307, R323) -/

/-- AFLAGS of a roster node. -/
def nodeFlags (s : State) (n : Nat) : Nat :=
  if n = ownNode s then ownFlags s
  else
    match member s n with
    | some m => m.flags
    | none => 0

/-- The entries of a SYNC this device sends: blocks for the members with RING_CODES on, keep-outs by rank or table. -/
def syncEntries (s : State) : List SyncEntry :=
  let ns := (rosterNodes s).take 256
  let coded := ns.filter (fun n => bit (nodeFlags s n) 1)
  ns.map (fun n =>
    { node := n,
      block := if coded.contains n then 128 + coded.idxOf n % 32 else 0,
      keepOut := if s.set.phaseMode = 0 then ns.idxOf n * (2 ^ 32 / ns.length)
        else
          match s.set.phaseTable.find? (fun e => e.node == n) with
          | some e => e.keepOut
          | none => 0 })

/-- This device's entry. -/
def ownEntry (s : State) (es : List SyncEntry) : Option SyncEntry := es.find? (fun e => e.node == ownNode s)

/-- Take the code block assigned: it applies at the next frame boundary, and FAMILY_SHARED shows whether another member
has it too (07 R164, R165). -/
def takeBlock (es : List SyncEntry) (s : State) : State :=
  match ownEntry s es with
  | none => s
  | some e =>
    if e.block < 128 then s
    else
      let b := e.block % 32
      let shared := es.any (fun x => x.node != ownNode s && decide (128 ≤ x.block) && decide (x.block % 32 = b))
      let s1 : State :=
        { s with
          eng.blockNew := if s.eng.blockSet && decide (s.eng.block = b) then none else some b
          eng.familyShared := shared }
      if shared && !s.eng.familyShared then logEv 0x0402 b 0 0 s1 else s1

/-! #### The reference phase (13 R305, R307) -/

/-- θ_ref at this instant, in counts. -/
def thetaRefNow (s : State) : Int :=
  (s.loop.thetaRef + rne ((omegaRef s : Int) * ((now s : Int) - (s.loop.ts : Int))) 256) / (lsb24 : Nat)

/-- The phase a master sends by: its own once it sends, else continued from the last SYNC accepted, else begun from θ_ref
less its KEEP_OUT. -/
def masterPhase (keep : Nat) (s : State) : RingPhase :=
  match s.ring.phase with
  | some p =>
    if s.ring.sending && decide (p.omega = (omegaRef s : Int)) then p
    else ⟨16 * (now s : Int), phaseAt p (now s), (omegaRef s : Int)⟩
  | none => ⟨16 * (now s : Int), unsigned 32 (thetaRefNow s - (keep : Int)), (omegaRef s : Int)⟩

/-- The SYNC payload; T_SEND, PHASE and VEHICLE_TIME are filled in as it leaves (13 Table RING-6). -/
def syncPayload (s : State) (es : List SyncEntry) (p : RingPhase) : Bytes :=
  b2 (ownNode s) ++ b2 (bitmap [s.time.valid, decide (s.set.phaseMode = 0)]) ++ b4 s.ring.sseqSent ++ b8 0 ++ b4 0 ++
    b2 s.ring.cfg.syncPeriod ++ b2 es.length ++ b4 (frameRate s) ++ b4 0 ++ bS 8 p.omega ++
    b8 0 ++ zeros 16 ++ es.flatMap (fun e => b2 e.node ++ b1 e.block ++ b1 0 ++ b4 e.keepOut)

/-- Send a SYNC on a ring. -/
def sendSync (ring : Nat) (payload : Bytes) (p : RingPhase) (s : State) : State :=
  forwardOn ring (frameBody 1 1 0 (ownNode s) 0xFFFF 0 payload) true none (some (.own p)) s

/-- SSEQ of the next SYNC sent: after those sent and those accepted. -/
def nextSseq (s : State) : Nat :=
  let q := match s.ring.sseq with
    | some a => if after 32 a s.ring.sseqSent then a else s.ring.sseqSent
    | none => s.ring.sseqSent
  (q + 1) % 2 ^ 32

/-- This device stands in the master's place and has accepted no SYNC from a lower node ID for 3 sync periods. -/
def maySync (s : State) : Bool :=
  ringMember s && decide (s.ring.master = ownNode s) &&
    (s.ring.sending ||
      (match s.ring.lowerAt, s.ring.placeSince with
       | some t, _ => decide (t + 3 * syncNs s ≤ now s)
       | none, some t => decide (t + 3 * syncNs s ≤ now s)
       | none, none => false))

/-- SYNC_SEND (13 R305, R306): every SYNC_PERIOD on both rings with one SSEQ. -/
def execSyncSend (s : State) : Host.Outcome State Fault Refusal :=
  .next <|
    if !maySync s || (s.ring.sending && decide (now s < s.ring.syncSentAt + 1000 * s.ring.cfg.syncPeriod)) then s
    else
      let es := syncEntries s
      let keep := match ownEntry s es with
        | some e => e.keepOut
        | none => 0
      let p := masterPhase keep s
      let s1 : State :=
        { s with
          ring.sseqSent := nextSseq s
          ring.phase := some p
          ring.entries := es
          ring.sending := true
          ring.syncSentAt := now s
          ring.syncPeriod := s.ring.cfg.syncPeriod
          ring.rateMismatch := false }
      let b := syncPayload s1 es p
      sendSync 1 b p (sendSync 0 b p (takeBlock es s1))

/-! #### Taking a SYNC (13 R306 to R310) -/

/-- The entries of a SYNC. -/
def parseEntries (p : Bytes) : List SyncEntry :=
  (List.range (u16 p 22)).map (fun i => ⟨u16 p (64 + 8 * i), u8 p (66 + 8 * i), u32 p (68 + 8 * i)⟩)

/-- The sender may be master: by this roster, or a node with a lower ID that has PCIE set. -/
def fromMaster (s : State) (src : Nat) : Bool :=
  decide (src = s.ring.master) || (decide (src < s.ring.master) && bit (nodeFlags s src) 0)

/-- The SYNC is no later than half its period. -/
def syncInTime (p : Bytes) : Bool := decide (u32 p 16 ≤ 8000 * u16 p 20)

/-- SSEQ repeats that of the last SYNC accepted: a further copy of it (13 R296, R306). -/
def repeatsSync (s : State) (q : Nat) : Bool := decide (s.ring.sseq = some q)

/-- A SYNC of the form R306 asks for, lateness apart; a further copy of the last SSEQ is none the worse for it. -/
def legalSync (m : RingMessage) (s : State) : Bool :=
  let p := m.payload
  decide (p.length = 64 + 8 * u16 p 22) && fromMaster s m.src &&
    (match s.ring.sseq with
     | some a => repeatsSync s (u32 p 4) || after 32 (u32 p 4) a
     | none => true)

/-- Forward a SYNC with the delay of its upstream link added; its residence time is added when it leaves. -/
def forwardSync (m : RingMessage) (s : State) : State :=
  let acc := u32 m.payload 16 + (port s (inPort m.ring)).delay
  if 300 < m.hops + 1 then { s with ring.ttlExpired := sat32 (s.ring.ttlExpired + 1) }
  else
    forwardOn m.ring (frameBody 1 1 m.path m.src 0xFFFF (m.hops + 1) (overwrite m.payload 16 (b4 acc))) false none
      (some (.onward m.tick)) s

/-- Vehicle time from an accepted SYNC (13 R309); the sixteenths of e are rounded (DEDUCED, log 48). -/
def syncTime (m : RingMessage) (s : State) : State :=
  let p := m.payload
  let v := (s.time.v : Int) - ((now s : Int) - (m.tick : Int))
  if fromRing s && bit (u16 p 2) 0 then discipline (rne (16 * (v - (u64 p 40 : Int)) - (u32 p 16 : Int)) 16) s else s

/-- The frame rates are compared; RATE_MISMATCH is logged once (13 R307). -/
def syncRates (rate : Nat) (s : State) : State :=
  let bad := decide (rate ≠ frameRate s)
  let s1 := { s with ring.syncRate := rate, ring.rateMismatch := bad }
  if bad && !s.ring.rateMismatch then logEv 0x0906 rate 0 0 s1 else s1

/-- Consecutive sync periods with an accepted SYNC, by SSEQ (13 R308). -/
def runAfter (s : State) (q : Nat) : Nat :=
  match s.ring.syncAt, s.ring.sseq with
  | some _, some a => if q = (a + 1) % 2 ^ 32 then min 3 (s.ring.syncRun + 1) else 1
  | _, _ => 1

/-- Accept a SYNC (13 R306, R307). -/
def acceptSync (m : RingMessage) (s : State) : State :=
  let p := m.payload
  let s1 : State :=
    { s with
      ring.sseq := some (u32 p 4)
      ring.syncRun := runAfter s (u32 p 4)
      ring.syncAt := some m.tick
      ring.lowerAt := if m.src < ownNode s then some m.tick else s.ring.lowerAt
      ring.syncPeriod := u16 p 20
      ring.accDelay := u32 p 16
      ring.phase := some ⟨16 * (m.tick : Int) - (u32 p 16 : Int), u32 p 28, signed 42 (u64 p 32)⟩
      ring.entries := parseEntries p }
  takeBlock s1.ring.entries (syncTime m (syncRates (u32 p 24) s1))

/-- RING_TOO_LONG (13 R310): on one ring or both. -/
def tooLong (s : State) : Bool := s.ring.tooLong.any id

/-- The master's own SYNC returns round a ring (13 R310): each ring counts for itself. -/
def syncReturned (m : RingMessage) (s : State) : State :=
  let acc := u32 m.payload 16
  let over_ := decide (8000 * s.ring.cfg.syncPeriod < acc)
  let r := m.ring
  let long := if over_ then min 3 (nth s.ring.longRun r + 1) else 0
  let short := if over_ then 0 else min 3 (nth s.ring.shortRun r + 1)
  let s1 : State := { s with
    ring.returned := s.ring.returned.set r acc
    ring.longRun := s.ring.longRun.set r long
    ring.shortRun := s.ring.shortRun.set r short
    ring.tooLong := if long = 3 then s.ring.tooLong.set r true
      else if short = 3 then s.ring.tooLong.set r false
      else s.ring.tooLong }
  if tooLong s1 && !tooLong s then logEv 0x0905 (listMax s1.ring.returned / 16) 0 0 s1 else s1

/-- Judge a SYNC of another device (13 R306, Table RING-4). -/
def takeSync (m : RingMessage) (s : State) : State :=
  if !legalSync m s then violation (inPort m.ring) 6 (mgmtNak 6 m.src s)
  else if repeatsSync s (u32 m.payload 4) then forwardSync m s
  else if syncInTime m.payload then forwardSync m (acceptSync m s)
  else forwardSync m { s with ring.syncLate := sat32 (s.ring.syncLate + 1) }

/-- SYNC_RECEIVED (13 R306). -/
def execSyncReceived (s : State) : Host.Outcome State Fault Refusal :=
  .next <|
    match takeInbox 1 1 s with
    | none => s
    | some (m, s1) =>
      if !ringMember s then s1
      else if m.src = ownNode s then (if s.ring.sending then syncReturned m s1 else s1)
      else takeSync m s1

/-- SYNC_LOST (13 R306): 4 of the master's sync periods without an accepted SYNC. -/
def execSyncLost (s : State) : Host.Outcome State Fault Refusal :=
  .next <|
    match s.ring.syncAt with
    | some t =>
      if ringMember s && !s.ring.sending && decide (t + 4 * syncNs s ≤ now s) then
        logEv 0x0904 s.ring.master 0 0
          { s with ring.syncAt := none, ring.syncRun := 0, ring.syncLost := sat32 (s.ring.syncLost + 1) }
      else s
    | none => s

/-- θ_ref stands within PHASE_SLEW counts of its target. -/
def nearTarget (s : State) : Bool :=
  match ringTarget s (s.loop.ts : Int) with
  | some g => decide ((wrap56 (g - s.loop.thetaRef)).natAbs ≤ (loopCfg s).phaseSlew * lsb24)
  | none => false

/-- SYNC_LOCKED (13 R308). "The last 3 sync periods" are the last 3 SSEQs, of which the last came less than 2 periods
ago (DEDUCED, log 49). -/
def syncLocked (s : State) : Bool :=
  ringMember s && nearTarget s &&
    (s.ring.sending ||
      (decide (3 ≤ s.ring.syncRun) && !s.ring.rateMismatch &&
        (match s.ring.syncAt with
         | some t => decide (now s < t + 2 * syncNs s)
         | none => false)))

/-! #### RING_CONFIG (13 R319) -/

/-- The settings of a RING_CONFIG payload. -/
def ringConfigOf (p : Bytes) : RingConfig :=
  { nodeId := u16 p 0, enable := decide (u8 p 2 = 1), persist := decide (u8 p 3 = 1), rate := u8 p 4,
    timeFromRing := decide (u8 p 5 = 1), syncPeriod := u16 p 8, quarThreshold := u16 p 10, quarRetry := u16 p 12 }

/-- The field checks of RING_CONFIG (13 Table RING-9). -/
def ringConfigFields (p : Bytes) : List (Bool × Nat) :=
  [(decide (u16 p 0 ≠ 0xFFFF ∧ (u16 p 0 ≠ 0 ∨ u8 p 2 ≠ 1)), 0), (decide (u8 p 2 < 2), 2), (decide (u8 p 3 < 2), 3),
    (decide (u8 p 4 < 3), 4), (decide (u8 p 5 < 2), 5), rsv p 6 2, (within 20 (u16 p 8) 1000, 8),
    (within 1 (u16 p 10) 1000, 10), (decide (u16 p 12 ≤ 3600), 12), rsv p 14 2]

/-- RING_CONFIG's effect. -/
def ringConfig (p : Bytes) (s : State) : State × Reply :=
  let c := ringConfigOf p
  let free := decide (s.ring.run = .bypass ∨ s.ring.run = .isolated)
  if !free && (decide (c.nodeId ≠ s.ring.cfg.nodeId ∨ c.rate ≠ s.ring.cfg.rate) || !c.enable) then (s, busyEpoch)
  else
    let s1 : State :=
      { s with
        ring.cfg := c
        ring.duplicateId := s.ring.duplicateId && decide (c.nodeId = s.ring.cfg.nodeId)
        time.loadPending := s.time.loadPending && !c.timeFromRing }
    let s2 := if c.persist || s.ring.cfg.persist then persistRing s1 else s1
    (tryJoin s2, ok)

/-- RING_CONFIG (13 R319). -/
def execRingConfig (mb : Fin 8) (s : State) : Host.Outcome State Fault Refusal :=
  runCommand 0x0901 mb (fun _ _ p s => checked (fixedPayload p 16 (ringConfigFields p)) s (fun _ => ringConfig p s)) s

/-! #### RING_STATUS (13 R320) -/

/-- Number of a ring state (13 Table RING-8). -/
def ringNo : RingRun → Nat
  | .bypass => 0 | .joining => 1 | .active => 2 | .wrapped => 3 | .isolated => 4 | .leaving => 5

/-- PORT_E and PORT_W. -/
def portStatus (s : State) (p : Port) : Nat :=
  match (port s p).run with
  | .off | .detect => 0
  | .train | .lock | .caps => 1
  | .active => if portBroken s p then 4 else 2
  | .quarantined => 3

/-- Some member is wrapped (13 R315). -/
def ringWrapped (s : State) : Bool :=
  decide (s.ring.run = .wrapped) || s.ring.roster.any (fun e => bit e.2.flags 2 || bit e.2.flags 3)

/-- This device is the ring's master. -/
def isMaster (s : State) : Bool := ringMember s && decide (s.ring.master = ownNode s)

/-- RING_STATUS (13 Table RING-8). -/
def ringStatus (s : State) : Bytes :=
  let r := s.ring
  let viol (p : Port) : Bytes := (List.range 7).flatMap (fun i => b4 (tabGet 0 (port s p).viol (i + 1)))
  b1 (ringNo r.run) ++ b1 (portStatus s .e) ++ b1 (portStatus s .w) ++
    b1 (if inService s .e then (port s .e).rate else (port s .w).rate) ++
    b4 (bitmap [isMaster s, syncLocked s, !r.changed.isEmpty, tooLong s, r.rateMismatch, r.duplicateId, ringWrapped s,
      r.cfg.timeFromRing, ringMember s && decide (r.master ≠ 0)]) ++
    b2 r.cfg.nodeId ++ b2 r.master ++ b2 (if ringMember s then r.roster.length + 1 else 0) ++ b2 0 ++
    b4 (if isMaster s then listMax r.returned / 16 else 0) ++ b4 (r.accDelay / 16) ++ b4 r.syncPeriod ++ b4 r.wraps ++
    b4 r.quarantines ++ b4 r.syncLate ++ b4 r.syncLost ++ b4 r.masterChanges ++ viol .e ++ viol .w ++ b4 r.ttlExpired ++
    b4 r.resent

/-- RING_STATUS (13 R320). -/
def execRingStatus (mb : Fin 8) (s : State) : Host.Outcome State Fault Refusal :=
  runCommand 0x0902 mb (fun _ _ p s => checked (fixedPayload p 0 []) s (fun _ => (s, okWith (ringStatus s)))) s

/-! #### RING_MEMBERS (13 R321) -/

/-- One entry of the READ result (13 Table RING-11). -/
def memberEntry (s : State) (n : Nat) : Bytes :=
  let own := decide (n = ownNode s)
  let f := nodeFlags s n
  let m := member s n
  let e := s.ring.entries.find? (fun e => e.node == n)
  b2 n ++ b2 (bitmap [bit f 0, bit f 1, s.ring.changed.contains n, bit f 2, bit f 3, own]) ++
    b1 (if own then 0 else (m.map (fun m => m.hopsPri)).getD 0) ++ b1 (if own then 0 else (m.map (fun m => m.hopsSec)).getD 0) ++
    b1 ((e.map (fun e => e.block)).getD 0) ++ b1 0 ++
    (if own then leBytes 16 Config.uniqueId else leBytes 16 ((m.map (fun m => m.uid)).getD 0)) ++
    b4 ((e.map (fun e => e.keepOut)).getD 0) ++ b4 0

/-- The READ result. -/
def membersResult (s : State) : Bytes :=
  let ns := if ringMember s then (rosterNodes s).take 256 else []
  b2 ns.length ++ b2 s.ring.master ++ b4 0 ++ ns.flatMap (memberEntry s)

/-- The nodes a payload names. -/
def namedNodes (p : Bytes) : List Nat := (List.range (u16 p 2)).map (fun i => u16 p (8 + 2 * i))

/-- Rebind the named nodes to their present UNIQUE_IDs (13 R316). -/
def ackChange (n : Nat) (s : State) : State :=
  match member s n, s.ring.bindings.findIdx? (fun b => b.node == n) with
  | some m, some i =>
    storeBinding i n m.uid { s with
      ring.bindings := s.ring.bindings.map (fun b => if b.node = n then { b with uid := m.uid } else b)
      ring.changed := s.ring.changed.filter (fun k => k != n) }
  | _, _ => s

/-- The field checks of the nodes named: no repeat in an order, and only roster nodes in ACK_CHANGE. -/
def nodeFields (s : State) (p : Bytes) : List (Bool × Nat) :=
  let ns := namedNodes p
  (List.range ns.length).map (fun i =>
    (if u8 p 0 = 1 then !(ns.take i).contains (nth ns i)
     else ringMember s && (rosterNodes s).contains (nth ns i), 8 + 2 * i))

/-- RING_MEMBERS (13 R321). -/
def execRingMembers (mb : Fin 8) (s : State) : Host.Outcome State Fault Refusal :=
  runCommand 0x0903 mb (fun _ _ p s =>
    let n := u16 p 2
    let countOk : Bool := match u8 p 0 with
      | 0 => decide (n = 0)
      | 1 => decide (n ≤ 256)
      | _ => within 1 n 256
    checked (varPayload p 8 [(decide (u8 p 0 < 3), 0), rsv p 1 1, (countOk, 2), rsv p 4 4] (8 + 2 * n)
        (nodeFields s p)) s (fun _ =>
      match u8 p 0 with
      | 0 => (s, okWith (membersResult s))
      | 1 => (judgeRing { s with ring.expected := namedNodes p }, ok)
      | _ => (forEach (namedNodes p) ackChange s, ok))) s

/-! #### RING_LEAVE and RING_SET_PHASE (13 R322, R323) -/

/-- RING_LEAVE (13 R322): it completes when the bypass has closed. -/
def execRingLeave (mb : Fin 8) (s : State) : Host.Outcome State Fault Refusal :=
  runCommand 0x0904 mb (fun _ j p s =>
    match fixedPayload p 0 [] with
    | some r => (s, some r)
    | none =>
      if s.ring.run = .bypass ∨ s.ring.run = .isolated then (s, some notArmed)
      else
        let s1 := { s with ring.leaves := s.ring.leaves ++ [j] }
        (if s.ring.run = .leaving then s1 else startLeaving s1, none)) s

/-- The keep-out table of a RING_SET_PHASE payload. -/
def keepOutsOf (p : Bytes) : List KeepOut :=
  (List.range (u16 p 2)).map (fun i => ⟨u16 p (8 + 8 * i), u32 p (12 + 8 * i)⟩)

/-- The field checks of the entries: no repeated node, reserved fields 0. -/
def keepOutFields (p : Bytes) : List (Bool × Nat) :=
  let ns := (keepOutsOf p).map (fun e => e.node)
  (List.range ns.length).flatMap (fun i => [(!(ns.take i).contains (nth ns i), 8 + 8 * i), rsv p (10 + 8 * i) 2])

/-- RING_SET_PHASE (13 R323), staged. -/
def execRingSetPhase (mb : Fin 8) (s : State) : Host.Outcome State Fault Refusal :=
  runCommand 0x0905 mb (fun _ j p s =>
    let n := u16 p 2
    checked (varPayload p 8 [(decide (u8 p 0 < 2), 0), rsv p 1 1, (decide (n ≤ 256 ∧ (u8 p 0 = 1 ∨ n = 0)), 2), rsv p 4 4]
        (8 + 8 * n) (keepOutFields p)) s
      (fun _ => (stage j (.phase (u8 p 0) (keepOutsOf p)) s, ok))) s

end Sys2Proof.Machine
end

