-- ==== Sys2Proof/Machine/Frame.lean ====
section
/-! DEFINITION. COMMIT and its checks (11 R247 to R252), SNAPSHOT (11 R253), and the frame boundary (02 R30, 11 R248). -/

namespace Sys2Proof.Machine

open Sys2Proof

/-! #### The configuration a COMMIT would put in force (11 R247) -/

/-- What a COMMIT would put in force. -/
structure Plan where
  /-- the configuration with the staged settings over it -/
  set : Settings
  /-- the final settings of each delivery ring staged -/
  rings : List (Nat × RingSettings) := []
  /-- a column table is staged -/
  columns : Bool := false
  deriving DecidableEq, Repr

/-- Write consecutive entries of a table. -/
def setFrom {α : Type} [DecidableEq α] (d : α) (first : Nat) (xs : List α) (t : Tab α) : Tab α :=
  (xs.zipIdx).foldl (fun t e => tabSet d t (first + e.2) e.1) t

/-- One staged command over a plan. -/
def planSetting (x : StagedSetting) (p : Plan) : Plan :=
  match x with
  | .columns t => { p with set := { p.set with columns := t }, columns := true }
  | .scan t => { p with set := { p.set with scan := t } }
  | .index t => { p with set := { p.set with index := t } }
  | .programs first ps => { p with set := { p.set with programs := setFrom {} first ps p.set.programs } }
  | .alloc a => { p with set := { p.set with alloc := a } }
  | .weights first hs => { p with set := { p.set with weights := setFrom 1 first hs p.set.weights } }
  | .recv first rs => { p with set := { p.set with recv := setFrom {} first rs p.set.recv } }
  | .hist first hs => { p with set := { p.set with hist := setFrom {} first hs p.set.hist } }
  | .walk first gain ws => { p with set := { p.set with walk := setFrom [] (first + 256 * gain) ws p.set.walk } }
  | .rej first rs => { p with set := { p.set with rej := setFrom {} first rs p.set.rej } }
  | .device b => { p with set := { p.set with ringCodes := b } }
  | .ring r cfg => { p with rings := tabInsert p.rings r cfg }
  | .phase mode table => { p with set := { p.set with phaseMode := mode, phaseTable := table } }

/-- The plan of a COMMIT: its settings in acceptance order over the configuration in force. -/
def planOf (s : State) (c : PendingCommit) : Plan :=
  forEach c.settings (fun e p => planSetting e.2 p) { set := s.set }

/-! #### The checks (11 R251, Table MBOX-9) -/

/-- The first course, in ascending order, for which a predicate holds. -/
def firstCourse (f : Nat → Bool) : Option Nat := (List.range 128).find? f

/-- A course's program under a plan. -/
def planProg (p : Plan) (c : Nat) : ShotProgram := tabGet {} p.set.programs c

/-- The aggregate shot-rate sum (04 R81). -/
def rateSum (p : Plan) : Nat := listSum ((List.range 128).map (fun c => ceilDiv 1000000 (slotNs (planProg p c))))

/-- A column of the course does not fit N_MIN shots (04 R81, R83). -/
def tooFewFit (s : State) (p : Plan) (c : Nat) : Bool :=
  let s1 := { s with set := p.set }
  (List.range 2048).any (fun j => decide (nFit s1 (planProg p c) j < p.set.alloc.nMin))

/-- COINCIDENCE without both sides (06 R150). -/
def lonelyPair (p : Plan) (c : Nat) : Bool :=
  decide ((tabGet {} p.set.hist c).mode = 1 ∧ (tabGet {} p.set.recv c).sides % 4 ≠ 3)

/-- A ring's settings under a plan. -/
def planRing (s : State) (p : Plan) (r : Nat) : RingSettings :=
  match p.rings.find? (fun e => e.1 == r) with
  | some e => e.2
  | none => (dring s r).cfg

/-- The course range of an enabled ring overlaps that of an enabled ring with a lower number (08 R178). -/
def ringOverlaps (s : State) (p : Plan) (r : Nat) : Bool :=
  let x := planRing s p r
  x.enable && (List.range r).any (fun q =>
    let y := planRing s p q
    y.enable && decide (x.first ≤ y.last ∧ y.first ≤ x.last))

/-- A check of Table MBOX-9 that fails: code, status and the course or ring. -/
structure CommitFail where
  /-- code of the check -/
  code : Nat
  /-- STATUS -/
  status : Nat
  /-- course or ring -/
  ix : Nat := 0
  deriving DecidableEq, Repr

/-- A check over courses or rings that names the first offender. -/
def failAt (code status : Nat) (ix : Option Nat) : Option CommitFail := ix.map (fun i => ⟨code, status, i⟩)

/-- The first check of Table MBOX-9 that fails. -/
def commitCheck (s : State) (p : Plan) : Option CommitFail :=
  (if colFits p.set.columns p.set.scan then none else some ⟨1, 0x12, 0⟩).orElse fun _ =>
  (if (p.set.scan.kind ≠ s.set.scan.kind ∨ p.set.scan.forwardSpan ≠ s.set.scan.forwardSpan) ∧
      s.angle.pred ≠ .stopped then some ⟨2, 0x15, 0⟩ else none).orElse fun _ =>
  (failAt 3 0x12 (firstCourse (fun c => decide (slotNs (planProg p c) < 1000)))).orElse fun _ =>
  (if 64000 < rateSum p then some ⟨4, 0x12, 0⟩ else none).orElse fun _ =>
  (failAt 5 0x12 (firstCourse (fun c => !spacingOk (planProg p c)))).orElse fun _ =>
  (failAt 6 0x12 (firstCourse (tooFewFit s p))).orElse fun _ =>
  (failAt 7 0x12 (firstCourse (lonelyPair p))).orElse fun _ =>
  (failAt 8 0x15 ((p.rings.filter (fun e => e.2.enable && !(dring s e.1).records.isEmpty)).head?.map (fun e => e.1))).orElse
    fun _ => failAt 9 0x12 ((List.range 64).find? (ringOverlaps s p))

/-! #### Applying (11 R248, R249) -/

/-- A COMMIT that changes a course's GAIN_MODE clears LOWGAIN of its tiles (05 R112). -/
def clearLowGain (p : Plan) (s : State) : Tab TpmEntry :=
  (s.shot.tpm.map (fun e =>
    let c := e.1 / 2048
    if (tabGet {} p.set.recv c).gainMode ≠ (recvOf s c).gainMode then (e.1, { e.2 with lowGain := false }) else e)).filter
    (fun e => decide (e.2 ≠ {}))

/-- RING_CODES is on and a CODE_FAMILY in force exceeds 127 (07 R164): the lowest such course. -/
def familyBeyond (s : State) : Option Nat :=
  if s.set.ringCodes then firstCourse (fun c => decide (127 < (progOf s c).family.getD c)) else none

/-- FAMILY_RANGE is set and logged (07 R164). -/
def setFamilyRange (s : State) : State :=
  match familyBeyond s with
  | some c => if s.eng.familyRange then s else logEv 0x0403 c 0 0 { s with eng.familyRange := true }
  | none => s

/-- Put a plan in force, the epoch being already the new one; `f` is the first frame of the new epoch. -/
def applyPlan (p : Plan) (f : Nat) (s : State) : State :=
  let s1 := { s with
    shot.tpm := clearLowGain p s
    set := { p.set with columnsEpoch := if p.columns then s.angle.epoch else p.set.columnsEpoch } }
  setFamilyRange (forEach p.rings (fun e s => applyRing e.1 f e.2 s) s1)

/-- The COMMIT result (11 Table MBOX-10). -/
def commitResult (epoch frame tb : Nat) : Bytes := b2 epoch ++ b2 0 ++ b4 frame ++ b8 tb

/-- A COMMIT fails: its settings are discarded (11 R251). -/
def failCommit (c : PendingCommit) (x : CommitFail) (s : State) : State :=
  let d := 0x30000000 + 256 * x.ix + x.code
  finish c.jseq { status := x.status, detail := d } (logEv 0x0D02 x.status d 0 (dropCommit c s))

/-- A COMMIT has applied: `f` is the first frame of its epoch and `shown` the frame it reports. -/
def passCommit (c : PendingCommit) (p : Plan) (f shown : Nat) (s : State) : State :=
  let s1 := dropCommit c (applyPlan p f s)
  finish c.jseq (okWith (commitResult s1.angle.epoch shown (now s1))) (logEv 0x0D01 s1.angle.epoch shown 0 s1)

/-- The epoch increases by one, modulo 2^16 (00 R5). -/
def nextEpoch (s : State) : State := { s with angle.epoch := (s.angle.epoch + 1) % 65536 }

/-- The instant a command was accepted. -/
def acceptedOf (s : State) (j : Nat) : Nat :=
  match entryOf s j with
  | some e => e.acceptedAt
  | none => now s

/-- COMMIT takes up the staging set (11 R247, R251); it completes with FAULT if die A is not restored in time (12
R277). -/
def commitHandler (j : Nat) (s : State) : State × Option Reply :=
  match s.mbx.staging with
  | [] => (s, some (okWith (commitResult (epochNo s) (frameNo s) 0)))
  | l =>
    if dieAOverdue s then (s, some faulted)
    else
      let s1 := forEach (l.map (fun e => e.1)) (modEntry · (fun e => { e with stage := .covered })) s
      ({ s1 with
        mbx.staging := []
        mbx.commits := s.mbx.commits ++ [⟨j, acceptedOf s j, unframed s && s.power.dieA, l⟩] }, none)

/-- COMMIT (11 R248): the staging set is taken, to be applied at the first boundary at least 2 ms later. -/
def execCommit (mb : Fin 8) (s : State) : Host.Outcome State Fault Refusal :=
  runCommand 0x0D01 mb (fun _ j p s =>
    match fixedPayload p 0 [] with
    | some r => (s, some r)
    | none => commitHandler j s) s

/-- STAGE_DISCARD (11 R252). -/
def execStageDiscard (mb : Fin 8) (s : State) : Host.Outcome State Fault Refusal :=
  runCommand 0x0D02 mb (fun _ _ p s =>
    checked (fixedPayload p 0 []) s (fun _ =>
      let l := s.mbx.staging
      (unstage (l.map (fun e => e.1)) { s with mbx.staging := [] }, okWith (b4 l.length)))) s

/-! #### SNAPSHOT (11 R253) -/

/-- The content of a section (11 Table MBOX-12b). -/
def sectionBytes (s : State) (i : Nat) : Bytes :=
  match i with
  | 0 => runStatus s
  | 1 => angleStatus s
  | 2 => loopStatus s
  | 3 => (List.range 128 ++ [0xFF]).flatMap (fun c => shotStatus c s)
  | 4 => (List.range 256).flatMap (fun c => recvStatus c s)
  | 5 => (List.range 32).flatMap (fun e => histStatus e s)
  | 6 => (List.range 128 ++ [0xFF]).flatMap (fun c => rejStatus c s)
  | 7 => (List.range 64).flatMap (dlvStatus s)
  | 8 => captStatus 0 s ++ captStatus 1 s
  | 9 => esStatus s
  | 10 => histInfo s
  | 11 => ringStatus s
  | 12 => (List.range 20).flatMap (laneStatus s)
  | 13 => hkReadResult 0 36 s
  | 14 => thStatus s
  | _ => memStatus s

/-- A section with its header. -/
def sectionBlock (s : State) (i : Nat) : Bytes := b2 i ++ b2 0 ++ b4 (sectionLen i) ++ sectionBytes s i

/-- The SNAPSHOT result (11 Table MBOX-12a); `valid` while a frame is in progress. -/
def snapshotResult (s : State) (sections : Nat) (valid : Bool) : Bytes :=
  b4 (frameNo s) ++ b2 (epochNo s) ++ b2 (b2n valid) ++ b8 (now s) ++ b8 s.time.v ++ b4 sections ++
    b4 (snapshotLen sections) ++ ((List.range 16).filter (bit sections)).flatMap (sectionBlock s)

/-- Latch the SNAPSHOTs that wait, all from the same state; none in the fatal state (12 Table GUAR-1). -/
def latchSnapshots (valid : Bool) (s : State) : State :=
  if s.power.fatal || s.mbx.snapshots.isEmpty then s
  else
    let rs := s.mbx.snapshots.map (fun k => (k.jseq, snapshotResult s k.sections valid))
    forEach rs (fun e s => finish e.1 (okWith e.2) s) { s with free := s.free + 1, mbx.snapshots := [] }

/-- SNAPSHOT (11 R253, 12 R277): it latches at the next frame boundary, or at once while no frame is in progress and die A
runs. -/
def execSnapshot (mb : Fin 8) (s : State) : Host.Outcome State Fault Refusal :=
  runCommand 0x0D03 mb (fun _ j p s =>
    match fixedPayload p 8 [(decide (u32 p 0 < 65536), 0), rsv p 4 4] with
    | some r => (s, some r)
    | none =>
      if dieAOverdue s then (s, some faulted)
      else if unframed s && s.power.dieA then
        ({ s with free := s.free + 1 }, some (okWith (snapshotResult s (u32 p 0) false)))
      else ({ s with mbx.snapshots := s.mbx.snapshots ++ [⟨j, acceptedOf s j, u32 p 0⟩] }, none)) s

/-! #### Without frames (11 R249) -/

/-- The oldest COMMIT applies by R249: the frame number does not change. -/
def applyUnframed (c : PendingCommit) (s : State) : State :=
  let p := planOf s c
  match commitCheck s p with
  | some x => failCommit c x s
  | none => passCommit c p (s.angle.frame + 1) (frameNo s) (nextEpoch s)

/-- The oldest COMMIT may apply without a boundary: die A runs, and no frame is in progress. -/
def appliesUnframed (s : State) (c : PendingCommit) : Bool :=
  s.power.main && s.power.dieA && !s.power.fatal && (unframed s || (c.free && !s.angle.inFrame))

/-- COMMIT_APPLY_STOPPED (11 R249): the oldest COMMIT applies without a boundary, and waiting SNAPSHOTs latch. -/
def execCommitApplyStopped (s : State) : Host.Outcome State Fault Refusal :=
  .next <|
    let s1 := if unframed s && s.power.dieA then latchSnapshots false s else s
    match s1.mbx.commits with
    | [] => s1
    | c :: _ => if appliesUnframed s1 c then applyUnframed c s1 else s1

/-- The predictor has left ACQUIRE: the COMMITs that waited for R249's 1 ms apply at that instant, oldest first. -/
def leaveAcquire (s : State) : State :=
  forEach s.mbx.commits (fun c s => if c.free && !s.power.fatal then applyUnframed c s else s) s

/-- An index event (02 R37, R38), with what leaving ACQUIRE brings (11 R249). -/
def indexEvent (ti64 u64 : Nat) (s : State) : State :=
  let s1 := takeIndex ti64 u64 s
  if s.angle.pred = .acquire ∧ s1.angle.pred ≠ .acquire then leaveAcquire s1 else s1

/-- INDEX_EDGE (02 R37): an edge of the INDEX pin at tick `ti`, answered within 40 ns. -/
def execIndexEdge (rising : Bool) (ti : Nat) (s : State) : Host.Outcome State Fault Refusal :=
  .next <|
    if !s.power.dieA || s.set.index.source ≠ (if rising then 0 else 1) || ti + 40 < now s then s
    else
      match uAt64 s (64 * ti) with
      | some u64 => indexEvent (64 * ti) u64 s
      | none => s

/-- A qualifying crossing of the unit of stream `pick`, at `at64` in 1/64 ns, feeds the ROTOR_SINGLE measurement and the
index correction, within 2,000 ns of it (09 R196, 02 R37, 03 Table LOOP-1). -/
def pickEvent (pick : Nat) (rising : Bool) (at64 : Nat) (s : State) : State :=
  let s1 := if pick = 0 ∧ rising = true then singleCrossing at64 s else s
  if s.set.index.source ≠ 2 + 2 * pick + b2n (!rising) || !s.power.dieA || decide (at64 + 128000 < 64 * now s) then s1
  else
    match uAt64 s1 at64 with
    | some u => indexEvent at64 u s1
    | none => s1

/-- The crossing that the sample `v` ends on a stream trigger unit, if its hysteresis of 16 codes lets it qualify (09 R195,
R196). -/
def pickQualified (level : Int) (x : PickUnit) (v : Int) : Option (Bool × Nat) :=
  match x.last with
  | none => none
  | some x0 =>
    match crossingOf x0 v level with
    | some (rising, f) => if (if rising then x.low else x.high) then some (rising, f) else none
    | none => none

/-- A stream trigger unit tests the sample `v` of instant `n`, in ns (09 R196). -/
def pickSample (pick n : Nat) (v : Int) (s : State) : State :=
  let x := tabGet {} s.loop.picks pick
  let level := s.set.index.level
  if n < x.next then s
  else
    let q := pickQualified level x v
    let x1 : PickUnit :=
      { last := some v
        low := (x.low && !q.isSome) || decide (v + 16 ≤ level)
        high := (x.high && !q.isSome) || decide (level + 16 ≤ v)
        next := n + 50 }
    let s1 := { s with loop.picks := tabSet {} s.loop.picks pick x1 }
    match q with
    | some (rising, f) => pickEvent pick rising (64 * (n - 50) + 50 * f) s1
    | none => s1

/-- A stream trigger unit tests samples in turn, 50 ns apart, the first at instant `n`. -/
def pickSamples (pick : Nat) : Nat → List (BitVec 14) → State → State
  | _, [], s => s
  | n, v :: l, s => pickSamples pick (n + 50) l (pickSample pick n v.toInt s)

/-- PICK_CROSSING (09 R196, 02 R37): samples of a raw PICK stream, the last at `t` ns. They reach back to the first sample
that the unit has not yet tested, so that its hysteresis has seen them all. -/
def execPickCrossing (pick : Fin 2) (t : Nat) (samples : List (BitVec 14)) (s : State) :
    Host.Outcome State Fault Refusal :=
  .next <|
    let x := tabGet {} s.loop.picks pick.val
    if s.power.main && decide (t ≤ now s ∧ 50 * samples.length ≤ t + 50 ∧ t + 50 ≤ x.next + 50 * samples.length ∧
        (x.last = none ∨ t % 50 = x.next % 50)) then
      pickSamples pick.val (t + 50 - 50 * samples.length) samples s
    else s

/-! #### The frame boundary (02 R28 to R30, 11 R248) -/

/-- The column boundaries of the frame of `v` from number `k` on that pass a test are crossed, in ascending order. -/
def crossLeft (v : State) (k : Nat) (p : Nat → Bool) (s : State) : State :=
  forUpto 2049 (fun c s => if decide (k ≤ c) && p c then crossColumn v c s else s) s

/-- A column boundary of the frame in progress was crossed on a tick before that of the frame boundary. -/
def crossedEarlier (s : State) (c : Nat) : Bool :=
  !afterFrame s c && decide (turn * s.angle.frame + colEntry s.set.columns c ≤ uPrev s)

/-- A LOCKED predictor without a correction in four frames, and a COARSE one with a good correction in the interval (02
R42, R476). The four frames are judged at the boundary that ends the fourth, when no correction can be attributed to it
any more (DESIGN CHOICE, log 96). A predictor that locks without updates for three control periods is in HOLDOVER at once
(R36). -/
def judgeAngle (s : State) : State :=
  let a := s.angle
  let n := if !a.inFrame || (tabGet {} a.attr a.frame).corrected then 0 else min 4 (a.uncorrected + 1)
  let s1 := { s with angle.uncorrected := n }
  let s2 :=
    if a.pred = .locked ∧ n = 4 then setPred .coarse { s1 with angle.uncorrected := 0 }
    else if a.pred = .coarse ∧ 0 < a.ivCount ∧ a.ivBad = false then setPred .locked s1
    else s1
  let s3 := if s2.angle.pred = .locked ∧ 3 ≤ s2.angle.missed then setPred .holdover s2 else s2
  { s3 with angle.ivCount := 0, angle.ivBad := false }

/-- A frame whose tiles have not all left die A. -/
def frameAlive (s : State) (f : Nat) : Bool :=
  s.eng.tiles.any (fun t => t.frame == f) || s.dlv.link.any (fun x => x.frame == f) ||
    s.dlv.slots.any (fun x => x.frame == f)

/-- The new frame's number and what is kept per frame. -/
def openFrame (s : State) : State :=
  { s with
    angle.frame := s.angle.frame + 1
    angle.opened := true
    angle.inFrame := true
    angle.nextCol := 0
    angle.attr := s.angle.attr.filter (fun e => decide (s.angle.frame ≤ e.1) || frameAlive s e.1)
    dlv.decimated := s.dlv.decimated.filter (fun f => decide (s.angle.frame ≤ f) || frameAlive s f) }

/-- A newly assigned code block applies, and FAMILY_RANGE clears when its cause has gone (07 R164, R165). -/
def applyBlock (s : State) : State :=
  match s.eng.blockNew with
  | some b =>
    logEv 0x0401 b (s.angle.frame % turn) 0
      { s with eng.block := b, eng.blockNew := none, eng.blockSet := true, eng.blockFrame := s.angle.frame % turn }
  | none => s

/-- FAMILY_RANGE clears at a boundary when its cause has gone (07 R164). -/
def clearFamilyRange (s : State) : State :=
  if (familyBeyond s).isNone then { s with eng.familyRange := false } else s

/-- The COMMIT due at this boundary: the oldest, accepted at least 2 ms ago (11 R248). -/
def commitDue (s : State) : Option PendingCommit :=
  match s.mbx.commits with
  | c :: _ => if c.tick + 2000000 ≤ now s ∧ s.power.fatal = false then some c else none
  | [] => none

/-- The due COMMIT and the assigned block apply at the boundary, with one epoch increment (11 R248, 07 R165). -/
def applyBoundary (s : State) : State :=
  let s0 := if s.eng.blockNew.isSome then nextEpoch s else s
  match commitDue s with
  | none => clearFamilyRange (applyBlock s0)
  | some c =>
    let p := planOf s c
    match commitCheck s p with
    | some x => clearFamilyRange (failCommit c x (applyBlock s0))
    | none =>
      clearFamilyRange (applyBlock (passCommit c p s.angle.frame (s.angle.frame % turn) (nextEpoch s)))

/-- A course's dither, slot width, allowance and enables at the boundary (04 R82, R84, R92, R98; 07 R160). -/
def openCourse (c : Nat) (s : State) : State :=
  modCourse c (fun x => { x with
    dither := ditherStart (familyOf s c)
    slotCounts := slotCountsOf s (progOf s c)
    cap := capOf s c }) s

/-- The lane count judged at the boundary (14 Table LANE-5). -/
def judgeLanes (s : State) : State :=
  let n := laneCount s.lanes.maskAB
  { s with lanes.decimate := if 6 ≤ n then 0 else if 4 ≤ n then 1 else 2 }

/-- The scheduler, the permit pair's grant and the heartbeat hold are taken up at the boundary (04 R92, 10 R222, 01
R18). -/
def openGates (s : State) : State :=
  { s with
    shot.enabled := s.shot.enabled || s.shot.enablePending
    shot.enablePending := false
    shot.granted := s.es.permit
    shot.hold := s.shot.hold && !(decide (64 ≤ s.shot.beats) && beatFresh s) }

/-- The frame's header records and its plane, with TIME_STEPPED where it is due (08 R172, R183, R185). -/
def headFrame (s : State) : State :=
  let step := s.time.stepFlag
  let s1 := takePlane step (openArrivals { s with time.stepFlag := false })
  if delivers s1 then commitHeaders step s1 else s1

/-- The crossing of a frame boundary, in the order of 02 R29: columns crossed on an earlier tick, the frame boundary's own
effects, then the columns of the old frame crossed on this tick. -/
def crossFrame (s : State) : State :=
  let s1 := if s.angle.inFrame then crossLeft s s.angle.nextCol (crossedEarlier s) s else s
  let s2 := if delivers s1 && s1.lanes.mortarUp then flushRecords s1 else s1
  let s3 := judgeAngle (if s.angle.inFrame then logGoverned s2 else s2)
  let s4 := applyBoundary (openFrame s3)
  let s5 := openGates (judgeLanes (eachCourse openCourse s4))
  let s6 := latchSnapshots true (headFrame s5)
  if s.angle.inFrame then
    let s7 := crossLeft s1 s1.angle.nextCol (fun c => !crossedEarlier s c) s6
    { s7 with angle.nextCol := 0 }
  else s6

/-- FRAME_BOUNDARY (02 R30): U reaches the next multiple of 2^32 outside STOPPED and ACQUIRE, with die A running. -/
def execFrameBoundary (s : State) : Host.Outcome State Fault Refusal :=
  .next (if frameDue s then crossFrame s else s)

end Sys2Proof.Machine
end

