-- ==== Sys2Proof/Machine/RegisterMap.lean ====
section
/-! DEFINITION. What every register of BAR0 reads (21 Tables REGS-1 to REGS-15, 11 Tables MBOX-1 to MBOX-3), and the
64-bit values read as two halves (00 R14, 12 R288, 21 R462). -/

namespace Sys2Proof.Machine

open Sys2Proof

/-! #### Identity and global status (21 Tables REGS-2 to REGS-6) -/

/-- ID_REVISION (21 Table REGS-3): the firmware fields stand while Sornor runs. -/
def idRevision (s : State) : Nat := if s.power.phase = .ready then 0x020404B1 else 0xB1

/-- ID_GLOBAL_STATUS (21 R463, Table REGS-4). -/
def globalStatus (s : State) : Nat :=
  bitmap [false, sornor s, s.mbx.session, s.mbx.armed, s.power.dieA, s.lanes.mortarUp, inHostLoad s, s.th.shut,
    bit (esNo s.es.run) 0, bit (esNo s.es.run) 1, decide (s.mem.retired ≠ 0), ringMember s] +
    2 ^ 31 * b2n s.power.fatal

/-- ID_ERROR (21 Table REGS-5). -/
def idError (s : State) : Nat := bitmap [s.pcie.stalePair, s.pcie.badAccess, s.pcie.timeCmdIgnored]

/-- ID_BOOT_STATUS.STATE (21 Table REGS-6). -/
def bootState (s : State) : Nat :=
  match s.power.phase with
  | .off | .rom => 0
  | .hostWait => 1
  | .hostVerify => 2
  | .started | .ready => 3
  | .hostReject => 4

/-- ID_BOOT_STATUS (21 Table REGS-6, R464). -/
def bootStatus (s : State) : Nat := bootState s + 256 * s.power.chunks

/-- The identity block. -/
def idRead (s : State) (off : Nat) : Nat :=
  match off with
  | 0x00 => 0x42560000 + Config.vendorId % 2 ^ 16
  | 0x04 => idRevision s
  | 0x08 => u32 uidBytes 0
  | 0x0C => u32 uidBytes 4
  | 0x10 => u32 uidBytes 8
  | 0x14 => u32 uidBytes 12
  | 0x20 => globalStatus s
  | 0x24 => idError s
  | 0x30 => s.nv.hours % 2 ^ 32
  | 0x34 => s.nv.pcycles % 2 ^ 24
  | 0x40 => bootStatus s
  | _ => 0

/-! #### Interrupts and MSI-X (21 Tables REGS-7, REGS-8) -/

/-- IRQ_MAP of four sources; the bytes of sources 22 to 31 read 0. -/
def irqMapRead (s : State) (n : Nat) : Nat :=
  leTake 4 ((List.range 4).map (fun m => BitVec.ofNat 8 (if 4 * n + m < 22 then irqVector s (4 * n + m) else 0)))

/-- The interrupt block; offsets count from 0x1000. -/
def irqRead (s : State) (off : Nat) : Nat :=
  if off < 0x400 then
    let e := tabGet {} s.pcie.msix (off / 16)
    match off % 16 with
    | 0 => e.addr % 2 ^ 32
    | 4 => e.addr / 2 ^ 32
    | 8 => e.data
    | _ => b2n e.masked
  else if off = 0x400 then s.pcie.pba % 2 ^ 32
  else if off = 0x404 then s.pcie.pba / 2 ^ 32
  else if off = 0x800 then s.pcie.irqCause
  else if off = 0x804 then s.pcie.irqEnable
  else if 0x840 ≤ off ∧ off < 0x860 then irqMapRead s ((off - 0x840) / 4)
  else 0

/-! #### Mailboxes (11 Tables MBOX-1 to MBOX-3) -/

/-- STATE of a mailbox. -/
def mbxNo : MbxStatus → Nat
  | .free => 0 | .posted => 1 | .accepted => 2 | .done => 3

/-- MBX_CPL (11 Table MBOX-3). -/
def completionArea (b : Mailbox) : Bytes :=
  b1 (mbxNo b.state) ++ b1 b.cflags ++ b2 b.status ++ b2 b.origStatus ++ b2 b.opcode ++ b8 b.hostSeq ++ b8 b.lastSeq ++
    b4 b.resultLen ++ b4 b.detail ++ b2 b.epoch ++ b2 0 ++ b4 b.frame ++ b8 b.hostTag ++ b8 b.acceptTb ++ b8 0

/-- A mailbox block; MBX_DOORBELL and the reserved rest read 0. -/
def mbxRead (s : State) (m off : Nat) : Nat :=
  if off < 0x40 then u32 (box s m).hdr off else if off < 0x80 then u32 (completionArea (box s m)) (off - 0x40) else 0

/-! #### Hod channels (21 Tables REGS-9, REGS-10, 15 Table HOST-4) -/

/-- HOD_STATUS.STATE. -/
def hodNo : HodRun → Nat
  | .idle => 0 | .running => 1 | .endHalt => 2 | .error => 3 | .aborting => 4

/-- HOD_STATUS (15 Table HOST-4): a device-owned channel is RUNNING. -/
def hodStatus (x : HodChannel) : Nat :=
  (if x.deviceOwned then 1 else hodNo x.state) + 8 * b2n x.ordered + 16 * b2n x.pending + 32 * b2n x.resetStopped +
    64 * b2n x.deviceOwned + 256 * x.errCode

/-- Half `h` of a 64-bit value, the low half first. -/
def halfOf (v h : Nat) : Nat := v / 2 ^ (32 * h) % 2 ^ 32

/-- A Hod channel block. -/
def hodRead (x : HodChannel) (off : Nat) : Nat :=
  let h := off / 4 % 2
  match off / 8 with
  | 0 => if h = 0 then x.ctrl else hodStatus x
  | 1 => halfOf x.first h
  | 2 => halfOf x.skip h
  | 4 => halfOf x.haltAddr h
  | 5 => halfOf x.lastDone h
  | 6 => halfOf x.nextBytes h
  | 7 => halfOf x.errAddr h
  | 8 => halfOf x.bytes h
  | 9 => halfOf x.descs h
  | 10 => if h = 0 then x.ignored else 0
  | _ => 0

/-! #### Memory and ECC (21 Table REGS-11) -/

/-- The memory block; the fields of training read 0 until it ends. -/
def memRead (s : State) (off : Nat) : Nat :=
  if 0x100 ≤ off then u32 (ceEntry s ((off - 0x100) / 16)) (off % 16)
  else
    match off with
    | 0x00 => s.mem.gib + 256 * s.mem.rate
    | 0x04 => s.mem.inService + 16 * s.mem.retired
    | 0x08 => s.dlv.depth
    | 0x10 => halfOf s.mem.ceTotal 0
    | 0x14 => halfOf s.mem.ceTotal 1
    | 0x18 => s.mem.ueTotal
    | 0x1C => s.mem.rmw
    | 0x20 => s.mem.fallbacks
    | 0x24 => s.mem.sramCe
    | 0x28 => s.mem.sramUe
    | 0x2C => s.mem.ce.length
    | 0x30 => s.mem.overflow
    | 0x38 => halfOf s.mem.lastUeAddr 0
    | 0x3C => halfOf s.mem.lastUeAddr 1
    | 0x40 => s.mem.lastUeHours
    | _ => 0

/-! #### The window, the log, the lanes (21 Table REGS-12, R469) -/

/-- The BAR2 window block. -/
def winRead (s : State) (off : Nat) : Nat :=
  match off with
  | 0 => 2 ^ 20 * s.pcie.winLo
  | 4 => s.pcie.winHi
  | 8 => s.pcie.winProtected
  | _ => 0

/-- The event log window: an index not yet stored reads 0. -/
def logRead (s : State) (off : Nat) : Nat := u32 (tabGet [] s.log.records (off / 32)) (off % 32)

/-- The lane diagnostics. -/
def laneRead (s : State) (off : Nat) : Nat := if off < 0x500 then u32 (laneStatus s (off / 64)) (off % 64) else 0

/-! #### Housekeeping and thermal mirrors (21 Table REGS-13) -/

/-- TH_LEVEL: the device level, then the flags of TH_STATUS. -/
def thLevel (s : State) : Nat := s.th.level + 4 * thFlags s

/-- The housekeeping and thermal block. -/
def hkRegRead (s : State) (off : Nat) : Nat :=
  if 0x100 ≤ off ∧ off < 0x580 then u32 s.hk.mirror (off - 0x100)
  else if 0x810 ≤ off ∧ off < 0x840 then
    let i := (off - 0x810) / 4
    unsigned 16 ((sensor s i).last.getD 0) + 2 ^ 16 * sensorState s i
  else
    match off with
    | 0x004 => s.hk.latchSeq
    | 0x008 => s.hk.latchRound
    | 0x00C => b2n s.hk.latchPending
    | 0x800 => thLevel s
    | 0x804 => halvedMap s
    | 0x808 => unsigned 16 (s.th.diodeA.getD 0)
    | 0x80C => s.th.shutdowns
    | _ => 0

/-! #### Vehicle time (21 Tables REGS-14, REGS-15) -/

/-- TIME_STATUS. -/
def timeStatus (s : State) : Nat :=
  bitmap [s.time.valid, s.time.disciplined, s.time.loadPending, s.time.stepped, fromRing s]

/-- The vehicle time block. -/
def timeRead (s : State) (off : Nat) : Nat :=
  match off with
  | 0x00 => halfOf s.time.v 0
  | 0x04 => halfOf s.time.v 1
  | 0x08 => halfOf s.time.set 0
  | 0x0C => halfOf s.time.set 1
  | 0x14 => b2n s.time.discipline
  | 0x18 => timeStatus s
  | 0x1C => unsigned 32 (max (-2147483647) (min s.time.lastE 2147483647))
  | 0x20 => unsigned 32 s.time.trim
  | 0x24 => s.time.edges
  | 0x28 => halfOf s.time.ppsAt 0
  | 0x2C => halfOf s.time.ppsAt 1
  | _ => 0

/-! #### The whole of BAR0 (21 Table REGS-1, R460) -/

/-- What the aligned 4-byte register at a BAR0 offset outside payload SRAM reads, no shadow considered. Reserved offsets
read 0, and in host load every offset outside the identity block. -/
def regRead (s : State) (off : Nat) : Nat :=
  if off < 0x1000 then idRead s off
  else if !bar0Served s then 0
  else if off < 0x2000 then irqRead s (off - 0x1000)
  else if off < 0x10000 then 0
  else if off < 0x18000 then mbxRead s ((off - 0x10000) / 0x1000) (off % 0x1000)
  else if off < 0x80000 then 0
  else if off < 0x80800 then hodRead (hod s ((off - 0x80000) / 0x100)) (off % 0x100)
  else if off < 0x90000 then 0
  else if off < 0x90300 then memRead s (off - 0x90000)
  else if off < 0xA0000 then 0
  else if off < 0xB0000 then winRead s (off - 0xA0000)
  else if off < 0xB8000 then logRead s (off - 0xB0000)
  else if off < 0xC0000 then 0
  else if off < 0xD0000 then laneRead s (off - 0xC0000)
  else if off < 0xE0000 then hkRegRead s (off - 0xD0000)
  else if off < 0xF0000 then timeRead s (off - 0xE0000)
  else 0

/-! #### Two-half pairs (00 R14, 12 R288, 21 R462) -/

/-- BAR0 offset of a pair's low half. -/
def pairOffset : Pair2H → Nat
  | .hodHaltAddr k => 0x80020 + 0x100 * k.val
  | .hodLastDone k => 0x80028 + 0x100 * k.val
  | .hodNextBytes k => 0x80030 + 0x100 * k.val
  | .hodErrAddr k => 0x80038 + 0x100 * k.val
  | .hodBytes k => 0x80040 + 0x100 * k.val
  | .hodDescs k => 0x80048 + 0x100 * k.val
  | .eccCeTotal => 0x90010
  | .eccLastUeAddr => 0x90038
  | .eccEntryAddr i => 0x90100 + 16 * i.val
  | .laneBlocks j => 0xC0010 + 0x40 * j.val
  | .timeNow => 0xE0000
  | .timePpsAt => 0xE0028

/-- The pair of every shadow. -/
def allPairs : List Pair2H :=
  (List.finRange 8).map .hodHaltAddr ++ (List.finRange 8).map .hodLastDone ++ (List.finRange 8).map .hodNextBytes ++
    (List.finRange 8).map .hodErrAddr ++ (List.finRange 8).map .hodBytes ++ (List.finRange 8).map .hodDescs ++
    [.eccCeTotal, .eccLastUeAddr] ++ (List.finRange 32).map .eccEntryAddr ++ (List.finRange 20).map .laneBlocks ++
    [.timeNow, .timePpsAt]

/-- The live value of a pair. -/
def pairValue (s : State) (p : Pair2H) : Nat := regRead s (pairOffset p) + 2 ^ 32 * regRead s (pairOffset p + 4)

/-- The shadow of a pair, if a low half was read and its high half was not since. -/
def shadowOf (s : State) (p : Pair2H) : Option Nat := tabGet none s.pcie.shadows (pairOffset p)

/-- Set or discard a pair's shadow. -/
def setShadow (p : Pair2H) (v : Option Nat) (s : State) : State :=
  { s with pcie.shadows := tabSet none s.pcie.shadows (pairOffset p) v }

/-- TWO_HALF_LOW_READ (12 R288): the low half latches the high half; one 8-byte read of both leaves the shadow. -/
def execTwoHalfLowRead (p : Pair2H) (wide : Bool) (s : State) : Host.Outcome State Fault Refusal :=
  .next <|
    if !bar0Up s then s
    else if wide then emit (.completion (b8 (pairValue s p)) false) s
    else if !bar0Served s then emit (.completion (b4 0) false) s
    else
      emit (.completion (b4 (regRead s (pairOffset p))) false) (setShadow p (some (regRead s (pairOffset p + 4))) s)

/-- TWO_HALF_HIGH_READ (00 R14): the high half is the shadow, which it consumes, or the live value with STALE_PAIR. -/
def execTwoHalfHighRead (p : Pair2H) (s : State) : Host.Outcome State Fault Refusal :=
  .next <|
    if !bar0Up s then s
    else if !bar0Served s then emit (.completion (b4 0) false) s
    else
      match shadowOf s p with
      | some v => emit (.completion (b4 v) false) (setShadow p none s)
      | none =>
        emit (.completion (b4 (regRead s (pairOffset p + 4))) false) { s with pcie.stalePair := true }

end Sys2Proof.Machine
end

