-- ==== Sys2Proof/Machine/Session.lean ====
section
/-! DEFINITION. The session commands (11 R254 to R257) and the firmware update (19 R436, R437), with the checks of an
image (19 R431). -/

namespace Sys2Proof.Machine

open Sys2Proof

/-! #### HELLO, GOODBYE and NOP (11 R255 to R257) -/

/-- Bit m: mailbox m is POSTED or ACCEPTED. -/
def busyBoxes (s : State) : Nat :=
  bitmapOf 8 (fun m => decide ((box s m).state = .posted ∨ (box s m).state = .accepted))

/-- The HELLO result (11 Table MBOX-14b). -/
def helloResult (s : State) : Bytes :=
  b1 0xB1 ++ b1 4 ++ b1 4 ++ b1 2 ++ b2 Config.fwPatch ++ b1 s.power.image ++ b1 (b2n s.mbx.armed) ++ uidBytes ++
    b4 (if dramUsable s then s.mem.gib else 0) ++ b4 s.dlv.depth ++ b2 (if ringMember s then ownNode s else 0) ++
    b2 (epochNo s) ++ b4 (frameNo s) ++ b4 s.nv.hours ++ b3 s.nv.pcycles ++ b1 0 ++ b4 s.power.resets ++
    b4 (busyBoxes s) ++ (List.range 8).flatMap (fun m => b8 (box s m).lastSeq) ++ b8 0

/-- HELLO's effect: its result comes in every case, and a HELLO refused changes nothing else (11 R244, R255). -/
def hello (o : Origin) (p : Bytes) (s : State) : State × Option Reply :=
  let r := helloResult s
  match fixedPayload p 8 [(decide (u8 p 0 = 4), 0), rsv p 1 3] with
  | some bad => (s, some { bad with result := r })
  | none =>
    (logEv 0x0103 (u32 p 4) (originBox o) 0 { s with mbx.session := true, power.resets := 0 }, some (okWith r))

/-- HELLO (11 R255, R256). -/
def execHello (mb : Fin 8) (s : State) : Host.Outcome State Fault Refusal :=
  runCommand 0x0101 mb (fun o _ p s => hello o p s) s

/-- GOODBYE (11 R257): the session closes once the command is DONE. -/
def execGoodbye (mb : Fin 8) (s : State) : Host.Outcome State Fault Refusal :=
  runCommand 0x0102 mb (fun _ j p s =>
    match fixedPayload p 0 [] with
    | some bad => (s, some bad)
    | none => (closeSession 0xFF (finish j ok s), none)) s

/-- NOP (11 R257): its payload is its result. -/
def execNop (mb : Fin 8) (s : State) : Host.Outcome State Fault Refusal :=
  runCommand 0x0103 mb (fun _ _ p s => (s, some (if p.length ≤ 256 then okWith p else badLength))) s

/-! #### Images in flash (19 R430, R431) -/

/-- A flash slot: 0 image A, 1 image B. -/
def slotOf (s : State) (k : Nat) : FlashSlot := tabGet {} s.power.slots k

/-- The bytes written to a slot since its last erase, over erased bytes. -/
def slotImage (x : FlashSlot) : Bytes :=
  let n := listMax (x.parts.map (fun e => e.1 + e.2.length))
  x.parts.foldr (fun e acc => overwrite acc e.1 e.2) (List.replicate n 0xFF)

/-- The security version of the image in a slot. -/
def slotSvn (s : State) (k : Nat) : Nat :=
  let x := slotOf s k
  if x.parts.isEmpty then Config.factorySvn k else Config.imageSvn (slotImage x)

/-- What R431 finds of an image: 0 verified, 1 header, 2 key hash, 3 signature, 4 SVN below the OTP minimum. -/
def verdict (checks svn minSvn : Nat) : Nat := if checks % 4 ≠ 0 then checks % 4 else if svn < minSvn then 4 else 0

/-- What R431 finds of a slot; the image it holds as manufactured passes every check but that of its SVN (log 37). -/
def slotVerdict (s : State) (k : Nat) : Nat :=
  let x := slotOf s k
  verdict (if x.parts.isEmpty then 0 else Config.imageVerdict (slotImage x)) (slotSvn s k) s.power.minSvn

/-! #### FW_IMAGE_WRITE (19 R436) -/

/-- The fields of FW_IMAGE_WRITE's fixed part. -/
def imageWriteFields (p : Bytes) : List (Bool × Nat) :=
  [(decide (u8 p 0 ≤ 1), 0), (decide (u8 p 1 ≤ 3), 1), rsv p 2 2, (decide (u32 p 4 % 256 = 0), 4),
    (within 1 (u32 p 8) 65536, 8), rsv p 12 4]

/-- One part is written; with LAST the slot is verified. -/
def writeImage (p : Bytes) (s : State) : State × Reply :=
  let k := u8 p 0
  let off := u32 p 4
  let n := u32 p 8
  if k = s.power.image then (s, busyEpoch)
  else if 2 ^ 23 < off + n then (s, badField (if 2 ^ 23 ≤ off then 4 else 8))
  else
    let old := if bit (u8 p 1) 0 then [] else (slotOf s k).parts
    let x : FlashSlot := { parts := (off, slice p 16 n) :: old, verified := false }
    let s1 := { s with power.slots := tabSet {} s.power.slots k x }
    if bit (u8 p 1) 1 then
      let v := slotVerdict s1 k
      ({ s1 with power.slots := tabSet {} s1.power.slots k { x with verified := decide (v = 0) } },
        ⟨if v = 0 then 0 else 0x40, 0, b4 v, 0⟩)
    else (s1, ok)

/-- FW_IMAGE_WRITE (19 R436). -/
def execFwImageWrite (mb : Fin 8) (s : State) : Host.Outcome State Fault Refusal :=
  runCommand 0x0105 mb (fun _ _ p s =>
    checked (varPayload p 16 (imageWriteFields p) (16 + u32 p 8) []) s (fun _ => writeImage p s)) s

/-! #### FW_IMAGE_SELECT (19 R437) -/

/-- A boot record copy. -/
def bootRecord (s : State) (k : Nat) : BootRecord := tabGet {} s.power.records k

/-- The boot record copy that counts: the valid one with the larger generation by R5 (19 R430). -/
def activeRecord (s : State) : Option Nat :=
  let a := bootRecord s 0
  let b := bootRecord s 1
  if a.valid && b.valid then some (if after 32 b.generation a.generation then 1 else 0)
  else if a.valid then some 0
  else if b.valid then some 1
  else none

/-- Write a boot record with the next generation over the copy that does not count. -/
def selectImage (p : Bytes) (s : State) : State × Reply :=
  let k := u8 p 0
  let raise := bit (u8 p 1) 0
  if !(slotOf s k).verified then (s, notArmed)
  else if raise && decide (k ≠ s.power.image) then (s, badField 1)
  else
    let (place, gen) := match activeRecord s with
      | some c => (1 - c, wrap32 ((bootRecord s c).generation + 1))
      | none => (0, 1)
    ({ s with
      power.records := tabSet {} s.power.records place ⟨true, gen, k⟩
      power.minSvn := if raise then max s.power.minSvn (slotSvn s k) else s.power.minSvn }, okWith (b4 gen))

/-- FW_IMAGE_SELECT (19 R437). -/
def execFwImageSelect (mb : Fin 8) (s : State) : Host.Outcome State Fault Refusal :=
  runCommand 0x0106 mb (fun _ _ p s =>
    checked (fixedPayload p 4 [(decide (u8 p 0 ≤ 1), 0), (decide (u8 p 1 ≤ 1), 1), rsv p 2 2]) s
      (fun _ => selectImage p s)) s

end Sys2Proof.Machine
end

