-- ==== Sys2Proof/Machine/Host.lean ====
section
/-! DEFINITION. What the host does over PCI Express besides the mailboxes: writes of registers (00 R11 to R13, 21 R460,
R461), interrupts (15 R350, 21 R465), payload SRAM (21 R466), accesses refused (15 R344), the BAR2 window (15 R346,
R347), and the image loaded by the host (19 R433). -/

namespace Sys2Proof.Machine

open Sys2Proof

/-! #### Interrupt registers (15 R350, 21 R465) -/

/-- A W1C write of IRQ_CAUSE; a source whose event arrives on the same clock stays set and sends its message. -/
def clearCause (mask : Nat) (arriving : Nat) (s : State) : State :=
  let kept := bitmapOf 22 (fun n => bit s.pcie.irqCause n && !bit mask n)
  forUpto 22 (fun n s => if bit arriving n then raiseIrq n s else s) { s with pcie.irqCause := kept }

/-- IRQ_CAUSE_CLEAR (15 R350). -/
def execIrqCauseClear (mask arriving : BitVec 32) (s : State) : Host.Outcome State Fault Refusal :=
  .next (if bar0Served s then clearCause mask.toNat arriving.toNat s else s)

/-- A write of IRQ_ENABLE: an enable bit newly set while its cause bit is 1 sends the mapped message. -/
def writeEnable (v : Nat) (s : State) : State :=
  let old := s.pcie.irqEnable
  forUpto 22 (fun n s =>
      if bit v n && !bit old n && bit s.pcie.irqCause n && irqVector s n != 0xFF then msixSend (irqVector s n) s else s)
    { s with pcie.irqEnable := v % 2 ^ 22 }

/-- IRQ_ENABLE_WRITE (15 R350). -/
def execIrqEnableWrite (value : BitVec 32) (s : State) : Host.Outcome State Fault Refusal :=
  .next (if bar0Served s then writeEnable value.toNat s else s)

/-- A write of IRQ_MAPn: a reserved vector keeps the previous value (00 R13), sources 22 to 31 have none. -/
def writeMap (n v : Nat) (s : State) : State :=
  forUpto 4 (fun m s =>
    let vec := field v (8 * m + 7) (8 * m)
    if 22 ≤ 4 * n + m ∨ (64 ≤ vec ∧ vec ≠ 0xFF) then s
    else { s with pcie.irqMap := tabSet 0xFF s.pcie.irqMap (4 * n + m) vec }) s

/-- IRQ_MAP_WRITE (21 R465). -/
def execIrqMapWrite (n : Fin 8) (value : BitVec 32) (s : State) : Host.Outcome State Fault Refusal :=
  .next (if bar0Served s then writeMap n.val value.toNat s else s)

/-- A write of a word of the MSI-X table; unmasking a vector whose pending bit is set sends its message (15 R349). -/
def writeMsix (off v : Nat) (s : State) : State :=
  let k := off / 16
  let s1 := { s with
    pcie.msix := tabMod {} s.pcie.msix k (fun e =>
      match off % 16 with
      | 0 => { e with addr := e.addr / 2 ^ 32 * 2 ^ 32 + v }
      | 4 => { e with addr := e.addr % 2 ^ 32 + 2 ^ 32 * v }
      | 8 => { e with data := v }
      | _ => { e with masked := bit v 0 }) }
  if off % 16 = 12 then sendPending k s1 else s1

/-! #### The BAR2 window (15 R346, R347) -/

/-- WIN_BASE_LO is written: the base applies with the WIN_BASE_HI held. -/
def writeWinLo (v : Nat) (s : State) : State :=
  let lo := v / 2 ^ 20 % 2 ^ 12
  { s with pcie.winLo := lo, pcie.winBase := 2 ^ 32 * s.pcie.winHi + 2 ^ 20 * lo }

/-- WIN_BASE_HI is written: it is held. -/
def writeWinHi (v : Nat) (s : State) : State := { s with pcie.winHi := v % 2 ^ 5 }

/-- WIN_BASE_LO_WRITE (15 R346); an 8-byte write sets both halves at once. -/
def execWinBaseLoWrite (value : BitVec 32) (hi : Option (BitVec 32)) (s : State) : Host.Outcome State Fault Refusal :=
  .next <|
    if !bar0Served s then s
    else
      match hi with
      | some h => writeWinLo value.toNat (writeWinHi h.toNat s)
      | none => writeWinLo value.toNat s

/-- BAR2_READ (15 R347): data as corrected, with EP when a word is poisoned; none at or above the usable capacity. -/
def execBar2Read (offset len : Nat) (s : State) : Host.Outcome State Fault Refusal :=
  .next <|
    if !bar0Served s then s
    else if s.power.fatal || decide (usable s < s.pcie.winBase + offset + len) then emit .unsupported s
    else
      let (bs, bad, s1) := dramRead (s.pcie.winBase + offset) len s
      emit (.completion bs bad) s1

/-- Every byte of a range may be written by the host (16 R368). -/
def allWritable (s : State) (a n : Nat) : Bool := (List.range n).all (fun i => hostWritable s (a + i))

/-- BAR2_WRITE (15 R347): stored with merges as needed, refused in a device-owned region, unsupported above the usable
capacity. -/
def execBar2Write (offset : Nat) (bytes : List Byte) (s : State) : Host.Outcome State Fault Refusal :=
  .next <|
    let a := s.pcie.winBase + offset
    if !bar0Served s then s
    else if s.power.fatal || decide (usable s < a + bytes.length) then emit .aerUnsupported s
    else if allWritable s a bytes.length then dramWrite a bytes s
    else
      logEv 0x0B05 (a % 2 ^ 32) (a / 2 ^ 32) 0 { s with pcie.winProtected := sat32 (s.pcie.winProtected + 1) }

/-! #### Accesses of BAR0 (15 R344, 21 R461, R466) -/

/-- A BAR0 offset lies in payload SRAM. -/
def inPayload (off : Nat) : Bool := decide (0x40000 ≤ off ∧ off < 0x80000)

/-- An access of a size or alignment that is refused outside payload SRAM. -/
def badShape (off n : Nat) : Bool := !inPayload off && (decide (n ≠ 4 ∧ n ≠ 8) || decide (off % n ≠ 0))

/-- An access is refused, and BAD_ACCESS is set: a read completes with Unsupported Request, and a write is discarded and
reported through AER (15 R344, 21 Table REGS-5). -/
def refuseAccess (isWrite : Bool) (s : State) : State :=
  emit (if isWrite then .aerUnsupported else .unsupported) { s with pcie.badAccess := true }

/-- BAR0_BAD_ACCESS (15 R344): an access of a refused size or alignment outside payload SRAM, a read or a write. -/
def execBar0BadAccess (offset size : Nat) (isWrite : Bool) (s : State) : Host.Outcome State Fault Refusal :=
  .next <|
    if bar0Up s && badShape offset size then
      refuseAccess isWrite s
    else s

/-- PAYLOAD_SRAM_READ (21 R466): corrected bytes, or bytes as stored with EP, each counted. -/
def execPayloadSramRead (offset len : Nat) (s : State) : Host.Outcome State Fault Refusal :=
  .next <|
    if !bar0Up s then s
    else
      let (bs, bad, s1) := sramRead len offset s
      emit (.completion bs bad) s1

/-! #### Host load (19 R433, 21 R464) -/

/-- A write of ID_BOOT_CHUNK: in host load, waiting for a chunk, a part of the image is taken from payload SRAM. -/
def bootChunk (v : Nat) (s : State) : State :=
  let n := v % 2 ^ 18
  if s.power.phase ≠ .hostWait ∨ n = 0 then s
  else if 2 ^ 23 < s.power.loaded.length + n then { s with power.phase := .hostReject }
  else
    let (bs, _, s1) := sramRead n 0 s
    { s1 with
      power.loaded := s.power.loaded ++ bs
      power.chunks := min 255 (s.power.chunks + 1)
      power.phase := if bit v 31 then .hostVerify else .hostWait }

/-- ID_BOOT_CHUNK (19 R433, 21 R464). -/
def execIdBootChunk (value : BitVec 32) (s : State) : Host.Outcome State Fault Refusal :=
  .next (if bar0Up s then bootChunk value.toNat s else s)

/-- A write of ID_BOOT_RESET: in host load, the bytes loaded are discarded. -/
def bootReset (s : State) : State :=
  if inHostLoad s then { s with power.loaded := [], power.chunks := 0, power.phase := .hostWait } else s

/-- ID_BOOT_RESET (19 R433). -/
def execIdBootReset (s : State) : Host.Outcome State Fault Refusal := .next (if bar0Up s then bootReset s else s)

/-- HOST_LOAD_VERIFY_DONE (19 R431, R433): the image loaded starts, or is rejected. -/
def execHostLoadVerifyDone (s : State) : Host.Outcome State Fault Refusal :=
  .next <|
    if !bar0Up s || decide (s.power.phase ≠ .hostVerify) then s
    else if verdict (Config.imageVerdict s.power.loaded) (Config.imageSvn s.power.loaded) s.power.minSvn = 0 then
      { s with power.phase := .started, power.image := 2, power.startedAt := now s }
    else { s with power.phase := .hostReject }

/-! #### Writes of registers by their access types (00 R11 to R13) -/

/-- A 4-byte write in the identity block. -/
def writeId (off v : Nat) (s : State) : State :=
  match off with
  | 0x24 => { s with
      pcie.stalePair := s.pcie.stalePair && !bit v 0
      pcie.badAccess := s.pcie.badAccess && !bit v 1
      pcie.timeCmdIgnored := s.pcie.timeCmdIgnored && !bit v 2 }
  | 0x44 => bootChunk v s
  | 0x48 => bootReset s
  | _ => s

/-- A 4-byte write in the interrupt block; offsets count from 0x1000. -/
def writeIrq (off v : Nat) (s : State) : State :=
  if off < 0x400 then writeMsix off v s
  else if off = 0x800 then clearCause v 0 s
  else if off = 0x804 then writeEnable v s
  else if 0x840 ≤ off ∧ off < 0x860 then writeMap ((off - 0x840) / 4) v s
  else s

/-- A 4-byte write in a mailbox block (11 R236, R245). -/
def writeMbx (m off v : Nat) (s : State) : State :=
  let busy := decide ((box s m).state = .posted ∨ (box s m).state = .accepted)
  if off < 0x40 then
    let s1 := modBox m (fun b => { b with hdr := overwrite b.hdr off (b4 v) }) s
    if busy then misuse m 3 s1 else s1
  else if off < 0x80 then misuse m 10 s
  else if off = 0x80 then doorbell m v s
  else s

/-- A 4-byte write in a Hod channel block (15 Table HOST-3). -/
def writeHod (k off v : Nat) (s : State) : State :=
  match off with
  | 0x00 => hodConfigWrite k .ctrl v s
  | 0x08 => hodConfigWrite k .firstLo v s
  | 0x0C => hodConfigWrite k .firstHi v s
  | 0x10 => hodConfigWrite k .skipLo v s
  | 0x14 => hodConfigWrite k .skipHi v s
  | 0x18 => hodDoorbell k s
  | 0x1C => hodAbort k s
  | _ => s

/-- A write of TIME_CMD (21 R472, R473). -/
def timeCommand (action : Nat) (s : State) : State :=
  match action with
  | 1 => { s with time := loadTime s.time.set s.time }
  | 2 => if fromRing s then { s with pcie.timeCmdIgnored := true } else { s with time.loadPending := true }
  | 3 => { s with time.loadPending := false }
  | _ => s

/-- A 4-byte write in the vehicle time block (21 Tables REGS-14, REGS-15). -/
def writeTime (off v : Nat) (s : State) : State :=
  match off with
  | 0x08 => { s with time.set := s.time.set / 2 ^ 32 * 2 ^ 32 + v }
  | 0x0C => { s with time.set := s.time.set % 2 ^ 32 + 2 ^ 32 * v }
  | 0x10 => timeCommand (v % 4) s
  | 0x14 => { s with time.discipline := bit v 0 }
  | 0x18 => { s with time.stepped := s.time.stepped && !bit v 3 }
  | _ => s

/-- A 4-byte write at an aligned offset outside payload SRAM; RO and reserved registers ignore it (00 R11, R12). -/
def regWrite (off v : Nat) (s : State) : State :=
  if off < 0x1000 then writeId off v s
  else if !bar0Served s then s
  else if off < 0x2000 then writeIrq (off - 0x1000) v s
  else if off < 0x10000 then s
  else if off < 0x18000 then writeMbx ((off - 0x10000) / 0x1000) (off % 0x1000) v s
  else if off < 0x80000 then s
  else if off < 0x80800 then writeHod ((off - 0x80000) / 0x100) (off % 0x100) v s
  else if off = 0xA0000 then writeWinLo v s
  else if off = 0xA0004 then writeWinHi v s
  else if off = 0xD0000 then { s with hk.latchPending := true }
  else if 0xE0000 ≤ off ∧ off < 0xE0030 then writeTime (off - 0xE0000) v s
  else s

/-- REGISTER_WRITE (00 R11, 21 R461): a host write to BAR0. An 8-byte write acts as two of 4 bytes, the lower address
first, except that one of WIN_BASE applies both halves together. -/
def execRegisterWrite (offset : Nat) (bytes : List Byte) (s : State) : Host.Outcome State Fault Refusal :=
  .next <|
    let n := bytes.length
    if !bar0Up s || decide (2 ^ 20 < offset + n) then s
    else if inPayload offset then sramWrite (offset - 0x40000) bytes s
    else if badShape offset n then refuseAccess true s
    else if n = 4 then regWrite offset (u32 bytes 0) s
    else if offset = 0xA0000 then regWrite offset (u32 bytes 0) (regWrite (offset + 4) (u32 bytes 4) s)
    else regWrite (offset + 4) (u32 bytes 4) (regWrite offset (u32 bytes 0) s)

end Sys2Proof.Machine
end

