-- ==== Sys2Proof/Machine/Log.lean ====
section
/-! DEFINITION. The log writer, its rate limit, operating hours and the 0x0Cxx commands (18 R411 to R422). -/

namespace Sys2Proof.Machine

open Sys2Proof

/-! #### The rate limit (18 R414, R415) -/

/-- Tokens that have arrived by instant `t` enter a bucket. -/
def refill (t : Nat) (b : LogBucket) : LogBucket :=
  match b.since with
  | none => b
  | some t0 =>
    let due := (t - t0) * b.rate / 1000000000
    if b.burst ≤ b.tokens + (due - b.gained) then { b with tokens := b.burst, since := none, gained := 0 }
    else { b with tokens := b.tokens + (due - b.gained), gained := max b.gained due }

/-- Codes that are never rate-limited (18 R415). -/
def unlimited (code : Nat) : Bool :=
  decide (code = 0x0C01) ||
    (match eventInfo code with
     | some (sev, _) => decide (sev = 4)
     | none => false)

/-- Take a token at instant `t`: the bucket after, and whether there was one. -/
def takeToken (t : Nat) (b : LogBucket) : LogBucket × Bool :=
  let x := refill t b
  if x.tokens = 0 then ({ x with suppressed := sat16 (x.suppressed + 1) }, false)
  else
    ({ x with
      tokens := x.tokens - 1
      since := if x.tokens = x.burst then some t else x.since
      gained := if x.tokens = x.burst then 0 else x.gained
      suppressed := 0 }, true)

/-! #### The writer (18 R411 to R413) -/

/-- Index of record `n`. -/
def recordIndex (n : Nat) : Nat := if n < 256 then n else 256 + (n - 256) % 768

/-- A record (18 Table LOG-1). -/
def recordBytes (e : LogEvent) (suppressed n : Nat) : Bytes :=
  b1 0xA5 ++ b1 (e.sev + 16 * e.src) ++ b2 e.code ++ b4 e.hours ++ b3 e.pcycles ++ b1 0 ++ b2 suppressed ++ b2 0 ++
    b4 e.p0 ++ b4 e.p1 ++ b4 e.p2 ++ b4 n

/-- Store a record at the next number. -/
def storeRecord (e : LogEvent) (suppressed : Nat) (s : State) : State :=
  let n := s.log.number
  { s with
    log.records := tabSet [] s.log.records (recordIndex n) (recordBytes e suppressed n)
    log.number := wrap32 (n + 1) }

/-- Store an event, or drop it under its limit. -/
def storeEvent (e : LogEvent) (s : State) : State :=
  if unlimited e.code then storeRecord e 0 s
  else
    let b := tabGet {} s.log.buckets e.code
    let (b', stored) := takeToken e.tick b
    let s1 := { s with log.buckets := tabSet {} s.log.buckets e.code b' }
    if stored then storeRecord e b.suppressed s1 else s1

/-- The event LOG_QUEUE_LOST. -/
def queueLost (s : State) : LogEvent :=
  ⟨now s, 0x0C01, 2, 0, s.nv.hours, s.nv.pcycles, min s.log.lost 0xFFFFFFFF, 0, 0⟩

/-- The writer's next action: LOG_QUEUE_LOST once the queue has room, else the oldest event. -/
def writeNext (s : State) : State :=
  if 0 < s.log.lost ∧ s.log.queue.length < 64 then storeRecord (queueLost s) 0 { s with log.lost := 0 }
  else
    match s.log.queue with
    | [] => s
    | e :: rest => storeEvent e { s with log.queue := rest }

/-- LOG_WRITE (18 R412): the writer runs while main power is up. -/
def execLogWrite (s : State) : Host.Outcome State Fault Refusal :=
  .next (if s.power.main then writeNext s else s)

/-- LOG_TOKEN_REFILL (18 R414): the tokens due by now enter the code's bucket. -/
def execLogTokenRefill (code : BitVec 16) (s : State) : Host.Outcome State Fault Refusal :=
  .next <|
    let b := tabGet {} s.log.buckets code.toNat
    { s with log.buckets := tabSet {} s.log.buckets code.toNat (refill (now s) b) }

/-! #### Operating hours (18 R419) -/

/-- HOURS_TICK (18 R419): 1/256 h has passed with VDD_B in its range. -/
def execHoursTick (s : State) : Host.Outcome State Fault Refusal :=
  .next <|
    if !s.power.main then s
    else
      let s1 := { s with nv.hours := wrap32 (s.nv.hours + 1) }
      if s1.nv.hours % 64 = 0 then writeCounters s1 else s1

/-! #### Commands (18 R422) -/

/-- A code of Table LOG-4 whose limit may be set. -/
def limitable (code : Nat) : Bool :=
  within 0x0CF0 code 0x0CFF || ((eventInfo code).isSome && !unlimited code)

/-- LOG_SET_LIMIT. -/
def setLimit (p : Bytes) (s : State) : State × Reply :=
  let code := u16 p 0
  let old := tabGet {} s.log.buckets code
  let new : LogBucket :=
    { rate := u8 p 2, burst := u8 p 3, tokens := u8 p 3, since := none, gained := 0, suppressed := old.suppressed }
  (logEv 0x0C02 code (u8 p 2) (u8 p 3) { s with log.buckets := tabSet {} s.log.buckets code new },
    okWith (b1 old.rate ++ b1 old.burst ++ b2 0))

/-- LOG_SET_LIMIT (18 R422). -/
def execLogSetLimit (mb : Fin 8) (s : State) : Host.Outcome State Fault Refusal :=
  runCommand 0x0C01 mb (fun _ _ p s =>
    checked (fixedPayload p 8 [(limitable (u16 p 0), 0), (decide (1 ≤ u8 p 2), 2), (decide (1 ≤ u8 p 3), 3), rsv p 4 4])
      s (fun _ => setLimit p s)) s

/-- Size of a ledger region (18 Table LOG-5). -/
def regionSize (r : Nat) : Nat := nth [512, 1024, 8192, 256, 1536, 2048, 5120, 256] r

/-- LEDGER_READ (18 R422). -/
def execLedgerRead (mb : Fin 8) (s : State) : Host.Outcome State Fault Refusal :=
  runCommand 0x0C02 mb (fun _ _ p s =>
    checked (fixedPayload p 12 [(decide (u8 p 0 < 8), 0), rsv p 1 3, (decide (u32 p 4 < regionSize (u8 p 0)), 4),
      (within 1 (u32 p 8) (min 8192 (regionSize (u8 p 0) - u32 p 4)), 8)]) s
      (fun _ => (s, okWith (nvRead s (u8 p 0) (u32 p 4) (u32 p 8))))) s

/-- LOG_HOST_EVENT: the events raised before it are stored first. -/
def hostEvent (p : Bytes) (s : State) : State × Reply :=
  let s1 := forUpto (s.log.queue.length + 1) (fun _ s => writeNext s) s
  let e : LogEvent :=
    ⟨now s, u16 p 0, u8 p 2, 10, s.nv.hours, s.nv.pcycles, u32 p 4, u32 p 8, u32 p 12⟩
  let s2 := storeEvent e s1
  (s2, okWith (b4 (if s2.log.number = s1.log.number then 0xFFFFFFFF else s1.log.number)))

/-- LOG_HOST_EVENT (18 R422). -/
def execLogHostEvent (mb : Fin 8) (s : State) : Host.Outcome State Fault Refusal :=
  runCommand 0x0C03 mb (fun _ _ p s =>
    checked (fixedPayload p 16 [(within 0x0CF0 (u16 p 0) 0x0CFF, 0), (decide (u8 p 2 ≤ 3), 2), rsv p 3 1]) s
      (fun _ => hostEvent p s)) s

end Sys2Proof.Machine
end

