-- ==== Sys2Proof/Machine/Power.lean ====
section
/-! DEFINITION. Power, boot and resets (12 R272 to R288, 15 R351, 19 R424 to R435): the power-on of VKA and of die B, the
losses of power, RESET_N, the PCIe resets, bus mastering, the boot ROM, Sornor's start and its restarts. -/

namespace Sys2Proof.Machine

open Sys2Proof

/-! #### The PCIe endpoint (12 R279, 15 R351, R352, 21 R460, R462) -/

/-- The endpoint, its configuration space, the MSI-X table, the interrupt mapping, the window, ID_ERROR and the shadows
return to their reset values; IRQ_CAUSE and WIN_PROTECTED stay. -/
def resetEndpoint (s : State) : State :=
  { s with pcie := { irqCause := s.pcie.irqCause, winProtected := s.pcie.winProtected } }

/-- PERST_N, a hot reset or a function-level reset, as its bit of RESETS (12 R279). -/
def pcieReset (b : Nat) (hods : List HodProgress) (s : State) : State :=
  updateMaster (pauseDelivery (resetEndpoint (noteReset b (closeSession b (stopHods hods s)))))

/-- PERST_N (12 R279). -/
def execPerstN (hods : List HodProgress) (s : State) : Host.Outcome State Fault Refusal := .next (if bar0Up s then pcieReset 3 hods s else s)

/-- HOT_RESET (12 R279). -/
def execHotReset (hods : List HodProgress) (s : State) : Host.Outcome State Fault Refusal := .next (if bar0Up s then pcieReset 4 hods s else s)

/-- FUNCTION_LEVEL_RESET (15 R351). -/
def execFunctionLevelReset (hods : List HodProgress) (s : State) : Host.Outcome State Fault Refusal :=
  .next (if bar0Up s then pcieReset 5 hods s else s)

/-- Bus mastering has returned: pending messages and the results that wait for it are written (15 R349, R351), and the
master is judged anew. -/
def resumeMastering (s : State) : State :=
  updateMaster (forUpto 8 (releaseResult false) (forUpto 64 sendPending s))

/-- BUS_MASTER_ENABLE (08 R176): the host programs the function's control registers, Bus Master Enable being set: MSI-X
Enable and Function Mask (15 R349), max payload size 128 B to 512 B and max read request size 128 B to 4,096 B (R343, R358).
Delivery resumes by reading CI. That one command carries those settings is the model's (DESIGN CHOICE, log 5). -/
def execBusMasterEnable (msix mask : Bool) (payload : Fin 3) (read : Fin 6) (s : State) :
    Host.Outcome State Fault Refusal :=
  .next <|
    if !bar0Up s then s
    else
      let s1 := { s with
        pcie.bme := true
        pcie.msixEnable := msix
        pcie.functionMask := mask
        pcie.maxPayload := 128 * 2 ^ payload.val
        pcie.maxRead := 128 * 2 ^ read.val }
      if s1.pcie.d3hot then s1
      else if s.pcie.bme then forUpto 64 sendPending s1
      else resumeMastering s1

/-- BUS_MASTER_ENABLE_CLEARED (15 R351). -/
def execBusMasterEnableCleared (s : State) : Host.Outcome State Fault Refusal :=
  .next (if s.pcie.bme then updateMaster (pauseDelivery { s with pcie.bme := false }) else s)

/-- D3HOT_ENTRY (15 R351). -/
def execD3hotEntry (s : State) : Host.Outcome State Fault Refusal :=
  .next (if bar0Up s && !s.pcie.d3hot then updateMaster (pauseDelivery { s with pcie.d3hot := true }) else s)

/-- D0_RETURN (15 R351): every register keeps its value. -/
def execD0Return (s : State) : Host.Outcome State Fault Refusal :=
  .next <|
    if s.pcie.d3hot then
      let s1 := { s with pcie.d3hot := false }
      if s1.pcie.bme then resumeMastering s1 else s1
    else s

/-! #### What a reset of die B leaves (12 R267, R278, 21 R460) -/

/-- Journal entries without their ACCEPTED mark are discarded, and their commands stay POSTED (12 R267). -/
def dropUnmarked (s : State) : State := { s with mbx.journal := s.mbx.journal.filter (fun e => e.accepted) }

/-- A filter chain stopped: its configuration and detector settings stay. -/
def stoppedChain (x : Chain) : Chain :=
  { configured := x.configured, cicDec := x.cicDec, firLen := x.firLen, firDec := x.firDec, taps := x.taps,
    source := x.source, hkCh := x.hkCh, startedBy := x.startedBy, det := x.det, detNew := x.detNew }

/-- The loop is STOPPED and the drive off; its settings, coefficients, counters and unfinished commands stay. The sticky
flags of R67 clear (03 R67; DESIGN CHOICE: the spec does not say whether they outlive a reset, log 106). -/
def resetLoop (s : State) : State :=
  let l := s.loop
  { s with loop :=
      { chains := tabMap {} stoppedChain l.chains, config := l.config, sets := l.sets, bank := l.bank,
        actions := l.actions, reads := l.reads, esInput := l.esInput, selftestFailed := l.selftestFailed, selftestOf := l.selftestOf,
        picks := tabSet {} (tabSet {} [] 0 { next := now s }) 1 { next := now s }, rampAt := now s, startupAt := now s, swaps := l.swaps, faults := l.faults } }

/-- Housekeeping restarts with the factors of the last HK_CAL, which only a power-down loses (17 R395); an HK_CAL in hand
begins again, and the HK_READs in hand wait for the next boundary. -/
def resetHk (s : State) : State :=
  { s with hk :=
      { cal := s.hk.cal.map (fun c => (c.1, now s)), reads := s.hk.reads, roundAt := now s, uncal := s.hk.uncal
        offset := s.hk.offset, gain := s.hk.gain, currents := s.hk.currents } }

/-- The bypass closes. A device in LEAVING has left: its RING_LEAVEs complete when Sornor runs again (13 R294). -/
def resetRing (s : State) : State :=
  if s.ring.run = .leaving then
    let s1 := standAlone .bypass { s with ring.cfg.enable := false }
    if s1.ring.cfg.persist then persistRing s1 else s1
  else standAlone .bypass s

/-- DRAM is in self-refresh and no channel is in service until training ends; the journal copies are out of service. -/
def parkDram (s : State) : State :=
  { s with
    mem.inService := 0
    mem.retired := 0
    mem.failed := 0
    mem.retrainFails := []
    mem.ueAt := []
    mem.gib := 0
    mem.rate := 0
    mem.training := none
    dlv.depth := 0
    mbx.copies := 0
    mbx.held0 := []
    mbx.held1 := [] }

/-- Die B's own state at a reset of die B, its Hod channels being stopped. -/
def resetDieB (s : State) : State :=
  let s1 := resetHk (resetLoop (dropUnmarked { s with
    time := {}
    power.phase := .off
    power.loaded := []
    power.chunks := 0
    power.restartAt := none }))
  let s2 := parkDram (pauseDelivery (resetEndpoint s1))
  resetRing { s2 with pcie.irqCause := 0 }

/-- Die A and its start are taken back: no restore is due, every course is enabled, the scheduler is disabled (04
R106). -/
def freshDieA (s : State) : State :=
  { s with
    power.dieAStarted := false
    power.dieAAttempts := 0
    power.dieAFailed := false
    shot.enabled := false
    shot.enablePending := false
    shot.courses := tabMap {} (fun x => { x with disabled := false, enablePending := false }) s.shot.courses }

/-- Die B starts: shutdown is left if EXIT_OK is set (17 R406), the sensors are judged afresh (17 R402), and the boot ROM
runs while DRAM is still to be trained. -/
def startDieB (t : DramTraining) (s : State) : State :=
  let leave := s.th.shut && exitOk s
  let s1 := { s with
    th.shut := s.th.shut && !leave
    th.gated := s.th.gated && !leave
    th.level := if s.th.shut && !leave then 3 else 0
    th.sensors := tabMap {} (fun (x : ThSensor) => { tmax := x.tmax }) s.th.sensors
    th.diodeA := none
    th.diodeB := none
    th.recent := []
    th.markAt := now s
    th.throttleNs := s.th.throttleNs + (match s.th.throttleFrom with
      | some t => now s - t
      | none => 0)
    th.throttleFrom := none
    eng.engines := tabMap {} (fun (e : Engine) => { e with halved := false }) s.eng.engines
    mem.training := some t
    power.phase := .rom }
  let s2 := mortarDown { s1 with hk.roundAt := now s }
  if leave then esClear 5 s2 else s2

/-! #### RESET_N (12 R278) -/

/-- RESET_N as recognised (19 R426): both dies are reset, and BOOT_SEL is sampled at its rising edge (19 R429). -/
def resetN (sel : Nat) (t : DramTraining) (hods : List HodProgress) (s0 : State) : State :=
  let s := stopHods hods s0
  let s1 := if s.power.dieA then stopDieA s else mortarDown (loseDieA s)
  let s2 := unarm (noteReset 2 (closeSession 2 s1))
  let s3 := startDieB t (resetDieB (freshDieA s2))
  { s3 with power.bootSel := sel, power.selDue := false }

/-- RESET_N (12 R278). -/
def execResetN (sel : BitVec 2) (t : DramTraining) (hods : List HodProgress) (s : State) :
    Host.Outcome State Fault Refusal :=
  .next (if s.power.main then resetN sel.toNat t hods s else s)

/-! #### Main power (12 R283, R284, 19 R424, 18 R419) -/

/-- Die A loses power: what is in progress in it or on its link is gone, and leaves no record. -/
def unpowerDieA (s : State) : State :=
  let s1 := mortarDown (mirrorDown (resetCapture (failCapture (loseDieA (cutPulses s)))))
  { s1 with dlv.link := [], dlv.slots := [], dlv.arrived := [], dlv.written := [] }

/-- Main power goes. -/
def loseMain (s : State) : State :=
  let s1 := unarm (closeSession 1 (writeCounters (stopHods [] s)))
  let s2 := resetDieB (freshDieA (unpowerDieA s1))
  let s3 := esDeny s2
  { s3 with
    hk.uncal := true
    hk.offset := 0
    hk.gain := 2 ^ 30
    hk.currents := []
    es.powered := false
    power.main := false
    power.rails := false
    power.warning := true }

/-- The die-B rails fall while VKA is absent, or before die B has started again: only the Emission Supervisor, which had
stayed powered, goes (10 R208, R223, 19 R425). -/
def loseRails (s : State) : State :=
  let s1 := esDeny s
  { s1 with es.powered := false, power.rails := false }

/-- RAIL_WARNING (12 R283, 18 R419): VDD_B falls below its warning level and main power is lost (DESIGN CHOICE, log
51). -/
def execRailWarning (s : State) : Host.Outcome State Fault Refusal :=
  .next (if s.power.main then loseMain s else if s.power.rails then loseRails s else s)

/-- NODE_ID, ENABLE and PERSIST as the NV ledger keeps them, where they were persisted (13 R292). -/
def loadRing (s : State) : State :=
  let b := nvRead s 6 0 4
  if u8 b 3 = 1 then
    { s with ring.cfg.nodeId := u16 b 0, ring.cfg.enable := decide (u8 b 2 = 1), ring.cfg.persist := true }
  else s

/-- The power-on reset releases die B (19 R424): the power cycle counts if the rails were down (18 R419), payload SRAM
is undefined, and a fatal fault is left (12 R286). -/
def powerUp (t : DramTraining) (s : State) : State :=
  let lost := s.power.warning
  let (n, s0) := drawFree s
  let s1 := { s0 with
    power.main := true
    power.rails := true
    power.warning := false
    power.fatal := false
    power.lockstepAt := []
    es.lockstep := false
    power.selDue := true
    power.dieA := false
    mem.payload := []
    mem.payloadGen := n
    nv.pcycles := if s.power.rails then s.nv.pcycles else (s.nv.pcycles + 1) % 2 ^ 24 }
  let s2 := startDieB t (loadRing { (writeCounters s1) with power.memory := true })
  if lost then noteReset 1 s2 else s2

/-- DIE_B_POWER_UP (19 R424). -/
def execDieBPowerUp (t : DramTraining) (s : State) : Host.Outcome State Fault Refusal :=
  .next (if s.power.vka && !s.power.main then powerUp t s else s)

/-- MAIN_POWER_RETURN (12 R283): after a loss that VKA survived. -/
def execMainPowerReturn (t : DramTraining) (s : State) : Host.Outcome State Fault Refusal :=
  .next (if s.power.vka && !s.power.main && s.power.warning then powerUp t s else s)

/-- MEMORY_SUPPLY_LOSS (12 R284): with main power absent, DRAM loses its contents. -/
def execMemorySupplyLoss (s : State) : Host.Outcome State Fault Refusal :=
  .next <|
    if s.power.main || !s.power.memory then s
    else
      let s1 := loseBuffer s.angle.frame s
      { s1 with
        power.memory := false
        mem.dram := []
        mem.kept := []
        dlv.planes := []
        dlv.frozen := []
        dlv.lastPlane := none }

/-! #### VKA (12 R285, 19 R425, 18 R417) -/

/-- Everything at its default but the NV ledger and what it keeps, the flash and the OTP, the Emission Supervisor, whose
unlock the closed session ends (10 R225), and the model's own clock, trace, counter and queue. The outputs are as while
RESET_N is asserted. -/
def vkaDefaults (s : State) : State :=
  let s0 := if s.power.dieA then emit (.firePorts false) s else s
  { State.reset with
    angle.tb := s.angle.tb
    es := { s.es with unlocked := none }
    ring.bindings := s.ring.bindings
    th.entries := s.th.entries
    nv := s.nv
    power.rails := s.power.rails
    power.records := s.power.records
    power.slots := s.power.slots
    power.minSvn := s.power.minSvn
    free := s.free
    out := s0.out
    pending := s.pending }

/-- VKA_POWERUP (12 R285, 18 R417, R419): the device starts from its defaults; VKA_POWERUP is the first event of the new
log, although die B is still held in reset. -/
def execVkaPowerup (s : State) : Host.Outcome State Fault Refusal :=
  .next <|
    if s.power.vka then s
    else
      let s1 := loadCounters (vkaDefaults s)
      let s2 := logEv 0x0101 s1.nv.pcycles 0 0 { s1 with power.vka := true, power.resets := 1, power.main := true }
      { s2 with power.main := false }

/-- VKA_LOSS (19 R425): what VKA holds is lost; a die B that has main power enters reset, with its outputs, its bypass and
its memory interface as under RESET_N. The Emission Supervisor does not follow. -/
def execVkaLoss (s : State) : Host.Outcome State Fault Refusal :=
  .next (if s.power.vka then vkaDefaults (cutPulses s) else s)

/-! #### The boot ROM (19 R429, R431, R433) -/

/-- Enter host load. -/
def enterHostLoad (s : State) : State :=
  { s with power.phase := .hostWait, power.loaded := [], power.chunks := 0 }

/-- The images to try, in order. -/
def imageOrder (s : State) (sel : Nat) : List Nat :=
  if sel % 2 = 1 then []
  else if sel = 2 then [0]
  else
    match activeRecord s with
    | some c => if (bootRecord s c).preferred = 0 then [0, 1] else [1, 0]
    | none => [0, 1]

/-- The image to start, if any. -/
def chooseImage (s : State) (sel : Nat) : Option Nat :=
  (imageOrder s sel).find? (fun k => !bit s.power.failed k && decide (slotVerdict s k = 0))

/-- BOOT_ROM_START (19 R431): BOOT_SEL is the strap as sampled; the ROM starts an image or enters host load. -/
def execBootRomStart (sel : BitVec 2) (s : State) : Host.Outcome State Fault Refusal :=
  .next <|
    if !s.power.main || decide (s.power.phase ≠ .rom) then s
    else
      let b := if s.power.selDue then sel.toNat else s.power.bootSel
      let s1 := { s with power.bootSel := b, power.selDue := false }
      match chooseImage s1 b with
      | some k => { s1 with
          power.phase := .started, power.image := k, power.startedAt := now s, power.loaded := [], power.chunks := 0 }
      | none => enterHostLoad s1

/-! #### Sornor (12 R273, R286, 19 R432) -/

/-- A fatal die B fault (12 R286): 1 journal, 2 lockstep, 3 restart. -/
def fatalFault (cause : Nat) (s : State) : State :=
  let s1 := raiseIrq 21 (logEv 0x0107 cause 0 0 s)
  let s2 := esArise 8 { (standAlone .bypass (stopLoop s1)) with es.lockstep := true }
  { s2 with power.fatal := true, loop.actions := [] }

/-- DRAM training ends: delivery may run again, and channels that did not train are retired from the start (16 R365,
R380). -/
def endTraining (s : State) : State :=
  match s.mem.training with
  | none => s
  | some t =>
    let s1 := trainDram t { s with mem.training := none, dlv.stopped := false }
    if s1.mem.retired = 0 then s1 else raiseIrq 18 s1

/-- Commands that a reset of die B has ended complete: the LOOP_CONTROLs not yet taken and a self-test (03), and the
RING_LEAVEs of a device that has left. -/
def finishStopped (s : State) : State :=
  let s1 := cancelActions s
  forEach s1.ring.leaves (fun j s => finish j (okWith (b4 (unconsumed s) ++ b4 0)) s) { s1 with ring.leaves := [] }

/-- Sornor runs after a boot. -/
def bootDone (s : State) : State :=
  tryJoin (finishStopped (logEv 0x0105 s.power.image Config.fwPatch 0 (endTraining { s with power.phase := .ready })))

/-- Sornor runs again after a control-processor restart. -/
def restartDone (s : State) : State :=
  tryJoin { s with power.phase := .ready, power.restartAt := none, es.lockstep := s.es.lockstep && s.power.fatal }

/-- Some place in service holds a good copy of the entry (12 R266, R271). -/
def entryHeld (b : JournalBad) (s : State) (j : Nat) : Bool :=
  !b.vka.contains j || (s.mbx.mirrorA && s.mbx.heldA.contains j && !b.dieA.contains j) ||
    (s.mbx.copies.testBit 0 && s.mbx.held0.contains j && !b.dram0.contains j) ||
    (s.mbx.copies.testBit 1 && s.mbx.held1.contains j && !b.dram1.contains j)

/-- Die B reads the journal after a restart: so many bytes are corrected, and so many are uncorrectable, whose entries it
takes from another place (12 R271, 16 R371). -/
def readJournal (corrected uncorrectable : Nat) (s : State) : State :=
  if s.mbx.journal.isEmpty then s
  else { s with
    mem.sramCe := sat32 (s.mem.sramCe + corrected)
    mem.sramUe := sat32 (s.mem.sramUe + uncorrectable) }

/-- Every live entry of the journal can be read from some place; if not, the fault is fatal (12 R286). -/
def journalHeld (b : JournalBad) (s : State) : Bool := s.mbx.journal.all (fun e => entryHeld b s e.jseq)

/-- FW_READY (19 R432): Sornor is ready within 400 ms of its start. An entry that no place in service holds is a fatal
fault (12 R286). -/
def execFwReady (corrected uncorrectable : Nat) (bad : JournalBad) (s : State) : Host.Outcome State Fault Refusal :=
  .next <|
    if !s.power.main || decide (s.power.phase ≠ .started) || decide (s.power.startedAt + 400000000 < now s) then s
    else if !journalHeld bad s then fatalFault 1 (readJournal corrected uncorrectable s)
    else if s.power.restartAt.isSome then restartDone (readJournal corrected uncorrectable s)
    else bootDone (readJournal corrected uncorrectable s)

/-- FW_READY_TIMEOUT (19 R432, R433, 12 R286): the image is marked failed and die B restarts, a host-loaded image is asked
for again, and a restart that fails is fatal. -/
def execFwReadyTimeout (s : State) : Host.Outcome State Fault Refusal :=
  .next <|
    if !s.power.main || s.power.fatal || decide (s.power.phase ≠ .started) ||
        decide (now s < s.power.startedAt + 400000000) then s
    else if s.power.restartAt.isSome then fatalFault 3 s
    else if s.power.image = 2 then enterHostLoad s
    else { s with power.failed := setBit s.power.failed s.power.image, power.phase := .rom }

/-- The control processor restarts: the session closes and Sornor is re-run, while everything else keeps running. -/
def restartCp (lockstep : Bool) (s : State) : State :=
  let b := if lockstep then 7 else 6
  let s1 := logEv 0x0106 (b2n lockstep) 0 0 (noteReset b (closeSession b (dropUnmarked s)))
  let s2 := { s1 with power.phase := .started, power.startedAt := now s, power.restartAt := some (now s) }
  if lockstep then
    let l := s.power.lockstepAt.filter (fun t => decide (now s < t + 10000000000)) ++ [now s]
    let s3 := esArise 8 { s2 with es.lockstep := true, power.lockstepAt := l }
    if 3 ≤ l.length then fatalFault 2 s3 else s3
  else s2

/-- CP_RESTART (12 R273): a restart by watchdog, or by a lockstep error, which trips LOCKSTEP. -/
def execCpRestart (lockstep : Bool) (s : State) : Host.Outcome State Fault Refusal :=
  .next (if sornor s then restartCp lockstep s else s)

end Sys2Proof.Machine
end

