-- ==== Sys2Proof/Machine/Dispatch.lean ====
section
/-! DEFINITION. One arm per command: the direct call of its meaning. -/

namespace Sys2Proof.Machine

open Sys2Proof

/-- What a command does to the state with the rest of the queue in it. -/
def exec (i : Instr) (s : State) : Host.Outcome State Fault Refusal :=
  match i with
  | .mbxDoorbell mb value => Sys2Proof.Machine.execMbxDoorbell mb value s
  | .commandCheck mb hostPayload => Sys2Proof.Machine.execCommandCheck mb hostPayload s
  | .commandAccepted mb => Sys2Proof.Machine.execCommandAccepted mb s
  | .resultWriteFail mb => Sys2Proof.Machine.execResultWriteFail mb s
  | .journalMirrorRebuilt place => Sys2Proof.Machine.execJournalMirrorRebuilt place s
  | .hello mb => Sys2Proof.Machine.execHello mb s
  | .goodbye mb => Sys2Proof.Machine.execGoodbye mb s
  | .nop mb => Sys2Proof.Machine.execNop mb s
  | .ident mb => Sys2Proof.Machine.execIdent mb s
  | .fwImageWrite mb => Sys2Proof.Machine.execFwImageWrite mb s
  | .fwImageSelect mb => Sys2Proof.Machine.execFwImageSelect mb s
  | .gridSetColumns mb => Sys2Proof.Machine.execGridSetColumns mb s
  | .gridGetColumns mb => Sys2Proof.Machine.execGridGetColumns mb s
  | .angleSetScan mb => Sys2Proof.Machine.execAngleSetScan mb s
  | .angleSetIndex mb => Sys2Proof.Machine.execAngleSetIndex mb s
  | .angleStatus mb => Sys2Proof.Machine.execAngleStatus mb s
  | .shotSetProgram mb => Sys2Proof.Machine.execShotSetProgram mb s
  | .allocSet mb => Sys2Proof.Machine.execAllocSet mb s
  | .tpmSetWeights mb => Sys2Proof.Machine.execTpmSetWeights mb s
  | .tpmRead mb => Sys2Proof.Machine.execTpmRead mb s
  | .shotCourseEnable mb => Sys2Proof.Machine.execShotCourseEnable mb s
  | .shotScheduler mb => Sys2Proof.Machine.execShotScheduler mb s
  | .shotStatus mb => Sys2Proof.Machine.execShotStatus mb s
  | .recvSetCourse mb => Sys2Proof.Machine.execRecvSetCourse mb s
  | .recvSetThresholds mb => Sys2Proof.Machine.execRecvSetThresholds mb s
  | .recvStatus mb => Sys2Proof.Machine.execRecvStatus mb s
  | .histSetCourse mb => Sys2Proof.Machine.execHistSetCourse mb s
  | .histSetWalk mb => Sys2Proof.Machine.execHistSetWalk mb s
  | .histStatus mb => Sys2Proof.Machine.execHistStatus mb s
  | .histCaptureTile mb => Sys2Proof.Machine.execHistCaptureTile mb s
  | .captureTileTimeout => Sys2Proof.Machine.execCaptureTileTimeout s
  | .rejSetCourse mb => Sys2Proof.Machine.execRejSetCourse mb s
  | .rejSetDevice mb => Sys2Proof.Machine.execRejSetDevice mb s
  | .rejStatus mb => Sys2Proof.Machine.execRejStatus mb s
  | .dlvSetRing mb => Sys2Proof.Machine.execDlvSetRing mb s
  | .dlvStatus mb => Sys2Proof.Machine.execDlvStatus mb s
  | .freezeHistory mb => Sys2Proof.Machine.execFreezeHistory mb s
  | .readHistory mb => Sys2Proof.Machine.execReadHistory mb s
  | .histInfo mb => Sys2Proof.Machine.execHistInfo mb s
  | .filtConfig mb => Sys2Proof.Machine.execFiltConfig mb s
  | .filtControl mb => Sys2Proof.Machine.execFiltControl mb s
  | .detConfig mb => Sys2Proof.Machine.execDetConfig mb s
  | .loopConfig mb => Sys2Proof.Machine.execLoopConfig mb s
  | .loopLoad mb => Sys2Proof.Machine.execLoopLoad mb s
  | .loopControl mb => Sys2Proof.Machine.execLoopControl mb s
  | .loopStatus mb => Sys2Proof.Machine.execLoopStatus mb s
  | .captConfig mb => Sys2Proof.Machine.execCaptConfig mb s
  | .captSetMask mb => Sys2Proof.Machine.execCaptSetMask mb s
  | .captControl mb => Sys2Proof.Machine.execCaptControl mb s
  | .captRead mb => Sys2Proof.Machine.execCaptRead mb s
  | .captStatus mb => Sys2Proof.Machine.execCaptStatus mb s
  | .esStatus mb => Sys2Proof.Machine.execEsStatus mb s
  | .esUnlock mb => Sys2Proof.Machine.execEsUnlock mb s
  | .esLock mb => Sys2Proof.Machine.execEsLock mb s
  | .esStage mb => Sys2Proof.Machine.execEsStage mb s
  | .esCommit mb => Sys2Proof.Machine.execEsCommit mb s
  | .esRearm mb => Sys2Proof.Machine.execEsRearm mb s
  | .esConfirm mb => Sys2Proof.Machine.execEsConfirm mb s
  | .esTrip mb => Sys2Proof.Machine.execEsTrip mb s
  | .esSetPassword mb => Sys2Proof.Machine.execEsSetPassword mb s
  | .esChangelogRead mb => Sys2Proof.Machine.execEsChangelogRead mb s
  | .esLedgerRead mb => Sys2Proof.Machine.execEsLedgerRead mb s
  | .ringConfig mb => Sys2Proof.Machine.execRingConfig mb s
  | .ringStatus mb => Sys2Proof.Machine.execRingStatus mb s
  | .ringMembers mb => Sys2Proof.Machine.execRingMembers mb s
  | .ringLeave mb => Sys2Proof.Machine.execRingLeave mb s
  | .ringSetPhase mb => Sys2Proof.Machine.execRingSetPhase mb s
  | .ringQuarantineClear mb => Sys2Proof.Machine.execRingQuarantineClear mb s
  | .ringPeerIdent mb => Sys2Proof.Machine.execRingPeerIdent mb s
  | .laneEyeScan mb => Sys2Proof.Machine.execLaneEyeScan mb s
  | .laneEyeScanDone counts => Sys2Proof.Machine.execLaneEyeScanDone counts s
  | .laneStatus mb => Sys2Proof.Machine.execLaneStatus mb s
  | .hkConfig mb => Sys2Proof.Machine.execHkConfig mb s
  | .hkCal mb => Sys2Proof.Machine.execHkCal mb s
  | .hkCalDone offset gain currents => Sys2Proof.Machine.execHkCalDone offset gain currents s
  | .hkRead mb => Sys2Proof.Machine.execHkRead mb s
  | .hkSetSwitch mb => Sys2Proof.Machine.execHkSetSwitch mb s
  | .thConfig mb => Sys2Proof.Machine.execThConfig mb s
  | .thStatus mb => Sys2Proof.Machine.execThStatus mb s
  | .memStatus mb => Sys2Proof.Machine.execMemStatus mb s
  | .eccTableRead mb => Sys2Proof.Machine.execEccTableRead mb s
  | .eccTableClear mb => Sys2Proof.Machine.execEccTableClear mb s
  | .eccTest mb => Sys2Proof.Machine.execEccTest mb s
  | .logSetLimit mb => Sys2Proof.Machine.execLogSetLimit mb s
  | .ledgerRead mb => Sys2Proof.Machine.execLedgerRead mb s
  | .logHostEvent mb => Sys2Proof.Machine.execLogHostEvent mb s
  | .commit mb => Sys2Proof.Machine.execCommit mb s
  | .commitApplyStopped => Sys2Proof.Machine.execCommitApplyStopped s
  | .stageDiscard mb => Sys2Proof.Machine.execStageDiscard mb s
  | .snapshot mb => Sys2Proof.Machine.execSnapshot mb s
  | .runArm mb => Sys2Proof.Machine.execRunArm mb s
  | .runDisarm mb => Sys2Proof.Machine.execRunDisarm mb s
  | .runStatus mb => Sys2Proof.Machine.execRunStatus mb s
  | .hodDoorbell ch => Sys2Proof.Machine.execHodDoorbell ch s
  | .hodAbort ch => Sys2Proof.Machine.execHodAbort ch s
  | .hodConfigWrite ch reg value => Sys2Proof.Machine.execHodConfigWrite ch reg value s
  | .hodDescriptorFetch ch host => Sys2Proof.Machine.execHodDescriptorFetch ch host s
  | .hodDescriptorComplete ch host refetch => Sys2Proof.Machine.execHodDescriptorComplete ch host refetch s
  | .hodError ch code addr done host => Sys2Proof.Machine.execHodError ch code addr done host s
  | .hodAbortDone ch done host => Sys2Proof.Machine.execHodAbortDone ch done host s
  | .winBaseLoWrite value hi => Sys2Proof.Machine.execWinBaseLoWrite value hi s
  | .bar2Read offset len => Sys2Proof.Machine.execBar2Read offset len s
  | .bar2Write offset bytes => Sys2Proof.Machine.execBar2Write offset bytes s
  | .irqCauseClear mask arriving => Sys2Proof.Machine.execIrqCauseClear mask arriving s
  | .irqEnableWrite value => Sys2Proof.Machine.execIrqEnableWrite value s
  | .irqMapWrite n value => Sys2Proof.Machine.execIrqMapWrite n value s
  | .idBootChunk value => Sys2Proof.Machine.execIdBootChunk value s
  | .idBootReset => Sys2Proof.Machine.execIdBootReset s
  | .hostLoadVerifyDone => Sys2Proof.Machine.execHostLoadVerifyDone s
  | .hkLatch => Sys2Proof.Machine.execHkLatch s
  | .timeLoadNow => Sys2Proof.Machine.execTimeLoadNow s
  | .timeLoadAtPps => Sys2Proof.Machine.execTimeLoadAtPps s
  | .timeCancelLoad => Sys2Proof.Machine.execTimeCancelLoad s
  | .twoHalfLowRead pair wide => Sys2Proof.Machine.execTwoHalfLowRead pair wide s
  | .twoHalfHighRead pair => Sys2Proof.Machine.execTwoHalfHighRead pair s
  | .payloadSramRead offset len => Sys2Proof.Machine.execPayloadSramRead offset len s
  | .bar0BadAccess offset size isWrite => Sys2Proof.Machine.execBar0BadAccess offset size isWrite s
  | .registerWrite offset bytes => Sys2Proof.Machine.execRegisterWrite offset bytes s
  | .dieBPowerUp training => Sys2Proof.Machine.execDieBPowerUp training s
  | .bootRomStart sel => Sys2Proof.Machine.execBootRomStart sel s
  | .fwReady corrected uncorrectable bad => Sys2Proof.Machine.execFwReady corrected uncorrectable bad s
  | .fwReadyTimeout => Sys2Proof.Machine.execFwReadyTimeout s
  | .vkaPowerup => Sys2Proof.Machine.execVkaPowerup s
  | .vkaLoss => Sys2Proof.Machine.execVkaLoss s
  | .esPowerOn selfTestOk crc => Sys2Proof.Machine.execEsPowerOn selfTestOk crc s
  | .railWarning => Sys2Proof.Machine.execRailWarning s
  | .mainPowerReturn training => Sys2Proof.Machine.execMainPowerReturn training s
  | .memorySupplyLoss => Sys2Proof.Machine.execMemorySupplyLoss s
  | .resetN sel training hods => Sys2Proof.Machine.execResetN sel training hods s
  | .perstN hods => Sys2Proof.Machine.execPerstN hods s
  | .hotReset hods => Sys2Proof.Machine.execHotReset hods s
  | .functionLevelReset hods => Sys2Proof.Machine.execFunctionLevelReset hods s
  | .busMasterEnable msix mask payload read => Sys2Proof.Machine.execBusMasterEnable msix mask payload read s
  | .d3hotEntry => Sys2Proof.Machine.execD3hotEntry s
  | .d0Return => Sys2Proof.Machine.execD0Return s
  | .cpRestart lockstep => Sys2Proof.Machine.execCpRestart lockstep s
  | .dieAReset cause => Sys2Proof.Machine.execDieAReset cause s
  | .dieARestored => Sys2Proof.Machine.execDieARestored s
  | .dieARestoreTimeout => Sys2Proof.Machine.execDieARestoreTimeout s
  | .heartbeatLoss atDieA => Sys2Proof.Machine.execHeartbeatLoss atDieA s
  | .mortarLinkUp => Sys2Proof.Machine.execMortarLinkUp s
  | .mortarLaneLoss lane => Sys2Proof.Machine.execMortarLaneLoss lane s
  | .mortarLaneRegained lane => Sys2Proof.Machine.execMortarLaneRegained lane s
  | .dramChannelFailed ch cause => Sys2Proof.Machine.execDramChannelFailed ch cause s
  | .dramRetireDone ch => Sys2Proof.Machine.execDramRetireDone ch s
  | .dramRetrain ch ok => Sys2Proof.Machine.execDramRetrain ch ok s
  | .angleUpdate => Sys2Proof.Machine.execAngleUpdate s
  | .missedUpdate => Sys2Proof.Machine.execMissedUpdate s
  | .frameBoundary => Sys2Proof.Machine.execFrameBoundary s
  | .columnBoundary c => Sys2Proof.Machine.execColumnBoundary c s
  | .shotDue course => Sys2Proof.Machine.execShotDue course s
  | .shotLaunch course startA startB => Sys2Proof.Machine.execShotLaunch course startA startB s
  | .doublePulseSecond course => Sys2Proof.Machine.execDoublePulseSecond course s
  | .lowDiscriminatorEdge ch rise fall high => Sys2Proof.Machine.execLowDiscriminatorEdge ch rise fall high s
  | .windowClose ch => Sys2Proof.Machine.execWindowClose ch s
  | .stampDelivery ch => Sys2Proof.Machine.execStampDelivery ch s
  | .tdcCalibrationDone ch rise fall => Sys2Proof.Machine.execTdcCalibrationDone ch rise fall s
  | .engineP1Start e => Sys2Proof.Machine.execEngineP1Start e s
  | .engineP1Done e corr uncorr => Sys2Proof.Machine.execEngineP1Done e corr uncorr s
  | .engineP2Done e corr uncorr => Sys2Proof.Machine.execEngineP2Done e corr uncorr s
  | .indexEdge rising ti => Sys2Proof.Machine.execIndexEdge rising ti s
  | .pickCrossing pick t samples => Sys2Proof.Machine.execPickCrossing pick t samples s
  | .indexMissing => Sys2Proof.Machine.execIndexMissing s
  | .recordArrival => Sys2Proof.Machine.execRecordArrival s
  | .recordCommit => Sys2Proof.Machine.execRecordCommit s
  | .historySlotArrival => Sys2Proof.Machine.execHistorySlotArrival s
  | .palletTimeout r => Sys2Proof.Machine.execPalletTimeout r s
  | .palletWrite r faults => Sys2Proof.Machine.execPalletWrite r faults s
  | .irqHoldoffEnd r => Sys2Proof.Machine.execIrqHoldoffEnd r s
  | .ciPoll r => Sys2Proof.Machine.execCiPoll r s
  | .ciReadComplete r ci => Sys2Proof.Machine.execCiReadComplete r ci s
  | .timePpsEdge => Sys2Proof.Machine.execTimePpsEdge s
  | .chainOutput chain samples => Sys2Proof.Machine.execChainOutput chain samples s
  | .loopSelftestDone ok => Sys2Proof.Machine.execLoopSelftestDone ok s
  | .loopStartSlow => Sys2Proof.Machine.execLoopStartSlow s
  | .pwmCycleStart levels => Sys2Proof.Machine.execPwmCycleStart levels s
  | .hkConversion code overRange brk => Sys2Proof.Machine.execHkConversion code overRange brk s
  | .hkRoundBoundary => Sys2Proof.Machine.execHkRoundBoundary s
  | .captureTrigger u t samples => Sys2Proof.Machine.execCaptureTrigger u t samples s
  | .shotQualTimeout u => Sys2Proof.Machine.execShotQualTimeout u s
  | .maskViolation u samples => Sys2Proof.Machine.execMaskViolation u samples s
  | .captureComplete u samples => Sys2Proof.Machine.execCaptureComplete u samples s
  | .captureHoldoffEnd u => Sys2Proof.Machine.execCaptureHoldoffEnd u s
  | .esPulseCount port => Sys2Proof.Machine.execEsPulseCount port s
  | .ledgerBucketClose k => Sys2Proof.Machine.execLedgerBucketClose k s
  | .esCauseArises c => Sys2Proof.Machine.execEsCauseArises c s
  | .esCauseClears c => Sys2Proof.Machine.execEsCauseClears c s
  | .esClockCheck ppm railOk => Sys2Proof.Machine.execEsClockCheck ppm railOk s
  | .esSelftest ok => Sys2Proof.Machine.execEsSelftest ok s
  | .esCrcCheck crc => Sys2Proof.Machine.execEsCrcCheck crc s
  | .powerupHoldEnd => Sys2Proof.Machine.execPowerupHoldEnd s
  | .rearmTimeout => Sys2Proof.Machine.execRearmTimeout s
  | .esUnlockTimeout => Sys2Proof.Machine.execEsUnlockTimeout s
  | .unlockRefusalEnd => Sys2Proof.Machine.execUnlockRefusalEnd s
  | .safeAckFall => Sys2Proof.Machine.execSafeAckFall s
  | .safeAckRise => Sys2Proof.Machine.execSafeAckRise s
  | .esStateMessageSend => Sys2Proof.Machine.execEsStateMessageSend s
  | .esStateMessage => Sys2Proof.Machine.execEsStateMessage s
  | .safePathTimeout node ring => Sys2Proof.Machine.execSafePathTimeout node ring s
  | .tempReading ts reading => Sys2Proof.Machine.execTempReading ts reading s
  | .thRateMark => Sys2Proof.Machine.execThRateMark s
  | .thShutdownEntry => Sys2Proof.Machine.execThShutdownEntry s
  | .logWrite => Sys2Proof.Machine.execLogWrite s
  | .logTokenRefill code => Sys2Proof.Machine.execLogTokenRefill code s
  | .hoursTick => Sys2Proof.Machine.execHoursTick s
  | .ringJoinTimeout => Sys2Proof.Machine.execRingJoinTimeout s
  | .ringIsolatedRetry => Sys2Proof.Machine.execRingIsolatedRetry s
  | .ringLeavingDone => Sys2Proof.Machine.execRingLeavingDone s
  | .portStateTimeout p => Sys2Proof.Machine.execPortStateTimeout p s
  | .laneTrained lane => Sys2Proof.Machine.execLaneTrained lane s
  | .tsBlock lane damaged trained ratePending => Sys2Proof.Machine.execTsBlock lane damaged trained ratePending s
  | .blockLockAcquired lane => Sys2Proof.Machine.execBlockLockAcquired lane s
  | .blockLockLost lane cut => Sys2Proof.Machine.execBlockLockLost lane cut s
  | .alignBlock lane damaged skew marker => Sys2Proof.Machine.execAlignBlock lane damaged skew marker s
  | .capsReceived p caps => Sys2Proof.Machine.execCapsReceived p caps s
  | .ringFrameReceived p stomped frame => Sys2Proof.Machine.execRingFrameReceived p stomped frame s
  | .quarantineRetry p => Sys2Proof.Machine.execQuarantineRetry p s
  | .ackBlock p lseq => Sys2Proof.Machine.execAckBlock p lseq s
  | .nakBlock p code lseq => Sys2Proof.Machine.execNakBlock p code lseq s
  | .creditBlock p general reserved => Sys2Proof.Machine.execCreditBlock p general reserved s
  | .replayTimeout p => Sys2Proof.Machine.execReplayTimeout p s
  | .probeSend p => Sys2Proof.Machine.execProbeSend p s
  | .probeBlock p reply number residence => Sys2Proof.Machine.execProbeBlock p reply number residence s
  | .restripeBlock p mask => Sys2Proof.Machine.execRestripeBlock p mask s
  | .switchBlock p mask cut => Sys2Proof.Machine.execSwitchBlock p mask cut s
  | .leaveBlock p reason => Sys2Proof.Machine.execLeaveBlock p reason s
  | .announceSend => Sys2Proof.Machine.execAnnounceSend s
  | .announceReceived => Sys2Proof.Machine.execAnnounceReceived s
  | .rosterExpiry node => Sys2Proof.Machine.execRosterExpiry node s
  | .syncSend => Sys2Proof.Machine.execSyncSend s
  | .syncReceived => Sys2Proof.Machine.execSyncReceived s
  | .syncLost => Sys2Proof.Machine.execSyncLost s
  | .palletReceived => Sys2Proof.Machine.execPalletReceived s
  | .palletAck => Sys2Proof.Machine.execPalletAck s
  | .ciReadMessage ci => Sys2Proof.Machine.execCiReadMessage ci s
  | .e2eResend => Sys2Proof.Machine.execE2eResend s
  | .mgmtCommand => Sys2Proof.Machine.execMgmtCommand s
  | .mgmtResult => Sys2Proof.Machine.execMgmtResult s
  | .remoteTimeout mb => Sys2Proof.Machine.execRemoteTimeout mb s
  | .safetyHeartbeat atDieA => Sys2Proof.Machine.execSafetyHeartbeat atDieA s
  | .readHistoryDone => Sys2Proof.Machine.execReadHistoryDone s
  | .timeDisciplinedLapse => Sys2Proof.Machine.execTimeDisciplinedLapse s
  | .busMasterEnableCleared => Sys2Proof.Machine.execBusMasterEnableCleared s
  | .partnerTerminationSensed p => Sys2Proof.Machine.execPartnerTerminationSensed p s

end Sys2Proof.Machine
end

