-- ==== Sys2Proof/Machine/Tick.lean ====
section
/-! DEFINITION. One nanosecond of the device timebase, which passes when no command waits. -/

namespace Sys2Proof.Machine

open Sys2Proof

/-- One TB tick: the timebase, the predictor and vehicle time advance, and the Emission Supervisor's own clock advances
by what its oscillator gives (02 R32, R34, R35; 08 R182; 10 R208, R211). What FIRE gating sees at the end of a tick is the
sample of a pulse due on the next (04 R88). A command for another member is forwarded once its turn has come (11 R239). -/
def tick (s : State) : State :=
  let (k, s1) := drawFree (forwardNext s)
  let live := s.power.main
  { s1 with
    shot.sampled := emitOk s
    angle := tickAngle s1.angle
    time := if live then tickTime s1.time else s1.time
    es.time := if s1.es.powered then wrap64 (s1.es.time + Config.esAdvance k) else s1.es.time }

end Sys2Proof.Machine
end

