-- ==== Sys2Proof/WellFormed.lean ====
section
/-! DEFINITION. Which commands are well formed: the operands that carry strings, samples or codes fit what the spec
lays out for them. Every other operand is bounded by its type. -/

namespace Sys2Proof

/-- Training reports one of the three rates and a density for each channel (16 R365). -/
def trainingOk (t : DramTraining) : Bool :=
  decide (t.rate = 8533 ∨ t.rate = 7500 ∨ t.rate = 6400) && decide (t.density.length = 4)

/-- A reset names each channel at most once (12 R287). -/
def hodsOk (hods : List HodProgress) : Bool := decide ((hods.map (fun h => h.ch)).Nodup)

/-- The operands of a command fit the fields, windows and frames they stand for: a descriptor is 64 bytes (15 R354),
a CAPS block 24 (14 R333), a ring frame 20 to 4,116 (13 R297), an access stays inside its window (15 R346, 21 R466), a
sample is a 10-bit code (09 R194) and a reading a signed 16-bit one (17). -/
def wellFormed (i : Instr) : Bool :=
  match i with
  | .commandCheck _ p =>
    match p with
    | some bs => decide (bs.length ≤ 524288)
    | none => true
  | .laneEyeScanDone l =>
    decide (l.length ≤ 8192)
  | .dieBPowerUp t =>
    trainingOk t
  | .mainPowerReturn t =>
    trainingOk t
  | .resetN _ t hods =>
    trainingOk t && hodsOk hods
  | .perstN hods =>
    hodsOk hods
  | .hotReset hods =>
    hodsOk hods
  | .functionLevelReset hods =>
    hodsOk hods
  | .blockLockLost _ cut =>
    decide (cut.length ≤ 4116)
  | .switchBlock _ _ cut =>
    decide (cut.length ≤ 4116)
  | .hkCalDone _ _ l =>
    decide (l.length = 48)
  | .hodDescriptorFetch _ p =>
    match p with
    | some bs => decide (bs.length = 64)
    | none => true
  | .hodDescriptorComplete _ _ p =>
    match p with
    | some bs => decide (bs.length = 64)
    | none => true
  | .bar2Read off n =>
    decide (0 < n ∧ off + n ≤ 2 ^ 28)
  | .bar2Write off bs =>
    decide (0 < bs.length ∧ off + bs.length ≤ 2 ^ 28)
  | .payloadSramRead off n =>
    decide (0 < n ∧ off + n ≤ 2 ^ 18)
  | .registerWrite off bs =>
    decide (0 < bs.length ∧ off + bs.length ≤ 2 ^ 20)
  | .hkConversion v _ _ =>
    decide (-32768 ≤ v ∧ v < 32768)
  | .maskViolation _ l =>
    l.all (fun v => decide (v < 1024)) && decide (l.length ≤ 65536)
  | .captureComplete _ l =>
    l.all (fun v => decide (v < 1024)) && decide (l.length ≤ 65536)
  | .tempReading _ r =>
    match r with
    | some v => decide (-32768 ≤ v ∧ v < 32768)
    | none => true
  | .capsReceived _ bs =>
    decide (bs.length = 24)
  | .ringFrameReceived _ _ bs =>
    decide (20 ≤ bs.length ∧ bs.length ≤ 4116)
  | .probeBlock _ _ n _ =>
    decide (n < 128)
  | .mbxDoorbell .. | .commandAccepted .. | .resultWriteFail .. | .journalMirrorRebuilt .. | .hello .. | .goodbye .. |
    .nop .. | .ident .. | .fwImageWrite .. | .fwImageSelect .. | .gridSetColumns .. | .gridGetColumns .. |
    .angleSetScan .. | .angleSetIndex .. | .angleStatus .. | .shotSetProgram .. | .allocSet .. | .tpmSetWeights .. |
    .tpmRead .. | .shotCourseEnable .. | .shotScheduler .. | .shotStatus .. | .recvSetCourse .. | .recvSetThresholds
    .. | .recvStatus .. | .histSetCourse .. | .histSetWalk .. | .histStatus .. | .histCaptureTile .. |
    .captureTileTimeout | .rejSetCourse .. | .rejSetDevice .. | .rejStatus .. | .dlvSetRing .. | .dlvStatus .. |
    .freezeHistory .. | .readHistory .. | .histInfo .. | .filtConfig .. | .filtControl .. | .detConfig .. |
    .loopConfig .. | .loopLoad .. | .loopControl .. | .loopStatus .. | .captConfig .. | .captSetMask .. | .captControl
    .. | .captRead .. | .captStatus .. | .esStatus .. | .esUnlock .. | .esLock .. | .esStage .. | .esCommit .. |
    .esRearm .. | .esConfirm .. | .esTrip .. | .esSetPassword .. | .esChangelogRead .. | .esLedgerRead .. |
    .ringConfig .. | .ringStatus .. | .ringMembers .. | .ringLeave .. | .ringSetPhase .. | .ringQuarantineClear .. |
    .ringPeerIdent .. | .laneEyeScan .. | .laneStatus .. | .hkConfig .. | .hkCal .. | .hkRead .. | .hkSetSwitch .. |
    .thConfig .. | .thStatus .. | .memStatus .. | .eccTableRead .. | .eccTableClear .. | .eccTest .. | .logSetLimit ..
    | .ledgerRead .. | .logHostEvent .. | .commit .. | .commitApplyStopped | .stageDiscard .. | .snapshot .. | .runArm
    .. | .runDisarm .. | .runStatus .. | .hodDoorbell .. | .hodAbort .. | .hodConfigWrite .. | .hodError .. |
    .hodAbortDone .. | .winBaseLoWrite .. | .irqCauseClear .. | .irqEnableWrite .. | .irqMapWrite .. | .idBootChunk ..
    | .idBootReset | .hostLoadVerifyDone | .hkLatch | .timeLoadNow | .timeLoadAtPps | .timeCancelLoad |
    .twoHalfLowRead .. | .twoHalfHighRead .. | .bar0BadAccess .. | .bootRomStart .. | .fwReady .. |
    .fwReadyTimeout | .vkaPowerup | .vkaLoss | .esPowerOn .. | .railWarning | .memorySupplyLoss
    | .busMasterEnable .. | .d3hotEntry | .d0Return | .cpRestart
    .. | .dieAReset .. | .dieARestored | .dieARestoreTimeout | .heartbeatLoss .. | .mortarLinkUp | .mortarLaneLoss ..
    | .mortarLaneRegained .. | .dramChannelFailed .. | .dramRetireDone .. | .dramRetrain .. | .angleUpdate |
    .missedUpdate | .frameBoundary | .columnBoundary .. | .shotDue .. | .shotLaunch .. | .doublePulseSecond .. |
    .lowDiscriminatorEdge .. | .windowClose .. | .stampDelivery .. | .tdcCalibrationDone .. | .engineP1Start .. |
    .engineP1Done .. | .engineP2Done .. | .indexEdge .. | .pickCrossing .. | .indexMissing | .recordArrival |
    .recordCommit | .historySlotArrival | .palletTimeout .. | .palletWrite .. | .irqHoldoffEnd .. | .ciPoll .. |
    .ciReadComplete .. | .timePpsEdge | .chainOutput .. | .loopSelftestDone .. | .loopStartSlow | .pwmCycleStart .. |
    .hkRoundBoundary | .shotQualTimeout .. | .captureTrigger .. | .captureHoldoffEnd .. | .esPulseCount .. | .ledgerBucketClose .. |
    .esCauseArises .. | .esCauseClears .. | .esClockCheck .. | .esSelftest .. | .esCrcCheck .. | .powerupHoldEnd |
    .rearmTimeout | .esUnlockTimeout | .unlockRefusalEnd | .safeAckFall | .safeAckRise | .esStateMessageSend |
    .esStateMessage | .safePathTimeout .. | .thRateMark | .thShutdownEntry | .logWrite | .logTokenRefill .. |
    .hoursTick | .ringJoinTimeout | .ringIsolatedRetry | .ringLeavingDone | .portStateTimeout .. | .laneTrained .. |
    .tsBlock .. | .blockLockAcquired .. | .alignBlock .. | .quarantineRetry .. | .ackBlock .. |
    .nakBlock .. | .creditBlock .. | .replayTimeout .. | .probeSend .. | .restripeBlock .. | 
    .leaveBlock .. | .announceSend | .announceReceived | .rosterExpiry .. | .syncSend | .syncReceived | .syncLost |
    .palletReceived | .palletAck | .ciReadMessage .. | .e2eResend | .mgmtCommand | .mgmtResult | .remoteTimeout .. |
    .safetyHeartbeat .. | .readHistoryDone | .timeDisciplinedLapse | .busMasterEnableCleared |
    .partnerTerminationSensed .. => true

end Sys2Proof
end

