-- ==== Sys2Proof/Safety.lean ====
section
/-! DEFINITION. What counts as a safe run: no command stops the block, storage keeps its canonical form, register fields
keep their widths, and light leaves only while the Emission Supervisor grants. -/

namespace Sys2Proof

open Sys2Proof.Machine

/-- A command has a next state. -/
def Completes (i : Instr) (s : State) : Prop := ∃ t, exec i s = .next t

/-- Memory is in canonical form: DRAM, payload SRAM, and the words of the ECC test mode; the error table holds at most 32
entries (16 R372). -/
def Memory.wf (m : MemState) : Bool :=
  tabWf 0 m.dram && tabWf false m.kept && tabWf none m.payload && tabWf 0 m.testArea && tabWf 0 m.testWords &&
    decide (m.ce.length ≤ 32)

/-- At most 64 events wait for the log writer (18 R412). -/
def LogQueue.wf (l : LogState) : Bool := decide (l.queue.length ≤ 64)

/-- A vector a map entry may hold: 0 to 63, or 0xFF for none (21 Table REGS-8). -/
def vectorOk (v : Nat) : Bool := decide (v < 64) || decide (v = 0xFF)

/-- The fields of the interrupt block and the window keep their widths, and their reserved bits read 0 (00 R12, 21 Tables
REGS-7, REGS-8, REGS-12). -/
def Interface.wf (p : PcieState) : Bool :=
  decide (p.irqCause < 2 ^ 22) && decide (p.irqEnable < 2 ^ 22) && p.irqMap.all (fun e => vectorOk e.2) &&
    decide (p.winHi < 2 ^ 5) && decide (p.winLo < 2 ^ 12) && decide (p.winBase < 2 ^ 37)

/-- Light can leave: the ES grants on every path, die A has opened its gating, and its heartbeat hold is released. -/
def mayFire (s : State) : Prop := emitOk s = true

/-- The output is a FIRE pulse. -/
def isFire : Out → Bool
  | .fire .. => true
  | _ => false

/-- The FIRE pulses of a trace of outputs. -/
def fires (out : List Out) : List Out := out.filter isFire

/-- While the Emission Supervisor denies, the emission gating of die A is closed (01 R20, 10 R217). -/
def gateFollows (s : State) : Bool := s.es.permit || !s.shot.granted

/-- A state of which every claim about runs speaks. -/
def Inv (s : State) : Prop :=
  Memory.wf s.mem = true ∧ Interface.wf s.pcie = true ∧ LogQueue.wf s.log = true ∧ gateFollows s = true

/-- What no command undoes: the queue of waiting commands is the sender's, drawn free values stay drawn, outputs stay in
the trace, the invariant holds on, and no pulse leaves while emission is denied. -/
structure Upholds (s t : State) : Prop where
  /-- the queue is untouched -/
  pending : t.pending = s.pending
  /-- free values are drawn, never put back -/
  free : s.free ≤ t.free
  /-- outputs are added, never taken back -/
  out : s.out <:+ t.out
  /-- the invariant stays -/
  inv : Inv s → Inv t
  /-- no FIRE pulse while emission is denied -/
  dark : emitOk s = false → fires t.out = fires s.out

/-- The data byte of a DRAM address, as its word holds it. -/
def dramByte (s : State) (a : Nat) : Nat := wordData (tabGet 0 s.mem.dram (a / 8)) / 2 ^ (8 * (a % 8)) % 256

/-! #### Mailbox commands -/

/-- The entry is the next command to take effect here, it holds this opcode from this mailbox, Sornor takes commands, die A
runs where the command needs it, and its block has not applied it (11 R239, 12 R270, R277). -/
def Ready (op : Nat) (mb : Fin 8) (e : JEntry) (s : State) : Prop :=
  nextEntry s = some e ∧ hOp e.header = op ∧ originBox e.origin = mb.val ∧ sornor s = true ∧ forwarded e = false ∧
    (needsDieA op e.payload = true → s.power.dieA = true) ∧ unapplied op e.jseq s = true

/-- The state in which a command takes effect: its entry is marked started and its JSEQ stands in the block that applies
it (11 R239, 12 R270). -/
def begun (op : Nat) (e : JEntry) (s : State) : State :=
  noteApplied op e.jseq (modEntry e.jseq (fun x => { x with started := true }) s)

/-- The command, run on a payload that is `good`, has the effect `eff` and completes with `reply`. -/
def Applies (op : Nat) (c : Fin 8 → Instr) (good : JEntry → State → Prop) (eff : JEntry → State → State)
    (reply : JEntry → State → Reply) : Prop :=
  ∀ (mb : Fin 8) (e : JEntry) (s : State), Ready op mb e s → good e (begun op e s) →
    exec (c mb) s = .next (finish e.jseq (reply e (begun op e s)) (eff e (begun op e s)))

/-- The command, run on a payload that is `good`, has the effect `eff` and stays ACCEPTED until another command of this
model completes it. -/
def Opens (op : Nat) (c : Fin 8 → Instr) (good : JEntry → State → Prop) (eff : JEntry → State → State) : Prop :=
  ∀ (mb : Fin 8) (e : JEntry) (s : State), Ready op mb e s → good e (begun op e s) →
    exec (c mb) s = .next (eff e (begun op e s))

/-- The mailbox commands: the opcode of Table MBOX-13 and the command that runs it. -/
def mailboxOps : List (Nat × (Fin 8 → Instr)) :=
  List.flatten [
    [(0x0101, .hello), (0x0102, .goodbye), (0x0103, .nop), (0x0104, .ident), (0x0105, .fwImageWrite), (0x0106,
    .fwImageSelect)],
    [(0x0201, .gridSetColumns), (0x0202, .gridGetColumns), (0x0203, .angleSetScan), (0x0204, .angleSetIndex),
    (0x0205, .angleStatus), (0x0206, .shotSetProgram), (0x0207, .allocSet), (0x0208, .tpmSetWeights), (0x0209,
    .tpmRead), (0x020A, .shotCourseEnable), (0x020B, .shotScheduler), (0x020C, .shotStatus)],
    [(0x0301, .recvSetCourse), (0x0302, .recvSetThresholds), (0x0303, .recvStatus), (0x0304, .histSetCourse),
    (0x0305, .histSetWalk), (0x0306, .histStatus), (0x0307, .histCaptureTile)],
    [(0x0401, .rejSetCourse), (0x0402, .rejSetDevice), (0x0403, .rejStatus)],
    [(0x0501, .dlvSetRing), (0x0502, .dlvStatus), (0x0503, .freezeHistory), (0x0504, .readHistory), (0x0505,
    .histInfo)],
    [(0x0601, .filtConfig), (0x0602, .filtControl), (0x0603, .detConfig), (0x0604, .loopConfig), (0x0605,
    .loopLoad), (0x0606, .loopControl), (0x0607, .loopStatus)],
    [(0x0701, .captConfig), (0x0702, .captSetMask), (0x0703, .captControl), (0x0704, .captRead), (0x0705,
    .captStatus)],
    [(0x0801, .esStatus), (0x0802, .esUnlock), (0x0803, .esLock), (0x0804, .esStage), (0x0805, .esCommit),
    (0x0806, .esRearm), (0x0807, .esConfirm), (0x0808, .esTrip), (0x0809, .esSetPassword), (0x080A,
    .esChangelogRead), (0x080B, .esLedgerRead)],
    [(0x0901, .ringConfig), (0x0902, .ringStatus), (0x0903, .ringMembers), (0x0904, .ringLeave), (0x0905,
    .ringSetPhase), (0x0906, .ringQuarantineClear), (0x0907, .ringPeerIdent), (0x0908, .laneEyeScan), (0x0909,
    .laneStatus)],
    [(0x0A01, .hkConfig), (0x0A02, .hkCal), (0x0A03, .hkRead), (0x0A04, .hkSetSwitch), (0x0A05, .thConfig),
    (0x0A06, .thStatus)],
    [(0x0B01, .memStatus), (0x0B02, .eccTableRead), (0x0B03, .eccTableClear), (0x0B04, .eccTest)],
    [(0x0C01, .logSetLimit), (0x0C02, .ledgerRead), (0x0C03, .logHostEvent)],
    [(0x0D01, .commit), (0x0D02, .stageDiscard), (0x0D03, .snapshot), (0x0D04, .runArm), (0x0D05, .runDisarm),
    (0x0D06, .runStatus)]]

/-- The mailbox commands without a payload. -/
def bareOps : List (Nat × (Fin 8 → Instr)) :=
  [(0x0102, .goodbye), (0x0202, .gridGetColumns), (0x0205, .angleStatus), (0x0505, .histInfo), (0x0801,
    .esStatus), (0x0803, .esLock), (0x0805, .esCommit), (0x0806, .esRearm), (0x0808, .esTrip), (0x080A,
    .esChangelogRead), (0x0902, .ringStatus), (0x0904, .ringLeave), (0x0A02, .hkCal), (0x0A06, .thStatus),
    (0x0B01, .memStatus), (0x0B02, .eccTableRead), (0x0D01, .commit), (0x0D02, .stageDiscard), (0x0D04,
    .runArm), (0x0D05, .runDisarm), (0x0D06, .runStatus)]

/-- Every field of a list of checks holds. -/
def AllGood (fields : List (Bool × Nat)) : Prop := ∀ f ∈ fields, f.1 = true

end Sys2Proof
end

