-- ==== Sys2Proof/Certificates/Slice0/Obligations.lean ====
section
/-! DEFINITION. The statements for the provers, chapter by chapter of the manual. -/

open Sys2Proof Sys2Proof.Machine

/-- A step runs the command at the front of the queue (R236, R239; derived). -/
def Obligations.StepRunsHeadOfQueue : Prop :=
  ∀ (i : Instr) (rest : List Instr) (s : State),
    step { s with pending := i :: rest } = exec i { s with pending := rest }

/-- With an empty queue a step is one nanosecond of the device timebase (R32, R88, R182, R239; derived). The model's
choice (log 1): with an empty queue a step is one tick. -/
def Obligations.IdleStepTicks : Prop :=
  ∀ s : State, s.pending = [] → ∃ t, step s = .next t ∧ t.angle.tb = (s.angle.tb + 1) % 2 ^ 64 ∧
    (s.es.powered = false → t.es = s.es) ∧ (s.power.main = false → t.time = s.time) ∧
    t = { forwardNext s with
      free := t.free, shot.sampled := emitOk s, angle := t.angle, time := t.time, es.time := t.es.time } ∧
    ((∀ e, nextEntry s = some e → forwarded e = false) → forwardNext s = s)

/-- Every command has a next state in every state (R237, R244, R347; derived). -/
def Obligations.EveryCommandAnswers : Prop :=
  ∀ (i : Instr) (s : State), Completes i s

/-- No command takes back outputs or free values, breaks the invariant, or fires while emission is denied (R20, R12,
R372, R412; derived). -/
def Obligations.CommandsUphold : Prop :=
  ∀ (i : Instr) (s t : State), exec i s = .next t → Upholds s t

/-- Every step keeps the invariant (R12, R20, R217, R350, R372, R412; derived). -/
def Obligations.StepKeepsInvariant : Prop :=
  ∀ s t : State, Inv s → step s = .next t → Inv t

/-- The state after reset has the invariant (R12, R350, R372, R412; derived). -/
def Obligations.ResetHasInvariant : Prop :=
  Inv State.reset ∧ ¬mayFire State.reset

/-- Permission is granted only by ES_CONFIRM and by a rising edge of SAFE_ACK (R218, R220, R222; derived). -/
def Obligations.GrantOnlyByConfirmOrAck : Prop :=
  ∀ (i : Instr) (s t : State), exec i s = .next t → s.es.permit = false → t.es.permit = true →
    (∃ mb, i = .esConfirm mb) ∨ i = .safeAckRise

/-- FIRE pulses leave only at a shot launch and at the second pulse of a double pulse (R86, R88, R20; derived). -/
def Obligations.PulsesOnlyAtTheirCommands : Prop :=
  ∀ (i : Instr) (s t : State), exec i s = .next t → (∀ c a b, i ≠ .shotLaunch c a b) →
    (∀ c, i ≠ .doublePulseSecond c) → fires t.out = fires s.out

/-- The command table spells no command by bits (R236; derived). -/
def Obligations.TableGivesNoBits : Prop :=
  ∀ (nbits w : Nat) (s : State), decodeTableWord nbits w = none ∧ s.withFetchWord nbits w = s

/-- What the state after reset holds (R32, R46, R218, R350, R412; derived). -/
def Obligations.ResetState : Prop :=
  State.reset.pending = [] ∧ State.reset.power.main = false ∧ State.reset.power.vka = false ∧
    (∀ m, (box State.reset m).state = .free ∧ (box State.reset m).lastSeq = 0) ∧ State.reset.mbx.session = false ∧
    State.reset.pcie.irqCause = 0 ∧ State.reset.pcie.irqEnable = 0 ∧ (∀ n, irqVector State.reset n = 0xFF) ∧
    State.reset.mbx.staging = [] ∧ State.reset.angle.pred = .stopped ∧ State.reset.es.permit = false ∧
    State.reset.set.scan = { kind := .rotor, forwardSpan := 2 ^ 32, mechSpan := 360000000 }

/-- A matching doorbell latches the header and posts; any other changes no mailbox and is counted and logged (R236,
R245, R435; derived). -/
def Obligations.DoorbellPosts : Prop :=
  ∀ (mb : Fin 8) (v : BitVec 32) (s : State), bar0Served s = true →
    let b := box s mb.val
    let idle := b.state = .free ∨ b.state = .done
    (idle ∧ v.toNat = u64 b.hdr 8 % 2 ^ 32 →
      exec (.mbxDoorbell mb v) s = .next (modBox mb.val (fun b => { b with
        latched := b.hdr, state := .posted, cflags := 0, status := 0, origStatus := 0, resultLen := 0, detail := 0
        opcode := hOp b.hdr, hostSeq := u64 b.hdr 8, hostTag := u64 b.hdr 48, waiting := none
        writeFails := false }) s)) ∧
    (¬(idle ∧ v.toNat = u64 b.hdr 8 % 2 ^ 32) → ∃ t, exec (.mbxDoorbell mb v) s = .next t ∧
      t.mbx.boxes = s.mbx.boxes ∧ t.mbx.ignored = min (2 ^ 32 - 1) (s.mbx.ignored + 1) ∧
      t = logEv 0x0D04 mb.val (if idle then 1 else 2) 0 { s with mbx.ignored := t.mbx.ignored })

/-- A posted command that passes every check enters the journal (R237, R266, R269; derived). -/
def Obligations.CheckPutsCommandInJournal : Prop :=
  ∀ (mb : Fin 8) (host : Option (List Byte)) (s t : State) (p : Bytes),
    let b := box s mb
    let h := b.latched
    b.state = .posted → sornor s = true → s.power.warning = false → s.mem.failed = 0 → unaccepted s mb.val = false →
    earlyChecks s b h = none → isRepost b h = false → middleChecks s h = none →
    readPayload mb.val h host s = (some p, t) →
    lateChecks t h p = none →
      exec (.commandCheck mb host) s = .next { t with
        mbx.journal := t.mbx.journal ++
          [{ jseq := t.mbx.nextJseq, origin := .mailbox mb.val, header := h, payload := p
             room := arenaRoom (hOp h) p }]
        mbx.nextJseq := t.mbx.nextJseq + 1 }

/-- A posted command that fails one of the first five header checks is refused without effect (R237; derived). -/
def Obligations.RefusalLeavesSequence : Prop :=
  ∀ (mb : Fin 8) (host : Option (List Byte)) (s : State) (r : Refuse),
    let b := box s mb.val
    b.state = .posted → sornor s = true → s.power.warning = false → s.mem.failed = 0 → unaccepted s mb.val = false →
    earlyChecks s b b.latched = some r →
      ∃ t, exec (.commandCheck mb host) s = .next t ∧ (box t mb.val).state = .done ∧
        (box t mb.val).status = r.status ∧
        (box t mb.val).cflags = b.cflags ||| 1 ∧ (box t mb.val).detail = refuseDetail r ∧
        (box t mb.val).lastSeq = b.lastSeq ∧ t.mbx.journal = s.mbx.journal ∧
        t.mbx.refused = min (2 ^ 32 - 1) (s.mbx.refused + 1)

/-- Acceptance marks the oldest checked command and sets LAST_SEQ (R238, R266, R267; derived). -/
def Obligations.AcceptanceSetsSequence : Prop :=
  ∀ (mb : Fin 8) (s : State) (e : JEntry), s.mbx.journal.find? (fun e => !e.accepted) = some e →
    e.origin = .mailbox mb.val → sornor s = true →
      ∃ t, exec (.commandAccepted mb) s = .next t ∧ (box t mb.val).state = .accepted ∧ (box t mb.val).status = 1 ∧
        (box t mb.val).acceptTb = now s ∧ t.mbx.acceptedTotal = wrap64 (s.mbx.acceptedTotal + 1) ∧
        (box t mb.val).lastSeq = (if hOp e.header = 0x0101 then (box s mb.val).lastSeq else hSeq e.header) ∧
        ∀ x ∈ t.mbx.journal, x.jseq = e.jseq → x.accepted = true

/-- Completing a command of a mailbox stores its outcome and ends in DONE (R241, R242, R244; derived). -/
def Obligations.FinishEndsCommand : Prop :=
  ∀ (j m : Nat) (r : Reply) (s : State) (e : JEntry), entryOf s j = some e → e.done = false → e.origin = .mailbox m →
    resultToHost s m r.result = false →
      let t := finish j r s
      (box t m).state = .done ∧ (box t m).status = r.status ∧
      (box t m).origStatus = r.orig ∧ (box t m).detail = r.detail ∧
        (box t m).resultLen = r.result.length ∧ (box t m).waiting = none ∧ ∀ k, k ≠ m → box t k = box s k

/-- A mailbox command changes nothing unless it is the oldest accepted command not started (R239; derived). -/
def Obligations.CommandsRunInAcceptanceOrder : Prop :=
  ∀ x ∈ mailboxOps, ∀ (mb : Fin 8) (s : State),
    (∀ e, nextEntry s = some e → hOp e.header ≠ x.1 ∨ originBox e.origin ≠ mb.val ∨ sornor s = false ∨
      forwarded e = true) →
      exec (x.2 mb) s = .next s

/-- A command for die A waits while die A is down, and completes with FAULT 100 ms after its reset (R277; derived). -/
def Obligations.CommandsForDieAWait : Prop :=
  ∀ x ∈ mailboxOps, ∀ (mb : Fin 8) (e : JEntry) (s : State), nextEntry s = some e → needsDieA x.1 e.payload = true →
    hOp e.header = x.1 → originBox e.origin = mb.val → sornor s = true → forwarded e = false → s.power.dieA = false →
      exec (x.2 mb) s = .next
        (if s.power.dieAStarted = true ∧ s.power.dieAResetAt + 100000000 ≤ now s then finish e.jseq faulted s else s)

/-- A command without a payload completes with BAD_LENGTH when it is given one (R474, R422, R233; derived). -/
def Obligations.BareCommandsRefusePayload : Prop :=
  ∀ x ∈ bareOps, ∀ (mb : Fin 8) (e : JEntry) (s : State), Ready x.1 mb e s → e.payload ≠ [] →
    exec (x.2 mb) s = .next (finish e.jseq badLength (begun x.1 e s))

/-- The first failing payload check decides the status (R474; derived). -/
def Obligations.PayloadIsJudgedInOrder : Prop :=
  ∀ (p : Bytes) (n : Nat) (fs : List (Bool × Nat)),
    (p.length < n → fixedPayload p n fs = some { status := 0x11 }) ∧
    (∀ (l r : List (Bool × Nat)) (off : Nat), n ≤ p.length → fs = l ++ (false, off) :: r → AllGood l →
      fixedPayload p n fs = some { status := 0x12, detail := 0x20000000 + off }) ∧
    (n < p.length → AllGood fs → fixedPayload p n fs = some { status := 0x11 }) ∧
    (fixedPayload p n fs = none ↔ p.length = n ∧ AllGood fs)

/-- RESULT_WRITE_FAIL, JOURNAL_MIRROR_REBUILT, HELLO, GOODBYE, NOP, IDENT, FW_IMAGE_WRITE and FW_IMAGE_SELECT (R254,
R256, R242, R268, R255, R257, R439, R436, R437; derived). -/
def Obligations.SessionAndImageCommands : Prop :=
  (∀ (mb : Fin 8) (s : State), (box s mb.val).state = .accepted → bit (hFlags (box s mb.val).latched) 3 = true →
    (box s mb.val).waiting = none →
      exec (.resultWriteFail mb) s = .next (modBox mb.val (fun b => { b with writeFails := true }) s)) ∧
  (∀ s : State, s.power.dieA = true → s.lanes.mortarUp = true →
    2 ≤ ((List.range 4).filter (fun i => s.lanes.maskBA.testBit i)).length →
      exec (.journalMirrorRebuilt .dieA) s = .next { s with
        mbx.mirrorA := true, mbx.heldA := (s.mbx.journal.filter (fun e => e.accepted)).map (fun e => e.jseq) }) ∧
  (∀ s : State, channelUp s 2 = true →
    exec (.journalMirrorRebuilt (.dram 0)) s = .next { s with
      mbx.copies := s.mbx.copies ||| 1
      mbx.held0 := (s.mbx.journal.filter (fun e => e.accepted)).map (fun e => e.jseq) }) ∧
  (∀ s : State, channelUp s 3 = true →
    exec (.journalMirrorRebuilt (.dram 1)) s = .next { s with
      mbx.copies := s.mbx.copies ||| 2
      mbx.held1 := (s.mbx.journal.filter (fun e => e.accepted)).map (fun e => e.jseq) }) ∧
  Applies 0x0101 .hello
    (fun e _ => let p := e.payload; p.length = 8 ∧ u8 p 0 = 4 ∧ allZero p 1 3 = true)
    (fun e s => logEv 0x0103 (u32 e.payload 4) (originBox e.origin) 0
      { s with mbx.session := true, power.resets := 0 })
    (fun _ s => okWith (helloResult s)) ∧
  Opens 0x0102 .goodbye (fun e _ => e.payload = []) (fun e s => closeSession 0xFF (finish e.jseq ok s)) ∧
  Applies 0x0103 .nop (fun e _ => e.payload.length ≤ 256) (fun _ s => s) (fun e _ => okWith e.payload) ∧
  Applies 0x0104 .ident (fun e _ => e.payload.length = 32) (fun _ s => { s with free := s.free + 1 })
    (fun e s => okWith (identBody s ++ fit 64 (Config.signature s.free (e.payload ++ identBody s)))) ∧
  Applies 0x0105 .fwImageWrite
    (fun e s => let p := e.payload
      p.length = 16 + u32 p 8 ∧ AllGood (imageWriteFields p) ∧ u8 p 0 ≠ s.power.image ∧ u32 p 4 + u32 p 8 ≤ 2 ^ 23 ∧
        bit (u8 p 1) 0 = false ∧ bit (u8 p 1) 1 = false)
    (fun e s =>
      let p := e.payload
      { s with
        power.slots := tabSet {} s.power.slots (u8 p 0)
          { parts := (u32 p 4, slice p 16 (u32 p 8)) :: (slotOf s (u8 p 0)).parts, verified := false } })
    (fun _ _ => ok) ∧
  Applies 0x0106 .fwImageSelect
    (fun e s => let p := e.payload
      p.length = 4 ∧ u8 p 0 ≤ 1 ∧ u8 p 1 = 0 ∧ allZero p 2 2 = true ∧ (slotOf s (u8 p 0)).verified = true ∧
        activeRecord s = some 0)
    (fun e s => { s with
      power.records :=
        tabSet {} s.power.records 1 ⟨true, wrap32 ((bootRecord s 0).generation + 1), u8 e.payload 0⟩ })
    (fun _ s => okWith (b4 (wrap32 ((bootRecord s 0).generation + 1))))

/-- Staging a setting leaves every setting in force as it is (R247, R93; derived). -/
def Obligations.StagingChangesNothingInForce : Prop :=
  ∀ (j : Nat) (x : StagedSetting) (s : State),
    let t := stage j x s
    t.mbx.staging = s.mbx.staging ++ [(j, x)] ∧
      t.mbx.journal = s.mbx.journal.map (fun e => if e.jseq = j then { e with stage := .staged } else e) ∧
      t = { s with mbx.staging := t.mbx.staging, mbx.journal := t.mbx.journal }

/-- The angle and grid settings commands stage exactly what their payload spells (R474, R247, R48, R46; derived). -/
def Obligations.AngleAndGridSettings : Prop :=
  Applies 0x0201 .gridSetColumns
    (fun e _ => let p := e.payload
      u32 p 0 < 2 ∧ p.length = (if u32 p 0 = 1 then 12 else 8200) ∧ columnsReply p = none)
    (fun e s => stage e.jseq (.columns (columnsOf e.payload)) s) (fun _ _ => ok) ∧
  Applies 0x0203 .angleSetScan
    (fun e _ => let p := e.payload
      p.length = 12 ∧ ((u32 p 0 = 0 ∧ u32 p 4 = 0 ∧ u32 p 8 = 360000000) ∨
        (u32 p 0 = 1 ∧ 0x10000000 ≤ u32 p 4 ∧ u32 p 4 ≤ 0xFFFFF000 ∧ 1 ≤ u32 p 8 ∧ u32 p 8 ≤ 360000000)))
    (fun e s => let p := e.payload
      stage e.jseq (.scan { kind := if u32 p 0 = 0 then .rotor else .mirror
                            forwardSpan := if u32 p 4 = 0 then 2 ^ 32 else u32 p 4
                            mechSpan := u32 p 8 }) s)
    (fun _ _ => ok) ∧
  Applies 0x0204 .angleSetIndex
    (fun e _ => let p := e.payload
      p.length = 24 ∧ u8 p 0 < 6 ∧ allZero p 1 1 = true ∧ signExt p 2 2 14 = true ∧ (2 ≤ u8 p 0 ∨ u16 p 2 = 0) ∧
        1 ≤ u32 p 8 ∧ u32 p 8 ≤ 0x1000000 ∧ u32 p 8 ≤ u32 p 12 ∧ u32 p 12 ≤ 0x40000000 ∧ 0x1000000 ≤ u32 p 16 ∧
        u32 p 16 ≤ 0xF0000000 ∧ allZero p 20 4 = true)
    (fun e s => let p := e.payload
      stage e.jseq (.index { source := u8 p 0, level := s16 p 2, angle := u32 p 4, suspectBound := u32 p 8
                             relockBound := u32 p 12, holdoff := u32 p 16 }) s)
    (fun _ _ => ok)

/-- The shot settings commands stage their programs, allocation and weights (R85, R474, R103, R104; derived). -/
def Obligations.ShotSettings : Prop :=
  Applies 0x0206 .shotSetProgram
    (fun e _ => let p := e.payload; let n := u8 p 1 + 1
      u8 p 0 + u8 p 1 ≤ 127 ∧ allZero p 2 6 = true ∧ p.length = 8 + 16 * n ∧
        AllGood (entryFields n 16 (programFields p)) ∧ ∀ i < n, spacingOk (programAt p (8 + 16 * i)) = true)
    (fun e s => let p := e.payload
      stage e.jseq (.programs (u8 p 0) ((List.range (u8 p 1 + 1)).map (fun i => programAt p (8 + 16 * i)))) s)
    (fun _ _ => ok) ∧
  Applies 0x0207 .allocSet
    (fun e _ => let p := e.payload
      p.length = 536 ∧ u8 p 0 < 3 ∧ 1 ≤ u8 p 1 ∧ u8 p 1 ≤ 32 ∧ 1 ≤ u8 p 2 ∧ u8 p 2 ≤ u8 p 3 ∧ u8 p 3 ≤ 32 ∧
        allZero p 4 4 = true ∧ ∀ c < 128, 2048 * u8 p 2 ≤ u32 p (24 + 4 * c) ∧ u32 p (24 + 4 * c) ≤ 65536)
    (fun e s => stage e.jseq (.alloc (allocOf e.payload)) s) (fun _ _ => ok) ∧
  Applies 0x0208 .tpmSetWeights
    (fun e _ => let p := e.payload
      u32 p 0 < 262144 ∧ 1 ≤ u32 p 4 ∧ u32 p 0 + u32 p 4 ≤ 262144 ∧ p.length = 8 + u32 p 4 ∧
        ∀ b ∈ p.drop 8, b.toNat < 16)
    (fun e s => let p := e.payload; stage e.jseq (.weights (u32 p 0) ((p.drop 8).map (fun b => b.toNat))) s)
    (fun _ _ => ok)

/-- The receive, histogram and rejection settings commands stage their entries (R474, R127, R110, R149, R151, R166;
derived). -/
def Obligations.ReceiveSettings : Prop :=
  Applies 0x0301 .recvSetCourse
    (fun e _ => let p := e.payload; let n := u8 p 1 + 1
      u8 p 0 + u8 p 1 ≤ 127 ∧ allZero p 2 6 = true ∧ p.length = 8 + 8 * n ∧ AllGood (entryFields n 8 (recvFields p)))
    (fun e s => let p := e.payload; stage e.jseq (.recv (u8 p 0) (itemsOf (u8 p 1 + 1) 8 (recvAt p))) s)
    (fun _ _ => ok) ∧
  Applies 0x0304 .histSetCourse
    (fun e _ => let p := e.payload; let n := u8 p 1 + 1
      u8 p 0 + u8 p 1 ≤ 127 ∧ allZero p 2 6 = true ∧ p.length = 8 + 16 * n ∧
        AllGood (entryFields n 16 (histFields p)))
    (fun e s => let p := e.payload; stage e.jseq (.hist (u8 p 0) (itemsOf (u8 p 1 + 1) 16 (histAt p))) s)
    (fun _ _ => ok) ∧
  Applies 0x0305 .histSetWalk
    (fun e _ => let p := e.payload; let n := u16 p 2
      1 ≤ n ∧ u16 p 0 + n ≤ 256 ∧ u8 p 4 < 2 ∧ allZero p 5 3 = true ∧ p.length = 8 + 128 * n ∧
        ∀ i < 64 * n, -2048 ≤ s16 p (8 + 2 * i) ∧ s16 p (8 + 2 * i) ≤ 2047)
    (fun e s => let p := e.payload
      stage e.jseq (.walk (u16 p 0) (u8 p 4)
        (itemsOf (u16 p 2) 128 (fun o => (List.range 64).map (fun i => s16 p (o + 2 * i))))) s)
    (fun _ _ => ok) ∧
  Applies 0x0401 .rejSetCourse
    (fun e _ => let p := e.payload; let n := u8 p 1 + 1
      u8 p 0 + u8 p 1 ≤ 127 ∧ allZero p 2 6 = true ∧ p.length = 8 + 8 * n ∧
        ∀ i < n, let o := 8 + 8 * i
          u16 p o < 1024 ∧ 1 ≤ u8 p (o + 3) ∧ u8 p (o + 3) ≤ 128 ∧ u8 p (o + 4) < 2 ∧ allZero p (o + 5) 3 = true)
    (fun e s => let p := e.payload; stage e.jseq (.rej (u8 p 0) (itemsOf (u8 p 1 + 1) 8 (rejAt p))) s)
    (fun _ _ => ok) ∧
  Applies 0x0402 .rejSetDevice
    (fun e _ => let p := e.payload; p.length = 8 ∧ u8 p 0 < 2 ∧ allZero p 1 7 = true)
    (fun e s => stage e.jseq (.device (decide (u8 e.payload 0 = 1))) s) (fun _ _ => ok) ∧
  Applies 0x0302 .recvSetThresholds
    (fun e _ => let p := e.payload; let n := u16 p 2
      1 ≤ n ∧ u16 p 0 + n ≤ 256 ∧ allZero p 4 4 = true ∧ p.length = 8 + 4 * n)
    (fun e s => let p := e.payload
      forUpto (u16 p 2) (fun i s => modChan (u16 p 0 + i) (fun x =>
        { x with set := ⟨u8 p (8 + 4 * i), u8 p (8 + 4 * i + 1), u8 p (8 + 4 * i + 2), u8 p (8 + 4 * i + 3)⟩
                 setAt := some (now s)
                 setBefore := match x.setAt with
                   | some t => if t < now s then some x.set else x.setBefore
                   | none => x.setBefore }) s) s)
    (fun _ _ => ok)

/-- DLV_SET_RING and RING_SET_PHASE stage their settings (R474, R188, R323; derived). -/
def Obligations.RingAndPhaseSettings : Prop :=
  Applies 0x0501 .dlvSetRing
    (fun e _ => let p := e.payload
      p.length = 48 ∧ u8 p 0 < 64 ∧ u8 p 1 < 2 ∧ u8 p 2 < 128 ∧ u8 p 2 ≤ u8 p 3 ∧ u8 p 3 ≤ 127 ∧ u8 p 4 < 2 ∧
        11 ≤ u8 p 5 ∧ u8 p 5 ≤ 24 ∧ (u8 p 6 < 64 ∨ u8 p 6 = 0xFF) ∧ allZero p 7 1 = true ∧ u64 p 8 % 4096 = 0 ∧
        u64 p 16 % 8 = 0 ∧ u64 p 24 % 8 = 0 ∧ 1 ≤ u16 p 32 ∧ u16 p 32 ≤ 28 ∧ u16 p 34 ≤ 1000 ∧ allZero p 36 12 = true)
    (fun e s => stage e.jseq (.ring (u8 e.payload 0) (ringSettings e.payload)) s) (fun _ _ => ok) ∧
  Applies 0x0905 .ringSetPhase
    (fun e _ => let p := e.payload; let n := u16 p 2
      u8 p 0 < 2 ∧ allZero p 1 1 = true ∧ n ≤ 256 ∧ (u8 p 0 = 1 ∨ n = 0) ∧ allZero p 4 4 = true ∧
        p.length = 8 + 8 * n ∧ AllGood (keepOutFields p))
    (fun e s => stage e.jseq (.phase (u8 e.payload 0) (keepOutsOf e.payload)) s) (fun _ _ => ok)

/-- COMMIT covers the staged settings; STAGE_DISCARD drops them; SNAPSHOT reads or waits (R247, R250, R248, R249,
R252, R253; derived). -/
def Obligations.CommitTakesTheStagingSet : Prop :=
  Applies 0x0D01 .commit (fun e s => e.payload = [] ∧ s.mbx.staging = []) (fun _ s => s)
    (fun _ s => okWith (commitResult (epochNo s) (frameNo s) 0)) ∧
  Opens 0x0D01 .commit (fun e s => e.payload = [] ∧ s.mbx.staging ≠ [] ∧ dieAOverdue s = false)
    (fun e s => { forEach (s.mbx.staging.map (fun x => x.1))
        (fun j => modEntry j (fun x => { x with stage := .covered })) s with
      mbx.staging := []
      mbx.commits := s.mbx.commits ++ [⟨e.jseq, acceptedOf s e.jseq, unframed s && s.power.dieA, s.mbx.staging⟩] }) ∧
  Applies 0x0D02 .stageDiscard (fun e _ => e.payload = [])
    (fun _ s => forEach (s.mbx.staging.map (fun x => x.1)) (fun j => modEntry j (fun x => { x with stage := .none }))
      { s with mbx.staging := [] })
    (fun _ s => okWith (b4 s.mbx.staging.length)) ∧
  Applies 0x0D03 .snapshot
    (fun e s => let p := e.payload; p.length = 8 ∧ u32 p 0 < 65536 ∧ allZero p 4 4 = true ∧ unframed s = true ∧
      s.power.dieA = true)
    (fun _ s => { s with free := s.free + 1 }) (fun e s => okWith (snapshotResult s (u32 e.payload 0) false)) ∧
  Opens 0x0D03 .snapshot
    (fun e s => let p := e.payload; p.length = 8 ∧ u32 p 0 < 65536 ∧ allZero p 4 4 = true ∧ dieAOverdue s = false ∧
      (unframed s = false ∨ s.power.dieA = false))
    (fun e s => { s with mbx.snapshots := s.mbx.snapshots ++ [⟨e.jseq, acceptedOf s e.jseq, u32 e.payload 0⟩] }) ∧
  ∀ (c : PendingCommit) (rest : List PendingCommit) (s : State),
    let s1 := if unframed s && s.power.dieA then latchSnapshots false s else s
    s1.mbx.commits = c :: rest → appliesUnframed s1 c = true →
      (commitCheck s1 (planOf s1 c) = none → exec .commitApplyStopped s =
        .next (passCommit c (planOf s1 c) (s1.angle.frame + 1) (frameNo s1) (nextEpoch s1))) ∧
      ∀ x, commitCheck s1 (planOf s1 c) = some x → exec .commitApplyStopped s = .next (failCommit c x s1)

/-- What the status commands answer on a good payload, and which fields their CLEAR clears (R11, R48, R49, R105, R107,
R128, R152, R167, R191, R192, R79, R206; derived). -/
def Obligations.StatusReads : Prop :=
  Applies 0x0202 .gridGetColumns (fun e _ => e.payload = []) (fun _ s => s) (fun _ s => okWith (columnsResult s)) ∧
  Applies 0x0205 .angleStatus (fun e _ => e.payload = []) (fun _ s => { s with angle.maxAbsE := 0 })
    (fun _ s => okWith (angleStatus s)) ∧
  Applies 0x0209 .tpmRead
    (fun e _ => let p := e.payload
      p.length = 8 ∧ u32 p 0 < 262144 ∧ 1 ≤ u32 p 4 ∧ u32 p 4 ≤ 65536 ∧ u32 p 0 + u32 p 4 ≤ 262144) (fun _ s => s)
    (fun e s => okWith (b4 (frameNo s) ++ b4 (frameNo s) ++
      (List.range (u32 e.payload 4)).flatMap (fun i => b4 (tpmWord s (u32 e.payload 0 + i))))) ∧
  Applies 0x0502 .dlvStatus (fun e _ => let p := e.payload; p.length = 4 ∧ u8 p 0 < 64 ∧ allZero p 1 3 = true)
    (fun _ s => s) (fun e s => okWith (dlvStatus s (u8 e.payload 0))) ∧
  Applies 0x0505 .histInfo (fun e _ => e.payload = []) (fun _ s => { s with free := s.free + 1 })
    (fun _ s => okWith (histInfo s)) ∧
  Applies 0x0801 .esStatus (fun e _ => e.payload = []) (fun _ s => s) (fun _ s => okWith (esStatus s)) ∧
  Applies 0x080A .esChangelogRead (fun e _ => e.payload = []) (fun _ s => s)
    (fun _ s => okWith (b4 s.es.changelog.length ++ b4 0 ++ fit 1536 (s.es.changelog.flatMap id))) ∧
  Applies 0x080B .esLedgerRead
    (fun e _ => let p := e.payload; p.length = 8 ∧ u8 p 0 < 128 ∧ allZero p 1 7 = true) (fun _ s => s)
    (fun e s => let q := u8 e.payload 0
      okWith ((List.range 3).flatMap (fun k => b8 (portSum s q k)) ++
        (List.range 3).flatMap (fun k => b8 (groupSum s (q / 8) k)))) ∧
  Applies 0x0902 .ringStatus (fun e _ => e.payload = []) (fun _ s => s) (fun _ s => okWith (ringStatus s)) ∧
  Applies 0x0909 .laneStatus (fun e _ => let p := e.payload; p.length = 4 ∧ u8 p 0 < 20 ∧ allZero p 1 3 = true)
    (fun _ s => { s with free := s.free + 1 }) (fun e s => okWith (laneStatus s (u8 e.payload 0))) ∧
  Applies 0x0A06 .thStatus (fun e _ => e.payload = []) (fun _ s => s) (fun _ s => okWith (thStatus s)) ∧
  Applies 0x0B01 .memStatus (fun e _ => e.payload = []) (fun _ s => s) (fun _ s => okWith (memStatus s)) ∧
  Applies 0x0B02 .eccTableRead (fun e _ => e.payload = []) (fun _ s => s) (fun _ s => okWith (eccTable s)) ∧
  Applies 0x0D06 .runStatus (fun e _ => e.payload = []) (fun _ s => s) (fun _ s => okWith (runStatus s)) ∧
  Applies 0x0C02 .ledgerRead
    (fun e _ => let p := e.payload
      p.length = 12 ∧ u8 p 0 < 8 ∧ allZero p 1 3 = true ∧ u32 p 4 < regionSize (u8 p 0) ∧ 1 ≤ u32 p 8 ∧
        u32 p 8 ≤ 8192 ∧ u32 p 4 + u32 p 8 ≤ regionSize (u8 p 0)) (fun _ s => s)
    (fun e s => let p := e.payload; okWith (nvRead s (u8 p 0) (u32 p 4) (u32 p 8))) ∧
  Applies 0x020C .shotStatus
    (fun e _ => let p := e.payload
      p.length = 4 ∧ (u8 p 0 < 128 ∨ u8 p 0 = 0xFF) ∧ u8 p 1 < 2 ∧ allZero p 2 2 = true)
    (fun e s => if u8 e.payload 1 = 1 then
        forEach (coursesOf (u8 e.payload 0)) (fun c => modCourse c (fun x =>
          { x with cappedFrames := 0, exhaustedFrames := 0 })) s
      else s)
    (fun e s => okWith (shotStatus (u8 e.payload 0) s)) ∧
  Applies 0x0303 .recvStatus
    (fun e _ => let p := e.payload; p.length = 4 ∧ u16 p 0 < 256 ∧ u8 p 2 < 2 ∧ allZero p 3 1 = true)
    (fun e s => if u8 e.payload 2 = 1 then clearRecv (u16 e.payload 0) s else s)
    (fun e s => okWith (recvStatus (u16 e.payload 0) s)) ∧
  Applies 0x0306 .histStatus
    (fun e _ => let p := e.payload; p.length = 4 ∧ u8 p 0 < 32 ∧ u8 p 1 < 2 ∧ allZero p 2 2 = true)
    (fun e s => if u8 e.payload 1 = 1 then
        modEngine (u8 e.payload 0) (fun x => { x with queueMax := 0, maxLatency := 0 }) s
      else s)
    (fun e s => okWith (histStatus (u8 e.payload 0) s)) ∧
  Applies 0x0403 .rejStatus
    (fun e _ => let p := e.payload
      p.length = 4 ∧ (u8 p 0 < 128 ∨ u8 p 0 = 0xFF) ∧ u8 p 1 < 2 ∧ allZero p 2 2 = true)
    (fun e s => if u8 e.payload 1 = 1 then
        forEach (coursesOf (u8 e.payload 0)) (fun c => modRej c (fun x => { x with maxMismatch := 0 })) s
      else s)
    (fun e s => okWith (rejStatus (u8 e.payload 0) s)) ∧
  Opens 0x0607 .loopStatus (fun e _ => let p := e.payload; p.length = 4 ∧ u8 p 0 < 2 ∧ allZero p 1 3 = true)
    (fun e s => settleLoop { s with loop.reads := s.loop.reads ++ [(e.jseq, decide (u8 e.payload 0 = 1))] }) ∧
  (∀ s : State, s.loop.actions = [] → hasPeriods s = false →
    settleLoop s = forEach s.loop.reads (fun e x => finish e.1 (okWith (loopStatus s)) x)
      (if s.loop.reads.any (fun e => e.2) then clearLoopStatus { s with loop.reads := [] }
        else { s with loop.reads := [] })) ∧
  (∀ s : State, hasPeriods s = true → settleLoop s = s) ∧
  Applies 0x0705 .captStatus
    (fun e _ => let p := e.payload; p.length = 4 ∧ u8 p 0 < 2 ∧ u8 p 1 < 2 ∧ allZero p 2 2 = true)
    (fun e s => if u8 e.payload 1 = 1 then modCapt (u8 e.payload 0) (fun x => { x with missed := 0 }) s else s)
    (fun e s => okWith (captStatus (u8 e.payload 0) s))

/-- SHOT_COURSE_ENABLE, SHOT_SCHEDULER, HIST_CAPTURE_TILE and its timeout, FREEZE_HISTORY and READ_HISTORY (R91, R92,
R153, R189, R190; derived). -/
def Obligations.CourseAndTileCommands : Prop :=
  Applies 0x020A .shotCourseEnable
    (fun e _ => let p := e.payload
      p.length = 24 ∧ u8 p 0 < 2 ∧ allZero p 1 7 = true ∧ allZero p 8 16 = false)
    (fun e s =>
      let hit := ((List.range 128).filter (fun c => bit (le e.payload 8 16) c)).filter
        (courseChanges (u8 e.payload 0) s)
      let s1 := forEach hit (fun c s =>
        if u8 e.payload 0 = 0 then disableCourse c s else modCourse c (fun x => { x with enablePending := true }) s) s
      match hit with
      | [] => s1
      | c :: _ => logEv 0x0205 (u8 e.payload 0) c hit.length s1)
    (fun _ _ => ok) ∧
  Applies 0x020B .shotScheduler
    (fun e _ => let p := e.payload; p.length = 4 ∧ u8 p 0 = 0 ∧ allZero p 1 3 = true)
    (fun _ s => schedulerOff s) (fun _ _ => ok) ∧
  Applies 0x020B .shotScheduler
    (fun e s => let p := e.payload; p.length = 4 ∧ u8 p 0 = 1 ∧ allZero p 1 3 = true ∧ s.mbx.armed = true ∧
      s.shot.enabled = false ∧ s.shot.enablePending = false)
    (fun _ s => logEv 0x0206 1 0 0 { s with shot.enablePending := true }) (fun _ _ => ok) ∧
  Applies 0x020B .shotScheduler
    (fun e s => let p := e.payload; p.length = 4 ∧ u8 p 0 = 1 ∧ allZero p 1 3 = true ∧ s.mbx.armed = true ∧
      (s.shot.enabled = true ∨ s.shot.enablePending = true)) (fun _ s => s) (fun _ _ => ok) ∧
  Applies 0x020B .shotScheduler
    (fun e s => let p := e.payload; p.length = 4 ∧ u8 p 0 = 1 ∧ allZero p 1 3 = true ∧ s.mbx.armed = false)
    (fun _ s => s) (fun _ _ => notArmed) ∧
  Opens 0x0307 .histCaptureTile
    (fun e s => let p := e.payload
      p.length = 8 ∧ u32 p 0 < 262144 ∧ allZero p 4 4 = true ∧ s.eng.capture = none)
    (fun e s => { s with
      eng.capture := some ⟨e.jseq, u32 e.payload 0,
        (match entryOf s e.jseq with | some x => x.acceptedAt | none => now s), false⟩ }) ∧
  Applies 0x0307 .histCaptureTile
    (fun e s => let p := e.payload
      p.length = 8 ∧ u32 p 0 < 262144 ∧ allZero p 4 4 = true ∧ s.eng.capture.isSome = true)
    (fun _ s => s) (fun _ _ => noResource) ∧
  (∀ (s : State) (k : TileCapture), s.eng.capture = some k → k.tick + 1000000000 ≤ now s →
    exec .captureTileTimeout s = .next (finish k.jseq notArmed { s with
      eng.capture := none, eng.tiles := s.eng.tiles.map (fun t => { t with captured := false }) })) ∧
  Applies 0x0503 .freezeHistory
    (fun e s => let p := e.payload; let r := (u32 p 4, u32 p 8)
      p.length = 12 ∧ u8 p 0 = 0 ∧ allZero p 1 3 = true ∧ notBefore (u32 p 8) (u32 p 4) = true ∧
        s.dlv.frozen.length < 8 ∧ (∀ f, oldestFrame s = some f → notBefore (u32 p 4) f = true) ∧
        keptCount s (s.dlv.frozen ++ [r]) (s.dlv.reads.flatMap (fun x => x.frames)) + 8 ≤ s.dlv.depth)
    (fun e s => let p := e.payload
      logEv 0x0505 0 (u32 p 4) (u32 p 8) { s with dlv.frozen := s.dlv.frozen ++ [(u32 p 4, u32 p 8)] })
    (fun _ _ => ok) ∧
  Applies 0x0503 .freezeHistory
    (fun e s => let p := e.payload
      p.length = 12 ∧ u8 p 0 = 1 ∧ allZero p 1 3 = true ∧ notBefore (u32 p 8) (u32 p 4) = true ∧
        s.dlv.frozen.contains (u32 p 4, u32 p 8) = true)
    (fun e s => let p := e.payload
      logEv 0x0505 1 (u32 p 4) (u32 p 8) { s with dlv.frozen := s.dlv.frozen.erase (u32 p 4, u32 p 8) })
    (fun _ _ => ok) ∧
  Opens 0x0504 .readHistory
    (fun e s => let p := e.payload
      p.length = 40 ∧ 1 ≤ u16 p 4 ∧ u16 p 4 ≤ s.dlv.depth ∧ 1 ≤ u8 p 6 ∧ u8 p 6 ≤ 7 ∧ u8 p 7 < 8 ∧
        u32 p 8 < 262144 ∧ 1 ≤ u32 p 12 ∧ u32 p 8 + u32 p 12 ≤ 262144 ∧ u64 p 16 % 64 = 0 ∧
        allZero p 24 16 = true ∧ hodBusy (hod s (u8 p 7)) = false ∧
        (∀ f ∈ namedFrames s (u32 p 0) (u16 p 4), ∃ n k, f = some n ∧ planeOf s n = some k ∧
          planeClosed (plane s k) = true) ∧
        keptCount s s.dlv.frozen ((namedFrames s (u32 p 0) (u16 p 4)).filterMap id ++
          s.dlv.reads.flatMap (fun x => x.frames)) + 8 ≤ s.dlv.depth)
    (fun e s => let p := e.payload
      modHod (u8 p 7) (fun x => { x with deviceOwned := true, state := .running }) { s with
        dlv.reads := s.dlv.reads ++ [⟨e.jseq, u8 p 7, (namedFrames s (u32 p 0) (u16 p 4)).filterMap id, u8 p 6,
          u32 p 8, u32 p 12, u64 p 16⟩] })

/-- FILT_CONFIG, FILT_CONTROL, DET_CONFIG, LOOP_CONFIG, LOOP_LOAD and LOOP_CONTROL on a good payload (R53, R66, R55,
R57, R59, R78, R71; derived). -/
def Obligations.FilterAndLoopCommands : Prop :=
  Applies 0x0601 .filtConfig
    (fun e s => let p := e.payload; let len := lenOf (u8 p 2)
      u8 p 0 < 2 ∧ u8 p 1 < 3 ∧ u8 p 2 < 3 ∧ 1 ≤ u8 p 3 ∧ u8 p 3 ≤ 32 ∧ allZero p 4 4 = true ∧
        p.length = 8 + 2 * len ∧ (∀ i < len / 2, signExt p (8 + 4 * i) 4 18 = true) ∧
        100 ≤ decOf (u8 p 1) * u8 p 3 ∧ (chain s (u8 p 0)).running = false)
    (fun e s => let p := e.payload
      modChain (u8 p 0) (fun x => { x with
        configured := true, cicDec := decOf (u8 p 1), firLen := lenOf (u8 p 2), firDec := u8 p 3
        taps := (List.range (lenOf (u8 p 2) / 2)).map (fun i => s32 p (8 + 4 * i)) }) s)
    (fun _ _ => ok) ∧
  Applies 0x0602 .filtControl
    (fun e s => let p := e.payload
      p.length = 8 ∧ u8 p 0 < 3 ∧ u8 p 1 = 0 ∧ u8 p 2 < 3 ∧ u8 p 3 < 16 ∧ (u8 p 2 = 2 ∨ u8 p 3 = 0) ∧
        allZero p 4 4 = true ∧ ∀ c ∈ chainsOf (u8 p 0), loopRefuses s 0 c = false)
    (fun e s => settleLoop (forEach (chainsOf (u8 e.payload 0)) (fun c s =>
      modChain c (fun x => { x with running := false, fresh := false, held := [] }) s) s)) (fun _ _ => ok) ∧
  Applies 0x0602 .filtControl
    (fun e s => let p := e.payload
      p.length = 8 ∧ u8 p 0 < 3 ∧ u8 p 1 = 1 ∧ u8 p 2 < 3 ∧ u8 p 3 < 16 ∧ (u8 p 2 = 2 ∨ u8 p 3 = 0) ∧
        allZero p 4 4 = true ∧ ∀ c ∈ chainsOf (u8 p 0), loopRefuses s 1 c = false ∧ (chain s c).configured = true)
    (fun e s => let p := e.payload
      settleLoop (forEach (chainsOf (u8 p 0)) (fun c s => modChain c (startChain (u8 p 2) (u8 p 3) e.jseq) s) s))
    (fun _ _ => ok) ∧
  Applies 0x0602 .filtControl
    (fun e s => let p := e.payload
      p.length = 8 ∧ u8 p 0 < 3 ∧ u8 p 1 = 2 ∧ u8 p 2 < 3 ∧ u8 p 3 < 16 ∧ (u8 p 2 = 2 ∨ u8 p 3 = 0) ∧
        allZero p 4 4 = true ∧ ∀ c ∈ chainsOf (u8 p 0), loopRefuses s 2 c = false)
    (fun e s => let p := e.payload
      settleLoop (forEach (chainsOf (u8 p 0)) (fun c s => modChain c (fun x =>
        resetDetectors { x with source := u8 p 2, hkCh := u8 p 3 }) s) s))
    (fun _ _ => ok) ∧
  Applies 0x0603 .detConfig
    (fun e _ => let p := e.payload
      p.length = 24 ∧ u8 p 0 < 2 ∧ u8 p 1 ≤ 16 ∧ u8 p 2 < 2 ∧ 1 ≤ u8 p 3 ∧ u8 p 3 ≤ 16 ∧ signExt p 4 4 24 = true ∧
        signExt p 8 4 24 = true ∧ u32 p 12 < 2 ^ 23 ∧ u8 p 16 < 2 ∧ allZero p 17 7 = true)
    (fun e s => let p := e.payload
      let d : DetSettings :=
        { rmsLog2n := u8 p 1, envOmega := decide (u8 p 2 = 1), decayShift := u8 p 3, envCenter := s32 p 4
          thLevel := s32 p 8, thHyst := ((u32 p 12 : Nat) : Int), thEnable := decide (u8 p 16 = 1) }
      modChain (u8 p 0) (fun x => { x with detNew := some d }) s)
    (fun _ _ => ok) ∧
  Applies 0x0604 .loopConfig
    (fun e s => let p := e.payload
      p.length = 80 ∧ AllGood (loopConfigFields p) ∧ (projectedRun s = .stopped ∨ projectedRun s = .fault))
    (fun e s =>
      let s1 := { s with loop.config := some (loopConfigOf e.payload) }
      settleLoop { s1 with angle.tc := controlPeriodNs s1 }) (fun _ _ => ok) ∧
  Applies 0x0605 .loopLoad
    (fun e s => let p := e.payload
      p.length = 200 ∧ u8 p 0 < 3 ∧ 1 ≤ u8 p 1 ∧ u8 p 1 ≤ 8 ∧ signExt p 2 1 6 = true ∧ allZero p 3 5 = true ∧
        (∀ k < 8, AllGood (stageFields p k)) ∧ (u8 p 0 < 2 → u8 p 0 ≠ s.loop.bank) ∧
        (u8 p 0 = 2 → s.loop.run ≠ .startup ∧ s.loop.run ≠ .recovery ∧ s.loop.run ≠ .selftest))
    (fun e s => let p := e.payload
      { s with
        loop.sets := tabSet {} s.loop.sets (u8 p 0)
          { loaded := true, nStages := u8 p 1, expIn := signed 8 (u8 p 2)
            stages := (List.range 8).map (stageOf p) } })
    (fun _ _ => ok) ∧
  Opens 0x0606 .loopControl
    (fun e s => let p := e.payload
      p.length = 8 ∧ u8 p 0 < 6 ∧ allZero p 1 1 = true ∧ (u8 p 0 = 2 ∨ u16 p 2 = 0) ∧ allZero p 4 4 = true ∧
        controlCheck (u8 p 0) s = none)
    (fun e s => settleLoop { s with
      loop.actions := s.loop.actions ++ [⟨e.jseq, u8 e.payload 0, s16 e.payload 2⟩] }) ∧
  ∀ r : Reply, Applies 0x0606 .loopControl
    (fun e s => let p := e.payload
      p.length = 8 ∧ u8 p 0 < 6 ∧ allZero p 1 1 = true ∧ (u8 p 0 = 2 ∨ u16 p 2 = 0) ∧ allZero p 4 4 = true ∧
        controlCheck (u8 p 0) s = some r) (fun _ s => s) (fun _ _ => r)

/-- The capture, housekeeping and thermal commands, LANE_EYE_SCAN and its end on a good payload (R200, R407, R199,
R204, R205, R341, R389, R395, R408, R394, R400; derived). -/
def Obligations.CaptureAndSensorCommands : Prop :=
  Applies 0x0701 .captConfig
    (fun e s => let p := e.payload
      p.length = 32 ∧ AllGood (captFields p) ∧ captIdle (capt s (u8 p 0)) = true ∧
        (captCfg (capt s (u8 p 0))).input = u8 p 1)
    (fun e s => modCapt (u8 e.payload 0) (fun x => { x with cfg := some (captConfigOf e.payload) }) s)
    (fun e _ => let c := captConfigOf e.payload
      { status := if c.clamped then 0x16 else 0, result := b4 c.post ++ b4 0 }) ∧
  Applies 0x0701 .captConfig
    (fun e s => let p := e.payload
      p.length = 32 ∧ AllGood (captFields p) ∧ captIdle (capt s (u8 p 0)) = true ∧
        (captCfg (capt s (u8 p 0))).input ≠ u8 p 1)
    (fun e s => modCapt (u8 e.payload 0) (fun x =>
      { x with cfg := some (captConfigOf e.payload), changed := true, changedAt := now s }) s)
    (fun e _ => let c := captConfigOf e.payload
      { status := if c.clamped then 0x16 else 0, result := b4 c.post ++ b4 0 }) ∧
  Applies 0x0702 .captSetMask
    (fun e s => let p := e.payload
      p.length = 520 ∧ u8 p 0 < 2 ∧ u8 p 1 < 2 ∧ u8 p 2 ≤ 64 ∧ u8 p 2 ≠ 1 ∧ allZero p 3 5 = true ∧
        (∀ k < 64, AllGood (pointFields p k)) ∧ captIdle (capt s (u8 p 0)) = true)
    (fun e s => let p := e.payload
      let env := (List.range (u8 p 2)).map (fun k => (s32 p (8 + 8 * k), u16 p (12 + 8 * k)))
      modCapt (u8 p 0) (fun x => if u8 p 1 = 0 then { x with upper := env } else { x with lower := env }) s)
    (fun _ _ => ok) ∧
  Applies 0x0703 .captControl
    (fun e s => let p := e.payload
      p.length = 8 ∧ u8 p 0 < 2 ∧ u8 p 1 = 0 ∧ allZero p 2 6 = true ∧ (capt s (u8 p 0)).run ≠ .capturing)
    (fun e s => modCapt (u8 e.payload 0) (fun x =>
      { x with run := .stopped, line := false, quals := [], force := none }) s)
    (fun _ _ => ok) ∧
  Opens 0x0703 .captControl
    (fun e s => let p := e.payload
      p.length = 8 ∧ u8 p 0 < 2 ∧ u8 p 1 = 0 ∧ allZero p 2 6 = true ∧ (capt s (u8 p 0)).run = .capturing)
    (fun e s => modCapt (u8 e.payload 0) (fun x => { x with stops := x.stops ++ [e.jseq] }) s) ∧
  Applies 0x0703 .captControl
    (fun e s => let p := e.payload
      p.length = 8 ∧ u8 p 0 < 2 ∧ u8 p 1 = 1 ∧ allZero p 2 6 = true ∧ (capt s (u8 p 0)).cfg.isSome = true ∧
        captIdle (capt s (u8 p 0)) = true)
    (fun e s => armUnit (u8 e.payload 0) s) (fun _ _ => ok) ∧
  Applies 0x0703 .captControl
    (fun e s => let p := e.payload
      p.length = 8 ∧ u8 p 0 < 2 ∧ u8 p 1 = 2 ∧ allZero p 2 6 = true ∧ (capt s (u8 p 0)).run = .armed)
    (fun e s => modCapt (u8 e.payload 0) (fun x =>
      { x with force := some (max x.storeFrom (2 * now s + 1)) }) s) (fun _ _ => ok) ∧
  (∀ c : Capture, Applies 0x0704 .captRead
    (fun e s => let p := e.payload
      p.length = 12 ∧ u8 p 0 < 2 ∧ allZero p 1 3 = true ∧ u32 p 4 < 65536 ∧ 1 ≤ u32 p 8 ∧
        u32 p 4 + u32 p 8 ≤ 65536 ∧ captIdle (capt s (u8 p 0)) = true ∧ (capt s (u8 p 0)).held = some c)
    (fun _ s => s) (fun e _ => let p := e.payload; okWith (captReadResult (u8 p 0) (u32 p 4) (u32 p 8) c))) ∧
  Applies 0x0A01 .hkConfig
    (fun e s => let p := e.payload; p.length = 140 ∧ AllGood (hkFields p) ∧ hkLocked s (u8 p 0) = false)
    (fun e s => let p := e.payload
      modHk (u8 p 0) (fun x =>
        { x with setNew := some { exc := u8 p 1, curve := u8 p 2, params := p.drop 8 } }) s) (fun _ _ => ok) ∧
  Applies 0x0A04 .hkSetSwitch
    (fun e s => let p := e.payload
      p.length = 12 ∧ u8 p 0 < 36 ∧ u8 p 1 < 2 ∧ u8 p 2 < 2 ∧ allZero p 3 1 = true ∧ u32 p 8 ≤ 0x7FFFFFFF ∧
        hkLocked s (u8 p 0) = false)
    (fun e s => let p := e.payload
      let w : HkSwitch := { enable := decide (u8 p 2 = 1), level := s32 p 4, hyst := u32 p 8 }
      modHk (u8 p 0) (fun x => if u8 p 1 = 0 then { x with highNew := some w } else { x with lowNew := some w }) s)
    (fun _ _ => ok) ∧
  Opens 0x0A03 .hkRead
    (fun e _ => let p := e.payload
      p.length = 4 ∧ u8 p 0 < 36 ∧ 1 ≤ u8 p 1 ∧ u8 p 0 + u8 p 1 ≤ 36 ∧ u8 p 2 < 2 ∧ allZero p 3 1 = true)
    (fun e s => let p := e.payload
      { s with hk.reads := s.hk.reads ++ [⟨e.jseq, u8 p 0, u8 p 1, decide (u8 p 2 = 1)⟩] }) ∧
  Opens 0x0A02 .hkCal (fun e s => e.payload = [] ∧ s.mbx.armed = false ∧ s.hk.cal = none)
    (fun e s => { s with hk.cal := some (e.jseq, now s) }) ∧
  Applies 0x0A02 .hkCal (fun e s => e.payload = [] ∧ s.mbx.armed = true) (fun _ s => s)
    (fun _ _ => { status := 0x15 }) ∧
  Applies 0x0A05 .thConfig
    (fun e _ => let p := e.payload; p.length = 16 ∧ AllGood (thFields p))
    (fun e s => let p := e.payload
      logEv 0x0A06 (unsigned 32 (s16 p 0)) (unsigned 32 (s16 p 2)) (unsigned 32 (s16 p 4)) { s with
        th.warn := s16 p 0, th.throttle := s16 p 2, th.shutdown := s16 p 4, th.rise1s := u16 p 6
        th.rise200 := u16 p 8 })
    (fun _ _ => ok) ∧
  Opens 0x0908 .laneEyeScan
    (fun e s => let p := e.payload
      p.length = 16 ∧ AllGood (eyeFields p) ∧ (lane s (u8 p 0)).locked = true ∧ s.lanes.scan = none)
    (fun e s => let p := e.payload
      { s with lanes.scan := some (startScan s e.jseq p) }) ∧
  ∀ (counts : List Nat) (s : State) (x : EyeScan), s.lanes.scan = some x →
    let n := x.phases * x.volts
    counts.length = n → 66000 * x.start + n * dwellTime x ≤ 66000 * now s →
      exec (.laneEyeScanDone counts) s = .next (finish x.jseq (okWith (b1 x.lane ++
        b1 (b2n ((List.range n).any (pointLost s x))) ++ b1 x.phases ++ b1 x.volts ++ b1 x.rate ++ zeros 3 ++
        b8 (2 ^ x.dwell) ++ (List.range n).flatMap (fun k =>
          b4 (if pointLost s x k then 0xFFFFFFFF else min (nth counts k) 0xFFFFFFFE))))
        { s with lanes.scan := none })

/-- ES_UNLOCK, ES_LOCK, ES_STAGE, ES_COMMIT, ES_REARM, ES_CONFIRM, ES_TRIP and ES_SET_PASSWORD on a good payload
(R217, R222, R225, R227, R220, R215, R224; derived). -/
def Obligations.SupervisorCommands : Prop :=
  Applies 0x0802 .esUnlock
    (fun e s => let p := e.payload
      p.length = 24 ∧ u8 p 0 < 4 ∧ allZero p 1 7 = true ∧ s.es.refusal = none ∧
        passwordFits (u8 p 0) (slice p 8 16) s = true)
    (fun e s => { s with es.unlocked := some (u8 e.payload 0), es.wrong := 0, es.unlockAt := s.es.time })
    (fun _ _ => ok) ∧
  Applies 0x0802 .esUnlock
    (fun e s => let p := e.payload
      p.length = 24 ∧ u8 p 0 < 4 ∧ allZero p 1 7 = true ∧ s.es.refusal = none ∧
        passwordFits (u8 p 0) (slice p 8 16) s = false)
    (fun e s => logEv 0x0804 (u8 e.payload 0) 0 0 { s with
      es.unlocked := none, es.wrong := s.es.wrong + 1, es.unlockFails := sat32 (s.es.unlockFails + 1)
      es.refusal := if 3 ≤ s.es.wrong + 1 then some (s.es.time + 60000000000) else none })
    (fun _ _ => { status := 0x14 }) ∧
  Applies 0x0802 .esUnlock
    (fun e s => let p := e.payload; p.length = 24 ∧ u8 p 0 < 4 ∧ allZero p 1 7 = true ∧ s.es.refusal.isSome = true)
    (fun _ s => s) (fun _ _ => { status := 0x14 }) ∧
  Applies 0x0803 .esLock (fun e _ => e.payload = []) (fun _ s => { s with es.unlocked := none }) (fun _ _ => ok) ∧
  Applies 0x0804 .esStage
    (fun e s => let p := e.payload; let id := u16 p 0
      1 ≤ id ∧ id ≤ 7 ∧ allZero p 2 6 = true ∧ p.length = 8 + blockSize id ∧ AllGood (blockFields id p) ∧
        s.es.unlocked.isSome = true)
    (fun e s => { s with
      es.staged := tabSet [] s.es.staged (u16 e.payload 0) (e.payload.drop 8), es.unlockAt := s.es.time })
    (fun _ _ => ok) ∧
  Applies 0x0805 .esCommit (fun e s => e.payload = [] ∧ s.es.unlocked = none) (fun _ s => s)
    (fun _ _ => { status := 0x14 }) ∧
  Applies 0x0805 .esCommit
    (fun e s => e.payload = [] ∧ s.es.unlocked.isSome = true ∧
      ((tabGet [] s.es.staged 1).isEmpty = true ∨ s.es.run = .tripped))
    (fun _ s => (commitConfig s).1) (fun _ s => (commitConfig s).2) ∧
  Applies 0x0806 .esRearm
    (fun e s => let s0 := takeCauses s
      e.payload = [] ∧ s0.es.powered = true ∧ s0.es.run = .cleared ∧ s0.es.cfg.rearmPath ≠ 0)
    (fun e s => let s0 := takeCauses s
      { s0 with
        free := s0.free + 1, es.run := .rearmPending
        es.rearm := some ⟨originPair s e.origin, Config.rearmToken s0.free % 2 ^ 32, acceptedEs e.jseq s0⟩ })
    (fun _ s => okWith (b4 (Config.rearmToken (takeCauses s).free % 2 ^ 32) ++ b4 0)) ∧
  (∀ r : Rearm, Applies 0x0807 .esConfirm
    (fun e s => let p := e.payload; let s0 := takeCauses s
      p.length = 8 ∧ allZero p 4 4 = true ∧ s0.es.run = .rearmPending ∧ s0.es.rearm = some r ∧
        r.origin = originPair s e.origin ∧ r.token = u32 p 0 ∧ r.tick + 100000000 ≤ acceptedEs e.jseq s0 ∧
        acceptedEs e.jseq s0 ≤ r.tick + 2000000000)
    (fun _ s => logEv 0x0803 1 0 0 (emit (.permit true)
      { takeCauses s with es.run := .permit, es.permit := true, es.rearm := none })) (fun _ _ => ok)) ∧
  Applies 0x0808 .esTrip (fun e _ => e.payload = []) (fun _ s => esArise 12 s) (fun _ _ => ok) ∧
  Applies 0x0809 .esSetPassword
    (fun e s => let p := e.payload
      p.length = 24 ∧ u8 p 0 < 4 ∧ allZero p 1 7 = true ∧ (s.es.unlocked = some 0 ∨ s.es.unlocked = some (u8 p 0)))
    (fun e s => (setPassword (u8 e.payload 0) (slice e.payload 8 16) s).1)
    (fun e s => (setPassword (u8 e.payload 0) (slice e.payload 8 16) s).2)

/-- RING_CONFIG, RING_MEMBERS, RING_LEAVE, RING_QUARANTINE_CLEAR and RING_PEER_IDENT on a good payload (R293, R302,
R319, R321, R322, R324, R325; derived). -/
def Obligations.RingCommands : Prop :=
  Applies 0x0901 .ringConfig
    (fun e s => let p := e.payload; let c := ringConfigOf p
      p.length = 16 ∧ AllGood (ringConfigFields p) ∧
        ((s.ring.run = .bypass ∨ s.ring.run = .isolated) ∨
          (c.nodeId = s.ring.cfg.nodeId ∧ c.rate = s.ring.cfg.rate ∧ c.enable = true)))
    (fun e s => let c := ringConfigOf e.payload
      let s1 := { s with
        ring.cfg := c, ring.duplicateId := s.ring.duplicateId && decide (c.nodeId = s.ring.cfg.nodeId)
        time.loadPending := s.time.loadPending && !c.timeFromRing }
      tryJoin (if c.persist || s.ring.cfg.persist then persistRing s1 else s1))
    (fun _ _ => ok) ∧
  Applies 0x0903 .ringMembers
    (fun e _ => let p := e.payload
      u8 p 0 = 0 ∧ allZero p 1 1 = true ∧ u16 p 2 = 0 ∧ allZero p 4 4 = true ∧ p.length = 8)
    (fun _ s => s) (fun _ s => okWith (membersResult s)) ∧
  Applies 0x0903 .ringMembers
    (fun e s => let p := e.payload
      u8 p 0 = 1 ∧ allZero p 1 1 = true ∧ u16 p 2 ≤ 256 ∧ allZero p 4 4 = true ∧ p.length = 8 + 2 * u16 p 2 ∧
        AllGood (nodeFields s p))
    (fun e s => judgeRing { s with ring.expected := namedNodes e.payload }) (fun _ _ => ok) ∧
  Applies 0x0903 .ringMembers
    (fun e s => let p := e.payload
      u8 p 0 = 2 ∧ allZero p 1 1 = true ∧ 1 ≤ u16 p 2 ∧ u16 p 2 ≤ 256 ∧ allZero p 4 4 = true ∧
        p.length = 8 + 2 * u16 p 2 ∧ AllGood (nodeFields s p))
    (fun e s => forEach (namedNodes e.payload) ackChange s) (fun _ _ => ok) ∧
  Opens 0x0904 .ringLeave
    (fun e s => e.payload = [] ∧ s.ring.run ≠ .bypass ∧ s.ring.run ≠ .isolated ∧ s.ring.run ≠ .leaving)
    (fun e s => startLeaving { s with ring.leaves := s.ring.leaves ++ [e.jseq] }) ∧
  Opens 0x0904 .ringLeave (fun e s => e.payload = [] ∧ s.ring.run = .leaving)
    (fun e s => { s with ring.leaves := s.ring.leaves ++ [e.jseq] }) ∧
  Applies 0x0906 .ringQuarantineClear
    (fun e _ => let p := e.payload; p.length = 4 ∧ u8 p 0 < 3 ∧ allZero p 1 3 = true)
    (fun e s =>
      let clear (p : Port) (s : State) : State :=
        if (port s p).run = .quarantined then
          modPort p (fun x => { x with retriedAt := none, quarDoublings := 0 }) (trainPort p 2 s)
        else s
      let s1 := if u8 e.payload 0 = 1 then s else clear .e s
      if u8 e.payload 0 = 0 then s1 else clear .w s1)
    (fun _ _ => ok) ∧
  Applies 0x0907 .ringPeerIdent
    (fun e s => let p := e.payload
      p.length = 40 ∧ allZero p 2 6 = true ∧ u16 p 0 = ownNode s ∧ ringMember s = true)
    (fun _ s => { s with free := s.free + 1 })
    (fun e s => okWith (b2 (u16 e.payload 0) ++ zeros 6 ++ uidBytes ++
      (identBody s ++ fit 64 (Config.signature s.free (slice e.payload 8 32 ++ identBody s))))) ∧
  Opens 0x0907 .ringPeerIdent
    (fun e s => let p := e.payload
      p.length = 40 ∧ allZero p 2 6 = true ∧ u16 p 0 ≠ ownNode s ∧ (member s (u16 p 0)).isSome = true)
    (fun e s => let n := u16 e.payload 0
      sendMgmt 1 n (ownNode s) 8 e.jseq (b2 0x0104 ++ zeros 62 ++ slice e.payload 8 32)
        { s with ring.idents := s.ring.idents ++ [⟨e.jseq, n, now s⟩] })

/-- ECC_TABLE_CLEAR, ECC_TEST, LOG_SET_LIMIT, LOG_HOST_EVENT, RUN_ARM and RUN_DISARM on a good payload (R385, R381,
R422, R258, R259; derived). -/
def Obligations.MemoryLogAndRunCommands : Prop :=
  Applies 0x0B03 .eccTableClear (fun e _ => let p := e.payload; p.length = 4 ∧ u8 p 0 = 1 ∧ allZero p 1 3 = true)
    (fun _ s => { s with mem.ce := [], mem.overflow := 0 }) (fun _ s => okWith (b4 s.mem.ce.length)) ∧
  Applies 0x0B03 .eccTableClear (fun e _ => let p := e.payload; p.length = 4 ∧ u8 p 0 = 0 ∧ allZero p 1 3 = true)
    (fun _ s => { s with mem.ce := s.mem.ce.filter (fun x => !(x.cleared && !x.reappeared)) })
    (fun _ s => okWith (b4 (s.mem.ce.length - (s.mem.ce.filter (fun x => !(x.cleared && !x.reappeared))).length))) ∧
  Applies 0x0B04 .eccTest
    (fun e s => let p := e.payload; p.length = 32 ∧ AllGood (eccTestFields s p) ∧ u8 p 1 = 0) (fun _ s => s)
    (fun e _ => let p := e.payload
      okWith (b8 (u64 p 16) ++ b1 (encodeCheck (u8 p 0) (u64 p 16)) ++ b1 0 ++ b1 0 ++ b1 0xFF ++ b4 0)) ∧
  Applies 0x0B04 .eccTest
    (fun e s => let p := e.payload; p.length = 32 ∧ AllGood (eccTestFields s p) ∧ u8 p 1 = 1 ∧ u8 p 0 ≠ 1)
    (fun e s => let p := e.payload; writeTest (u8 p 0) (u8 p 2) (u64 p 8) (u64 p 16) (u8 p 24) s)
    (fun e _ => let p := e.payload; okWith (b8 (u64 p 16) ++ b1 (u8 p 24) ++ b1 0 ++ b1 0 ++ b1 0xFF ++ b4 0)) ∧
  Applies 0x0B04 .eccTest
    (fun e s => let p := e.payload; p.length = 32 ∧ AllGood (eccTestFields s p) ∧ u8 p 1 = 2)
    (fun e s => let p := e.payload; (readTest (u8 p 0) (u8 p 2) (u64 p 8) s).1)
    (fun e s => let p := e.payload; (readTest (u8 p 0) (u8 p 2) (u64 p 8) s).2) ∧
  Applies 0x0C01 .logSetLimit
    (fun e _ => let p := e.payload
      p.length = 8 ∧ limitable (u16 p 0) = true ∧ 1 ≤ u8 p 2 ∧ 1 ≤ u8 p 3 ∧ allZero p 4 4 = true)
    (fun e s => let p := e.payload
      logEv 0x0C02 (u16 p 0) (u8 p 2) (u8 p 3) { s with
        log.buckets := tabSet {} s.log.buckets (u16 p 0)
          { rate := u8 p 2, burst := u8 p 3, tokens := u8 p 3, since := none, gained := 0
            suppressed := (tabGet {} s.log.buckets (u16 p 0)).suppressed } })
    (fun e s => let b := tabGet {} s.log.buckets (u16 e.payload 0); okWith (b1 b.rate ++ b1 b.burst ++ b2 0)) ∧
  Applies 0x0C03 .logHostEvent
    (fun e _ => let p := e.payload
      p.length = 16 ∧ 0x0CF0 ≤ u16 p 0 ∧ u16 p 0 ≤ 0x0CFF ∧ u8 p 2 ≤ 3 ∧ allZero p 3 1 = true)
    (fun e s => let p := e.payload
      storeEvent ⟨now s, u16 p 0, u8 p 2, 10, s.nv.hours, s.nv.pcycles, u32 p 4, u32 p 8, u32 p 12⟩
        (forUpto (s.log.queue.length + 1) (fun _ s => writeNext s) s))
    (fun e s => let p := e.payload
      let s1 := forUpto (s.log.queue.length + 1) (fun _ s => writeNext s) s
      let t := storeEvent ⟨now s, u16 p 0, u8 p 2, 10, s.nv.hours, s.nv.pcycles, u32 p 4, u32 p 8, u32 p 12⟩ s1
      okWith (b4 (if t.log.number = s1.log.number then 0xFFFFFFFF else s1.log.number))) ∧
  Applies 0x0D04 .runArm (fun e s => e.payload = [] ∧ s.mbx.armed = false ∧ blockers s = 0)
    (fun _ s => logEv 0x0D03 1 0 0 { s with mbx.armed := true }) (fun _ s => okWith (b4 (blockers s) ++ b4 0)) ∧
  Applies 0x0D04 .runArm (fun e s => e.payload = [] ∧ s.mbx.armed = false ∧ blockers s ≠ 0) (fun _ s => s)
    (fun _ s => { status := 0x20, result := b4 (blockers s) ++ b4 0 }) ∧
  Applies 0x0D04 .runArm (fun e s => e.payload = [] ∧ s.mbx.armed = true) (fun _ s => s)
    (fun _ s => okWith (b4 (blockers s) ++ b4 0)) ∧
  Applies 0x0D05 .runDisarm (fun e _ => e.payload = [])
    (fun _ s => let t := schedulerOff { s with mbx.armed := false }
      if s.mbx.armed then logEv 0x0D03 0 (blockers t) 0 t else t)
    (fun _ _ => ok)

/-- Clearing cause bits: a written one clears its bit unless its event arrives with the write (R11, R350; derived). -/
def Obligations.CauseBitsSetWins : Prop :=
  ∀ (mask arr : BitVec 32) (s : State), bar0Served s = true →
    ∃ t, exec (.irqCauseClear mask arr) s = .next t ∧ t.pcie.irqEnable = s.pcie.irqEnable ∧
      (∀ n < 22, t.pcie.irqCause.testBit n =
        ((s.pcie.irqCause.testBit n && !mask.toNat.testBit n) || arr.toNat.testBit n)) ∧
      ∀ n < 22, arr.toNat = 2 ^ n → mask.toNat = 2 ^ n → s.pcie.irqEnable.testBit n = true → irqVector s n < 64 →
        canMaster s = true → s.pcie.msixEnable = true → s.pcie.functionMask = false →
        (tabGet {} s.pcie.msix (irqVector s n)).masked = false →
          t.out = .msix (irqVector s n) (tabGet {} s.pcie.msix (irqVector s n)).addr
            (tabGet {} s.pcie.msix (irqVector s n)).data :: s.out

/-- Writing the enable register stores its 22 bits, clears no cause and sends the message of a waiting cause (R11,
R12, R350; derived). -/
def Obligations.EnablingSendsWaitingCauses : Prop :=
  ∀ (v : BitVec 32) (s : State), bar0Served s = true →
    ∃ t, exec (.irqEnableWrite v) s = .next t ∧ t.pcie.irqEnable = v.toNat % 2 ^ 22 ∧
      t.pcie.irqCause = s.pcie.irqCause ∧
      ((∀ n < 22, v.toNat.testBit n = true → s.pcie.irqEnable.testBit n = true ∨ s.pcie.irqCause.testBit n = false) →
        t.out = s.out) ∧
      ∀ n < 22, v.toNat.testBit n = true → s.pcie.irqEnable.testBit n = false → s.pcie.irqCause.testBit n = true →
        (∀ m < 22, m ≠ n → v.toNat.testBit m = true →
          s.pcie.irqEnable.testBit m = true ∨ s.pcie.irqCause.testBit m = false) →
        irqVector s n < 64 → canMaster s = true → s.pcie.msixEnable = true → s.pcie.functionMask = false →
        (tabGet {} s.pcie.msix (irqVector s n)).masked = false →
          t.out = .msix (irqVector s n) (tabGet {} s.pcie.msix (irqVector s n)).addr
            (tabGet {} s.pcie.msix (irqVector s n)).data :: s.out

/-- A map change holds for the next message and sends nothing itself (R465). -/
def Obligations.MapChangesHoldForLaterMessages : Prop :=
  (∀ (n : Fin 8) (v : BitVec 32) (s : State), bar0Served s = true →
    ∃ t, exec (.irqMapWrite n v) s = .next t ∧ t.out = s.out ∧ t.pcie.irqCause = s.pcie.irqCause ∧
      ∀ m < 4, 4 * n.val + m < 22 → field v.toNat (8 * m + 7) (8 * m) < 64 ∨
        field v.toNat (8 * m + 7) (8 * m) = 0xFF →
        irqVector t (4 * n.val + m) = field v.toNat (8 * m + 7) (8 * m)) ∧
  (∀ (n : Nat) (s : State), n < 22 → irqVector s n = 0xFF →
    (raiseIrq n s).out = s.out ∧ (raiseIrq n s).pcie.irqCause.testBit n = true) ∧
  (∀ (n : Nat) (s : State), s.pcie.irqCause.testBit n = true → raiseIrq n s = s) ∧
  (∀ (n : Nat) (s : State), n < 22 → s.pcie.irqCause.testBit n = false → s.pcie.irqEnable.testBit n = true →
    irqVector s n < 64 → canMaster s = true → s.pcie.msixEnable = true → s.pcie.functionMask = false →
    (tabGet {} s.pcie.msix (irqVector s n)).masked = false →
      (raiseIrq n s).out = .msix (irqVector s n) (tabGet {} s.pcie.msix (irqVector s n)).addr
        (tabGet {} s.pcie.msix (irqVector s n)).data :: s.out)

/-- A 64-bit counter read in halves is coherent when the low half is read first (R14). -/
def Obligations.TwoHalfReads : Prop :=
  (∀ (p : Pair2H) (s : State), bar0Served s = true →
    exec (.twoHalfLowRead p false) s = .next (emit (.completion (b4 (regRead s (pairOffset p))) false)
      (setShadow p (some (regRead s (pairOffset p + 4))) s))) ∧
  (∀ (p : Pair2H) (s : State), bar0Served s = true →
    exec (.twoHalfLowRead p true) s = .next (emit (.completion (b8 (pairValue s p)) false) s)) ∧
  (∀ (p : Pair2H) (v : Nat) (s : State), bar0Served s = true → shadowOf s p = some v →
    exec (.twoHalfHighRead p) s = .next (emit (.completion (b4 v) false) (setShadow p none s))) ∧
  (∀ (p : Pair2H) (s : State), bar0Served s = true → shadowOf s p = none →
    exec (.twoHalfHighRead p) s = .next (emit (.completion (b4 (regRead s (pairOffset p + 4))) false)
      { s with pcie.stalePair := true })) ∧
  ∀ (p : Pair2H) (s t u : State), bar0Served s = true → exec (.twoHalfLowRead p false) s = .next t →
    u.pcie.shadows = t.pcie.shadows → bar0Served u = true →
      exec (.twoHalfHighRead p) u = .next (emit (.completion (b4 (regRead s (pairOffset p + 4))) false)
        (setShadow p none u))

/-- WIN_BASE_LO, BAR2 reads and writes, BAR0 register writes and bad accesses, HK_LATCH and the time commands (R368,
R375, R11, R460, R346, R347, R470, R472, R344; derived). -/
def Obligations.WindowsAndRegisterAccesses : Prop :=
  (∀ (v : BitVec 32) (s : State), bar0Served s = true → exec (.winBaseLoWrite v none) s = .next { s with
    pcie.winLo := v.toNat / 2 ^ 20 % 2 ^ 12
    pcie.winBase := 2 ^ 32 * s.pcie.winHi + 2 ^ 20 * (v.toNat / 2 ^ 20 % 2 ^ 12) }) ∧
  (∀ (v h : BitVec 32) (s : State), bar0Served s = true → exec (.winBaseLoWrite v (some h)) s = .next { s with
    pcie.winHi := h.toNat % 2 ^ 5
    pcie.winLo := v.toNat / 2 ^ 20 % 2 ^ 12
    pcie.winBase := 2 ^ 32 * (h.toNat % 2 ^ 5) + 2 ^ 20 * (v.toNat / 2 ^ 20 % 2 ^ 12) }) ∧
  (∀ (off n : Nat) (s : State), bar0Served s = true → s.power.fatal = false →
    s.pcie.winBase + off + n ≤ usable s →
      exec (.bar2Read off n) s = .next (emit (.completion (dramRead (s.pcie.winBase + off) n s).1
        (dramRead (s.pcie.winBase + off) n s).2.1) (dramRead (s.pcie.winBase + off) n s).2.2)) ∧
  (∀ (off : Nat) (bs : List Byte) (s : State), bar0Served s = true → s.power.fatal = false →
    s.pcie.winBase + off + bs.length ≤ usable s →
    (allWritable s (s.pcie.winBase + off) bs.length = true →
      exec (.bar2Write off bs) s = .next (dramWrite (s.pcie.winBase + off) bs s)) ∧
    (allWritable s (s.pcie.winBase + off) bs.length = false →
      exec (.bar2Write off bs) s = .next (logEv 0x0B05 ((s.pcie.winBase + off) % 2 ^ 32)
        ((s.pcie.winBase + off) / 2 ^ 32) 0 { s with pcie.winProtected := sat32 (s.pcie.winProtected + 1) }))) ∧
  (∀ (off n : Nat) (bs : List Byte) (s : State), bar0Served s = true →
    (s.power.fatal = true ∨ usable s < s.pcie.winBase + off + n →
      exec (.bar2Read off n) s = .next (emit .unsupported s)) ∧
    (s.power.fatal = true ∨ usable s < s.pcie.winBase + off + bs.length →
      exec (.bar2Write off bs) s = .next (emit .aerUnsupported s))) ∧
  (∀ (off : Nat) (bs : List Byte) (s : State), bar0Up s = true → off + 4 ≤ 2 ^ 20 → bs.length = 4 → off % 4 = 0 →
    (off < 0x40000 ∨ 0x80000 ≤ off) → exec (.registerWrite off bs) s = .next (regWrite off (u32 bs 0) s)) ∧
  (∀ (off : Nat) (bs : List Byte) (s : State), bar0Up s = true → off + 8 ≤ 2 ^ 20 → bs.length = 8 → off % 8 = 0 →
    (off < 0x40000 ∨ 0x80000 ≤ off) → off ≠ 0xA0000 →
      exec (.registerWrite off bs) s = .next (regWrite (off + 4) (u32 bs 4) (regWrite off (u32 bs 0) s))) ∧
  (∀ (bs : List Byte) (s : State), bar0Up s = true → bs.length = 8 →
    exec (.registerWrite 0xA0000 bs) s = .next (regWrite 0xA0000 (u32 bs 0) (regWrite 0xA0004 (u32 bs 4) s))) ∧
  (∀ (off n : Nat) (w : Bool) (s : State), bar0Up s = true → (off < 0x40000 ∨ 0x80000 ≤ off) →
    ((n ≠ 4 ∧ n ≠ 8) ∨ off % n ≠ 0) →
      exec (.bar0BadAccess off n w) s =
        .next (emit (if w then .aerUnsupported else .unsupported) { s with pcie.badAccess := true })) ∧
  (∀ s : State, bar0Served s = true → exec .hkLatch s = .next { s with hk.latchPending := true }) ∧
  (∀ s : State, bar0Served s = true → exec .timeLoadNow s = .next { s with
    time := { startSlew 0 s.time with v := s.time.set, valid := true, loadPending := false } }) ∧
  (∀ s : State, bar0Served s = true → fromRing s = false →
    exec .timeLoadAtPps s = .next { s with time.loadPending := true }) ∧
  (∀ s : State, bar0Served s = true → fromRing s = true →
    exec .timeLoadAtPps s = .next { s with pcie.timeCmdIgnored := true }) ∧
  ∀ s : State, bar0Served s = true → exec .timeCancelLoad s = .next { s with time.loadPending := false }

/-- A DRAM write stores its bytes and no others (R346, R369, R370, R377, R378; derived). -/
def Obligations.DramWriteStoresItsBytes : Prop :=
  ∀ (a : Nat) (bs : Bytes) (s : State),
    let t := dramWrite a bs s
    ((∀ x, a ≤ x → x < a + bs.length → wordSyn (tabGet 0 s.mem.dram (x / 8)) = 0 ∧ channelUp s (channelOf x) = true) →
      (∀ k < bs.length, dramByte t (a + k) = (bs.getD k 0).toNat) ∧
        ∀ x, x < a ∨ a + bs.length ≤ x → dramByte t x = dramByte s x) ∧
    ∀ w, (∀ x, a ≤ x → x < a + bs.length → x / 8 ≠ w) →
      tabGet 0 t.mem.dram w = tabGet 0 s.mem.dram w ∧ tabGet false t.mem.kept w = tabGet false s.mem.kept w

/-- Payload SRAM holds the bytes written and answers reads of them (R371, R466, R11; derived). -/
def Obligations.PayloadSramReadsAndWrites : Prop :=
  (∀ (i : Nat) (bs : Bytes) (s : State), i + bs.length ≤ 0x40000 →
    (∀ k < bs.length, tabGet none (sramWrite i bs s).mem.payload (i + k) = some (bs.getD k 0).toNat) ∧
      ∀ x, x < i ∨ i + bs.length ≤ x →
        tabGet none (sramWrite i bs s).mem.payload x = tabGet none s.mem.payload x) ∧
  (∀ (off n : Nat) (s : State), bar0Up s = true → exec (.payloadSramRead off n) s =
    .next (emit (.completion (sramRead n off s).1 (sramRead n off s).2.1) (sramRead n off s).2.2)) ∧
  ∀ (off : Nat) (bs : List Byte) (s : State), bar0Up s = true → 0x40000 ≤ off → off < 0x80000 →
    off + bs.length ≤ 2 ^ 20 → exec (.registerWrite off bs) s = .next (sramWrite (off - 0x40000) bs s)

/-- HOD_DOORBELL, HOD_ABORT, HOD_CONFIG_WRITE and the descriptor commands of a Hod channel (R353, R362, R467, R354,
R359, R363; derived). -/
def Obligations.HodChannelCommands : Prop :=
  (∀ (ch : Fin 8) (s : State), bar0Served s = true → (hod s ch.val).deviceOwned = false →
    ((hod s ch.val).state = .idle → exec (.hodDoorbell ch) s = .next (modHod ch.val (fun x =>
        { x with state := .running, lastDone := 0, resetStopped := false, fetch := some x.first, desc := none
                 nextBytes := 0, done := 0, startSkip := x.skip, skip := 0 }) s) ∧
      exec (.hodAbort ch) s = .next s) ∧
    ((hod s ch.val).state = .running →
      exec (.hodDoorbell ch) s = .next (modHod ch.val (fun x => { x with pending := true }) s) ∧
      exec (.hodAbort ch) s = .next (modHod ch.val (fun x => { x with state := .aborting }) s)) ∧
    ((hod s ch.val).state = .endHalt → exec (.hodDoorbell ch) s = .next (modHod ch.val (fun x =>
        { x with state := .running, fetch := some x.haltAddr, descAddr := x.haltAddr, desc := some {} }) s) ∧
      exec (.hodAbort ch) s = .next (modHod ch.val (fun x => { x with state := .idle }) s)) ∧
    ((hod s ch.val).state = .error →
      exec (.hodDoorbell ch) s = .next (modHod ch.val (fun x => { x with ignored := sat32 (x.ignored + 1) }) s) ∧
      exec (.hodAbort ch) s = .next (modHod ch.val (fun x => { x with state := .idle, errCode := 0 }) s))) ∧
  (∀ (ch : Fin 8) (s : State), bar0Served s = true →
    (hod s ch.val).deviceOwned = true ∨ (hod s ch.val).state = .aborting →
    exec (.hodDoorbell ch) s = .next (modHod ch.val (fun x => { x with ignored := sat32 (x.ignored + 1) }) s) ∧
    exec (.hodAbort ch) s = .next (modHod ch.val (fun x => { x with ignored := sat32 (x.ignored + 1) }) s)) ∧
  (∀ (ch : Fin 8) (v : BitVec 32) (s : State), bar0Served s = true → (hod s ch.val).state = .idle →
    exec (.hodConfigWrite ch .ctrl v) s = .next (modHod ch.val (fun x => { x with ctrl := v.toNat % 4 }) s) ∧
    exec (.hodConfigWrite ch .firstLo v) s = .next (modHod ch.val (fun x =>
      { x with first := x.first / 2 ^ 32 * 2 ^ 32 + v.toNat / 64 * 64 }) s) ∧
    exec (.hodConfigWrite ch .firstHi v) s = .next (modHod ch.val (fun x =>
      { x with first := x.first % 2 ^ 32 + 2 ^ 32 * v.toNat }) s) ∧
    exec (.hodConfigWrite ch .skipLo v) s = .next (modHod ch.val (fun x =>
      { x with skip := x.skip / 2 ^ 32 * 2 ^ 32 + v.toNat }) s) ∧
    exec (.hodConfigWrite ch .skipHi v) s = .next (modHod ch.val (fun x =>
      { x with skip := x.skip % 2 ^ 32 + 2 ^ 32 * v.toNat }) s)) ∧
  (∀ (ch : Fin 8) (r : HodReg) (v : BitVec 32) (s : State), bar0Served s = true → (hod s ch.val).state ≠ .idle →
    exec (.hodConfigWrite ch r v) s = .next s) ∧
  (∀ (ch : Fin 8) (host : Option (List Byte)) (s : State) (a : Nat), (hod s ch.val).fetch = some a →
    (hod s ch.val).state = .running → (hod s ch.val).deviceOwned = false →
    (bit (hod s ch.val).ctrl 0 = true → s.power.fatal = false) →
    (bit (hod s ch.val).ctrl 0 = false → canMaster s = true) →
      exec (.hodDescriptorFetch ch host) s = .next (fetchDesc ch.val a host s)) ∧
  (∀ (ch : Fin 8) (host : List Byte) (re : Option (List Byte)) (s t : State) (d : HodDesc),
    (hod s ch.val).desc = some d → (hod s ch.val).fetch = none → (hod s ch.val).state = .running →
    (hod s ch.val).deviceOwned = false → hodStalled s d = false →
    advance ch.val d (elements d) host s = (none, t) →
      exec (.hodDescriptorComplete ch host re) s =
        .next (afterDone ch.val d re (signalDone ch.val d (flushRead d t)))) ∧
  (∀ (ch : Fin 8) (addr done : Nat) (host : List Byte) (s : State) (a : Nat), (hod s ch.val).fetch = some a →
    (hod s ch.val).state = .running → (hod s ch.val).deviceOwned = false → bit (hod s ch.val).ctrl 0 = false →
    canMaster s = true →
      exec (.hodError ch .descFetch addr done host) s = .next (raiseIrq ch.val (logEv 0x0B06 ch.val
        (hodCode .descFetch) (a % 2 ^ 32) (modHod ch.val (fun x =>
          { x with state := .error, errCode := hodCode .descFetch, errAddr := a, fetch := none, desc := none
                   ordered := false, pending := false }) s)))) ∧
  ∀ (ch : Fin 8) (done : Nat) (host : List Byte) (s : State), (hod s ch.val).state = .aborting →
    (hod s ch.val).desc = none → exec (.hodAbortDone ch done host) s = .next (modHod ch.val (fun x =>
      { x with state := .idle, fetch := none, desc := none, ordered := false, pending := false, startSkip := 0 }) s)

/-- BOOT_ROM_START, ID_BOOT_CHUNK, ID_BOOT_RESET, HOST_LOAD_VERIFY_DONE, FW_READY, FW_READY_TIMEOUT and CP_RESTART
(R430, R432, R435, R433, R431, R273; derived). -/
def Obligations.BootCommands : Prop :=
  (∀ (sel : BitVec 2) (s : State), s.power.main = true → s.power.phase = .rom →
    let b := if s.power.selDue then sel.toNat else s.power.bootSel
    let s1 := { s with power.bootSel := b, power.selDue := false }
    (∀ k, chooseImage s1 b = some k → exec (.bootRomStart sel) s = .next { s1 with
      power.phase := .started, power.image := k, power.startedAt := now s, power.loaded := [], power.chunks := 0 }) ∧
    (chooseImage s1 b = none → exec (.bootRomStart sel) s = .next { s1 with
      power.phase := .hostWait, power.loaded := [], power.chunks := 0 })) ∧
  (∀ (v : BitVec 32) (s : State), bar0Up s = true → s.power.phase = .hostWait → v.toNat % 2 ^ 18 ≠ 0 →
    s.power.loaded.length + v.toNat % 2 ^ 18 ≤ 2 ^ 23 →
      let r := sramRead (v.toNat % 2 ^ 18) 0 s
      exec (.idBootChunk v) s = .next { r.2.2 with
        power.loaded := s.power.loaded ++ r.1, power.chunks := min 255 (s.power.chunks + 1)
        power.phase := if v.toNat.testBit 31 then .hostVerify else .hostWait }) ∧
  (∀ s : State, bar0Up s = true → inHostLoad s = true →
    exec .idBootReset s = .next { s with power.loaded := [], power.chunks := 0, power.phase := .hostWait }) ∧
  (∀ s : State, bar0Up s = true → s.power.phase = .hostVerify →
    exec .hostLoadVerifyDone s = .next
      (if verdict (Config.imageVerdict s.power.loaded) (Config.imageSvn s.power.loaded) s.power.minSvn = 0 then
        { s with power.phase := .started, power.image := 2, power.startedAt := now s }
      else { s with power.phase := .hostReject })) ∧
  (∀ (a b : Nat) (x : JournalBad) (s : State), s.power.main = true → s.power.phase = .started →
    now s ≤ s.power.startedAt + 400000000 →
    (journalHeld x s = true → s.power.restartAt = none →
      exec (.fwReady a b x) s = .next (bootDone (readJournal a b s))) ∧
    (journalHeld x s = true → s.power.restartAt.isSome = true →
      exec (.fwReady a b x) s = .next (restartDone (readJournal a b s))) ∧
    (journalHeld x s = false → exec (.fwReady a b x) s = .next (fatalFault 1 (readJournal a b s)))) ∧
  (∀ s : State, s.power.main = true → s.power.fatal = false → s.power.phase = .started →
    s.power.startedAt + 400000000 ≤ now s →
    (s.power.restartAt = none → s.power.image ≠ 2 → exec .fwReadyTimeout s =
        .next { s with power.failed := setBit s.power.failed s.power.image, power.phase := .rom }) ∧
    (s.power.restartAt = none → s.power.image = 2 → exec .fwReadyTimeout s =
        .next { s with power.phase := .hostWait, power.loaded := [], power.chunks := 0 }) ∧
    (s.power.restartAt.isSome = true → exec .fwReadyTimeout s = .next (fatalFault 3 s))) ∧
  ∀ (lock : Bool) (s : State), sornor s = true → exec (.cpRestart lock) s = .next (restartCp lock s)

/-- Supplies, RESET_N, the PCI Express resets and the power states of the interface (R424, R285, R425, R223, R283,
R284, R278, R279, R351, R176; derived). -/
def Obligations.PowerCommands : Prop :=
  (∀ s : State, s.power.vka = true → exec .vkaLoss s = .next (vkaDefaults (cutPulses s))) ∧
  (∀ s : State, s.power.vka = false → ∃ t, exec .vkaPowerup s = .next t ∧ t.power.vka = true ∧ t.power.main = false ∧
    t.power.resets = 1 ∧ t.es = { s.es with unlocked := none } ∧ (s.power.dieA = false → t.out = s.out) ∧
    t.mbx.session = false ∧ t.log.queue.length = 1) ∧
  (∀ (ok : Bool) (crc : BitVec 32) (s : State), s.power.vka = true → s.es.powered = false →
    ∃ t, exec (.esPowerOn ok crc) s = .next t ∧ t.es.powered = true ∧ t.es.permit = false ∧ t.shot.granted = false ∧
      t.es.run = .tripped ∧ bit t.es.present 0 = true ∧ (s.es.committed = false → bit t.es.present 1 = true) ∧
      (crc.toNat ≠ crc32 (configBytes s.es.cfg) → bit t.es.present 6 = true) ∧
      (ok = false → bit t.es.present 7 = true) ∧
      t.es.cfg = s.es.cfg ∧ t.es.changelog = s.es.changelog ∧ t.es.unlocked = none) ∧
  (∀ (d : DramTraining) (s : State), s.power.vka = true → s.power.main = false →
    exec (.dieBPowerUp d) s = .next (powerUp d s)) ∧
  (∀ (d : DramTraining) (s : State), s.power.vka = true → s.power.main = false → s.power.warning = true →
    exec (.mainPowerReturn d) s = .next (powerUp d s)) ∧
  (∀ s : State, s.power.main = true → ∃ t, exec .railWarning s = .next t ∧ t.power.main = false ∧
    t.power.rails = false ∧ t.power.warning = true ∧ t.power.dieA = false ∧ t.es.permit = false ∧
    t.es.powered = false ∧ t.shot.granted = false) ∧
  (∀ s : State, s.power.main = false → s.power.rails = true → ∃ t, exec .railWarning s = .next t ∧
    t.power.rails = false ∧ t.es.permit = false ∧ t.es.powered = false ∧ t.shot.granted = false) ∧
  (∀ s : State, s.power.main = false → s.power.memory = true → ∃ t, exec .memorySupplyLoss s = .next t ∧
    t.mem.dram = [] ∧ t.mem.kept = [] ∧ t.dlv.planes = [] ∧ t.dlv.frozen = [] ∧ t.power.memory = false) ∧
  (∀ (sel : BitVec 2) (d : DramTraining) (h : List HodProgress) (s : State), s.power.main = true →
    exec (.resetN sel d h) s = .next (resetN sel.toNat d h s)) ∧
  (∀ (h : List HodProgress) (s : State), bar0Up s = true → exec (.perstN h) s = .next (pcieReset 3 h s) ∧
    exec (.hotReset h) s = .next (pcieReset 4 h s) ∧ exec (.functionLevelReset h) s = .next (pcieReset 5 h s)) ∧
  (∀ (msix mask : Bool) (pl : Fin 3) (rd : Fin 6) (s : State), bar0Up s = true →
    let s1 := { s with
      pcie.bme := true, pcie.msixEnable := msix, pcie.functionMask := mask
      pcie.maxPayload := 128 * 2 ^ pl.val, pcie.maxRead := 128 * 2 ^ rd.val }
    (s.pcie.d3hot = true → exec (.busMasterEnable msix mask pl rd) s = .next s1) ∧
    (s.pcie.d3hot = false → s.pcie.bme = false →
      exec (.busMasterEnable msix mask pl rd) s = .next (resumeMastering s1)) ∧
    (s.pcie.d3hot = false → s.pcie.bme = true →
      exec (.busMasterEnable msix mask pl rd) s = .next (forUpto 64 sendPending s1))) ∧
  (∀ s : State, s.pcie.bme = true →
    exec .busMasterEnableCleared s = .next (updateMaster (pauseDelivery { s with pcie.bme := false }))) ∧
  (∀ s : State, bar0Up s = true → s.pcie.d3hot = false →
    exec .d3hotEntry s = .next (updateMaster (pauseDelivery { s with pcie.d3hot := true }))) ∧
  (∀ s : State, s.pcie.d3hot = true → s.pcie.bme = true →
    exec .d0Return s = .next (resumeMastering { s with pcie.d3hot := false })) ∧
  ∀ s : State, s.pcie.d3hot = true → s.pcie.bme = false → exec .d0Return s = .next { s with pcie.d3hot := false }

/-- Resets of die A, its heartbeats, the Mortar lanes, and failing DRAM channels (R275, R277, R274, R276, R18, R338,
R339, R337, R380, R280; derived). -/
def Obligations.DieAAndMemoryChannels : Prop :=
  (∀ (c : DieAResetCause) (s : State), s.power.dieA = true → s.power.main = true → (c = .thermal → s.th.shut = true) →
    (c = .heartbeat → s.lanes.beatAt + 3000 ≤ now s) →
      exec (.dieAReset c) s = .next (resetDieA (dieACause c) s)) ∧
  (∀ s : State, s.power.dieA = false → s.power.main = true → s.power.dieAFailed = false → s.th.gated = false →
    s.lanes.mortarUp = true → ∃ t, exec .dieARestored s = .next t ∧ t.power.dieA = true ∧ t.power.dieAAt = now s ∧
      t.power.dieAStarted = true ∧ t.shot.hold = true ∧ t.shot.beats = 0 ∧ t.shot.granted = s.shot.granted ∧
      Out.firePorts true ∈ t.out) ∧
  (∀ s : State, s.power.dieA = false → s.power.main = true → s.power.dieAStarted = true → s.power.dieAFailed = false →
    s.th.shut = false → s.power.dieAResetAt + 100000000 ≤ now s → 3 ≤ s.power.dieAAttempts →
      exec .dieARestoreTimeout s = .next (logEv 0x010A (s.power.dieAAttempts + 1) 0 0
        { failWaiting s with power.dieAFailed := true })) ∧
  (∀ s : State, s.power.dieA = true → s.shot.lastBeat + 3000 ≤ now s →
    (s.shot.hold = false → exec (.heartbeatLoss true) s =
      .next (cutPulses { s with shot.hold := true, shot.beats := 0 })) ∧
    (s.shot.hold = true → exec (.heartbeatLoss true) s = .next { s with shot.beats := 0 })) ∧
  (∀ s : State, s.power.dieA = true → s.lanes.beatAt + 3000 ≤ now s →
    exec (.heartbeatLoss false) s = .next (resetDieA 3 s)) ∧
  (∀ s : State, s.power.dieA = true → s.lanes.mortarUp = true →
    exec (.safetyHeartbeat false) s = .next { s with lanes.beatAt := now s } ∧
    exec (.safetyHeartbeat true) s = .next { s with
      shot.lastBeat := now s
      shot.beats := if now s < s.shot.lastBeat + 3000 then min 64 (s.shot.beats + 1) else 1 }) ∧
  (∀ s : State, s.power.main = true → s.power.phase ≠ .off → s.th.gated = false → s.power.dieAFailed = false →
    s.lanes.mortarUp = false → lockedMask s 8 8 ≠ 0 → lockedMask s 16 4 ≠ 0 →
      ∃ t, exec .mortarLinkUp s = .next t ∧ t.lanes.mortarUp = true ∧ t.lanes.maskAB = lockedMask s 8 8 ∧
        t.lanes.maskBA = lockedMask s 16 4) ∧
  (∀ (i : Fin 12) (s : State), s.lanes.mortarUp = true → (lane s (8 + i.val)).locked = true →
    (i.val < 8 → s.lanes.maskAB.testBit i.val = true → ∃ t, exec (.mortarLaneLoss i) s = .next t ∧
      t.lanes.maskAB = clrBit s.lanes.maskAB i.val ∧ t.lanes.maskBA = s.lanes.maskBA) ∧
    (8 ≤ i.val → s.lanes.maskBA.testBit (i.val - 8) = true → ∃ t, exec (.mortarLaneLoss i) s = .next t ∧
      t.lanes.maskBA = clrBit s.lanes.maskBA (i.val - 8) ∧ t.lanes.maskAB = s.lanes.maskAB)) ∧
  (∀ (i : Fin 12) (s : State), s.lanes.mortarUp = true → (lane s (8 + i.val)).locked = true →
    (lane s (8 + i.val)).deskewed = true →
    (i.val < 8 → s.lanes.maskAB.testBit i.val = false → ∃ t, exec (.mortarLaneRegained i) s = .next t ∧
      t.lanes.maskAB = setBit s.lanes.maskAB i.val ∧ t.lanes.maskBA = s.lanes.maskBA) ∧
    (8 ≤ i.val → s.lanes.maskBA.testBit (i.val - 8) = false → ∃ t, exec (.mortarLaneRegained i) s = .next t ∧
      t.lanes.maskBA = setBit s.lanes.maskBA (i.val - 8) ∧ t.lanes.maskAB = s.lanes.maskAB)) ∧
  (∀ (ch : Fin 4) (c : Fin 3) (s : State), canFail s ch.val = true →
    (c.val = 1 → 2 ≤ tabGet 0 s.mem.retrainFails ch.val) → (c.val = 2 → 16 ≤ recentUes s ch.val) →
      exec (.dramChannelFailed ch c) s = .next (declareFailed ch.val c.val s)) ∧
  (∀ (ch : Fin 4) (s : State), canFail s ch.val = true → exec (.dramRetrain ch true) s = .next { s with
    mem.retrainFails := tabSet 0 s.mem.retrainFails ch.val 0 }) ∧
  ∀ (ch : Fin 4) (s : State), s.mem.failed.testBit ch.val = true → ∃ t, exec (.dramRetireDone ch) s = .next t ∧
    t.mem.failed.testBit ch.val = false ∧ t.mem.inService.testBit ch.val = false ∧
    t.mem.retired.testBit ch.val = true ∧ ∀ k, k ≠ ch.val → t.mem.retired.testBit k = s.mem.retired.testBit k

/-- ANGLE_UPDATE, MISSED_UPDATE, INDEX_EDGE, INDEX_MISSING, COLUMN_BOUNDARY, FRAME_BOUNDARY and PICK_CROSSING (R25,
R29, R40, R35, R36, R30, R110, R37, R196, R42; derived). -/
def Obligations.PredictorAndFrameCommands : Prop :=
  (∀ (s : State) (u : AngleUpdate) (rest : List AngleUpdate), s.loop.sent = u :: rest →
    exec .angleUpdate s = .next (if s.power.dieA then takeUpdate u { s with loop.sent := rest }
      else { s with loop.sent := rest })) ∧
  (∀ s : State, s.angle.pred ≠ .stopped → s.angle.lastArrival + s.angle.tc * (s.angle.missed + 1) + 1000 ≤ now s →
    (s.angle.pred ≠ .locked ∨ s.angle.missed < 2 → exec .missedUpdate s = .next { s with
      angle.missed := s.angle.missed + 1, angle.missedUpdates := sat32 (s.angle.missedUpdates + 1) }) ∧
    (s.angle.pred = .locked → 2 ≤ s.angle.missed → ∃ t, exec .missedUpdate s = .next t ∧ t.angle.pred = .holdover ∧
      t.angle.missed = s.angle.missed + 1)) ∧
  (∀ (r : Bool) (ti u : Nat) (s : State), s.power.dieA = true → s.set.index.source = (if r then 0 else 1) →
    now s ≤ ti + 40 → uAt64 s (64 * ti) = some u → exec (.indexEdge r ti) s = .next (indexEvent (64 * ti) u s)) ∧
  (∀ (s : State) (r : Nat), s.angle.uref = some r → s.angle.missingLogged = false → r + 5 * 2 ^ 30 ≤ uInt s →
    s.angle.pred ≠ .stopped → exec .indexMissing s = .next (logEv 0x0202 (frameNo s) 0 0 { s with
      angle.missingLogged := true, angle.indexMissing := sat32 (s.angle.indexMissing + 1) })) ∧
  (∀ (c : Fin 2049) (s : State), s.angle.nextCol = c.val →
    columnDue s (if frameDue s then uPrev s else uInt s) = true →
      ∃ t, exec (.columnBoundary c) s = .next t ∧ t.angle.nextCol = c.val + 1 ∧ t = crossColumn s c.val s) ∧
  (∀ s : State, frameDue s = true → exec .frameBoundary s = .next (crossFrame s)) ∧
  ∀ (k : Fin 2) (t : Nat) (l : List (BitVec 14)) (s : State), s.power.main = true →
    let x := tabGet {} s.loop.picks k.val
    t ≤ now s → 50 * l.length ≤ t + 50 → t + 50 ≤ x.next + 50 * l.length → (x.last = none ∨ t % 50 = x.next % 50) →
      exec (.pickCrossing k t l) s = .next (pickSamples k.val (t + 50 - 50 * l.length) l s)

/-- At a frame boundary the next frame is in force and the gates follow the Emission Supervisor (R18, R29, R30, R92,
R222; derived). -/
def Obligations.NextFrameOpens : Prop :=
  ∀ s : State, s.power.dieA = true → unframed s = false → turn * (s.angle.frame + 1) ≤ uInt s →
    ∃ t, exec .frameBoundary s = .next t ∧ t.angle.frame = s.angle.frame + 1 ∧ t.shot.granted = t.es.permit ∧
      (t.shot.hold = true ↔ s.shot.hold = true ∧ (s.shot.beats < 64 ∨ s.shot.lastBeat + 3000 ≤ now s))

/-- At its launch instant a scheduled shot fires if the gates let it through and is denied otherwise (R88, R20, R86,
R107; derived). -/
def Obligations.LaunchFiresOrDenies : Prop :=
  ∀ (c : Fin 128) (a b : Conversion) (s : State) (fl : Flight) (tl : Tile), s.power.dieA = true →
    launchable c.val s = some fl → findTile fl.frame c.val fl.column s = some tl →
      ∃ t, exec (.shotLaunch c a b) s = .next t ∧
        (s.shot.sampled = true → emitOk s = true → fires t.out = .fire c.val fl.launch tl.prog.pulse :: fires s.out ∧
          (course t c.val).fired = wrap64 ((course s c.val).fired + 1)) ∧
        (s.shot.sampled = true → emitOk s = false → fires t.out = fires s.out ∧
          (course t c.val).fired = wrap64 ((course s c.val).fired + 1)) ∧
        (s.shot.sampled = false → t.out = s.out ∧ (course t c.val).fired = (course s c.val).fired ∧
          (course t c.val).denied = min (2 ^ 32 - 1) ((course s c.val).denied + 1))

/-- SHOT_DUE, DOUBLE_PULSE_SECOND, WINDOW_CLOSE, STAMP_DELIVERY, TDC_CALIBRATION_DONE and LOW_DISCRIMINATOR_EDGE (R86,
R112, R120, R124, R90, R85, R116, R115, R117, R118; derived). -/
def Obligations.ReceiverCommands : Prop :=
  (∀ (c : Fin 128) (s : State) (t : Tile), s.angle.inFrame = true → s.power.dieA = true → frameDue s = false →
    columnDue s (uInt s) = false → (∀ k < c.val, dueTile k s = none) → dueTile c.val s = some t →
      exec (.shotDue c) s = .next (dueShot t s)) ∧
  (∀ (c : Fin 128) (s : State) (fl : Flight) (t : Tile),
    (course s c.val).flights.find? (fun f => f.second) = some fl →
    findTile fl.frame c.val fl.column s = some t → (fl.launch + 128 * dpSpacing t.prog.dpIndex) / 128 ≤ now s →
    (s.shot.sampled = true → emitOk s = true → ∃ u, exec (.doublePulseSecond c) s = .next u ∧
      u.out = .fire c.val (fl.launch + 128 * dpSpacing t.prog.dpIndex) t.prog.pulse :: s.out) ∧
    (s.shot.sampled = false → exec (.doublePulseSecond c) s = .next
      (modTile fl.frame c.val fl.column (fun y => { y with partialTile := true })
        (modFlight c.val fl (fun _ => { fl with second := false }) s)))) ∧
  (∀ (ch : Fin 256) (s : State) (w : Window), (chan s ch.val).windows.find? (fun w => !w.closed) = some w →
    w.start + w.len ≤ now s → exec (.windowClose ch) s = .next
      (settleTile w.frame (ch.val / 2) w.column (endFlight (ch.val / 2) w (modTile w.frame (ch.val / 2) w.column
        (fun t => { t with openWindows := t.openWindows - 1 }) (modChan ch.val (fun x =>
          let y : Channel :=
            { x with windows := x.windows.map (fun y => if y = w then { y with closed := true } else y) }
          if w.dead then y
          else { y with riseFresh := false, fallFresh := false, calStart := some (now s + 16) }) s))))) ∧
  (∀ (ch : Fin 256) (s : State) (w : Window), (chan s ch.val).windows.find? (fun w => w.closed) = some w →
    exec (.stampDelivery ch) s = .next (readyTile w.frame (ch.val / 2) w.column
      (modTile w.frame (ch.val / 2) w.column (fun t =>
        { t with undelivered := t.undelivered - 1
                 windows := if w.dead then t.windows
                   else insertBy (fun v => 2 * v.k + v.side) ⟨w.k, ch.val % 2, w.dither, w.stamps⟩ t.windows })
        (modChan ch.val (fun x => { x with windows := x.windows.filter (fun y => decide (y ≠ w)) }) s)))) ∧
  (∀ (ch : Fin 256) (r f : Factors) (s : State) (t0 : Nat), calRunning s ch.val = some t0 → s.power.dieA = true →
    t0 + 320 ≤ now s → calOk r = true → calOk f = true →
      ∃ t, exec (.tdcCalibrationDone ch r f) s = .next t ∧ (chan t ch.val).rise = some r ∧
        (chan t ch.val).fall = some f ∧ (chan t ch.val).riseFresh = true ∧ (chan t ch.val).fallFresh = true ∧
        (chan t ch.val).calRejects = min (2 ^ 32 - 1) ((chan s ch.val).calRejects)) ∧
  ∀ (ch : Fin 256) (rise : Conversion) (fall : Option Conversion) (high : Bool) (s : State) (w : Window) (tl : Tile),
    (chan s ch.val).windows.find? (fun w => !w.dead && !w.closed) = some w →
    findTile w.frame (ch.val / 2) w.column s = some tl →
      let x := chan s ch.val
      let pos := posOf rise (factorsOf x.rise)
      let d := posSub pos (posOf w.startConv (factorsOf x.rise))
      let lv := levelsOf x.latched w.lowGain
      let fate := edgeFate w tl.recv d pos (high || decide (lv.2 ≤ lv.1))
      let last (g : Window → Window) (x : Channel) : Channel :=
        { x with windows := x.windows.map (fun y => if y = w then { g y with lastEdge := some pos } else y) }
      let word := stampWord (classify d).2.2 (widthOf pos fall (factorsOf x.fall)) (classify d).1
        (classify d).2.1 w.stale
        w.lowGain
      exec (.lowDiscriminatorEdge ch rise fall high) s = .next (match fate with
        | .pileup => modChan ch.val (fun x => { x with pileup := sat32 (x.pileup + 1) }) s
        | .outside => modChan ch.val (last id) s
        | .unvalidated => modChan ch.val (fun x => last id { x with unvalidated := sat32 (x.unvalidated + 1) }) s
        | .blanked => modTile w.frame (ch.val / 2) w.column (fun t => { t with dirt := t.dirt + 1 })
            (modChan ch.val (fun x => last id { x with blanked := sat32 (x.blanked + 1) }) s)
        | .overflow => modTile w.frame (ch.val / 2) w.column (fun t => { t with overflow := sat16 (t.overflow + 1) })
            (modChan ch.val (fun x => last id { x with overflow := sat32 (x.overflow + 1) }) s)
        | .stored => modChan ch.val (fun x => last (fun y => { y with stamps := y.stamps ++ [word] }) { x with
            stamps := wrap64 (x.stamps + 1)
            reversed := if (classify d).2.1 then sat32 (x.reversed + 1) else x.reversed
            tie := if (classify d).1 then sat32 (x.tie + 1) else x.tie }) s)

/-- ENGINE_P1_START, ENGINE_P1_DONE and ENGINE_P2_DONE take a tile through an engine's two passes (R131, R152;
derived). -/
def Obligations.EngineCommands : Prop :=
  (∀ (e : Fin 32) (s : State) (t : Tile), inStage e.val .p1 s = none → inStage e.val .p1Done s = none →
    nextReady e.val s = some t → exec (.engineP1Start e) s = .next (modEngine e.val (fun x =>
      { x with stamps := wrap64 (x.stamps + (allStamps t).length) }) (modTile t.frame t.course t.column (fun y =>
        { y with stage := .p1, stageEnd := now s + p1Time (clockFactor s e.val) (allStamps t).length }) s))) ∧
  (∀ (e : Fin 32) (n m : Nat) (s : State) (t : Tile), inStage e.val .p1 s = some t → t.stageEnd ≤ now s →
    exec (.engineP1Done e n m) s = .next (enterP2 e.val (engineErrors e.val t n m (modEngine e.val (fun x =>
      { x with revExcluded := sat32 (x.revExcluded + (pass1 t).revExcluded)
               candidates := sat32 (x.candidates + (pass1 t).cands.length) })
      (modTile t.frame t.course t.column (fun y => { pass1 y with stage := .p1Done }) s))))) ∧
  ∀ (e : Fin 32) (n m : Nat) (s : State) (t : Tile), inStage e.val .p2 s = some t → t.stageEnd ≤ now s →
    exec (.engineP2Done e n m) s = .next (enterP2 e.val (endCapture { t with fault := t.fault || decide (m ≠ 0) }
      (finishTile { t with fault := t.fault || decide (m ≠ 0) } (engineErrors e.val t n m s))))

/-- Records, history slots, pallets, interrupts and consumer indices of the delivery rings (R175, R176, R178, R173,
R185, R190; derived). -/
def Obligations.DeliveryCommands : Prop :=
  (∀ (s : State) (x : TileResult) (rest : List TileResult), delivers s = true → s.lanes.mortarUp = true →
    s.dlv.link = x :: rest → exec .recordArrival s = .next (arriveRecord x { s with dlv.link := rest })) ∧
  (∀ (s : State) (w : WrittenRecord) (rest : List WrittenRecord), delivers s = true → s.dlv.written = w :: rest →
    exec .recordCommit s = .next (commitTile w.ring w.frame w.record w.born { s with dlv.written := rest })) ∧
  (∀ (s : State) (x : TileResult) (rest : List TileResult), delivers s = true → s.lanes.mortarUp = true →
    s.dlv.slots = x :: rest → (∀ y ∈ s.dlv.link, x.queued < y.queued) →
      exec .historySlotArrival s = .next (storeSlot x.frame x.tile x.tag (if x.lost then [] else x.slot)
        { s with dlv.slots := rest })) ∧
  (∀ (r : Fin 64) (s : State), (dring s r.val).palletFrom < (dring s r.val).seq →
    (dring s r.val).openAt + 1000 * (dring s r.val).cfg.palletTimeout ≤ now s →
      exec (.palletTimeout r) s = .next (modRing r.val (fun x =>
        if x.palletFrom < x.seq then { x with closed := x.closed ++ [x.seq], palletFrom := x.seq } else x) s)) ∧
  (∀ (r : Fin 64) (f : List (Nat × CopyFault)) (s : State), delivers s = true → (dring s r.val).replay ≠ 1 →
    (dring s r.val).toWrite < burstEnd (dring s r.val) →
      (canMaster s = true → exec (.palletWrite r f) s = .next (writeBurst r.val f s)) ∧
      ∀ k, sinkOf s = some k → exec (.palletWrite r f) s = .next (sendBurst k r.val f s)) ∧
  (∀ (r : Fin 64) (s : State), (dring s r.val).irqPending = true →
    (∀ t, (dring s r.val).lastIrq = some t → t + 1000 * (dring s r.val).cfg.irqHoldoff ≤ now s) → canMaster s = true →
      exec (.irqHoldoffEnd r) s = .next (msixSend (dring s r.val).cfg.vector (modRing r.val (fun x =>
        { x with lastIrq := some (now s), irqPi := x.pi, irqPending := false }) s))) ∧
  (∀ (r : Fin 64) (s : State), delivers s = true → (dring s r.val).ciRead = none → wantsCi (dring s r.val) = true →
    canMaster s = true → exec (.ciPoll r) s = .next (emit (.hostRead (dring s r.val).cfg.ciAddr 8)
      (modRing r.val (fun x => { x with ciRead := some (now s) }) s))) ∧
  (∀ (r : Fin 64) (ci : BitVec 64) (s : State), delivers s = true → (dring s r.val).ciRead.isSome = true →
    (dring s r.val).replay ≠ 1 →
      ∃ t, exec (.ciReadComplete r ci) s = .next t ∧ (dring t r.val).ciRead = none ∧
        ((dring s r.val).ci ≤ ci.toNat → ci.toNat ≤ (dring s r.val).pi → (dring t r.val).ci = ci.toNat ∧
          (dring t r.val).records = (dring s r.val).records.filter (fun y => decide (ci.toNat ≤ y.seq))) ∧
        (ci.toNat < (dring s r.val).ci ∨ (dring s r.val).pi < ci.toNat → (dring t r.val).ci = (dring s r.val).ci ∧
          (dring t r.val).records = (dring s r.val).records ∧
          (dring t r.val).badConsumer = min (2 ^ 32 - 1) ((dring s r.val).badConsumer + 1))) ∧
  ∀ (s : State) (x : HistRead) (rest : List HistRead), s.dlv.reads = x :: rest → canMaster s = true →
    s.power.main = true → s.power.fatal = false →
      let c := forEach x.frames (copyFrame x) ({ addr := x.dest }, s)
      ∃ t, exec .readHistoryDone s = .next t ∧ t = finish x.jseq (okWith (b8 c.1.bytes ++ b4 c.1.bad ++ b4 0))
        (logEv 0x0506 ((x.frames.headD 0) % turn) x.frames.length c.1.bad (modHod x.ch (fun h =>
          { h with deviceOwned := false, state := .idle }) { c.2 with dlv.reads := rest }))

/-- A PPS edge loads, disciplines or only stamps vehicle time (R182, R183; derived). -/
def Obligations.VehicleTimeCommands : Prop :=
  (∀ s : State, fromRing s = false → s.power.main = true → s.time.loadPending = true →
    ∃ t, exec .timePpsEdge s = .next t ∧ t.time.v = s.time.set ∧ t.time.valid = true ∧ t.time.loadPending = false ∧
      t.time.ppsAt = s.time.v ∧ t.time.edges = min (2 ^ 32 - 1) (s.time.edges + 1)) ∧
  (∀ s : State, fromRing s = false → s.power.main = true → s.time.loadPending = false → s.time.discipline = false →
    exec .timePpsEdge s = .next { s with
      time.edges := sat32 (s.time.edges + 1), time.ppsAt := s.time.v
      time.disciplined := s.time.evaluated && decide (s.time.lastE.natAbs ≤ 1000)
      time.lastEdge := some (now s) }) ∧
  (∀ s : State, fromRing s = false → s.power.main = true → s.time.loadPending = false → s.time.discipline = true →
    (edgeError s.time.v).natAbs ≤ 1000 →
      ∃ t, exec .timePpsEdge s = .next t ∧ t.time.v = s.time.v ∧ t.time.disciplined = true ∧
        t.time.slewTotal = -(edgeError s.time.v)) ∧
  (∀ s : State, fromRing s = false → s.power.main = true → s.time.loadPending = false → s.time.discipline = true →
    1000 < (edgeError s.time.v).natAbs →
      ∃ t, exec .timePpsEdge s = .next t ∧ t.time.v = (((s.time.v : Int) - edgeError s.time.v) % 2 ^ 64).toNat ∧
        t.time.disciplined = false ∧ t.time.stepped = true ∧ t.time.stepFlag = true) ∧
  (∀ (s : State) (x : Nat), s.time.disciplined = true → s.time.lastEdge = some x → x + 1500000000 < now s →
    exec .timeDisciplinedLapse s = .next { s with time.disciplined := false }) ∧
  ∀ v : Nat, ((v : Int) - edgeError v) % 1000000000 = 0 ∧ -500000000 < edgeError v ∧ edgeError v ≤ 500000000

/-- CHAIN_OUTPUT, LOOP_SELFTEST_DONE, LOOP_START_SLOW and PWM_CYCLE_START (R51, R60, R54, R69, R75; derived). -/
def Obligations.FilterAndLoopEvents : Prop :=
  (∀ (c : Fin 2) (l : List (BitVec 14)) (s : State), (chain s c.val).running = true → s.power.main = true →
    let x := inputSamples (chain s c.val) l
    x.length = (chain s c.val).cicDec * (chain s c.val).firDec → (loopCfg s).mode ≠ 0 → s.loop.run = .stopped →
      let s1 := thresholdEvent c.val (chain s c.val).high (modChain c.val (fun y => chainStep y x) s)
      (beginsPeriod c.val s1 = false → exec (.chainOutput c l) s = .next s1) ∧
        (beginsPeriod c.val s1 = true → exec (.chainOutput c l) s = .next (controlPeriod
          (modChain 0 (fun y => { y with fresh := false }) (modChain 1 (fun y => { y with fresh := false }) s1))))) ∧
  (∀ (good : Bool) (j : Nat) (s : State), s.loop.run = .selftest → s.loop.selftestOf = some j →
    exec (.loopSelftestDone good) s = .next (endControl (if good then 0 else 0x40) j { s with
      loop.run := .stopped, loop.settle := 0, loop.stall := 0, loop.track := 0, loop.service := 0
      loop.selftestFailed := !good, loop.selftestOf := none })) ∧
  (∀ s : State, s.loop.run = .startup → s.loop.slowLogged = false → s.loop.startupAt + 10000000000 ≤ now s →
    exec .loopStartSlow s = .next (logEv 0x0603 s.loop.period 0 0 { s with loop.slowLogged := true })) ∧
  ∀ (l : BitVec 3) (s : State), (loopCfg s).pwm = true → s.power.main = true →
    let s1 : State :=
      { s with
        loop.duty := s.loop.dutyNew.getD s.loop.duty
        loop.dutyNew := none }
    (s.loop.driveOn = false → exec (.pwmCycleStart l) s = .next s1) ∧
      (s.loop.driveOn = true → l = midLevels s → exec (.pwmCycleStart l) s = .next { s1 with loop.pwmCycles := 0 }) ∧
      (s.loop.driveOn = true → l ≠ midLevels s → s.loop.pwmCycles < 2 →
        exec (.pwmCycleStart l) s = .next { s1 with loop.pwmCycles := s.loop.pwmCycles + 1 }) ∧
      (s.loop.driveOn = true → l ≠ midLevels s → 2 ≤ s.loop.pwmCycles →
        ∃ t, exec (.pwmCycleStart l) s = .next t ∧ t.loop.faultNew = some 3 ∧ t.loop.esInput = true ∧
          t.loop.faults = sat32 (s.loop.faults + 1) ∧ t.loop.pwmCycles = 0 ∧ t.angle.pred = .stopped)

/-- Housekeeping rounds and calibration, temperature readings and marks, shutdown entries, the log writer and the hour
counter (R390, R391, R392, R396, R412, R415, R395, R387, R470, R398, R399, R405; derived). -/
def Obligations.SensorAndLogEvents : Prop :=
  (∀ (code : Int) (ov brk : Bool) (s : State), s.power.main = true → s.hk.cal = none → s.hk.slot < 36 →
    s.hk.roundAt + 1000 * (s.hk.slot + 1) ≤ now s → exec (.hkConversion code ov brk) s =
      .next (feedHk s.hk.slot (satS 16 code)
        (convertSlot s.hk.slot (satS 16 code) ov brk { s with hk.slot := s.hk.slot + 1 }))) ∧
  (∀ s : State, s.power.main = true → s.hk.cal = none → 36 ≤ s.hk.slot → s.hk.roundAt + 36000 ≤ now s →
    exec .hkRoundBoundary s = .next (forUpto 36 applyHk (latchReads { s with
      hk.round := (s.hk.round + 1) % 2 ^ 32, hk.slot := 0, hk.roundAt := s.hk.roundAt + 36000 }))) ∧
  (∀ (o : Int) (g : Nat) (cs : List Nat) (s : State) (j x : Nat), s.hk.cal = some (j, x) → s.power.main = true →
    x + 12000000 ≤ now s → 50 * o.natAbs ≤ 32768 * 256 → 50 * ((g : Int) - 2 ^ 30).natAbs ≤ 2 ^ 30 →
    currentsOk cs = true → ∃ t, exec (.hkCalDone o g cs) s = .next t ∧ t.hk.cal = none ∧ t.hk.uncal = false ∧
      t.hk.offset = o ∧ t.hk.gain = g ∧ t.hk.currents = (List.range 48).map (nth cs)) ∧
  (∀ (ts : Fin 12) (r : Option Int) (s : State), s.power.main = true → notRead s ts.val = false →
    ((sensor s ts.val).readAt = 0 ∨
      (sensor s ts.val).readAt + (if (sensor s ts.val).fast then 250000 else 10000000) ≤ now s) →
      exec (.tempReading ts r) s = .next (readSensor ts.val r s)) ∧
  (∀ s : State, s.power.main = true → s.th.markAt + 10000000 ≤ now s →
    exec .thRateMark s = .next (forUpto 12 rateMark { s with th.markAt := now s })) ∧
  (∀ (s : State) (e : ShutdownEntry), s.th.entry = some e → s.power.dieA = false →
    ∃ t, exec .thShutdownEntry s = .next t ∧ t.th.entry = none ∧
      t.nv.thermalNext = (s.nv.thermalNext + 1) % 128) ∧
  (∀ s : State, s.power.main = true → 0 < s.log.lost → s.log.queue.length < 64 →
    exec .logWrite s = .next (storeRecord (queueLost s) 0 { s with log.lost := 0 })) ∧
  (∀ (s : State) (e : LogEvent) (rest : List LogEvent), s.power.main = true → s.log.lost = 0 →
    s.log.queue = e :: rest → unlimited e.code = true →
      exec .logWrite s = .next { s with
        log.queue := rest
        log.records := tabSet [] s.log.records (recordIndex s.log.number) (recordBytes e 0 s.log.number)
        log.number := (s.log.number + 1) % 2 ^ 32 }) ∧
  (∀ (c : BitVec 16) (s : State), exec (.logTokenRefill c) s = .next { s with
    log.buckets := tabSet {} s.log.buckets c.toNat (refill (now s) (tabGet {} s.log.buckets c.toNat)) }) ∧
  (∀ s : State, s.power.main = true → (s.nv.hours + 1) % 64 ≠ 0 →
    exec .hoursTick s = .next { s with nv.hours := (s.nv.hours + 1) % 2 ^ 32 }) ∧
  ∀ s : State, s.power.main = true → (s.nv.hours + 1) % 64 = 0 →
    exec .hoursTick s = .next (writeCounters { s with nv.hours := (s.nv.hours + 1) % 2 ^ 32 })

/-- CAPTURE_TRIGGER, SHOT_QUAL_TIMEOUT, MASK_VIOLATION, CAPTURE_COMPLETE and CAPTURE_HOLDOFF_END (R195, R197, R198,
R203, R200, R201; derived). -/
def Obligations.CaptureEvents : Prop :=
  (∀ (u : Fin 2) (t : Nat) (l : List (BitVec 10)) (s : State), s.power.dieA = true → t ≤ 2 * now s + 1 →
    l.length ≤ t + 1 → t + 1 ≤ (capt s u.val).storeFrom + l.length →
      exec (.captureTrigger u t l) s = .next (captureSamples u.val (t + 1 - l.length) l s)) ∧
  (∀ (u : Fin 2) (s : State) (w : QualWindow) (rest : List QualWindow), (capt s u.val).quals = w :: rest →
    (capt s u.val).run = .armed → w.launch + 128 * (captCfg (capt s u.val)).qualNs ≤ 128 * now s →
      exec (.shotQualTimeout u) s = .next (modCapt u.val (fun x =>
        { x with quals := rest, timeouts := sat32 (x.timeouts + 1) }) s)) ∧
  (∀ (u : Fin 2) (x : List Nat) (s : State) (c : Capture) (i : Nat) (up : Bool), (capt s u.val).held = some c →
    (capt s u.val).run = .capturing → (capt s u.val).stops = [] →
    firstViolation (c.pre - c.preValid) (capt s u.val) (withSamples c x) 0 (withSamples c x).samples = some (i, up) →
    sampled c (max i c.pre) s = true → ∃ t, exec (.maskViolation u x) s = .next t ∧
      (capt t u.val).run = .done ∧ (capt t u.val).line = true ∧
      (capt t u.val).maskFails = min (2 ^ 32 - 1) ((capt s u.val).maskFails + 1) ∧
      (capt t u.val).held = some { (withSamples c x) with
        samples := (withSamples c x).samples.take (max (i + 1) (c.pre + 1)), fail := some i, upper := up
        lower := !up }) ∧
  (∀ (u : Fin 2) (x : List Nat) (s : State) (c : Capture), (capt s u.val).held = some c →
    (capt s u.val).run = .capturing → (capt s u.val).stops = [] → c.post ≤ x.length + 1 →
    firstViolation (c.pre - c.preValid) (capt s u.val) (withSamples c x) 0 (withSamples c x).samples = none →
    sampled c (c.pre + c.post - 1) s = true → ∃ t, exec (.captureComplete u x) s = .next t ∧
      (capt t u.val).run = (if (captCfg (capt s u.val)).repeats then .holdoff else .done) ∧
      (capt t u.val).held = some (withSamples c x) ∧
      (capt t u.val).captures = ((capt s u.val).captures + 1) % 2 ^ 64) ∧
  ∀ (u : Fin 2) (s : State), (capt s u.val).run = .holdoff → holdoffOver (capt s u.val) s = true →
    exec (.captureHoldoffEnd u) s = .next (modCapt u.val (fun x =>
      { x with
        run := .armed, held := none, quals := [], force := none, stored := [], low := false, high := false
        storeFrom := 2 * now s }) s)

/-- A cause that arises trips the Emission Supervisor; the last to clear leads to CLEARED, never to PERMIT (R215,
R217, R218, R223, R219; derived). -/
def Obligations.CausesTripAndClear : Prop :=
  (∀ (c : Cause) (s : State), s.es.powered = true → bit s.es.present c.val = false → causeInput c.val s = true →
    let cs := c.val :: raisedInputs s
    (s.es.run ≠ .tripped → ∃ t, exec (.esCauseArises c) s = .next t ∧ t.es.run = .tripped ∧ t.es.permit = false ∧
      t.shot.granted = false ∧ t.es.present = cs.foldl setBit s.es.present ∧ t.es.latched = t.es.present ∧
      t.es.first = 2 ^ cs.foldl min c.val ∧ t.es.trips = min (2 ^ 32 - 1) (s.es.trips + 1) ∧ t.es.rearm = none ∧
      t.es.tripHours = s.nv.hours ∧ fires t.out = fires s.out) ∧
    (s.es.run = .tripped → exec (.esCauseArises c) s = .next { s with
      es.present := cs.foldl setBit s.es.present
      es.latched := cs.foldl setBit s.es.latched
      es.first := firstCause cs s })) ∧
  (∀ s : State, raisedInputs s = [] → takeCauses s = s) ∧
  (∀ (c : Cause) (s : State), s.es.powered = true → bit s.es.present c.val = true → causeGone c.val s = true →
    let s0 := takeCauses s
    ∃ t, exec (.esCauseClears c) s = .next t ∧ t.es.present = clrBit s0.es.present c.val ∧
      t.es.permit = s0.es.permit ∧ t.es.latched = s0.es.latched ∧ t.es.first = s0.es.first ∧
      t.es.run = (if s0.es.run = .tripped ∧ clrBit s0.es.present c.val = 0 then .cleared else s0.es.run)) ∧
  (∀ s : State, s.es.powered = true → s.es.selftestOk = true → s.es.loaded = true → bit s.es.present 0 = true →
    1000000 * s.es.cfg.hold ≤ s.es.time →
      ∃ t, exec .powerupHoldEnd s = .next t ∧ t.es.present = clrBit (takeCauses s).es.present 0 ∧
        t.es.permit = (takeCauses s).es.permit) ∧
  (∀ s : State, s.es.powered = true → s.es.ack ≠ some true →
    let s0 := takeCauses s
    s0.es.present = 0 → ackQualified s0 = true →
    ((s0.es.run = .cleared ∧ s.es.cfg.rearmPath ≠ 1) ∨ (s0.es.run = .rearmPending ∧ s.es.cfg.rearmPath = 2)) →
      ∃ t, exec .safeAckRise s = .next t ∧ t.es.run = .permit ∧ t.es.permit = true ∧
        t.shot.granted = s0.shot.granted ∧ fires t.out = fires s.out) ∧
  ∀ s : State, s.es.powered = true → s.es.ack ≠ some true → ackQualified (takeCauses s) = false →
    exec .safeAckRise s = .next { takeCauses s with es.ack := some true, es.ackLow := none }

/-- Pulse ledgers, clock, self-test and CRC checks, timeouts, SAFE_ACK falls and path messages of the supervisor
(R209, R213, R216, R212, R211, R226, R218, R225, R219, R229, R230; derived). -/
def Obligations.SupervisorEvents : Prop :=
  (∀ (p : Fin 128) (s : State), s.es.powered = true →
    let s1 := forUpto 3 (fun k x => { x with
      es.ports := tabMod [] x.es.ports (3 * p.val + k) (addBucket (tabGet 1 s.es.cfg.weights p.val))
      es.groups := tabMod [] x.es.groups (3 * (p.val / 8) + k) (addBucket (tabGet 1 s.es.cfg.weights p.val)) }) s
    (overLimit s1 p.val = none → exec (.esPulseCount p) s = .next s1) ∧
      ∀ k g, overLimit s1 p.val = some (k, g) →
        exec (.esPulseCount p) s = .next (esLedger p.val k (if g then p.val / 8 else 0xFF) s1)) ∧
  (∀ (k : Fin 3) (s : State), s.es.powered = true →
    let due := (nth s.es.closedTo k.val / bucketNs s.es.cfg k.val + 1) * bucketNs s.es.cfg k.val
    due ≤ s.es.time → exec (.ledgerBucketClose k) s = .next { s with
      es.closedTo := s.es.closedTo.set k.val due
      es.ports := mapWindow k.val closeBucket s.es.ports
      es.groups := mapWindow k.val closeBucket s.es.groups }) ∧
  (∀ (ppm : Int) (ok : Bool) (s : State), s.es.powered = true →
    (ok = true → ppm.natAbs ≤ 30000 → exec (.esClockCheck ppm ok) s = .next { s with
      es.clockDev := ppm
      es.clockOkSince := some (s.es.clockOkSince.getD s.es.time) }) ∧
    (ok = false ∨ 30000 < ppm.natAbs → ∃ t, exec (.esClockCheck ppm ok) s = .next t ∧ bit t.es.present 9 = true)) ∧
  (∀ s : State, s.es.powered = true → (∃ t, exec (.esSelftest false) s = .next t ∧ bit t.es.present 7 = true) ∧
    ∃ t, exec (.esSelftest true) s = .next t ∧ bit t.es.present 7 = false) ∧
  (∀ (crc : BitVec 32) (s : State), s.es.powered = true →
    ∃ t, exec (.esCrcCheck crc) s = .next t ∧ bit t.es.present 6 = decide (crc.toNat ≠ s.es.crc)) ∧
  (∀ (s : State) (r : Rearm), s.es.rearm = some r → r.tick + 2000000000 ≤ s.es.time →
    exec .rearmTimeout s = .next (logEv 0x0807 2 0 0 { s with
      es.run := .cleared, es.rearm := none, es.rearmsRefused := sat32 (s.es.rearmsRefused + 1) })) ∧
  (∀ s : State, s.es.unlocked.isSome = true → s.es.unlockAt + 60000000000 ≤ s.es.time →
    exec .esUnlockTimeout s = .next { s with es.unlocked := none }) ∧
  (∀ (s : State) (x : Nat), s.es.refusal = some x → x ≤ s.es.time →
    exec .unlockRefusalEnd s = .next { s with es.refusal := none, es.wrong := 0 }) ∧
  (∀ s : State, s.es.powered = true → s.es.ack ≠ some false →
    exec .safeAckFall s = .next { s with
      es.ack := some false, es.ackLow := if s.es.ack = some true then some s.es.time else none }) ∧
  (∀ s : State, s.es.powered = true → ringMember s = true → s.es.sentAt + 20000 ≤ s.es.time →
    exec .esStateMessageSend s = .next (broadcast 3 1 (stateMessage 0 s) (stateMessage 1 s) { s with
      es.seq := (s.es.seq + 1) % 2 ^ 32, es.sentAt := s.es.time })) ∧
  (∀ (s s1 : State) (m : RingMessage), takeInbox 3 1 s = some (m, s1) → s.es.powered = true → ringMember s = true →
    m.payload.length = 24 → crc32 (overwrite (m.payload.take 20) 3 (zeros 1)) = u32 m.payload 20 →
      exec .esStateMessage s = .next (takeStateMessage m.payload s1)) ∧
  (∀ (s s1 : State) (m : RingMessage), takeInbox 3 1 s = some (m, s1) → s.es.powered = true → ringMember s = true →
    m.payload.length ≠ 24 ∨ crc32 (overwrite (m.payload.take 20) 3 (zeros 1)) ≠ u32 m.payload 20 →
      exec .esStateMessage s = .next { s1 with es.pathMismatches := sat32 (s1.es.pathMismatches + 1) }) ∧
  ∀ (n : BitVec 16) (r : Fin 2) (s : State), let x := tabGet {} s.es.paths n.toNat
    let mine := if r.val = 0 then x.primary else x.secondary
    let other := if r.val = 0 then x.secondary else x.primary
    s.es.powered = true → ringMember s = true → x.primary.last.isSome = true ∨ x.secondary.last.isSome = true →
    mine.tick + 1000 * s.es.cfg.pathTimeout ≤ s.es.time →
    (s.es.time < other.tick + 1000 * s.es.cfg.pathTimeout → mine.timedOut = false →
      exec (.safePathTimeout n r) s = .next (degradePath n.toNat { s with
        es.paths := tabSet {} s.es.paths n.toNat (
          if r.val = 0 then { x with primary := { mine with timedOut := true } }
          else { x with secondary := { mine with timedOut := true } })
        es.pathTimeouts := sat32 (s.es.pathTimeouts + 1) })) ∧
    (other.tick + 1000 * s.es.cfg.pathTimeout ≤ s.es.time →
      exec (.safePathTimeout n r) s = .next { s with
        es.paths := tabSet {} s.es.paths n.toNat { x with silent := true } })

/-- The events of lanes and ports: training, lock, TS, alignment and capability blocks, PARTNER_TERMINATION_SENSED,
QUARANTINE_RETRY and PORT_STATE_TIMEOUT (R327, R330, R331, R332, R333, R302; derived). -/
def Obligations.LaneEvents : Prop :=
  (∀ (p : Port) (s : State), (port s p).run = .train → (port s p).since + 4000000 ≤ now s →
    exec (.portStateTimeout p) s = .next (forEach (portLanes p) (fun i s =>
      modLane i (fun l => { l with retrains := sat32 (l.retrains + 1) }) s) (dropLink p .detect s))) ∧
  (∀ (p : Port) (s : State), (port s p).run = .lock ∨ (port s p).run = .caps →
    (port s p).since + 1000000 ≤ now s →
      exec (.portStateTimeout p) s = .next (trainPort p (port s p).rate s)) ∧
  (∀ (p : Port) (s : State), (port s p).run = .detect → (port s p).since + 1000000 ≤ now s →
    exec (.portStateTimeout p) s = .next (modPort p (fun x => { x with since := now s }) s)) ∧
  (∀ (i : Fin 20) (s : State), i.val < 4 → (port s (lanePort i.val)).run = .train →
    exec (.laneTrained i) s =
      .next (trainToLock (lanePort i.val) (modLane i.val (fun l => { l with trained := true }) s))) ∧
  (∀ (i : Fin 20) (s : State), 8 ≤ i.val → mortarRuns s = true → (lane s i.val).locked = false →
    (lane s i.val).since + 10000 ≤ now s →
      exec (.laneTrained i) s = .next (modLane i.val (fun l => { l with trained := true }) s)) ∧
  (∀ (i : Fin 20) (s : State), (lane s i.val).trained = true → (lane s i.val).locked = false →
    (i.val < 4 ∧ pastTrain s i.val = true ∨ 8 ≤ i.val ∧ mortarRuns s = true) →
      exec (.blockLockAcquired i) s =
        .next (modLane i.val (fun l => { (startCount (now s) l) with locked := true }) s)) ∧
  (∀ (i : Fin 20) (d r : Bool) (s : State), i.val < 4 → (port s (lanePort i.val)).run = .train →
    exec (.tsBlock i false d r) s = .next (trainToLock (lanePort i.val)
      (modLane (txLane (lanePort i.val) (i.val % 2)) (fun l => { l with partnerTrained := d }) s)) ∧
    exec (.tsBlock i true d r) s =
      .next (modLane i.val (fun l => { l with ctrlErrors := sat32 (l.ctrlErrors + 1) }) s)) ∧
  (∀ (i : Fin 20) (c : List Byte) (s : State), (lane s i.val).locked = true →
    (i.val < 4 → (port s (lanePort i.val)).run ≠ .active → exec (.blockLockLost i c) s =
      .next (loseLock i.val true s)) ∧
    (i.val < 4 → (port s (lanePort i.val)).run = .active →
      (port s (lanePort i.val)).rxMask.testBit (i.val % 2) = true → exec (.blockLockLost i c) s =
        .next (loseLock i.val true (cutReception (lanePort i.val) c s))) ∧
    (8 ≤ i.val → exec (.blockLockLost i c) s = .next (mortarLaneLoss (i.val - 8) true s))) ∧
  (∀ (i : Fin 20) (skew m : Nat) (s : State), (lane s i.val).locked = true →
    (i.val < 4 ∨ 8 ≤ i.val) →
    let rate := if i.val < 8 then (port s (lanePort i.val)).rate else 0
    let kept := modLane i.val (fun l =>
      { l with deskewed := true, deskew := skew, marker := m, markerAt := now s }) s
    let failed := modLane i.val (fun l => { l with deskewFails := sat32 (l.deskewFails + 1) }) s
    exec (.alignBlock i true skew m) s =
      .next (modLane i.val (fun l => { l with ctrlErrors := sat32 (l.ctrlErrors + 1) }) s) ∧
    (skew ≤ (if i.val < 8 then 32 else 4) → (∀ k ∈ alignedWith i.val s, markerNow s rate (lane s k) = m) →
      (i.val < 4 → exec (.alignBlock i false skew m) s = .next (lanesAligned i.val kept)) ∧
        (8 ≤ i.val → exec (.alignBlock i false skew m) s = .next kept)) ∧
    ((if i.val < 8 then 32 else 4) < skew →
      (i.val < 4 → exec (.alignBlock i false skew m) s = .next (loseLock i.val false failed)) ∧
        (8 ≤ i.val → exec (.alignBlock i false skew m) s = .next (mortarLaneLoss (i.val - 8) false failed)))) ∧
  (∀ (p : Port) (c : List Byte) (s : State), (port s p).run = .caps → c.length = 24 →
    crc16 (c.take 22) = u16 c 22 → exec (.capsReceived p c) s = .next (takeCaps p c s)) ∧
  (∀ (p : Port) (s : State), (port s p).run = .detect →
    ∃ t, exec (.partnerTerminationSensed p) s = .next t ∧ (port t p).run = .train ∧ (port t p).rate = 2) ∧
  ∀ (p : Port) (s : State), (port s p).run = .quarantined → quarWait s p ≠ 0 →
    (port s p).since + 1000000000 * quarWait s p ≤ now s → ∃ t, exec (.quarantineRetry p) s = .next t ∧
      (port t p).run = .train ∧ (port t p).rate = 2 ∧ (port t p).retriedAt = some (now s)

/-- ACK, NAK, CREDIT, PROBE, RESTRIPE, SWITCH and LEAVE blocks, REPLAY_TIMEOUT, PROBE_SEND and RING_FRAME_RECEIVED of
an ACTIVE port (R299, R329, R298, R334, R335, R336, R330; derived). -/
def Obligations.LinkBlocks : Prop :=
  ∀ (p : Port) (s : State), (port s p).run = .active →
    (∀ q : BitVec 32, exec (.ackBlock p q) s = .next (pump p (modPort p (fun x =>
      { x with replay := x.replay.filter (lseqFrom ((q.toNat + 1) % 2 ^ 32)) }) s))) ∧
    (∀ (n : Nat) (q : BitVec 32),
      let counted := modPort p (fun x => { x with nakReceived := sat32 (x.nakReceived + 1) }) s
      (n ≠ 3 → exec (.nakBlock p n q) s = .next (resendFrom p q.toNat counted)) ∧
        (n = 3 → exec (.nakBlock p n q) s =
          .next (modPort p (fun x => { x with resendAt := some q.toNat }) counted))) ∧
    (∀ g r : Nat, exec (.creditBlock p g r) s = .next (pump p (modPort p (fun x =>
        { x with general := min 960 (x.general + g), reserved := min 64 (x.reserved + r) }) s))) ∧
    (∀ (h : HeldFrame) (l : List HeldFrame), (port s p).replay = h :: l → h.sentAt + 10000 ≤ now s →
      exec (.replayTimeout p) s = .next (resendFrom p h.lseq s)) ∧
    ((port s p).probeAt + 1000 * s.ring.syncPeriod ≤ now s → exec (.probeSend p) s =
      .next (sendBlock p 0xCC (b1 (2 * (port s p).probeNext)) (modPort p (fun x => { x with
        probe := some (x.probeNext, now s), probeAt := now s, probeNext := (x.probeNext + 1) % 128 }) s))) ∧
    (∀ n r : Nat, exec (.probeBlock p false n r) s =
      .next (sendBlock p 0xCC (b1 (2 * (n % 128) + 1) ++ leBytes 5 0) s)) ∧
    (∀ n r at_ : Nat, (port s p).probe = some (n, at_) → now s ≤ at_ + 10000 →
      exec (.probeBlock p true n r) s = .next (modPort p (fun x =>
        { x with probe := none, delay := (16 * (now s - at_) - r) / 2 }) s)) ∧
    (∀ m : BitVec 2, m ≠ 0 → m.toNat ≠ (port s p).txMask →
      let s1 := setTxMask p m.toNat (sendBlock p 0xE1 (b1 m.toNat) s)
      let keeps := (digits (port s p).txMask).all (fun d => m.toNat.testBit d)
      (keeps = true → exec (.restripeBlock p m) s = .next s1) ∧
        (keeps = false → exec (.restripeBlock p m) s = .next (resendAll p s1))) ∧
    (∀ (m : BitVec 2) (c : List Byte), m ≠ 0 → m.toNat ≠ (port s p).rxMask →
      (∃ d ∈ digits m.toNat, (lane s (rxLane p d)).locked = true) →
        ∃ t, exec (.switchBlock p m c) s = .next t ∧ (port t p).rxMask = m.toNat ∧ (port t p).run = .active) ∧
    (∀ n < 256, exec (.leaveBlock p n) s = .next (losePort p s)) ∧
    ∀ f : List Byte, exec (.ringFrameReceived p false f) s = .next (takeFrame p f s) ∧
      exec (.ringFrameReceived p true f) s =
        .next (modPort p (fun x => { x with stomped := sat32 (x.stomped + 1) }) (dropFrame p f s))

/-- RING_JOIN_TIMEOUT, RING_ISOLATED_RETRY, RING_LEAVING_DONE, ANNOUNCE_SEND and _RECEIVED, ROSTER_EXPIRY, SYNC_SEND,
SYNC_RECEIVED and SYNC_LOST (R293, R294, R304, R306; derived). -/
def Obligations.RingMembershipEvents : Prop :=
  (∀ (s : State) (x : Nat), s.ring.run = .joining → s.ring.oneSince = some x → x + 100000000 ≤ now s →
    exec .ringJoinTimeout s = .next (updateMaster (wrapAt (if inService s .e then .w else .e) s))) ∧
  (∀ s : State, s.ring.run = .joining → s.ring.oneSince = none → s.ring.since + 100000000 ≤ now s →
    ∃ t, exec .ringJoinTimeout s = .next t ∧ t.ring.run = .isolated ∧ t.ring.bypass = true) ∧
  (∀ s : State, s.ring.run = .isolated → s.ring.since + 10000000000 ≤ now s → mayJoin s = true →
    ∃ t, exec .ringIsolatedRetry s = .next t ∧ t.ring.run = .joining ∧ t.ring.bypass = false ∧
      (port t .w).run = .detect ∧ (port t .e).run = .detect) ∧
  (∀ s : State, s.ring.run = .leaving → s.ring.unacked = [] ∨ s.ring.since + 10000000 ≤ now s →
    let leave (p : Port) (s : State) : State :=
      if (port s p).run = .active then sendBlockAll p 0xF0 (b1 0) s else s
    exec .ringLeavingDone s = .next (endLeaving (leave .w (leave .e s)))) ∧
  (∀ s : State, ringMember s = true → (∀ x, s.ring.announcedAt = some x → x + syncNs s ≤ now s) →
    exec .announceSend s = .next (broadcast 1 2 (announcePayload s) (announcePayload s) { s with
      ring.announcedAt := some (now s)
      ring.aseq := (s.ring.aseq + 1) % 2 ^ 32 })) ∧
  (∀ (s s1 : State) (m : RingMessage), takeInbox 1 2 s = some (m, s1) → ringMember s = true →
    m.payload.length = 32 → u16 m.payload 0 ≠ ownNode s →
      exec .announceReceived s = .next (takeAnnounce m s1)) ∧
  (∀ (n : BitVec 16) (s : State) (m : Member), member s n.toNat = some m → m.seenAt + 3 * syncNs s ≤ now s →
    exec (.rosterExpiry n) s = .next (rosterChanged (dropMember n.toNat s))) ∧
  (∀ s : State, maySync s = true → (s.ring.sending = true →
      s.ring.syncSentAt + 1000 * s.ring.cfg.syncPeriod ≤ now s) →
    let es := syncEntries s
    let p := masterPhase (match ownEntry s es with
      | some e => e.keepOut
      | none => 0) s
    let s1 : State :=
      { s with
        ring.sseqSent := nextSseq s
        ring.phase := some p
        ring.entries := es
        ring.sending := true
        ring.syncSentAt := now s
        ring.syncPeriod := s.ring.cfg.syncPeriod
        ring.rateMismatch := false }
    exec .syncSend s = .next (sendSync 1 (syncPayload s1 es p) p (sendSync 0 (syncPayload s1 es p) p
      (takeBlock es s1)))) ∧
  (∀ (s s1 : State) (m : RingMessage), takeInbox 1 1 s = some (m, s1) → ringMember s = true →
    (m.src ≠ ownNode s → exec .syncReceived s = .next (takeSync m s1)) ∧
      (m.src = ownNode s → s.ring.sending = true → exec .syncReceived s = .next (syncReturned m s1))) ∧
  ∀ (s : State) (x : Nat), s.ring.syncAt = some x → ringMember s = true → s.ring.sending = false →
    x + 4 * syncNs s ≤ now s → exec .syncLost s = .next (logEv 0x0904 s.ring.master 0 0 { s with
      ring.syncAt := none, ring.syncRun := 0, ring.syncLost := sat32 (s.ring.syncLost + 1) })

/-- PALLET_RECEIVED, PALLET_ACK, CI_READ_MESSAGE, E2E_RESEND, MGMT_COMMAND, MGMT_RESULT and REMOTE_TIMEOUT (R246,
R300, R312, R311, R314; derived). -/
def Obligations.RingMessages : Prop :=
  (∀ (s s1 : State) (m : RingMessage), takeInbox 2 1 s = some (m, s1) → ringMember s = true → canMaster s = true →
    m.src ∈ served s → 0 < u8 m.payload 5 → u8 m.payload 5 ≤ 32 → m.payload.length = 32 + 64 * u8 m.payload 5 →
      let s2 := (e2eAccept m (writePallet m.src (m.payload.drop 4) s1)).2
      (u32 m.payload 0 = tabGet 0 s1.ring.eseqIn m.src → exec .palletReceived s =
        .next (if u8 m.payload 6 = 0xFF then s2 else msixSend (u8 m.payload 6) s2)) ∧
      (u32 m.payload 0 ≠ tabGet 0 s1.ring.eseqIn m.src → exec .palletReceived s = .next (e2eAccept m s1).2)) ∧
  (∀ (s s1 : State) (m : RingMessage), takeInbox 2 2 s = some (m, s1) →
    exec .palletAck s = .next (e2eAcked m.src (u32 m.payload 0) s1)) ∧
  (∀ (ci : BitVec 64) (s s1 : State) (m : RingMessage), takeInbox 2 3 s = some (m, s1) → u8 m.payload 4 = 0 →
    ringMember s = true → canMaster s = true → u32 m.payload 0 = tabGet 0 s1.ring.eseqIn m.src →
      exec (.ciReadMessage ci) s = .next (e2eSend 2 3 m.src (b1 1 ++ b1 (u8 m.payload 5) ++ b2 0 ++ b8 ci.toNat)
        (emit (.hostRead (u64 m.payload 8) 8) (e2eAccept m s1).2))) ∧
  (∀ (ci : BitVec 64) (s s1 : State) (m : RingMessage), takeInbox 2 3 s = some (m, s1) → u8 m.payload 4 = 1 →
    u32 m.payload 0 = tabGet 0 s1.ring.eseqIn m.src → u8 m.payload 5 < 64 →
    (dring (e2eAccept m s1).2 (u8 m.payload 5)).ciRead.isSome = true →
      exec (.ciReadMessage ci) s = .next (takeCi (u8 m.payload 5) (u64 m.payload 8) (e2eAccept m s1).2)) ∧
  (∀ s : State, (∃ m ∈ s.ring.unacked, m.sentAt + 500000 ≤ now s) →
    exec .e2eResend s = .next (e2eResend (s.ring.unacked.filter (fun m =>
      ((s.ring.unacked.filter (fun x => decide (x.sentAt + 500000 ≤ now s))).map (fun x => x.dst)).dedup.contains
        m.dst)) s)) ∧
  (∀ (s s1 : State) (m : RingMessage), takeInbox 4 1 s = some (m, s1) → ringMember s = true → sornor s = true →
    u32 m.payload 0 = tabGet 0 s1.ring.eseqIn m.src → u8 m.payload 7 = 1 → ∀ (b : Bytes) (t : State),
      gather m.src (u8 m.payload 6) (u64 m.payload 8) true (m.payload.drop 16) (e2eAccept m s1).2 = (some b, t) →
        exec .mgmtCommand s = .next (remoteCommand (u16 m.payload 4) (u8 m.payload 6) (u64 m.payload 8) b t)) ∧
  (∀ (s s1 : State) (m : RingMessage), takeInbox 4 2 s = some (m, s1) → sornor s = true →
    u32 m.payload 0 = tabGet 0 s1.ring.eseqIn m.src → u8 m.payload 7 = 1 → ∀ (b : Bytes) (t : State),
      gather m.src (16 + u8 m.payload 6) (u64 m.payload 8) true (m.payload.drop 16) (e2eAccept m s1).2 = (some b, t) →
        exec .mgmtResult s = .next (remoteResult m.src (u8 m.payload 6) (u64 m.payload 8) b t)) ∧
  ∀ (mb : Fin 8) (s : State) (x : RemoteCommand), s.ring.remote = [x] → s.ring.idents = [] → sornor s = true →
    x.box = mb.val → (x.sentAt + 1000000000 ≤ now s ∨ inRoster s x.node = false) →
      exec (.remoteTimeout mb) s = .next (finish x.jseq faulted { s with ring.remote := [] })
end

