-- ==== Sys2Proof/Laws/State.lean ====
section
/-! SUPPORT. One law for each field of State under each named operation that changes one field. -/

namespace Sys2Proof.Machine

open Sys2Proof

@[simp] theorem emit_angle (o : Out) (s : State) : (emit o s).angle = s.angle := rfl
@[simp] theorem emit_time (o : Out) (s : State) : (emit o s).time = s.time := rfl
@[simp] theorem emit_loop (o : Out) (s : State) : (emit o s).loop = s.loop := rfl
@[simp] theorem emit_shot (o : Out) (s : State) : (emit o s).shot = s.shot := rfl
@[simp] theorem emit_recv (o : Out) (s : State) : (emit o s).recv = s.recv := rfl
@[simp] theorem emit_eng (o : Out) (s : State) : (emit o s).eng = s.eng := rfl
@[simp] theorem emit_dlv (o : Out) (s : State) : (emit o s).dlv = s.dlv := rfl
@[simp] theorem emit_es (o : Out) (s : State) : (emit o s).es = s.es := rfl
@[simp] theorem emit_capt (o : Out) (s : State) : (emit o s).capt = s.capt := rfl
@[simp] theorem emit_ring (o : Out) (s : State) : (emit o s).ring = s.ring := rfl
@[simp] theorem emit_lanes (o : Out) (s : State) : (emit o s).lanes = s.lanes := rfl
@[simp] theorem emit_mem (o : Out) (s : State) : (emit o s).mem = s.mem := rfl
@[simp] theorem emit_hk (o : Out) (s : State) : (emit o s).hk = s.hk := rfl
@[simp] theorem emit_th (o : Out) (s : State) : (emit o s).th = s.th := rfl
@[simp] theorem emit_set (o : Out) (s : State) : (emit o s).set = s.set := rfl
@[simp] theorem emit_pcie (o : Out) (s : State) : (emit o s).pcie = s.pcie := rfl
@[simp] theorem emit_hod (o : Out) (s : State) : (emit o s).hod = s.hod := rfl
@[simp] theorem emit_mbx (o : Out) (s : State) : (emit o s).mbx = s.mbx := rfl
@[simp] theorem emit_log (o : Out) (s : State) : (emit o s).log = s.log := rfl
@[simp] theorem emit_nv (o : Out) (s : State) : (emit o s).nv = s.nv := rfl
@[simp] theorem emit_power (o : Out) (s : State) : (emit o s).power = s.power := rfl
@[simp] theorem emit_free (o : Out) (s : State) : (emit o s).free = s.free := rfl
@[simp] theorem emit_out (o : Out) (s : State) : (emit o s).out = o :: s.out := rfl
@[simp] theorem emit_pending (o : Out) (s : State) : (emit o s).pending = s.pending := rfl

@[simp] theorem modCourse_angle (c : Nat) (f : CourseShot → CourseShot) (s : State) : (modCourse c f s).angle = s.angle := rfl
@[simp] theorem modCourse_time (c : Nat) (f : CourseShot → CourseShot) (s : State) : (modCourse c f s).time = s.time := rfl
@[simp] theorem modCourse_loop (c : Nat) (f : CourseShot → CourseShot) (s : State) : (modCourse c f s).loop = s.loop := rfl
@[simp] theorem modCourse_shot (c : Nat) (f : CourseShot → CourseShot) (s : State) : (modCourse c f s).shot = { s.shot with courses := tabMod {} s.shot.courses c f } := rfl
@[simp] theorem modCourse_recv (c : Nat) (f : CourseShot → CourseShot) (s : State) : (modCourse c f s).recv = s.recv := rfl
@[simp] theorem modCourse_eng (c : Nat) (f : CourseShot → CourseShot) (s : State) : (modCourse c f s).eng = s.eng := rfl
@[simp] theorem modCourse_dlv (c : Nat) (f : CourseShot → CourseShot) (s : State) : (modCourse c f s).dlv = s.dlv := rfl
@[simp] theorem modCourse_es (c : Nat) (f : CourseShot → CourseShot) (s : State) : (modCourse c f s).es = s.es := rfl
@[simp] theorem modCourse_capt (c : Nat) (f : CourseShot → CourseShot) (s : State) : (modCourse c f s).capt = s.capt := rfl
@[simp] theorem modCourse_ring (c : Nat) (f : CourseShot → CourseShot) (s : State) : (modCourse c f s).ring = s.ring := rfl
@[simp] theorem modCourse_lanes (c : Nat) (f : CourseShot → CourseShot) (s : State) : (modCourse c f s).lanes = s.lanes := rfl
@[simp] theorem modCourse_mem (c : Nat) (f : CourseShot → CourseShot) (s : State) : (modCourse c f s).mem = s.mem := rfl
@[simp] theorem modCourse_hk (c : Nat) (f : CourseShot → CourseShot) (s : State) : (modCourse c f s).hk = s.hk := rfl
@[simp] theorem modCourse_th (c : Nat) (f : CourseShot → CourseShot) (s : State) : (modCourse c f s).th = s.th := rfl
@[simp] theorem modCourse_set (c : Nat) (f : CourseShot → CourseShot) (s : State) : (modCourse c f s).set = s.set := rfl
@[simp] theorem modCourse_pcie (c : Nat) (f : CourseShot → CourseShot) (s : State) : (modCourse c f s).pcie = s.pcie := rfl
@[simp] theorem modCourse_hod (c : Nat) (f : CourseShot → CourseShot) (s : State) : (modCourse c f s).hod = s.hod := rfl
@[simp] theorem modCourse_mbx (c : Nat) (f : CourseShot → CourseShot) (s : State) : (modCourse c f s).mbx = s.mbx := rfl
@[simp] theorem modCourse_log (c : Nat) (f : CourseShot → CourseShot) (s : State) : (modCourse c f s).log = s.log := rfl
@[simp] theorem modCourse_nv (c : Nat) (f : CourseShot → CourseShot) (s : State) : (modCourse c f s).nv = s.nv := rfl
@[simp] theorem modCourse_power (c : Nat) (f : CourseShot → CourseShot) (s : State) : (modCourse c f s).power = s.power := rfl
@[simp] theorem modCourse_free (c : Nat) (f : CourseShot → CourseShot) (s : State) : (modCourse c f s).free = s.free := rfl
@[simp] theorem modCourse_out (c : Nat) (f : CourseShot → CourseShot) (s : State) : (modCourse c f s).out = s.out := rfl
@[simp] theorem modCourse_pending (c : Nat) (f : CourseShot → CourseShot) (s : State) : (modCourse c f s).pending = s.pending := rfl

@[simp] theorem modChan_angle (c : Nat) (f : Channel → Channel) (s : State) : (modChan c f s).angle = s.angle := rfl
@[simp] theorem modChan_time (c : Nat) (f : Channel → Channel) (s : State) : (modChan c f s).time = s.time := rfl
@[simp] theorem modChan_loop (c : Nat) (f : Channel → Channel) (s : State) : (modChan c f s).loop = s.loop := rfl
@[simp] theorem modChan_shot (c : Nat) (f : Channel → Channel) (s : State) : (modChan c f s).shot = s.shot := rfl
@[simp] theorem modChan_recv (c : Nat) (f : Channel → Channel) (s : State) : (modChan c f s).recv = tabMod {} s.recv c f := rfl
@[simp] theorem modChan_eng (c : Nat) (f : Channel → Channel) (s : State) : (modChan c f s).eng = s.eng := rfl
@[simp] theorem modChan_dlv (c : Nat) (f : Channel → Channel) (s : State) : (modChan c f s).dlv = s.dlv := rfl
@[simp] theorem modChan_es (c : Nat) (f : Channel → Channel) (s : State) : (modChan c f s).es = s.es := rfl
@[simp] theorem modChan_capt (c : Nat) (f : Channel → Channel) (s : State) : (modChan c f s).capt = s.capt := rfl
@[simp] theorem modChan_ring (c : Nat) (f : Channel → Channel) (s : State) : (modChan c f s).ring = s.ring := rfl
@[simp] theorem modChan_lanes (c : Nat) (f : Channel → Channel) (s : State) : (modChan c f s).lanes = s.lanes := rfl
@[simp] theorem modChan_mem (c : Nat) (f : Channel → Channel) (s : State) : (modChan c f s).mem = s.mem := rfl
@[simp] theorem modChan_hk (c : Nat) (f : Channel → Channel) (s : State) : (modChan c f s).hk = s.hk := rfl
@[simp] theorem modChan_th (c : Nat) (f : Channel → Channel) (s : State) : (modChan c f s).th = s.th := rfl
@[simp] theorem modChan_set (c : Nat) (f : Channel → Channel) (s : State) : (modChan c f s).set = s.set := rfl
@[simp] theorem modChan_pcie (c : Nat) (f : Channel → Channel) (s : State) : (modChan c f s).pcie = s.pcie := rfl
@[simp] theorem modChan_hod (c : Nat) (f : Channel → Channel) (s : State) : (modChan c f s).hod = s.hod := rfl
@[simp] theorem modChan_mbx (c : Nat) (f : Channel → Channel) (s : State) : (modChan c f s).mbx = s.mbx := rfl
@[simp] theorem modChan_log (c : Nat) (f : Channel → Channel) (s : State) : (modChan c f s).log = s.log := rfl
@[simp] theorem modChan_nv (c : Nat) (f : Channel → Channel) (s : State) : (modChan c f s).nv = s.nv := rfl
@[simp] theorem modChan_power (c : Nat) (f : Channel → Channel) (s : State) : (modChan c f s).power = s.power := rfl
@[simp] theorem modChan_free (c : Nat) (f : Channel → Channel) (s : State) : (modChan c f s).free = s.free := rfl
@[simp] theorem modChan_out (c : Nat) (f : Channel → Channel) (s : State) : (modChan c f s).out = s.out := rfl
@[simp] theorem modChan_pending (c : Nat) (f : Channel → Channel) (s : State) : (modChan c f s).pending = s.pending := rfl

@[simp] theorem modEngine_angle (e : Nat) (f : Engine → Engine) (s : State) : (modEngine e f s).angle = s.angle := rfl
@[simp] theorem modEngine_time (e : Nat) (f : Engine → Engine) (s : State) : (modEngine e f s).time = s.time := rfl
@[simp] theorem modEngine_loop (e : Nat) (f : Engine → Engine) (s : State) : (modEngine e f s).loop = s.loop := rfl
@[simp] theorem modEngine_shot (e : Nat) (f : Engine → Engine) (s : State) : (modEngine e f s).shot = s.shot := rfl
@[simp] theorem modEngine_recv (e : Nat) (f : Engine → Engine) (s : State) : (modEngine e f s).recv = s.recv := rfl
@[simp] theorem modEngine_eng (e : Nat) (f : Engine → Engine) (s : State) : (modEngine e f s).eng = { s.eng with engines := tabMod {} s.eng.engines e f } := rfl
@[simp] theorem modEngine_dlv (e : Nat) (f : Engine → Engine) (s : State) : (modEngine e f s).dlv = s.dlv := rfl
@[simp] theorem modEngine_es (e : Nat) (f : Engine → Engine) (s : State) : (modEngine e f s).es = s.es := rfl
@[simp] theorem modEngine_capt (e : Nat) (f : Engine → Engine) (s : State) : (modEngine e f s).capt = s.capt := rfl
@[simp] theorem modEngine_ring (e : Nat) (f : Engine → Engine) (s : State) : (modEngine e f s).ring = s.ring := rfl
@[simp] theorem modEngine_lanes (e : Nat) (f : Engine → Engine) (s : State) : (modEngine e f s).lanes = s.lanes := rfl
@[simp] theorem modEngine_mem (e : Nat) (f : Engine → Engine) (s : State) : (modEngine e f s).mem = s.mem := rfl
@[simp] theorem modEngine_hk (e : Nat) (f : Engine → Engine) (s : State) : (modEngine e f s).hk = s.hk := rfl
@[simp] theorem modEngine_th (e : Nat) (f : Engine → Engine) (s : State) : (modEngine e f s).th = s.th := rfl
@[simp] theorem modEngine_set (e : Nat) (f : Engine → Engine) (s : State) : (modEngine e f s).set = s.set := rfl
@[simp] theorem modEngine_pcie (e : Nat) (f : Engine → Engine) (s : State) : (modEngine e f s).pcie = s.pcie := rfl
@[simp] theorem modEngine_hod (e : Nat) (f : Engine → Engine) (s : State) : (modEngine e f s).hod = s.hod := rfl
@[simp] theorem modEngine_mbx (e : Nat) (f : Engine → Engine) (s : State) : (modEngine e f s).mbx = s.mbx := rfl
@[simp] theorem modEngine_log (e : Nat) (f : Engine → Engine) (s : State) : (modEngine e f s).log = s.log := rfl
@[simp] theorem modEngine_nv (e : Nat) (f : Engine → Engine) (s : State) : (modEngine e f s).nv = s.nv := rfl
@[simp] theorem modEngine_power (e : Nat) (f : Engine → Engine) (s : State) : (modEngine e f s).power = s.power := rfl
@[simp] theorem modEngine_free (e : Nat) (f : Engine → Engine) (s : State) : (modEngine e f s).free = s.free := rfl
@[simp] theorem modEngine_out (e : Nat) (f : Engine → Engine) (s : State) : (modEngine e f s).out = s.out := rfl
@[simp] theorem modEngine_pending (e : Nat) (f : Engine → Engine) (s : State) : (modEngine e f s).pending = s.pending := rfl

@[simp] theorem modRej_angle (c : Nat) (f : RejCounters → RejCounters) (s : State) : (modRej c f s).angle = s.angle := rfl
@[simp] theorem modRej_time (c : Nat) (f : RejCounters → RejCounters) (s : State) : (modRej c f s).time = s.time := rfl
@[simp] theorem modRej_loop (c : Nat) (f : RejCounters → RejCounters) (s : State) : (modRej c f s).loop = s.loop := rfl
@[simp] theorem modRej_shot (c : Nat) (f : RejCounters → RejCounters) (s : State) : (modRej c f s).shot = s.shot := rfl
@[simp] theorem modRej_recv (c : Nat) (f : RejCounters → RejCounters) (s : State) : (modRej c f s).recv = s.recv := rfl
@[simp] theorem modRej_eng (c : Nat) (f : RejCounters → RejCounters) (s : State) : (modRej c f s).eng = { s.eng with rej := tabMod {} s.eng.rej c f } := rfl
@[simp] theorem modRej_dlv (c : Nat) (f : RejCounters → RejCounters) (s : State) : (modRej c f s).dlv = s.dlv := rfl
@[simp] theorem modRej_es (c : Nat) (f : RejCounters → RejCounters) (s : State) : (modRej c f s).es = s.es := rfl
@[simp] theorem modRej_capt (c : Nat) (f : RejCounters → RejCounters) (s : State) : (modRej c f s).capt = s.capt := rfl
@[simp] theorem modRej_ring (c : Nat) (f : RejCounters → RejCounters) (s : State) : (modRej c f s).ring = s.ring := rfl
@[simp] theorem modRej_lanes (c : Nat) (f : RejCounters → RejCounters) (s : State) : (modRej c f s).lanes = s.lanes := rfl
@[simp] theorem modRej_mem (c : Nat) (f : RejCounters → RejCounters) (s : State) : (modRej c f s).mem = s.mem := rfl
@[simp] theorem modRej_hk (c : Nat) (f : RejCounters → RejCounters) (s : State) : (modRej c f s).hk = s.hk := rfl
@[simp] theorem modRej_th (c : Nat) (f : RejCounters → RejCounters) (s : State) : (modRej c f s).th = s.th := rfl
@[simp] theorem modRej_set (c : Nat) (f : RejCounters → RejCounters) (s : State) : (modRej c f s).set = s.set := rfl
@[simp] theorem modRej_pcie (c : Nat) (f : RejCounters → RejCounters) (s : State) : (modRej c f s).pcie = s.pcie := rfl
@[simp] theorem modRej_hod (c : Nat) (f : RejCounters → RejCounters) (s : State) : (modRej c f s).hod = s.hod := rfl
@[simp] theorem modRej_mbx (c : Nat) (f : RejCounters → RejCounters) (s : State) : (modRej c f s).mbx = s.mbx := rfl
@[simp] theorem modRej_log (c : Nat) (f : RejCounters → RejCounters) (s : State) : (modRej c f s).log = s.log := rfl
@[simp] theorem modRej_nv (c : Nat) (f : RejCounters → RejCounters) (s : State) : (modRej c f s).nv = s.nv := rfl
@[simp] theorem modRej_power (c : Nat) (f : RejCounters → RejCounters) (s : State) : (modRej c f s).power = s.power := rfl
@[simp] theorem modRej_free (c : Nat) (f : RejCounters → RejCounters) (s : State) : (modRej c f s).free = s.free := rfl
@[simp] theorem modRej_out (c : Nat) (f : RejCounters → RejCounters) (s : State) : (modRej c f s).out = s.out := rfl
@[simp] theorem modRej_pending (c : Nat) (f : RejCounters → RejCounters) (s : State) : (modRej c f s).pending = s.pending := rfl

@[simp] theorem modRing_angle (r : Nat) (f : DlvRing → DlvRing) (s : State) : (modRing r f s).angle = s.angle := rfl
@[simp] theorem modRing_time (r : Nat) (f : DlvRing → DlvRing) (s : State) : (modRing r f s).time = s.time := rfl
@[simp] theorem modRing_loop (r : Nat) (f : DlvRing → DlvRing) (s : State) : (modRing r f s).loop = s.loop := rfl
@[simp] theorem modRing_shot (r : Nat) (f : DlvRing → DlvRing) (s : State) : (modRing r f s).shot = s.shot := rfl
@[simp] theorem modRing_recv (r : Nat) (f : DlvRing → DlvRing) (s : State) : (modRing r f s).recv = s.recv := rfl
@[simp] theorem modRing_eng (r : Nat) (f : DlvRing → DlvRing) (s : State) : (modRing r f s).eng = s.eng := rfl
@[simp] theorem modRing_dlv (r : Nat) (f : DlvRing → DlvRing) (s : State) : (modRing r f s).dlv = { s.dlv with rings := tabMod {} s.dlv.rings r f } := rfl
@[simp] theorem modRing_es (r : Nat) (f : DlvRing → DlvRing) (s : State) : (modRing r f s).es = s.es := rfl
@[simp] theorem modRing_capt (r : Nat) (f : DlvRing → DlvRing) (s : State) : (modRing r f s).capt = s.capt := rfl
@[simp] theorem modRing_ring (r : Nat) (f : DlvRing → DlvRing) (s : State) : (modRing r f s).ring = s.ring := rfl
@[simp] theorem modRing_lanes (r : Nat) (f : DlvRing → DlvRing) (s : State) : (modRing r f s).lanes = s.lanes := rfl
@[simp] theorem modRing_mem (r : Nat) (f : DlvRing → DlvRing) (s : State) : (modRing r f s).mem = s.mem := rfl
@[simp] theorem modRing_hk (r : Nat) (f : DlvRing → DlvRing) (s : State) : (modRing r f s).hk = s.hk := rfl
@[simp] theorem modRing_th (r : Nat) (f : DlvRing → DlvRing) (s : State) : (modRing r f s).th = s.th := rfl
@[simp] theorem modRing_set (r : Nat) (f : DlvRing → DlvRing) (s : State) : (modRing r f s).set = s.set := rfl
@[simp] theorem modRing_pcie (r : Nat) (f : DlvRing → DlvRing) (s : State) : (modRing r f s).pcie = s.pcie := rfl
@[simp] theorem modRing_hod (r : Nat) (f : DlvRing → DlvRing) (s : State) : (modRing r f s).hod = s.hod := rfl
@[simp] theorem modRing_mbx (r : Nat) (f : DlvRing → DlvRing) (s : State) : (modRing r f s).mbx = s.mbx := rfl
@[simp] theorem modRing_log (r : Nat) (f : DlvRing → DlvRing) (s : State) : (modRing r f s).log = s.log := rfl
@[simp] theorem modRing_nv (r : Nat) (f : DlvRing → DlvRing) (s : State) : (modRing r f s).nv = s.nv := rfl
@[simp] theorem modRing_power (r : Nat) (f : DlvRing → DlvRing) (s : State) : (modRing r f s).power = s.power := rfl
@[simp] theorem modRing_free (r : Nat) (f : DlvRing → DlvRing) (s : State) : (modRing r f s).free = s.free := rfl
@[simp] theorem modRing_out (r : Nat) (f : DlvRing → DlvRing) (s : State) : (modRing r f s).out = s.out := rfl
@[simp] theorem modRing_pending (r : Nat) (f : DlvRing → DlvRing) (s : State) : (modRing r f s).pending = s.pending := rfl

@[simp] theorem modPlane_angle (k : Nat) (f : Plane → Plane) (s : State) : (modPlane k f s).angle = s.angle := rfl
@[simp] theorem modPlane_time (k : Nat) (f : Plane → Plane) (s : State) : (modPlane k f s).time = s.time := rfl
@[simp] theorem modPlane_loop (k : Nat) (f : Plane → Plane) (s : State) : (modPlane k f s).loop = s.loop := rfl
@[simp] theorem modPlane_shot (k : Nat) (f : Plane → Plane) (s : State) : (modPlane k f s).shot = s.shot := rfl
@[simp] theorem modPlane_recv (k : Nat) (f : Plane → Plane) (s : State) : (modPlane k f s).recv = s.recv := rfl
@[simp] theorem modPlane_eng (k : Nat) (f : Plane → Plane) (s : State) : (modPlane k f s).eng = s.eng := rfl
@[simp] theorem modPlane_dlv (k : Nat) (f : Plane → Plane) (s : State) : (modPlane k f s).dlv = { s.dlv with planes := tabMod {} s.dlv.planes k f } := rfl
@[simp] theorem modPlane_es (k : Nat) (f : Plane → Plane) (s : State) : (modPlane k f s).es = s.es := rfl
@[simp] theorem modPlane_capt (k : Nat) (f : Plane → Plane) (s : State) : (modPlane k f s).capt = s.capt := rfl
@[simp] theorem modPlane_ring (k : Nat) (f : Plane → Plane) (s : State) : (modPlane k f s).ring = s.ring := rfl
@[simp] theorem modPlane_lanes (k : Nat) (f : Plane → Plane) (s : State) : (modPlane k f s).lanes = s.lanes := rfl
@[simp] theorem modPlane_mem (k : Nat) (f : Plane → Plane) (s : State) : (modPlane k f s).mem = s.mem := rfl
@[simp] theorem modPlane_hk (k : Nat) (f : Plane → Plane) (s : State) : (modPlane k f s).hk = s.hk := rfl
@[simp] theorem modPlane_th (k : Nat) (f : Plane → Plane) (s : State) : (modPlane k f s).th = s.th := rfl
@[simp] theorem modPlane_set (k : Nat) (f : Plane → Plane) (s : State) : (modPlane k f s).set = s.set := rfl
@[simp] theorem modPlane_pcie (k : Nat) (f : Plane → Plane) (s : State) : (modPlane k f s).pcie = s.pcie := rfl
@[simp] theorem modPlane_hod (k : Nat) (f : Plane → Plane) (s : State) : (modPlane k f s).hod = s.hod := rfl
@[simp] theorem modPlane_mbx (k : Nat) (f : Plane → Plane) (s : State) : (modPlane k f s).mbx = s.mbx := rfl
@[simp] theorem modPlane_log (k : Nat) (f : Plane → Plane) (s : State) : (modPlane k f s).log = s.log := rfl
@[simp] theorem modPlane_nv (k : Nat) (f : Plane → Plane) (s : State) : (modPlane k f s).nv = s.nv := rfl
@[simp] theorem modPlane_power (k : Nat) (f : Plane → Plane) (s : State) : (modPlane k f s).power = s.power := rfl
@[simp] theorem modPlane_free (k : Nat) (f : Plane → Plane) (s : State) : (modPlane k f s).free = s.free := rfl
@[simp] theorem modPlane_out (k : Nat) (f : Plane → Plane) (s : State) : (modPlane k f s).out = s.out := rfl
@[simp] theorem modPlane_pending (k : Nat) (f : Plane → Plane) (s : State) : (modPlane k f s).pending = s.pending := rfl

@[simp] theorem modHod_angle (k : Nat) (f : HodChannel → HodChannel) (s : State) : (modHod k f s).angle = s.angle := rfl
@[simp] theorem modHod_time (k : Nat) (f : HodChannel → HodChannel) (s : State) : (modHod k f s).time = s.time := rfl
@[simp] theorem modHod_loop (k : Nat) (f : HodChannel → HodChannel) (s : State) : (modHod k f s).loop = s.loop := rfl
@[simp] theorem modHod_shot (k : Nat) (f : HodChannel → HodChannel) (s : State) : (modHod k f s).shot = s.shot := rfl
@[simp] theorem modHod_recv (k : Nat) (f : HodChannel → HodChannel) (s : State) : (modHod k f s).recv = s.recv := rfl
@[simp] theorem modHod_eng (k : Nat) (f : HodChannel → HodChannel) (s : State) : (modHod k f s).eng = s.eng := rfl
@[simp] theorem modHod_dlv (k : Nat) (f : HodChannel → HodChannel) (s : State) : (modHod k f s).dlv = s.dlv := rfl
@[simp] theorem modHod_es (k : Nat) (f : HodChannel → HodChannel) (s : State) : (modHod k f s).es = s.es := rfl
@[simp] theorem modHod_capt (k : Nat) (f : HodChannel → HodChannel) (s : State) : (modHod k f s).capt = s.capt := rfl
@[simp] theorem modHod_ring (k : Nat) (f : HodChannel → HodChannel) (s : State) : (modHod k f s).ring = s.ring := rfl
@[simp] theorem modHod_lanes (k : Nat) (f : HodChannel → HodChannel) (s : State) : (modHod k f s).lanes = s.lanes := rfl
@[simp] theorem modHod_mem (k : Nat) (f : HodChannel → HodChannel) (s : State) : (modHod k f s).mem = s.mem := rfl
@[simp] theorem modHod_hk (k : Nat) (f : HodChannel → HodChannel) (s : State) : (modHod k f s).hk = s.hk := rfl
@[simp] theorem modHod_th (k : Nat) (f : HodChannel → HodChannel) (s : State) : (modHod k f s).th = s.th := rfl
@[simp] theorem modHod_set (k : Nat) (f : HodChannel → HodChannel) (s : State) : (modHod k f s).set = s.set := rfl
@[simp] theorem modHod_pcie (k : Nat) (f : HodChannel → HodChannel) (s : State) : (modHod k f s).pcie = s.pcie := rfl
@[simp] theorem modHod_hod (k : Nat) (f : HodChannel → HodChannel) (s : State) : (modHod k f s).hod = tabMod {} s.hod k f := rfl
@[simp] theorem modHod_mbx (k : Nat) (f : HodChannel → HodChannel) (s : State) : (modHod k f s).mbx = s.mbx := rfl
@[simp] theorem modHod_log (k : Nat) (f : HodChannel → HodChannel) (s : State) : (modHod k f s).log = s.log := rfl
@[simp] theorem modHod_nv (k : Nat) (f : HodChannel → HodChannel) (s : State) : (modHod k f s).nv = s.nv := rfl
@[simp] theorem modHod_power (k : Nat) (f : HodChannel → HodChannel) (s : State) : (modHod k f s).power = s.power := rfl
@[simp] theorem modHod_free (k : Nat) (f : HodChannel → HodChannel) (s : State) : (modHod k f s).free = s.free := rfl
@[simp] theorem modHod_out (k : Nat) (f : HodChannel → HodChannel) (s : State) : (modHod k f s).out = s.out := rfl
@[simp] theorem modHod_pending (k : Nat) (f : HodChannel → HodChannel) (s : State) : (modHod k f s).pending = s.pending := rfl

@[simp] theorem modBox_angle (m : Nat) (f : Mailbox → Mailbox) (s : State) : (modBox m f s).angle = s.angle := rfl
@[simp] theorem modBox_time (m : Nat) (f : Mailbox → Mailbox) (s : State) : (modBox m f s).time = s.time := rfl
@[simp] theorem modBox_loop (m : Nat) (f : Mailbox → Mailbox) (s : State) : (modBox m f s).loop = s.loop := rfl
@[simp] theorem modBox_shot (m : Nat) (f : Mailbox → Mailbox) (s : State) : (modBox m f s).shot = s.shot := rfl
@[simp] theorem modBox_recv (m : Nat) (f : Mailbox → Mailbox) (s : State) : (modBox m f s).recv = s.recv := rfl
@[simp] theorem modBox_eng (m : Nat) (f : Mailbox → Mailbox) (s : State) : (modBox m f s).eng = s.eng := rfl
@[simp] theorem modBox_dlv (m : Nat) (f : Mailbox → Mailbox) (s : State) : (modBox m f s).dlv = s.dlv := rfl
@[simp] theorem modBox_es (m : Nat) (f : Mailbox → Mailbox) (s : State) : (modBox m f s).es = s.es := rfl
@[simp] theorem modBox_capt (m : Nat) (f : Mailbox → Mailbox) (s : State) : (modBox m f s).capt = s.capt := rfl
@[simp] theorem modBox_ring (m : Nat) (f : Mailbox → Mailbox) (s : State) : (modBox m f s).ring = s.ring := rfl
@[simp] theorem modBox_lanes (m : Nat) (f : Mailbox → Mailbox) (s : State) : (modBox m f s).lanes = s.lanes := rfl
@[simp] theorem modBox_mem (m : Nat) (f : Mailbox → Mailbox) (s : State) : (modBox m f s).mem = s.mem := rfl
@[simp] theorem modBox_hk (m : Nat) (f : Mailbox → Mailbox) (s : State) : (modBox m f s).hk = s.hk := rfl
@[simp] theorem modBox_th (m : Nat) (f : Mailbox → Mailbox) (s : State) : (modBox m f s).th = s.th := rfl
@[simp] theorem modBox_set (m : Nat) (f : Mailbox → Mailbox) (s : State) : (modBox m f s).set = s.set := rfl
@[simp] theorem modBox_pcie (m : Nat) (f : Mailbox → Mailbox) (s : State) : (modBox m f s).pcie = s.pcie := rfl
@[simp] theorem modBox_hod (m : Nat) (f : Mailbox → Mailbox) (s : State) : (modBox m f s).hod = s.hod := rfl
@[simp] theorem modBox_mbx (m : Nat) (f : Mailbox → Mailbox) (s : State) : (modBox m f s).mbx = { s.mbx with boxes := tabMod {} s.mbx.boxes m f } := rfl
@[simp] theorem modBox_log (m : Nat) (f : Mailbox → Mailbox) (s : State) : (modBox m f s).log = s.log := rfl
@[simp] theorem modBox_nv (m : Nat) (f : Mailbox → Mailbox) (s : State) : (modBox m f s).nv = s.nv := rfl
@[simp] theorem modBox_power (m : Nat) (f : Mailbox → Mailbox) (s : State) : (modBox m f s).power = s.power := rfl
@[simp] theorem modBox_free (m : Nat) (f : Mailbox → Mailbox) (s : State) : (modBox m f s).free = s.free := rfl
@[simp] theorem modBox_out (m : Nat) (f : Mailbox → Mailbox) (s : State) : (modBox m f s).out = s.out := rfl
@[simp] theorem modBox_pending (m : Nat) (f : Mailbox → Mailbox) (s : State) : (modBox m f s).pending = s.pending := rfl

@[simp] theorem modCapt_angle (u : Nat) (f : CaptUnit → CaptUnit) (s : State) : (modCapt u f s).angle = s.angle := rfl
@[simp] theorem modCapt_time (u : Nat) (f : CaptUnit → CaptUnit) (s : State) : (modCapt u f s).time = s.time := rfl
@[simp] theorem modCapt_loop (u : Nat) (f : CaptUnit → CaptUnit) (s : State) : (modCapt u f s).loop = s.loop := rfl
@[simp] theorem modCapt_shot (u : Nat) (f : CaptUnit → CaptUnit) (s : State) : (modCapt u f s).shot = s.shot := rfl
@[simp] theorem modCapt_recv (u : Nat) (f : CaptUnit → CaptUnit) (s : State) : (modCapt u f s).recv = s.recv := rfl
@[simp] theorem modCapt_eng (u : Nat) (f : CaptUnit → CaptUnit) (s : State) : (modCapt u f s).eng = s.eng := rfl
@[simp] theorem modCapt_dlv (u : Nat) (f : CaptUnit → CaptUnit) (s : State) : (modCapt u f s).dlv = s.dlv := rfl
@[simp] theorem modCapt_es (u : Nat) (f : CaptUnit → CaptUnit) (s : State) : (modCapt u f s).es = s.es := rfl
@[simp] theorem modCapt_capt (u : Nat) (f : CaptUnit → CaptUnit) (s : State) : (modCapt u f s).capt = tabMod {} s.capt u f := rfl
@[simp] theorem modCapt_ring (u : Nat) (f : CaptUnit → CaptUnit) (s : State) : (modCapt u f s).ring = s.ring := rfl
@[simp] theorem modCapt_lanes (u : Nat) (f : CaptUnit → CaptUnit) (s : State) : (modCapt u f s).lanes = s.lanes := rfl
@[simp] theorem modCapt_mem (u : Nat) (f : CaptUnit → CaptUnit) (s : State) : (modCapt u f s).mem = s.mem := rfl
@[simp] theorem modCapt_hk (u : Nat) (f : CaptUnit → CaptUnit) (s : State) : (modCapt u f s).hk = s.hk := rfl
@[simp] theorem modCapt_th (u : Nat) (f : CaptUnit → CaptUnit) (s : State) : (modCapt u f s).th = s.th := rfl
@[simp] theorem modCapt_set (u : Nat) (f : CaptUnit → CaptUnit) (s : State) : (modCapt u f s).set = s.set := rfl
@[simp] theorem modCapt_pcie (u : Nat) (f : CaptUnit → CaptUnit) (s : State) : (modCapt u f s).pcie = s.pcie := rfl
@[simp] theorem modCapt_hod (u : Nat) (f : CaptUnit → CaptUnit) (s : State) : (modCapt u f s).hod = s.hod := rfl
@[simp] theorem modCapt_mbx (u : Nat) (f : CaptUnit → CaptUnit) (s : State) : (modCapt u f s).mbx = s.mbx := rfl
@[simp] theorem modCapt_log (u : Nat) (f : CaptUnit → CaptUnit) (s : State) : (modCapt u f s).log = s.log := rfl
@[simp] theorem modCapt_nv (u : Nat) (f : CaptUnit → CaptUnit) (s : State) : (modCapt u f s).nv = s.nv := rfl
@[simp] theorem modCapt_power (u : Nat) (f : CaptUnit → CaptUnit) (s : State) : (modCapt u f s).power = s.power := rfl
@[simp] theorem modCapt_free (u : Nat) (f : CaptUnit → CaptUnit) (s : State) : (modCapt u f s).free = s.free := rfl
@[simp] theorem modCapt_out (u : Nat) (f : CaptUnit → CaptUnit) (s : State) : (modCapt u f s).out = s.out := rfl
@[simp] theorem modCapt_pending (u : Nat) (f : CaptUnit → CaptUnit) (s : State) : (modCapt u f s).pending = s.pending := rfl

@[simp] theorem modHk_angle (i : Nat) (f : HkChannel → HkChannel) (s : State) : (modHk i f s).angle = s.angle := rfl
@[simp] theorem modHk_time (i : Nat) (f : HkChannel → HkChannel) (s : State) : (modHk i f s).time = s.time := rfl
@[simp] theorem modHk_loop (i : Nat) (f : HkChannel → HkChannel) (s : State) : (modHk i f s).loop = s.loop := rfl
@[simp] theorem modHk_shot (i : Nat) (f : HkChannel → HkChannel) (s : State) : (modHk i f s).shot = s.shot := rfl
@[simp] theorem modHk_recv (i : Nat) (f : HkChannel → HkChannel) (s : State) : (modHk i f s).recv = s.recv := rfl
@[simp] theorem modHk_eng (i : Nat) (f : HkChannel → HkChannel) (s : State) : (modHk i f s).eng = s.eng := rfl
@[simp] theorem modHk_dlv (i : Nat) (f : HkChannel → HkChannel) (s : State) : (modHk i f s).dlv = s.dlv := rfl
@[simp] theorem modHk_es (i : Nat) (f : HkChannel → HkChannel) (s : State) : (modHk i f s).es = s.es := rfl
@[simp] theorem modHk_capt (i : Nat) (f : HkChannel → HkChannel) (s : State) : (modHk i f s).capt = s.capt := rfl
@[simp] theorem modHk_ring (i : Nat) (f : HkChannel → HkChannel) (s : State) : (modHk i f s).ring = s.ring := rfl
@[simp] theorem modHk_lanes (i : Nat) (f : HkChannel → HkChannel) (s : State) : (modHk i f s).lanes = s.lanes := rfl
@[simp] theorem modHk_mem (i : Nat) (f : HkChannel → HkChannel) (s : State) : (modHk i f s).mem = s.mem := rfl
@[simp] theorem modHk_hk (i : Nat) (f : HkChannel → HkChannel) (s : State) : (modHk i f s).hk = { s.hk with chans := tabMod {} s.hk.chans i f } := rfl
@[simp] theorem modHk_th (i : Nat) (f : HkChannel → HkChannel) (s : State) : (modHk i f s).th = s.th := rfl
@[simp] theorem modHk_set (i : Nat) (f : HkChannel → HkChannel) (s : State) : (modHk i f s).set = s.set := rfl
@[simp] theorem modHk_pcie (i : Nat) (f : HkChannel → HkChannel) (s : State) : (modHk i f s).pcie = s.pcie := rfl
@[simp] theorem modHk_hod (i : Nat) (f : HkChannel → HkChannel) (s : State) : (modHk i f s).hod = s.hod := rfl
@[simp] theorem modHk_mbx (i : Nat) (f : HkChannel → HkChannel) (s : State) : (modHk i f s).mbx = s.mbx := rfl
@[simp] theorem modHk_log (i : Nat) (f : HkChannel → HkChannel) (s : State) : (modHk i f s).log = s.log := rfl
@[simp] theorem modHk_nv (i : Nat) (f : HkChannel → HkChannel) (s : State) : (modHk i f s).nv = s.nv := rfl
@[simp] theorem modHk_power (i : Nat) (f : HkChannel → HkChannel) (s : State) : (modHk i f s).power = s.power := rfl
@[simp] theorem modHk_free (i : Nat) (f : HkChannel → HkChannel) (s : State) : (modHk i f s).free = s.free := rfl
@[simp] theorem modHk_out (i : Nat) (f : HkChannel → HkChannel) (s : State) : (modHk i f s).out = s.out := rfl
@[simp] theorem modHk_pending (i : Nat) (f : HkChannel → HkChannel) (s : State) : (modHk i f s).pending = s.pending := rfl

@[simp] theorem modSensor_angle (i : Nat) (f : ThSensor → ThSensor) (s : State) : (modSensor i f s).angle = s.angle := rfl
@[simp] theorem modSensor_time (i : Nat) (f : ThSensor → ThSensor) (s : State) : (modSensor i f s).time = s.time := rfl
@[simp] theorem modSensor_loop (i : Nat) (f : ThSensor → ThSensor) (s : State) : (modSensor i f s).loop = s.loop := rfl
@[simp] theorem modSensor_shot (i : Nat) (f : ThSensor → ThSensor) (s : State) : (modSensor i f s).shot = s.shot := rfl
@[simp] theorem modSensor_recv (i : Nat) (f : ThSensor → ThSensor) (s : State) : (modSensor i f s).recv = s.recv := rfl
@[simp] theorem modSensor_eng (i : Nat) (f : ThSensor → ThSensor) (s : State) : (modSensor i f s).eng = s.eng := rfl
@[simp] theorem modSensor_dlv (i : Nat) (f : ThSensor → ThSensor) (s : State) : (modSensor i f s).dlv = s.dlv := rfl
@[simp] theorem modSensor_es (i : Nat) (f : ThSensor → ThSensor) (s : State) : (modSensor i f s).es = s.es := rfl
@[simp] theorem modSensor_capt (i : Nat) (f : ThSensor → ThSensor) (s : State) : (modSensor i f s).capt = s.capt := rfl
@[simp] theorem modSensor_ring (i : Nat) (f : ThSensor → ThSensor) (s : State) : (modSensor i f s).ring = s.ring := rfl
@[simp] theorem modSensor_lanes (i : Nat) (f : ThSensor → ThSensor) (s : State) : (modSensor i f s).lanes = s.lanes := rfl
@[simp] theorem modSensor_mem (i : Nat) (f : ThSensor → ThSensor) (s : State) : (modSensor i f s).mem = s.mem := rfl
@[simp] theorem modSensor_hk (i : Nat) (f : ThSensor → ThSensor) (s : State) : (modSensor i f s).hk = s.hk := rfl
@[simp] theorem modSensor_th (i : Nat) (f : ThSensor → ThSensor) (s : State) : (modSensor i f s).th = { s.th with sensors := tabMod {} s.th.sensors i f } := rfl
@[simp] theorem modSensor_set (i : Nat) (f : ThSensor → ThSensor) (s : State) : (modSensor i f s).set = s.set := rfl
@[simp] theorem modSensor_pcie (i : Nat) (f : ThSensor → ThSensor) (s : State) : (modSensor i f s).pcie = s.pcie := rfl
@[simp] theorem modSensor_hod (i : Nat) (f : ThSensor → ThSensor) (s : State) : (modSensor i f s).hod = s.hod := rfl
@[simp] theorem modSensor_mbx (i : Nat) (f : ThSensor → ThSensor) (s : State) : (modSensor i f s).mbx = s.mbx := rfl
@[simp] theorem modSensor_log (i : Nat) (f : ThSensor → ThSensor) (s : State) : (modSensor i f s).log = s.log := rfl
@[simp] theorem modSensor_nv (i : Nat) (f : ThSensor → ThSensor) (s : State) : (modSensor i f s).nv = s.nv := rfl
@[simp] theorem modSensor_power (i : Nat) (f : ThSensor → ThSensor) (s : State) : (modSensor i f s).power = s.power := rfl
@[simp] theorem modSensor_free (i : Nat) (f : ThSensor → ThSensor) (s : State) : (modSensor i f s).free = s.free := rfl
@[simp] theorem modSensor_out (i : Nat) (f : ThSensor → ThSensor) (s : State) : (modSensor i f s).out = s.out := rfl
@[simp] theorem modSensor_pending (i : Nat) (f : ThSensor → ThSensor) (s : State) : (modSensor i f s).pending = s.pending := rfl

@[simp] theorem modLane_angle (i : Nat) (f : Lane → Lane) (s : State) : (modLane i f s).angle = s.angle := rfl
@[simp] theorem modLane_time (i : Nat) (f : Lane → Lane) (s : State) : (modLane i f s).time = s.time := rfl
@[simp] theorem modLane_loop (i : Nat) (f : Lane → Lane) (s : State) : (modLane i f s).loop = s.loop := rfl
@[simp] theorem modLane_shot (i : Nat) (f : Lane → Lane) (s : State) : (modLane i f s).shot = s.shot := rfl
@[simp] theorem modLane_recv (i : Nat) (f : Lane → Lane) (s : State) : (modLane i f s).recv = s.recv := rfl
@[simp] theorem modLane_eng (i : Nat) (f : Lane → Lane) (s : State) : (modLane i f s).eng = s.eng := rfl
@[simp] theorem modLane_dlv (i : Nat) (f : Lane → Lane) (s : State) : (modLane i f s).dlv = s.dlv := rfl
@[simp] theorem modLane_es (i : Nat) (f : Lane → Lane) (s : State) : (modLane i f s).es = s.es := rfl
@[simp] theorem modLane_capt (i : Nat) (f : Lane → Lane) (s : State) : (modLane i f s).capt = s.capt := rfl
@[simp] theorem modLane_ring (i : Nat) (f : Lane → Lane) (s : State) : (modLane i f s).ring = s.ring := rfl
@[simp] theorem modLane_lanes (i : Nat) (f : Lane → Lane) (s : State) : (modLane i f s).lanes = lanesWith i f (now s) s.lanes := rfl
@[simp] theorem modLane_mem (i : Nat) (f : Lane → Lane) (s : State) : (modLane i f s).mem = s.mem := rfl
@[simp] theorem modLane_hk (i : Nat) (f : Lane → Lane) (s : State) : (modLane i f s).hk = s.hk := rfl
@[simp] theorem modLane_th (i : Nat) (f : Lane → Lane) (s : State) : (modLane i f s).th = s.th := rfl
@[simp] theorem modLane_set (i : Nat) (f : Lane → Lane) (s : State) : (modLane i f s).set = s.set := rfl
@[simp] theorem modLane_pcie (i : Nat) (f : Lane → Lane) (s : State) : (modLane i f s).pcie = s.pcie := rfl
@[simp] theorem modLane_hod (i : Nat) (f : Lane → Lane) (s : State) : (modLane i f s).hod = s.hod := rfl
@[simp] theorem modLane_mbx (i : Nat) (f : Lane → Lane) (s : State) : (modLane i f s).mbx = s.mbx := rfl
@[simp] theorem modLane_log (i : Nat) (f : Lane → Lane) (s : State) : (modLane i f s).log = s.log := rfl
@[simp] theorem modLane_nv (i : Nat) (f : Lane → Lane) (s : State) : (modLane i f s).nv = s.nv := rfl
@[simp] theorem modLane_power (i : Nat) (f : Lane → Lane) (s : State) : (modLane i f s).power = s.power := rfl
@[simp] theorem modLane_free (i : Nat) (f : Lane → Lane) (s : State) : (modLane i f s).free = s.free := rfl
@[simp] theorem modLane_out (i : Nat) (f : Lane → Lane) (s : State) : (modLane i f s).out = s.out := rfl
@[simp] theorem modLane_pending (i : Nat) (f : Lane → Lane) (s : State) : (modLane i f s).pending = s.pending := rfl

@[simp] theorem modPort_angle (p : Port) (f : RingPort → RingPort) (s : State) : (modPort p f s).angle = s.angle := rfl
@[simp] theorem modPort_time (p : Port) (f : RingPort → RingPort) (s : State) : (modPort p f s).time = s.time := rfl
@[simp] theorem modPort_loop (p : Port) (f : RingPort → RingPort) (s : State) : (modPort p f s).loop = s.loop := rfl
@[simp] theorem modPort_shot (p : Port) (f : RingPort → RingPort) (s : State) : (modPort p f s).shot = s.shot := rfl
@[simp] theorem modPort_recv (p : Port) (f : RingPort → RingPort) (s : State) : (modPort p f s).recv = s.recv := rfl
@[simp] theorem modPort_eng (p : Port) (f : RingPort → RingPort) (s : State) : (modPort p f s).eng = s.eng := rfl
@[simp] theorem modPort_dlv (p : Port) (f : RingPort → RingPort) (s : State) : (modPort p f s).dlv = s.dlv := rfl
@[simp] theorem modPort_es (p : Port) (f : RingPort → RingPort) (s : State) : (modPort p f s).es = s.es := rfl
@[simp] theorem modPort_capt (p : Port) (f : RingPort → RingPort) (s : State) : (modPort p f s).capt = s.capt := rfl
@[simp] theorem modPort_ring (p : Port) (f : RingPort → RingPort) (s : State) : (modPort p f s).ring = { s.ring with ports := tabMod {} s.ring.ports (portIx p) f } := rfl
@[simp] theorem modPort_lanes (p : Port) (f : RingPort → RingPort) (s : State) : (modPort p f s).lanes = s.lanes := rfl
@[simp] theorem modPort_mem (p : Port) (f : RingPort → RingPort) (s : State) : (modPort p f s).mem = s.mem := rfl
@[simp] theorem modPort_hk (p : Port) (f : RingPort → RingPort) (s : State) : (modPort p f s).hk = s.hk := rfl
@[simp] theorem modPort_th (p : Port) (f : RingPort → RingPort) (s : State) : (modPort p f s).th = s.th := rfl
@[simp] theorem modPort_set (p : Port) (f : RingPort → RingPort) (s : State) : (modPort p f s).set = s.set := rfl
@[simp] theorem modPort_pcie (p : Port) (f : RingPort → RingPort) (s : State) : (modPort p f s).pcie = s.pcie := rfl
@[simp] theorem modPort_hod (p : Port) (f : RingPort → RingPort) (s : State) : (modPort p f s).hod = s.hod := rfl
@[simp] theorem modPort_mbx (p : Port) (f : RingPort → RingPort) (s : State) : (modPort p f s).mbx = s.mbx := rfl
@[simp] theorem modPort_log (p : Port) (f : RingPort → RingPort) (s : State) : (modPort p f s).log = s.log := rfl
@[simp] theorem modPort_nv (p : Port) (f : RingPort → RingPort) (s : State) : (modPort p f s).nv = s.nv := rfl
@[simp] theorem modPort_power (p : Port) (f : RingPort → RingPort) (s : State) : (modPort p f s).power = s.power := rfl
@[simp] theorem modPort_free (p : Port) (f : RingPort → RingPort) (s : State) : (modPort p f s).free = s.free := rfl
@[simp] theorem modPort_out (p : Port) (f : RingPort → RingPort) (s : State) : (modPort p f s).out = s.out := rfl
@[simp] theorem modPort_pending (p : Port) (f : RingPort → RingPort) (s : State) : (modPort p f s).pending = s.pending := rfl

@[simp] theorem modChain_angle (i : Nat) (f : Chain → Chain) (s : State) : (modChain i f s).angle = s.angle := rfl
@[simp] theorem modChain_time (i : Nat) (f : Chain → Chain) (s : State) : (modChain i f s).time = s.time := rfl
@[simp] theorem modChain_loop (i : Nat) (f : Chain → Chain) (s : State) : (modChain i f s).loop = { s.loop with chains := tabMod {} s.loop.chains i f } := rfl
@[simp] theorem modChain_shot (i : Nat) (f : Chain → Chain) (s : State) : (modChain i f s).shot = s.shot := rfl
@[simp] theorem modChain_recv (i : Nat) (f : Chain → Chain) (s : State) : (modChain i f s).recv = s.recv := rfl
@[simp] theorem modChain_eng (i : Nat) (f : Chain → Chain) (s : State) : (modChain i f s).eng = s.eng := rfl
@[simp] theorem modChain_dlv (i : Nat) (f : Chain → Chain) (s : State) : (modChain i f s).dlv = s.dlv := rfl
@[simp] theorem modChain_es (i : Nat) (f : Chain → Chain) (s : State) : (modChain i f s).es = s.es := rfl
@[simp] theorem modChain_capt (i : Nat) (f : Chain → Chain) (s : State) : (modChain i f s).capt = s.capt := rfl
@[simp] theorem modChain_ring (i : Nat) (f : Chain → Chain) (s : State) : (modChain i f s).ring = s.ring := rfl
@[simp] theorem modChain_lanes (i : Nat) (f : Chain → Chain) (s : State) : (modChain i f s).lanes = s.lanes := rfl
@[simp] theorem modChain_mem (i : Nat) (f : Chain → Chain) (s : State) : (modChain i f s).mem = s.mem := rfl
@[simp] theorem modChain_hk (i : Nat) (f : Chain → Chain) (s : State) : (modChain i f s).hk = s.hk := rfl
@[simp] theorem modChain_th (i : Nat) (f : Chain → Chain) (s : State) : (modChain i f s).th = s.th := rfl
@[simp] theorem modChain_set (i : Nat) (f : Chain → Chain) (s : State) : (modChain i f s).set = s.set := rfl
@[simp] theorem modChain_pcie (i : Nat) (f : Chain → Chain) (s : State) : (modChain i f s).pcie = s.pcie := rfl
@[simp] theorem modChain_hod (i : Nat) (f : Chain → Chain) (s : State) : (modChain i f s).hod = s.hod := rfl
@[simp] theorem modChain_mbx (i : Nat) (f : Chain → Chain) (s : State) : (modChain i f s).mbx = s.mbx := rfl
@[simp] theorem modChain_log (i : Nat) (f : Chain → Chain) (s : State) : (modChain i f s).log = s.log := rfl
@[simp] theorem modChain_nv (i : Nat) (f : Chain → Chain) (s : State) : (modChain i f s).nv = s.nv := rfl
@[simp] theorem modChain_power (i : Nat) (f : Chain → Chain) (s : State) : (modChain i f s).power = s.power := rfl
@[simp] theorem modChain_free (i : Nat) (f : Chain → Chain) (s : State) : (modChain i f s).free = s.free := rfl
@[simp] theorem modChain_out (i : Nat) (f : Chain → Chain) (s : State) : (modChain i f s).out = s.out := rfl
@[simp] theorem modChain_pending (i : Nat) (f : Chain → Chain) (s : State) : (modChain i f s).pending = s.pending := rfl

@[simp] theorem drawFree_angle (s : State) : (drawFree s).2.angle = s.angle := rfl
@[simp] theorem drawFree_time (s : State) : (drawFree s).2.time = s.time := rfl
@[simp] theorem drawFree_loop (s : State) : (drawFree s).2.loop = s.loop := rfl
@[simp] theorem drawFree_shot (s : State) : (drawFree s).2.shot = s.shot := rfl
@[simp] theorem drawFree_recv (s : State) : (drawFree s).2.recv = s.recv := rfl
@[simp] theorem drawFree_eng (s : State) : (drawFree s).2.eng = s.eng := rfl
@[simp] theorem drawFree_dlv (s : State) : (drawFree s).2.dlv = s.dlv := rfl
@[simp] theorem drawFree_es (s : State) : (drawFree s).2.es = s.es := rfl
@[simp] theorem drawFree_capt (s : State) : (drawFree s).2.capt = s.capt := rfl
@[simp] theorem drawFree_ring (s : State) : (drawFree s).2.ring = s.ring := rfl
@[simp] theorem drawFree_lanes (s : State) : (drawFree s).2.lanes = s.lanes := rfl
@[simp] theorem drawFree_mem (s : State) : (drawFree s).2.mem = s.mem := rfl
@[simp] theorem drawFree_hk (s : State) : (drawFree s).2.hk = s.hk := rfl
@[simp] theorem drawFree_th (s : State) : (drawFree s).2.th = s.th := rfl
@[simp] theorem drawFree_set (s : State) : (drawFree s).2.set = s.set := rfl
@[simp] theorem drawFree_pcie (s : State) : (drawFree s).2.pcie = s.pcie := rfl
@[simp] theorem drawFree_hod (s : State) : (drawFree s).2.hod = s.hod := rfl
@[simp] theorem drawFree_mbx (s : State) : (drawFree s).2.mbx = s.mbx := rfl
@[simp] theorem drawFree_log (s : State) : (drawFree s).2.log = s.log := rfl
@[simp] theorem drawFree_nv (s : State) : (drawFree s).2.nv = s.nv := rfl
@[simp] theorem drawFree_power (s : State) : (drawFree s).2.power = s.power := rfl
@[simp] theorem drawFree_free (s : State) : (drawFree s).2.free = s.free + 1 := rfl
@[simp] theorem drawFree_out (s : State) : (drawFree s).2.out = s.out := rfl
@[simp] theorem drawFree_pending (s : State) : (drawFree s).2.pending = s.pending := rfl
@[simp] theorem drawFree_number (s : State) : (drawFree s).1 = s.free := rfl

end Sys2Proof.Machine
end

