-- ==== Sys2Proof/Laws/Tab.lean ====
section
/-! SUPPORT. Laws of sparse tables: reading after writing, and every write keeps the canonical form. -/

namespace Sys2Proof.Machine

/-! One proof at a time: proofs that wait on one another each hold a thread of their own. -/
set_option Elab.async false

open Sys2Proof

variable {α : Type}

/-- The bound may be lowered. -/
theorem tabRising_weaken {m : Tab α} {lo hi : Nat} (h : lo ≤ hi) (r : tabRising (some hi) m = true) :
    tabRising (some lo) m = true := by
  cases m with
  | nil => rfl
  | cons e m =>
    simp only [tabRising, Bool.and_eq_true, decide_eq_true_eq] at r ⊢
    exact ⟨by omega, r.2⟩

/-- A table above a bound rises without one. -/
theorem tabRising_none {m : Tab α} {lo : Nat} (r : tabRising (some lo) m = true) : tabRising none m = true := by
  cases m with
  | nil => rfl
  | cons e m =>
    simp only [tabRising, Bool.and_eq_true] at r ⊢
    exact r.2

theorem tabRising_erase {m : Tab α} {lo : Nat} (k : Nat) (r : tabRising (some lo) m = true) :
    tabRising (some lo) (tabErase m k) = true := by
  induction m generalizing lo with
  | nil => rfl
  | cons e m ih =>
    obtain ⟨i, v⟩ := e
    simp only [tabRising, Bool.and_eq_true, decide_eq_true_eq] at r
    unfold tabErase
    split
    · exact tabRising_weaken (by omega) r.2
    · split
      · simpa [tabRising] using r
      · simpa [tabRising] using ⟨r.1, ih r.2⟩

theorem tabRising_insert {m : Tab α} {lo k : Nat} (x : α) (h : lo < k) (r : tabRising (some lo) m = true) :
    tabRising (some lo) (tabInsert m k x) = true := by
  induction m generalizing lo with
  | nil => simpa [tabRising, tabInsert] using h
  | cons e m ih =>
    obtain ⟨i, v⟩ := e
    simp only [tabRising, Bool.and_eq_true, decide_eq_true_eq] at r
    unfold tabInsert
    split
    · next e => subst e; simpa [tabRising] using r
    · split
      · simpa [tabRising] using ⟨h, by assumption, r.2⟩
      · simpa [tabRising] using ⟨r.1, ih (by omega) r.2⟩

theorem tabRising_erase_none {m : Tab α} (k : Nat) (r : tabRising none m = true) :
    tabRising none (tabErase m k) = true := by
  cases m with
  | nil => rfl
  | cons e m =>
    obtain ⟨i, v⟩ := e
    simp only [tabRising] at r
    unfold tabErase
    split
    · exact tabRising_none r
    · split
      · simpa [tabRising] using r
      · simpa [tabRising] using tabRising_erase k r

theorem tabRising_insert_none {m : Tab α} {k : Nat} (x : α) (r : tabRising none m = true) :
    tabRising none (tabInsert m k x) = true := by
  cases m with
  | nil => rfl
  | cons e m =>
    obtain ⟨i, v⟩ := e
    simp only [tabRising] at r
    unfold tabInsert
    split
    · next e => subst e; simpa [tabRising] using r
    · split
      · simpa [tabRising] using ⟨by assumption, r⟩
      · simpa [tabRising] using tabRising_insert x (by omega) r

theorem mem_tabErase {m : Tab α} {k : Nat} {e : Nat × α} (h : e ∈ tabErase m k) : e ∈ m := by
  induction m with
  | nil => exact h
  | cons x m ih =>
    obtain ⟨i, v⟩ := x
    unfold tabErase at h
    split at h
    · exact List.mem_cons_of_mem _ h
    · split at h
      · exact h
      · cases h with
        | head => exact List.mem_cons_self
        | tail _ h => exact List.mem_cons_of_mem _ (ih h)

theorem mem_tabInsert {m : Tab α} {k : Nat} {x : α} {e : Nat × α} (h : e ∈ tabInsert m k x) :
    e = (k, x) ∨ e ∈ m := by
  induction m with
  | nil => simpa [tabInsert] using h
  | cons y m ih =>
    obtain ⟨i, v⟩ := y
    unfold tabInsert at h
    split at h
    · cases h with
      | head => exact .inl rfl
      | tail _ h => exact .inr (List.mem_cons_of_mem _ h)
    · split at h
      · cases h with
        | head => exact .inl rfl
        | tail _ h => exact .inr h
      · cases h with
        | head => exact .inr List.mem_cons_self
        | tail _ h =>
          cases ih h with
          | inl h => exact .inl h
          | inr h => exact .inr (List.mem_cons_of_mem _ h)

/-- An entry below the first index reads as the default. -/
theorem tabGet_rising {d : α} {m : Tab α} {lo k : Nat} (h : k ≤ lo) (r : tabRising (some lo) m = true) :
    tabGet d m k = d := by
  induction m generalizing lo with
  | nil => rfl
  | cons e m ih =>
    obtain ⟨i, v⟩ := e
    simp only [tabRising, Bool.and_eq_true, decide_eq_true_eq] at r
    unfold tabGet
    split
    · omega
    · exact ih (by omega) r.2

theorem tabGet_insert (d : α) (m : Tab α) (k j : Nat) (x : α) :
    tabGet d (tabInsert m k x) j = if j = k then x else tabGet d m j := by
  induction m with
  | nil => simp only [tabInsert, tabGet, eq_comm]
  | cons e m ih =>
    obtain ⟨i, v⟩ := e
    unfold tabInsert
    by_cases hj : j = k
    · subst hj
      split
      · simp [tabGet]
      · split
        · simp [tabGet]
        · simp [tabGet, *]
    · have hk : ¬ k = j := fun h => hj h.symm
      split
      · next e => subst e; simp [tabGet, hk]
      · split
        · simp [tabGet, hk]
        · simp [tabGet, ih, hj]

theorem tabGet_erase_other (d : α) (m : Tab α) (k j : Nat) (h : j ≠ k) : tabGet d (tabErase m k) j = tabGet d m j := by
  induction m with
  | nil => rfl
  | cons e m ih =>
    obtain ⟨i, v⟩ := e
    unfold tabErase
    split
    · next e => subst e; simp only [tabGet, if_neg (Ne.symm h)]
    · split
      · rfl
      · simp only [tabGet, ih]

theorem tabGet_erase_same {d : α} {m : Tab α} (k : Nat) (r : tabRising none m = true) :
    tabGet d (tabErase m k) k = d := by
  induction m with
  | nil => rfl
  | cons e m ih =>
    obtain ⟨i, v⟩ := e
    simp only [tabRising] at r
    unfold tabErase
    split
    · next e => subst e; exact tabGet_rising (Nat.le_refl _) r
    · split
      · next h =>
        simp only [tabGet]
        rw [if_neg (by omega)]
        exact tabGet_rising (Nat.le_of_lt h) r
      · simp only [tabGet]
        rw [if_neg (by omega)]
        exact ih (tabRising_none r)

variable [DecidableEq α]

theorem mem_tabSet {d : α} {m : Tab α} {k : Nat} {x : α} {e : Nat × α} (h : e ∈ tabSet d m k x) :
    e = (k, x) ∨ e ∈ m := by
  unfold tabSet at h
  split at h
  · exact .inr (mem_tabErase h)
  · exact mem_tabInsert h

/-- Writing keeps the canonical form. -/
theorem tabWf_set {d : α} {m : Tab α} (k : Nat) (x : α) (h : tabWf d m = true) : tabWf d (tabSet d m k x) = true := by
  simp only [tabWf, Bool.and_eq_true, List.all_eq_true, decide_eq_true_eq] at h ⊢
  refine ⟨?_, fun e he => ?_⟩
  · unfold tabSet
    split
    · exact tabRising_erase_none k h.1
    · exact tabRising_insert_none x h.1
  · unfold tabSet at he
    split at he
    · exact h.2 e (mem_tabErase he)
    · next hx =>
      cases mem_tabInsert he with
      | inl e => subst e; exact hx
      | inr e => exact h.2 _ e

/-- Changing an entry keeps the canonical form. -/
theorem tabWf_mod {d : α} {m : Tab α} (k : Nat) (f : α → α) (h : tabWf d m = true) : tabWf d (tabMod d m k f) = true :=
  tabWf_set k _ h

/-- Read after write, at another index. -/
theorem tabGet_set_other (d : α) (m : Tab α) (k j : Nat) (x : α) (h : j ≠ k) :
    tabGet d (tabSet d m k x) j = tabGet d m j := by
  unfold tabSet
  split
  · exact tabGet_erase_other d m k j h
  · rw [tabGet_insert, if_neg h]

/-- Read after write, at the same index. -/
theorem tabGet_set_same {d : α} {m : Tab α} (k : Nat) (x : α) (r : tabRising none m = true) :
    tabGet d (tabSet d m k x) k = x := by
  unfold tabSet
  split
  · next e => rw [tabGet_erase_same k r, e]
  · rw [tabGet_insert, if_pos rfl]

end Sys2Proof.Machine
end

