-- ==== Sys2Proof/Laws/Keeps.lean ====
section
/-! SUPPORT. Laws of `Keeps`: it is reflexive and transitive, a change of other fields has it, and so have repetition and
the operations that draw a free value, emit an output, log an event, raise a source and change stored words. -/

namespace Sys2Proof

/-! One proof at a time: proofs that wait on one another each hold a thread of their own. -/
set_option Elab.async false

open Sys2Proof.Machine

/-- What every operation keeps that neither fires nor grants: all that `Upholds` says, no pulse, and no permission where
there was none. -/
structure Keeps (s t : State) : Prop where
  /-- the queue is untouched -/
  pending : t.pending = s.pending
  /-- free values are drawn, never put back -/
  free : s.free ≤ t.free
  /-- outputs are added, never taken back -/
  out : s.out <:+ t.out
  /-- the invariant stays -/
  inv : Inv s → Inv t
  /-- no pulse leaves -/
  dark : fires t.out = fires s.out
  /-- no permission is granted -/
  denied : s.es.permit = false → t.es.permit = false

theorem Keeps.refl (s : State) : Keeps s s := ⟨rfl, Nat.le_refl _, List.suffix_refl _, id, rfl, id⟩

theorem Keeps.trans {s t u : State} (h : Keeps s t) (k : Keeps t u) : Keeps s u :=
  ⟨k.pending.trans h.pending, Nat.le_trans h.free k.free, h.out.trans k.out, fun i => k.inv (h.inv i),
    k.dark.trans h.dark, fun d => k.denied (h.denied d)⟩

/-- The last operation first. -/
theorem Keeps.after {s t u : State} (k : Keeps t u) (h : Keeps s t) : Keeps s u := h.trans k

theorem Keeps.upholds {s t : State} (h : Keeps s t) : Upholds s t := ⟨h.pending, h.free, h.out, h.inv, fun _ => h.dark⟩

/-- What an operation upholds that may grant and does not fire. -/
structure Calm (s t : State) : Prop extends Upholds s t where
  /-- no pulse leaves -/
  noPulse : fires t.out = fires s.out

/-- What an operation upholds that may fire and does not grant. -/
structure Fires (s t : State) : Prop extends Upholds s t where
  /-- no permission is granted -/
  denied : s.es.permit = false → t.es.permit = false

theorem Keeps.calm {s t : State} (h : Keeps s t) : Calm s t := ⟨h.upholds, h.dark⟩

theorem Keeps.mayFire {s t : State} (h : Keeps s t) : Fires s t := ⟨h.upholds, h.denied⟩

theorem Calm.trans {s t u : State} (h : Calm s t) (k : Calm t u) : Calm s u :=
  ⟨⟨k.pending.trans h.pending, Nat.le_trans h.free k.free, h.out.trans k.out, fun i => k.inv (h.inv i),
    fun _ => k.noPulse.trans h.noPulse⟩, k.noPulse.trans h.noPulse⟩

/-- A quiet operation after one that may fire. -/
theorem Fires.then {s t u : State} (h : Fires s t) (k : Keeps t u) : Fires s u :=
  ⟨⟨k.pending.trans h.pending, Nat.le_trans h.free k.free, h.out.trans k.out, fun i => k.inv (h.inv i),
    fun d => k.dark.trans (h.dark d)⟩, fun d => k.denied (h.denied d)⟩

/-- The gating follows the permit pair where neither changes. -/
theorem gateFollows_congr {s t : State} (hs : t.shot.granted = s.shot.granted) (he : t.es.permit = s.es.permit) :
    gateFollows t = gateFollows s := by
  unfold gateFollows
  rw [hs, he]

/-- A change of fields `Keeps` does not speak of. -/
theorem Keeps.upd {s u : State} {a b c d e f g h i j k l m n o p q r} (x : Keeps s u)
    (hs : d.granted = u.shot.granted := by rfl) (he : h.permit = u.es.permit := by rfl) :
    Keeps s (State.mk a b c d e f g h i j k u.mem l m n u.pcie o p u.log q r u.free u.out u.pending) :=
  ⟨x.pending, x.free, x.out,
    fun y => ⟨(x.inv y).1, (x.inv y).2.1, (x.inv y).2.2.1, (gateFollows_congr hs he).trans (x.inv y).2.2.2⟩,
    x.dark, fun y => he.trans (x.denied y)⟩

/-- The same as a rewriting rule. -/
theorem Keeps.upd_iff {s u : State} {a b c d e f g h i j k l m n o p q r} (hs : d.granted = u.shot.granted)
    (he : h.permit = u.es.permit) :
    Keeps s (State.mk a b c d e f g h i j k u.mem l m n u.pcie o p u.log q r u.free u.out u.pending) ↔ Keeps s u :=
  ⟨fun x => ⟨x.pending, x.free, x.out,
      fun y => ⟨(x.inv y).1, (x.inv y).2.1, (x.inv y).2.2.1, (gateFollows_congr hs he).symm.trans (x.inv y).2.2.2⟩,
      x.dark, fun y => he.symm.trans (x.denied y)⟩,
    fun x => x.upd hs he⟩

/-- The same where the gating closes. -/
theorem Keeps.closed {s u : State} {a b c d e f g h i j k l m n o p q r} (x : Keeps s u)
    (hs : d.granted = false := by rfl) (he : h.permit = u.es.permit := by rfl) :
    Keeps s (State.mk a b c d e f g h i j k u.mem l m n u.pcie o p u.log q r u.free u.out u.pending) :=
  ⟨x.pending, x.free, x.out,
    fun y => ⟨(x.inv y).1, (x.inv y).2.1, (x.inv y).2.2.1, by unfold gateFollows; simp [hs]⟩,
    x.dark, fun y => he.trans (x.denied y)⟩

/-- A change that also writes the memory, the interface or the log keeps everything if it keeps their forms. -/
theorem Keeps.parts {s t : State} (a : t.pending = s.pending) (b : t.free = s.free) (c : t.out = s.out)
    (m : Memory.wf s.mem = true → Memory.wf t.mem = true) (p : Interface.wf s.pcie = true → Interface.wf t.pcie = true)
    (l : LogQueue.wf s.log = true → LogQueue.wf t.log = true)
    (hs : t.shot.granted = s.shot.granted := by rfl) (he : t.es.permit = s.es.permit := by rfl) : Keeps s t :=
  ⟨a, Nat.le_of_eq b.symm, c ▸ List.suffix_refl _,
    fun h => ⟨m h.1, p h.2.1, l h.2.2.1, (gateFollows_congr hs he).trans h.2.2.2⟩, by rw [c], fun d => he.trans d⟩

/-- The outcome of a command keeps what `Keeps` says. -/
def KeepsO (s : State) (o : Host.Outcome State Fault Refusal) : Prop := ∀ t, o = .next t → Keeps s t

theorem KeepsO.next {s t : State} (h : Keeps s t) : KeepsO s (.next t) := fun u e => by
  cases e
  exact h

/-- The outcome of a command that may grant. -/
def CalmO (s : State) (o : Host.Outcome State Fault Refusal) : Prop := ∀ t, o = .next t → Calm s t

theorem CalmO.next {s t : State} (h : Calm s t) : CalmO s (.next t) := fun u e => by
  cases e
  exact h

/-- The outcome of a command that may fire. -/
def FiresO (s : State) (o : Host.Outcome State Fault Refusal) : Prop := ∀ t, o = .next t → Fires s t

theorem FiresO.next {s t : State} (h : Fires s t) : FiresO s (.next t) := fun u e => by
  cases e
  exact h

/-- Both branches. -/
theorem Keeps.cond {c : Prop} [Decidable c] {s a b : State} (h : c → Keeps s a) (k : ¬c → Keeps s b) :
    Keeps s (if c then a else b) := by
  split
  · next x => exact h x
  · next x => exact k x

/-! #### Repetition -/

theorem forUpto_keeps {n : Nat} {f : Nat → State → State} {s : State} (h : ∀ k u, Keeps u (f k u)) :
    Keeps s (forUpto n f s) := by
  induction n with
  | zero => exact .refl s
  | succ n ih => exact ih.trans (h n _)

theorem forEach_keeps {α : Type} {l : List α} {f : α → State → State} {s : State} (h : ∀ a u, Keeps u (f a u)) :
    Keeps s (forEach l f s) := by
  induction l generalizing s with
  | nil => exact .refl s
  | cons a l ih => exact (h a s).trans ih

theorem foldl_keeps {α : Type} {l : List α} {f : State → α → State} {s : State} (h : ∀ u a, Keeps u (f u a)) :
    Keeps s (l.foldl f s) := by
  induction l generalizing s with
  | nil => exact .refl s
  | cons a l ih => exact (h s a).trans ih

theorem forUpto_snd_keeps {α : Type} {n : Nat} {f : Nat → α × State → α × State} {c : α × State}
    (h : ∀ k c, Keeps c.2 (f k c).2) : Keeps c.2 (forUpto n f c).2 := by
  induction n with
  | zero => exact .refl _
  | succ n ih => exact ih.trans (h n _)

theorem forEach_snd_keeps {α β : Type} {l : List β} {f : β → α × State → α × State} {c : α × State}
    (h : ∀ b c, Keeps c.2 (f b c).2) : Keeps c.2 (forEach l f c).2 := by
  induction l generalizing c with
  | nil => exact .refl _
  | cons b l ih => exact (h b c).trans ih

theorem eachCourse_keeps {f : Nat → State → State} {s : State} (h : ∀ k u, Keeps u (f k u)) :
    Keeps s (eachCourse f s) := forUpto_keeps h

/-! #### Outputs and free values -/

theorem emit_keeps (o : Out) (s : State) (h : isFire o = false) : Keeps s (emit o s) :=
  ⟨rfl, Nat.le_refl _, List.suffix_cons o s.out, id, by simp [fires, emit, h], id⟩

/-- Outputs that are no pulses, put before the trace. -/
theorem Keeps.outs {s u : State} {a b c d e f g h i j k l m n o p q r} (x : Keeps s u) (w : List Out)
    (hw : ∀ y ∈ w, isFire y = false) (hs : d.granted = u.shot.granted := by rfl)
    (he : h.permit = u.es.permit := by rfl) :
    Keeps s (State.mk a b c d e f g h i j k u.mem l m n u.pcie o p u.log q r u.free (w ++ u.out) u.pending) :=
  ⟨x.pending, x.free, x.out.trans (List.suffix_append w u.out),
    fun y => ⟨(x.inv y).1, (x.inv y).2.1, (x.inv y).2.2.1, (gateFollows_congr hs he).trans (x.inv y).2.2.2⟩,
    by
      have e : w.filter isFire = [] := List.filter_eq_nil_iff.2 (fun y m => by simp [hw y m])
      have k := x.dark
      simp only [fires, List.filter_append, e, List.nil_append] at k ⊢
      exact k,
    fun y => he.trans (x.denied y)⟩

/-- A free value drawn. -/
theorem Keeps.drawn {s u : State} {a b c d e f g h i j k l m n o p q r} (x : Keeps s u)
    (hs : d.granted = u.shot.granted := by rfl) (he : h.permit = u.es.permit := by rfl) :
    Keeps s (State.mk a b c d e f g h i j k u.mem l m n u.pcie o p u.log q r (u.free + 1) u.out u.pending) :=
  ⟨x.pending, Nat.le_succ_of_le x.free, x.out,
    fun y => ⟨(x.inv y).1, (x.inv y).2.1, (x.inv y).2.2.1, (gateFollows_congr hs he).trans (x.inv y).2.2.2⟩,
    x.dark, fun y => he.trans (x.denied y)⟩

theorem drawFree_keeps (s : State) : Keeps s (drawFree s).2 := (Keeps.refl s).drawn

theorem drawFree_keeps' {s t : State} {k : Nat} (h : drawFree s = (k, t)) : Keeps s t := by
  have e := drawFree_keeps s
  rw [h] at e
  exact e

/-! #### The log -/

theorem length_insertBy {α : Type} (key : α → Nat) (x : α) (l : List α) : (insertBy key x l).length = l.length + 1 := by
  induction l with
  | nil => rfl
  | cons y l ih =>
    unfold insertBy
    split
    · simp [ih]
    · rfl

theorem logPush_keeps (sev src code p0 p1 p2 : Nat) (s : State) : Keeps s (logPush sev src code p0 p1 p2 s) := by
  unfold logPush
  split
  · exact .refl s
  · split
    · exact .parts rfl rfl rfl id id id
    · next h =>
      refine .parts rfl rfl rfl id id fun _ => ?_
      simp only [LogQueue.wf, length_insertBy, decide_eq_true_eq]
      omega

theorem logEv_keeps (code p0 p1 p2 : Nat) (s : State) : Keeps s (logEv code p0 p1 p2 s) := by
  unfold logEv
  split
  · exact logPush_keeps ..
  · exact .refl s

theorem logLane_keeps (code lane p1 : Nat) (s : State) : Keeps s (logLane code lane p1 s) := by
  unfold logLane
  split
  · exact logPush_keeps ..
  · exact .refl s

/-! #### Interrupts -/

/-- The form of the interface, clause by clause. -/
theorem Interface.wf_iff (p : PcieState) : Interface.wf p = true ↔
    p.irqCause < 2 ^ 22 ∧ p.irqEnable < 2 ^ 22 ∧ (p.irqMap.all (fun e => vectorOk e.2)) = true ∧ p.winHi < 2 ^ 5 ∧
      p.winLo < 2 ^ 12 ∧ p.winBase < 2 ^ 37 := by
  simp only [Interface.wf, Bool.and_eq_true, decide_eq_true_eq, and_assoc]

theorem msixSend_keeps (v : Nat) (s : State) : Keeps s (msixSend v s) := by
  unfold msixSend
  split
  · exact .refl s
  · dsimp only
    split
    · exact .parts rfl rfl rfl id (fun h => by simpa only [Interface.wf_iff] using h) id
    · split
      · exact emit_keeps _ s rfl
      · exact .refl s

theorem raiseIrq_keeps (n : Nat) (s : State) : Keeps s (raiseIrq n s) := by
  unfold raiseIrq
  split
  · exact .refl s
  · next hn =>
    have h1 : Keeps s { s with pcie.irqCause := s.pcie.irqCause ||| 2 ^ n } := by
      refine .parts rfl rfl rfl id (fun h => ?_) id
      rw [Interface.wf_iff] at h ⊢
      refine ⟨Nat.or_lt_two_pow h.1 ?_, h.2⟩
      simp only [Bool.or_eq_true, decide_eq_true_eq, not_or] at hn
      exact Nat.pow_lt_pow_right (by omega) (by omega)
    dsimp only
    split
    · exact h1.trans (msixSend_keeps ..)
    · exact h1

theorem hostPieces_isFire (mps : Nat) (ep : Bool) (fuel addr : Nat) (bs : Bytes) :
    ∀ y ∈ hostPieces mps ep fuel addr bs, isFire y = false := by
  induction fuel generalizing addr bs with
  | zero => simp [hostPieces]
  | succ n ih =>
    unfold hostPieces
    split
    · simp
    · intro y hy
      rcases List.mem_cons.1 hy with rfl | h
      · rfl
      · exact ih _ _ y h

theorem hostWriteEp_keeps (ep : Bool) (addr : Nat) (bs : Bytes) (s : State) : Keeps s (hostWriteEp ep addr bs s) := by
  unfold hostWriteEp
  split
  · exact (Keeps.refl s).outs _ fun y hy => hostPieces_isFire _ _ _ _ _ y (List.mem_reverse.1 hy)
  · exact .refl s

theorem hostWrite_keeps (addr : Nat) (bs : Bytes) (s : State) : Keeps s (hostWrite addr bs s) := hostWriteEp_keeps ..

/-! #### Memory -/

/-- The form of the memory, clause by clause. -/
theorem Memory.wf_iff (m : MemState) : Memory.wf m = true ↔
    tabWf 0 m.dram = true ∧ tabWf false m.kept = true ∧ tabWf none m.payload = true ∧ tabWf 0 m.testArea = true ∧
      tabWf 0 m.testWords = true ∧ m.ce.length ≤ 32 := by
  simp only [Memory.wf, Bool.and_eq_true, decide_eq_true_eq, and_assoc]

end Sys2Proof
end

