-- ==== Sys2Proof/Laws/KeepsOps.lean ====
section
/-! SUPPORT. Every operation and meaning of Machine/Ops.lean keeps the queue, the drawn values, the trace and the invariant. -/

namespace Sys2Proof

/-! One proof at a time: proofs that wait on one another each hold a thread of their own. -/
set_option Elab.async false

open Sys2Proof.Machine

theorem modCourse_keeps (c : Nat) (f : CourseShot → CourseShot) (s : State) :
    Keeps s (modCourse c f s) := by
  unfold modCourse
  try dsimp only
  repeat' first
    | with_reducible exact Keeps.refl _
    | assumption
    | simp only [Keeps.upd_iff]

theorem modChan_keeps (ch : Nat) (f : Channel → Channel) (s : State) :
    Keeps s (modChan ch f s) := by
  unfold modChan
  try dsimp only
  repeat' first
    | with_reducible exact Keeps.refl _
    | assumption
    | simp only [Keeps.upd_iff]

theorem modEngine_keeps (e : Nat) (f : Engine → Engine) (s : State) :
    Keeps s (modEngine e f s) := by
  unfold modEngine
  try dsimp only
  repeat' first
    | with_reducible exact Keeps.refl _
    | assumption
    | simp only [Keeps.upd_iff]

theorem modRej_keeps (c : Nat) (f : RejCounters → RejCounters) (s : State) :
    Keeps s (modRej c f s) := by
  unfold modRej
  try dsimp only
  repeat' first
    | with_reducible exact Keeps.refl _
    | assumption
    | simp only [Keeps.upd_iff]

theorem modRing_keeps (r : Nat) (f : DlvRing → DlvRing) (s : State) :
    Keeps s (modRing r f s) := by
  unfold modRing
  try dsimp only
  repeat' first
    | with_reducible exact Keeps.refl _
    | assumption
    | simp only [Keeps.upd_iff]

theorem modPlane_keeps (k : Nat) (f : Plane → Plane) (s : State) :
    Keeps s (modPlane k f s) := by
  unfold modPlane
  try dsimp only
  repeat' first
    | with_reducible exact Keeps.refl _
    | assumption
    | simp only [Keeps.upd_iff]

theorem modHod_keeps (k : Nat) (f : HodChannel → HodChannel) (s : State) :
    Keeps s (modHod k f s) := by
  unfold modHod
  try dsimp only
  repeat' first
    | with_reducible exact Keeps.refl _
    | assumption
    | simp only [Keeps.upd_iff]

theorem modBox_keeps (m : Nat) (f : Mailbox → Mailbox) (s : State) :
    Keeps s (modBox m f s) := by
  unfold modBox
  try dsimp only
  repeat' first
    | with_reducible exact Keeps.refl _
    | assumption
    | simp only [Keeps.upd_iff]

theorem modCapt_keeps (u : Nat) (f : CaptUnit → CaptUnit) (s : State) :
    Keeps s (modCapt u f s) := by
  unfold modCapt
  try dsimp only
  repeat' first
    | with_reducible exact Keeps.refl _
    | assumption
    | simp only [Keeps.upd_iff]

theorem modHk_keeps (i : Nat) (f : HkChannel → HkChannel) (s : State) :
    Keeps s (modHk i f s) := by
  unfold modHk
  try dsimp only
  repeat' first
    | with_reducible exact Keeps.refl _
    | assumption
    | simp only [Keeps.upd_iff]

theorem modSensor_keeps (i : Nat) (f : ThSensor → ThSensor) (s : State) :
    Keeps s (modSensor i f s) := by
  unfold modSensor
  try dsimp only
  repeat' first
    | with_reducible exact Keeps.refl _
    | assumption
    | simp only [Keeps.upd_iff]

theorem modLane_keeps (i : Nat) (f : Lane → Lane) (s : State) :
    Keeps s (modLane i f s) := by
  unfold modLane
  try dsimp only
  repeat' first
    | with_reducible exact Keeps.refl _
    | assumption
    | simp only [Keeps.upd_iff]
    | (intro _ _; try dsimp only)
    | (split <;> try dsimp only)

theorem modPort_keeps (p : Port) (f : RingPort → RingPort) (s : State) :
    Keeps s (modPort p f s) := by
  unfold modPort
  try dsimp only
  repeat' first
    | with_reducible exact Keeps.refl _
    | assumption
    | simp only [Keeps.upd_iff]

theorem modChain_keeps (i : Nat) (f : Chain → Chain) (s : State) :
    Keeps s (modChain i f s) := by
  unfold modChain
  try dsimp only
  repeat' first
    | with_reducible exact Keeps.refl _
    | assumption
    | simp only [Keeps.upd_iff]

theorem nvStore_keeps (region off : Nat) (bs : Bytes) (s : State) :
    Keeps s (nvStore region off bs s) := by
  unfold nvStore
  try dsimp only
  repeat' first
    | with_reducible exact Keeps.refl _
    | assumption
    | simp only [Keeps.upd_iff]

theorem nvCycle_keeps (region : Nat) (s : State) :
    Keeps s (nvCycle region s) := by
  unfold nvCycle
  try dsimp only
  repeat' first
    | with_reducible exact Keeps.refl _
    | assumption
    | simp only [Keeps.upd_iff]
    | with_reducible apply Keeps.after (logEv_keeps ..)
    | with_reducible apply Keeps.after (nvStore_keeps ..)
    | (split <;> try dsimp only)

theorem nvProgram_keeps (region off : Nat) (bs : Bytes) (s : State) :
    Keeps s (nvProgram region off bs s).2 := by
  unfold nvProgram
  try dsimp only
  repeat' first
    | with_reducible exact Keeps.refl _
    | assumption
    | simp only [Keeps.upd_iff]
    | with_reducible apply Keeps.after (drawFree_keeps ..)
    | refine Keeps.trans ?_ (drawFree_keeps' (by assumption))
    | with_reducible apply Keeps.after (nvStore_keeps ..)
    | with_reducible apply Keeps.after (nvCycle_keeps ..)
    | (split <;> try dsimp only)

theorem nvProgram_keeps' {region off : Nat} {bs : Bytes} {s : State} {x} {t : State} (h : nvProgram region off bs s = (x, t)) : Keeps s t := by
  have e := nvProgram_keeps region off bs s
  rw [h] at e
  exact e

theorem nvWrite_keeps (region off : Nat) (bs : Bytes) (s : State) :
    Keeps s (nvWrite region off bs s).2 := by
  unfold nvWrite
  try dsimp only
  repeat' first
    | with_reducible exact Keeps.refl _
    | assumption
    | simp only [Keeps.upd_iff]
    | with_reducible apply Keeps.after (logEv_keeps ..)
    | with_reducible apply Keeps.after (nvProgram_keeps ..)
    | refine Keeps.trans ?_ (nvProgram_keeps' (by assumption))
    | (split <;> try dsimp only)

theorem nvWrite_keeps' {region off : Nat} {bs : Bytes} {s : State} {x} {t : State} (h : nvWrite region off bs s = (x, t)) : Keeps s t := by
  have e := nvWrite_keeps region off bs s
  rw [h] at e
  exact e

theorem writeCounters_keeps (s : State) :
    Keeps s (writeCounters s) := by
  unfold writeCounters
  try dsimp only
  repeat' first
    | with_reducible exact Keeps.refl _
    | assumption
    | simp only [Keeps.upd_iff]
    | with_reducible apply Keeps.after (nvWrite_keeps ..)
    | refine Keeps.trans ?_ (nvWrite_keeps' (by assumption))
    | (split <;> try dsimp only)

theorem loadCounters_keeps (s : State) :
    Keeps s (loadCounters s) := by
  unfold loadCounters
  try dsimp only
  repeat' first
    | with_reducible exact Keeps.refl _
    | assumption
    | simp only [Keeps.upd_iff]

theorem sendPending_keeps (v : Nat) (s : State) :
    Keeps s (sendPending v s) := by
  unfold sendPending
  try dsimp only
  repeat' first
    | with_reducible exact Keeps.refl _
    | assumption
    | simp only [Keeps.upd_iff]
    | with_reducible apply Keeps.after (msixSend_keeps ..)
    | exact Keeps.parts rfl rfl rfl id id id
    | (intro _ _; try dsimp only)
    | (split <;> try dsimp only)

end Sys2Proof
end

