-- ==== Sys2Proof/Laws/KeepsAngle.lean ====
section
/-! SUPPORT. Every operation and meaning of Machine/Angle.lean keeps the queue, the drawn values, the trace and the invariant. -/

namespace Sys2Proof

/-! One proof at a time: proofs that wait on one another each hold a thread of their own. -/
set_option Elab.async false

open Sys2Proof.Machine

theorem markFlying_keeps (s : State) :
    Keeps s (markFlying s) := by
  unfold markFlying
  try dsimp only
  repeat' first
    | with_reducible exact Keeps.refl _
    | assumption
    | simp only [Keeps.upd_iff]
    | (intro _ _; try dsimp only)
    | (split <;> try dsimp only)

theorem setPred_keeps (p : PredState) (s : State) :
    Keeps s (setPred p s) := by
  unfold setPred
  try dsimp only
  repeat' first
    | with_reducible exact Keeps.refl _
    | assumption
    | simp only [Keeps.upd_iff]
    | with_reducible apply Keeps.after (logEv_keeps ..)
    | with_reducible apply Keeps.after (markFlying_keeps ..)
    | (intro _ _; try dsimp only)
    | (split <;> try dsimp only)

theorem sendTc_keeps (tc : Nat) (s : State) :
    Keeps s (sendTc tc s) := by
  unfold sendTc
  try dsimp only
  repeat' first
    | with_reducible exact Keeps.refl _
    | assumption
    | simp only [Keeps.upd_iff]

theorem takeUpdate_keeps (u : AngleUpdate) (s : State) :
    Keeps s (takeUpdate u s) := by
  unfold takeUpdate
  try dsimp only
  repeat' first
    | with_reducible exact Keeps.refl _
    | assumption
    | simp only [Keeps.upd_iff]
    | with_reducible apply Keeps.after (setPred_keeps ..)
    | (intro _ _; try dsimp only)
    | (split <;> try dsimp only)

theorem execAngleUpdate_keeps (s : State) :
    KeepsO s (execAngleUpdate s) := by
  unfold execAngleUpdate
  refine .next ?_
  try dsimp only
  repeat' first
    | with_reducible exact Keeps.refl _
    | assumption
    | simp only [Keeps.upd_iff]
    | with_reducible apply Keeps.after (takeUpdate_keeps ..)
    | (split <;> try dsimp only)

theorem execMissedUpdate_keeps (s : State) :
    KeepsO s (execMissedUpdate s) := by
  unfold execMissedUpdate
  refine .next ?_
  try dsimp only
  repeat' first
    | with_reducible exact Keeps.refl _
    | assumption
    | simp only [Keeps.upd_iff]
    | with_reducible apply Keeps.after (setPred_keeps ..)
    | (intro _ _; try dsimp only)
    | (split <;> try dsimp only)

theorem correctIndex_keeps (e uref : Int) (s : State) :
    Keeps s (correctIndex e uref s) := by
  unfold correctIndex
  try dsimp only
  repeat' first
    | with_reducible exact Keeps.refl _
    | assumption
    | simp only [Keeps.upd_iff]
    | with_reducible apply Keeps.after (logEv_keeps ..)
    | with_reducible apply Keeps.after (setPred_keeps ..)
    | (split <;> try dsimp only)

theorem acquireIndex_keeps (ti64 : Nat) (e : Int) (s : State) :
    Keeps s (acquireIndex ti64 e s) := by
  unfold acquireIndex
  try dsimp only
  repeat' first
    | with_reducible exact Keeps.refl _
    | assumption
    | simp only [Keeps.upd_iff]
    | with_reducible apply Keeps.after (setPred_keeps ..)

theorem takeIndex_keeps (ti64 u64 : Nat) (s : State) :
    Keeps s (takeIndex ti64 u64 s) := by
  unfold takeIndex
  try dsimp only
  repeat' first
    | with_reducible exact Keeps.refl _
    | assumption
    | simp only [Keeps.upd_iff]
    | with_reducible apply Keeps.after (correctIndex_keeps ..)
    | with_reducible apply Keeps.after (acquireIndex_keeps ..)
    | (split <;> try dsimp only)

theorem execIndexMissing_keeps (s : State) :
    KeepsO s (execIndexMissing s) := by
  unfold execIndexMissing
  refine .next ?_
  try dsimp only
  repeat' first
    | with_reducible exact Keeps.refl _
    | assumption
    | simp only [Keeps.upd_iff]
    | with_reducible apply Keeps.after (logEv_keeps ..)
    | (split <;> try dsimp only)

theorem countSuspect_keeps (f : Nat) (s : State) :
    Keeps s (countSuspect f s) := by
  unfold countSuspect
  try dsimp only
  repeat' first
    | with_reducible exact Keeps.refl _
    | assumption
    | simp only [Keeps.upd_iff]
    | (split <;> try dsimp only)

end Sys2Proof
end

