-- ==== Sys2Proof/Laws/KeepsLink.lean ====
section
/-! SUPPORT. Every operation and meaning of Machine/Link.lean keeps the queue, the drawn values, the trace and the invariant. -/

namespace Sys2Proof

/-! One proof at a time: proofs that wait on one another each hold a thread of their own. -/
set_option Elab.async false

open Sys2Proof.Machine

theorem sendBlock_keeps (p : Port) (kind : Nat) (content : Bytes) (s : State) :
    Keeps s (sendBlock p kind content s) := by
  unfold sendBlock
  try dsimp only
  repeat' first
    | with_reducible exact Keeps.refl _
    | assumption
    | simp only [Keeps.upd_iff]
    | ((with_reducible refine Keeps.after (emit_keeps _ _ ?_) ?_); exact rfl)
    | (intro _ _; try dsimp only)
    | (split <;> try dsimp only)

theorem sendBlockAll_keeps (p : Port) (kind : Nat) (content : Bytes) (s : State) :
    Keeps s (sendBlockAll p kind content s) := by
  unfold sendBlockAll
  try dsimp only
  repeat' first
    | with_reducible exact Keeps.refl _
    | assumption
    | simp only [Keeps.upd_iff]
    | ((with_reducible apply Keeps.after (forEach_keeps ?_)) <;> try dsimp only)
    | ((with_reducible refine Keeps.after (emit_keeps _ _ ?_) ?_); exact rfl)
    | (intro _ _; try dsimp only)
    | (split <;> try dsimp only)

theorem returnCredit_keeps (p : Port) (reserved : Bool) (n : Nat) (s : State) :
    Keeps s (returnCredit p reserved n s) := by
  unfold returnCredit
  try dsimp only
  repeat' first
    | with_reducible exact Keeps.refl _
    | assumption
    | simp only [Keeps.upd_iff]
    | with_reducible apply Keeps.after (modPort_keeps ..)
    | with_reducible apply Keeps.after (sendBlock_keeps ..)
    | (intro _ _; try dsimp only)
    | (split <;> try dsimp only)

theorem sendOne_keeps (p : Port) (s : State) :
    Keeps s (sendOne p s) := by
  unfold sendOne
  try dsimp only
  repeat' first
    | with_reducible exact Keeps.refl _
    | assumption
    | simp only [Keeps.upd_iff]
    | ((with_reducible refine Keeps.after (emit_keeps _ _ ?_) ?_); exact rfl)
    | with_reducible apply Keeps.after (modPort_keeps ..)
    | with_reducible apply Keeps.after (returnCredit_keeps ..)
    | (intro _ _; try dsimp only)
    | (split <;> try dsimp only)

theorem drainPort_keeps (n : Nat) (p : Port) (s : State) : Keeps s (drainPort n p s) := by
  induction n generalizing s with
  | zero => exact .refl s
  | succ n ih => exact (sendOne_keeps p s).trans (ih _)

theorem drain_keeps (p : Port) (s : State) :
    Keeps s (drain p s) := by
  unfold drain
  try dsimp only
  repeat' first
    | with_reducible exact Keeps.refl _
    | assumption
    | simp only [Keeps.upd_iff]
    | with_reducible apply Keeps.after (drainPort_keeps ..)

theorem resendOne_keeps (p : Port) (s : State) :
    Keeps s (resendOne p s) := by
  unfold resendOne
  try dsimp only
  repeat' first
    | with_reducible exact Keeps.refl _
    | assumption
    | simp only [Keeps.upd_iff]
    | ((with_reducible refine Keeps.after (emit_keeps _ _ ?_) ?_); exact rfl)
    | with_reducible apply Keeps.after (modPort_keeps ..)
    | (intro _ _; try dsimp only)
    | (split <;> try dsimp only)

theorem resendMany_keeps (n : Nat) (p : Port) (s : State) : Keeps s (resendMany n p s) := by
  induction n generalizing s with
  | zero => exact .refl s
  | succ n ih => exact (resendOne_keeps p s).trans (ih _)

theorem pump_keeps (p : Port) (s : State) :
    Keeps s (pump p s) := by
  unfold pump
  try dsimp only
  repeat' first
    | with_reducible exact Keeps.refl _
    | assumption
    | simp only [Keeps.upd_iff]
    | with_reducible apply Keeps.after (drain_keeps ..)
    | with_reducible apply Keeps.after (resendMany_keeps ..)
    | (intro _ _; try dsimp only)
    | (split <;> try dsimp only)

theorem resendFrom_keeps (p : Port) (lseq : Nat) (s : State) :
    Keeps s (resendFrom p lseq s) := by
  unfold resendFrom
  try dsimp only
  repeat' first
    | with_reducible exact Keeps.refl _
    | assumption
    | simp only [Keeps.upd_iff]
    | with_reducible apply Keeps.after (modPort_keeps ..)
    | with_reducible apply Keeps.after (pump_keeps ..)
    | (intro _ _; try dsimp only)
    | (split <;> try dsimp only)

theorem enqueue_keeps (p : Port) (f : OutFrame) (s : State) :
    Keeps s (enqueue p f s) := by
  unfold enqueue
  try dsimp only
  repeat' first
    | with_reducible exact Keeps.refl _
    | assumption
    | simp only [Keeps.upd_iff]
    | with_reducible apply Keeps.after (modPort_keeps ..)
    | with_reducible apply Keeps.after (drain_keeps ..)

theorem forwardOn_keeps (ring : Nat) (body : Bytes) (own : Bool) (credit : Option (Port × Nat)) (stamp : Option SyncStamp) (s : State) :
    Keeps s (forwardOn ring body own credit stamp s) := by
  unfold forwardOn
  try dsimp only
  repeat' first
    | with_reducible exact Keeps.refl _
    | assumption
    | simp only [Keeps.upd_iff]
    | with_reducible apply Keeps.after (enqueue_keeps ..)
    | with_reducible apply Keeps.after (returnCredit_keeps ..)
    | (intro _ _; try dsimp only)
    | (split <;> try dsimp only)

theorem sendOn_keeps (ring cls typ dst : Nat) (payload : Bytes) (s : State) :
    Keeps s (sendOn ring cls typ dst payload s) := by
  unfold sendOn
  try dsimp only
  repeat' first
    | with_reducible exact Keeps.refl _
    | assumption
    | simp only [Keeps.upd_iff]
    | with_reducible apply Keeps.after (forwardOn_keeps ..)
    | (intro _ _; try dsimp only)
    | (split <;> try dsimp only)

theorem broadcast_keeps (cls typ : Nat) (p0 p1 : Bytes) (s : State) :
    Keeps s (broadcast cls typ p0 p1 s) := by
  unfold broadcast
  try dsimp only
  repeat' first
    | with_reducible exact Keeps.refl _
    | assumption
    | simp only [Keeps.upd_iff]
    | with_reducible apply Keeps.after (sendOn_keeps ..)

theorem dropHeld_keeps (p : Port) (s : State) :
    Keeps s (dropHeld p s) := by
  unfold dropHeld
  try dsimp only
  repeat' first
    | with_reducible exact Keeps.refl _
    | assumption
    | simp only [Keeps.upd_iff]
    | ((with_reducible apply Keeps.after (forEach_keeps ?_)) <;> try dsimp only)
    | with_reducible apply Keeps.after (modPort_keeps ..)
    | with_reducible apply Keeps.after (returnCredit_keeps ..)
    | (intro _ _; try dsimp only)
    | (split <;> try dsimp only)

theorem useCredits_keeps (p : Port) (f : Bytes) (s : State) :
    Keeps s (useCredits p f s) := by
  unfold useCredits
  try dsimp only
  repeat' first
    | with_reducible exact Keeps.refl _
    | assumption
    | simp only [Keeps.upd_iff]
    | with_reducible apply Keeps.after (modPort_keeps ..)

theorem freeCredits_keeps (p : Port) (f : Bytes) (s : State) :
    Keeps s (freeCredits p f s) := by
  unfold freeCredits
  try dsimp only
  repeat' first
    | with_reducible exact Keeps.refl _
    | assumption
    | simp only [Keeps.upd_iff]
    | with_reducible apply Keeps.after (returnCredit_keeps ..)

theorem dropFrame_keeps (p : Port) (f : Bytes) (s : State) :
    Keeps s (dropFrame p f s) := by
  unfold dropFrame
  try dsimp only
  repeat' first
    | with_reducible exact Keeps.refl _
    | assumption
    | simp only [Keeps.upd_iff]
    | with_reducible apply Keeps.after (useCredits_keeps ..)
    | with_reducible apply Keeps.after (freeCredits_keeps ..)

theorem stompCopy_keeps (p : Port) (f : Bytes) (s : State) :
    Keeps s (stompCopy p f s) := by
  unfold stompCopy
  try dsimp only
  repeat' first
    | with_reducible exact Keeps.refl _
    | assumption
    | simp only [Keeps.upd_iff]
    | ((with_reducible refine Keeps.after (emit_keeps _ _ ?_) ?_); exact rfl)
    | with_reducible apply Keeps.after (modPort_keeps ..)
    | (intro _ _; try dsimp only)
    | (split <;> try dsimp only)

theorem cutReception_keeps (p : Port) (cut : Bytes) (s : State) :
    Keeps s (cutReception p cut s) := by
  unfold cutReception
  try dsimp only
  repeat' first
    | with_reducible exact Keeps.refl _
    | assumption
    | simp only [Keeps.upd_iff]
    | with_reducible apply Keeps.after (dropFrame_keeps ..)
    | with_reducible apply Keeps.after (stompCopy_keeps ..)
    | (intro _ _; try dsimp only)
    | (split <;> try dsimp only)

theorem e2eSend_keeps (cls typ dst : Nat) (body : Bytes) (s : State) :
    Keeps s (e2eSend cls typ dst body s) := by
  unfold e2eSend
  try dsimp only
  repeat' first
    | with_reducible exact Keeps.refl _
    | assumption
    | simp only [Keeps.upd_iff]
    | with_reducible apply Keeps.after (sendOn_keeps ..)
    | (split <;> try dsimp only)

theorem e2eResend_keeps (ms : List E2eMessage) (s : State) :
    Keeps s (e2eResend ms s) := by
  unfold e2eResend
  try dsimp only
  repeat' first
    | with_reducible exact Keeps.refl _
    | assumption
    | simp only [Keeps.upd_iff]
    | ((with_reducible apply Keeps.after (forEach_keeps ?_)) <;> try dsimp only)
    | with_reducible apply Keeps.after (sendOn_keeps ..)
    | (intro _ _; try dsimp only)

theorem e2ePathChange_keeps (s : State) :
    Keeps s (e2ePathChange s) := by
  unfold e2ePathChange
  try dsimp only
  repeat' first
    | with_reducible exact Keeps.refl _
    | assumption
    | simp only [Keeps.upd_iff]
    | with_reducible apply Keeps.after (e2eResend_keeps ..)

theorem e2eAck_keeps (cls src : Nat) (s : State) :
    Keeps s (e2eAck cls src s) := by
  unfold e2eAck
  try dsimp only
  repeat' first
    | with_reducible exact Keeps.refl _
    | assumption
    | simp only [Keeps.upd_iff]
    | with_reducible apply Keeps.after (sendOn_keeps ..)

theorem e2eAccept_keeps (m : RingMessage) (s : State) :
    Keeps s (e2eAccept m s).2 := by
  unfold e2eAccept
  try dsimp only
  repeat' first
    | with_reducible exact Keeps.refl _
    | assumption
    | simp only [Keeps.upd_iff]
    | with_reducible apply Keeps.after (e2eAck_keeps ..)
    | (split <;> try dsimp only)

theorem e2eAccept_keeps' {m : RingMessage} {s : State} {x} {t : State} (hx : e2eAccept m s = (x, t)) : Keeps s t := by
  have e := e2eAccept_keeps m s
  rw [hx] at e
  exact e

theorem e2eAcked_keeps (src q : Nat) (s : State) :
    Keeps s (e2eAcked src q s) := by
  unfold e2eAcked
  try dsimp only
  repeat' first
    | with_reducible exact Keeps.refl _
    | assumption
    | simp only [Keeps.upd_iff]

end Sys2Proof
end

