-- ==== Sys2Proof/Laws/KeepsMemory.lean ====
section
/-! SUPPORT. Every operation and meaning of Machine/Memory.lean keeps the queue, the drawn values, the trace and the invariant. -/

namespace Sys2Proof

/-! One proof at a time: proofs that wait on one another each hold a thread of their own. -/
set_option Elab.async false

open Sys2Proof.Machine

theorem noteCe_keeps (w syn bit : Nat) (s : State) : Keeps s (noteCe w syn bit s) := by
  unfold noteCe
  dsimp only
  split
  · exact .parts rfl rfl rfl (fun h => by simpa only [Memory.wf_iff, List.length_map] using h) id id
  · split
    · next hl =>
      refine Keeps.after (logEv_keeps ..) (Keeps.after (raiseIrq_keeps ..) (.parts rfl rfl rfl (fun h => ?_) id id))
      simp only [Memory.wf_iff, List.length_append, List.length_singleton] at h ⊢
      obtain ⟨dram, kept, payload, area, words, -⟩ := h
      exact ⟨dram, kept, payload, area, words, hl⟩
    · exact .parts rfl rfl rfl (fun h => by simpa only [Memory.wf_iff] using h) id id

theorem markWritten_keeps (w : Nat) (s : State) : Keeps s (markWritten w s) :=
  .parts rfl rfl rfl (fun h => by simpa only [markWritten, Memory.wf_iff, List.length_map] using h) id id

theorem noteUe_keeps (w : Nat) (s : State) : Keeps s (noteUe w s) := by
  unfold noteUe
  refine Keeps.after (raiseIrq_keeps ..) (Keeps.after (logEv_keeps ..) (.parts rfl rfl rfl (fun h => ?_) id id))
  simpa only [Memory.wf_iff] using h

theorem dramReadWord_keeps (w : Nat) (s : State) :
    Keeps s (dramReadWord w s).2 := by
  unfold dramReadWord
  try dsimp only
  repeat' first
    | with_reducible exact Keeps.refl _
    | assumption
    | simp only [Keeps.upd_iff]
    | with_reducible apply Keeps.after (drawFree_keeps ..)
    | refine Keeps.trans ?_ (drawFree_keeps' (by assumption))
    | with_reducible apply Keeps.after (noteCe_keeps ..)
    | with_reducible apply Keeps.after (noteUe_keeps ..)
    | (split <;> try dsimp only)

theorem dramReadWord_keeps' {w : Nat} {s : State} {x} {t : State} (h : dramReadWord w s = (x, t)) : Keeps s t := by
  have e := dramReadWord_keeps w s
  rw [h] at e
  exact e

theorem dramReadWords_keeps (n w : Nat) (s : State) : Keeps s (dramReadWords n w s).2 := by
  induction n generalizing w s with
  | zero => exact .refl s
  | succ n ih => exact (dramReadWord_keeps w s).trans (ih ..)

theorem dramReadWords_keeps' {n w : Nat} {s : State} {x} {t : State} (h : dramReadWords n w s = (x, t)) : Keeps s t := by
  have e := dramReadWords_keeps n w s
  rw [h] at e
  exact e

theorem dramRead_keeps (a n : Nat) (s : State) : Keeps s (dramRead a n s).2.2 := by
  unfold dramRead
  split
  · exact .refl s
  · exact dramReadWords_keeps ..

theorem dramRead_keeps' {a n : Nat} {s : State} {x y} {t : State} (h : dramRead a n s = (x, y, t)) : Keeps s t := by
  have e := dramRead_keeps a n s
  rw [h] at e
  exact e

theorem storeWord_keeps (w v : Nat) (s : State) : Keeps s (storeWord w v s) := by
  refine .parts rfl rfl rfl (fun h => ?_) id id
  simp only [Memory.wf_iff, storeWord] at h ⊢
  exact ⟨tabWf_set _ _ h.1, tabWf_set _ _ h.2.1, h.2.2⟩

theorem mergeWord_keeps (w off : Nat) (bs : Bytes) (s : State) : Keeps s (mergeWord w off bs s) := by
  unfold mergeWord
  dsimp only
  split
  · exact Keeps.after (markWritten_keeps ..) (storeWord_keeps ..)
  · exact Keeps.after (markWritten_keeps ..) (Keeps.after (storeWord_keeps ..) (noteCe_keeps ..))
  · refine Keeps.after (logEv_keeps ..) (Keeps.after (markWritten_keeps ..)
      (Keeps.trans (noteUe_keeps w s) (.parts rfl rfl rfl (fun h => ?_) id id)))
    simp only [Memory.wf_iff] at h ⊢
    exact ⟨tabWf_set _ _ h.1, tabWf_set _ _ h.2.1, h.2.2⟩

theorem dramWriteFrom_keeps (n a : Nat) (bs : Bytes) (s : State) : Keeps s (dramWriteFrom n a bs s) := by
  induction n generalizing a bs s with
  | zero => exact .refl s
  | succ n ih =>
    unfold dramWriteFrom
    dsimp only
    split
    · exact .refl s
    · refine Keeps.after (ih ..) ?_
      split
      · exact .refl s
      · split
        · exact Keeps.after (markWritten_keeps ..) (storeWord_keeps ..)
        · exact mergeWord_keeps ..

theorem dramWrite_keeps (a : Nat) (bs : Bytes) (s : State) : Keeps s (dramWrite a bs s) := by
  refine Keeps.after (dramWriteFrom_keeps ..) (.parts rfl rfl rfl (fun h => ?_) id id)
  simpa only [Memory.wf_iff] using h

theorem sramReadByte_keeps (i : Nat) (s : State) : Keeps s (sramReadByte i s).2 := by
  unfold sramReadByte
  dsimp only
  split
  · exact .refl s
  · exact .parts rfl rfl rfl (fun h => by simpa only [Memory.wf_iff] using h) id id
  · exact .parts rfl rfl rfl (fun h => by simpa only [Memory.wf_iff] using h) id id

theorem sramRead_keeps (n i : Nat) (s : State) : Keeps s (sramRead n i s).2.2 := by
  induction n generalizing i s with
  | zero => exact .refl s
  | succ n ih => exact (sramReadByte_keeps i s).trans (ih ..)

theorem sramRead_keeps' {n i : Nat} {s : State} {x y} {t : State} (h : sramRead n i s = (x, y, t)) : Keeps s t := by
  have e := sramRead_keeps n i s
  rw [h] at e
  exact e

theorem sramWrite_keeps (i : Nat) (bs : Bytes) (s : State) : Keeps s (sramWrite i bs s) := by
  refine .parts rfl rfl rfl (fun h => ?_) id id
  simp only [Memory.wf_iff, sramWrite] at h ⊢
  refine ⟨h.1, h.2.1, ?_, h.2.2.2⟩
  refine List.foldlRecOn (motive := fun m => tabWf none m = true) _ _ h.2.2.1 fun m hm e _ => ?_
  split
  · exact tabWf_set _ _ hm
  · exact hm

theorem trainDram_keeps (x : DramTraining) (s : State) : Keeps s (trainDram x s) :=
  .parts rfl rfl rfl (fun h => by simpa only [trainDram, Memory.wf_iff] using h) id id

end Sys2Proof
end

