-- ==== Sys2Proof/Laws/KeepsMailbox.lean ====
section
/-! SUPPORT. Every operation and meaning of Machine/Mailbox.lean keeps the queue, the drawn values, the trace and the invariant. -/

namespace Sys2Proof

/-! One proof at a time: proofs that wait on one another each hold a thread of their own. -/
set_option Elab.async false

open Sys2Proof.Machine

theorem modEntry_keeps (jseq : Nat) (f : JEntry → JEntry) (s : State) :
    Keeps s (modEntry jseq f s) := by
  unfold modEntry
  try dsimp only
  repeat' first
    | with_reducible exact Keeps.refl _
    | assumption
    | simp only [Keeps.upd_iff]

theorem sweep_keeps (s : State) :
    Keeps s (sweep s) := by
  unfold sweep
  try dsimp only
  repeat' first
    | with_reducible exact Keeps.refl _
    | assumption
    | simp only [Keeps.upd_iff]

theorem misuse_keeps (mb case : Nat) (s : State) :
    Keeps s (misuse mb case s) := by
  unfold misuse
  try dsimp only
  repeat' first
    | with_reducible exact Keeps.refl _
    | assumption
    | simp only [Keeps.upd_iff]
    | with_reducible apply Keeps.after (logEv_keeps ..)

theorem mbxMessage_keeps (mb bitNo : Nat) (s : State) :
    Keeps s (mbxMessage mb bitNo s) := by
  unfold mbxMessage
  try dsimp only
  repeat' first
    | with_reducible exact Keeps.refl _
    | assumption
    | simp only [Keeps.upd_iff]
    | with_reducible apply Keeps.after (msixSend_keeps ..)
    | (split <;> try dsimp only)

theorem writeResult_keeps (mb : Nat) (r : Bytes) (s : State) :
    Keeps s (writeResult mb r s) := by
  unfold writeResult
  try dsimp only
  repeat' first
    | with_reducible exact Keeps.refl _
    | assumption
    | simp only [Keeps.upd_iff]
    | with_reducible apply Keeps.after (hostWrite_keeps ..)
    | with_reducible apply Keeps.after (sramWrite_keeps ..)
    | (split <;> try dsimp only)

theorem completeBox_keeps (mb : Nat) (r : Reply) (lost : Bool) (s : State) :
    Keeps s (completeBox mb r lost s) := by
  unfold completeBox
  try dsimp only
  repeat' first
    | with_reducible exact Keeps.refl _
    | assumption
    | simp only [Keeps.upd_iff]
    | with_reducible apply Keeps.after (mbxMessage_keeps ..)
    | with_reducible apply Keeps.after (misuse_keeps ..)
    | with_reducible apply Keeps.after (modBox_keeps ..)
    | with_reducible apply Keeps.after (writeResult_keeps ..)
    | (intro _ _; try dsimp only)
    | (split <;> try dsimp only)

theorem sendFragments_keeps (n typ dst node mb seq : Nat) (body : Bytes) (s : State) :
    Keeps s (sendFragments n typ dst node mb seq body s) := by
  induction n generalizing body s with
  | zero => exact .refl s
  | succ n ih =>
    unfold sendFragments
    dsimp only
    split
    · exact e2eSend_keeps ..
    · exact Keeps.after (ih ..) (e2eSend_keeps ..)

theorem sendMgmt_keeps (typ dst node mb seq : Nat) (body : Bytes) (s : State) :
    Keeps s (sendMgmt typ dst node mb seq body s) := by
  unfold sendMgmt
  try dsimp only
  repeat' first
    | with_reducible exact Keeps.refl _
    | assumption
    | simp only [Keeps.upd_iff]
    | with_reducible apply Keeps.after (sendFragments_keeps ..)

theorem answerRemote_keeps (arrived node mb seq : Nat) (r : Reply) (s : State) :
    Keeps s (answerRemote arrived node mb seq r s) := by
  unfold answerRemote
  try dsimp only
  repeat' first
    | with_reducible exact Keeps.refl _
    | assumption
    | simp only [Keeps.upd_iff]
    | with_reducible apply Keeps.after (logEv_keeps ..)
    | with_reducible apply Keeps.after (sendMgmt_keeps ..)
    | (intro _ _; try dsimp only)
    | (split <;> try dsimp only)

theorem finish_keeps (jseq : Nat) (r : Reply) (s : State) :
    Keeps s (finish jseq r s) := by
  unfold finish
  try dsimp only
  repeat' first
    | with_reducible exact Keeps.refl _
    | assumption
    | simp only [Keeps.upd_iff]
    | with_reducible apply Keeps.after (answerRemote_keeps ..)
    | with_reducible apply Keeps.after (completeBox_keeps ..)
    | with_reducible apply Keeps.after (modBox_keeps ..)
    | with_reducible apply Keeps.after (modEntry_keeps ..)
    | with_reducible apply Keeps.after (sweep_keeps ..)
    | (intro _ _; try dsimp only)
    | (split <;> try dsimp only)

theorem releaseResult_keeps (lost : Bool) (mb : Nat) (s : State) :
    Keeps s (releaseResult lost mb s) := by
  unfold releaseResult
  try dsimp only
  repeat' first
    | with_reducible exact Keeps.refl _
    | assumption
    | simp only [Keeps.upd_iff]
    | with_reducible apply Keeps.after (completeBox_keeps ..)
    | with_reducible apply Keeps.after (modEntry_keeps ..)
    | with_reducible apply Keeps.after (sweep_keeps ..)
    | (intro _ _; try dsimp only)
    | (split <;> try dsimp only)

theorem doorbell_keeps (mb value : Nat) (s : State) :
    Keeps s (doorbell mb value s) := by
  unfold doorbell
  try dsimp only
  repeat' first
    | with_reducible exact Keeps.refl _
    | assumption
    | simp only [Keeps.upd_iff]
    | with_reducible apply Keeps.after (modBox_keeps ..)
    | with_reducible apply Keeps.after (misuse_keeps ..)
    | (split <;> try dsimp only)

theorem execMbxDoorbell_keeps (mb : Fin 8) (value : BitVec 32) (s : State) :
    KeepsO s (execMbxDoorbell mb value s) := by
  unfold execMbxDoorbell
  refine .next ?_
  try dsimp only
  repeat' first
    | with_reducible exact Keeps.refl _
    | assumption
    | simp only [Keeps.upd_iff]
    | with_reducible apply Keeps.after (doorbell_keeps ..)
    | (split <;> try dsimp only)

theorem refuse_keeps (mb : Nat) (r : Refuse) (s : State) :
    Keeps s (refuse mb r s) := by
  unfold refuse
  try dsimp only
  repeat' first
    | with_reducible exact Keeps.refl _
    | assumption
    | simp only [Keeps.upd_iff]
    | with_reducible apply Keeps.after (modBox_keeps ..)
    | with_reducible apply Keeps.after (misuse_keeps ..)
    | with_reducible apply Keeps.after (mbxMessage_keeps ..)
    | (split <;> try dsimp only)

theorem readPayload_keeps (mb : Nat) (h : Bytes) (host : Option Bytes) (s : State) :
    Keeps s (readPayload mb h host s).2 := by
  unfold readPayload
  try dsimp only
  repeat' first
    | with_reducible exact Keeps.refl _
    | assumption
    | simp only [Keeps.upd_iff]
    | ((with_reducible refine Keeps.after (emit_keeps _ _ ?_) ?_); exact rfl)
    | with_reducible apply Keeps.after (sramRead_keeps ..)
    | refine Keeps.trans ?_ (sramRead_keeps' (by assumption))
    | (split <;> try dsimp only)

theorem readPayload_keeps' {mb : Nat} {h : Bytes} {host : Option Bytes} {s : State} {x} {t : State} (hx : readPayload mb h host s = (x, t)) : Keeps s t := by
  have e := readPayload_keeps mb h host s
  rw [hx] at e
  exact e

theorem answerRepost_keeps (mb : Nat) (h : Bytes) (s : State) :
    Keeps s (answerRepost mb h s) := by
  unfold answerRepost
  try dsimp only
  repeat' first
    | with_reducible exact Keeps.refl _
    | assumption
    | simp only [Keeps.upd_iff]
    | with_reducible apply Keeps.after (completeBox_keeps ..)
    | with_reducible apply Keeps.after (modBox_keeps ..)
    | with_reducible apply Keeps.after (refuse_keeps ..)
    | (intro _ _; try dsimp only)
    | (split <;> try dsimp only)

theorem journalEntry_keeps (mb : Nat) (h p : Bytes) (s : State) :
    Keeps s (journalEntry mb h p s) := by
  unfold journalEntry
  try dsimp only
  repeat' first
    | with_reducible exact Keeps.refl _
    | assumption
    | simp only [Keeps.upd_iff]

theorem commandCheck_keeps (mb : Nat) (host : Option Bytes) (s : State) :
    Keeps s (commandCheck mb host s) := by
  unfold commandCheck
  try dsimp only
  repeat' first
    | with_reducible exact Keeps.refl _
    | assumption
    | simp only [Keeps.upd_iff]
    | with_reducible apply Keeps.after (answerRepost_keeps ..)
    | with_reducible apply Keeps.after (journalEntry_keeps ..)
    | with_reducible apply Keeps.after (readPayload_keeps ..)
    | refine Keeps.trans ?_ (readPayload_keeps' (by assumption))
    | with_reducible apply Keeps.after (refuse_keeps ..)
    | (intro _ _; try dsimp only)
    | (split <;> try dsimp only)

theorem execCommandCheck_keeps (mb : Fin 8) (hostPayload : Option (List Byte)) (s : State) :
    KeepsO s (execCommandCheck mb hostPayload s) := by
  unfold execCommandCheck
  refine .next ?_
  try dsimp only
  repeat' first
    | with_reducible exact Keeps.refl _
    | assumption
    | simp only [Keeps.upd_iff]
    | with_reducible apply Keeps.after (commandCheck_keeps ..)
    | (split <;> try dsimp only)

theorem placeEntry_keeps (jseq : Nat) (s : State) :
    Keeps s (placeEntry jseq s) := by
  unfold placeEntry
  try dsimp only
  repeat' first
    | with_reducible exact Keeps.refl _
    | assumption
    | simp only [Keeps.upd_iff]

theorem forwardRemote_keeps (e : JEntry) (s : State) :
    Keeps s (forwardRemote e s) := by
  unfold forwardRemote
  try dsimp only
  repeat' first
    | with_reducible exact Keeps.refl _
    | assumption
    | simp only [Keeps.upd_iff]
    | with_reducible apply Keeps.after (modEntry_keeps ..)
    | with_reducible apply Keeps.after (sendMgmt_keeps ..)
    | (intro _ _; try dsimp only)
    | (split <;> try dsimp only)

theorem forwardNext_keeps (s : State) :
    Keeps s (forwardNext s) := by
  unfold forwardNext
  try dsimp only
  repeat' first
    | with_reducible exact Keeps.refl _
    | assumption
    | simp only [Keeps.upd_iff]
    | with_reducible apply Keeps.after (forwardRemote_keeps ..)
    | (intro _ _; try dsimp only)
    | (split <;> try dsimp only)

theorem acceptEntry_keeps (e : JEntry) (mb : Nat) (s : State) :
    Keeps s (acceptEntry e mb s) := by
  unfold acceptEntry
  try dsimp only
  repeat' first
    | with_reducible exact Keeps.refl _
    | assumption
    | simp only [Keeps.upd_iff]
    | with_reducible apply Keeps.after (mbxMessage_keeps ..)
    | with_reducible apply Keeps.after (modBox_keeps ..)
    | with_reducible apply Keeps.after (modEntry_keeps ..)
    | with_reducible apply Keeps.after (placeEntry_keeps ..)
    | with_reducible apply Keeps.after (sweep_keeps ..)
    | (intro _ _; try dsimp only)
    | (split <;> try dsimp only)

theorem execCommandAccepted_keeps (mb : Fin 8) (s : State) :
    KeepsO s (execCommandAccepted mb s) := by
  unfold execCommandAccepted
  refine .next ?_
  try dsimp only
  repeat' first
    | with_reducible exact Keeps.refl _
    | assumption
    | simp only [Keeps.upd_iff]
    | with_reducible apply Keeps.after (acceptEntry_keeps ..)
    | with_reducible apply Keeps.after (forwardNext_keeps ..)
    | (intro _ _; try dsimp only)
    | (split <;> try dsimp only)

theorem execResultWriteFail_keeps (mb : Fin 8) (s : State) :
    KeepsO s (execResultWriteFail mb s) := by
  unfold execResultWriteFail
  refine .next ?_
  try dsimp only
  repeat' first
    | with_reducible exact Keeps.refl _
    | assumption
    | simp only [Keeps.upd_iff]
    | with_reducible apply Keeps.after (modBox_keeps ..)
    | with_reducible apply Keeps.after (releaseResult_keeps ..)
    | (split <;> try dsimp only)

theorem execJournalMirrorRebuilt_keeps (place : JournalPlace) (s : State) :
    KeepsO s (execJournalMirrorRebuilt place s) := by
  unfold execJournalMirrorRebuilt
  refine .next ?_
  try dsimp only
  repeat' first
    | with_reducible exact Keeps.refl _
    | assumption
    | simp only [Keeps.upd_iff]
    | (split <;> try dsimp only)

theorem unstage_keeps (js : List Nat) (s : State) :
    Keeps s (unstage js s) := by
  unfold unstage
  try dsimp only
  repeat' first
    | with_reducible exact Keeps.refl _
    | assumption
    | simp only [Keeps.upd_iff]
    | ((with_reducible apply Keeps.after (forEach_keeps ?_)) <;> try dsimp only)
    | with_reducible apply Keeps.after (modEntry_keeps ..)
    | with_reducible apply Keeps.after (stage_keeps ..)
    | (intro _ _; try dsimp only)

theorem dropCommit_keeps (c : PendingCommit) (s : State) :
    Keeps s (dropCommit c s) := by
  unfold dropCommit
  try dsimp only
  repeat' first
    | with_reducible exact Keeps.refl _
    | assumption
    | simp only [Keeps.upd_iff]
    | with_reducible apply Keeps.after (sweep_keeps ..)
    | with_reducible apply Keeps.after (unstage_keeps ..)

theorem noteApplied_keeps (op jseq : Nat) (s : State) :
    Keeps s (noteApplied op jseq s) := by
  unfold noteApplied
  try dsimp only
  repeat' first
    | with_reducible exact Keeps.refl _
    | assumption
    | simp only [Keeps.upd_iff]
    | (split <;> try dsimp only)

theorem runCommand_keeps {op : Nat} {mb : Fin 8} {h : Handler} {s : State}
    (k : ∀ o j p u, Keeps u (h o j p u).1) : KeepsO s (runCommand op mb h s) := by
  unfold runCommand
  refine .next ?_
  split
  · exact .refl s
  · split
    · split
      · split
        · exact finish_keeps ..
        · exact .refl s
      · split
        · exact finish_keeps ..
        · next e _ _ _ _ =>
          have k1 : Keeps s (noteApplied op e.jseq (modEntry e.jseq (fun e => { e with started := true }) s)) :=
            Keeps.after (noteApplied_keeps ..) (modEntry_keeps ..)
          dsimp only
          split
          · exact Keeps.after (finish_keeps ..) (Keeps.after (k ..) k1)
          · exact Keeps.after (k ..) k1
    · exact .refl s

/-- A command that may grant, but does not fire. -/
theorem runCommand_calm {op : Nat} {mb : Fin 8} {h : Handler} {s : State} (k : ∀ o j p u, Calm u (h o j p u).1) :
    CalmO s (runCommand op mb h s) := by
  unfold runCommand
  refine .next ?_
  split
  · exact (Keeps.refl s).calm
  · split
    · split
      · split
        · exact (finish_keeps ..).calm
        · exact (Keeps.refl s).calm
      · split
        · exact (finish_keeps ..).calm
        · next e _ _ _ _ =>
          have k1 : Keeps s (noteApplied op e.jseq (modEntry e.jseq (fun e => { e with started := true }) s)) :=
            Keeps.after (noteApplied_keeps ..) (modEntry_keeps ..)
          dsimp only
          split
          · exact (k1.calm.trans (k ..)).trans (finish_keeps ..).calm
          · exact k1.calm.trans (k ..)
    · exact (Keeps.refl s).calm

theorem checked_keeps {bad : Option Reply} {s : State} {go : Unit → State × Reply} (k : Keeps s (go ()).1) :
    Keeps s (checked bad s go).1 := by
  unfold checked
  split
  · exact .refl s
  · exact k

end Sys2Proof
end

