-- ==== Sys2Proof/Laws/KeepsTiles.lean ====
section
/-! SUPPORT. Every operation and meaning of Machine/Tiles.lean keeps the queue, the drawn values, the trace and the invariant. -/

namespace Sys2Proof

/-! One proof at a time: proofs that wait on one another each hold a thread of their own. -/
set_option Elab.async false

open Sys2Proof.Machine

theorem modTile_keeps (f c j : Nat) (g : Tile → Tile) (s : State) :
    Keeps s (modTile f c j g s) := by
  unfold modTile
  try dsimp only
  repeat' first
    | with_reducible exact Keeps.refl _
    | assumption
    | simp only [Keeps.upd_iff]

theorem readyTile_keeps (f c j : Nat) (s : State) :
    Keeps s (readyTile f c j s) := by
  unfold readyTile
  try dsimp only
  repeat' first
    | with_reducible exact Keeps.refl _
    | assumption
    | simp only [Keeps.upd_iff]
    | with_reducible apply Keeps.after (modEngine_keeps ..)
    | with_reducible apply Keeps.after (modTile_keeps ..)
    | (split <;> try dsimp only)

theorem settleTile_keeps (f c j : Nat) (s : State) :
    Keeps s (settleTile f c j s) := by
  unfold settleTile
  try dsimp only
  repeat' first
    | with_reducible exact Keeps.refl _
    | assumption
    | simp only [Keeps.upd_iff]
    | with_reducible apply Keeps.after (countSuspect_keeps ..)
    | with_reducible apply Keeps.after (modTile_keeps ..)
    | with_reducible apply Keeps.after (readyTile_keeps ..)
    | (split <;> try dsimp only)

theorem logGoverned_keeps (s : State) :
    Keeps s (logGoverned s) := by
  unfold logGoverned
  try dsimp only
  repeat' first
    | with_reducible exact Keeps.refl _
    | assumption
    | simp only [Keeps.upd_iff]
    | ((with_reducible apply Keeps.after (forEach_keeps ?_)) <;> try dsimp only)
    | with_reducible apply Keeps.after (logEv_keeps ..)
    | with_reducible apply Keeps.after (modCourse_keeps ..)
    | (intro _ _; try dsimp only)
    | (split <;> try dsimp only)

theorem cutFrame_keeps (s : State) :
    Keeps s (cutFrame s) := by
  unfold cutFrame
  try dsimp only
  repeat' first
    | with_reducible exact Keeps.refl _
    | assumption
    | simp only [Keeps.upd_iff]
    | ((with_reducible apply Keeps.after (forEach_keeps ?_)) <;> try dsimp only)
    | with_reducible apply Keeps.after (logGoverned_keeps ..)
    | with_reducible apply Keeps.after (settleTile_keeps ..)
    | (intro _ _; try dsimp only)
    | (split <;> try dsimp only)

theorem stopPredictor_keeps (s : State) :
    Keeps s (stopPredictor s) := by
  unfold stopPredictor
  try dsimp only
  repeat' first
    | with_reducible exact Keeps.refl _
    | assumption
    | simp only [Keeps.upd_iff]
    | with_reducible apply Keeps.after (cutFrame_keeps ..)
    | with_reducible apply Keeps.after (setPred_keeps ..)
    | (intro _ _; try dsimp only)
    | with_reducible refine Keeps.drawn ?_
    | (split <;> try dsimp only)

theorem latchThresholds_keeps (f ch j : Nat) (s : State) :
    Keeps s (latchThresholds f ch j s) := by
  unfold latchThresholds
  try dsimp only
  repeat' first
    | with_reducible exact Keeps.refl _
    | assumption
    | simp only [Keeps.upd_iff]
    | with_reducible apply Keeps.after (modChan_keeps ..)
    | (intro _ _; try dsimp only)
    | (split <;> try dsimp only)

theorem openTile_keeps (v : State) (j c : Nat) (s0 : State) :
    Keeps s0 (openTile v j c s0) := by
  unfold openTile
  try dsimp only
  repeat' first
    | with_reducible exact Keeps.refl _
    | assumption
    | simp only [Keeps.upd_iff]
    | with_reducible apply Keeps.after (latchThresholds_keeps ..)
    | with_reducible apply Keeps.after (modEngine_keeps ..)
    | (intro _ _; try dsimp only)
    | (split <;> try dsimp only)

theorem closeTile_keeps (f j c : Nat) (s : State) :
    Keeps s (closeTile f j c s) := by
  unfold closeTile
  try dsimp only
  repeat' first
    | with_reducible exact Keeps.refl _
    | assumption
    | simp only [Keeps.upd_iff]
    | with_reducible apply Keeps.after (modTile_keeps ..)
    | with_reducible apply Keeps.after (settleTile_keeps ..)
    | (intro _ _; try dsimp only)
    | (split <;> try dsimp only)

theorem enableCourse_keeps (c : Nat) (s : State) :
    Keeps s (enableCourse c s) := by
  unfold enableCourse
  try dsimp only
  repeat' first
    | with_reducible exact Keeps.refl _
    | assumption
    | simp only [Keeps.upd_iff]
    | with_reducible apply Keeps.after (modCourse_keeps ..)
    | (intro _ _; try dsimp only)
    | (split <;> try dsimp only)

theorem crossColumn_keeps (v : State) (c : Nat) (s0 : State) :
    Keeps s0 (crossColumn v c s0) := by
  unfold crossColumn
  try dsimp only
  repeat' first
    | with_reducible exact Keeps.refl _
    | assumption
    | simp only [Keeps.upd_iff]
    | ((with_reducible apply Keeps.after (eachCourse_keeps ?_)) <;> try dsimp only)
    | with_reducible apply Keeps.after (closeTile_keeps ..)
    | with_reducible apply Keeps.after (enableCourse_keeps ..)
    | with_reducible apply Keeps.after (openTile_keeps ..)
    | (intro _ _; try dsimp only)
    | (split <;> try dsimp only)

theorem execColumnBoundary_keeps (c : Fin 2049) (s : State) :
    KeepsO s (execColumnBoundary c s) := by
  unfold execColumnBoundary
  refine .next ?_
  try dsimp only
  repeat' first
    | with_reducible exact Keeps.refl _
    | assumption
    | simp only [Keeps.upd_iff]
    | with_reducible apply Keeps.after (crossColumn_keeps ..)
    | (intro _ _; try dsimp only)
    | (split <;> try dsimp only)

theorem dueShot_keeps (t : Tile) (s : State) :
    Keeps s (dueShot t s) := by
  unfold dueShot
  try dsimp only
  repeat' first
    | with_reducible exact Keeps.refl _
    | assumption
    | simp only [Keeps.upd_iff]
    | with_reducible apply Keeps.after (modCourse_keeps ..)
    | with_reducible apply Keeps.after (modTile_keeps ..)
    | with_reducible apply Keeps.after (settleTile_keeps ..)
    | (intro _ _; try dsimp only)
    | (split <;> try dsimp only)

theorem execShotDue_keeps (c : Fin 128) (s : State) :
    KeepsO s (execShotDue c s) := by
  unfold execShotDue
  refine .next ?_
  try dsimp only
  repeat' first
    | with_reducible exact Keeps.refl _
    | assumption
    | simp only [Keeps.upd_iff]
    | with_reducible apply Keeps.after (dueShot_keeps ..)
    | (intro _ _; try dsimp only)
    | (split <;> try dsimp only)

theorem openWindow_keeps (t : Tile) (fl : Flight) (conv : Conversion) (dead : Bool) (side : Nat) (s : State) :
    Keeps s (openWindow t fl conv dead side s) := by
  unfold openWindow
  try dsimp only
  repeat' first
    | with_reducible exact Keeps.refl _
    | assumption
    | simp only [Keeps.upd_iff]
    | with_reducible apply Keeps.after (modChan_keeps ..)
    | with_reducible apply Keeps.after (modTile_keeps ..)
    | (intro _ _; try dsimp only)
    | (split <;> try dsimp only)

theorem openWindows_keeps (t : Tile) (fl : Flight) (a b : Conversion) (s : State) :
    Keeps s (openWindows t fl a b s) := by
  unfold openWindows
  try dsimp only
  repeat' first
    | with_reducible exact Keeps.refl _
    | assumption
    | simp only [Keeps.upd_iff]
    | with_reducible apply Keeps.after (openWindow_keeps ..)
    | (split <;> try dsimp only)

theorem dropFlight_keeps (c : Nat) (fl : Flight) (s : State) :
    Keeps s (dropFlight c fl s) := by
  unfold dropFlight
  try dsimp only
  repeat' first
    | with_reducible exact Keeps.refl _
    | assumption
    | simp only [Keeps.upd_iff]
    | with_reducible apply Keeps.after (modCourse_keeps ..)

theorem modFlight_keeps (c : Nat) (fl : Flight) (g : Flight → Flight) (s : State) :
    Keeps s (modFlight c fl g s) := by
  unfold modFlight
  try dsimp only
  repeat' first
    | with_reducible exact Keeps.refl _
    | assumption
    | simp only [Keeps.upd_iff]
    | with_reducible apply Keeps.after (modCourse_keeps ..)
    | (intro _ _; try dsimp only)
    | (split <;> try dsimp only)

theorem disarm_keeps (c : Nat) (fl : Flight) (s : State) :
    Keeps s (disarm c fl s) := by
  unfold disarm
  try dsimp only
  repeat' first
    | with_reducible exact Keeps.refl _
    | assumption
    | simp only [Keeps.upd_iff]
    | with_reducible apply Keeps.after (modChan_keeps ..)
    | (intro _ _; try dsimp only)
    | (split <;> try dsimp only)

/-- A pulse leaves the FIRE pin while emission is granted. -/
theorem emit_fire_fires (c l w : Nat) {s t : State} (h : Keeps s t) (e : emitOk s = true) :
    Fires s (emit (.fire c l w) t) :=
  ⟨⟨h.pending, h.free, h.out.trans (List.suffix_cons _ _), h.inv, fun d => by simp [e] at d⟩, h.denied⟩

/-- A quiet operation that leaves the gating as it is, before one that may fire. -/
theorem Keeps.thenFires {s t u : State} (h : Keeps s t) (e : emitOk t = emitOk s) (k : Fires t u) : Fires s u :=
  ⟨⟨k.pending.trans h.pending, Nat.le_trans h.free k.free, h.out.trans k.out, fun i => k.inv (h.inv i),
    fun d => (k.dark (e.trans d)).trans h.dark⟩, fun d => k.denied (h.denied d)⟩

theorem emitPulse_fires (c edge : Nat) (fl : Flight) (t : Tile) (s : State) : Fires s (emitPulse c edge fl t s) := by
  unfold emitPulse
  split
  · next e => exact emit_fire_fires _ _ _ (modFlight_keeps ..) e
  · exact (modTile_keeps ..).mayFire

theorem unfired_keeps (c : Nat) (fl : Flight) (s : State) :
    Keeps s (unfired c fl s) := by
  unfold unfired
  try dsimp only
  repeat' first
    | with_reducible exact Keeps.refl _
    | assumption
    | simp only [Keeps.upd_iff]
    | with_reducible apply Keeps.after (disarm_keeps ..)
    | with_reducible apply Keeps.after (dropFlight_keeps ..)
    | with_reducible apply Keeps.after (modCourse_keeps ..)
    | with_reducible apply Keeps.after (modTile_keeps ..)
    | with_reducible apply Keeps.after (settleTile_keeps ..)
    | (intro _ _; try dsimp only)
    | (split <;> try dsimp only)

theorem launchShot_fires (c : Nat) (fl : Flight) (t : Tile) (a b : Conversion) (s : State) :
    Fires s (launchShot c fl t a b s) := by
  unfold launchShot
  exact (Keeps.thenFires ((modTile_keeps ..).after ((modCourse_keeps ..).after (modFlight_keeps ..))) rfl
    (emitPulse_fires ..)).then (openWindows_keeps ..)

theorem shotLaunch_fires (c : Nat) (a b : Conversion) (s : State) : Fires s (shotLaunch c a b s) := by
  unfold shotLaunch
  split
  · exact (Keeps.refl s).mayFire
  · split
    · exact (Keeps.refl s).mayFire
    · split
      · exact launchShot_fires ..
      · exact ((unfired_keeps ..).after (modCourse_keeps ..)).mayFire

theorem execDoublePulseSecond_fires (c : Fin 128) (s : State) : FiresO s (execDoublePulseSecond c s) := by
  unfold execDoublePulseSecond
  refine .next ?_
  split
  · exact (Keeps.refl s).mayFire
  · split
    · exact (Keeps.refl s).mayFire
    · dsimp only
      split
      · exact (Keeps.refl s).mayFire
      · split
        · exact Keeps.thenFires (modFlight_keeps ..) rfl (emitPulse_fires ..)
        · exact ((modTile_keeps ..).after (modFlight_keeps ..)).mayFire

theorem cutPulses_keeps (s : State) :
    Keeps s (cutPulses s) := by
  unfold cutPulses
  try dsimp only
  repeat' first
    | with_reducible exact Keeps.refl _
    | assumption
    | simp only [Keeps.upd_iff]
    | ((with_reducible apply Keeps.after (forEach_keeps ?_)) <;> try dsimp only)
    | ((with_reducible apply Keeps.after (eachCourse_keeps ?_)) <;> try dsimp only)
    | ((with_reducible refine Keeps.after (emit_keeps _ _ ?_) ?_); exact rfl)
    | with_reducible apply Keeps.after (modFlight_keeps ..)
    | with_reducible apply Keeps.after (modTile_keeps ..)
    | (intro _ _; try dsimp only)
    | (split <;> try dsimp only)

theorem stopCourse_keeps (c : Nat) (s : State) :
    Keeps s (stopCourse c s) := by
  unfold stopCourse
  try dsimp only
  repeat' first
    | with_reducible exact Keeps.refl _
    | assumption
    | simp only [Keeps.upd_iff]
    | ((with_reducible apply Keeps.after (forEach_keeps ?_)) <;> try dsimp only)
    | with_reducible apply Keeps.after (modCourse_keeps ..)
    | with_reducible apply Keeps.after (modFlight_keeps ..)
    | with_reducible apply Keeps.after (modTile_keeps ..)
    | with_reducible apply Keeps.after (unfired_keeps ..)
    | (intro _ _; try dsimp only)
    | (split <;> try dsimp only)

theorem endFlight_keeps (c : Nat) (w : Window) (s : State) :
    Keeps s (endFlight c w s) := by
  unfold endFlight
  try dsimp only
  repeat' first
    | with_reducible exact Keeps.refl _
    | assumption
    | simp only [Keeps.upd_iff]
    | with_reducible apply Keeps.after (modCourse_keeps ..)
    | with_reducible apply Keeps.after (modTile_keeps ..)
    | (split <;> try dsimp only)

theorem execWindowClose_keeps (ch : Fin 256) (s : State) :
    KeepsO s (execWindowClose ch s) := by
  unfold execWindowClose
  refine .next ?_
  try dsimp only
  repeat' first
    | with_reducible exact Keeps.refl _
    | assumption
    | simp only [Keeps.upd_iff]
    | with_reducible apply Keeps.after (endFlight_keeps ..)
    | with_reducible apply Keeps.after (modChan_keeps ..)
    | with_reducible apply Keeps.after (modTile_keeps ..)
    | with_reducible apply Keeps.after (openWindows_keeps ..)
    | with_reducible apply Keeps.after (settleTile_keeps ..)
    | (intro _ _; try dsimp only)
    | (split <;> try dsimp only)

theorem execStampDelivery_keeps (ch : Fin 256) (s : State) :
    KeepsO s (execStampDelivery ch s) := by
  unfold execStampDelivery
  refine .next ?_
  try dsimp only
  repeat' first
    | with_reducible exact Keeps.refl _
    | assumption
    | simp only [Keeps.upd_iff]
    | with_reducible apply Keeps.after (modChan_keeps ..)
    | with_reducible apply Keeps.after (modTile_keeps ..)
    | with_reducible apply Keeps.after (readyTile_keeps ..)
    | (split <;> try dsimp only)

theorem execLowDiscriminatorEdge_keeps (ch : Fin 256) (rise : Conversion) (fall : Option Conversion) (high : Bool) (s : State) :
    KeepsO s (execLowDiscriminatorEdge ch rise fall high s) := by
  unfold execLowDiscriminatorEdge
  refine .next ?_
  try dsimp only
  repeat' first
    | with_reducible exact Keeps.refl _
    | assumption
    | simp only [Keeps.upd_iff]
    | with_reducible apply Keeps.after (modChan_keeps ..)
    | with_reducible apply Keeps.after (modTile_keeps ..)
    | (intro _ _; try dsimp only)
    | (split <;> try dsimp only)

theorem logReject_keeps (ch conv : Nat) (f : Factors) (s : State) :
    Keeps s (logReject ch conv f s) := by
  unfold logReject
  try dsimp only
  repeat' first
    | with_reducible exact Keeps.refl _
    | assumption
    | simp only [Keeps.upd_iff]
    | with_reducible apply Keeps.after (logEv_keeps ..)
    | (split <;> try dsimp only)

theorem execTdcCalibrationDone_keeps (ch : Fin 256) (rise fall : Factors) (s : State) :
    KeepsO s (execTdcCalibrationDone ch rise fall s) := by
  unfold execTdcCalibrationDone
  refine .next ?_
  try dsimp only
  repeat' first
    | with_reducible exact Keeps.refl _
    | assumption
    | simp only [Keeps.upd_iff]
    | with_reducible apply Keeps.after (modChan_keeps ..)
    | with_reducible apply Keeps.after (logReject_keeps ..)
    | (split <;> try dsimp only)

end Sys2Proof
end

