-- ==== Sys2Proof/Laws/KeepsEs.lean ====
section
/-! SUPPORT. Every operation and meaning of Machine/Es.lean keeps the queue, the drawn values, the trace and the invariant. -/

namespace Sys2Proof

/-! One proof at a time: proofs that wait on one another each hold a thread of their own. -/
set_option Elab.async false

open Sys2Proof.Machine

theorem esDeny_keeps (s : State) : Keeps s (esDeny s) := by
  have h : Keeps s { s with es.permit := false, shot.granted := false } :=
    ⟨rfl, Nat.le_refl _, List.suffix_refl _, fun i => ⟨i.1, i.2.1, i.2.2.1, rfl⟩, rfl, fun _ => rfl⟩
  unfold esDeny
  dsimp only
  split
  · exact ((cutPulses_keeps ..).after (emit_keeps _ _ rfl)).after h
  · exact h

theorem esTrip_keeps (c : Nat) (s : State) :
    Keeps s (esTrip c s) := by
  unfold esTrip
  try dsimp only
  repeat' first
    | with_reducible exact Keeps.refl _
    | assumption
    | simp only [Keeps.upd_iff]
    | with_reducible apply Keeps.after (logEv_keeps ..)
    | with_reducible apply Keeps.after (raiseIrq_keeps ..)
    | with_reducible apply Keeps.after (esDeny_keeps ..)

theorem esArise_keeps (c : Nat) (s : State) :
    Keeps s (esArise c s) := by
  unfold esArise
  try dsimp only
  repeat' first
    | with_reducible exact Keeps.refl _
    | assumption
    | simp only [Keeps.upd_iff]
    | ((with_reducible apply Keeps.after (foldl_keeps ?_)) <;> try dsimp only)
    | with_reducible apply Keeps.after (esTrip_keeps ..)
    | (intro _ _; try dsimp only)
    | (split <;> try dsimp only)

theorem takeCauses_keeps (s : State) :
    Keeps s (takeCauses s) := by
  unfold takeCauses
  try dsimp only
  repeat' first
    | with_reducible exact Keeps.refl _
    | assumption
    | simp only [Keeps.upd_iff]
    | with_reducible apply Keeps.after (esArise_keeps ..)
    | (intro _ _; try dsimp only)
    | (split <;> try dsimp only)

theorem esClear_keeps (c : Nat) (s : State) :
    Keeps s (esClear c s) := by
  unfold esClear
  try dsimp only
  repeat' first
    | with_reducible exact Keeps.refl _
    | assumption
    | simp only [Keeps.upd_iff]
    | with_reducible apply Keeps.after (logEv_keeps ..)
    | with_reducible apply Keeps.after (raiseIrq_keeps ..)
    | with_reducible apply Keeps.after (takeCauses_keeps ..)
    | (intro _ _; try dsimp only)
    | (split <;> try dsimp only)

/-- The grant: a pulse does not leave with it. -/
theorem esGrant_calm (path : Nat) (s : State) : Calm s (esGrant path s) := by
  unfold esGrant
  have h : Calm s (emit (.permit true) { s with es.run := .permit, es.permit := true, es.rearm := none }) :=
    ⟨⟨rfl, Nat.le_refl _, List.suffix_cons _ _, fun i => ⟨i.1, i.2.1, i.2.2.1, rfl⟩, fun _ => rfl⟩, rfl⟩
  exact h.trans (logEv_keeps ..).calm

theorem cancelRearm_keeps (why : Nat) (s : State) :
    Keeps s (cancelRearm why s) := by
  unfold cancelRearm
  try dsimp only
  repeat' first
    | with_reducible exact Keeps.refl _
    | assumption
    | simp only [Keeps.upd_iff]
    | with_reducible apply Keeps.after (logEv_keeps ..)

theorem esLedger_keeps (port window group : Nat) (s : State) :
    Keeps s (esLedger port window group s) := by
  unfold esLedger
  try dsimp only
  repeat' first
    | with_reducible exact Keeps.refl _
    | assumption
    | simp only [Keeps.upd_iff]
    | with_reducible apply Keeps.after (esArise_keeps ..)
    | (split <;> try dsimp only)

theorem countPulse_keeps (p : Nat) (s : State) :
    Keeps s (countPulse p s) := by
  unfold countPulse
  try dsimp only
  repeat' first
    | with_reducible exact Keeps.refl _
    | assumption
    | simp only [Keeps.upd_iff]
    | ((with_reducible apply Keeps.after (forUpto_keeps ?_)) <;> try dsimp only)
    | with_reducible apply Keeps.after (esLedger_keeps ..)
    | (intro _ _; try dsimp only)
    | (split <;> try dsimp only)

theorem execEsPulseCount_keeps (port : Fin 128) (s : State) :
    KeepsO s (execEsPulseCount port s) := by
  unfold execEsPulseCount
  refine .next ?_
  try dsimp only
  repeat' first
    | with_reducible exact Keeps.refl _
    | assumption
    | simp only [Keeps.upd_iff]
    | with_reducible apply Keeps.after (countPulse_keeps ..)
    | (split <;> try dsimp only)

theorem execLedgerBucketClose_keeps (k : Fin 3) (s : State) :
    KeepsO s (execLedgerBucketClose k s) := by
  unfold execLedgerBucketClose
  refine .next ?_
  try dsimp only
  repeat' first
    | with_reducible exact Keeps.refl _
    | assumption
    | simp only [Keeps.upd_iff]
    | (split <;> try dsimp only)

theorem execEsCauseArises_keeps (c : Cause) (s : State) :
    KeepsO s (execEsCauseArises c s) := by
  unfold execEsCauseArises
  refine .next ?_
  try dsimp only
  repeat' first
    | with_reducible exact Keeps.refl _
    | assumption
    | simp only [Keeps.upd_iff]
    | with_reducible apply Keeps.after (esArise_keeps ..)
    | (split <;> try dsimp only)

theorem execEsCauseClears_keeps (c : Cause) (s : State) :
    KeepsO s (execEsCauseClears c s) := by
  unfold execEsCauseClears
  refine .next ?_
  try dsimp only
  repeat' first
    | with_reducible exact Keeps.refl _
    | assumption
    | simp only [Keeps.upd_iff]
    | with_reducible apply Keeps.after (esClear_keeps ..)
    | (split <;> try dsimp only)

theorem execPowerupHoldEnd_keeps (s : State) :
    KeepsO s (execPowerupHoldEnd s) := by
  unfold execPowerupHoldEnd
  refine .next ?_
  try dsimp only
  repeat' first
    | with_reducible exact Keeps.refl _
    | assumption
    | simp only [Keeps.upd_iff]
    | with_reducible apply Keeps.after (esClear_keeps ..)
    | (split <;> try dsimp only)

theorem execEsClockCheck_keeps (ppm : Int) (railOk : Bool) (s : State) :
    KeepsO s (execEsClockCheck ppm railOk s) := by
  unfold execEsClockCheck
  refine .next ?_
  try dsimp only
  repeat' first
    | with_reducible exact Keeps.refl _
    | assumption
    | simp only [Keeps.upd_iff]
    | with_reducible apply Keeps.after (esArise_keeps ..)
    | (split <;> try dsimp only)

theorem execEsSelftest_keeps (ok : Bool) (s : State) :
    KeepsO s (execEsSelftest ok s) := by
  unfold execEsSelftest
  refine .next ?_
  try dsimp only
  repeat' first
    | with_reducible exact Keeps.refl _
    | assumption
    | simp only [Keeps.upd_iff]
    | with_reducible apply Keeps.after (esArise_keeps ..)
    | with_reducible apply Keeps.after (esClear_keeps ..)
    | (split <;> try dsimp only)

theorem execEsCrcCheck_keeps (crc : BitVec 32) (s : State) :
    KeepsO s (execEsCrcCheck crc s) := by
  unfold execEsCrcCheck
  refine .next ?_
  try dsimp only
  repeat' first
    | with_reducible exact Keeps.refl _
    | assumption
    | simp only [Keeps.upd_iff]
    | with_reducible apply Keeps.after (esArise_keeps ..)
    | with_reducible apply Keeps.after (esClear_keeps ..)
    | (intro _ _; try dsimp only)
    | (split <;> try dsimp only)

theorem execEsPowerOn_keeps (selfTestOk : Bool) (crc : BitVec 32) (s : State) :
    KeepsO s (execEsPowerOn selfTestOk crc s) := by
  unfold execEsPowerOn
  refine .next ?_
  try dsimp only
  repeat' first
    | with_reducible exact Keeps.refl _
    | assumption
    | simp only [Keeps.upd_iff]
    | with_reducible apply Keeps.after (esArise_keeps ..)
    | with_reducible apply Keeps.after (esDeny_keeps ..)
    | (intro _ _; try dsimp only)
    | (split <;> try dsimp only)

theorem esLock_keeps (s : State) :
    Keeps s (esLock s) := by
  unfold esLock
  try dsimp only
  repeat' first
    | with_reducible exact Keeps.refl _
    | assumption
    | simp only [Keeps.upd_iff]

theorem execEsUnlockTimeout_keeps (s : State) :
    KeepsO s (execEsUnlockTimeout s) := by
  unfold execEsUnlockTimeout
  refine .next ?_
  try dsimp only
  repeat' first
    | with_reducible exact Keeps.refl _
    | assumption
    | simp only [Keeps.upd_iff]
    | with_reducible apply Keeps.after (esLock_keeps ..)
    | (split <;> try dsimp only)

theorem execUnlockRefusalEnd_keeps (s : State) :
    KeepsO s (execUnlockRefusalEnd s) := by
  unfold execUnlockRefusalEnd
  refine .next ?_
  try dsimp only
  repeat' first
    | with_reducible exact Keeps.refl _
    | assumption
    | simp only [Keeps.upd_iff]
    | (split <;> try dsimp only)

theorem execSafeAckFall_keeps (s : State) :
    KeepsO s (execSafeAckFall s) := by
  unfold execSafeAckFall
  refine .next ?_
  try dsimp only
  repeat' first
    | with_reducible exact Keeps.refl _
    | assumption
    | simp only [Keeps.upd_iff]
    | (intro _ _; try dsimp only)
    | (split <;> try dsimp only)

theorem execSafeAckRise_calm (s : State) : CalmO s (execSafeAckRise s) := by
  have h : Keeps s { takeCauses s with es.ack := some true, es.ackLow := none } := (takeCauses_keeps s).upd
  unfold execSafeAckRise
  refine .next ?_
  split
  · exact (Keeps.refl s).calm
  · dsimp only
    split
    · exact h.calm.trans (esGrant_calm 0 _)
    · exact h.calm

theorem execRearmTimeout_keeps (s : State) :
    KeepsO s (execRearmTimeout s) := by
  unfold execRearmTimeout
  refine .next ?_
  try dsimp only
  repeat' first
    | with_reducible exact Keeps.refl _
    | assumption
    | simp only [Keeps.upd_iff]
    | with_reducible apply Keeps.after (tick_keeps ..)
    | with_reducible apply Keeps.after (cancelRearm_keeps ..)
    | (split <;> try dsimp only)

theorem execEsStateMessageSend_keeps (s : State) :
    KeepsO s (execEsStateMessageSend s) := by
  unfold execEsStateMessageSend
  refine .next ?_
  try dsimp only
  repeat' first
    | with_reducible exact Keeps.refl _
    | assumption
    | simp only [Keeps.upd_iff]
    | with_reducible apply Keeps.after (broadcast_keeps ..)
    | (split <;> try dsimp only)

theorem degradePath_keeps (node : Nat) (s : State) :
    Keeps s (degradePath node s) := by
  unfold degradePath
  try dsimp only
  repeat' first
    | with_reducible exact Keeps.refl _
    | assumption
    | simp only [Keeps.upd_iff]
    | with_reducible apply Keeps.after (logEv_keeps ..)
    | with_reducible apply Keeps.after (raiseIrq_keeps ..)
    | with_reducible apply Keeps.after (esArise_keeps ..)
    | (split <;> try dsimp only)

theorem healPath_keeps (node : Nat) (s : State) :
    Keeps s (healPath node s) := by
  unfold healPath
  try dsimp only
  repeat' first
    | with_reducible exact Keeps.refl _
    | assumption
    | simp only [Keeps.upd_iff]
    | with_reducible apply Keeps.after (esClear_keeps ..)
    | (split <;> try dsimp only)

theorem takeStateMessage_keeps (m : Bytes) (s : State) :
    Keeps s (takeStateMessage m s) := by
  unfold takeStateMessage
  try dsimp only
  repeat' first
    | with_reducible exact Keeps.refl _
    | assumption
    | simp only [Keeps.upd_iff]
    | with_reducible apply Keeps.after (degradePath_keeps ..)
    | with_reducible apply Keeps.after (healPath_keeps ..)
    | (intro _ _; try dsimp only)
    | (split <;> try dsimp only)

theorem takeInbox_keeps' {cls typ : Nat} {s t : State} {m : RingMessage} (hx : takeInbox cls typ s = some (m, t)) :
    Keeps s t := by
  unfold takeInbox at hx
  split at hx
  · cases hx
    exact (Keeps.refl s).upd
  · cases hx

theorem execEsStateMessage_keeps (s : State) :
    KeepsO s (execEsStateMessage s) := by
  unfold execEsStateMessage
  refine .next ?_
  try dsimp only
  repeat' first
    | with_reducible exact Keeps.refl _
    | assumption
    | simp only [Keeps.upd_iff]
    | with_reducible apply Keeps.after (takeStateMessage_keeps ..)
    | refine Keeps.trans ?_ (takeInbox_keeps' (by assumption))
    | (split <;> try dsimp only)

theorem execSafePathTimeout_keeps (node : BitVec 16) (ring : Fin 2) (s : State) :
    KeepsO s (execSafePathTimeout node ring s) := by
  unfold execSafePathTimeout
  refine .next ?_
  try dsimp only
  repeat' first
    | with_reducible exact Keeps.refl _
    | assumption
    | simp only [Keeps.upd_iff]
    | with_reducible apply Keeps.after (tick_keeps ..)
    | with_reducible apply Keeps.after (degradePath_keeps ..)
    | (split <;> try dsimp only)

theorem execEsStatus_keeps (mb : Fin 8) (s : State) :
    KeepsO s (execEsStatus mb s) := by
  unfold execEsStatus
  refine runCommand_keeps fun o j p u => ?_
  try dsimp only
  repeat' first
    | with_reducible exact Keeps.refl _
    | assumption
    | simp only [Keeps.upd_iff]
    | ((with_reducible apply Keeps.after (checked_keeps ?_)) <;> try dsimp only)

theorem unlock_keeps (slot : Nat) (pw : Bytes) (s : State) :
    Keeps s (unlock slot pw s).1 := by
  unfold unlock
  try dsimp only
  repeat' first
    | with_reducible exact Keeps.refl _
    | assumption
    | simp only [Keeps.upd_iff]
    | with_reducible apply Keeps.after (logEv_keeps ..)
    | (split <;> try dsimp only)

theorem unlock_keeps' {slot : Nat} {pw : Bytes} {s : State} {t : State} {x} (hx : unlock slot pw s = (t, x)) : Keeps s t := by
  have e := unlock_keeps slot pw s
  rw [hx] at e
  exact e

theorem execEsUnlock_keeps (mb : Fin 8) (s : State) :
    KeepsO s (execEsUnlock mb s) := by
  unfold execEsUnlock
  refine runCommand_keeps fun o j p u => ?_
  try dsimp only
  repeat' first
    | with_reducible exact Keeps.refl _
    | assumption
    | simp only [Keeps.upd_iff]
    | ((with_reducible apply Keeps.after (checked_keeps ?_)) <;> try dsimp only)
    | with_reducible apply Keeps.after (unlock_keeps ..)

theorem execEsLock_keeps (mb : Fin 8) (s : State) :
    KeepsO s (execEsLock mb s) := by
  unfold execEsLock
  refine runCommand_keeps fun o j p u => ?_
  try dsimp only
  repeat' first
    | with_reducible exact Keeps.refl _
    | assumption
    | simp only [Keeps.upd_iff]
    | ((with_reducible apply Keeps.after (checked_keeps ?_)) <;> try dsimp only)
    | with_reducible apply Keeps.after (esLock_keeps ..)

theorem execEsStage_keeps (mb : Fin 8) (s : State) :
    KeepsO s (execEsStage mb s) := by
  unfold execEsStage
  refine runCommand_keeps fun o j p u => ?_
  try dsimp only
  repeat' first
    | with_reducible exact Keeps.refl _
    | assumption
    | simp only [Keeps.upd_iff]
    | ((with_reducible apply Keeps.after (checked_keeps ?_)) <;> try dsimp only)
    | (split <;> try dsimp only)

theorem appendLog_keeps (slot param old new : Nat) (s : State) :
    Keeps s (appendLog slot param old new s).2 := by
  unfold appendLog
  try dsimp only
  repeat' first
    | with_reducible exact Keeps.refl _
    | assumption
    | simp only [Keeps.upd_iff]
    | with_reducible apply Keeps.after (nvWrite_keeps ..)
    | refine Keeps.trans ?_ (nvWrite_keeps' (by assumption))
    | (split <;> try dsimp only)

theorem appendLog_keeps' {slot param old new : Nat} {s : State} {x} {t : State} (hx : appendLog slot param old new s = (x, t)) : Keeps s t := by
  have e := appendLog_keeps slot param old new s
  rw [hx] at e
  exact e

theorem logChanges_keeps (l : List (Nat × Bytes)) (s : State) : Keeps s (logChanges l s).2 := by
  induction l generalizing s with
  | nil => exact .refl s
  | cons e l ih =>
    unfold logChanges
    dsimp only
    split
    · exact Keeps.after (ih _) (appendLog_keeps ..)
    · exact appendLog_keeps ..

theorem logChanges_keeps' {l : List (Nat × Bytes)} {s : State} {x} {t : State} (hx : logChanges l s = (x, t)) :
    Keeps s t := by
  have e := logChanges_keeps l s
  rw [hx] at e
  exact e

theorem refold_keeps (old : EsConfig) (s : State) :
    Keeps s (refold old s) := by
  unfold refold
  try dsimp only
  repeat' first
    | with_reducible exact Keeps.refl _
    | assumption
    | simp only [Keeps.upd_iff]
    | ((with_reducible apply Keeps.after (forUpto_keeps ?_)) <;> try dsimp only)
    | (intro _ _; try dsimp only)
    | (split <;> try dsimp only)

theorem applyConfig_keeps (cfg : EsConfig) (s : State) :
    Keeps s (applyConfig cfg s) := by
  unfold applyConfig
  try dsimp only
  repeat' first
    | with_reducible exact Keeps.refl _
    | assumption
    | simp only [Keeps.upd_iff]
    | with_reducible apply Keeps.after (esClear_keeps ..)
    | with_reducible apply Keeps.after (esLedger_keeps ..)
    | with_reducible apply Keeps.after (refold_keeps ..)
    | (intro _ _; try dsimp only)
    | (split <;> try dsimp only)

theorem commitConfig_keeps (s : State) :
    Keeps s (commitConfig s).1 := by
  unfold commitConfig
  try dsimp only
  repeat' first
    | with_reducible exact Keeps.refl _
    | assumption
    | simp only [Keeps.upd_iff]
    | with_reducible apply Keeps.after (logEv_keeps ..)
    | with_reducible apply Keeps.after (nvWrite_keeps ..)
    | refine Keeps.trans ?_ (nvWrite_keeps' (by assumption))
    | with_reducible apply Keeps.after (logChanges_keeps ..)
    | refine Keeps.trans ?_ (logChanges_keeps' (by assumption))
    | with_reducible apply Keeps.after (applyConfig_keeps ..)
    | (split <;> try dsimp only)

theorem commitConfig_keeps' {s : State} {t : State} {x} (hx : commitConfig s = (t, x)) : Keeps s t := by
  have e := commitConfig_keeps s
  rw [hx] at e
  exact e

theorem execEsCommit_keeps (mb : Fin 8) (s : State) :
    KeepsO s (execEsCommit mb s) := by
  unfold execEsCommit
  refine runCommand_keeps fun o j p u => ?_
  try dsimp only
  repeat' first
    | with_reducible exact Keeps.refl _
    | assumption
    | simp only [Keeps.upd_iff]
    | ((with_reducible apply Keeps.after (checked_keeps ?_)) <;> try dsimp only)
    | with_reducible apply Keeps.after (commitConfig_keeps ..)

theorem rearm_keeps (o : Nat × Nat) (jseq : Nat) (s : State) :
    Keeps s (rearm o jseq s).1 := by
  unfold rearm
  try dsimp only
  repeat' first
    | with_reducible exact Keeps.refl _
    | assumption
    | simp only [Keeps.upd_iff]
    | with_reducible apply Keeps.after (cancelRearm_keeps ..)
    | refine Keeps.trans ?_ (drawFree_keeps' (by assumption))
    | with_reducible apply Keeps.after (drawFree_keeps ..)
    | with_reducible apply Keeps.after (logEv_keeps ..)
    | with_reducible apply Keeps.after (takeCauses_keeps ..)
    | (intro _ _; try dsimp only)
    | (split <;> try dsimp only)

theorem rearm_keeps' {o : Nat × Nat} {jseq : Nat} {s : State} {t : State} {x} (hx : rearm o jseq s = (t, x)) : Keeps s t := by
  have e := rearm_keeps o jseq s
  rw [hx] at e
  exact e

theorem execEsRearm_keeps (mb : Fin 8) (s : State) :
    KeepsO s (execEsRearm mb s) := by
  unfold execEsRearm
  refine runCommand_keeps fun o j p u => ?_
  try dsimp only
  repeat' first
    | with_reducible exact Keeps.refl _
    | assumption
    | simp only [Keeps.upd_iff]
    | ((with_reducible apply Keeps.after (checked_keeps ?_)) <;> try dsimp only)
    | with_reducible apply Keeps.after (rearm_keeps ..)
    | refine Keeps.trans ?_ (rearm_keeps' (by assumption))
    | (intro _ _; try dsimp only)
    | (split <;> try dsimp only)

theorem confirm_calm (o : Nat × Nat) (tok jseq : Nat) (s : State) : Calm s (confirm o tok jseq s).1 := by
  have h := takeCauses_keeps s
  unfold confirm
  dsimp only
  repeat' split
  all_goals first
    | exact h.calm
    | exact (h.trans (cancelRearm_keeps ..)).calm
    | exact h.calm.trans (esGrant_calm 1 _)

theorem execEsConfirm_calm (mb : Fin 8) (s : State) : CalmO s (execEsConfirm mb s) := by
  unfold execEsConfirm
  refine runCommand_calm fun o j p u => ?_
  unfold checked
  split
  · exact (Keeps.refl u).calm
  · exact confirm_calm ..

theorem execEsTrip_keeps (mb : Fin 8) (s : State) :
    KeepsO s (execEsTrip mb s) := by
  unfold execEsTrip
  refine runCommand_keeps fun o j p u => ?_
  try dsimp only
  repeat' first
    | with_reducible exact Keeps.refl _
    | assumption
    | simp only [Keeps.upd_iff]
    | ((with_reducible apply Keeps.after (checked_keeps ?_)) <;> try dsimp only)
    | with_reducible apply Keeps.after (esArise_keeps ..)

theorem setPassword_keeps (slot : Nat) (pw : Bytes) (s : State) :
    Keeps s (setPassword slot pw s).1 := by
  unfold setPassword
  try dsimp only
  repeat' first
    | with_reducible exact Keeps.refl _
    | assumption
    | simp only [Keeps.upd_iff]
    | with_reducible apply Keeps.after (appendLog_keeps ..)
    | refine Keeps.trans ?_ (appendLog_keeps' (by assumption))
    | refine Keeps.trans ?_ (drawFree_keeps' (by assumption))
    | with_reducible apply Keeps.after (drawFree_keeps ..)
    | with_reducible apply Keeps.after (nvWrite_keeps ..)
    | refine Keeps.trans ?_ (nvWrite_keeps' (by assumption))
    | (intro _ _; try dsimp only)
    | (split <;> try dsimp only)

theorem setPassword_keeps' {slot : Nat} {pw : Bytes} {s : State} {t : State} {x} (hx : setPassword slot pw s = (t, x)) : Keeps s t := by
  have e := setPassword_keeps slot pw s
  rw [hx] at e
  exact e

theorem execEsSetPassword_keeps (mb : Fin 8) (s : State) :
    KeepsO s (execEsSetPassword mb s) := by
  unfold execEsSetPassword
  refine runCommand_keeps fun o j p u => ?_
  try dsimp only
  repeat' first
    | with_reducible exact Keeps.refl _
    | assumption
    | simp only [Keeps.upd_iff]
    | ((with_reducible apply Keeps.after (checked_keeps ?_)) <;> try dsimp only)
    | with_reducible apply Keeps.after (setPassword_keeps ..)

theorem execEsChangelogRead_keeps (mb : Fin 8) (s : State) :
    KeepsO s (execEsChangelogRead mb s) := by
  unfold execEsChangelogRead
  refine runCommand_keeps fun o j p u => ?_
  try dsimp only
  repeat' first
    | with_reducible exact Keeps.refl _
    | assumption
    | simp only [Keeps.upd_iff]
    | ((with_reducible apply Keeps.after (checked_keeps ?_)) <;> try dsimp only)

theorem execEsLedgerRead_keeps (mb : Fin 8) (s : State) :
    KeepsO s (execEsLedgerRead mb s) := by
  unfold execEsLedgerRead
  refine runCommand_keeps fun o j p u => ?_
  try dsimp only
  repeat' first
    | with_reducible exact Keeps.refl _
    | assumption
    | simp only [Keeps.upd_iff]
    | ((with_reducible apply Keeps.after (checked_keeps ?_)) <;> try dsimp only)

end Sys2Proof
end

