-- ==== Sys2Proof/Laws/KeepsFilters.lean ====
section
/-! SUPPORT. Every operation and meaning of Machine/Filters.lean keeps the queue, the drawn values, the trace and the invariant. -/

namespace Sys2Proof

/-! One proof at a time: proofs that wait on one another each hold a thread of their own. -/
set_option Elab.async false

open Sys2Proof.Machine

theorem feedHk_keeps (ch : Nat) (code : Int) (s : State) :
    Keeps s (feedHk ch code s) := by
  unfold feedHk
  try dsimp only
  repeat' first
    | with_reducible exact Keeps.refl _
    | assumption
    | simp only [Keeps.upd_iff]
    | ((with_reducible apply Keeps.after (forUpto_keeps ?_)) <;> try dsimp only)
    | with_reducible apply Keeps.after (modChain_keeps ..)
    | (intro _ _; try dsimp only)
    | (split <;> try dsimp only)

theorem filtConfig_keeps (p : Bytes) (s : State) :
    Keeps s (filtConfig p s).1 := by
  unfold filtConfig
  try dsimp only
  repeat' first
    | with_reducible exact Keeps.refl _
    | assumption
    | simp only [Keeps.upd_iff]
    | with_reducible apply Keeps.after (modChain_keeps ..)
    | (split <;> try dsimp only)

theorem filtConfig_keeps' {p : Bytes} {s : State} {t : State} {x} (hx : filtConfig p s = (t, x)) : Keeps s t := by
  have e := filtConfig_keeps p s
  rw [hx] at e
  exact e

theorem execFiltConfig_keeps (mb : Fin 8) (s : State) :
    KeepsO s (execFiltConfig mb s) := by
  unfold execFiltConfig
  refine runCommand_keeps fun o j p u => ?_
  try dsimp only
  repeat' first
    | with_reducible exact Keeps.refl _
    | assumption
    | simp only [Keeps.upd_iff]
    | ((with_reducible apply Keeps.after (checked_keeps ?_)) <;> try dsimp only)
    | with_reducible apply Keeps.after (filtConfig_keeps ..)

theorem filtControl_keeps (j : Nat) (p : Bytes) (s : State) :
    Keeps s (filtControl j p s).1 := by
  unfold filtControl
  try dsimp only
  repeat' first
    | with_reducible exact Keeps.refl _
    | assumption
    | simp only [Keeps.upd_iff]
    | ((with_reducible apply Keeps.after (forEach_keeps ?_)) <;> try dsimp only)
    | with_reducible apply Keeps.after (modChain_keeps ..)
    | (intro _ _; try dsimp only)
    | (split <;> try dsimp only)

theorem filtControl_keeps' {j : Nat} {p : Bytes} {s : State} {t : State} {x} (hx : filtControl j p s = (t, x)) : Keeps s t := by
  have e := filtControl_keeps j p s
  rw [hx] at e
  exact e

theorem execDetConfig_keeps (mb : Fin 8) (s : State) :
    KeepsO s (execDetConfig mb s) := by
  unfold execDetConfig
  refine runCommand_keeps fun o j p u => ?_
  try dsimp only
  repeat' first
    | with_reducible exact Keeps.refl _
    | assumption
    | simp only [Keeps.upd_iff]
    | ((with_reducible apply Keeps.after (checked_keeps ?_)) <;> try dsimp only)
    | with_reducible apply Keeps.after (modChain_keeps ..)

end Sys2Proof
end

