-- ==== Sys2Proof/Laws/KeepsLoop.lean ====
section
/-! SUPPORT. Every operation and meaning of Machine/Loop.lean keeps the queue, the drawn values, the trace and the invariant. -/

namespace Sys2Proof

/-! One proof at a time: proofs that wait on one another each hold a thread of their own. -/
set_option Elab.async false

open Sys2Proof.Machine

theorem convertTo_keeps (q15 : Bool) (bank : Nat) (preset : Option Int) (s : State) :
    Keeps s (convertTo q15 bank preset s) := by
  unfold convertTo
  try dsimp only
  repeat' first
    | with_reducible exact Keeps.refl _
    | assumption
    | simp only [Keeps.upd_iff]

theorem commutate_keeps (s : State) :
    Keeps s (commutate s) := by
  unfold commutate
  try dsimp only
  repeat' first
    | with_reducible exact Keeps.refl _
    | assumption
    | simp only [Keeps.upd_iff]
    | (intro _ _; try dsimp only)
    | (split <;> try dsimp only)

theorem applyDrive_keeps (code : Int) (s : State) :
    Keeps s (applyDrive code s) := by
  unfold applyDrive
  try dsimp only
  repeat' first
    | with_reducible exact Keeps.refl _
    | assumption
    | simp only [Keeps.upd_iff]
    | with_reducible apply Keeps.after (commutate_keeps ..)
    | (intro _ _; try dsimp only)
    | (split <;> try dsimp only)

theorem driveOff_keeps (s : State) :
    Keeps s (driveOff s) := by
  unfold driveOff
  try dsimp only
  repeat' first
    | with_reducible exact Keeps.refl _
    | assumption
    | simp only [Keeps.upd_iff]
    | (intro _ _; try dsimp only)
    | (split <;> try dsimp only)

theorem loopFault_keeps (cause : Nat) (s : State) :
    Keeps s (loopFault cause s) := by
  unfold loopFault
  try dsimp only
  repeat' first
    | with_reducible exact Keeps.refl _
    | assumption
    | simp only [Keeps.upd_iff]
    | with_reducible apply Keeps.after (logEv_keeps ..)
    | with_reducible apply Keeps.after (stopPredictor_keeps ..)
    | (intro _ _; try dsimp only)
    | (split <;> try dsimp only)

theorem stallCheck_keeps (c : Nat) (s : State) :
    Keeps s (stallCheck c s) := by
  unfold stallCheck
  try dsimp only
  repeat' first
    | with_reducible exact Keeps.refl _
    | assumption
    | simp only [Keeps.upd_iff]
    | with_reducible apply Keeps.after (loopFault_keeps ..)
    | (intro _ _; try dsimp only)
    | (split <;> try dsimp only)

theorem trackCheck_keeps (e : Exact) (s : State) :
    Keeps s (trackCheck e s) := by
  unfold trackCheck
  try dsimp only
  repeat' first
    | with_reducible exact Keeps.refl _
    | assumption
    | simp only [Keeps.upd_iff]
    | with_reducible apply Keeps.after (loopFault_keeps ..)
    | (intro _ _; try dsimp only)
    | (split <;> try dsimp only)

theorem dacCheck_keeps (readback : Int) (s : State) :
    Keeps s (dacCheck readback s) := by
  unfold dacCheck
  try dsimp only
  repeat' first
    | with_reducible exact Keeps.refl _
    | assumption
    | simp only [Keeps.upd_iff]
    | with_reducible apply Keeps.after (loopFault_keeps ..)
    | (intro _ _; try dsimp only)
    | (split <;> try dsimp only)

theorem execPwmCycleStart_keeps (levels : BitVec 3) (s : State) :
    KeepsO s (execPwmCycleStart levels s) := by
  unfold execPwmCycleStart
  refine .next ?_
  try dsimp only
  repeat' first
    | with_reducible exact Keeps.refl _
    | assumption
    | simp only [Keeps.upd_iff]
    | with_reducible apply Keeps.after (loopFault_keeps ..)
    | (intro _ _; try dsimp only)
    | (split <;> try dsimp only)

theorem endControl_keeps (status jseq : Nat) (s : State) :
    Keeps s (endControl status jseq s) := by
  unfold endControl
  try dsimp only
  repeat' first
    | with_reducible exact Keeps.refl _
    | assumption
    | simp only [Keeps.upd_iff]
    | with_reducible apply Keeps.after (finish_keeps ..)
    | (intro _ _; try dsimp only)
    | (split <;> try dsimp only)

theorem enterLoop_keeps (r : LoopRun) (s : State) :
    Keeps s (enterLoop r s) := by
  unfold enterLoop
  try dsimp only
  repeat' first
    | with_reducible exact Keeps.refl _
    | assumption
    | simp only [Keeps.upd_iff]
    | (intro _ _; try dsimp only)
    | (split <;> try dsimp only)

theorem stopLoop_keeps (s : State) :
    Keeps s (stopLoop s) := by
  unfold stopLoop
  try dsimp only
  repeat' first
    | with_reducible exact Keeps.refl _
    | assumption
    | simp only [Keeps.upd_iff]
    | with_reducible apply Keeps.after (driveOff_keeps ..)
    | with_reducible apply Keeps.after (enterLoop_keeps ..)
    | with_reducible apply Keeps.after (stopPredictor_keeps ..)
    | (intro _ _; try dsimp only)
    | (split <;> try dsimp only)

theorem startLoop_keeps (s : State) :
    Keeps s (startLoop s) := by
  unfold startLoop
  try dsimp only
  repeat' first
    | with_reducible exact Keeps.refl _
    | assumption
    | simp only [Keeps.upd_iff]
    | with_reducible apply Keeps.after (enterLoop_keeps ..)
    | with_reducible apply Keeps.after (sendTc_keeps ..)
    | (intro _ _; try dsimp only)
    | (split <;> try dsimp only)

theorem alignRef_keeps (s : State) :
    Keeps s (alignRef s) := by
  unfold alignRef
  try dsimp only
  repeat' first
    | with_reducible exact Keeps.refl _
    | assumption
    | simp only [Keeps.upd_iff]
    | (intro _ _; try dsimp only)
    | (split <;> try dsimp only)

theorem serveLoop_keeps (s : State) :
    Keeps s (serveLoop s) := by
  unfold serveLoop
  try dsimp only
  repeat' first
    | with_reducible exact Keeps.refl _
    | assumption
    | simp only [Keeps.upd_iff]
    | with_reducible apply Keeps.after (alignRef_keeps ..)
    | with_reducible apply Keeps.after (convertTo_keeps ..)
    | with_reducible apply Keeps.after (enterLoop_keeps ..)
    | (intro _ _; try dsimp only)
    | (split <;> try dsimp only)

theorem autoLoop_keeps (s : State) :
    Keeps s (autoLoop s) := by
  unfold autoLoop
  try dsimp only
  repeat' first
    | with_reducible exact Keeps.refl _
    | assumption
    | simp only [Keeps.upd_iff]
    | with_reducible apply Keeps.after (alignRef_keeps ..)
    | with_reducible apply Keeps.after (enterLoop_keeps ..)
    | (intro _ _; try dsimp only)
    | (split <;> try dsimp only)

theorem recoverLoop_keeps (s : State) :
    Keeps s (recoverLoop s) := by
  unfold recoverLoop
  try dsimp only
  repeat' first
    | with_reducible exact Keeps.refl _
    | assumption
    | simp only [Keeps.upd_iff]
    | with_reducible apply Keeps.after (convertTo_keeps ..)
    | with_reducible apply Keeps.after (enterLoop_keeps ..)
    | with_reducible apply Keeps.after (sendTc_keeps ..)
    | (intro _ _; try dsimp only)
    | (split <;> try dsimp only)

theorem faultLoop_keeps (s : State) :
    Keeps s (faultLoop s) := by
  unfold faultLoop
  try dsimp only
  repeat' first
    | with_reducible exact Keeps.refl _
    | assumption
    | simp only [Keeps.upd_iff]
    | with_reducible apply Keeps.after (driveOff_keeps ..)
    | with_reducible apply Keeps.after (enterLoop_keeps ..)
    | (intro _ _; try dsimp only)
    | (split <;> try dsimp only)

theorem swapBank_keeps (s : State) :
    Keeps s (swapBank s) := by
  unfold swapBank
  try dsimp only
  repeat' first
    | with_reducible exact Keeps.refl _
    | assumption
    | simp only [Keeps.upd_iff]
    | with_reducible apply Keeps.after (convertTo_keeps ..)
    | with_reducible apply Keeps.after (logEv_keeps ..)
    | (intro _ _; try dsimp only)
    | (split <;> try dsimp only)

theorem manualLoop_keeps (drive : Int) (s : State) :
    Keeps s (manualLoop drive s) := by
  unfold manualLoop
  try dsimp only
  repeat' first
    | with_reducible exact Keeps.refl _
    | assumption
    | simp only [Keeps.upd_iff]
    | with_reducible apply Keeps.after (applyDrive_keeps ..)
    | with_reducible apply Keeps.after (enterLoop_keeps ..)
    | with_reducible apply Keeps.after (sendTc_keeps ..)
    | (intro _ _; try dsimp only)
    | (split <;> try dsimp only)

theorem takeAction_keeps (faulted : Bool) (a : LoopAction) (s : State) :
    Keeps s (takeAction faulted a s) := by
  unfold takeAction
  try dsimp only
  repeat' first
    | with_reducible exact Keeps.refl _
    | assumption
    | simp only [Keeps.upd_iff]
    | with_reducible apply Keeps.after (autoLoop_keeps ..)
    | with_reducible apply Keeps.after (driveOff_keeps ..)
    | with_reducible apply Keeps.after (endControl_keeps ..)
    | with_reducible apply Keeps.after (enterLoop_keeps ..)
    | with_reducible apply Keeps.after (manualLoop_keeps ..)
    | with_reducible apply Keeps.after (startLoop_keeps ..)
    | with_reducible apply Keeps.after (stopLoop_keeps ..)
    | with_reducible apply Keeps.after (stopPredictor_keeps ..)
    | with_reducible apply Keeps.after (swapBank_keeps ..)
    | (intro _ _; try dsimp only)
    | (split <;> try dsimp only)

theorem takeActions_keeps (faulted : Bool) (s : State) :
    Keeps s (takeActions faulted s) := by
  unfold takeActions
  try dsimp only
  repeat' first
    | with_reducible exact Keeps.refl _
    | assumption
    | simp only [Keeps.upd_iff]
    | ((with_reducible apply Keeps.after (forEach_keeps ?_)) <;> try dsimp only)
    | with_reducible apply Keeps.after (takeAction_keeps ..)
    | (intro _ _; try dsimp only)

theorem loopStates_keeps (s : State) :
    Keeps s (loopStates s) := by
  unfold loopStates
  try dsimp only
  repeat' first
    | with_reducible exact Keeps.refl _
    | assumption
    | simp only [Keeps.upd_iff]
    | with_reducible apply Keeps.after (faultLoop_keeps ..)
    | with_reducible apply Keeps.after (recoverLoop_keeps ..)
    | with_reducible apply Keeps.after (serveLoop_keeps ..)
    | with_reducible apply Keeps.after (takeActions_keeps ..)
    | (intro _ _; try dsimp only)
    | (split <;> try dsimp only)

theorem releasePeriod_keeps (s : State) :
    Keeps s (releasePeriod s) := by
  unfold releasePeriod
  try dsimp only
  repeat' first
    | with_reducible exact Keeps.refl _
    | assumption
    | simp only [Keeps.upd_iff]
    | with_reducible apply Keeps.after (applyDrive_keeps ..)
    | with_reducible apply Keeps.after (commutate_keeps ..)
    | with_reducible apply Keeps.after (driveOff_keeps ..)
    | (intro _ _; try dsimp only)
    | (split <;> try dsimp only)

theorem takeMinusE_keeps (s : State) :
    Keeps s (takeMinusE s) := by
  unfold takeMinusE
  try dsimp only
  repeat' first
    | with_reducible exact Keeps.refl _
    | assumption
    | simp only [Keeps.upd_iff]
    | (intro _ _; try dsimp only)
    | (split <;> try dsimp only)

theorem runEngine_keeps (e : Exact) (s : State) :
    Keeps s (runEngine e s) := by
  unfold runEngine
  try dsimp only
  repeat' first
    | with_reducible exact Keeps.refl _
    | assumption
    | simp only [Keeps.upd_iff]

theorem countPeriod_keeps (e : Exact) (s : State) :
    Keeps s (countPeriod e s) := by
  unfold countPeriod
  try dsimp only
  repeat' first
    | with_reducible exact Keeps.refl _
    | assumption
    | simp only [Keeps.upd_iff]

theorem omegaEnvelopes_keeps (s : State) :
    Keeps s (omegaEnvelopes s) := by
  unfold omegaEnvelopes
  try dsimp only
  repeat' first
    | with_reducible exact Keeps.refl _
    | assumption
    | simp only [Keeps.upd_iff]
    | ((with_reducible apply Keeps.after (forUpto_keeps ?_)) <;> try dsimp only)
    | with_reducible apply Keeps.after (modChain_keeps ..)
    | with_reducible apply Keeps.after (stallCheck_keeps ..)
    | (intro _ _; try dsimp only)
    | (split <;> try dsimp only)

theorem clearLoopStatus_keeps (s : State) :
    Keeps s (clearLoopStatus s) := by
  unfold clearLoopStatus
  try dsimp only
  repeat' first
    | with_reducible exact Keeps.refl _
    | assumption
    | simp only [Keeps.upd_iff]
    | with_reducible apply Keeps.after (modChain_keeps ..)

theorem takeReads_keeps (s : State) :
    Keeps s (takeReads s) := by
  unfold takeReads
  try dsimp only
  repeat' first
    | with_reducible exact Keeps.refl _
    | assumption
    | simp only [Keeps.upd_iff]
    | ((with_reducible apply Keeps.after (forEach_keeps ?_)) <;> try dsimp only)
    | with_reducible apply Keeps.after (clearLoopStatus_keeps ..)
    | with_reducible apply Keeps.after (finish_keeps ..)
    | (intro _ _; try dsimp only)
    | (split <;> try dsimp only)

theorem computeDrive_keeps (ts : Nat) (s : State) :
    Keeps s (computeDrive ts s) := by
  unfold computeDrive
  try dsimp only
  repeat' first
    | with_reducible exact Keeps.refl _
    | assumption
    | simp only [Keeps.upd_iff]
    | with_reducible apply Keeps.after (countPeriod_keeps ..)
    | with_reducible apply Keeps.after (runEngine_keeps ..)
    | with_reducible apply Keeps.after (trackCheck_keeps ..)
    | (intro _ _; try dsimp only)
    | (split <;> try dsimp only)

theorem computePeriod_keeps (ts : Nat) (s : State) :
    Keeps s (computePeriod ts s) := by
  unfold computePeriod
  try dsimp only
  repeat' first
    | with_reducible exact Keeps.refl _
    | assumption
    | simp only [Keeps.upd_iff]
    | with_reducible apply Keeps.after (computeDrive_keeps ..)
    | with_reducible apply Keeps.after (omegaEnvelopes_keeps ..)
    | (intro _ _; try dsimp only)
    | (split <;> try dsimp only)

theorem controlPeriod_keeps (s : State) :
    Keeps s (controlPeriod s) := by
  unfold controlPeriod
  try dsimp only
  repeat' first
    | with_reducible exact Keeps.refl _
    | assumption
    | simp only [Keeps.upd_iff]
    | with_reducible apply Keeps.after (computePeriod_keeps ..)
    | with_reducible apply Keeps.after (loopStates_keeps ..)
    | with_reducible apply Keeps.after (releasePeriod_keeps ..)
    | with_reducible apply Keeps.after (takeMinusE_keeps ..)
    | with_reducible apply Keeps.after (takeReads_keeps ..)
    | (intro _ _; try dsimp only)
    | (split <;> try dsimp only)

theorem thresholdEvent_keeps (c : Nat) (was : Bool) (s : State) :
    Keeps s (thresholdEvent c was s) := by
  unfold thresholdEvent
  try dsimp only
  repeat' first
    | with_reducible exact Keeps.refl _
    | assumption
    | simp only [Keeps.upd_iff]
    | with_reducible apply Keeps.after (raiseIrq_keeps ..)
    | with_reducible apply Keeps.after (logEv_keeps ..)
    | (split <;> try dsimp only)

theorem execChainOutput_keeps (c : Fin 2) (stream : List (BitVec 14)) (s : State) :
    KeepsO s (execChainOutput c stream s) := by
  unfold execChainOutput
  refine .next ?_
  try dsimp only
  repeat' first
    | with_reducible exact Keeps.refl _
    | assumption
    | simp only [Keeps.upd_iff]
    | with_reducible apply Keeps.after (controlPeriod_keeps ..)
    | with_reducible apply Keeps.after (modChain_keeps ..)
    | with_reducible apply Keeps.after (stallCheck_keeps ..)
    | with_reducible apply Keeps.after (thresholdEvent_keeps ..)
    | (intro _ _; try dsimp only)
    | (split <;> try dsimp only)

theorem singleCrossing_keeps (at64 : Nat) (s : State) :
    Keeps s (singleCrossing at64 s) := by
  unfold singleCrossing
  try dsimp only
  repeat' first
    | with_reducible exact Keeps.refl _
    | assumption
    | simp only [Keeps.upd_iff]
    | (intro _ _; try dsimp only)
    | (split <;> try dsimp only)

theorem execLoopSelftestDone_keeps (pass : Bool) (s : State) :
    KeepsO s (execLoopSelftestDone pass s) := by
  unfold execLoopSelftestDone
  refine .next ?_
  try dsimp only
  repeat' first
    | with_reducible exact Keeps.refl _
    | assumption
    | simp only [Keeps.upd_iff]
    | with_reducible apply Keeps.after (endControl_keeps ..)
    | with_reducible apply Keeps.after (enterLoop_keeps ..)
    | (split <;> try dsimp only)

theorem execLoopStartSlow_keeps (s : State) :
    KeepsO s (execLoopStartSlow s) := by
  unfold execLoopStartSlow
  refine .next ?_
  try dsimp only
  repeat' first
    | with_reducible exact Keeps.refl _
    | assumption
    | simp only [Keeps.upd_iff]
    | with_reducible apply Keeps.after (logEv_keeps ..)
    | (split <;> try dsimp only)

theorem settleLoop_keeps (s : State) :
    Keeps s (settleLoop s) := by
  unfold settleLoop
  try dsimp only
  repeat' first
    | with_reducible exact Keeps.refl _
    | assumption
    | simp only [Keeps.upd_iff]
    | with_reducible apply Keeps.after (takeActions_keeps ..)
    | with_reducible apply Keeps.after (takeReads_keeps ..)
    | (intro _ _; try dsimp only)
    | (split <;> try dsimp only)

theorem execLoopConfig_keeps (mb : Fin 8) (s : State) :
    KeepsO s (execLoopConfig mb s) := by
  unfold execLoopConfig
  refine runCommand_keeps fun o j p u => ?_
  try dsimp only
  repeat' first
    | with_reducible exact Keeps.refl _
    | assumption
    | simp only [Keeps.upd_iff]
    | ((with_reducible apply Keeps.after (checked_keeps ?_)) <;> try dsimp only)
    | with_reducible apply Keeps.after (sendTc_keeps ..)
    | with_reducible apply Keeps.after (settleLoop_keeps ..)
    | (intro _ _; try dsimp only)
    | (split <;> try dsimp only)

theorem execFiltControl_keeps (mb : Fin 8) (s : State) :
    KeepsO s (execFiltControl mb s) := by
  unfold execFiltControl
  refine runCommand_keeps fun o j p u => ?_
  try dsimp only
  repeat' first
    | with_reducible exact Keeps.refl _
    | assumption
    | simp only [Keeps.upd_iff]
    | ((with_reducible apply Keeps.after (checked_keeps ?_)) <;> try dsimp only)
    | with_reducible apply Keeps.after (filtControl_keeps ..)
    | refine Keeps.trans ?_ (filtControl_keeps' (by assumption))
    | with_reducible apply Keeps.after (settleLoop_keeps ..)
    | (intro _ _; try dsimp only)
    | (split <;> try dsimp only)

theorem execLoopLoad_keeps (mb : Fin 8) (s : State) :
    KeepsO s (execLoopLoad mb s) := by
  unfold execLoopLoad
  refine runCommand_keeps fun o j p u => ?_
  try dsimp only
  repeat' first
    | with_reducible exact Keeps.refl _
    | assumption
    | simp only [Keeps.upd_iff]
    | ((with_reducible apply Keeps.after (checked_keeps ?_)) <;> try dsimp only)
    | (split <;> try dsimp only)

theorem execLoopControl_keeps (mb : Fin 8) (s : State) :
    KeepsO s (execLoopControl mb s) := by
  unfold execLoopControl
  refine runCommand_keeps fun o j p u => ?_
  try dsimp only
  repeat' first
    | with_reducible exact Keeps.refl _
    | assumption
    | simp only [Keeps.upd_iff]
    | with_reducible apply Keeps.after (settleLoop_keeps ..)
    | (intro _ _; try dsimp only)
    | (split <;> try dsimp only)

theorem cancelActions_keeps (s : State) :
    Keeps s (cancelActions s) := by
  unfold cancelActions
  try dsimp only
  repeat' first
    | with_reducible exact Keeps.refl _
    | assumption
    | simp only [Keeps.upd_iff]
    | ((with_reducible apply Keeps.after (forEach_keeps ?_)) <;> try dsimp only)
    | with_reducible apply Keeps.after (finish_keeps ..)
    | with_reducible apply Keeps.after (takeReads_keeps ..)
    | (intro _ _; try dsimp only)
    | (split <;> try dsimp only)

theorem execLoopStatus_keeps (mb : Fin 8) (s : State) :
    KeepsO s (execLoopStatus mb s) := by
  unfold execLoopStatus
  refine runCommand_keeps fun o j p u => ?_
  try dsimp only
  repeat' first
    | with_reducible exact Keeps.refl _
    | assumption
    | simp only [Keeps.upd_iff]
    | with_reducible apply Keeps.after (settleLoop_keeps ..)
    | (intro _ _; try dsimp only)
    | (split <;> try dsimp only)

end Sys2Proof
end

