-- ==== Sys2Proof/Laws/KeepsCapture.lean ====
section
/-! SUPPORT. Every operation and meaning of Machine/Capture.lean keeps the queue, the drawn values, the trace and the invariant. -/

namespace Sys2Proof

/-! One proof at a time: proofs that wait on one another each hold a thread of their own. -/
set_option Elab.async false

open Sys2Proof.Machine

theorem captureLaunch_keeps (c : Nat) (fl : Flight) (s : State) :
    Keeps s (captureLaunch c fl s) := by
  unfold captureLaunch
  try dsimp only
  repeat' first
    | with_reducible exact Keeps.refl _
    | assumption
    | simp only [Keeps.upd_iff]
    | ((with_reducible apply Keeps.after (forUpto_keeps ?_)) <;> try dsimp only)
    | with_reducible apply Keeps.after (modCapt_keeps ..)
    | (intro _ _; try dsimp only)
    | (split <;> try dsimp only)

theorem execShotLaunch_fires (c : Fin 128) (startA startB : Conversion) (s : State) :
    FiresO s (execShotLaunch c startA startB s) := by
  unfold execShotLaunch
  refine .next ?_
  split
  · exact (Keeps.refl s).mayFire
  · split
    · exact (Keeps.refl s).mayFire
    · dsimp only
      split
      · exact shotLaunch_fires ..
      · exact (shotLaunch_fires ..).then (captureLaunch_keeps ..)

theorem captureSample_keeps (u n v : Nat) (s : State) :
    Keeps s (captureSample u n v s) := by
  unfold captureSample
  try dsimp only
  repeat' first
    | with_reducible exact Keeps.refl _
    | assumption
    | simp only [Keeps.upd_iff]
    | with_reducible apply Keeps.after (modCapt_keeps ..)
    | (intro _ _; try dsimp only)
    | (split <;> try dsimp only)

theorem captureSamples_keeps (u n : Nat) (l : List (BitVec 10)) (s : State) : Keeps s (captureSamples u n l s) := by
  induction l generalizing n s with
  | nil => exact .refl s
  | cons v l ih => exact (captureSample_keeps ..).trans (ih ..)

theorem execCaptureTrigger_keeps (u : Fin 2) (t : Nat) (samples : List (BitVec 10)) (s : State) :
    KeepsO s (execCaptureTrigger u t samples s) := by
  unfold execCaptureTrigger
  refine .next ?_
  try dsimp only
  repeat' first
    | with_reducible exact Keeps.refl _
    | assumption
    | simp only [Keeps.upd_iff]
    | with_reducible apply Keeps.after (captureSamples_keeps ..)
    | (intro _ _; try dsimp only)
    | (split <;> try dsimp only)

theorem execShotQualTimeout_keeps (u : Fin 2) (s : State) :
    KeepsO s (execShotQualTimeout u s) := by
  unfold execShotQualTimeout
  refine .next ?_
  try dsimp only
  repeat' first
    | with_reducible exact Keeps.refl _
    | assumption
    | simp only [Keeps.upd_iff]
    | with_reducible apply Keeps.after (modCapt_keeps ..)
    | (split <;> try dsimp only)

theorem endStops_keeps (u : Nat) (s : State) :
    Keeps s (endStops u s) := by
  unfold endStops
  try dsimp only
  repeat' first
    | with_reducible exact Keeps.refl _
    | assumption
    | simp only [Keeps.upd_iff]
    | ((with_reducible apply Keeps.after (forEach_keeps ?_)) <;> try dsimp only)
    | with_reducible apply Keeps.after (modCapt_keeps ..)
    | with_reducible apply Keeps.after (finish_keeps ..)
    | (intro _ _; try dsimp only)

theorem endCaptureUnit_keeps (u : Nat) (x : CaptUnit) (s : State) :
    Keeps s (endCaptureUnit u x s) := by
  unfold endCaptureUnit
  try dsimp only
  repeat' first
    | with_reducible exact Keeps.refl _
    | assumption
    | simp only [Keeps.upd_iff]
    | with_reducible apply Keeps.after (raiseIrq_keeps ..)
    | with_reducible apply Keeps.after (modCapt_keeps ..)
    | with_reducible apply Keeps.after (endStops_keeps ..)
    | (split <;> try dsimp only)

theorem violate_keeps (u i : Nat) (up : Bool) (c : Capture) (s : State) :
    Keeps s (violate u i up c s) := by
  unfold violate
  try dsimp only
  repeat' first
    | with_reducible exact Keeps.refl _
    | assumption
    | simp only [Keeps.upd_iff]
    | with_reducible apply Keeps.after (endCaptureUnit_keeps ..)
    | with_reducible apply Keeps.after (esArise_keeps ..)
    | with_reducible apply Keeps.after (esClear_keeps ..)
    | with_reducible apply Keeps.after (logEv_keeps ..)
    | (intro _ _; try dsimp only)
    | (split <;> try dsimp only)

theorem execMaskViolation_keeps (u : Fin 2) (samples : List Nat) (s : State) :
    KeepsO s (execMaskViolation u samples s) := by
  unfold execMaskViolation
  refine .next ?_
  try dsimp only
  repeat' first
    | with_reducible exact Keeps.refl _
    | assumption
    | simp only [Keeps.upd_iff]
    | with_reducible apply Keeps.after (violate_keeps ..)
    | (split <;> try dsimp only)

theorem execCaptureComplete_keeps (u : Fin 2) (samples : List Nat) (s : State) :
    KeepsO s (execCaptureComplete u samples s) := by
  unfold execCaptureComplete
  refine .next ?_
  try dsimp only
  repeat' first
    | with_reducible exact Keeps.refl _
    | assumption
    | simp only [Keeps.upd_iff]
    | with_reducible apply Keeps.after (endCaptureUnit_keeps ..)
    | with_reducible apply Keeps.after (violate_keeps ..)
    | (split <;> try dsimp only)

theorem execCaptureHoldoffEnd_keeps (u : Fin 2) (s : State) :
    KeepsO s (execCaptureHoldoffEnd u s) := by
  unfold execCaptureHoldoffEnd
  refine .next ?_
  try dsimp only
  repeat' first
    | with_reducible exact Keeps.refl _
    | assumption
    | simp only [Keeps.upd_iff]
    | with_reducible apply Keeps.after (modCapt_keeps ..)
    | (intro _ _; try dsimp only)
    | (split <;> try dsimp only)

theorem captConfig_keeps (p : Bytes) (s : State) :
    Keeps s (captConfig p s).1 := by
  unfold captConfig
  try dsimp only
  repeat' first
    | with_reducible exact Keeps.refl _
    | assumption
    | simp only [Keeps.upd_iff]
    | with_reducible apply Keeps.after (modCapt_keeps ..)
    | (split <;> try dsimp only)

theorem captConfig_keeps' {p : Bytes} {s : State} {t : State} {x} (hx : captConfig p s = (t, x)) : Keeps s t := by
  have e := captConfig_keeps p s
  rw [hx] at e
  exact e

theorem execCaptConfig_keeps (mb : Fin 8) (s : State) :
    KeepsO s (execCaptConfig mb s) := by
  unfold execCaptConfig
  refine runCommand_keeps fun o j p u => ?_
  try dsimp only
  repeat' first
    | with_reducible exact Keeps.refl _
    | assumption
    | simp only [Keeps.upd_iff]
    | ((with_reducible apply Keeps.after (checked_keeps ?_)) <;> try dsimp only)
    | with_reducible apply Keeps.after (captConfig_keeps ..)

theorem execCaptSetMask_keeps (mb : Fin 8) (s : State) :
    KeepsO s (execCaptSetMask mb s) := by
  unfold execCaptSetMask
  refine runCommand_keeps fun o j p u => ?_
  try dsimp only
  repeat' first
    | with_reducible exact Keeps.refl _
    | assumption
    | simp only [Keeps.upd_iff]
    | ((with_reducible apply Keeps.after (checked_keeps ?_)) <;> try dsimp only)
    | with_reducible apply Keeps.after (modCapt_keeps ..)
    | (split <;> try dsimp only)

theorem armUnit_keeps (u : Nat) (s : State) :
    Keeps s (armUnit u s) := by
  unfold armUnit
  try dsimp only
  repeat' first
    | with_reducible exact Keeps.refl _
    | assumption
    | simp only [Keeps.upd_iff]
    | with_reducible apply Keeps.after (modCapt_keeps ..)
    | (intro _ _; try dsimp only)
    | (split <;> try dsimp only)

theorem captControl_keeps (j u action : Nat) (s : State) :
    Keeps s (captControl j u action s).1 := by
  unfold captControl
  try dsimp only
  repeat' first
    | with_reducible exact Keeps.refl _
    | assumption
    | simp only [Keeps.upd_iff]
    | with_reducible apply Keeps.after (armUnit_keeps ..)
    | with_reducible apply Keeps.after (modCapt_keeps ..)
    | (intro _ _; try dsimp only)
    | (split <;> try dsimp only)

theorem captControl_keeps' {j u action : Nat} {s : State} {t : State} {x} (hx : captControl j u action s = (t, x)) : Keeps s t := by
  have e := captControl_keeps j u action s
  rw [hx] at e
  exact e

theorem execCaptControl_keeps (mb : Fin 8) (s : State) :
    KeepsO s (execCaptControl mb s) := by
  unfold execCaptControl
  refine runCommand_keeps fun o j p u => ?_
  try dsimp only
  repeat' first
    | with_reducible exact Keeps.refl _
    | assumption
    | simp only [Keeps.upd_iff]
    | with_reducible apply Keeps.after (captControl_keeps ..)
    | refine Keeps.trans ?_ (captControl_keeps' (by assumption))
    | (split <;> try dsimp only)

theorem execCaptRead_keeps (mb : Fin 8) (s : State) :
    KeepsO s (execCaptRead mb s) := by
  unfold execCaptRead
  refine runCommand_keeps fun o j p u => ?_
  try dsimp only
  repeat' first
    | with_reducible exact Keeps.refl _
    | assumption
    | simp only [Keeps.upd_iff]
    | ((with_reducible apply Keeps.after (checked_keeps ?_)) <;> try dsimp only)
    | (split <;> try dsimp only)

theorem execCaptStatus_keeps (mb : Fin 8) (s : State) :
    KeepsO s (execCaptStatus mb s) := by
  unfold execCaptStatus
  refine runCommand_keeps fun o j p u => ?_
  try dsimp only
  repeat' first
    | with_reducible exact Keeps.refl _
    | assumption
    | simp only [Keeps.upd_iff]
    | ((with_reducible apply Keeps.after (checked_keeps ?_)) <;> try dsimp only)
    | with_reducible apply Keeps.after (modCapt_keeps ..)
    | (split <;> try dsimp only)

theorem resetCapture_keeps (s : State) :
    Keeps s (resetCapture s) := by
  unfold resetCapture
  try dsimp only
  repeat' first
    | with_reducible exact Keeps.refl _
    | assumption
    | simp only [Keeps.upd_iff]
    | ((with_reducible apply Keeps.after (forUpto_keeps ?_)) <;> try dsimp only)
    | with_reducible apply Keeps.after (endStops_keeps ..)
    | with_reducible apply Keeps.after (modCapt_keeps ..)
    | (intro _ _; try dsimp only)
    | (split <;> try dsimp only)

end Sys2Proof
end

