-- ==== Sys2Proof/Laws/KeepsHod.lean ====
section
/-! SUPPORT. Every operation and meaning of Machine/Hod.lean keeps the queue, the drawn values, the trace and the invariant. -/

namespace Sys2Proof

/-! One proof at a time: proofs that wait on one another each hold a thread of their own. -/
set_option Elab.async false

open Sys2Proof.Machine

theorem hodFail_keeps (ch : Nat) (f : HodFault) (addr : Nat) (s : State) :
    Keeps s (hodFail ch f addr s) := by
  unfold hodFail
  try dsimp only
  repeat' first
    | with_reducible exact Keeps.refl _
    | assumption
    | simp only [Keeps.upd_iff]
    | with_reducible apply Keeps.after (raiseIrq_keeps ..)
    | with_reducible apply Keeps.after (logEv_keeps ..)
    | with_reducible apply Keeps.after (modHod_keeps ..)

theorem hostReads_isFire (mr fuel addr n : Nat) : ∀ y ∈ hostReads mr fuel addr n, isFire y = false := by
  induction fuel generalizing addr n with
  | zero => simp [hostReads]
  | succ k ih =>
    unfold hostReads
    split
    · simp
    · intro y hy
      rcases List.mem_cons.1 hy with rfl | h
      · rfl
      · exact ih _ _ y h

theorem askHost_keeps (addr n : Nat) (s : State) : Keeps s (askHost addr n s) :=
  (Keeps.refl s).outs _ fun y hy => hostReads_isFire _ _ _ _ y (List.mem_reverse.1 hy)

theorem readUnits_keeps (a n : Nat) (s : State) :
    Keeps s (readUnits a n s).2.2 := by
  unfold readUnits
  try dsimp only
  repeat' first
    | with_reducible exact Keeps.refl _
    | assumption
    | simp only [Keeps.upd_iff]
    | with_reducible apply Keeps.after (dramRead_keeps ..)

theorem readUnits_keeps' {a n : Nat} {s : State} {x y} {t : State} (hx : readUnits a n s = (x, y, t)) : Keeps s t := by
  have e := readUnits_keeps a n s
  rw [hx] at e
  exact e

theorem readElem_keeps (d : HodDesc) (e : Nat) (fromHost : Bytes) (s : State) :
    Keeps s (readElem d e fromHost s).2 := by
  unfold readElem
  try dsimp only
  repeat' first
    | with_reducible exact Keeps.refl _
    | assumption
    | simp only [Keeps.upd_iff]
    | with_reducible apply Keeps.after (askHost_keeps ..)
    | with_reducible apply Keeps.after (readUnits_keeps ..)
    | refine Keeps.trans ?_ (readUnits_keeps' (by assumption))
    | (split <;> try dsimp only)

theorem readElem_keeps' {d : HodDesc} {e : Nat} {fromHost : Bytes} {s : State} {x} {t : State} (hx : readElem d e fromHost s = (x, t)) : Keeps s t := by
  have e := readElem_keeps d e fromHost s
  rw [hx] at e
  exact e

theorem writeElem_keeps (d : HodDesc) (e : Nat) (b : Bytes) (s : State) :
    Keeps s (writeElem d e b s).2 := by
  unfold writeElem
  try dsimp only
  repeat' first
    | with_reducible exact Keeps.refl _
    | assumption
    | simp only [Keeps.upd_iff]
    | with_reducible apply Keeps.after (hostWrite_keeps ..)
    | with_reducible apply Keeps.after (dramWrite_keeps ..)
    | (split <;> try dsimp only)

theorem writeElem_keeps' {d : HodDesc} {e : Nat} {b : Bytes} {s : State} {x} {t : State} (hx : writeElem d e b s = (x, t)) : Keeps s t := by
  have e := writeElem_keeps d e b s
  rw [hx] at e
  exact e

theorem copyElems_keeps (ch : Nat) (d : HodDesc) (n e : Nat) (h : Bytes) (s : State) :
    Keeps s (copyElems ch d n e h s).2.2 := by
  induction n generalizing e h s with
  | zero => exact .refl s
  | succ n ih =>
    unfold copyElems
    split
    · exact readElem_keeps' (by assumption)
    · split
      · exact Keeps.after (writeElem_keeps' (by assumption)) (readElem_keeps' (by assumption))
      · exact Keeps.after (ih ..) (Keeps.after (modHod_keeps ..)
          (Keeps.after (writeElem_keeps' (by assumption)) (readElem_keeps' (by assumption))))

theorem copyElems_keeps' {ch : Nat} {d : HodDesc} {n e : Nat} {h : Bytes} {s : State} {x y} {t : State}
    (hx : copyElems ch d n e h s = (x, y, t)) : Keeps s t := by
  have k := copyElems_keeps ch d n e h s
  rw [hx] at k
  exact k

theorem advance_keeps (ch : Nat) (d : HodDesc) (upTo : Nat) (h : Bytes) (s : State) :
    Keeps s (advance ch d upTo h s).2 := by
  unfold advance
  try dsimp only
  repeat' first
    | with_reducible exact Keeps.refl _
    | assumption
    | simp only [Keeps.upd_iff]
    | with_reducible apply Keeps.after (modHod_keeps ..)
    | with_reducible apply Keeps.after (copyElems_keeps ..)

theorem advance_keeps' {ch : Nat} {d : HodDesc} {upTo : Nat} {h : Bytes} {s : State} {x} {t : State} (hx : advance ch d upTo h s = (x, t)) : Keeps s t := by
  have e := advance_keeps ch d upTo h s
  rw [hx] at e
  exact e

theorem haltAtEnd_keeps (ch : Nat) (s : State) :
    Keeps s (haltAtEnd ch s) := by
  unfold haltAtEnd
  try dsimp only
  repeat' first
    | with_reducible exact Keeps.refl _
    | assumption
    | simp only [Keeps.upd_iff]
    | with_reducible apply Keeps.after (raiseIrq_keeps ..)
    | with_reducible apply Keeps.after (modHod_keeps ..)
    | (split <;> try dsimp only)

theorem refetched_keeps (ch : Nat) (b : Bytes) (s : State) :
    Keeps s (refetched ch b s) := by
  unfold refetched
  try dsimp only
  repeat' first
    | with_reducible exact Keeps.refl _
    | assumption
    | simp only [Keeps.upd_iff]
    | with_reducible apply Keeps.after (modHod_keeps ..)
    | with_reducible apply Keeps.after (hodFail_keeps ..)
    | with_reducible apply Keeps.after (haltAtEnd_keeps ..)
    | (split <;> try dsimp only)

theorem startDesc_keeps (ch addr : Nat) (b : Bytes) (s : State) :
    Keeps s (startDesc ch addr b s) := by
  unfold startDesc
  try dsimp only
  repeat' first
    | with_reducible exact Keeps.refl _
    | assumption
    | simp only [Keeps.upd_iff]
    | with_reducible apply Keeps.after (hodFail_keeps ..)
    | with_reducible apply Keeps.after (modHod_keeps ..)
    | (intro _ _; try dsimp only)
    | (split <;> try dsimp only)

theorem gotDesc_keeps (ch addr : Nat) (b : Bytes) (s : State) :
    Keeps s (gotDesc ch addr b s) := by
  unfold gotDesc
  try dsimp only
  repeat' first
    | with_reducible exact Keeps.refl _
    | assumption
    | simp only [Keeps.upd_iff]
    | with_reducible apply Keeps.after (refetched_keeps ..)
    | with_reducible apply Keeps.after (startDesc_keeps ..)
    | (split <;> try dsimp only)

theorem fetchDesc_keeps (ch addr : Nat) (host : Option Bytes) (s : State) :
    Keeps s (fetchDesc ch addr host s) := by
  unfold fetchDesc
  try dsimp only
  repeat' first
    | with_reducible exact Keeps.refl _
    | assumption
    | simp only [Keeps.upd_iff]
    | with_reducible apply Keeps.after (dramRead_keeps ..)
    | refine Keeps.trans ?_ (dramRead_keeps' (by assumption))
    | with_reducible apply Keeps.after (hodFail_keeps ..)
    | with_reducible apply Keeps.after (askHost_keeps ..)
    | with_reducible apply Keeps.after (gotDesc_keeps ..)
    | (split <;> try dsimp only)

theorem execHodDescriptorFetch_keeps (ch : Fin 8) (host : Option (List Byte)) (s : State) :
    KeepsO s (execHodDescriptorFetch ch host s) := by
  unfold execHodDescriptorFetch
  refine .next ?_
  try dsimp only
  repeat' first
    | with_reducible exact Keeps.refl _
    | assumption
    | simp only [Keeps.upd_iff]
    | with_reducible apply Keeps.after (fetchDesc_keeps ..)
    | (intro _ _; try dsimp only)
    | (split <;> try dsimp only)

theorem hodIgnore_keeps (ch : Nat) (s : State) :
    Keeps s (hodIgnore ch s) := by
  unfold hodIgnore
  try dsimp only
  repeat' first
    | with_reducible exact Keeps.refl _
    | assumption
    | simp only [Keeps.upd_iff]
    | with_reducible apply Keeps.after (modHod_keeps ..)

theorem hodDoorbell_keeps (ch : Nat) (s : State) :
    Keeps s (hodDoorbell ch s) := by
  unfold hodDoorbell
  try dsimp only
  repeat' first
    | with_reducible exact Keeps.refl _
    | assumption
    | simp only [Keeps.upd_iff]
    | with_reducible apply Keeps.after (hodIgnore_keeps ..)
    | with_reducible apply Keeps.after (modHod_keeps ..)
    | (intro _ _; try dsimp only)
    | (split <;> try dsimp only)

theorem hodAbort_keeps (ch : Nat) (s : State) :
    Keeps s (hodAbort ch s) := by
  unfold hodAbort
  try dsimp only
  repeat' first
    | with_reducible exact Keeps.refl _
    | assumption
    | simp only [Keeps.upd_iff]
    | with_reducible apply Keeps.after (modHod_keeps ..)
    | with_reducible apply Keeps.after (hodIgnore_keeps ..)
    | (split <;> try dsimp only)

theorem execHodDoorbell_keeps (ch : Fin 8) (s : State) :
    KeepsO s (execHodDoorbell ch s) := by
  unfold execHodDoorbell
  refine .next ?_
  try dsimp only
  repeat' first
    | with_reducible exact Keeps.refl _
    | assumption
    | simp only [Keeps.upd_iff]
    | with_reducible apply Keeps.after (hodDoorbell_keeps ..)
    | (split <;> try dsimp only)

theorem execHodAbort_keeps (ch : Fin 8) (s : State) :
    KeepsO s (execHodAbort ch s) := by
  unfold execHodAbort
  refine .next ?_
  try dsimp only
  repeat' first
    | with_reducible exact Keeps.refl _
    | assumption
    | simp only [Keeps.upd_iff]
    | with_reducible apply Keeps.after (hodAbort_keeps ..)
    | (split <;> try dsimp only)

theorem hodConfigWrite_keeps (ch : Nat) (reg : HodReg) (v : Nat) (s : State) :
    Keeps s (hodConfigWrite ch reg v s) := by
  unfold hodConfigWrite
  try dsimp only
  repeat' first
    | with_reducible exact Keeps.refl _
    | assumption
    | simp only [Keeps.upd_iff]
    | with_reducible apply Keeps.after (modHod_keeps ..)
    | (split <;> try dsimp only)

theorem execHodConfigWrite_keeps (ch : Fin 8) (reg : HodReg) (value : BitVec 32) (s : State) :
    KeepsO s (execHodConfigWrite ch reg value s) := by
  unfold execHodConfigWrite
  refine .next ?_
  try dsimp only
  repeat' first
    | with_reducible exact Keeps.refl _
    | assumption
    | simp only [Keeps.upd_iff]
    | with_reducible apply Keeps.after (hodConfigWrite_keeps ..)
    | (split <;> try dsimp only)

theorem signalDone_keeps (ch : Nat) (d : HodDesc) (s : State) :
    Keeps s (signalDone ch d s) := by
  unfold signalDone
  try dsimp only
  repeat' first
    | with_reducible exact Keeps.refl _
    | assumption
    | simp only [Keeps.upd_iff]
    | with_reducible apply Keeps.after (raiseIrq_keeps ..)
    | with_reducible apply Keeps.after (modHod_keeps ..)
    | (split <;> try dsimp only)

theorem afterDone_keeps (ch : Nat) (d : HodDesc) (again : Option Bytes) (s : State) :
    Keeps s (afterDone ch d again s) := by
  unfold afterDone
  try dsimp only
  repeat' first
    | with_reducible exact Keeps.refl _
    | assumption
    | simp only [Keeps.upd_iff]
    | with_reducible apply Keeps.after (modHod_keeps ..)
    | with_reducible apply Keeps.after (haltAtEnd_keeps ..)
    | with_reducible apply Keeps.after (fetchDesc_keeps ..)
    | (split <;> try dsimp only)

theorem flushRead_keeps (d : HodDesc) (s : State) :
    Keeps s (flushRead d s) := by
  unfold flushRead
  try dsimp only
  repeat' first
    | with_reducible exact Keeps.refl _
    | assumption
    | simp only [Keeps.upd_iff]
    | ((with_reducible refine Keeps.after (emit_keeps _ _ ?_) ?_); exact rfl)
    | (split <;> try dsimp only)

theorem execHodDescriptorComplete_keeps (ch : Fin 8) (host : List Byte) (refetch : Option (List Byte)) (s : State) :
    KeepsO s (execHodDescriptorComplete ch host refetch s) := by
  unfold execHodDescriptorComplete
  refine .next ?_
  try dsimp only
  repeat' first
    | with_reducible exact Keeps.refl _
    | assumption
    | simp only [Keeps.upd_iff]
    | with_reducible apply Keeps.after (hodFail_keeps ..)
    | with_reducible apply Keeps.after (advance_keeps ..)
    | refine Keeps.trans ?_ (advance_keeps' (by assumption))
    | with_reducible apply Keeps.after (signalDone_keeps ..)
    | with_reducible apply Keeps.after (afterDone_keeps ..)
    | with_reducible apply Keeps.after (flushRead_keeps ..)
    | (split <;> try dsimp only)

theorem execHodError_keeps (ch : Fin 8) (code : HodFault) (addr : Nat) (done : Nat) (host : List Byte) (s : State) :
    KeepsO s (execHodError ch code addr done host s) := by
  unfold execHodError
  refine .next ?_
  try dsimp only
  repeat' first
    | with_reducible exact Keeps.refl _
    | assumption
    | simp only [Keeps.upd_iff]
    | with_reducible apply Keeps.after (hodFail_keeps ..)
    | with_reducible apply Keeps.after (advance_keeps ..)
    | refine Keeps.trans ?_ (advance_keeps' (by assumption))
    | with_reducible apply Keeps.after (flushRead_keeps ..)
    | (split <;> try dsimp only)

theorem execHodAbortDone_keeps (ch : Fin 8) (done : Nat) (host : List Byte) (s : State) :
    KeepsO s (execHodAbortDone ch done host s) := by
  unfold execHodAbortDone
  refine .next ?_
  try dsimp only
  repeat' first
    | with_reducible exact Keeps.refl _
    | assumption
    | simp only [Keeps.upd_iff]
    | with_reducible apply Keeps.after (advance_keeps ..)
    | refine Keeps.trans ?_ (advance_keeps' (by assumption))
    | with_reducible apply Keeps.after (modHod_keeps ..)
    | with_reducible apply Keeps.after (signalDone_keeps ..)
    | (intro _ _; try dsimp only)
    | (split <;> try dsimp only)

theorem leftEngine_keeps (p : HodProgress) (s : State) :
    Keeps s (leftEngine p s) := by
  unfold leftEngine
  try dsimp only
  repeat' first
    | with_reducible exact Keeps.refl _
    | assumption
    | simp only [Keeps.upd_iff]
    | with_reducible apply Keeps.after (advance_keeps ..)
    | refine Keeps.trans ?_ (advance_keeps' (by assumption))
    | (intro _ _; try dsimp only)
    | (split <;> try dsimp only)

theorem stopHods_keeps (l : List HodProgress) (s : State) :
    Keeps s (stopHods l s) := by
  unfold stopHods
  try dsimp only
  repeat' first
    | with_reducible exact Keeps.refl _
    | assumption
    | simp only [Keeps.upd_iff]
    | ((with_reducible apply Keeps.after (forUpto_keeps ?_)) <;> try dsimp only)
    | ((with_reducible apply Keeps.after (forEach_keeps ?_)) <;> try dsimp only)
    | with_reducible apply Keeps.after (leftEngine_keeps ..)
    | with_reducible apply Keeps.after (modHod_keeps ..)
    | (intro _ _; try dsimp only)
    | (split <;> try dsimp only)

end Sys2Proof
end

