-- ==== Sys2Proof/Laws/KeepsDelivery.lean ====
section
/-! SUPPORT. Every operation and meaning of Machine/Delivery.lean keeps the queue, the drawn values, the trace and the invariant. -/

namespace Sys2Proof

/-! One proof at a time: proofs that wait on one another each hold a thread of their own. -/
set_option Elab.async false

open Sys2Proof.Machine

theorem setShares_keeps (s : State) :
    Keeps s (setShares s) := by
  unfold setShares
  try dsimp only
  repeat' first
    | with_reducible exact Keeps.refl _
    | assumption
    | simp only [Keeps.upd_iff]
    | ((with_reducible apply Keeps.after (forEach_keeps ?_)) <;> try dsimp only)
    | with_reducible apply Keeps.after (modRing_keeps ..)
    | (intro _ _; try dsimp only)

theorem commitGap_keeps (r first last dropped : Nat) (s : State) :
    Keeps s (commitGap r first last dropped s) := by
  unfold commitGap
  try dsimp only
  repeat' first
    | with_reducible exact Keeps.refl _
    | assumption
    | simp only [Keeps.upd_iff]
    | with_reducible apply Keeps.after (logEv_keeps ..)
    | with_reducible apply Keeps.after (modRing_keeps ..)
    | (intro _ _; try dsimp only)
    | (split <;> try dsimp only)

theorem commitDueGap_keeps (r : Nat) (s : State) :
    Keeps s (commitDueGap r s) := by
  unfold commitDueGap
  try dsimp only
  repeat' first
    | with_reducible exact Keeps.refl _
    | assumption
    | simp only [Keeps.upd_iff]
    | with_reducible apply Keeps.after (modRing_keeps ..)
    | with_reducible apply Keeps.after (commitGap_keeps ..)
    | (split <;> try dsimp only)

theorem commitTile_keeps (r frame : Nat) (w : Bytes) (born : Nat) (s : State) :
    Keeps s (commitTile r frame w born s) := by
  unfold commitTile
  try dsimp only
  repeat' first
    | with_reducible exact Keeps.refl _
    | assumption
    | simp only [Keeps.upd_iff]
    | with_reducible apply Keeps.after (commitDueGap_keeps ..)
    | with_reducible apply Keeps.after (modRing_keeps ..)
    | (intro _ _; try dsimp only)
    | (split <;> try dsimp only)

theorem loseSlot_keeps (f t : Nat) (s : State) :
    Keeps s (loseSlot f t s) := by
  unfold loseSlot
  try dsimp only
  repeat' first
    | with_reducible exact Keeps.refl _
    | assumption
    | simp only [Keeps.upd_iff]
    | (intro _ _; try dsimp only)
    | (split <;> try dsimp only)

theorem noteArrived_keeps (f t : Nat) (s : State) :
    Keeps s (noteArrived f t s) := by
  unfold noteArrived
  try dsimp only
  repeat' first
    | with_reducible exact Keeps.refl _
    | assumption
    | simp only [Keeps.upd_iff]

theorem arriveRecord_keeps (x : TileResult) (s : State) :
    Keeps s (arriveRecord x s) := by
  unfold arriveRecord
  try dsimp only
  repeat' first
    | with_reducible exact Keeps.refl _
    | assumption
    | simp only [Keeps.upd_iff]
    | with_reducible apply Keeps.after (loseSlot_keeps ..)
    | with_reducible apply Keeps.after (modRing_keeps ..)
    | with_reducible apply Keeps.after (noteArrived_keeps ..)
    | (intro _ _; try dsimp only)
    | (split <;> try dsimp only)

theorem recordArrival_keeps (s : State) :
    Keeps s (recordArrival s) := by
  unfold recordArrival
  try dsimp only
  repeat' first
    | with_reducible exact Keeps.refl _
    | assumption
    | simp only [Keeps.upd_iff]
    | with_reducible apply Keeps.after (arriveRecord_keeps ..)
    | (split <;> try dsimp only)

theorem execRecordArrival_keeps (s : State) :
    KeepsO s (execRecordArrival s) := by
  unfold execRecordArrival
  refine .next ?_
  try dsimp only
  repeat' first
    | with_reducible exact Keeps.refl _
    | assumption
    | simp only [Keeps.upd_iff]
    | with_reducible apply Keeps.after (recordArrival_keeps ..)
    | (split <;> try dsimp only)

theorem recordCommit_keeps (s : State) :
    Keeps s (recordCommit s) := by
  unfold recordCommit
  try dsimp only
  repeat' first
    | with_reducible exact Keeps.refl _
    | assumption
    | simp only [Keeps.upd_iff]
    | with_reducible apply Keeps.after (commitTile_keeps ..)
    | (split <;> try dsimp only)

theorem execRecordCommit_keeps (s : State) :
    KeepsO s (execRecordCommit s) := by
  unfold execRecordCommit
  refine .next ?_
  try dsimp only
  repeat' first
    | with_reducible exact Keeps.refl _
    | assumption
    | simp only [Keeps.upd_iff]
    | with_reducible apply Keeps.after (recordCommit_keeps ..)
    | (split <;> try dsimp only)

theorem flushRecords_keeps (s : State) :
    Keeps s (flushRecords s) := by
  unfold flushRecords
  try dsimp only
  repeat' first
    | with_reducible exact Keeps.refl _
    | assumption
    | simp only [Keeps.upd_iff]
    | ((with_reducible apply Keeps.after (forUpto_keeps ?_)) <;> try dsimp only)
    | with_reducible apply Keeps.after (recordArrival_keeps ..)
    | with_reducible apply Keeps.after (recordCommit_keeps ..)
    | (intro _ _; try dsimp only)

theorem resumeRing_keeps (r : Nat) (s : State) :
    Keeps s (resumeRing r s) := by
  unfold resumeRing
  try dsimp only
  repeat' first
    | with_reducible exact Keeps.refl _
    | assumption
    | simp only [Keeps.upd_iff]
    | with_reducible apply Keeps.after (commitDueGap_keeps ..)
    | with_reducible apply Keeps.after (commitGap_keeps ..)
    | with_reducible apply Keeps.after (modRing_keeps ..)
    | (intro _ _; try dsimp only)
    | (split <;> try dsimp only)

theorem commitHeader_keeps (step : Bool) (r : Nat) (s : State) :
    Keeps s (commitHeader step r s) := by
  unfold commitHeader
  try dsimp only
  repeat' first
    | with_reducible exact Keeps.refl _
    | assumption
    | simp only [Keeps.upd_iff]
    | with_reducible apply Keeps.after (commitDueGap_keeps ..)
    | with_reducible apply Keeps.after (modRing_keeps ..)
    | with_reducible apply Keeps.after (resumeRing_keeps ..)
    | (intro _ _; try dsimp only)
    | (split <;> try dsimp only)

theorem commitHeaders_keeps (step : Bool) (s : State) :
    Keeps s (commitHeaders step s) := by
  unfold commitHeaders
  try dsimp only
  repeat' first
    | with_reducible exact Keeps.refl _
    | assumption
    | simp only [Keeps.upd_iff]
    | ((with_reducible apply Keeps.after (forEach_keeps ?_)) <;> try dsimp only)
    | with_reducible apply Keeps.after (commitHeader_keeps ..)
    | (intro _ _; try dsimp only)

theorem execPalletTimeout_keeps (r : Fin 64) (s : State) :
    KeepsO s (execPalletTimeout r s) := by
  unfold execPalletTimeout
  refine .next ?_
  try dsimp only
  repeat' first
    | with_reducible exact Keeps.refl _
    | assumption
    | simp only [Keeps.upd_iff]
    | with_reducible apply Keeps.after (modRing_keeps ..)
    | (split <;> try dsimp only)

theorem bufferError_keeps (bad : Bool) (s : State) :
    Keeps s (bufferError bad s) := by
  unfold bufferError
  try dsimp only
  repeat' first
    | with_reducible exact Keeps.refl _
    | assumption
    | simp only [Keeps.upd_iff]
    | with_reducible apply Keeps.after (drawFree_keeps ..)
    | refine Keeps.trans ?_ (drawFree_keeps' (by assumption))
    | with_reducible apply Keeps.after (noteCe_keeps ..)
    | with_reducible apply Keeps.after (noteUe_keeps ..)
    | (split <;> try dsimp only)

theorem readCopies_keeps (r seq : Nat) (faults : List (Nat × CopyFault)) (s : State) :
    Keeps s (readCopies r seq faults s).2 := by
  unfold readCopies
  split
  · exact .refl s
  · exact bufferError_keeps false s
  · exact Keeps.trans (bufferError_keeps true s) (.parts rfl rfl rfl id id id)
  · dsimp only
    exact (bufferError_keeps true s).trans ((bufferError_keeps true _).trans (logEv_keeps ..))

theorem readBurst_keeps (r : Nat) (faults : List (Nat × CopyFault)) (l : List DlvRecord) (s : State) :
    Keeps s (readBurst r faults l s).2 := by
  induction l generalizing s with
  | nil => exact .refl s
  | cons x l ih => exact (readCopies_keeps r x.seq faults s).trans (ih _)

theorem readBurst_keeps' {r : Nat} {faults : List (Nat × CopyFault)} {l : List DlvRecord} {s : State} {x} {t : State}
    (hx : readBurst r faults l s = (x, t)) : Keeps s t := by
  have e := readBurst_keeps r faults l s
  rw [hx] at e
  exact e

theorem ringIrq_keeps (r : Nat) (s : State) :
    Keeps s (ringIrq r s).2 := by
  unfold ringIrq
  try dsimp only
  repeat' first
    | with_reducible exact Keeps.refl _
    | assumption
    | simp only [Keeps.upd_iff]
    | with_reducible apply Keeps.after (modRing_keeps ..)
    | (intro _ _; try dsimp only)
    | (split <;> try dsimp only)

theorem ringIrq_keeps' {r : Nat} {s : State} {x} {t : State} (hx : ringIrq r s = (x, t)) : Keeps s t := by
  have e := ringIrq_keeps r s
  rw [hx] at e
  exact e

theorem writeBurst_keeps (r : Nat) (faults : List (Nat × CopyFault)) (s : State) :
    Keeps s (writeBurst r faults s) := by
  unfold writeBurst
  try dsimp only
  repeat' first
    | with_reducible exact Keeps.refl _
    | assumption
    | simp only [Keeps.upd_iff]
    | ((with_reducible apply Keeps.after (forEach_keeps ?_)) <;> try dsimp only)
    | with_reducible apply Keeps.after (hostWrite_keeps ..)
    | with_reducible apply Keeps.after (hostWriteEp_keeps ..)
    | with_reducible apply Keeps.after (modRing_keeps ..)
    | with_reducible apply Keeps.after (msixSend_keeps ..)
    | with_reducible apply Keeps.after (readBurst_keeps ..)
    | refine Keeps.trans ?_ (readBurst_keeps' (by assumption))
    | with_reducible apply Keeps.after (ringIrq_keeps ..)
    | refine Keeps.trans ?_ (ringIrq_keeps' (by assumption))
    | (intro _ _; try dsimp only)
    | (split <;> try dsimp only)

theorem sendBurst_keeps (sink r : Nat) (faults : List (Nat × CopyFault)) (s : State) :
    Keeps s (sendBurst sink r faults s) := by
  unfold sendBurst
  try dsimp only
  repeat' first
    | with_reducible exact Keeps.refl _
    | assumption
    | simp only [Keeps.upd_iff]
    | with_reducible apply Keeps.after (e2eSend_keeps ..)
    | with_reducible apply Keeps.after (modRing_keeps ..)
    | with_reducible apply Keeps.after (readBurst_keeps ..)
    | refine Keeps.trans ?_ (readBurst_keeps' (by assumption))
    | with_reducible apply Keeps.after (ringIrq_keeps ..)
    | refine Keeps.trans ?_ (ringIrq_keeps' (by assumption))
    | (intro _ _; try dsimp only)
    | (split <;> try dsimp only)

theorem execPalletWrite_keeps (r : Fin 64) (faults : List (Nat × CopyFault)) (s : State) :
    KeepsO s (execPalletWrite r faults s) := by
  unfold execPalletWrite
  refine .next ?_
  try dsimp only
  repeat' first
    | with_reducible exact Keeps.refl _
    | assumption
    | simp only [Keeps.upd_iff]
    | with_reducible apply Keeps.after (writeBurst_keeps ..)
    | with_reducible apply Keeps.after (sendBurst_keeps ..)
    | (split <;> try dsimp only)

theorem execIrqHoldoffEnd_keeps (r : Fin 64) (s : State) :
    KeepsO s (execIrqHoldoffEnd r s) := by
  unfold execIrqHoldoffEnd
  refine .next ?_
  try dsimp only
  repeat' first
    | with_reducible exact Keeps.refl _
    | assumption
    | simp only [Keeps.upd_iff]
    | with_reducible apply Keeps.after (modRing_keeps ..)
    | with_reducible apply Keeps.after (msixSend_keeps ..)
    | (intro _ _; try dsimp only)
    | (split <;> try dsimp only)

theorem execCiPoll_keeps (r : Fin 64) (s : State) :
    KeepsO s (execCiPoll r s) := by
  unfold execCiPoll
  refine .next ?_
  try dsimp only
  repeat' first
    | with_reducible exact Keeps.refl _
    | assumption
    | simp only [Keeps.upd_iff]
    | ((with_reducible refine Keeps.after (emit_keeps _ _ ?_) ?_); exact rfl)
    | with_reducible apply Keeps.after (modRing_keeps ..)
    | with_reducible apply Keeps.after (e2eSend_keeps ..)
    | (split <;> try dsimp only)

theorem takeCi_keeps (r ci : Nat) (s : State) :
    Keeps s (takeCi r ci s) := by
  unfold takeCi
  try dsimp only
  repeat' first
    | with_reducible exact Keeps.refl _
    | assumption
    | simp only [Keeps.upd_iff]
    | with_reducible apply Keeps.after (logEv_keeps ..)
    | with_reducible apply Keeps.after (modRing_keeps ..)
    | (intro _ _; try dsimp only)
    | (split <;> try dsimp only)

theorem execCiReadComplete_keeps (r : Fin 64) (ci : BitVec 64) (s : State) :
    KeepsO s (execCiReadComplete r ci s) := by
  unfold execCiReadComplete
  refine .next ?_
  try dsimp only
  repeat' first
    | with_reducible exact Keeps.refl _
    | assumption
    | simp only [Keeps.upd_iff]
    | with_reducible apply Keeps.after (takeCi_keeps ..)
    | (split <;> try dsimp only)

theorem pauseDelivery_keeps (s : State) :
    Keeps s (pauseDelivery s) := by
  unfold pauseDelivery
  try dsimp only
  repeat' first
    | with_reducible exact Keeps.refl _
    | assumption
    | simp only [Keeps.upd_iff]
    | ((with_reducible apply Keeps.after (forUpto_keeps ?_)) <;> try dsimp only)
    | with_reducible apply Keeps.after (modRing_keeps ..)
    | (intro _ _; try dsimp only)
    | (split <;> try dsimp only)

theorem applyRing_keeps (r f : Nat) (cfg : RingSettings) (s : State) :
    Keeps s (applyRing r f cfg s) := by
  unfold applyRing
  try dsimp only
  repeat' first
    | with_reducible exact Keeps.refl _
    | assumption
    | simp only [Keeps.upd_iff]
    | with_reducible apply Keeps.after (hostWrite_keeps ..)
    | with_reducible apply Keeps.after (modRing_keeps ..)
    | with_reducible apply Keeps.after (msixSend_keeps ..)
    | with_reducible apply Keeps.after (ringIrq_keeps ..)
    | refine Keeps.trans ?_ (ringIrq_keeps' (by assumption))
    | with_reducible apply Keeps.after (setShares_keeps ..)
    | (intro _ _; try dsimp only)
    | (split <;> try dsimp only)

theorem freezeHistory_keeps (p : Bytes) (s : State) :
    Keeps s (freezeHistory p s).1 := by
  unfold freezeHistory
  try dsimp only
  repeat' first
    | with_reducible exact Keeps.refl _
    | assumption
    | simp only [Keeps.upd_iff]
    | with_reducible apply Keeps.after (logEv_keeps ..)
    | (split <;> try dsimp only)

theorem freezeHistory_keeps' {p : Bytes} {s : State} {t : State} {x} (hx : freezeHistory p s = (t, x)) : Keeps s t := by
  have e := freezeHistory_keeps p s
  rw [hx] at e
  exact e

theorem takePlane_keeps (step : Bool) (s : State) :
    Keeps s (takePlane step s) := by
  unfold takePlane
  try dsimp only
  repeat' first
    | with_reducible exact Keeps.refl _
    | assumption
    | simp only [Keeps.upd_iff]
    | with_reducible apply Keeps.after (dramWrite_keeps ..)
    | with_reducible apply Keeps.after (modPlane_keeps ..)
    | (intro _ _; try dsimp only)
    | (split <;> try dsimp only)

theorem storeSlot_keeps (f t : Nat) (tag : Bytes) (slot : Tab Byte) (s : State) :
    Keeps s (storeSlot f t tag slot s) := by
  unfold storeSlot
  try dsimp only
  repeat' first
    | with_reducible exact Keeps.refl _
    | assumption
    | simp only [Keeps.upd_iff]
    | with_reducible apply Keeps.after (dramWrite_keeps ..)
    | with_reducible apply Keeps.after (modPlane_keeps ..)
    | (intro _ _; try dsimp only)
    | (split <;> try dsimp only)

theorem takeSlot_keeps (x : TileResult) (s : State) :
    Keeps s (takeSlot x s) := by
  unfold takeSlot
  try dsimp only
  repeat' first
    | with_reducible exact Keeps.refl _
    | assumption
    | simp only [Keeps.upd_iff]
    | with_reducible apply Keeps.after (storeSlot_keeps ..)
    | (intro _ _; try dsimp only)
    | (split <;> try dsimp only)

theorem execHistorySlotArrival_keeps (s : State) :
    KeepsO s (execHistorySlotArrival s) := by
  unfold execHistorySlotArrival
  refine .next ?_
  try dsimp only
  repeat' first
    | with_reducible exact Keeps.refl _
    | assumption
    | simp only [Keeps.upd_iff]
    | with_reducible apply Keeps.after (takeSlot_keeps ..)
    | (intro _ _; try dsimp only)
    | (split <;> try dsimp only)

theorem synthesise_keeps (f epoch : Nat) (have_ : List Nat) (tile : Nat) (s : State) :
    Keeps s (synthesise f epoch have_ tile s) := by
  unfold synthesise
  try dsimp only
  repeat' first
    | with_reducible exact Keeps.refl _
    | assumption
    | simp only [Keeps.upd_iff]
    | with_reducible apply Keeps.after (commitTile_keeps ..)
    | with_reducible apply Keeps.after (storeSlot_keeps ..)
    | (split <;> try dsimp only)

theorem dropSlot_keeps (x : TileResult) (s : State) :
    Keeps s (dropSlot x s) := by
  unfold dropSlot
  try dsimp only
  repeat' first
    | with_reducible exact Keeps.refl _
    | assumption
    | simp only [Keeps.upd_iff]
    | with_reducible apply Keeps.after (storeSlot_keeps ..)
    | (intro _ _; try dsimp only)
    | (split <;> try dsimp only)

theorem synthesiseAll_keeps (s : State) :
    Keeps s (synthesiseAll s) := by
  unfold synthesiseAll
  try dsimp only
  repeat' first
    | with_reducible exact Keeps.refl _
    | assumption
    | simp only [Keeps.upd_iff]
    | ((with_reducible apply Keeps.after (forUpto_keeps ?_)) <;> try dsimp only)
    | ((with_reducible apply Keeps.after (forEach_keeps ?_)) <;> try dsimp only)
    | with_reducible apply Keeps.after (dropSlot_keeps ..)
    | with_reducible apply Keeps.after (recordCommit_keeps ..)
    | with_reducible apply Keeps.after (synthesise_keeps ..)
    | (intro _ _; try dsimp only)
    | (split <;> try dsimp only)

theorem openArrivals_keeps (s : State) :
    Keeps s (openArrivals s) := by
  unfold openArrivals
  try dsimp only
  repeat' first
    | with_reducible exact Keeps.refl _
    | assumption
    | simp only [Keeps.upd_iff]

theorem stage_keeps (jseq : Nat) (x : StagedSetting) (s : State) :
    Keeps s (stage jseq x s) := by
  unfold stage
  try dsimp only
  repeat' first
    | with_reducible exact Keeps.refl _
    | assumption
    | simp only [Keeps.upd_iff]
    | with_reducible apply Keeps.after (modEntry_keeps ..)

theorem execDlvSetRing_keeps (mb : Fin 8) (s : State) :
    KeepsO s (execDlvSetRing mb s) := by
  unfold execDlvSetRing
  refine runCommand_keeps fun o j p u => ?_
  try dsimp only
  repeat' first
    | with_reducible exact Keeps.refl _
    | assumption
    | simp only [Keeps.upd_iff]
    | ((with_reducible apply Keeps.after (checked_keeps ?_)) <;> try dsimp only)
    | with_reducible apply Keeps.after (stage_keeps ..)

theorem execDlvStatus_keeps (mb : Fin 8) (s : State) :
    KeepsO s (execDlvStatus mb s) := by
  unfold execDlvStatus
  refine runCommand_keeps fun o j p u => ?_
  try dsimp only
  repeat' first
    | with_reducible exact Keeps.refl _
    | assumption
    | simp only [Keeps.upd_iff]
    | ((with_reducible apply Keeps.after (checked_keeps ?_)) <;> try dsimp only)

theorem execFreezeHistory_keeps (mb : Fin 8) (s : State) :
    KeepsO s (execFreezeHistory mb s) := by
  unfold execFreezeHistory
  refine runCommand_keeps fun o j p u => ?_
  try dsimp only
  repeat' first
    | with_reducible exact Keeps.refl _
    | assumption
    | simp only [Keeps.upd_iff]
    | ((with_reducible apply Keeps.after (checked_keeps ?_)) <;> try dsimp only)
    | with_reducible apply Keeps.after (freezeHistory_keeps ..)
    | refine Keeps.trans ?_ (freezeHistory_keeps' (by assumption))
    | (intro _ _; try dsimp only)
    | (split <;> try dsimp only)

theorem readHistory_keeps (j : Nat) (p : Bytes) (s : State) :
    Keeps s (readHistory j p s).1 := by
  unfold readHistory
  try dsimp only
  repeat' first
    | with_reducible exact Keeps.refl _
    | assumption
    | simp only [Keeps.upd_iff]
    | with_reducible apply Keeps.after (modHod_keeps ..)
    | (split <;> try dsimp only)

theorem readHistory_keeps' {j : Nat} {p : Bytes} {s : State} {t : State} {x} (hx : readHistory j p s = (t, x)) : Keeps s t := by
  have e := readHistory_keeps j p s
  rw [hx] at e
  exact e

theorem execReadHistory_keeps (mb : Fin 8) (s : State) :
    KeepsO s (execReadHistory mb s) := by
  unfold execReadHistory
  refine runCommand_keeps fun o j p u => ?_
  try dsimp only
  repeat' first
    | with_reducible exact Keeps.refl _
    | assumption
    | simp only [Keeps.upd_iff]
    | with_reducible apply Keeps.after (readHistory_keeps ..)
    | refine Keeps.trans ?_ (readHistory_keeps' (by assumption))
    | (split <;> try dsimp only)

theorem copyOut_keeps (bs : Bytes) (c : HistCopy × State) : Keeps c.2 (copyOut bs c).2 := hostWrite_keeps ..

theorem copyTag_keeps (x : HistRead) (k t : Nat) (c : HistCopy × State) : Keeps c.2 (copyTag x k t c).2 := by
  unfold copyTag
  dsimp only
  exact Keeps.trans (dramRead_keeps (tagAddr k t) 32 c.2) (copyOut_keeps _ (c.1, _))

theorem copySlot_keeps (k t : Nat) (c : HistCopy × State) : Keeps c.2 (copySlot k t c).2 := by
  unfold copySlot
  dsimp only
  exact Keeps.trans (dramRead_keeps (slotAddr k t) 2048 c.2) (copyOut_keeps _ (c.1, _))

theorem copyFrame_keeps (x : HistRead) (f : Nat) (c : HistCopy × State) : Keeps c.2 (copyFrame x f c).2 := by
  unfold copyFrame
  split
  · exact .refl _
  · next k _ =>
    dsimp only
    repeat' first
      | with_reducible exact Keeps.refl _
      | with_reducible apply Keeps.after (forUpto_snd_keeps ?_)
      | intro _ _
      | with_reducible apply Keeps.after (copyTag_keeps ..)
      | with_reducible apply Keeps.after (copySlot_keeps ..)
      | exact Keeps.trans (dramRead_keeps (headerAddr k) 64 c.2) (copyOut_keeps _ (c.1, _))
      | split

theorem execReadHistoryDone_keeps (s : State) : KeepsO s (execReadHistoryDone s) := by
  unfold execReadHistoryDone
  refine .next ?_
  split
  · exact .refl s
  · next x _ _ =>
    split
    · exact .refl s
    · have k : Keeps s (forEach x.frames (copyFrame x) ({ addr := x.dest }, s)).2 :=
        forEach_snd_keeps (c := (({ addr := x.dest } : HistCopy), s)) (fun f c => copyFrame_keeps x f c)
      exact Keeps.after (finish_keeps ..) (Keeps.after (logEv_keeps ..) (Keeps.after (modHod_keeps ..) k.upd))

theorem execHistInfo_keeps (mb : Fin 8) (s : State) :
    KeepsO s (execHistInfo mb s) := by
  unfold execHistInfo
  refine runCommand_keeps fun o j p u => ?_
  try dsimp only
  repeat' first
    | with_reducible exact Keeps.refl _
    | assumption
    | simp only [Keeps.upd_iff]
    | ((with_reducible apply Keeps.after (checked_keeps ?_)) <;> try dsimp only)
    | with_reducible refine Keeps.drawn ?_

end Sys2Proof
end

