-- ==== Sys2Proof/Laws/KeepsGridCommands.lean ====
section
/-! SUPPORT. Every operation and meaning of Machine/GridCommands.lean keeps the queue, the drawn values, the trace and the invariant. -/

namespace Sys2Proof

/-! One proof at a time: proofs that wait on one another each hold a thread of their own. -/
set_option Elab.async false

open Sys2Proof.Machine

theorem execGridSetColumns_keeps (mb : Fin 8) (s : State) :
    KeepsO s (execGridSetColumns mb s) := by
  unfold execGridSetColumns
  refine runCommand_keeps fun o j p u => ?_
  try dsimp only
  repeat' first
    | with_reducible exact Keeps.refl _
    | assumption
    | simp only [Keeps.upd_iff]
    | ((with_reducible apply Keeps.after (checked_keeps ?_)) <;> try dsimp only)
    | with_reducible apply Keeps.after (stage_keeps ..)

theorem execGridGetColumns_keeps (mb : Fin 8) (s : State) :
    KeepsO s (execGridGetColumns mb s) := by
  unfold execGridGetColumns
  refine runCommand_keeps fun o j p u => ?_
  try dsimp only
  repeat' first
    | with_reducible exact Keeps.refl _
    | assumption
    | simp only [Keeps.upd_iff]
    | ((with_reducible apply Keeps.after (checked_keeps ?_)) <;> try dsimp only)

theorem execAngleSetScan_keeps (mb : Fin 8) (s : State) :
    KeepsO s (execAngleSetScan mb s) := by
  unfold execAngleSetScan
  refine runCommand_keeps fun o j p u => ?_
  try dsimp only
  repeat' first
    | with_reducible exact Keeps.refl _
    | assumption
    | simp only [Keeps.upd_iff]
    | ((with_reducible apply Keeps.after (checked_keeps ?_)) <;> try dsimp only)
    | with_reducible apply Keeps.after (stage_keeps ..)

theorem execAngleSetIndex_keeps (mb : Fin 8) (s : State) :
    KeepsO s (execAngleSetIndex mb s) := by
  unfold execAngleSetIndex
  refine runCommand_keeps fun o j p u => ?_
  try dsimp only
  repeat' first
    | with_reducible exact Keeps.refl _
    | assumption
    | simp only [Keeps.upd_iff]
    | ((with_reducible apply Keeps.after (checked_keeps ?_)) <;> try dsimp only)
    | with_reducible apply Keeps.after (stage_keeps ..)

theorem execAngleStatus_keeps (mb : Fin 8) (s : State) :
    KeepsO s (execAngleStatus mb s) := by
  unfold execAngleStatus
  refine runCommand_keeps fun o j p u => ?_
  try dsimp only
  repeat' first
    | with_reducible exact Keeps.refl _
    | assumption
    | simp only [Keeps.upd_iff]
    | ((with_reducible apply Keeps.after (checked_keeps ?_)) <;> try dsimp only)

theorem execShotSetProgram_keeps (mb : Fin 8) (s : State) :
    KeepsO s (execShotSetProgram mb s) := by
  unfold execShotSetProgram
  refine runCommand_keeps fun o j p u => ?_
  try dsimp only
  repeat' first
    | with_reducible exact Keeps.refl _
    | assumption
    | simp only [Keeps.upd_iff]
    | ((with_reducible apply Keeps.after (checked_keeps ?_)) <;> try dsimp only)
    | with_reducible apply Keeps.after (stage_keeps ..)

theorem execAllocSet_keeps (mb : Fin 8) (s : State) :
    KeepsO s (execAllocSet mb s) := by
  unfold execAllocSet
  refine runCommand_keeps fun o j p u => ?_
  try dsimp only
  repeat' first
    | with_reducible exact Keeps.refl _
    | assumption
    | simp only [Keeps.upd_iff]
    | ((with_reducible apply Keeps.after (checked_keeps ?_)) <;> try dsimp only)
    | with_reducible apply Keeps.after (stage_keeps ..)

theorem execTpmSetWeights_keeps (mb : Fin 8) (s : State) :
    KeepsO s (execTpmSetWeights mb s) := by
  unfold execTpmSetWeights
  refine runCommand_keeps fun o j p u => ?_
  try dsimp only
  repeat' first
    | with_reducible exact Keeps.refl _
    | assumption
    | simp only [Keeps.upd_iff]
    | ((with_reducible apply Keeps.after (checked_keeps ?_)) <;> try dsimp only)
    | with_reducible apply Keeps.after (stage_keeps ..)

theorem execTpmRead_keeps (mb : Fin 8) (s : State) :
    KeepsO s (execTpmRead mb s) := by
  unfold execTpmRead
  refine runCommand_keeps fun o j p u => ?_
  try dsimp only
  repeat' first
    | with_reducible exact Keeps.refl _
    | assumption
    | simp only [Keeps.upd_iff]
    | ((with_reducible apply Keeps.after (checked_keeps ?_)) <;> try dsimp only)

theorem disableCourse_keeps (c : Nat) (s : State) :
    Keeps s (disableCourse c s) := by
  unfold disableCourse
  try dsimp only
  repeat' first
    | with_reducible exact Keeps.refl _
    | assumption
    | simp only [Keeps.upd_iff]
    | with_reducible apply Keeps.after (modCourse_keeps ..)
    | with_reducible apply Keeps.after (stopCourse_keeps ..)

theorem courseAction_keeps (action : Nat) (cs : List Nat) (s : State) :
    Keeps s (courseAction action cs s) := by
  unfold courseAction
  try dsimp only
  repeat' first
    | with_reducible exact Keeps.refl _
    | assumption
    | simp only [Keeps.upd_iff]
    | ((with_reducible apply Keeps.after (forEach_keeps ?_)) <;> try dsimp only)
    | with_reducible apply Keeps.after (logEv_keeps ..)
    | with_reducible apply Keeps.after (modCourse_keeps ..)
    | with_reducible apply Keeps.after (disableCourse_keeps ..)
    | (intro _ _; try dsimp only)
    | (split <;> try dsimp only)

theorem execShotCourseEnable_keeps (mb : Fin 8) (s : State) :
    KeepsO s (execShotCourseEnable mb s) := by
  unfold execShotCourseEnable
  refine runCommand_keeps fun o j p u => ?_
  try dsimp only
  repeat' first
    | with_reducible exact Keeps.refl _
    | assumption
    | simp only [Keeps.upd_iff]
    | ((with_reducible apply Keeps.after (checked_keeps ?_)) <;> try dsimp only)
    | with_reducible apply Keeps.after (courseAction_keeps ..)

theorem schedulerOff_keeps (s : State) :
    Keeps s (schedulerOff s) := by
  unfold schedulerOff
  try dsimp only
  repeat' first
    | with_reducible exact Keeps.refl _
    | assumption
    | simp only [Keeps.upd_iff]
    | ((with_reducible apply Keeps.after (eachCourse_keeps ?_)) <;> try dsimp only)
    | with_reducible apply Keeps.after (logEv_keeps ..)
    | with_reducible apply Keeps.after (stopCourse_keeps ..)
    | (intro _ _; try dsimp only)
    | (split <;> try dsimp only)

theorem schedulerOn_keeps (s : State) :
    Keeps s (schedulerOn s) := by
  unfold schedulerOn
  try dsimp only
  repeat' first
    | with_reducible exact Keeps.refl _
    | assumption
    | simp only [Keeps.upd_iff]
    | with_reducible apply Keeps.after (logEv_keeps ..)
    | (split <;> try dsimp only)

theorem execShotScheduler_keeps (mb : Fin 8) (s : State) :
    KeepsO s (execShotScheduler mb s) := by
  unfold execShotScheduler
  refine runCommand_keeps fun o j p u => ?_
  try dsimp only
  repeat' first
    | with_reducible exact Keeps.refl _
    | assumption
    | simp only [Keeps.upd_iff]
    | ((with_reducible apply Keeps.after (checked_keeps ?_)) <;> try dsimp only)
    | with_reducible apply Keeps.after (schedulerOff_keeps ..)
    | with_reducible apply Keeps.after (schedulerOn_keeps ..)
    | (split <;> try dsimp only)

theorem clearShot_keeps (c : Nat) (s : State) :
    Keeps s (clearShot c s) := by
  unfold clearShot
  try dsimp only
  repeat' first
    | with_reducible exact Keeps.refl _
    | assumption
    | simp only [Keeps.upd_iff]
    | ((with_reducible apply Keeps.after (forEach_keeps ?_)) <;> try dsimp only)
    | with_reducible apply Keeps.after (modCourse_keeps ..)
    | (intro _ _; try dsimp only)

theorem execShotStatus_keeps (mb : Fin 8) (s : State) :
    KeepsO s (execShotStatus mb s) := by
  unfold execShotStatus
  refine runCommand_keeps fun o j p u => ?_
  try dsimp only
  repeat' first
    | with_reducible exact Keeps.refl _
    | assumption
    | simp only [Keeps.upd_iff]
    | ((with_reducible apply Keeps.after (checked_keeps ?_)) <;> try dsimp only)
    | with_reducible apply Keeps.after (clearShot_keeps ..)
    | (split <;> try dsimp only)

end Sys2Proof
end

