-- ==== Sys2Proof/Laws/KeepsRun.lean ====
section
/-! SUPPORT. Every operation and meaning of Machine/Run.lean keeps the queue, the drawn values, the trace and the invariant. -/

namespace Sys2Proof

/-! One proof at a time: proofs that wait on one another each hold a thread of their own. -/
set_option Elab.async false

open Sys2Proof.Machine

theorem unarm_keeps (s : State) :
    Keeps s (unarm s) := by
  unfold unarm
  try dsimp only
  repeat' first
    | with_reducible exact Keeps.refl _
    | assumption
    | simp only [Keeps.upd_iff]
    | with_reducible apply Keeps.after (logEv_keeps ..)
    | with_reducible apply Keeps.after (schedulerOff_keeps ..)
    | (split <;> try dsimp only)

theorem armRun_keeps (s : State) :
    Keeps s (armRun s).1 := by
  unfold armRun
  try dsimp only
  repeat' first
    | with_reducible exact Keeps.refl _
    | assumption
    | simp only [Keeps.upd_iff]
    | with_reducible apply Keeps.after (logEv_keeps ..)
    | (intro _ _; try dsimp only)
    | (split <;> try dsimp only)

theorem armRun_keeps' {s : State} {t : State} {x} (hx : armRun s = (t, x)) : Keeps s t := by
  have e := armRun_keeps s
  rw [hx] at e
  exact e

theorem execRunArm_keeps (mb : Fin 8) (s : State) :
    KeepsO s (execRunArm mb s) := by
  unfold execRunArm
  refine runCommand_keeps fun o j p u => ?_
  try dsimp only
  repeat' first
    | with_reducible exact Keeps.refl _
    | assumption
    | simp only [Keeps.upd_iff]
    | ((with_reducible apply Keeps.after (checked_keeps ?_)) <;> try dsimp only)
    | with_reducible apply Keeps.after (armRun_keeps ..)

theorem execRunDisarm_keeps (mb : Fin 8) (s : State) :
    KeepsO s (execRunDisarm mb s) := by
  unfold execRunDisarm
  refine runCommand_keeps fun o j p u => ?_
  try dsimp only
  repeat' first
    | with_reducible exact Keeps.refl _
    | assumption
    | simp only [Keeps.upd_iff]
    | ((with_reducible apply Keeps.after (checked_keeps ?_)) <;> try dsimp only)
    | with_reducible apply Keeps.after (unarm_keeps ..)

theorem execRunStatus_keeps (mb : Fin 8) (s : State) :
    KeepsO s (execRunStatus mb s) := by
  unfold execRunStatus
  refine runCommand_keeps fun o j p u => ?_
  try dsimp only
  repeat' first
    | with_reducible exact Keeps.refl _
    | assumption
    | simp only [Keeps.upd_iff]
    | ((with_reducible apply Keeps.after (checked_keeps ?_)) <;> try dsimp only)

theorem noteReset_keeps (b : Nat) (s : State) :
    Keeps s (noteReset b s) := by
  unfold noteReset
  try dsimp only
  repeat' first
    | with_reducible exact Keeps.refl _
    | assumption
    | simp only [Keeps.upd_iff]
    | with_reducible apply Keeps.after (logEv_keeps ..)

theorem closeSession_keeps (code : Nat) (s : State) :
    Keeps s (closeSession code s) := by
  unfold closeSession
  try dsimp only
  repeat' first
    | with_reducible exact Keeps.refl _
    | assumption
    | simp only [Keeps.upd_iff]
    | with_reducible apply Keeps.after (logEv_keeps ..)
    | with_reducible apply Keeps.after (esLock_keeps ..)
    | (split <;> try dsimp only)

end Sys2Proof
end

