-- ==== Sys2Proof/Laws/KeepsDieA.lean ====
section
/-! SUPPORT. Every operation and meaning of Machine/DieA.lean keeps the queue, the drawn values, the trace and the invariant. -/

namespace Sys2Proof

/-! One proof at a time: proofs that wait on one another each hold a thread of their own. -/
set_option Elab.async false

open Sys2Proof.Machine

theorem mortarDown_keeps (s : State) :
    Keeps s (mortarDown s) := by
  unfold mortarDown
  try dsimp only
  repeat' first
    | with_reducible exact Keeps.refl _
    | assumption
    | simp only [Keeps.upd_iff]
    | ((with_reducible apply Keeps.after (forUpto_keeps ?_)) <;> try dsimp only)
    | with_reducible apply Keeps.after (modLane_keeps ..)
    | (intro _ _; try dsimp only)
    | (split <;> try dsimp only)

theorem mirrorDown_keeps (s : State) :
    Keeps s (mirrorDown s) := by
  unfold mirrorDown
  try dsimp only
  repeat' first
    | with_reducible exact Keeps.refl _
    | assumption
    | simp only [Keeps.upd_iff]

theorem lanesLeft_keeps (before : Nat) (s : State) :
    Keeps s (lanesLeft before s) := by
  unfold lanesLeft
  try dsimp only
  repeat' first
    | with_reducible exact Keeps.refl _
    | assumption
    | simp only [Keeps.upd_iff]
    | with_reducible apply Keeps.after (logEv_keeps ..)
    | with_reducible apply Keeps.after (mirrorDown_keeps ..)
    | (intro _ _; try dsimp only)
    | (split <;> try dsimp only)

theorem execMortarLinkUp_keeps (s : State) :
    KeepsO s (execMortarLinkUp s) := by
  unfold execMortarLinkUp
  refine .next ?_
  try dsimp only
  repeat' first
    | with_reducible exact Keeps.refl _
    | assumption
    | simp only [Keeps.upd_iff]
    | ((with_reducible apply Keeps.after (forUpto_keeps ?_)) <;> try dsimp only)
    | with_reducible apply Keeps.after (modLane_keeps ..)
    | (intro _ _; try dsimp only)
    | (split <;> try dsimp only)

theorem mortarLaneLoss_keeps (i : Nat) (hunt : Bool) (s : State) :
    Keeps s (mortarLaneLoss i hunt s) := by
  unfold mortarLaneLoss
  try dsimp only
  repeat' first
    | with_reducible exact Keeps.refl _
    | assumption
    | simp only [Keeps.upd_iff]
    | with_reducible apply Keeps.after (lanesLeft_keeps ..)
    | with_reducible apply Keeps.after (logLane_keeps ..)
    | with_reducible apply Keeps.after (modLane_keeps ..)
    | with_reducible apply Keeps.after (raiseIrq_keeps ..)
    | (intro _ _; try dsimp only)
    | (split <;> try dsimp only)

theorem execMortarLaneLoss_keeps (i : Fin 12) (s : State) :
    KeepsO s (execMortarLaneLoss i s) := by
  unfold execMortarLaneLoss
  refine .next ?_
  try dsimp only
  repeat' first
    | with_reducible exact Keeps.refl _
    | assumption
    | simp only [Keeps.upd_iff]
    | with_reducible apply Keeps.after (mortarLaneLoss_keeps ..)
    | (intro _ _; try dsimp only)
    | (split <;> try dsimp only)

theorem execMortarLaneRegained_keeps (i : Fin 12) (s : State) :
    KeepsO s (execMortarLaneRegained i s) := by
  unfold execMortarLaneRegained
  refine .next ?_
  try dsimp only
  repeat' first
    | with_reducible exact Keeps.refl _
    | assumption
    | simp only [Keeps.upd_iff]
    | with_reducible apply Keeps.after (logLane_keeps ..)
    | with_reducible apply Keeps.after (modLane_keeps ..)
    | with_reducible apply Keeps.after (raiseIrq_keeps ..)
    | (intro _ _; try dsimp only)
    | (split <;> try dsimp only)

theorem loseDieA_keeps (s : State) : Keeps s (loseDieA s) :=
  (emit_keeps _ _ rfl).after (setPred_keeps .stopped s).closed

theorem failCapture_keeps (s : State) :
    Keeps s (failCapture s) := by
  unfold failCapture
  try dsimp only
  repeat' first
    | with_reducible exact Keeps.refl _
    | assumption
    | simp only [Keeps.upd_iff]
    | with_reducible apply Keeps.after (finish_keeps ..)
    | (split <;> try dsimp only)

theorem stopDieA_keeps (s : State) :
    Keeps s (stopDieA s) := by
  unfold stopDieA
  try dsimp only
  repeat' first
    | with_reducible exact Keeps.refl _
    | assumption
    | simp only [Keeps.upd_iff]
    | with_reducible apply Keeps.after (logGoverned_keeps ..)
    | with_reducible apply Keeps.after (cutPulses_keeps ..)
    | with_reducible apply Keeps.after (synthesiseAll_keeps ..)
    | with_reducible apply Keeps.after (resetCapture_keeps ..)
    | with_reducible apply Keeps.after (mortarDown_keeps ..)
    | with_reducible apply Keeps.after (mirrorDown_keeps ..)
    | with_reducible apply Keeps.after (loseDieA_keeps ..)
    | with_reducible apply Keeps.after (failCapture_keeps ..)
    | (split <;> try dsimp only)

theorem resetDieA_keeps (cause : Nat) (s : State) :
    Keeps s (resetDieA cause s) := by
  unfold resetDieA
  try dsimp only
  repeat' first
    | with_reducible exact Keeps.refl _
    | assumption
    | simp only [Keeps.upd_iff]
    | with_reducible apply Keeps.after (logEv_keeps ..)
    | with_reducible apply Keeps.after (raiseIrq_keeps ..)
    | with_reducible apply Keeps.after (noteReset_keeps ..)
    | with_reducible apply Keeps.after (stopDieA_keeps ..)

theorem execDieAReset_keeps (cause : DieAResetCause) (s : State) :
    KeepsO s (execDieAReset cause s) := by
  unfold execDieAReset
  refine .next ?_
  try dsimp only
  repeat' first
    | with_reducible exact Keeps.refl _
    | assumption
    | simp only [Keeps.upd_iff]
    | with_reducible apply Keeps.after (resetDieA_keeps ..)
    | (split <;> try dsimp only)

theorem restorePredictor_keeps (s : State) :
    Keeps s (restorePredictor s) := by
  unfold restorePredictor
  try dsimp only
  repeat' first
    | with_reducible exact Keeps.refl _
    | assumption
    | simp only [Keeps.upd_iff]
    | with_reducible apply Keeps.after (setPred_keeps ..)
    | (intro _ _; try dsimp only)
    | (split <;> try dsimp only)

theorem execDieARestored_keeps (s : State) :
    KeepsO s (execDieARestored s) := by
  unfold execDieARestored
  refine .next ?_
  try dsimp only
  repeat' first
    | with_reducible exact Keeps.refl _
    | assumption
    | simp only [Keeps.upd_iff]
    | ((with_reducible refine Keeps.after (emit_keeps _ _ ?_) ?_); exact rfl)
    | with_reducible apply Keeps.after (logEv_keeps ..)
    | with_reducible apply Keeps.after (raiseIrq_keeps ..)
    | with_reducible apply Keeps.after (restorePredictor_keeps ..)
    | (intro _ _; try dsimp only)
    | (split <;> try dsimp only)

theorem failWaiting_keeps (s : State) :
    Keeps s (failWaiting s) := by
  unfold failWaiting
  try dsimp only
  repeat' first
    | with_reducible exact Keeps.refl _
    | assumption
    | simp only [Keeps.upd_iff]
    | ((with_reducible apply Keeps.after (forEach_keeps ?_)) <;> try dsimp only)
    | with_reducible apply Keeps.after (dropCommit_keeps ..)
    | with_reducible apply Keeps.after (finish_keeps ..)
    | with_reducible apply Keeps.after (logEv_keeps ..)
    | (intro _ _; try dsimp only)
    | (split <;> try dsimp only)

theorem execDieARestoreTimeout_keeps (s : State) :
    KeepsO s (execDieARestoreTimeout s) := by
  unfold execDieARestoreTimeout
  refine .next ?_
  try dsimp only
  repeat' first
    | with_reducible exact Keeps.refl _
    | assumption
    | simp only [Keeps.upd_iff]
    | with_reducible apply Keeps.after (logEv_keeps ..)
    | with_reducible apply Keeps.after (mortarDown_keeps ..)
    | with_reducible apply Keeps.after (failWaiting_keeps ..)
    | (split <;> try dsimp only)

theorem execHeartbeatLoss_keeps (atDieA : Bool) (s : State) :
    KeepsO s (execHeartbeatLoss atDieA s) := by
  unfold execHeartbeatLoss
  refine .next ?_
  try dsimp only
  repeat' first
    | with_reducible exact Keeps.refl _
    | assumption
    | simp only [Keeps.upd_iff]
    | with_reducible apply Keeps.after (cutPulses_keeps ..)
    | with_reducible apply Keeps.after (resetDieA_keeps ..)
    | (intro _ _; try dsimp only)
    | (split <;> try dsimp only)

theorem execSafetyHeartbeat_keeps (atDieA : Bool) (s : State) :
    KeepsO s (execSafetyHeartbeat atDieA s) := by
  unfold execSafetyHeartbeat
  refine .next ?_
  try dsimp only
  repeat' first
    | with_reducible exact Keeps.refl _
    | assumption
    | simp only [Keeps.upd_iff]
    | (split <;> try dsimp only)

end Sys2Proof
end

