-- ==== Sys2Proof/Laws/KeepsEngines.lean ====
section
/-! SUPPORT. Every operation and meaning of Machine/Engines.lean keeps the queue, the drawn values, the trace and the invariant. -/

namespace Sys2Proof

/-! One proof at a time: proofs that wait on one another each hold a thread of their own. -/
set_option Elab.async false

open Sys2Proof.Machine

theorem execEngineP1Start_keeps (e : Fin 32) (s : State) :
    KeepsO s (execEngineP1Start e s) := by
  unfold execEngineP1Start
  refine .next ?_
  try dsimp only
  repeat' first
    | with_reducible exact Keeps.refl _
    | assumption
    | simp only [Keeps.upd_iff]
    | with_reducible apply Keeps.after (modEngine_keeps ..)
    | with_reducible apply Keeps.after (modTile_keeps ..)
    | (split <;> try dsimp only)

theorem enterP2_keeps (e : Nat) (s : State) :
    Keeps s (enterP2 e s) := by
  unfold enterP2
  try dsimp only
  repeat' first
    | with_reducible exact Keeps.refl _
    | assumption
    | simp only [Keeps.upd_iff]
    | with_reducible apply Keeps.after (modTile_keeps ..)
    | (split <;> try dsimp only)

theorem engineErrors_keeps (e : Nat) (t : Tile) (corr uncorr : Nat) (s : State) :
    Keeps s (engineErrors e t corr uncorr s) := by
  unfold engineErrors
  try dsimp only
  repeat' first
    | with_reducible exact Keeps.refl _
    | assumption
    | simp only [Keeps.upd_iff]
    | with_reducible apply Keeps.after (logEv_keeps ..)
    | with_reducible apply Keeps.after (raiseIrq_keeps ..)
    | with_reducible apply Keeps.after (modEngine_keeps ..)
    | with_reducible apply Keeps.after (modTile_keeps ..)
    | (split <;> try dsimp only)

theorem execEngineP1Done_keeps (e : Fin 32) (corr uncorr : Nat) (s : State) :
    KeepsO s (execEngineP1Done e corr uncorr s) := by
  unfold execEngineP1Done
  refine .next ?_
  try dsimp only
  repeat' first
    | with_reducible exact Keeps.refl _
    | assumption
    | simp only [Keeps.upd_iff]
    | with_reducible apply Keeps.after (modEngine_keeps ..)
    | with_reducible apply Keeps.after (modTile_keeps ..)
    | with_reducible apply Keeps.after (enterP2_keeps ..)
    | with_reducible apply Keeps.after (engineErrors_keeps ..)
    | (split <;> try dsimp only)

theorem finishTile_keeps (t : Tile) (s : State) :
    Keeps s (finishTile t s) := by
  unfold finishTile
  try dsimp only
  repeat' first
    | with_reducible exact Keeps.refl _
    | assumption
    | simp only [Keeps.upd_iff]
    | with_reducible apply Keeps.after (modCourse_keeps ..)
    | with_reducible apply Keeps.after (modEngine_keeps ..)
    | with_reducible apply Keeps.after (modRej_keeps ..)
    | (intro _ _; try dsimp only)
    | (split <;> try dsimp only)

end Sys2Proof
end

