-- ==== Sys2Proof/Laws/KeepsThermal.lean ====
section
/-! SUPPORT. Every operation and meaning of Machine/Thermal.lean keeps the queue, the drawn values, the trace and the invariant. -/

namespace Sys2Proof

/-! One proof at a time: proofs that wait on one another each hold a thread of their own. -/
set_option Elab.async false

open Sys2Proof.Machine

theorem noteReading_keeps (v : Int) (s : State) :
    Keeps s (noteReading v s) := by
  unfold noteReading
  try dsimp only
  repeat' first
    | with_reducible exact Keeps.refl _
    | assumption
    | simp only [Keeps.upd_iff]

theorem declareShutdown_keeps (who : Nat) (rise : Int) (s : State) :
    Keeps s (declareShutdown who rise s) := by
  unfold declareShutdown
  try dsimp only
  repeat' first
    | with_reducible exact Keeps.refl _
    | assumption
    | simp only [Keeps.upd_iff]
    | with_reducible apply Keeps.after (logEv_keeps ..)
    | with_reducible apply Keeps.after (esArise_keeps ..)
    | with_reducible apply Keeps.after (unarm_keeps ..)
    | with_reducible apply Keeps.after (noteReset_keeps ..)

theorem setClocks_keeps (ts : Nat) (s : State) :
    Keeps s (setClocks ts s) := by
  unfold setClocks
  try dsimp only
  repeat' first
    | with_reducible exact Keeps.refl _
    | assumption
    | simp only [Keeps.upd_iff]
    | ((with_reducible apply Keeps.after (forUpto_keeps ?_)) <;> try dsimp only)
    | with_reducible apply Keeps.after (modEngine_keeps ..)
    | (intro _ _; try dsimp only)
    | (split <;> try dsimp only)

theorem throttleClock_keeps (s : State) :
    Keeps s (throttleClock s) := by
  unfold throttleClock
  try dsimp only
  repeat' first
    | with_reducible exact Keeps.refl _
    | assumption
    | simp only [Keeps.upd_iff]
    | (split <;> try dsimp only)

theorem levelsChanged_keeps (ts : Nat) (s : State) :
    Keeps s (levelsChanged ts s) := by
  unfold levelsChanged
  try dsimp only
  repeat' first
    | with_reducible exact Keeps.refl _
    | assumption
    | simp only [Keeps.upd_iff]
    | with_reducible apply Keeps.after (raiseIrq_keeps ..)
    | with_reducible apply Keeps.after (logEv_keeps ..)
    | with_reducible apply Keeps.after (declareShutdown_keeps ..)
    | with_reducible apply Keeps.after (setClocks_keeps ..)
    | with_reducible apply Keeps.after (throttleClock_keeps ..)
    | (split <;> try dsimp only)

theorem readSensor_keeps (ts : Nat) (r : Option Int) (s : State) :
    Keeps s (readSensor ts r s) := by
  unfold readSensor
  try dsimp only
  repeat' first
    | with_reducible exact Keeps.refl _
    | assumption
    | simp only [Keeps.upd_iff]
    | with_reducible apply Keeps.after (logEv_keeps ..)
    | with_reducible apply Keeps.after (modSensor_keeps ..)
    | with_reducible apply Keeps.after (noteReading_keeps ..)
    | with_reducible apply Keeps.after (levelsChanged_keeps ..)
    | (split <;> try dsimp only)

theorem execTempReading_keeps (ts : Fin 12) (reading : Option Int) (s : State) :
    KeepsO s (execTempReading ts reading s) := by
  unfold execTempReading
  refine .next ?_
  try dsimp only
  repeat' first
    | with_reducible exact Keeps.refl _
    | assumption
    | simp only [Keeps.upd_iff]
    | with_reducible apply Keeps.after (readSensor_keeps ..)
    | (split <;> try dsimp only)

theorem rateMark_keeps (ts : Nat) (s : State) :
    Keeps s (rateMark ts s) := by
  unfold rateMark
  try dsimp only
  repeat' first
    | with_reducible exact Keeps.refl _
    | assumption
    | simp only [Keeps.upd_iff]
    | with_reducible apply Keeps.after (levelsChanged_keeps ..)
    | with_reducible apply Keeps.after (logEv_keeps ..)
    | with_reducible apply Keeps.after (modSensor_keeps ..)
    | (intro _ _; try dsimp only)
    | (split <;> try dsimp only)

theorem execThRateMark_keeps (s : State) :
    KeepsO s (execThRateMark s) := by
  unfold execThRateMark
  refine .next ?_
  try dsimp only
  repeat' first
    | with_reducible exact Keeps.refl _
    | assumption
    | simp only [Keeps.upd_iff]
    | ((with_reducible apply Keeps.after (forUpto_keeps ?_)) <;> try dsimp only)
    | with_reducible apply Keeps.after (rateMark_keeps ..)
    | (intro _ _; try dsimp only)
    | (split <;> try dsimp only)

theorem execThShutdownEntry_keeps (s : State) :
    KeepsO s (execThShutdownEntry s) := by
  unfold execThShutdownEntry
  refine .next ?_
  try dsimp only
  repeat' first
    | with_reducible exact Keeps.refl _
    | assumption
    | simp only [Keeps.upd_iff]
    | with_reducible apply Keeps.after (nvWrite_keeps ..)
    | refine Keeps.trans ?_ (nvWrite_keeps' (by assumption))
    | (split <;> try dsimp only)

theorem execThConfig_keeps (mb : Fin 8) (s : State) :
    KeepsO s (execThConfig mb s) := by
  unfold execThConfig
  refine runCommand_keeps fun o j p u => ?_
  try dsimp only
  repeat' first
    | with_reducible exact Keeps.refl _
    | assumption
    | simp only [Keeps.upd_iff]
    | ((with_reducible apply Keeps.after (checked_keeps ?_)) <;> try dsimp only)
    | with_reducible apply Keeps.after (logEv_keeps ..)

theorem execThStatus_keeps (mb : Fin 8) (s : State) :
    KeepsO s (execThStatus mb s) := by
  unfold execThStatus
  refine runCommand_keeps fun o j p u => ?_
  try dsimp only
  repeat' first
    | with_reducible exact Keeps.refl _
    | assumption
    | simp only [Keeps.upd_iff]
    | ((with_reducible apply Keeps.after (checked_keeps ?_)) <;> try dsimp only)

end Sys2Proof
end

