-- ==== Sys2Proof/Laws/KeepsHousekeeping.lean ====
section
/-! SUPPORT. Every operation and meaning of Machine/Housekeeping.lean keeps the queue, the drawn values, the trace and the invariant. -/

namespace Sys2Proof

/-! One proof at a time: proofs that wait on one another each hold a thread of their own. -/
set_option Elab.async false

open Sys2Proof.Machine

theorem setSwitch_keeps (ch : Nat) (low on : Bool) (s : State) :
    Keeps s (setSwitch ch low on s) := by
  unfold setSwitch
  try dsimp only
  repeat' first
    | with_reducible exact Keeps.refl _
    | assumption
    | simp only [Keeps.upd_iff]
    | with_reducible apply Keeps.after (raiseIrq_keeps ..)
    | with_reducible apply Keeps.after (logEv_keeps ..)
    | with_reducible apply Keeps.after (modHk_keeps ..)
    | (split <;> try dsimp only)

theorem passSwitches_keeps (ch : Nat) (y : Int) (s : State) :
    Keeps s (passSwitches ch y s) := by
  unfold passSwitches
  try dsimp only
  repeat' first
    | with_reducible exact Keeps.refl _
    | assumption
    | simp only [Keeps.upd_iff]
    | with_reducible apply Keeps.after (esArise_keeps ..)
    | with_reducible apply Keeps.after (setSwitch_keeps ..)
    | (split <;> try dsimp only)

theorem diodeReading_keeps (ch : Nat) (y : Int) (s : State) :
    Keeps s (diodeReading ch y s) := by
  unfold diodeReading
  try dsimp only
  repeat' first
    | with_reducible exact Keeps.refl _
    | assumption
    | simp only [Keeps.upd_iff]
    | with_reducible apply Keeps.after (noteReading_keeps ..)
    | (split <;> try dsimp only)

theorem takeValue_keeps (ch : Nat) (y : Int) (s : State) :
    Keeps s (takeValue ch y s) := by
  unfold takeValue
  try dsimp only
  repeat' first
    | with_reducible exact Keeps.refl _
    | assumption
    | simp only [Keeps.upd_iff]
    | with_reducible apply Keeps.after (modHk_keeps ..)
    | with_reducible apply Keeps.after (passSwitches_keeps ..)
    | with_reducible apply Keeps.after (diodeReading_keeps ..)

theorem goodConversion_keeps (ch : Nat) (code : Int) (s : State) :
    Keeps s (goodConversion ch code s) := by
  unfold goodConversion
  try dsimp only
  repeat' first
    | with_reducible exact Keeps.refl _
    | assumption
    | simp only [Keeps.upd_iff]
    | with_reducible apply Keeps.after (modHk_keeps ..)
    | with_reducible apply Keeps.after (takeValue_keeps ..)
    | (split <;> try dsimp only)

theorem convertSlot_keeps (ch : Nat) (code : Int) (over_ brk : Bool) (s : State) :
    Keeps s (convertSlot ch code over_ brk s) := by
  unfold convertSlot
  try dsimp only
  repeat' first
    | with_reducible exact Keeps.refl _
    | assumption
    | simp only [Keeps.upd_iff]
    | with_reducible apply Keeps.after (logEv_keeps ..)
    | with_reducible apply Keeps.after (modHk_keeps ..)
    | with_reducible apply Keeps.after (dacCheck_keeps ..)
    | with_reducible apply Keeps.after (passSwitches_keeps ..)
    | with_reducible apply Keeps.after (goodConversion_keeps ..)
    | (split <;> try dsimp only)

theorem execHkConversion_keeps (code : Int) (overRange brk : Bool) (s : State) :
    KeepsO s (execHkConversion code overRange brk s) := by
  unfold execHkConversion
  refine .next ?_
  try dsimp only
  repeat' first
    | with_reducible exact Keeps.refl _
    | assumption
    | simp only [Keeps.upd_iff]
    | with_reducible apply Keeps.after (convertSlot_keeps ..)
    | with_reducible apply Keeps.after (feedHk_keeps ..)
    | (intro _ _; try dsimp only)
    | (split <;> try dsimp only)

theorem latchReads_keeps (s : State) :
    Keeps s (latchReads s) := by
  unfold latchReads
  try dsimp only
  repeat' first
    | with_reducible exact Keeps.refl _
    | assumption
    | simp only [Keeps.upd_iff]
    | ((with_reducible apply Keeps.after (forUpto_keeps ?_)) <;> try dsimp only)
    | ((with_reducible apply Keeps.after (forEach_keeps ?_)) <;> try dsimp only)
    | with_reducible apply Keeps.after (modHk_keeps ..)
    | with_reducible apply Keeps.after (finish_keeps ..)
    | (intro _ _; try dsimp only)
    | (split <;> try dsimp only)

theorem applyHk_keeps (ch : Nat) (s : State) :
    Keeps s (applyHk ch s) := by
  unfold applyHk
  try dsimp only
  repeat' first
    | with_reducible exact Keeps.refl _
    | assumption
    | simp only [Keeps.upd_iff]
    | with_reducible apply Keeps.after (modHk_keeps ..)
    | with_reducible apply Keeps.after (setSwitch_keeps ..)
    | (split <;> try dsimp only)

theorem execHkRoundBoundary_keeps (s : State) :
    KeepsO s (execHkRoundBoundary s) := by
  unfold execHkRoundBoundary
  refine .next ?_
  try dsimp only
  repeat' first
    | with_reducible exact Keeps.refl _
    | assumption
    | simp only [Keeps.upd_iff]
    | ((with_reducible apply Keeps.after (forUpto_keeps ?_)) <;> try dsimp only)
    | with_reducible apply Keeps.after (latchReads_keeps ..)
    | with_reducible apply Keeps.after (applyHk_keeps ..)
    | (intro _ _; try dsimp only)
    | (split <;> try dsimp only)

theorem execHkLatch_keeps (s : State) :
    KeepsO s (execHkLatch s) := by
  unfold execHkLatch
  refine .next ?_
  try dsimp only
  repeat' first
    | with_reducible exact Keeps.refl _
    | assumption
    | simp only [Keeps.upd_iff]
    | (split <;> try dsimp only)

theorem execHkConfig_keeps (mb : Fin 8) (s : State) :
    KeepsO s (execHkConfig mb s) := by
  unfold execHkConfig
  refine runCommand_keeps fun o j p u => ?_
  try dsimp only
  repeat' first
    | with_reducible exact Keeps.refl _
    | assumption
    | simp only [Keeps.upd_iff]
    | ((with_reducible apply Keeps.after (checked_keeps ?_)) <;> try dsimp only)
    | with_reducible apply Keeps.after (modHk_keeps ..)
    | (split <;> try dsimp only)

theorem execHkSetSwitch_keeps (mb : Fin 8) (s : State) :
    KeepsO s (execHkSetSwitch mb s) := by
  unfold execHkSetSwitch
  refine runCommand_keeps fun o j p u => ?_
  try dsimp only
  repeat' first
    | with_reducible exact Keeps.refl _
    | assumption
    | simp only [Keeps.upd_iff]
    | ((with_reducible apply Keeps.after (checked_keeps ?_)) <;> try dsimp only)
    | with_reducible apply Keeps.after (modHk_keeps ..)
    | (split <;> try dsimp only)

theorem execHkRead_keeps (mb : Fin 8) (s : State) :
    KeepsO s (execHkRead mb s) := by
  unfold execHkRead
  refine runCommand_keeps fun o j p u => ?_
  try dsimp only
  repeat' first
    | with_reducible exact Keeps.refl _
    | assumption
    | simp only [Keeps.upd_iff]
    | (split <;> try dsimp only)

theorem execHkCal_keeps (mb : Fin 8) (s : State) :
    KeepsO s (execHkCal mb s) := by
  unfold execHkCal
  refine runCommand_keeps fun o j p u => ?_
  try dsimp only
  repeat' first
    | with_reducible exact Keeps.refl _
    | assumption
    | simp only [Keeps.upd_iff]
    | (split <;> try dsimp only)

theorem execHkCalDone_keeps (offset : Int) (gain : Nat) (currents : List Nat) (s : State) :
    KeepsO s (execHkCalDone offset gain currents s) := by
  unfold execHkCalDone
  refine .next ?_
  try dsimp only
  repeat' first
    | with_reducible exact Keeps.refl _
    | assumption
    | simp only [Keeps.upd_iff]
    | with_reducible apply Keeps.after (finish_keeps ..)
    | (intro _ _; try dsimp only)
    | (split <;> try dsimp only)

end Sys2Proof
end

