-- ==== Sys2Proof/Laws/KeepsMemoryCommands.lean ====
section
/-! SUPPORT. Every operation and meaning of Machine/MemoryCommands.lean keeps the queue, the drawn values, the trace and the invariant. -/

namespace Sys2Proof

/-! One proof at a time: proofs that wait on one another each hold a thread of their own. -/
set_option Elab.async false

open Sys2Proof.Machine

theorem declareFailed_keeps (ch cause : Nat) (s : State) :
    Keeps s (declareFailed ch cause s) := by
  unfold declareFailed
  try dsimp only
  repeat' first
    | with_reducible exact Keeps.refl _
    | assumption
    | simp only [Keeps.upd_iff]
    | with_reducible apply Keeps.after (logEv_keeps ..)
    | exact Keeps.parts rfl rfl rfl id id id

theorem execDramChannelFailed_keeps (ch : Fin 4) (cause : Fin 3) (s : State) :
    KeepsO s (execDramChannelFailed ch cause s) := by
  unfold execDramChannelFailed
  refine .next ?_
  try dsimp only
  repeat' first
    | with_reducible exact Keeps.refl _
    | assumption
    | simp only [Keeps.upd_iff]
    | with_reducible apply Keeps.after (declareFailed_keeps ..)
    | exact Keeps.parts rfl rfl rfl id id id
    | (split <;> try dsimp only)

theorem execDramRetrain_keeps (ch : Fin 4) (ok : Bool) (s : State) :
    KeepsO s (execDramRetrain ch ok s) := by
  unfold execDramRetrain
  refine .next ?_
  try dsimp only
  repeat' first
    | with_reducible exact Keeps.refl _
    | assumption
    | simp only [Keeps.upd_iff]
    | with_reducible apply Keeps.after (declareFailed_keeps ..)
    | exact Keeps.parts rfl rfl rfl id id id
    | (split <;> try dsimp only)

theorem loseBuffer_keeps (last : Nat) (s : State) :
    Keeps s (loseBuffer last s) := by
  unfold loseBuffer
  try dsimp only
  repeat' first
    | with_reducible exact Keeps.refl _
    | assumption
    | simp only [Keeps.upd_iff]
    | ((with_reducible apply Keeps.after (forUpto_keeps ?_)) <;> try dsimp only)
    | with_reducible apply Keeps.after (modRing_keeps ..)
    | (intro _ _; try dsimp only)
    | (split <;> try dsimp only)

theorem bufferAfter_keeps (before s : State) : Keeps s (bufferAfter before s) := by
  unfold bufferAfter
  dsimp only
  repeat' first
    | with_reducible exact Keeps.refl _
    | with_reducible apply Keeps.after (loseBuffer_keeps ..)
    | simp only [Keeps.upd_iff]
    | (split <;> try dsimp only)

theorem execDramRetireDone_keeps (ch : Fin 4) (s : State) : KeepsO s (execDramRetireDone ch s) := by
  unfold execDramRetireDone
  refine .next ?_
  split
  · exact .refl s
  · exact Keeps.after (raiseIrq_keeps ..) (Keeps.after (bufferAfter_keeps ..)
      (.parts rfl rfl rfl (fun h => by simpa only [Memory.wf_iff] using h) id id))

theorem execMemStatus_keeps (mb : Fin 8) (s : State) :
    KeepsO s (execMemStatus mb s) := by
  unfold execMemStatus
  refine runCommand_keeps fun o j p u => ?_
  try dsimp only
  repeat' first
    | with_reducible exact Keeps.refl _
    | assumption
    | simp only [Keeps.upd_iff]
    | ((with_reducible apply Keeps.after (checked_keeps ?_)) <;> try dsimp only)

theorem execEccTableRead_keeps (mb : Fin 8) (s : State) :
    KeepsO s (execEccTableRead mb s) := by
  unfold execEccTableRead
  refine runCommand_keeps fun o j p u => ?_
  try dsimp only
  repeat' first
    | with_reducible exact Keeps.refl _
    | assumption
    | simp only [Keeps.upd_iff]
    | ((with_reducible apply Keeps.after (checked_keeps ?_)) <;> try dsimp only)

theorem eccClear_keeps (mode : Nat) (s : State) : Keeps s (eccClear mode s).1 := by
  refine .parts rfl rfl rfl (fun h => ?_) id id
  simp only [Memory.wf_iff, eccClear] at h ⊢
  obtain ⟨dram, kept, payload, area, words, few⟩ := h
  refine ⟨dram, kept, payload, area, words, ?_⟩
  split
  · exact Nat.zero_le _
  · exact Nat.le_trans (List.length_filter_le _ _) few

theorem execEccTableClear_keeps (mb : Fin 8) (s : State) :
    KeepsO s (execEccTableClear mb s) := by
  unfold execEccTableClear
  refine runCommand_keeps fun o j p u => ?_
  try dsimp only
  repeat' first
    | with_reducible exact Keeps.refl _
    | assumption
    | simp only [Keeps.upd_iff]
    | ((with_reducible apply Keeps.after (checked_keeps ?_)) <;> try dsimp only)
    | with_reducible apply Keeps.after (eccClear_keeps ..)

theorem testWord_keeps (target engine addr : Nat) (s : State) :
    Keeps s (testWord target engine addr s).2 := by
  unfold testWord
  try dsimp only
  repeat' first
    | with_reducible exact Keeps.refl _
    | assumption
    | simp only [Keeps.upd_iff]
    | with_reducible apply Keeps.after (drawFree_keeps ..)
    | refine Keeps.trans ?_ (drawFree_keeps' (by assumption))
    | exact Keeps.parts rfl rfl rfl id id id
    | (split <;> try dsimp only)

theorem testWord_keeps' {target engine addr : Nat} {s : State} {x} {t : State} (hx : testWord target engine addr s = (x, t)) : Keeps s t := by
  have e := testWord_keeps target engine addr s
  rw [hx] at e
  exact e

theorem writeTest_keeps (target engine addr data check : Nat) (s : State) :
    Keeps s (writeTest target engine addr data check s) := by
  unfold writeTest
  dsimp only
  split
  · split
    · refine Keeps.trans (markWritten_keeps (addr / 8) s) (.parts rfl rfl rfl (fun h => ?_) id id)
      simp only [Memory.wf_iff, markWritten, List.length_map] at h ⊢
      exact ⟨tabWf_set _ _ h.1, tabWf_set _ _ h.2.1, h.2.2⟩
    · exact .refl s
  · refine .parts rfl rfl rfl (fun h => ?_) id id
    simp only [Memory.wf_iff] at h ⊢
    obtain ⟨dram, kept, payload, rest⟩ := h
    exact ⟨dram, kept, tabWf_set _ _ payload, rest⟩
  · refine .parts rfl rfl rfl (fun h => ?_) id id
    simp only [Memory.wf_iff] at h ⊢
    obtain ⟨dram, kept, payload, area, rest⟩ := h
    exact ⟨dram, kept, payload, tabWf_set _ _ area, rest⟩
  · refine .parts rfl rfl rfl (fun h => ?_) id id
    simp only [Memory.wf_iff] at h ⊢
    obtain ⟨dram, kept, payload, area, words, few⟩ := h
    exact ⟨dram, kept, payload, area, tabWf_set _ _ words, few⟩

theorem readTest_keeps (target engine addr : Nat) (s : State) :
    Keeps s (readTest target engine addr s).1 := by
  unfold readTest
  try dsimp only
  repeat' first
    | with_reducible exact Keeps.refl _
    | assumption
    | simp only [Keeps.upd_iff]
    | with_reducible apply Keeps.after (testWord_keeps ..)

theorem readTest_keeps' {target engine addr : Nat} {s : State} {t : State} {x} (hx : readTest target engine addr s = (t, x)) : Keeps s t := by
  have e := readTest_keeps target engine addr s
  rw [hx] at e
  exact e

theorem eccTest_keeps (o : Origin) (p : Bytes) (s : State) :
    Keeps s (eccTest o p s).1 := by
  unfold eccTest
  try dsimp only
  repeat' first
    | with_reducible exact Keeps.refl _
    | assumption
    | simp only [Keeps.upd_iff]
    | with_reducible apply Keeps.after (writeTest_keeps ..)
    | with_reducible apply Keeps.after (readTest_keeps ..)
    | refine Keeps.trans ?_ (readTest_keeps' (by assumption))
    | (split <;> try dsimp only)

theorem eccTest_keeps' {o : Origin} {p : Bytes} {s : State} {t : State} {x} (hx : eccTest o p s = (t, x)) : Keeps s t := by
  have e := eccTest_keeps o p s
  rw [hx] at e
  exact e

theorem execEccTest_keeps (mb : Fin 8) (s : State) :
    KeepsO s (execEccTest mb s) := by
  unfold execEccTest
  refine runCommand_keeps fun o j p u => ?_
  try dsimp only
  repeat' first
    | with_reducible exact Keeps.refl _
    | assumption
    | simp only [Keeps.upd_iff]
    | ((with_reducible apply Keeps.after (checked_keeps ?_)) <;> try dsimp only)
    | with_reducible apply Keeps.after (eccTest_keeps ..)

end Sys2Proof
end

