-- ==== Sys2Proof/Laws/KeepsReceiveCommands.lean ====
section
/-! SUPPORT. Every operation and meaning of Machine/ReceiveCommands.lean keeps the queue, the drawn values, the trace and the invariant. -/

namespace Sys2Proof

/-! One proof at a time: proofs that wait on one another each hold a thread of their own. -/
set_option Elab.async false

open Sys2Proof.Machine

theorem execRecvSetCourse_keeps (mb : Fin 8) (s : State) :
    KeepsO s (execRecvSetCourse mb s) := by
  unfold execRecvSetCourse
  refine runCommand_keeps fun o j p u => ?_
  try dsimp only
  repeat' first
    | with_reducible exact Keeps.refl _
    | assumption
    | simp only [Keeps.upd_iff]
    | ((with_reducible apply Keeps.after (checked_keeps ?_)) <;> try dsimp only)
    | with_reducible apply Keeps.after (stage_keeps ..)

theorem setThresholds_keeps (p : Bytes) (i : Nat) (s : State) :
    Keeps s (setThresholds p i s) := by
  unfold setThresholds
  try dsimp only
  repeat' first
    | with_reducible exact Keeps.refl _
    | assumption
    | simp only [Keeps.upd_iff]
    | with_reducible apply Keeps.after (modChan_keeps ..)
    | (intro _ _; try dsimp only)
    | (split <;> try dsimp only)

theorem execRecvSetThresholds_keeps (mb : Fin 8) (s : State) :
    KeepsO s (execRecvSetThresholds mb s) := by
  unfold execRecvSetThresholds
  refine runCommand_keeps fun o j p u => ?_
  try dsimp only
  repeat' first
    | with_reducible exact Keeps.refl _
    | assumption
    | simp only [Keeps.upd_iff]
    | ((with_reducible apply Keeps.after (forUpto_keeps ?_)) <;> try dsimp only)
    | ((with_reducible apply Keeps.after (checked_keeps ?_)) <;> try dsimp only)
    | with_reducible apply Keeps.after (setThresholds_keeps ..)
    | (intro _ _; try dsimp only)

theorem clearRecv_keeps (ch : Nat) (s : State) :
    Keeps s (clearRecv ch s) := by
  unfold clearRecv
  try dsimp only
  repeat' first
    | with_reducible exact Keeps.refl _
    | assumption
    | simp only [Keeps.upd_iff]
    | with_reducible apply Keeps.after (modChan_keeps ..)

theorem execRecvStatus_keeps (mb : Fin 8) (s : State) :
    KeepsO s (execRecvStatus mb s) := by
  unfold execRecvStatus
  refine runCommand_keeps fun o j p u => ?_
  try dsimp only
  repeat' first
    | with_reducible exact Keeps.refl _
    | assumption
    | simp only [Keeps.upd_iff]
    | ((with_reducible apply Keeps.after (checked_keeps ?_)) <;> try dsimp only)
    | with_reducible apply Keeps.after (clearRecv_keeps ..)
    | (split <;> try dsimp only)

theorem execHistSetCourse_keeps (mb : Fin 8) (s : State) :
    KeepsO s (execHistSetCourse mb s) := by
  unfold execHistSetCourse
  refine runCommand_keeps fun o j p u => ?_
  try dsimp only
  repeat' first
    | with_reducible exact Keeps.refl _
    | assumption
    | simp only [Keeps.upd_iff]
    | ((with_reducible apply Keeps.after (checked_keeps ?_)) <;> try dsimp only)
    | with_reducible apply Keeps.after (stage_keeps ..)

theorem execHistSetWalk_keeps (mb : Fin 8) (s : State) :
    KeepsO s (execHistSetWalk mb s) := by
  unfold execHistSetWalk
  refine runCommand_keeps fun o j p u => ?_
  try dsimp only
  repeat' first
    | with_reducible exact Keeps.refl _
    | assumption
    | simp only [Keeps.upd_iff]
    | ((with_reducible apply Keeps.after (checked_keeps ?_)) <;> try dsimp only)
    | with_reducible apply Keeps.after (stage_keeps ..)

theorem execHistStatus_keeps (mb : Fin 8) (s : State) :
    KeepsO s (execHistStatus mb s) := by
  unfold execHistStatus
  refine runCommand_keeps fun o j p u => ?_
  try dsimp only
  repeat' first
    | with_reducible exact Keeps.refl _
    | assumption
    | simp only [Keeps.upd_iff]
    | ((with_reducible apply Keeps.after (checked_keeps ?_)) <;> try dsimp only)
    | with_reducible apply Keeps.after (modEngine_keeps ..)
    | (split <;> try dsimp only)

theorem execHistCaptureTile_keeps (mb : Fin 8) (s : State) :
    KeepsO s (execHistCaptureTile mb s) := by
  unfold execHistCaptureTile
  refine runCommand_keeps fun o j p u => ?_
  try dsimp only
  repeat' first
    | with_reducible exact Keeps.refl _
    | assumption
    | simp only [Keeps.upd_iff]
    | (split <;> try dsimp only)

theorem endCapture_keeps (t : Tile) (s : State) :
    Keeps s (endCapture t s) := by
  unfold endCapture
  try dsimp only
  repeat' first
    | with_reducible exact Keeps.refl _
    | assumption
    | simp only [Keeps.upd_iff]
    | with_reducible apply Keeps.after (finish_keeps ..)
    | (split <;> try dsimp only)

theorem execCaptureTileTimeout_keeps (s : State) :
    KeepsO s (execCaptureTileTimeout s) := by
  unfold execCaptureTileTimeout
  refine .next ?_
  try dsimp only
  repeat' first
    | with_reducible exact Keeps.refl _
    | assumption
    | simp only [Keeps.upd_iff]
    | with_reducible apply Keeps.after (finish_keeps ..)
    | with_reducible apply Keeps.after (tick_keeps ..)
    | (split <;> try dsimp only)

theorem execEngineP2Done_keeps (e : Fin 32) (corr uncorr : Nat) (s : State) :
    KeepsO s (execEngineP2Done e corr uncorr s) := by
  unfold execEngineP2Done
  refine .next ?_
  try dsimp only
  repeat' first
    | with_reducible exact Keeps.refl _
    | assumption
    | simp only [Keeps.upd_iff]
    | with_reducible apply Keeps.after (enterP2_keeps ..)
    | with_reducible apply Keeps.after (engineErrors_keeps ..)
    | with_reducible apply Keeps.after (finishTile_keeps ..)
    | with_reducible apply Keeps.after (endCapture_keeps ..)
    | (split <;> try dsimp only)

theorem execRejSetCourse_keeps (mb : Fin 8) (s : State) :
    KeepsO s (execRejSetCourse mb s) := by
  unfold execRejSetCourse
  refine runCommand_keeps fun o j p u => ?_
  try dsimp only
  repeat' first
    | with_reducible exact Keeps.refl _
    | assumption
    | simp only [Keeps.upd_iff]
    | ((with_reducible apply Keeps.after (checked_keeps ?_)) <;> try dsimp only)
    | with_reducible apply Keeps.after (stage_keeps ..)

theorem execRejSetDevice_keeps (mb : Fin 8) (s : State) :
    KeepsO s (execRejSetDevice mb s) := by
  unfold execRejSetDevice
  refine runCommand_keeps fun o j p u => ?_
  try dsimp only
  repeat' first
    | with_reducible exact Keeps.refl _
    | assumption
    | simp only [Keeps.upd_iff]
    | ((with_reducible apply Keeps.after (checked_keeps ?_)) <;> try dsimp only)
    | with_reducible apply Keeps.after (stage_keeps ..)

theorem clearRej_keeps (c : Nat) (s : State) :
    Keeps s (clearRej c s) := by
  unfold clearRej
  try dsimp only
  repeat' first
    | with_reducible exact Keeps.refl _
    | assumption
    | simp only [Keeps.upd_iff]
    | ((with_reducible apply Keeps.after (forEach_keeps ?_)) <;> try dsimp only)
    | with_reducible apply Keeps.after (modRej_keeps ..)
    | (intro _ _; try dsimp only)

theorem execRejStatus_keeps (mb : Fin 8) (s : State) :
    KeepsO s (execRejStatus mb s) := by
  unfold execRejStatus
  refine runCommand_keeps fun o j p u => ?_
  try dsimp only
  repeat' first
    | with_reducible exact Keeps.refl _
    | assumption
    | simp only [Keeps.upd_iff]
    | ((with_reducible apply Keeps.after (checked_keeps ?_)) <;> try dsimp only)
    | with_reducible apply Keeps.after (clearRej_keeps ..)
    | (split <;> try dsimp only)

end Sys2Proof
end

