-- ==== Sys2Proof/Laws/KeepsIdentity.lean ====
section
/-! SUPPORT. Every operation and meaning of Machine/Identity.lean keeps the queue, the drawn values, the trace and the invariant. -/

namespace Sys2Proof

/-! One proof at a time: proofs that wait on one another each hold a thread of their own. -/
set_option Elab.async false

open Sys2Proof.Machine

theorem identResult_keeps (nonce : Bytes) (s : State) :
    Keeps s (identResult nonce s).2 := by
  unfold identResult
  try dsimp only
  repeat' first
    | with_reducible exact Keeps.refl _
    | assumption
    | simp only [Keeps.upd_iff]
    | with_reducible apply Keeps.after (drawFree_keeps ..)

theorem identResult_keeps' {nonce : Bytes} {s : State} {x} {t : State} (hx : identResult nonce s = (x, t)) : Keeps s t := by
  have e := identResult_keeps nonce s
  rw [hx] at e
  exact e

theorem execIdent_keeps (mb : Fin 8) (s : State) :
    KeepsO s (execIdent mb s) := by
  unfold execIdent
  refine runCommand_keeps fun o j p u => ?_
  try dsimp only
  repeat' first
    | with_reducible exact Keeps.refl _
    | assumption
    | simp only [Keeps.upd_iff]
    | ((with_reducible apply Keeps.after (checked_keeps ?_)) <;> try dsimp only)
    | with_reducible apply Keeps.after (identResult_keeps ..)

end Sys2Proof
end

