-- ==== Sys2Proof/Laws/KeepsRingState.lean ====
section
/-! SUPPORT. Every operation and meaning of Machine/RingState.lean keeps the queue, the drawn values, the trace and the invariant. -/

namespace Sys2Proof

/-! One proof at a time: proofs that wait on one another each hold a thread of their own. -/
set_option Elab.async false

open Sys2Proof.Machine

theorem idleLanes_keeps (p : Port) (s : State) :
    Keeps s (idleLanes p s) := by
  unfold idleLanes
  try dsimp only
  repeat' first
    | with_reducible exact Keeps.refl _
    | assumption
    | simp only [Keeps.upd_iff]
    | ((with_reducible apply Keeps.after (forEach_keeps ?_)) <;> try dsimp only)
    | with_reducible apply Keeps.after (modLane_keeps ..)
    | (intro _ _; try dsimp only)

theorem dropLink_keeps (p : Port) (run : PortRun) (s : State) :
    Keeps s (dropLink p run s) := by
  unfold dropLink
  try dsimp only
  repeat' first
    | with_reducible exact Keeps.refl _
    | assumption
    | simp only [Keeps.upd_iff]
    | with_reducible apply Keeps.after (modPort_keeps ..)
    | with_reducible apply Keeps.after (dropHeld_keeps ..)
    | with_reducible apply Keeps.after (idleLanes_keeps ..)

theorem trainPort_keeps (p : Port) (rate : Nat) (s : State) :
    Keeps s (trainPort p rate s) := by
  unfold trainPort
  try dsimp only
  repeat' first
    | with_reducible exact Keeps.refl _
    | assumption
    | simp only [Keeps.upd_iff]
    | ((with_reducible apply Keeps.after (forEach_keeps ?_)) <;> try dsimp only)
    | with_reducible apply Keeps.after (modLane_keeps ..)
    | with_reducible apply Keeps.after (modPort_keeps ..)
    | with_reducible apply Keeps.after (dropLink_keeps ..)
    | (intro _ _; try dsimp only)

theorem dropMember_keeps (n : Nat) (s : State) :
    Keeps s (dropMember n s) := by
  unfold dropMember
  try dsimp only
  repeat' first
    | with_reducible exact Keeps.refl _
    | assumption
    | simp only [Keeps.upd_iff]
    | (split <;> try dsimp only)

theorem updateMaster_keeps (s : State) :
    Keeps s (updateMaster s) := by
  unfold updateMaster
  try dsimp only
  repeat' first
    | with_reducible exact Keeps.refl _
    | assumption
    | simp only [Keeps.upd_iff]
    | with_reducible apply Keeps.after (logEv_keeps ..)
    | with_reducible apply Keeps.after (raiseIrq_keeps ..)
    | with_reducible apply Keeps.after (e2ePathChange_keeps ..)
    | with_reducible apply Keeps.after (pauseDelivery_keeps ..)
    | (split <;> try dsimp only)

theorem setRing_keeps (r : RingRun) (s : State) :
    Keeps s (setRing r s) := by
  unfold setRing
  try dsimp only
  repeat' first
    | with_reducible exact Keeps.refl _
    | assumption
    | simp only [Keeps.upd_iff]

theorem standAlone_keeps (r : RingRun) (s : State) :
    Keeps s (standAlone r s) := by
  unfold standAlone
  try dsimp only
  repeat' first
    | with_reducible exact Keeps.refl _
    | assumption
    | simp only [Keeps.upd_iff]
    | ((with_reducible apply Keeps.after (forEach_keeps ?_)) <;> try dsimp only)
    | with_reducible apply Keeps.after (dropLink_keeps ..)
    | with_reducible apply Keeps.after (dropMember_keeps ..)
    | with_reducible apply Keeps.after (setRing_keeps ..)
    | with_reducible apply Keeps.after (updateMaster_keeps ..)
    | (intro _ _; try dsimp only)
    | (split <;> try dsimp only)

theorem openBypass_keeps (s : State) :
    Keeps s (openBypass s) := by
  unfold openBypass
  try dsimp only
  repeat' first
    | with_reducible exact Keeps.refl _
    | assumption
    | simp only [Keeps.upd_iff]
    | with_reducible apply Keeps.after (dropLink_keeps ..)
    | with_reducible apply Keeps.after (setRing_keeps ..)

theorem tryJoin_keeps (s : State) :
    Keeps s (tryJoin s) := by
  unfold tryJoin
  try dsimp only
  repeat' first
    | with_reducible exact Keeps.refl _
    | assumption
    | simp only [Keeps.upd_iff]
    | with_reducible apply Keeps.after (openBypass_keeps ..)
    | (split <;> try dsimp only)

theorem wrapAt_keeps (p : Port) (s : State) :
    Keeps s (wrapAt p s) := by
  unfold wrapAt
  try dsimp only
  repeat' first
    | with_reducible exact Keeps.refl _
    | assumption
    | simp only [Keeps.upd_iff]
    | with_reducible apply Keeps.after (logEv_keeps ..)
    | with_reducible apply Keeps.after (raiseIrq_keeps ..)
    | with_reducible apply Keeps.after (dropHeld_keeps ..)
    | with_reducible apply Keeps.after (e2ePathChange_keeps ..)
    | with_reducible apply Keeps.after (setRing_keeps ..)

theorem unwrap_keeps (p : Port) (s : State) :
    Keeps s (unwrap p s) := by
  unfold unwrap
  try dsimp only
  repeat' first
    | with_reducible exact Keeps.refl _
    | assumption
    | simp only [Keeps.upd_iff]
    | with_reducible apply Keeps.after (logEv_keeps ..)
    | with_reducible apply Keeps.after (e2ePathChange_keeps ..)
    | with_reducible apply Keeps.after (setRing_keeps ..)

theorem judgeRing_keeps (s : State) :
    Keeps s (judgeRing s) := by
  unfold judgeRing
  try dsimp only
  repeat' first
    | with_reducible exact Keeps.refl _
    | assumption
    | simp only [Keeps.upd_iff]
    | with_reducible apply Keeps.after (updateMaster_keeps ..)
    | with_reducible apply Keeps.after (setRing_keeps ..)
    | with_reducible apply Keeps.after (standAlone_keeps ..)
    | with_reducible apply Keeps.after (wrapAt_keeps ..)
    | with_reducible apply Keeps.after (unwrap_keeps ..)
    | (split <;> try dsimp only)

theorem startLeaving_keeps (s : State) :
    Keeps s (startLeaving s) := by
  unfold startLeaving
  try dsimp only
  repeat' first
    | with_reducible exact Keeps.refl _
    | assumption
    | simp only [Keeps.upd_iff]
    | with_reducible apply Keeps.after (updateMaster_keeps ..)
    | with_reducible apply Keeps.after (setRing_keeps ..)

theorem persistRing_keeps (s : State) :
    Keeps s (persistRing s) := by
  unfold persistRing
  try dsimp only
  repeat' first
    | with_reducible exact Keeps.refl _
    | assumption
    | simp only [Keeps.upd_iff]
    | with_reducible apply Keeps.after (nvWrite_keeps ..)

theorem execRingJoinTimeout_keeps (s : State) :
    KeepsO s (execRingJoinTimeout s) := by
  unfold execRingJoinTimeout
  refine .next ?_
  try dsimp only
  repeat' first
    | with_reducible exact Keeps.refl _
    | assumption
    | simp only [Keeps.upd_iff]
    | with_reducible apply Keeps.after (updateMaster_keeps ..)
    | with_reducible apply Keeps.after (standAlone_keeps ..)
    | with_reducible apply Keeps.after (wrapAt_keeps ..)
    | (split <;> try dsimp only)

theorem execRingIsolatedRetry_keeps (s : State) :
    KeepsO s (execRingIsolatedRetry s) := by
  unfold execRingIsolatedRetry
  refine .next ?_
  try dsimp only
  repeat' first
    | with_reducible exact Keeps.refl _
    | assumption
    | simp only [Keeps.upd_iff]
    | with_reducible apply Keeps.after (openBypass_keeps ..)
    | (split <;> try dsimp only)

theorem endLeaving_keeps (s : State) :
    Keeps s (endLeaving s) := by
  unfold endLeaving
  try dsimp only
  repeat' first
    | with_reducible exact Keeps.refl _
    | assumption
    | simp only [Keeps.upd_iff]
    | ((with_reducible apply Keeps.after (forEach_keeps ?_)) <;> try dsimp only)
    | with_reducible apply Keeps.after (finish_keeps ..)
    | with_reducible apply Keeps.after (persistRing_keeps ..)
    | with_reducible apply Keeps.after (standAlone_keeps ..)
    | (intro _ _; try dsimp only)
    | (split <;> try dsimp only)

theorem execRingLeavingDone_keeps (s : State) :
    KeepsO s (execRingLeavingDone s) := by
  unfold execRingLeavingDone
  refine .next ?_
  try dsimp only
  repeat' first
    | with_reducible exact Keeps.refl _
    | assumption
    | simp only [Keeps.upd_iff]
    | with_reducible apply Keeps.after (endLeaving_keeps ..)
    | with_reducible apply Keeps.after (sendBlockAll_keeps ..)
    | (intro _ _; try dsimp only)
    | (split <;> try dsimp only)

theorem quarantine_keeps (p : Port) (n : Nat) (s : State) :
    Keeps s (quarantine p n s) := by
  unfold quarantine
  try dsimp only
  repeat' first
    | with_reducible exact Keeps.refl _
    | assumption
    | simp only [Keeps.upd_iff]
    | with_reducible apply Keeps.after (dropLink_keeps ..)
    | with_reducible apply Keeps.after (judgeRing_keeps ..)
    | with_reducible apply Keeps.after (logEv_keeps ..)
    | with_reducible apply Keeps.after (modPort_keeps ..)
    | with_reducible apply Keeps.after (raiseIrq_keeps ..)
    | (intro _ _; try dsimp only)
    | (split <;> try dsimp only)

theorem violation_keeps (p : Port) (code : Nat) (s : State) :
    Keeps s (violation p code s) := by
  unfold violation
  try dsimp only
  repeat' first
    | with_reducible exact Keeps.refl _
    | assumption
    | simp only [Keeps.upd_iff]
    | with_reducible apply Keeps.after (modPort_keeps ..)
    | with_reducible apply Keeps.after (quarantine_keeps ..)
    | (split <;> try dsimp only)

theorem execQuarantineRetry_keeps (p : Port) (s : State) :
    KeepsO s (execQuarantineRetry p s) := by
  unfold execQuarantineRetry
  refine .next ?_
  try dsimp only
  repeat' first
    | with_reducible exact Keeps.refl _
    | assumption
    | simp only [Keeps.upd_iff]
    | with_reducible apply Keeps.after (modPort_keeps ..)
    | with_reducible apply Keeps.after (trainPort_keeps ..)
    | (intro _ _; try dsimp only)
    | (split <;> try dsimp only)

theorem setDuplicate_keeps (s : State) :
    Keeps s (setDuplicate s) := by
  unfold setDuplicate
  try dsimp only
  repeat' first
    | with_reducible exact Keeps.refl _
    | assumption
    | simp only [Keeps.upd_iff]
    | with_reducible apply Keeps.after (logEv_keeps ..)

theorem refusedId_keeps (s : State) :
    Keeps s (refusedId s) := by
  unfold refusedId
  try dsimp only
  repeat' first
    | with_reducible exact Keeps.refl _
    | assumption
    | simp only [Keeps.upd_iff]
    | with_reducible apply Keeps.after (endLeaving_keeps ..)
    | with_reducible apply Keeps.after (setDuplicate_keeps ..)
    | with_reducible apply Keeps.after (standAlone_keeps ..)
    | (intro _ _; try dsimp only)
    | (split <;> try dsimp only)

end Sys2Proof
end

