-- ==== Sys2Proof/Laws/KeepsLanes.lean ====
section
/-! SUPPORT. Every operation and meaning of Machine/Lanes.lean keeps the queue, the drawn values, the trace and the invariant. -/

namespace Sys2Proof

/-! One proof at a time: proofs that wait on one another each hold a thread of their own. -/
set_option Elab.async false

open Sys2Proof.Machine

theorem sendCaps_keeps (p : Port) (s : State) :
    Keeps s (sendCaps p s) := by
  unfold sendCaps
  try dsimp only
  repeat' first
    | with_reducible exact Keeps.refl _
    | assumption
    | simp only [Keeps.upd_iff]
    | ((with_reducible apply Keeps.after (forUpto_keeps ?_)) <;> try dsimp only)
    | ((with_reducible refine Keeps.after (emit_keeps _ _ ?_) ?_); exact rfl)
    | (intro _ _; try dsimp only)
    | (split <;> try dsimp only)

theorem trainToLock_keeps (p : Port) (s : State) :
    Keeps s (trainToLock p s) := by
  unfold trainToLock
  try dsimp only
  repeat' first
    | with_reducible exact Keeps.refl _
    | assumption
    | simp only [Keeps.upd_iff]
    | ((with_reducible apply Keeps.after (forUpto_keeps ?_)) <;> try dsimp only)
    | with_reducible apply Keeps.after (modLane_keeps ..)
    | with_reducible apply Keeps.after (modPort_keeps ..)
    | (intro _ _; try dsimp only)
    | (split <;> try dsimp only)

theorem lockToCaps_keeps (p : Port) (s : State) :
    Keeps s (lockToCaps p s) := by
  unfold lockToCaps
  try dsimp only
  repeat' first
    | with_reducible exact Keeps.refl _
    | assumption
    | simp only [Keeps.upd_iff]
    | with_reducible apply Keeps.after (modPort_keeps ..)
    | with_reducible apply Keeps.after (sendCaps_keeps ..)
    | (split <;> try dsimp only)

theorem capsToActive_keeps (p : Port) (c : Bytes) (s : State) :
    Keeps s (capsToActive p c s) := by
  unfold capsToActive
  try dsimp only
  repeat' first
    | with_reducible exact Keeps.refl _
    | assumption
    | simp only [Keeps.upd_iff]
    | ((with_reducible apply Keeps.after (forUpto_keeps ?_)) <;> try dsimp only)
    | with_reducible apply Keeps.after (judgeRing_keeps ..)
    | with_reducible apply Keeps.after (modLane_keeps ..)
    | with_reducible apply Keeps.after (modPort_keeps ..)
    | (intro _ _; try dsimp only)
    | (split <;> try dsimp only)

theorem execPartnerTerminationSensed_keeps (p : Port) (s : State) :
    KeepsO s (execPartnerTerminationSensed p s) := by
  unfold execPartnerTerminationSensed
  refine .next ?_
  try dsimp only
  repeat' first
    | with_reducible exact Keeps.refl _
    | assumption
    | simp only [Keeps.upd_iff]
    | with_reducible apply Keeps.after (trainPort_keeps ..)
    | (split <;> try dsimp only)

theorem execPortStateTimeout_keeps (p : Port) (s : State) :
    KeepsO s (execPortStateTimeout p s) := by
  unfold execPortStateTimeout
  refine .next ?_
  try dsimp only
  repeat' first
    | with_reducible exact Keeps.refl _
    | assumption
    | simp only [Keeps.upd_iff]
    | ((with_reducible apply Keeps.after (forEach_keeps ?_)) <;> try dsimp only)
    | with_reducible apply Keeps.after (modLane_keeps ..)
    | with_reducible apply Keeps.after (modPort_keeps ..)
    | with_reducible apply Keeps.after (dropLink_keeps ..)
    | with_reducible apply Keeps.after (trainPort_keeps ..)
    | (intro _ _; try dsimp only)
    | (split <;> try dsimp only)

theorem execLaneTrained_keeps (i : Fin 20) (s : State) :
    KeepsO s (execLaneTrained i s) := by
  unfold execLaneTrained
  refine .next ?_
  try dsimp only
  repeat' first
    | with_reducible exact Keeps.refl _
    | assumption
    | simp only [Keeps.upd_iff]
    | with_reducible apply Keeps.after (modLane_keeps ..)
    | with_reducible apply Keeps.after (trainToLock_keeps ..)
    | (split <;> try dsimp only)

theorem damagedBlock_keeps (i : Nat) (s : State) : Keeps s (damagedBlock i s) := modLane_keeps ..

theorem execTsBlock_keeps (i : Fin 20) (damaged trained _ratePending : Bool) (s : State) :
    KeepsO s (execTsBlock i damaged trained _ratePending s) := by
  unfold execTsBlock damagedBlock
  refine .next ?_
  try dsimp only
  repeat' first
    | with_reducible exact Keeps.refl _
    | assumption
    | simp only [Keeps.upd_iff]
    | with_reducible apply Keeps.after (modLane_keeps ..)
    | with_reducible apply Keeps.after (trainToLock_keeps ..)
    | (split <;> try dsimp only)

theorem sendRestripe_keeps (p : Port) (mask : Nat) (s : State) :
    Keeps s (sendRestripe p mask s) := by
  unfold sendRestripe
  try dsimp only
  repeat' first
    | with_reducible exact Keeps.refl _
    | assumption
    | simp only [Keeps.upd_iff]
    | with_reducible apply Keeps.after (sendBlockAll_keeps ..)
    | (intro _ _; try dsimp only)
    | (split <;> try dsimp only)

theorem losePort_keeps (p : Port) (s : State) :
    Keeps s (losePort p s) := by
  unfold losePort
  try dsimp only
  repeat' first
    | with_reducible exact Keeps.refl _
    | assumption
    | simp only [Keeps.upd_iff]
    | with_reducible apply Keeps.after (dropLink_keeps ..)
    | with_reducible apply Keeps.after (judgeRing_keeps ..)

theorem loseLock_keeps (i : Nat) (hunt : Bool) (s : State) :
    Keeps s (loseLock i hunt s) := by
  unfold loseLock
  try dsimp only
  repeat' first
    | with_reducible exact Keeps.refl _
    | assumption
    | simp only [Keeps.upd_iff]
    | with_reducible apply Keeps.after (raiseIrq_keeps ..)
    | with_reducible apply Keeps.after (logLane_keeps ..)
    | with_reducible apply Keeps.after (modLane_keeps ..)
    | with_reducible apply Keeps.after (sendRestripe_keeps ..)
    | with_reducible apply Keeps.after (losePort_keeps ..)
    | (split <;> try dsimp only)

theorem execBlockLockAcquired_keeps (i : Fin 20) (s : State) :
    KeepsO s (execBlockLockAcquired i s) := by
  unfold execBlockLockAcquired
  refine .next ?_
  try dsimp only
  repeat' first
    | with_reducible exact Keeps.refl _
    | assumption
    | simp only [Keeps.upd_iff]
    | with_reducible apply Keeps.after (modLane_keeps ..)
    | (intro _ _; try dsimp only)
    | (split <;> try dsimp only)

theorem execBlockLockLost_keeps (i : Fin 20) (cut : List Byte) (s : State) :
    KeepsO s (execBlockLockLost i cut s) := by
  unfold execBlockLockLost
  refine .next ?_
  try dsimp only
  repeat' first
    | with_reducible exact Keeps.refl _
    | assumption
    | simp only [Keeps.upd_iff]
    | with_reducible apply Keeps.after (cutReception_keeps ..)
    | with_reducible apply Keeps.after (loseLock_keeps ..)
    | with_reducible apply Keeps.after (mortarLaneLoss_keeps ..)
    | (intro _ _; try dsimp only)
    | (split <;> try dsimp only)

theorem lanesAligned_keeps (i : Nat) (s : State) :
    Keeps s (lanesAligned i s) := by
  unfold lanesAligned
  try dsimp only
  repeat' first
    | with_reducible exact Keeps.refl _
    | assumption
    | simp only [Keeps.upd_iff]
    | with_reducible apply Keeps.after (lockToCaps_keeps ..)
    | with_reducible apply Keeps.after (modLane_keeps ..)
    | with_reducible apply Keeps.after (sendRestripe_keeps ..)
    | (intro _ _; try dsimp only)
    | (split <;> try dsimp only)

theorem execAlignBlock_keeps (i : Fin 20) (damaged : Bool) (skew : Nat) (marker : Nat) (s : State) :
    KeepsO s (execAlignBlock i damaged skew marker s) := by
  unfold execAlignBlock
  refine .next ?_
  try dsimp only
  repeat' first
    | with_reducible exact Keeps.refl _
    | assumption
    | simp only [Keeps.upd_iff]
    | with_reducible apply Keeps.after (damagedBlock_keeps ..)
    | with_reducible apply Keeps.after (lanesAligned_keeps ..)
    | with_reducible apply Keeps.after (loseLock_keeps ..)
    | with_reducible apply Keeps.after (modLane_keeps ..)
    | with_reducible apply Keeps.after (mortarLaneLoss_keeps ..)
    | (intro _ _; try dsimp only)
    | (split <;> try dsimp only)

theorem takeCaps_keeps (p : Port) (c : Bytes) (s : State) :
    Keeps s (takeCaps p c s) := by
  unfold takeCaps
  try dsimp only
  repeat' first
    | with_reducible exact Keeps.refl _
    | assumption
    | simp only [Keeps.upd_iff]
    | with_reducible apply Keeps.after (modPort_keeps ..)
    | with_reducible apply Keeps.after (trainPort_keeps ..)
    | with_reducible apply Keeps.after (violation_keeps ..)
    | with_reducible apply Keeps.after (refusedId_keeps ..)
    | with_reducible apply Keeps.after (sendCaps_keeps ..)
    | with_reducible apply Keeps.after (capsToActive_keeps ..)
    | (split <;> try dsimp only)

theorem execCapsReceived_keeps (p : Port) (caps : List Byte) (s : State) :
    KeepsO s (execCapsReceived p caps s) := by
  unfold execCapsReceived
  refine .next ?_
  try dsimp only
  repeat' first
    | with_reducible exact Keeps.refl _
    | assumption
    | simp only [Keeps.upd_iff]
    | with_reducible apply Keeps.after (takeCaps_keeps ..)
    | (split <;> try dsimp only)

theorem execAckBlock_keeps (p : Port) (lseq : BitVec 32) (s : State) :
    KeepsO s (execAckBlock p lseq s) := by
  unfold execAckBlock
  refine .next ?_
  try dsimp only
  repeat' first
    | with_reducible exact Keeps.refl _
    | assumption
    | simp only [Keeps.upd_iff]
    | with_reducible apply Keeps.after (modPort_keeps ..)
    | with_reducible apply Keeps.after (pump_keeps ..)
    | (intro _ _; try dsimp only)
    | (split <;> try dsimp only)

theorem execNakBlock_keeps (p : Port) (code : Nat) (lseq : BitVec 32) (s : State) :
    KeepsO s (execNakBlock p code lseq s) := by
  unfold execNakBlock
  refine .next ?_
  try dsimp only
  repeat' first
    | with_reducible exact Keeps.refl _
    | assumption
    | simp only [Keeps.upd_iff]
    | with_reducible apply Keeps.after (modPort_keeps ..)
    | with_reducible apply Keeps.after (resendFrom_keeps ..)
    | (intro _ _; try dsimp only)
    | (split <;> try dsimp only)

theorem resendAll_keeps (p : Port) (s : State) :
    Keeps s (resendAll p s) := by
  unfold resendAll
  try dsimp only
  repeat' first
    | with_reducible exact Keeps.refl _
    | assumption
    | simp only [Keeps.upd_iff]
    | with_reducible apply Keeps.after (resendFrom_keeps ..)
    | (split <;> try dsimp only)

theorem execCreditBlock_keeps (p : Port) (general reserved : Nat) (s : State) :
    KeepsO s (execCreditBlock p general reserved s) := by
  unfold execCreditBlock
  refine .next ?_
  try dsimp only
  repeat' first
    | with_reducible exact Keeps.refl _
    | assumption
    | simp only [Keeps.upd_iff]
    | with_reducible apply Keeps.after (modPort_keeps ..)
    | with_reducible apply Keeps.after (pump_keeps ..)
    | (intro _ _; try dsimp only)
    | (split <;> try dsimp only)

theorem execReplayTimeout_keeps (p : Port) (s : State) :
    KeepsO s (execReplayTimeout p s) := by
  unfold execReplayTimeout
  refine .next ?_
  try dsimp only
  repeat' first
    | with_reducible exact Keeps.refl _
    | assumption
    | simp only [Keeps.upd_iff]
    | with_reducible apply Keeps.after (resendFrom_keeps ..)
    | (split <;> try dsimp only)

theorem execProbeSend_keeps (p : Port) (s : State) :
    KeepsO s (execProbeSend p s) := by
  unfold execProbeSend
  refine .next ?_
  try dsimp only
  repeat' first
    | with_reducible exact Keeps.refl _
    | assumption
    | simp only [Keeps.upd_iff]
    | with_reducible apply Keeps.after (modPort_keeps ..)
    | with_reducible apply Keeps.after (sendBlock_keeps ..)
    | (split <;> try dsimp only)

theorem execProbeBlock_keeps (p : Port) (reply : Bool) (number residence : Nat) (s : State) :
    KeepsO s (execProbeBlock p reply number residence s) := by
  unfold execProbeBlock
  refine .next ?_
  try dsimp only
  repeat' first
    | with_reducible exact Keeps.refl _
    | assumption
    | simp only [Keeps.upd_iff]
    | with_reducible apply Keeps.after (modPort_keeps ..)
    | with_reducible apply Keeps.after (sendBlock_keeps ..)
    | (split <;> try dsimp only)

theorem setTxMask_keeps (p : Port) (mask : Nat) (s : State) :
    Keeps s (setTxMask p mask s) := by
  unfold setTxMask
  try dsimp only
  repeat' first
    | with_reducible exact Keeps.refl _
    | assumption
    | simp only [Keeps.upd_iff]
    | ((with_reducible apply Keeps.after (forUpto_keeps ?_)) <;> try dsimp only)
    | with_reducible apply Keeps.after (raiseIrq_keeps ..)
    | with_reducible apply Keeps.after (logLane_keeps ..)
    | with_reducible apply Keeps.after (modLane_keeps ..)
    | with_reducible apply Keeps.after (modPort_keeps ..)
    | (intro _ _; try dsimp only)
    | (split <;> try dsimp only)

theorem execRestripeBlock_keeps (p : Port) (mask : BitVec 2) (s : State) :
    KeepsO s (execRestripeBlock p mask s) := by
  unfold execRestripeBlock
  refine .next ?_
  try dsimp only
  repeat' first
    | with_reducible exact Keeps.refl _
    | assumption
    | simp only [Keeps.upd_iff]
    | with_reducible apply Keeps.after (sendBlock_keeps ..)
    | with_reducible apply Keeps.after (resendAll_keeps ..)
    | with_reducible apply Keeps.after (setTxMask_keeps ..)
    | (split <;> try dsimp only)

theorem execSwitchBlock_keeps (p : Port) (mask : BitVec 2) (cut : List Byte) (s : State) :
    KeepsO s (execSwitchBlock p mask cut s) := by
  unfold execSwitchBlock
  refine .next ?_
  try dsimp only
  repeat' first
    | with_reducible exact Keeps.refl _
    | assumption
    | simp only [Keeps.upd_iff]
    | ((with_reducible apply Keeps.after (forUpto_keeps ?_)) <;> try dsimp only)
    | with_reducible apply Keeps.after (cutReception_keeps ..)
    | with_reducible apply Keeps.after (logLane_keeps ..)
    | with_reducible apply Keeps.after (losePort_keeps ..)
    | with_reducible apply Keeps.after (modPort_keeps ..)
    | with_reducible apply Keeps.after (raiseIrq_keeps ..)
    | (intro _ _; try dsimp only)
    | (split <;> try dsimp only)

theorem execLeaveBlock_keeps (p : Port) (reason : Nat) (s : State) :
    KeepsO s (execLeaveBlock p reason s) := by
  unfold execLeaveBlock
  refine .next ?_
  try dsimp only
  repeat' first
    | with_reducible exact Keeps.refl _
    | assumption
    | simp only [Keeps.upd_iff]
    | with_reducible apply Keeps.after (losePort_keeps ..)
    | (split <;> try dsimp only)

theorem execRingQuarantineClear_keeps (mb : Fin 8) (s : State) :
    KeepsO s (execRingQuarantineClear mb s) := by
  unfold execRingQuarantineClear
  refine runCommand_keeps fun o j p u => ?_
  try dsimp only
  repeat' first
    | with_reducible exact Keeps.refl _
    | assumption
    | simp only [Keeps.upd_iff]
    | ((with_reducible apply Keeps.after (checked_keeps ?_)) <;> try dsimp only)
    | with_reducible apply Keeps.after (modPort_keeps ..)
    | with_reducible apply Keeps.after (trainPort_keeps ..)
    | (intro _ _; try dsimp only)
    | (split <;> try dsimp only)

theorem execLaneEyeScan_keeps (mb : Fin 8) (s : State) :
    KeepsO s (execLaneEyeScan mb s) := by
  unfold execLaneEyeScan
  refine runCommand_keeps fun o j p u => ?_
  try dsimp only
  repeat' first
    | with_reducible exact Keeps.refl _
    | assumption
    | simp only [Keeps.upd_iff]
    | (intro _ _; try dsimp only)
    | (split <;> try dsimp only)

theorem execLaneEyeScanDone_keeps (counts : List Nat) (s : State) :
    KeepsO s (execLaneEyeScanDone counts s) := by
  unfold execLaneEyeScanDone
  refine .next ?_
  try dsimp only
  repeat' first
    | with_reducible exact Keeps.refl _
    | assumption
    | simp only [Keeps.upd_iff]
    | with_reducible apply Keeps.after (finish_keeps ..)
    | (intro _ _; try dsimp only)
    | (split <;> try dsimp only)

theorem execLaneStatus_keeps (mb : Fin 8) (s : State) :
    KeepsO s (execLaneStatus mb s) := by
  unfold execLaneStatus
  refine runCommand_keeps fun o j p u => ?_
  try dsimp only
  repeat' first
    | with_reducible exact Keeps.refl _
    | assumption
    | simp only [Keeps.upd_iff]
    | ((with_reducible apply Keeps.after (checked_keeps ?_)) <;> try dsimp only)
    | with_reducible apply Keeps.after (drawFree_keeps ..)

end Sys2Proof
end

