-- ==== Sys2Proof/Laws/KeepsRingFrames.lean ====
section
/-! SUPPORT. Every operation and meaning of Machine/RingFrames.lean keeps the queue, the drawn values, the trace and the invariant. -/

namespace Sys2Proof

/-! One proof at a time: proofs that wait on one another each hold a thread of their own. -/
set_option Elab.async false

open Sys2Proof.Machine

theorem sendNak_keeps (p : Port) (code lseq : Nat) (s : State) :
    Keeps s (sendNak p code lseq s) := by
  unfold sendNak
  try dsimp only
  repeat' first
    | with_reducible exact Keeps.refl _
    | assumption
    | simp only [Keeps.upd_iff]
    | with_reducible apply Keeps.after (modPort_keeps ..)
    | with_reducible apply Keeps.after (sendBlock_keeps ..)

theorem sendAck_keeps (p : Port) (s : State) :
    Keeps s (sendAck p s) := by
  unfold sendAck
  try dsimp only
  repeat' first
    | with_reducible exact Keeps.refl _
    | assumption
    | simp only [Keeps.upd_iff]
    | with_reducible apply Keeps.after (modPort_keeps ..)
    | with_reducible apply Keeps.after (sendBlock_keeps ..)

theorem mgmtNak_keeps (code node : Nat) (s : State) :
    Keeps s (mgmtNak code node s) := by
  unfold mgmtNak
  try dsimp only
  repeat' first
    | with_reducible exact Keeps.refl _
    | assumption
    | simp only [Keeps.upd_iff]
    | with_reducible apply Keeps.after (e2eSend_keeps ..)
    | (split <;> try dsimp only)

theorem deliver_keeps (p : Port) (f : Bytes) (s : State) :
    Keeps s (deliver p f s) := by
  unfold deliver
  try dsimp only
  repeat' first
    | with_reducible exact Keeps.refl _
    | assumption
    | simp only [Keeps.upd_iff]
    | with_reducible apply Keeps.after (e2eAccept_keeps ..)
    | refine Keeps.trans ?_ (e2eAccept_keeps' (by assumption))
    | with_reducible apply Keeps.after (e2eAcked_keeps ..)
    | (intro _ _; try dsimp only)
    | (split <;> try dsimp only)

theorem forwardFrame_keeps (p : Port) (f : Bytes) (s : State) :
    Keeps s (forwardFrame p f s) := by
  unfold forwardFrame
  try dsimp only
  repeat' first
    | with_reducible exact Keeps.refl _
    | assumption
    | simp only [Keeps.upd_iff]
    | with_reducible apply Keeps.after (forwardOn_keeps ..)
    | with_reducible apply Keeps.after (freeCredits_keeps ..)
    | (intro _ _; try dsimp only)
    | (split <;> try dsimp only)

theorem acceptedFrame_keeps (p : Port) (f : Bytes) (s : State) :
    Keeps s (acceptedFrame p f s) := by
  unfold acceptedFrame
  try dsimp only
  repeat' first
    | with_reducible exact Keeps.refl _
    | assumption
    | simp only [Keeps.upd_iff]
    | with_reducible apply Keeps.after (deliver_keeps ..)
    | with_reducible apply Keeps.after (forwardFrame_keeps ..)
    | with_reducible apply Keeps.after (freeCredits_keeps ..)
    | with_reducible apply Keeps.after (mgmtNak_keeps ..)
    | with_reducible apply Keeps.after (violation_keeps ..)
    | (intro _ _; try dsimp only)
    | (split <;> try dsimp only)

theorem takeFrame_keeps (p : Port) (f : Bytes) (s : State) :
    Keeps s (takeFrame p f s) := by
  unfold takeFrame
  try dsimp only
  repeat' first
    | with_reducible exact Keeps.refl _
    | assumption
    | simp only [Keeps.upd_iff]
    | with_reducible apply Keeps.after (acceptedFrame_keeps ..)
    | with_reducible apply Keeps.after (dropFrame_keeps ..)
    | with_reducible apply Keeps.after (modPort_keeps ..)
    | with_reducible apply Keeps.after (sendAck_keeps ..)
    | with_reducible apply Keeps.after (sendNak_keeps ..)
    | with_reducible apply Keeps.after (stompCopy_keeps ..)
    | with_reducible apply Keeps.after (useCredits_keeps ..)
    | with_reducible apply Keeps.after (violation_keeps ..)
    | (intro _ _; try dsimp only)
    | (split <;> try dsimp only)

theorem stompedFrame_keeps (p : Port) (f : Bytes) (s : State) : Keeps s (stompedFrame p f s) :=
  (dropFrame_keeps ..).trans (modPort_keeps ..)

theorem execRingFrameReceived_keeps (p : Port) (stomped : Bool) (frame : List Byte) (s : State) :
    KeepsO s (execRingFrameReceived p stomped frame s) := by
  unfold execRingFrameReceived
  refine .next ?_
  try dsimp only
  repeat' first
    | with_reducible exact Keeps.refl _
    | assumption
    | simp only [Keeps.upd_iff]
    | with_reducible apply Keeps.after (takeFrame_keeps ..)
    | with_reducible apply Keeps.after (stompedFrame_keeps ..)
    | (split <;> try dsimp only)

theorem execE2eResend_keeps (s : State) :
    KeepsO s (execE2eResend s) := by
  unfold execE2eResend
  refine .next ?_
  try dsimp only
  repeat' first
    | with_reducible exact Keeps.refl _
    | assumption
    | simp only [Keeps.upd_iff]
    | with_reducible apply Keeps.after (e2eResend_keeps ..)
    | (split <;> try dsimp only)

theorem writePallet_keeps (src : Nat) (b : Bytes) (s : State) :
    Keeps s (writePallet src b s) := by
  unfold writePallet
  try dsimp only
  repeat' first
    | with_reducible exact Keeps.refl _
    | assumption
    | simp only [Keeps.upd_iff]
    | with_reducible apply Keeps.after (hostWrite_keeps ..)
    | (split <;> try dsimp only)

theorem execPalletReceived_keeps (s : State) :
    KeepsO s (execPalletReceived s) := by
  unfold execPalletReceived
  refine .next ?_
  try dsimp only
  repeat' first
    | with_reducible exact Keeps.refl _
    | assumption
    | simp only [Keeps.upd_iff]
    | with_reducible apply Keeps.after (msixSend_keeps ..)
    | with_reducible apply Keeps.after (e2eAccept_keeps ..)
    | refine Keeps.trans ?_ (e2eAccept_keeps' (by assumption))
    | refine Keeps.trans ?_ (takeInbox_keeps' (by assumption))
    | with_reducible apply Keeps.after (writePallet_keeps ..)
    | (split <;> try dsimp only)

theorem execPalletAck_keeps (s : State) :
    KeepsO s (execPalletAck s) := by
  unfold execPalletAck
  refine .next ?_
  try dsimp only
  repeat' first
    | with_reducible exact Keeps.refl _
    | assumption
    | simp only [Keeps.upd_iff]
    | with_reducible apply Keeps.after (e2eAcked_keeps ..)
    | refine Keeps.trans ?_ (takeInbox_keeps' (by assumption))
    | (split <;> try dsimp only)

theorem execCiReadMessage_keeps (ci : BitVec 64) (s : State) :
    KeepsO s (execCiReadMessage ci s) := by
  unfold execCiReadMessage
  refine .next ?_
  try dsimp only
  repeat' first
    | with_reducible exact Keeps.refl _
    | assumption
    | simp only [Keeps.upd_iff]
    | ((with_reducible refine Keeps.after (emit_keeps _ _ ?_) ?_); exact rfl)
    | with_reducible apply Keeps.after (e2eSend_keeps ..)
    | with_reducible apply Keeps.after (e2eAccept_keeps ..)
    | refine Keeps.trans ?_ (e2eAccept_keeps' (by assumption))
    | with_reducible apply Keeps.after (takeCi_keeps ..)
    | refine Keeps.trans ?_ (takeInbox_keeps' (by assumption))
    | (split <;> try dsimp only)

theorem gather_keeps (node key seq : Nat) (last : Bool) (part : Bytes) (s : State) :
    Keeps s (gather node key seq last part s).2 := by
  unfold gather
  try dsimp only
  repeat' first
    | with_reducible exact Keeps.refl _
    | assumption
    | simp only [Keeps.upd_iff]
    | (intro _ _; try dsimp only)
    | (split <;> try dsimp only)

theorem gather_keeps' {node key seq : Nat} {last : Bool} {part : Bytes} {s : State} {x} {t : State} (hx : gather node key seq last part s = (x, t)) : Keeps s t := by
  have e := gather_keeps node key seq last part s
  rw [hx] at e
  exact e

theorem sendResult_keeps (node mb seq st orig detail : Nat) (r : Bytes) (s : State) :
    Keeps s (sendResult node mb seq st orig detail r s) := by
  unfold sendResult
  try dsimp only
  repeat' first
    | with_reducible exact Keeps.refl _
    | assumption
    | simp only [Keeps.upd_iff]
    | with_reducible apply Keeps.after (sendMgmt_keeps ..)

theorem journalRemote_keeps (node mb seq : Nat) (h p : Bytes) (s : State) :
    Keeps s (journalRemote node mb seq h p s) := by
  unfold journalRemote
  try dsimp only
  repeat' first
    | with_reducible exact Keeps.refl _
    | assumption
    | simp only [Keeps.upd_iff]
    | with_reducible apply Keeps.after (placeEntry_keeps ..)

theorem remoteCommand_keeps (node mb seq : Nat) (body : Bytes) (s : State) :
    Keeps s (remoteCommand node mb seq body s) := by
  unfold remoteCommand
  try dsimp only
  repeat' first
    | with_reducible exact Keeps.refl _
    | assumption
    | simp only [Keeps.upd_iff]
    | with_reducible apply Keeps.after (identResult_keeps ..)
    | refine Keeps.trans ?_ (identResult_keeps' (by assumption))
    | with_reducible apply Keeps.after (sendResult_keeps ..)
    | with_reducible apply Keeps.after (journalRemote_keeps ..)
    | (split <;> try dsimp only)

theorem execMgmtCommand_keeps (s : State) :
    KeepsO s (execMgmtCommand s) := by
  unfold execMgmtCommand
  refine .next ?_
  try dsimp only
  repeat' first
    | with_reducible exact Keeps.refl _
    | assumption
    | simp only [Keeps.upd_iff]
    | with_reducible apply Keeps.after (e2eAccept_keeps ..)
    | refine Keeps.trans ?_ (e2eAccept_keeps' (by assumption))
    | with_reducible apply Keeps.after (gather_keeps ..)
    | refine Keeps.trans ?_ (gather_keeps' (by assumption))
    | with_reducible apply Keeps.after (remoteCommand_keeps ..)
    | with_reducible apply Keeps.after (takeInbox_keeps ..)
    | refine Keeps.trans ?_ (takeInbox_keeps' (by assumption))
    | (intro _ _; try dsimp only)
    | (split <;> try dsimp only)

theorem remoteResult_keeps (src mb seq : Nat) (body : Bytes) (s : State) :
    Keeps s (remoteResult src mb seq body s) := by
  unfold remoteResult
  try dsimp only
  repeat' first
    | with_reducible exact Keeps.refl _
    | assumption
    | simp only [Keeps.upd_iff]
    | with_reducible apply Keeps.after (finish_keeps ..)
    | (intro _ _; try dsimp only)
    | (split <;> try dsimp only)

theorem execMgmtResult_keeps (s : State) :
    KeepsO s (execMgmtResult s) := by
  unfold execMgmtResult
  refine .next ?_
  try dsimp only
  repeat' first
    | with_reducible exact Keeps.refl _
    | assumption
    | simp only [Keeps.upd_iff]
    | with_reducible apply Keeps.after (e2eAccept_keeps ..)
    | refine Keeps.trans ?_ (e2eAccept_keeps' (by assumption))
    | with_reducible apply Keeps.after (gather_keeps ..)
    | refine Keeps.trans ?_ (gather_keeps' (by assumption))
    | with_reducible apply Keeps.after (remoteResult_keeps ..)
    | with_reducible apply Keeps.after (takeInbox_keeps ..)
    | refine Keeps.trans ?_ (takeInbox_keeps' (by assumption))
    | (intro _ _; try dsimp only)
    | (split <;> try dsimp only)

theorem execRemoteTimeout_keeps (mb : Fin 8) (s : State) :
    KeepsO s (execRemoteTimeout mb s) := by
  unfold execRemoteTimeout
  refine .next ?_
  try dsimp only
  repeat' first
    | with_reducible exact Keeps.refl _
    | assumption
    | simp only [Keeps.upd_iff]
    | ((with_reducible apply Keeps.after (forEach_keeps ?_)) <;> try dsimp only)
    | with_reducible apply Keeps.after (finish_keeps ..)
    | (intro _ _; try dsimp only)
    | (split <;> try dsimp only)

theorem execRingPeerIdent_keeps (mb : Fin 8) (s : State) :
    KeepsO s (execRingPeerIdent mb s) := by
  unfold execRingPeerIdent
  refine runCommand_keeps fun o j p u => ?_
  try dsimp only
  repeat' first
    | with_reducible exact Keeps.refl _
    | assumption
    | simp only [Keeps.upd_iff]
    | with_reducible apply Keeps.after (sendMgmt_keeps ..)
    | with_reducible apply Keeps.after (identResult_keeps ..)
    | refine Keeps.trans ?_ (identResult_keeps' (by assumption))
    | (split <;> try dsimp only)

end Sys2Proof
end

