-- ==== Sys2Proof/Laws/KeepsTime.lean ====
section
/-! SUPPORT. Every operation and meaning of Machine/Time.lean keeps the queue, the drawn values, the trace and the invariant. -/

namespace Sys2Proof

/-! One proof at a time: proofs that wait on one another each hold a thread of their own. -/
set_option Elab.async false

open Sys2Proof.Machine

theorem discipline_keeps (e : Int) (s : State) :
    Keeps s (discipline e s) := by
  unfold discipline
  try dsimp only
  repeat' first
    | with_reducible exact Keeps.refl _
    | assumption
    | simp only [Keeps.upd_iff]
    | with_reducible apply Keeps.after (logEv_keeps ..)
    | (intro _ _; try dsimp only)
    | (split <;> try dsimp only)

theorem execTimePpsEdge_keeps (s : State) :
    KeepsO s (execTimePpsEdge s) := by
  unfold execTimePpsEdge
  refine .next ?_
  try dsimp only
  repeat' first
    | with_reducible exact Keeps.refl _
    | assumption
    | simp only [Keeps.upd_iff]
    | with_reducible apply Keeps.after (discipline_keeps ..)
    | (intro _ _; try dsimp only)
    | (split <;> try dsimp only)

theorem execTimeDisciplinedLapse_keeps (s : State) :
    KeepsO s (execTimeDisciplinedLapse s) := by
  unfold execTimeDisciplinedLapse
  refine .next ?_
  try dsimp only
  repeat' first
    | with_reducible exact Keeps.refl _
    | assumption
    | simp only [Keeps.upd_iff]
    | (split <;> try dsimp only)

theorem execTimeLoadNow_keeps (s : State) :
    KeepsO s (execTimeLoadNow s) := by
  unfold execTimeLoadNow
  refine .next ?_
  try dsimp only
  repeat' first
    | with_reducible exact Keeps.refl _
    | assumption
    | simp only [Keeps.upd_iff]
    | (split <;> try dsimp only)

theorem execTimeLoadAtPps_keeps (s : State) :
    KeepsO s (execTimeLoadAtPps s) := by
  unfold execTimeLoadAtPps
  refine .next ?_
  try dsimp only
  repeat' first
    | with_reducible exact Keeps.refl _
    | assumption
    | simp only [Keeps.upd_iff]
    | exact Keeps.parts rfl rfl rfl id id id
    | (split <;> try dsimp only)

theorem execTimeCancelLoad_keeps (s : State) :
    KeepsO s (execTimeCancelLoad s) := by
  unfold execTimeCancelLoad
  refine .next ?_
  try dsimp only
  repeat' first
    | with_reducible exact Keeps.refl _
    | assumption
    | simp only [Keeps.upd_iff]
    | (split <;> try dsimp only)

end Sys2Proof
end

