-- ==== Sys2Proof/Laws/KeepsRingSync.lean ====
section
/-! SUPPORT. Every operation and meaning of Machine/RingSync.lean keeps the queue, the drawn values, the trace and the invariant. -/

namespace Sys2Proof

/-! One proof at a time: proofs that wait on one another each hold a thread of their own. -/
set_option Elab.async false

open Sys2Proof.Machine

theorem execAnnounceSend_keeps (s : State) :
    KeepsO s (execAnnounceSend s) := by
  unfold execAnnounceSend
  refine .next ?_
  try dsimp only
  repeat' first
    | with_reducible exact Keeps.refl _
    | assumption
    | simp only [Keeps.upd_iff]
    | with_reducible apply Keeps.after (broadcast_keeps ..)
    | (split <;> try dsimp only)

theorem storeBinding_keeps (i node uid : Nat) (s : State) :
    Keeps s (storeBinding i node uid s) := by
  unfold storeBinding
  try dsimp only
  repeat' first
    | with_reducible exact Keeps.refl _
    | assumption
    | simp only [Keeps.upd_iff]
    | with_reducible apply Keeps.after (nvWrite_keeps ..)

theorem seeBinding_keeps (node uid : Nat) (s : State) :
    Keeps s (seeBinding node uid s) := by
  unfold seeBinding
  try dsimp only
  repeat' first
    | with_reducible exact Keeps.refl _
    | assumption
    | simp only [Keeps.upd_iff]
    | with_reducible apply Keeps.after (raiseIrq_keeps ..)
    | with_reducible apply Keeps.after (logEv_keeps ..)
    | with_reducible apply Keeps.after (storeBinding_keeps ..)
    | (split <;> try dsimp only)

theorem rosterChanged_keeps (s : State) :
    Keeps s (rosterChanged s) := by
  unfold rosterChanged
  try dsimp only
  repeat' first
    | with_reducible exact Keeps.refl _
    | assumption
    | simp only [Keeps.upd_iff]
    | with_reducible apply Keeps.after (updateMaster_keeps ..)
    | with_reducible apply Keeps.after (judgeRing_keeps ..)
    | (split <;> try dsimp only)

theorem putMember_keeps (n : Nat) (m : Member) (s : State) :
    Keeps s (putMember n m s) := by
  unfold putMember
  try dsimp only
  repeat' first
    | with_reducible exact Keeps.refl _
    | assumption
    | simp only [Keeps.upd_iff]

theorem contest_keeps (m : RingMessage) (s : State) :
    Keeps s (contest m s) := by
  unfold contest
  try dsimp only
  repeat' first
    | with_reducible exact Keeps.refl _
    | assumption
    | simp only [Keeps.upd_iff]
    | with_reducible apply Keeps.after (startLeaving_keeps ..)
    | with_reducible apply Keeps.after (violation_keeps ..)
    | with_reducible apply Keeps.after (setDuplicate_keeps ..)
    | (split <;> try dsimp only)

theorem takeAnnounce_keeps (m : RingMessage) (s : State) :
    Keeps s (takeAnnounce m s) := by
  unfold takeAnnounce
  try dsimp only
  repeat' first
    | with_reducible exact Keeps.refl _
    | assumption
    | simp only [Keeps.upd_iff]
    | with_reducible apply Keeps.after (seeBinding_keeps ..)
    | with_reducible apply Keeps.after (rosterChanged_keeps ..)
    | with_reducible apply Keeps.after (putMember_keeps ..)
    | (split <;> try dsimp only)

theorem execAnnounceReceived_keeps (s : State) :
    KeepsO s (execAnnounceReceived s) := by
  unfold execAnnounceReceived
  refine .next ?_
  try dsimp only
  repeat' first
    | with_reducible exact Keeps.refl _
    | assumption
    | simp only [Keeps.upd_iff]
    | refine Keeps.trans ?_ (takeInbox_keeps' (by assumption))
    | with_reducible apply Keeps.after (contest_keeps ..)
    | with_reducible apply Keeps.after (takeAnnounce_keeps ..)
    | (split <;> try dsimp only)

theorem execRosterExpiry_keeps (node : BitVec 16) (s : State) :
    KeepsO s (execRosterExpiry node s) := by
  unfold execRosterExpiry
  refine .next ?_
  try dsimp only
  repeat' first
    | with_reducible exact Keeps.refl _
    | assumption
    | simp only [Keeps.upd_iff]
    | with_reducible apply Keeps.after (dropMember_keeps ..)
    | with_reducible apply Keeps.after (rosterChanged_keeps ..)
    | (split <;> try dsimp only)

theorem takeBlock_keeps (es : List SyncEntry) (s : State) :
    Keeps s (takeBlock es s) := by
  unfold takeBlock
  try dsimp only
  repeat' first
    | with_reducible exact Keeps.refl _
    | assumption
    | simp only [Keeps.upd_iff]
    | with_reducible apply Keeps.after (logEv_keeps ..)
    | (split <;> try dsimp only)

theorem sendSync_keeps (ring : Nat) (payload : Bytes) (p : RingPhase) (s : State) :
    Keeps s (sendSync ring payload p s) := by
  unfold sendSync
  try dsimp only
  repeat' first
    | with_reducible exact Keeps.refl _
    | assumption
    | simp only [Keeps.upd_iff]
    | with_reducible apply Keeps.after (forwardOn_keeps ..)
    | (intro _ _; try dsimp only)
    | (split <;> try dsimp only)

theorem execSyncSend_keeps (s : State) :
    KeepsO s (execSyncSend s) := by
  unfold execSyncSend
  refine .next ?_
  try dsimp only
  repeat' first
    | with_reducible exact Keeps.refl _
    | assumption
    | simp only [Keeps.upd_iff]
    | with_reducible apply Keeps.after (sendSync_keeps ..)
    | with_reducible apply Keeps.after (takeBlock_keeps ..)
    | (intro _ _; try dsimp only)
    | (split <;> try dsimp only)

theorem forwardSync_keeps (m : RingMessage) (s : State) :
    Keeps s (forwardSync m s) := by
  unfold forwardSync
  try dsimp only
  repeat' first
    | with_reducible exact Keeps.refl _
    | assumption
    | simp only [Keeps.upd_iff]
    | with_reducible apply Keeps.after (forwardOn_keeps ..)
    | (intro _ _; try dsimp only)
    | (split <;> try dsimp only)

theorem syncTime_keeps (m : RingMessage) (s : State) :
    Keeps s (syncTime m s) := by
  unfold syncTime
  try dsimp only
  repeat' first
    | with_reducible exact Keeps.refl _
    | assumption
    | simp only [Keeps.upd_iff]
    | with_reducible apply Keeps.after (discipline_keeps ..)
    | with_reducible apply Keeps.after (tick_keeps ..)
    | (split <;> try dsimp only)

theorem syncRates_keeps (rate : Nat) (s : State) :
    Keeps s (syncRates rate s) := by
  unfold syncRates
  try dsimp only
  repeat' first
    | with_reducible exact Keeps.refl _
    | assumption
    | simp only [Keeps.upd_iff]
    | with_reducible apply Keeps.after (logEv_keeps ..)
    | (split <;> try dsimp only)

theorem acceptSync_keeps (m : RingMessage) (s : State) :
    Keeps s (acceptSync m s) := by
  unfold acceptSync
  try dsimp only
  repeat' first
    | with_reducible exact Keeps.refl _
    | assumption
    | simp only [Keeps.upd_iff]
    | with_reducible apply Keeps.after (syncRates_keeps ..)
    | with_reducible apply Keeps.after (syncTime_keeps ..)
    | with_reducible apply Keeps.after (takeBlock_keeps ..)
    | (intro _ _; try dsimp only)
    | (split <;> try dsimp only)

theorem syncReturned_keeps (m : RingMessage) (s : State) :
    Keeps s (syncReturned m s) := by
  unfold syncReturned
  try dsimp only
  repeat' first
    | with_reducible exact Keeps.refl _
    | assumption
    | simp only [Keeps.upd_iff]
    | with_reducible apply Keeps.after (logEv_keeps ..)
    | (intro _ _; try dsimp only)
    | (split <;> try dsimp only)

theorem takeSync_keeps (m : RingMessage) (s : State) :
    Keeps s (takeSync m s) := by
  unfold takeSync
  try dsimp only
  repeat' first
    | with_reducible exact Keeps.refl _
    | assumption
    | simp only [Keeps.upd_iff]
    | with_reducible apply Keeps.after (acceptSync_keeps ..)
    | with_reducible apply Keeps.after (forwardSync_keeps ..)
    | with_reducible apply Keeps.after (mgmtNak_keeps ..)
    | with_reducible apply Keeps.after (violation_keeps ..)
    | (intro _ _; try dsimp only)
    | (split <;> try dsimp only)

theorem execSyncReceived_keeps (s : State) :
    KeepsO s (execSyncReceived s) := by
  unfold execSyncReceived
  refine .next ?_
  try dsimp only
  repeat' first
    | with_reducible exact Keeps.refl _
    | assumption
    | simp only [Keeps.upd_iff]
    | refine Keeps.trans ?_ (takeInbox_keeps' (by assumption))
    | with_reducible apply Keeps.after (syncReturned_keeps ..)
    | with_reducible apply Keeps.after (takeSync_keeps ..)
    | (split <;> try dsimp only)

theorem execSyncLost_keeps (s : State) :
    KeepsO s (execSyncLost s) := by
  unfold execSyncLost
  refine .next ?_
  try dsimp only
  repeat' first
    | with_reducible exact Keeps.refl _
    | assumption
    | simp only [Keeps.upd_iff]
    | with_reducible apply Keeps.after (logEv_keeps ..)
    | (split <;> try dsimp only)

theorem ringConfig_keeps (p : Bytes) (s : State) :
    Keeps s (ringConfig p s).1 := by
  unfold ringConfig
  try dsimp only
  repeat' first
    | with_reducible exact Keeps.refl _
    | assumption
    | simp only [Keeps.upd_iff]
    | with_reducible apply Keeps.after (tryJoin_keeps ..)
    | with_reducible apply Keeps.after (persistRing_keeps ..)
    | with_reducible refine Keeps.drawn ?_
    | (split <;> try dsimp only)

theorem ringConfig_keeps' {p : Bytes} {s : State} {t : State} {x} (hx : ringConfig p s = (t, x)) : Keeps s t := by
  have e := ringConfig_keeps p s
  rw [hx] at e
  exact e

theorem execRingConfig_keeps (mb : Fin 8) (s : State) :
    KeepsO s (execRingConfig mb s) := by
  unfold execRingConfig
  refine runCommand_keeps fun o j p u => ?_
  try dsimp only
  repeat' first
    | with_reducible exact Keeps.refl _
    | assumption
    | simp only [Keeps.upd_iff]
    | ((with_reducible apply Keeps.after (checked_keeps ?_)) <;> try dsimp only)
    | with_reducible apply Keeps.after (ringConfig_keeps ..)

theorem execRingStatus_keeps (mb : Fin 8) (s : State) :
    KeepsO s (execRingStatus mb s) := by
  unfold execRingStatus
  refine runCommand_keeps fun o j p u => ?_
  try dsimp only
  repeat' first
    | with_reducible exact Keeps.refl _
    | assumption
    | simp only [Keeps.upd_iff]
    | ((with_reducible apply Keeps.after (checked_keeps ?_)) <;> try dsimp only)

theorem ackChange_keeps (n : Nat) (s : State) :
    Keeps s (ackChange n s) := by
  unfold ackChange
  try dsimp only
  repeat' first
    | with_reducible exact Keeps.refl _
    | assumption
    | simp only [Keeps.upd_iff]
    | with_reducible apply Keeps.after (storeBinding_keeps ..)
    | (split <;> try dsimp only)

theorem execRingMembers_keeps (mb : Fin 8) (s : State) :
    KeepsO s (execRingMembers mb s) := by
  unfold execRingMembers
  refine runCommand_keeps fun o j p u => ?_
  try dsimp only
  repeat' first
    | with_reducible exact Keeps.refl _
    | assumption
    | simp only [Keeps.upd_iff]
    | ((with_reducible apply Keeps.after (forEach_keeps ?_)) <;> try dsimp only)
    | ((with_reducible apply Keeps.after (checked_keeps ?_)) <;> try dsimp only)
    | with_reducible apply Keeps.after (judgeRing_keeps ..)
    | with_reducible apply Keeps.after (ackChange_keeps ..)
    | (intro _ _; try dsimp only)
    | (split <;> try dsimp only)

theorem execRingLeave_keeps (mb : Fin 8) (s : State) :
    KeepsO s (execRingLeave mb s) := by
  unfold execRingLeave
  refine runCommand_keeps fun o j p u => ?_
  try dsimp only
  repeat' first
    | with_reducible exact Keeps.refl _
    | assumption
    | simp only [Keeps.upd_iff]
    | with_reducible apply Keeps.after (startLeaving_keeps ..)
    | (split <;> try dsimp only)

theorem execRingSetPhase_keeps (mb : Fin 8) (s : State) :
    KeepsO s (execRingSetPhase mb s) := by
  unfold execRingSetPhase
  refine runCommand_keeps fun o j p u => ?_
  try dsimp only
  repeat' first
    | with_reducible exact Keeps.refl _
    | assumption
    | simp only [Keeps.upd_iff]
    | ((with_reducible apply Keeps.after (checked_keeps ?_)) <;> try dsimp only)
    | with_reducible apply Keeps.after (stage_keeps ..)

end Sys2Proof
end

