-- ==== Sys2Proof/Laws/KeepsFrame.lean ====
section
/-! SUPPORT. Every operation and meaning of Machine/Frame.lean keeps the queue, the drawn values, the trace and the invariant. -/

namespace Sys2Proof

/-! One proof at a time: proofs that wait on one another each hold a thread of their own. -/
set_option Elab.async false

open Sys2Proof.Machine

theorem setFamilyRange_keeps (s : State) :
    Keeps s (setFamilyRange s) := by
  unfold setFamilyRange
  try dsimp only
  repeat' first
    | with_reducible exact Keeps.refl _
    | assumption
    | simp only [Keeps.upd_iff]
    | with_reducible apply Keeps.after (logEv_keeps ..)
    | (split <;> try dsimp only)

theorem applyPlan_keeps (p : Plan) (f : Nat) (s : State) :
    Keeps s (applyPlan p f s) := by
  unfold applyPlan
  try dsimp only
  repeat' first
    | with_reducible exact Keeps.refl _
    | assumption
    | simp only [Keeps.upd_iff]
    | ((with_reducible apply Keeps.after (forEach_keeps ?_)) <;> try dsimp only)
    | with_reducible apply Keeps.after (applyRing_keeps ..)
    | with_reducible apply Keeps.after (setFamilyRange_keeps ..)
    | (intro _ _; try dsimp only)

theorem failCommit_keeps (c : PendingCommit) (x : CommitFail) (s : State) :
    Keeps s (failCommit c x s) := by
  unfold failCommit
  try dsimp only
  repeat' first
    | with_reducible exact Keeps.refl _
    | assumption
    | simp only [Keeps.upd_iff]
    | with_reducible apply Keeps.after (logEv_keeps ..)
    | with_reducible apply Keeps.after (finish_keeps ..)
    | with_reducible apply Keeps.after (dropCommit_keeps ..)

theorem passCommit_keeps (c : PendingCommit) (p : Plan) (f shown : Nat) (s : State) :
    Keeps s (passCommit c p f shown s) := by
  unfold passCommit
  try dsimp only
  repeat' first
    | with_reducible exact Keeps.refl _
    | assumption
    | simp only [Keeps.upd_iff]
    | with_reducible apply Keeps.after (logEv_keeps ..)
    | with_reducible apply Keeps.after (finish_keeps ..)
    | with_reducible apply Keeps.after (applyPlan_keeps ..)
    | with_reducible apply Keeps.after (dropCommit_keeps ..)

theorem nextEpoch_keeps (s : State) :
    Keeps s (nextEpoch s) := by
  unfold nextEpoch
  try dsimp only
  repeat' first
    | with_reducible exact Keeps.refl _
    | assumption
    | simp only [Keeps.upd_iff]

theorem commitHandler_keeps (j : Nat) (s : State) :
    Keeps s (commitHandler j s).1 := by
  unfold commitHandler
  try dsimp only
  repeat' first
    | with_reducible exact Keeps.refl _
    | assumption
    | simp only [Keeps.upd_iff]
    | ((with_reducible apply Keeps.after (forEach_keeps ?_)) <;> try dsimp only)
    | with_reducible apply Keeps.after (modEntry_keeps ..)
    | with_reducible apply Keeps.after (stage_keeps ..)
    | (intro _ _; try dsimp only)
    | (split <;> try dsimp only)

theorem commitHandler_keeps' {j : Nat} {s : State} {t : State} {x} (hx : commitHandler j s = (t, x)) : Keeps s t := by
  have e := commitHandler_keeps j s
  rw [hx] at e
  exact e

theorem execCommit_keeps (mb : Fin 8) (s : State) :
    KeepsO s (execCommit mb s) := by
  unfold execCommit
  refine runCommand_keeps fun o j p u => ?_
  try dsimp only
  repeat' first
    | with_reducible exact Keeps.refl _
    | assumption
    | simp only [Keeps.upd_iff]
    | with_reducible apply Keeps.after (commitHandler_keeps ..)
    | refine Keeps.trans ?_ (commitHandler_keeps' (by assumption))
    | (split <;> try dsimp only)

theorem execStageDiscard_keeps (mb : Fin 8) (s : State) :
    KeepsO s (execStageDiscard mb s) := by
  unfold execStageDiscard
  refine runCommand_keeps fun o j p u => ?_
  try dsimp only
  repeat' first
    | with_reducible exact Keeps.refl _
    | assumption
    | simp only [Keeps.upd_iff]
    | ((with_reducible apply Keeps.after (checked_keeps ?_)) <;> try dsimp only)
    | with_reducible apply Keeps.after (unstage_keeps ..)

theorem latchSnapshots_keeps (valid : Bool) (s : State) :
    Keeps s (latchSnapshots valid s) := by
  unfold latchSnapshots
  try dsimp only
  repeat' first
    | with_reducible exact Keeps.refl _
    | assumption
    | simp only [Keeps.upd_iff]
    | ((with_reducible apply Keeps.after (forEach_keeps ?_)) <;> try dsimp only)
    | with_reducible apply Keeps.after (finish_keeps ..)
    | (intro _ _; try dsimp only)
    | with_reducible refine Keeps.drawn ?_
    | (split <;> try dsimp only)

theorem execSnapshot_keeps (mb : Fin 8) (s : State) :
    KeepsO s (execSnapshot mb s) := by
  unfold execSnapshot
  refine runCommand_keeps fun o j p u => ?_
  try dsimp only
  repeat' first
    | with_reducible exact Keeps.refl _
    | assumption
    | simp only [Keeps.upd_iff]
    | (intro _ _; try dsimp only)
    | with_reducible refine Keeps.drawn ?_
    | (split <;> try dsimp only)

theorem applyUnframed_keeps (c : PendingCommit) (s : State) :
    Keeps s (applyUnframed c s) := by
  unfold applyUnframed
  try dsimp only
  repeat' first
    | with_reducible exact Keeps.refl _
    | assumption
    | simp only [Keeps.upd_iff]
    | with_reducible apply Keeps.after (failCommit_keeps ..)
    | with_reducible apply Keeps.after (passCommit_keeps ..)
    | with_reducible apply Keeps.after (nextEpoch_keeps ..)
    | (split <;> try dsimp only)

theorem execCommitApplyStopped_keeps (s : State) :
    KeepsO s (execCommitApplyStopped s) := by
  unfold execCommitApplyStopped
  refine .next ?_
  try dsimp only
  repeat' first
    | with_reducible exact Keeps.refl _
    | assumption
    | simp only [Keeps.upd_iff]
    | with_reducible apply Keeps.after (applyUnframed_keeps ..)
    | with_reducible apply Keeps.after (latchSnapshots_keeps ..)
    | (intro _ _; try dsimp only)
    | (split <;> try dsimp only)

theorem leaveAcquire_keeps (s : State) :
    Keeps s (leaveAcquire s) := by
  unfold leaveAcquire
  try dsimp only
  repeat' first
    | with_reducible exact Keeps.refl _
    | assumption
    | simp only [Keeps.upd_iff]
    | ((with_reducible apply Keeps.after (forEach_keeps ?_)) <;> try dsimp only)
    | with_reducible apply Keeps.after (applyUnframed_keeps ..)
    | (intro _ _; try dsimp only)
    | (split <;> try dsimp only)

theorem indexEvent_keeps (ti64 u64 : Nat) (s : State) :
    Keeps s (indexEvent ti64 u64 s) := by
  unfold indexEvent
  try dsimp only
  repeat' first
    | with_reducible exact Keeps.refl _
    | assumption
    | simp only [Keeps.upd_iff]
    | with_reducible apply Keeps.after (leaveAcquire_keeps ..)
    | with_reducible apply Keeps.after (takeIndex_keeps ..)
    | (intro _ _; try dsimp only)
    | (split <;> try dsimp only)

theorem execIndexEdge_keeps (rising : Bool) (ti : Nat) (s : State) :
    KeepsO s (execIndexEdge rising ti s) := by
  unfold execIndexEdge
  refine .next ?_
  try dsimp only
  repeat' first
    | with_reducible exact Keeps.refl _
    | assumption
    | simp only [Keeps.upd_iff]
    | with_reducible apply Keeps.after (indexEvent_keeps ..)
    | (intro _ _; try dsimp only)
    | (split <;> try dsimp only)

theorem pickEvent_keeps (pick : Nat) (rising : Bool) (at64 : Nat) (s : State) :
    Keeps s (pickEvent pick rising at64 s) := by
  unfold pickEvent
  try dsimp only
  repeat' first
    | with_reducible exact Keeps.refl _
    | assumption
    | simp only [Keeps.upd_iff]
    | with_reducible apply Keeps.after (indexEvent_keeps ..)
    | with_reducible apply Keeps.after (singleCrossing_keeps ..)
    | (intro _ _; try dsimp only)
    | (split <;> try dsimp only)

theorem pickSample_keeps (pick n : Nat) (v : Int) (s : State) :
    Keeps s (pickSample pick n v s) := by
  unfold pickSample
  try dsimp only
  repeat' first
    | with_reducible exact Keeps.refl _
    | assumption
    | simp only [Keeps.upd_iff]
    | with_reducible apply Keeps.after (pickEvent_keeps ..)
    | (intro _ _; try dsimp only)
    | (split <;> try dsimp only)

theorem pickSamples_keeps (pick t : Nat) (l : List (BitVec 14)) (s : State) : Keeps s (pickSamples pick t l s) := by
  induction l generalizing t s with
  | nil => exact .refl s
  | cons v l ih => exact (pickSample_keeps ..).trans (ih ..)

theorem execPickCrossing_keeps (pick : Fin 2) (t : Nat) (samples : List (BitVec 14)) (s : State) :
    KeepsO s (execPickCrossing pick t samples s) := by
  unfold execPickCrossing
  refine .next ?_
  try dsimp only
  repeat' first
    | with_reducible exact Keeps.refl _
    | assumption
    | simp only [Keeps.upd_iff]
    | with_reducible apply Keeps.after (pickSamples_keeps ..)
    | (intro _ _; try dsimp only)
    | (split <;> try dsimp only)

theorem crossLeft_keeps (v : State) (k : Nat) (p : Nat → Bool) (s : State) :
    Keeps s (crossLeft v k p s) := by
  unfold crossLeft
  try dsimp only
  repeat' first
    | with_reducible exact Keeps.refl _
    | assumption
    | simp only [Keeps.upd_iff]
    | ((with_reducible apply Keeps.after (forUpto_keeps ?_)) <;> try dsimp only)
    | with_reducible apply Keeps.after (crossColumn_keeps ..)
    | (intro _ _; try dsimp only)
    | (split <;> try dsimp only)

theorem judgeAngle_keeps (s : State) :
    Keeps s (judgeAngle s) := by
  unfold judgeAngle
  try dsimp only
  repeat' first
    | with_reducible exact Keeps.refl _
    | assumption
    | simp only [Keeps.upd_iff]
    | with_reducible apply Keeps.after (setPred_keeps ..)
    | (intro _ _; try dsimp only)
    | (split <;> try dsimp only)

theorem openFrame_keeps (s : State) :
    Keeps s (openFrame s) := by
  unfold openFrame
  try dsimp only
  repeat' first
    | with_reducible exact Keeps.refl _
    | assumption
    | simp only [Keeps.upd_iff]
    | (intro _ _; try dsimp only)
    | (split <;> try dsimp only)

theorem applyBlock_keeps (s : State) :
    Keeps s (applyBlock s) := by
  unfold applyBlock
  try dsimp only
  repeat' first
    | with_reducible exact Keeps.refl _
    | assumption
    | simp only [Keeps.upd_iff]
    | with_reducible apply Keeps.after (logEv_keeps ..)
    | (split <;> try dsimp only)

theorem clearFamilyRange_keeps (s : State) :
    Keeps s (clearFamilyRange s) := by
  unfold clearFamilyRange
  try dsimp only
  repeat' first
    | with_reducible exact Keeps.refl _
    | assumption
    | simp only [Keeps.upd_iff]
    | (split <;> try dsimp only)

theorem applyBoundary_keeps (s : State) :
    Keeps s (applyBoundary s) := by
  unfold applyBoundary
  try dsimp only
  repeat' first
    | with_reducible exact Keeps.refl _
    | assumption
    | simp only [Keeps.upd_iff]
    | with_reducible apply Keeps.after (failCommit_keeps ..)
    | with_reducible apply Keeps.after (passCommit_keeps ..)
    | with_reducible apply Keeps.after (nextEpoch_keeps ..)
    | with_reducible apply Keeps.after (applyBlock_keeps ..)
    | with_reducible apply Keeps.after (clearFamilyRange_keeps ..)
    | (split <;> try dsimp only)

theorem openCourse_keeps (c : Nat) (s : State) :
    Keeps s (openCourse c s) := by
  unfold openCourse
  try dsimp only
  repeat' first
    | with_reducible exact Keeps.refl _
    | assumption
    | simp only [Keeps.upd_iff]
    | with_reducible apply Keeps.after (modCourse_keeps ..)

theorem judgeLanes_keeps (s : State) :
    Keeps s (judgeLanes s) := by
  unfold judgeLanes
  try dsimp only
  repeat' first
    | with_reducible exact Keeps.refl _
    | assumption
    | simp only [Keeps.upd_iff]

theorem openGates_keeps (s : State) : Keeps s (openGates s) :=
  ⟨rfl, Nat.le_refl _, List.suffix_refl _,
    fun i => ⟨i.1, i.2.1, i.2.2.1, by cases h : s.es.permit <;> simp [gateFollows, openGates, h]⟩, rfl, id⟩

theorem headFrame_keeps (s : State) :
    Keeps s (headFrame s) := by
  unfold headFrame
  try dsimp only
  repeat' first
    | with_reducible exact Keeps.refl _
    | assumption
    | simp only [Keeps.upd_iff]
    | with_reducible apply Keeps.after (commitHeaders_keeps ..)
    | with_reducible apply Keeps.after (takePlane_keeps ..)
    | with_reducible apply Keeps.after (openArrivals_keeps ..)
    | (split <;> try dsimp only)

theorem crossFrame_keeps (s : State) :
    Keeps s (crossFrame s) := by
  unfold crossFrame
  try dsimp only
  repeat' first
    | with_reducible exact Keeps.refl _
    | assumption
    | simp only [Keeps.upd_iff]
    | ((with_reducible apply Keeps.after (eachCourse_keeps ?_)) <;> try dsimp only)
    | with_reducible apply Keeps.after (applyBoundary_keeps ..)
    | with_reducible apply Keeps.after (crossLeft_keeps ..)
    | with_reducible apply Keeps.after (flushRecords_keeps ..)
    | with_reducible apply Keeps.after (headFrame_keeps ..)
    | with_reducible apply Keeps.after (judgeAngle_keeps ..)
    | with_reducible apply Keeps.after (judgeLanes_keeps ..)
    | with_reducible apply Keeps.after (latchSnapshots_keeps ..)
    | with_reducible apply Keeps.after (logGoverned_keeps ..)
    | with_reducible apply Keeps.after (openCourse_keeps ..)
    | with_reducible apply Keeps.after (openFrame_keeps ..)
    | with_reducible apply Keeps.after (openGates_keeps ..)
    | (intro _ _; try dsimp only)
    | (split <;> try dsimp only)

theorem execFrameBoundary_keeps (s : State) :
    KeepsO s (execFrameBoundary s) := by
  unfold execFrameBoundary
  refine .next ?_
  try dsimp only
  repeat' first
    | with_reducible exact Keeps.refl _
    | assumption
    | simp only [Keeps.upd_iff]
    | with_reducible apply Keeps.after (crossFrame_keeps ..)
    | (intro _ _; try dsimp only)
    | (split <;> try dsimp only)

end Sys2Proof
end

