-- ==== Sys2Proof/Laws/KeepsRegisterMap.lean ====
section
/-! SUPPORT. Every operation and meaning of Machine/RegisterMap.lean keeps the queue, the drawn values, the trace and the invariant. -/

namespace Sys2Proof

/-! One proof at a time: proofs that wait on one another each hold a thread of their own. -/
set_option Elab.async false

open Sys2Proof.Machine

theorem setShadow_keeps (p : Pair2H) (v : Option Nat) (s : State) :
    Keeps s (setShadow p v s) := by
  unfold setShadow
  try dsimp only
  repeat' first
    | with_reducible exact Keeps.refl _
    | assumption
    | simp only [Keeps.upd_iff]
    | exact Keeps.parts rfl rfl rfl id id id

theorem execTwoHalfLowRead_keeps (p : Pair2H) (wide : Bool) (s : State) :
    KeepsO s (execTwoHalfLowRead p wide s) := by
  unfold execTwoHalfLowRead
  refine .next ?_
  try dsimp only
  repeat' first
    | with_reducible exact Keeps.refl _
    | assumption
    | simp only [Keeps.upd_iff]
    | ((with_reducible refine Keeps.after (emit_keeps _ _ ?_) ?_); exact rfl)
    | with_reducible apply Keeps.after (setShadow_keeps ..)
    | (split <;> try dsimp only)

theorem execTwoHalfHighRead_keeps (p : Pair2H) (s : State) :
    KeepsO s (execTwoHalfHighRead p s) := by
  unfold execTwoHalfHighRead
  refine .next ?_
  try dsimp only
  repeat' first
    | with_reducible exact Keeps.refl _
    | assumption
    | simp only [Keeps.upd_iff]
    | ((with_reducible refine Keeps.after (emit_keeps _ _ ?_) ?_); exact rfl)
    | with_reducible apply Keeps.after (setShadow_keeps ..)
    | exact Keeps.parts rfl rfl rfl id id id
    | (split <;> try dsimp only)

end Sys2Proof
end

