-- ==== Sys2Proof/Laws/KeepsSession.lean ====
section
/-! SUPPORT. Every operation and meaning of Machine/Session.lean keeps the queue, the drawn values, the trace and the invariant. -/

namespace Sys2Proof

/-! One proof at a time: proofs that wait on one another each hold a thread of their own. -/
set_option Elab.async false

open Sys2Proof.Machine

theorem hello_keeps (o : Origin) (p : Bytes) (s : State) :
    Keeps s (hello o p s).1 := by
  unfold hello
  try dsimp only
  repeat' first
    | with_reducible exact Keeps.refl _
    | assumption
    | simp only [Keeps.upd_iff]
    | with_reducible apply Keeps.after (logEv_keeps ..)
    | (split <;> try dsimp only)

theorem hello_keeps' {o : Origin} {p : Bytes} {s : State} {t : State} {x} (hx : hello o p s = (t, x)) : Keeps s t := by
  have e := hello_keeps o p s
  rw [hx] at e
  exact e

theorem execHello_keeps (mb : Fin 8) (s : State) :
    KeepsO s (execHello mb s) := by
  unfold execHello
  refine runCommand_keeps fun o j p u => ?_
  try dsimp only
  repeat' first
    | with_reducible exact Keeps.refl _
    | assumption
    | simp only [Keeps.upd_iff]
    | with_reducible apply Keeps.after (hello_keeps ..)

theorem execGoodbye_keeps (mb : Fin 8) (s : State) :
    KeepsO s (execGoodbye mb s) := by
  unfold execGoodbye
  refine runCommand_keeps fun o j p u => ?_
  try dsimp only
  repeat' first
    | with_reducible exact Keeps.refl _
    | assumption
    | simp only [Keeps.upd_iff]
    | with_reducible apply Keeps.after (finish_keeps ..)
    | with_reducible apply Keeps.after (closeSession_keeps ..)
    | (split <;> try dsimp only)

theorem execNop_keeps (mb : Fin 8) (s : State) :
    KeepsO s (execNop mb s) := by
  unfold execNop
  refine runCommand_keeps fun o j p u => ?_
  try dsimp only
  repeat' first
    | with_reducible exact Keeps.refl _

theorem writeImage_keeps (p : Bytes) (s : State) :
    Keeps s (writeImage p s).1 := by
  unfold writeImage
  try dsimp only
  repeat' first
    | with_reducible exact Keeps.refl _
    | assumption
    | simp only [Keeps.upd_iff]
    | (intro _ _; try dsimp only)
    | (split <;> try dsimp only)

theorem writeImage_keeps' {p : Bytes} {s : State} {t : State} {x} (hx : writeImage p s = (t, x)) : Keeps s t := by
  have e := writeImage_keeps p s
  rw [hx] at e
  exact e

theorem execFwImageWrite_keeps (mb : Fin 8) (s : State) :
    KeepsO s (execFwImageWrite mb s) := by
  unfold execFwImageWrite
  refine runCommand_keeps fun o j p u => ?_
  try dsimp only
  repeat' first
    | with_reducible exact Keeps.refl _
    | assumption
    | simp only [Keeps.upd_iff]
    | ((with_reducible apply Keeps.after (checked_keeps ?_)) <;> try dsimp only)
    | with_reducible apply Keeps.after (writeImage_keeps ..)

theorem selectImage_keeps (p : Bytes) (s : State) :
    Keeps s (selectImage p s).1 := by
  unfold selectImage
  try dsimp only
  repeat' first
    | with_reducible exact Keeps.refl _
    | assumption
    | simp only [Keeps.upd_iff]
    | (split <;> try dsimp only)

theorem selectImage_keeps' {p : Bytes} {s : State} {t : State} {x} (hx : selectImage p s = (t, x)) : Keeps s t := by
  have e := selectImage_keeps p s
  rw [hx] at e
  exact e

theorem execFwImageSelect_keeps (mb : Fin 8) (s : State) :
    KeepsO s (execFwImageSelect mb s) := by
  unfold execFwImageSelect
  refine runCommand_keeps fun o j p u => ?_
  try dsimp only
  repeat' first
    | with_reducible exact Keeps.refl _
    | assumption
    | simp only [Keeps.upd_iff]
    | ((with_reducible apply Keeps.after (checked_keeps ?_)) <;> try dsimp only)
    | with_reducible apply Keeps.after (selectImage_keeps ..)

end Sys2Proof
end

