-- ==== Sys2Proof/Laws/KeepsHost.lean ====
section
/-! SUPPORT. Every operation and meaning of Machine/Host.lean keeps the queue, the drawn values, the trace and the invariant. -/

namespace Sys2Proof

/-! One proof at a time: proofs that wait on one another each hold a thread of their own. -/
set_option Elab.async false

open Sys2Proof.Machine

theorem bitmap_lt (l : List Bool) : bitmap l < 2 ^ l.length := by
  induction l with
  | nil => decide
  | cons b l ih =>
    simp only [bitmap, List.length_cons, Nat.pow_succ]
    have : b2n b ≤ 1 := by cases b <;> decide
    omega

theorem bitmapOf_lt (n : Nat) (p : Nat → Bool) : bitmapOf n p < 2 ^ n := by
  have h := bitmap_lt ((List.range n).map p)
  rwa [List.length_map, List.length_range] at h

theorem setCause_keeps {v : Nat} (s : State) (h : v < 2 ^ 22) : Keeps s { s with pcie.irqCause := v } :=
  .parts rfl rfl rfl id (fun k => (Interface.wf_iff _).2 ⟨h, ((Interface.wf_iff _).1 k).2⟩) id

theorem setEnable_keeps {v : Nat} (s : State) (h : v < 2 ^ 22) : Keeps s { s with pcie.irqEnable := v } :=
  .parts rfl rfl rfl id (fun k => (Interface.wf_iff _).2
    ⟨((Interface.wf_iff _).1 k).1, h, ((Interface.wf_iff _).1 k).2.2⟩) id

theorem clearCause_keeps (mask arriving : Nat) (s : State) : Keeps s (clearCause mask arriving s) := by
  unfold clearCause
  refine Keeps.trans (setCause_keeps s (bitmapOf_lt 22 _)) (forUpto_keeps fun n u => ?_)
  split
  · exact raiseIrq_keeps ..
  · exact .refl u

theorem execIrqCauseClear_keeps (mask arriving : BitVec 32) (s : State) :
    KeepsO s (execIrqCauseClear mask arriving s) := by
  unfold execIrqCauseClear
  refine .next ?_
  try dsimp only
  repeat' first
    | with_reducible exact Keeps.refl _
    | assumption
    | simp only [Keeps.upd_iff]
    | with_reducible apply Keeps.after (clearCause_keeps ..)
    | (split <;> try dsimp only)

theorem writeEnable_keeps (v : Nat) (s : State) : Keeps s (writeEnable v s) := by
  unfold writeEnable
  refine Keeps.trans (setEnable_keeps s (Nat.mod_lt v (by decide))) (forUpto_keeps fun n u => ?_)
  split
  · exact msixSend_keeps ..
  · exact .refl u

theorem execIrqEnableWrite_keeps (value : BitVec 32) (s : State) :
    KeepsO s (execIrqEnableWrite value s) := by
  unfold execIrqEnableWrite
  refine .next ?_
  try dsimp only
  repeat' first
    | with_reducible exact Keeps.refl _
    | assumption
    | simp only [Keeps.upd_iff]
    | with_reducible apply Keeps.after (writeEnable_keeps ..)
    | (split <;> try dsimp only)

theorem writeMap_keeps (n v : Nat) (s : State) : Keeps s (writeMap n v s) := by
  unfold writeMap
  refine forUpto_keeps fun m u => ?_
  dsimp only
  split
  · exact .refl u
  · next hv =>
    refine .parts rfl rfl rfl id (fun h => ?_) id
    rw [Interface.wf_iff] at h ⊢
    obtain ⟨cause, enable, map, rest⟩ := h
    refine ⟨cause, enable, List.all_eq_true.2 fun e he => ?_, rest⟩
    cases mem_tabSet he with
    | inl e => subst e; simp only [vectorOk, Bool.or_eq_true, decide_eq_true_eq]; omega
    | inr e => exact List.all_eq_true.1 map _ e

theorem execIrqMapWrite_keeps (n : Fin 8) (value : BitVec 32) (s : State) :
    KeepsO s (execIrqMapWrite n value s) := by
  unfold execIrqMapWrite
  refine .next ?_
  try dsimp only
  repeat' first
    | with_reducible exact Keeps.refl _
    | assumption
    | simp only [Keeps.upd_iff]
    | with_reducible apply Keeps.after (writeMap_keeps ..)
    | (split <;> try dsimp only)

theorem writeMsix_keeps (off v : Nat) (s : State) : Keeps s (writeMsix off v s) := by
  unfold writeMsix
  dsimp only
  split
  · exact Keeps.after (sendPending_keeps ..) (.parts rfl rfl rfl id id id)
  · exact .parts rfl rfl rfl id id id

theorem writeWinLo_keeps (v : Nat) (s : State) : Keeps s (writeWinLo v s) := by
  refine .parts rfl rfl rfl id (fun h => ?_) id
  rw [Interface.wf_iff] at h ⊢
  simp only [writeWinLo]
  have := Nat.mod_lt (v / 2 ^ 20) (show 2 ^ 12 > 0 by decide)
  obtain ⟨cause, enable, map, hi, -, -⟩ := h
  refine ⟨cause, enable, map, hi, this, ?_⟩
  omega

theorem writeWinHi_keeps (v : Nat) (s : State) : Keeps s (writeWinHi v s) := by
  refine .parts rfl rfl rfl id (fun h => ?_) id
  rw [Interface.wf_iff] at h ⊢
  obtain ⟨cause, enable, map, -, lo, base⟩ := h
  exact ⟨cause, enable, map, Nat.mod_lt v (by decide), lo, base⟩

theorem execWinBaseLoWrite_keeps (value : BitVec 32) (hi : Option (BitVec 32)) (s : State) :
    KeepsO s (execWinBaseLoWrite value hi s) := by
  unfold execWinBaseLoWrite
  refine .next ?_
  try dsimp only
  repeat' first
    | with_reducible exact Keeps.refl _
    | assumption
    | simp only [Keeps.upd_iff]
    | with_reducible apply Keeps.after (writeWinLo_keeps ..)
    | with_reducible apply Keeps.after (writeWinHi_keeps ..)
    | (split <;> try dsimp only)

theorem execBar2Read_keeps (offset len : Nat) (s : State) :
    KeepsO s (execBar2Read offset len s) := by
  unfold execBar2Read
  refine .next ?_
  try dsimp only
  repeat' first
    | with_reducible exact Keeps.refl _
    | assumption
    | simp only [Keeps.upd_iff]
    | ((with_reducible refine Keeps.after (emit_keeps _ _ ?_) ?_); exact rfl)
    | with_reducible apply Keeps.after (dramRead_keeps ..)
    | refine Keeps.trans ?_ (dramRead_keeps' (by assumption))
    | exact Keeps.parts rfl rfl rfl id id id
    | (intro _ _; try dsimp only)
    | (split <;> try dsimp only)

theorem execBar2Write_keeps (offset : Nat) (bytes : List Byte) (s : State) :
    KeepsO s (execBar2Write offset bytes s) := by
  unfold execBar2Write
  refine .next ?_
  try dsimp only
  repeat' first
    | with_reducible exact Keeps.refl _
    | assumption
    | simp only [Keeps.upd_iff]
    | ((with_reducible refine Keeps.after (emit_keeps _ _ ?_) ?_); exact rfl)
    | with_reducible apply Keeps.after (dramWrite_keeps ..)
    | with_reducible apply Keeps.after (logEv_keeps ..)
    | exact Keeps.parts rfl rfl rfl id id id
    | (intro _ _; try dsimp only)
    | (split <;> try dsimp only)

theorem refuseAccess_keeps (w : Bool) (s : State) : Keeps s (refuseAccess w s) :=
  Keeps.after (emit_keeps _ _ (by cases w <;> rfl)) (.parts rfl rfl rfl id id id)

theorem execBar0BadAccess_keeps (offset size : Nat) (isWrite : Bool) (s : State) :
    KeepsO s (execBar0BadAccess offset size isWrite s) := by
  unfold execBar0BadAccess
  refine .next ?_
  try dsimp only
  repeat' first
    | with_reducible exact Keeps.refl _
    | assumption
    | simp only [Keeps.upd_iff]
    | with_reducible apply Keeps.after (refuseAccess_keeps ..)
    | (intro _ _; try dsimp only)
    | (split <;> try dsimp only)

theorem execPayloadSramRead_keeps (offset len : Nat) (s : State) :
    KeepsO s (execPayloadSramRead offset len s) := by
  unfold execPayloadSramRead
  refine .next ?_
  try dsimp only
  repeat' first
    | with_reducible exact Keeps.refl _
    | assumption
    | simp only [Keeps.upd_iff]
    | ((with_reducible refine Keeps.after (emit_keeps _ _ ?_) ?_); exact rfl)
    | with_reducible apply Keeps.after (sramRead_keeps ..)
    | refine Keeps.trans ?_ (sramRead_keeps' (by assumption))
    | (split <;> try dsimp only)

theorem bootChunk_keeps (v : Nat) (s : State) :
    Keeps s (bootChunk v s) := by
  unfold bootChunk
  try dsimp only
  repeat' first
    | with_reducible exact Keeps.refl _
    | assumption
    | simp only [Keeps.upd_iff]
    | with_reducible apply Keeps.after (sramRead_keeps ..)
    | refine Keeps.trans ?_ (sramRead_keeps' (by assumption))
    | (split <;> try dsimp only)

theorem execIdBootChunk_keeps (value : BitVec 32) (s : State) :
    KeepsO s (execIdBootChunk value s) := by
  unfold execIdBootChunk
  refine .next ?_
  try dsimp only
  repeat' first
    | with_reducible exact Keeps.refl _
    | assumption
    | simp only [Keeps.upd_iff]
    | with_reducible apply Keeps.after (bootChunk_keeps ..)
    | (split <;> try dsimp only)

theorem bootReset_keeps (s : State) :
    Keeps s (bootReset s) := by
  unfold bootReset
  try dsimp only
  repeat' first
    | with_reducible exact Keeps.refl _
    | assumption
    | simp only [Keeps.upd_iff]
    | (split <;> try dsimp only)

theorem execIdBootReset_keeps (s : State) :
    KeepsO s (execIdBootReset s) := by
  unfold execIdBootReset
  refine .next ?_
  try dsimp only
  repeat' first
    | with_reducible exact Keeps.refl _
    | assumption
    | simp only [Keeps.upd_iff]
    | with_reducible apply Keeps.after (bootReset_keeps ..)
    | (split <;> try dsimp only)

theorem execHostLoadVerifyDone_keeps (s : State) :
    KeepsO s (execHostLoadVerifyDone s) := by
  unfold execHostLoadVerifyDone
  refine .next ?_
  try dsimp only
  repeat' first
    | with_reducible exact Keeps.refl _
    | assumption
    | simp only [Keeps.upd_iff]
    | (split <;> try dsimp only)

theorem writeId_keeps (off v : Nat) (s : State) :
    Keeps s (writeId off v s) := by
  unfold writeId
  try dsimp only
  repeat' first
    | with_reducible exact Keeps.refl _
    | assumption
    | simp only [Keeps.upd_iff]
    | with_reducible apply Keeps.after (bootChunk_keeps ..)
    | with_reducible apply Keeps.after (bootReset_keeps ..)
    | exact Keeps.parts rfl rfl rfl id id id
    | (split <;> try dsimp only)

theorem writeIrq_keeps (off v : Nat) (s : State) :
    Keeps s (writeIrq off v s) := by
  unfold writeIrq
  try dsimp only
  repeat' first
    | with_reducible exact Keeps.refl _
    | assumption
    | simp only [Keeps.upd_iff]
    | with_reducible apply Keeps.after (clearCause_keeps ..)
    | with_reducible apply Keeps.after (writeEnable_keeps ..)
    | with_reducible apply Keeps.after (writeMap_keeps ..)
    | with_reducible apply Keeps.after (writeMsix_keeps ..)
    | (split <;> try dsimp only)

theorem writeMbx_keeps (m off v : Nat) (s : State) :
    Keeps s (writeMbx m off v s) := by
  unfold writeMbx
  try dsimp only
  repeat' first
    | with_reducible exact Keeps.refl _
    | assumption
    | simp only [Keeps.upd_iff]
    | with_reducible apply Keeps.after (modBox_keeps ..)
    | with_reducible apply Keeps.after (misuse_keeps ..)
    | with_reducible apply Keeps.after (doorbell_keeps ..)
    | (split <;> try dsimp only)

theorem writeHod_keeps (k off v : Nat) (s : State) :
    Keeps s (writeHod k off v s) := by
  unfold writeHod
  try dsimp only
  repeat' first
    | with_reducible exact Keeps.refl _
    | assumption
    | simp only [Keeps.upd_iff]
    | with_reducible apply Keeps.after (hodDoorbell_keeps ..)
    | with_reducible apply Keeps.after (hodAbort_keeps ..)
    | with_reducible apply Keeps.after (hodConfigWrite_keeps ..)
    | (split <;> try dsimp only)

theorem timeCommand_keeps (action : Nat) (s : State) :
    Keeps s (timeCommand action s) := by
  unfold timeCommand
  try dsimp only
  repeat' first
    | with_reducible exact Keeps.refl _
    | assumption
    | simp only [Keeps.upd_iff]
    | exact Keeps.parts rfl rfl rfl id id id
    | (split <;> try dsimp only)

theorem writeTime_keeps (off v : Nat) (s : State) :
    Keeps s (writeTime off v s) := by
  unfold writeTime
  try dsimp only
  repeat' first
    | with_reducible exact Keeps.refl _
    | assumption
    | simp only [Keeps.upd_iff]
    | with_reducible apply Keeps.after (discipline_keeps ..)
    | with_reducible apply Keeps.after (timeCommand_keeps ..)
    | (split <;> try dsimp only)

theorem regWrite_keeps (off v : Nat) (s : State) : Keeps s (regWrite off v s) := by
  unfold regWrite
  refine .cond (fun _ => writeId_keeps ..) fun _ => .cond (fun _ => .refl s) fun _ =>
    .cond (fun _ => writeIrq_keeps ..) fun _ => .cond (fun _ => .refl s) fun _ =>
    .cond (fun _ => writeMbx_keeps ..) fun _ => .cond (fun _ => .refl s) fun _ =>
    .cond (fun _ => writeHod_keeps ..) fun _ => .cond (fun _ => writeWinLo_keeps ..) fun _ =>
    .cond (fun _ => writeWinHi_keeps ..) fun _ => .cond (fun _ => (Keeps.refl s).upd) fun _ =>
    .cond (fun _ => writeTime_keeps ..) fun _ => .refl s

theorem execRegisterWrite_keeps (offset : Nat) (bytes : List Byte) (s : State) :
    KeepsO s (execRegisterWrite offset bytes s) := by
  unfold execRegisterWrite
  refine .next ?_
  try dsimp only
  repeat' first
    | with_reducible exact Keeps.refl _
    | assumption
    | simp only [Keeps.upd_iff]
    | with_reducible apply Keeps.after (refuseAccess_keeps ..)
    | with_reducible apply Keeps.after (regWrite_keeps ..)
    | with_reducible apply Keeps.after (sramWrite_keeps ..)
    | (intro _ _; try dsimp only)
    | (split <;> try dsimp only)

end Sys2Proof
end

