-- ==== Sys2Proof/Laws/KeepsLog.lean ====
section
/-! SUPPORT. Every operation and meaning of Machine/Log.lean keeps the queue, the drawn values, the trace and the invariant. -/

namespace Sys2Proof

/-! One proof at a time: proofs that wait on one another each hold a thread of their own. -/
set_option Elab.async false

open Sys2Proof.Machine

theorem storeRecord_keeps (e : LogEvent) (suppressed : Nat) (s : State) :
    Keeps s (storeRecord e suppressed s) := by
  unfold storeRecord
  try dsimp only
  repeat' first
    | with_reducible exact Keeps.refl _
    | assumption
    | simp only [Keeps.upd_iff]
    | exact Keeps.parts rfl rfl rfl id id id

theorem storeEvent_keeps (e : LogEvent) (s : State) :
    Keeps s (storeEvent e s) := by
  unfold storeEvent
  try dsimp only
  repeat' first
    | with_reducible exact Keeps.refl _
    | assumption
    | simp only [Keeps.upd_iff]
    | with_reducible apply Keeps.after (tick_keeps ..)
    | with_reducible apply Keeps.after (storeRecord_keeps ..)
    | exact Keeps.parts rfl rfl rfl id id id
    | (split <;> try dsimp only)

theorem writeNext_keeps (s : State) : Keeps s (writeNext s) := by
  unfold writeNext
  split
  · exact Keeps.after (storeRecord_keeps ..) (.parts rfl rfl rfl id id id)
  · split
    · exact .refl s
    · next e rest he =>
      refine Keeps.after (storeEvent_keeps ..) (.parts rfl rfl rfl id id fun h => ?_)
      simp only [LogQueue.wf, he, List.length_cons, decide_eq_true_eq] at h ⊢
      omega

theorem execLogWrite_keeps (s : State) :
    KeepsO s (execLogWrite s) := by
  unfold execLogWrite
  refine .next ?_
  try dsimp only
  repeat' first
    | with_reducible exact Keeps.refl _
    | assumption
    | simp only [Keeps.upd_iff]
    | with_reducible apply Keeps.after (writeNext_keeps ..)
    | (split <;> try dsimp only)

theorem execLogTokenRefill_keeps (code : BitVec 16) (s : State) :
    KeepsO s (execLogTokenRefill code s) := by
  unfold execLogTokenRefill
  refine .next ?_
  try dsimp only
  repeat' first
    | with_reducible exact Keeps.refl _
    | assumption
    | simp only [Keeps.upd_iff]
    | exact Keeps.parts rfl rfl rfl id id id

theorem execHoursTick_keeps (s : State) :
    KeepsO s (execHoursTick s) := by
  unfold execHoursTick
  refine .next ?_
  try dsimp only
  repeat' first
    | with_reducible exact Keeps.refl _
    | assumption
    | simp only [Keeps.upd_iff]
    | with_reducible apply Keeps.after (writeCounters_keeps ..)
    | (split <;> try dsimp only)

theorem setLimit_keeps (p : Bytes) (s : State) :
    Keeps s (setLimit p s).1 := by
  unfold setLimit
  try dsimp only
  repeat' first
    | with_reducible exact Keeps.refl _
    | assumption
    | simp only [Keeps.upd_iff]
    | with_reducible apply Keeps.after (logEv_keeps ..)
    | exact Keeps.parts rfl rfl rfl id id id

theorem setLimit_keeps' {p : Bytes} {s : State} {t : State} {x} (hx : setLimit p s = (t, x)) : Keeps s t := by
  have e := setLimit_keeps p s
  rw [hx] at e
  exact e

theorem execLogSetLimit_keeps (mb : Fin 8) (s : State) :
    KeepsO s (execLogSetLimit mb s) := by
  unfold execLogSetLimit
  refine runCommand_keeps fun o j p u => ?_
  try dsimp only
  repeat' first
    | with_reducible exact Keeps.refl _
    | assumption
    | simp only [Keeps.upd_iff]
    | ((with_reducible apply Keeps.after (checked_keeps ?_)) <;> try dsimp only)
    | with_reducible apply Keeps.after (setLimit_keeps ..)

theorem execLedgerRead_keeps (mb : Fin 8) (s : State) :
    KeepsO s (execLedgerRead mb s) := by
  unfold execLedgerRead
  refine runCommand_keeps fun o j p u => ?_
  try dsimp only
  repeat' first
    | with_reducible exact Keeps.refl _
    | assumption
    | simp only [Keeps.upd_iff]
    | ((with_reducible apply Keeps.after (checked_keeps ?_)) <;> try dsimp only)

theorem hostEvent_keeps (p : Bytes) (s : State) :
    Keeps s (hostEvent p s).1 := by
  unfold hostEvent
  try dsimp only
  repeat' first
    | with_reducible exact Keeps.refl _
    | assumption
    | simp only [Keeps.upd_iff]
    | ((with_reducible apply Keeps.after (forUpto_keeps ?_)) <;> try dsimp only)
    | with_reducible apply Keeps.after (storeEvent_keeps ..)
    | with_reducible apply Keeps.after (writeNext_keeps ..)
    | exact Keeps.parts rfl rfl rfl id id id
    | (intro _ _; try dsimp only)

theorem hostEvent_keeps' {p : Bytes} {s : State} {t : State} {x} (hx : hostEvent p s = (t, x)) : Keeps s t := by
  have e := hostEvent_keeps p s
  rw [hx] at e
  exact e

theorem execLogHostEvent_keeps (mb : Fin 8) (s : State) :
    KeepsO s (execLogHostEvent mb s) := by
  unfold execLogHostEvent
  refine runCommand_keeps fun o j p u => ?_
  try dsimp only
  repeat' first
    | with_reducible exact Keeps.refl _
    | assumption
    | simp only [Keeps.upd_iff]
    | ((with_reducible apply Keeps.after (checked_keeps ?_)) <;> try dsimp only)
    | with_reducible apply Keeps.after (hostEvent_keeps ..)

end Sys2Proof
end

