-- ==== Sys2Proof/Laws/KeepsPower.lean ====
section
/-! SUPPORT. Every operation and meaning of Machine/Power.lean keeps the queue, the drawn values, the trace and the invariant. -/

namespace Sys2Proof

/-! One proof at a time: proofs that wait on one another each hold a thread of their own. -/
set_option Elab.async false

open Sys2Proof.Machine

theorem resetEndpoint_keeps (s : State) : Keeps s (resetEndpoint s) := by
  refine .parts rfl rfl rfl id (fun h => ?_) id
  rw [Interface.wf_iff] at h ⊢
  exact ⟨h.1, show (0 : Nat) < 2 ^ 22 by decide, rfl, show (0 : Nat) < 2 ^ 5 by decide,
    show (0 : Nat) < 2 ^ 12 by decide, show (0 : Nat) < 2 ^ 37 by decide⟩

theorem pcieReset_keeps (b : Nat) (hods : List HodProgress) (s : State) :
    Keeps s (pcieReset b hods s) := by
  unfold pcieReset
  try dsimp only
  repeat' first
    | with_reducible exact Keeps.refl _
    | assumption
    | simp only [Keeps.upd_iff]
    | with_reducible apply Keeps.after (closeSession_keeps ..)
    | with_reducible apply Keeps.after (noteReset_keeps ..)
    | with_reducible apply Keeps.after (pauseDelivery_keeps ..)
    | with_reducible apply Keeps.after (resetEndpoint_keeps ..)
    | with_reducible apply Keeps.after (stopHods_keeps ..)
    | with_reducible apply Keeps.after (updateMaster_keeps ..)
    | (intro _ _; try dsimp only)
    | (split <;> try dsimp only)

theorem execPerstN_keeps (hods : List HodProgress) (s : State) :
    KeepsO s (execPerstN hods s) := by
  unfold execPerstN
  refine .next ?_
  try dsimp only
  repeat' first
    | with_reducible exact Keeps.refl _
    | assumption
    | simp only [Keeps.upd_iff]
    | with_reducible apply Keeps.after (pcieReset_keeps ..)
    | (intro _ _; try dsimp only)
    | (split <;> try dsimp only)

theorem execHotReset_keeps (hods : List HodProgress) (s : State) :
    KeepsO s (execHotReset hods s) := by
  unfold execHotReset
  refine .next ?_
  try dsimp only
  repeat' first
    | with_reducible exact Keeps.refl _
    | assumption
    | simp only [Keeps.upd_iff]
    | with_reducible apply Keeps.after (pcieReset_keeps ..)
    | (intro _ _; try dsimp only)
    | (split <;> try dsimp only)

theorem execFunctionLevelReset_keeps (hods : List HodProgress) (s : State) :
    KeepsO s (execFunctionLevelReset hods s) := by
  unfold execFunctionLevelReset
  refine .next ?_
  try dsimp only
  repeat' first
    | with_reducible exact Keeps.refl _
    | assumption
    | simp only [Keeps.upd_iff]
    | with_reducible apply Keeps.after (pcieReset_keeps ..)
    | (intro _ _; try dsimp only)
    | (split <;> try dsimp only)

theorem resumeMastering_keeps (s : State) :
    Keeps s (resumeMastering s) := by
  unfold resumeMastering
  try dsimp only
  repeat' first
    | with_reducible exact Keeps.refl _
    | assumption
    | simp only [Keeps.upd_iff]
    | ((with_reducible apply Keeps.after (forUpto_keeps ?_)) <;> try dsimp only)
    | with_reducible apply Keeps.after (releaseResult_keeps ..)
    | with_reducible apply Keeps.after (sendPending_keeps ..)
    | with_reducible apply Keeps.after (updateMaster_keeps ..)
    | (intro _ _; try dsimp only)
    | (split <;> try dsimp only)

theorem execBusMasterEnable_keeps (msix mask : Bool) (payload : Fin 3) (read : Fin 6) (s : State) :
    KeepsO s (execBusMasterEnable msix mask payload read s) := by
  unfold execBusMasterEnable
  refine .next ?_
  try dsimp only
  repeat' first
    | with_reducible exact Keeps.refl _
    | assumption
    | simp only [Keeps.upd_iff]
    | ((with_reducible apply Keeps.after (forUpto_keeps ?_)) <;> try dsimp only)
    | with_reducible apply Keeps.after (resumeMastering_keeps ..)
    | with_reducible apply Keeps.after (sendPending_keeps ..)
    | exact Keeps.parts rfl rfl rfl id id id
    | (intro _ _; try dsimp only)
    | (split <;> try dsimp only)

theorem execBusMasterEnableCleared_keeps (s : State) :
    KeepsO s (execBusMasterEnableCleared s) := by
  unfold execBusMasterEnableCleared
  refine .next ?_
  try dsimp only
  repeat' first
    | with_reducible exact Keeps.refl _
    | assumption
    | simp only [Keeps.upd_iff]
    | with_reducible apply Keeps.after (pauseDelivery_keeps ..)
    | with_reducible apply Keeps.after (updateMaster_keeps ..)
    | exact Keeps.parts rfl rfl rfl id id id
    | (split <;> try dsimp only)

theorem execD3hotEntry_keeps (s : State) :
    KeepsO s (execD3hotEntry s) := by
  unfold execD3hotEntry
  refine .next ?_
  try dsimp only
  repeat' first
    | with_reducible exact Keeps.refl _
    | assumption
    | simp only [Keeps.upd_iff]
    | with_reducible apply Keeps.after (pauseDelivery_keeps ..)
    | with_reducible apply Keeps.after (updateMaster_keeps ..)
    | exact Keeps.parts rfl rfl rfl id id id
    | (split <;> try dsimp only)

theorem execD0Return_keeps (s : State) :
    KeepsO s (execD0Return s) := by
  unfold execD0Return
  refine .next ?_
  try dsimp only
  repeat' first
    | with_reducible exact Keeps.refl _
    | assumption
    | simp only [Keeps.upd_iff]
    | with_reducible apply Keeps.after (resumeMastering_keeps ..)
    | exact Keeps.parts rfl rfl rfl id id id
    | (split <;> try dsimp only)

theorem dropUnmarked_keeps (s : State) :
    Keeps s (dropUnmarked s) := by
  unfold dropUnmarked
  try dsimp only
  repeat' first
    | with_reducible exact Keeps.refl _
    | assumption
    | simp only [Keeps.upd_iff]

theorem resetLoop_keeps (s : State) :
    Keeps s (resetLoop s) := by
  unfold resetLoop
  try dsimp only
  repeat' first
    | with_reducible exact Keeps.refl _
    | assumption
    | simp only [Keeps.upd_iff]
    | (intro _ _; try dsimp only)
    | (split <;> try dsimp only)

theorem resetHk_keeps (s : State) :
    Keeps s (resetHk s) := by
  unfold resetHk
  try dsimp only
  repeat' first
    | with_reducible exact Keeps.refl _
    | assumption
    | simp only [Keeps.upd_iff]
    | (intro _ _; try dsimp only)
    | (split <;> try dsimp only)

theorem resetRing_keeps (s : State) :
    Keeps s (resetRing s) := by
  unfold resetRing
  try dsimp only
  repeat' first
    | with_reducible exact Keeps.refl _
    | assumption
    | simp only [Keeps.upd_iff]
    | with_reducible apply Keeps.after (standAlone_keeps ..)
    | with_reducible apply Keeps.after (persistRing_keeps ..)
    | (split <;> try dsimp only)

theorem parkDram_keeps (s : State) :
    Keeps s (parkDram s) := by
  unfold parkDram
  try dsimp only
  repeat' first
    | with_reducible exact Keeps.refl _
    | assumption
    | simp only [Keeps.upd_iff]
    | exact Keeps.parts rfl rfl rfl id id id

theorem resetDieB_keeps (s : State) : Keeps s (resetDieB s) := by
  unfold resetDieB
  refine Keeps.after (resetRing_keeps ..) (Keeps.after (setCause_keeps _ (by decide)) ?_)
  exact Keeps.after (parkDram_keeps ..) (Keeps.after (pauseDelivery_keeps ..)
    (Keeps.after (resetEndpoint_keeps ..) (Keeps.after (resetHk_keeps ..) (Keeps.after (resetLoop_keeps ..)
    (Keeps.after (dropUnmarked_keeps ..) (Keeps.refl s).upd)))))

theorem freshDieA_keeps (s : State) :
    Keeps s (freshDieA s) := by
  unfold freshDieA
  try dsimp only
  repeat' first
    | with_reducible exact Keeps.refl _
    | assumption
    | simp only [Keeps.upd_iff]

theorem startDieB_keeps (t : DramTraining) (s : State) :
    Keeps s (startDieB t s) := by
  unfold startDieB
  try dsimp only
  repeat' first
    | with_reducible exact Keeps.refl _
    | assumption
    | simp only [Keeps.upd_iff]
    | with_reducible apply Keeps.after (esClear_keeps ..)
    | with_reducible apply Keeps.after (mortarDown_keeps ..)
    | exact Keeps.parts rfl rfl rfl id id id
    | (intro _ _; try dsimp only)
    | (split <;> try dsimp only)

theorem resetN_keeps (sel : Nat) (t : DramTraining) (hods : List HodProgress) (s0 : State) :
    Keeps s0 (resetN sel t hods s0) := by
  unfold resetN
  try dsimp only
  repeat' first
    | with_reducible exact Keeps.refl _
    | assumption
    | simp only [Keeps.upd_iff]
    | with_reducible apply Keeps.after (closeSession_keeps ..)
    | with_reducible apply Keeps.after (freshDieA_keeps ..)
    | with_reducible apply Keeps.after (loseDieA_keeps ..)
    | with_reducible apply Keeps.after (mortarDown_keeps ..)
    | with_reducible apply Keeps.after (noteReset_keeps ..)
    | with_reducible apply Keeps.after (resetDieB_keeps ..)
    | with_reducible apply Keeps.after (startDieB_keeps ..)
    | with_reducible apply Keeps.after (stopDieA_keeps ..)
    | with_reducible apply Keeps.after (stopHods_keeps ..)
    | with_reducible apply Keeps.after (unarm_keeps ..)
    | (intro _ _; try dsimp only)
    | (split <;> try dsimp only)

theorem execResetN_keeps (sel : BitVec 2) (t : DramTraining) (hods : List HodProgress) (s : State) :
    KeepsO s (execResetN sel t hods s) := by
  unfold execResetN
  refine .next ?_
  try dsimp only
  repeat' first
    | with_reducible exact Keeps.refl _
    | assumption
    | simp only [Keeps.upd_iff]
    | with_reducible apply Keeps.after (resetN_keeps ..)
    | (intro _ _; try dsimp only)
    | (split <;> try dsimp only)

theorem unpowerDieA_keeps (s : State) :
    Keeps s (unpowerDieA s) := by
  unfold unpowerDieA
  try dsimp only
  repeat' first
    | with_reducible exact Keeps.refl _
    | assumption
    | simp only [Keeps.upd_iff]
    | with_reducible apply Keeps.after (cutPulses_keeps ..)
    | with_reducible apply Keeps.after (resetCapture_keeps ..)
    | with_reducible apply Keeps.after (mortarDown_keeps ..)
    | with_reducible apply Keeps.after (mirrorDown_keeps ..)
    | with_reducible apply Keeps.after (loseDieA_keeps ..)
    | with_reducible apply Keeps.after (failCapture_keeps ..)

theorem loseMain_keeps (s : State) :
    Keeps s (loseMain s) := by
  unfold loseMain
  try dsimp only
  repeat' first
    | with_reducible exact Keeps.refl _
    | assumption
    | simp only [Keeps.upd_iff]
    | with_reducible apply Keeps.after (closeSession_keeps ..)
    | with_reducible apply Keeps.after (esDeny_keeps ..)
    | with_reducible apply Keeps.after (freshDieA_keeps ..)
    | with_reducible apply Keeps.after (resetDieB_keeps ..)
    | with_reducible apply Keeps.after (stopHods_keeps ..)
    | with_reducible apply Keeps.after (unarm_keeps ..)
    | with_reducible apply Keeps.after (unpowerDieA_keeps ..)
    | with_reducible apply Keeps.after (writeCounters_keeps ..)
    | (intro _ _; try dsimp only)
    | (split <;> try dsimp only)

theorem loseRails_keeps (s : State) :
    Keeps s (loseRails s) := by
  unfold loseRails
  try dsimp only
  repeat' first
    | with_reducible exact Keeps.refl _
    | assumption
    | simp only [Keeps.upd_iff]
    | with_reducible apply Keeps.after (esDeny_keeps ..)
    | (intro _ _; try dsimp only)
    | (split <;> try dsimp only)

theorem execRailWarning_keeps (s : State) :
    KeepsO s (execRailWarning s) := by
  unfold execRailWarning
  refine .next ?_
  try dsimp only
  repeat' first
    | with_reducible exact Keeps.refl _
    | assumption
    | simp only [Keeps.upd_iff]
    | with_reducible apply Keeps.after (loseMain_keeps ..)
    | with_reducible apply Keeps.after (loseRails_keeps ..)
    | (intro _ _; try dsimp only)
    | (split <;> try dsimp only)

theorem loadRing_keeps (s : State) :
    Keeps s (loadRing s) := by
  unfold loadRing
  try dsimp only
  repeat' first
    | with_reducible exact Keeps.refl _
    | assumption
    | simp only [Keeps.upd_iff]
    | (split <;> try dsimp only)

theorem payloadLost_keeps (n : Nat) (s : State) :
    Keeps s { s with mem.payload := [], mem.payloadGen := n } := by
  refine .parts rfl rfl rfl (fun h => ?_) id id
  simp only [Memory.wf_iff] at h ⊢
  exact ⟨h.1, h.2.1, rfl, h.2.2.2⟩

theorem powerUp_keeps (t : DramTraining) (s : State) : Keeps s (powerUp t s) := by
  unfold powerUp
  dsimp only
  have k : Keeps s (writeCounters { (drawFree s).2 with
      power.main := true
      power.rails := true
      power.warning := false
      power.fatal := false
      power.lockstepAt := []
      es.lockstep := false
      power.selDue := true
      power.dieA := false
      mem.payload := []
      mem.payloadGen := (drawFree s).1
      nv.pcycles := if s.power.rails then s.nv.pcycles else (s.nv.pcycles + 1) % 2 ^ 24 }) :=
    Keeps.after (writeCounters_keeps ..)
      (Keeps.upd (Keeps.trans (drawFree_keeps s) (payloadLost_keeps (drawFree s).1 (drawFree s).2)))
  split
  · exact Keeps.after (noteReset_keeps ..) (Keeps.after (startDieB_keeps ..) (Keeps.after (loadRing_keeps ..) k.upd))
  · exact Keeps.after (startDieB_keeps ..) (Keeps.after (loadRing_keeps ..) k.upd)

theorem execDieBPowerUp_keeps (t : DramTraining) (s : State) :
    KeepsO s (execDieBPowerUp t s) := by
  unfold execDieBPowerUp
  refine .next ?_
  try dsimp only
  repeat' first
    | with_reducible exact Keeps.refl _
    | assumption
    | simp only [Keeps.upd_iff]
    | with_reducible apply Keeps.after (powerUp_keeps ..)
    | (split <;> try dsimp only)

theorem execMainPowerReturn_keeps (t : DramTraining) (s : State) :
    KeepsO s (execMainPowerReturn t s) := by
  unfold execMainPowerReturn
  refine .next ?_
  try dsimp only
  repeat' first
    | with_reducible exact Keeps.refl _
    | assumption
    | simp only [Keeps.upd_iff]
    | with_reducible apply Keeps.after (powerUp_keeps ..)
    | (split <;> try dsimp only)

theorem dramLost_keeps (s : State) : Keeps s { s with mem.dram := [], mem.kept := [] } := by
  refine .parts rfl rfl rfl (fun h => ?_) id id
  simp only [Memory.wf_iff] at h ⊢
  exact ⟨rfl, rfl, h.2.2⟩

theorem execMemorySupplyLoss_keeps (s : State) : KeepsO s (execMemorySupplyLoss s) := by
  unfold execMemorySupplyLoss
  refine .next ?_
  split
  · exact .refl s
  · have k := loseBuffer_keeps s.angle.frame s
    revert k
    dsimp only
    generalize loseBuffer s.angle.frame s = u
    intro k
    exact Keeps.trans (k.trans (dramLost_keeps u)) (Keeps.refl _).upd

theorem vkaDefaults_keeps (s : State) : Keeps s (vkaDefaults s) := by
  have h : Keeps s (if s.power.dieA then emit (.firePorts false) s else s) :=
    .cond (fun _ => emit_keeps _ _ rfl) (fun _ => .refl s)
  exact ⟨rfl, Nat.le_refl _, h.out,
    fun _ => ⟨rfl, rfl, rfl, by cases h : s.es.permit <;> simp [gateFollows, vkaDefaults, State.reset, h]⟩, h.dark, id⟩

theorem execVkaPowerup_keeps (s : State) :
    KeepsO s (execVkaPowerup s) := by
  unfold execVkaPowerup
  refine .next ?_
  try dsimp only
  repeat' first
    | with_reducible exact Keeps.refl _
    | assumption
    | simp only [Keeps.upd_iff]
    | with_reducible apply Keeps.after (logEv_keeps ..)
    | with_reducible apply Keeps.after (loadCounters_keeps ..)
    | with_reducible apply Keeps.after (vkaDefaults_keeps ..)
    | (split <;> try dsimp only)

theorem execVkaLoss_keeps (s : State) :
    KeepsO s (execVkaLoss s) := by
  unfold execVkaLoss
  refine .next ?_
  try dsimp only
  repeat' first
    | with_reducible exact Keeps.refl _
    | assumption
    | simp only [Keeps.upd_iff]
    | with_reducible apply Keeps.after (cutPulses_keeps ..)
    | with_reducible apply Keeps.after (vkaDefaults_keeps ..)
    | (split <;> try dsimp only)

theorem enterHostLoad_keeps (s : State) :
    Keeps s (enterHostLoad s) := by
  unfold enterHostLoad
  try dsimp only
  repeat' first
    | with_reducible exact Keeps.refl _
    | assumption
    | simp only [Keeps.upd_iff]

theorem execBootRomStart_keeps (sel : BitVec 2) (s : State) :
    KeepsO s (execBootRomStart sel s) := by
  unfold execBootRomStart
  refine .next ?_
  try dsimp only
  repeat' first
    | with_reducible exact Keeps.refl _
    | assumption
    | simp only [Keeps.upd_iff]
    | with_reducible apply Keeps.after (enterHostLoad_keeps ..)
    | (split <;> try dsimp only)

theorem fatalFault_keeps (cause : Nat) (s : State) :
    Keeps s (fatalFault cause s) := by
  unfold fatalFault
  try dsimp only
  repeat' first
    | with_reducible exact Keeps.refl _
    | assumption
    | simp only [Keeps.upd_iff]
    | with_reducible apply Keeps.after (esArise_keeps ..)
    | with_reducible apply Keeps.after (logEv_keeps ..)
    | with_reducible apply Keeps.after (raiseIrq_keeps ..)
    | with_reducible apply Keeps.after (standAlone_keeps ..)
    | with_reducible apply Keeps.after (stopLoop_keeps ..)
    | (intro _ _; try dsimp only)
    | (split <;> try dsimp only)

theorem endTraining_keeps (s : State) :
    Keeps s (endTraining s) := by
  unfold endTraining
  try dsimp only
  repeat' first
    | with_reducible exact Keeps.refl _
    | assumption
    | simp only [Keeps.upd_iff]
    | with_reducible apply Keeps.after (raiseIrq_keeps ..)
    | with_reducible apply Keeps.after (trainDram_keeps ..)
    | exact Keeps.parts rfl rfl rfl id id id
    | (split <;> try dsimp only)

theorem finishStopped_keeps (s : State) :
    Keeps s (finishStopped s) := by
  unfold finishStopped
  try dsimp only
  repeat' first
    | with_reducible exact Keeps.refl _
    | assumption
    | simp only [Keeps.upd_iff]
    | ((with_reducible apply Keeps.after (forEach_keeps ?_)) <;> try dsimp only)
    | with_reducible apply Keeps.after (cancelActions_keeps ..)
    | with_reducible apply Keeps.after (finish_keeps ..)
    | (intro _ _; try dsimp only)
    | (split <;> try dsimp only)

theorem bootDone_keeps (s : State) :
    Keeps s (bootDone s) := by
  unfold bootDone
  try dsimp only
  repeat' first
    | with_reducible exact Keeps.refl _
    | assumption
    | simp only [Keeps.upd_iff]
    | with_reducible apply Keeps.after (logEv_keeps ..)
    | with_reducible apply Keeps.after (tryJoin_keeps ..)
    | with_reducible apply Keeps.after (endTraining_keeps ..)
    | with_reducible apply Keeps.after (finishStopped_keeps ..)

theorem restartDone_keeps (s : State) :
    Keeps s (restartDone s) := by
  unfold restartDone
  try dsimp only
  repeat' first
    | with_reducible exact Keeps.refl _
    | assumption
    | simp only [Keeps.upd_iff]
    | with_reducible apply Keeps.after (tryJoin_keeps ..)

theorem readJournal_keeps (corrected uncorrectable : Nat) (s : State) :
    Keeps s (readJournal corrected uncorrectable s) := by
  unfold readJournal
  split
  · exact .refl s
  · exact .parts rfl rfl rfl (fun h => by simpa only [Memory.wf_iff] using h) id id

theorem execFwReady_keeps (corrected uncorrectable : Nat) (bad : JournalBad) (s : State) :
    KeepsO s (execFwReady corrected uncorrectable bad s) := by
  unfold execFwReady
  refine .next ?_
  try dsimp only
  repeat' first
    | with_reducible exact Keeps.refl _
    | assumption
    | simp only [Keeps.upd_iff]
    | with_reducible apply Keeps.after (bootDone_keeps ..)
    | with_reducible apply Keeps.after (fatalFault_keeps ..)
    | with_reducible apply Keeps.after (readJournal_keeps ..)
    | with_reducible apply Keeps.after (restartDone_keeps ..)
    | (intro _ _; try dsimp only)
    | (split <;> try dsimp only)

theorem execFwReadyTimeout_keeps (s : State) :
    KeepsO s (execFwReadyTimeout s) := by
  unfold execFwReadyTimeout
  refine .next ?_
  try dsimp only
  repeat' first
    | with_reducible exact Keeps.refl _
    | assumption
    | simp only [Keeps.upd_iff]
    | with_reducible apply Keeps.after (enterHostLoad_keeps ..)
    | with_reducible apply Keeps.after (fatalFault_keeps ..)
    | (split <;> try dsimp only)

theorem restartCp_keeps (lockstep : Bool) (s : State) :
    Keeps s (restartCp lockstep s) := by
  unfold restartCp
  try dsimp only
  repeat' first
    | with_reducible exact Keeps.refl _
    | assumption
    | simp only [Keeps.upd_iff]
    | with_reducible apply Keeps.after (logEv_keeps ..)
    | with_reducible apply Keeps.after (esArise_keeps ..)
    | with_reducible apply Keeps.after (noteReset_keeps ..)
    | with_reducible apply Keeps.after (closeSession_keeps ..)
    | with_reducible apply Keeps.after (dropUnmarked_keeps ..)
    | with_reducible apply Keeps.after (fatalFault_keeps ..)
    | (split <;> try dsimp only)

theorem execCpRestart_keeps (lockstep : Bool) (s : State) :
    KeepsO s (execCpRestart lockstep s) := by
  unfold execCpRestart
  refine .next ?_
  try dsimp only
  repeat' first
    | with_reducible exact Keeps.refl _
    | assumption
    | simp only [Keeps.upd_iff]
    | with_reducible apply Keeps.after (restartCp_keeps ..)
    | (split <;> try dsimp only)

end Sys2Proof
end

