-- ==== Sys2Proof/Laws/KeepsTick.lean ====
section
/-! SUPPORT. Every operation and meaning of Machine/Tick.lean keeps the queue, the drawn values, the trace and the invariant. -/

namespace Sys2Proof

/-! One proof at a time: proofs that wait on one another each hold a thread of their own. -/
set_option Elab.async false

open Sys2Proof.Machine

theorem tick_keeps (s : State) :
    Keeps s (tick s) := by
  unfold tick
  try dsimp only
  repeat' first
    | with_reducible exact Keeps.refl _
    | assumption
    | simp only [Keeps.upd_iff]
    | refine Keeps.trans ?_ (drawFree_keeps' (by assumption))
    | with_reducible apply Keeps.after (drawFree_keeps ..)
    | with_reducible apply Keeps.after (forwardNext_keeps ..)
    | (intro _ _; try dsimp only)
    | (split <;> try dsimp only)

end Sys2Proof
end

