-- ==== Sys2Proof/Laws/PerInstr.lean ====
section
/-! SUPPORT. Per-command laws: no word of the opcode table spells any command, since the table gives no row bits. -/

namespace Sys2Proof.Laws

/-! One proof at a time: proofs that wait on one another each hold a thread of their own. -/
set_option Elab.async false

open Sys2Proof

/-- No word spells the command. -/
def Unspelled.Statement (i : Instr) : Prop := ∀ nbits w : Nat, decodeTableWord nbits w ≠ some i

/-- The decoder answers none. -/
theorem decodeTableWord_none (nbits w : Nat) : decodeTableWord nbits w = none := rfl

/-- A command no word spells. -/
theorem unspelled (i : Instr) : Unspelled.Statement i := fun n w h => by
  rw [decodeTableWord_none] at h
  cases h

theorem Unspelled.mbxDoorbell mb value : Unspelled.Statement (.mbxDoorbell mb value) := unspelled _
theorem Unspelled.commandCheck mb hostPayload : Unspelled.Statement (.commandCheck mb hostPayload) := unspelled _
theorem Unspelled.commandAccepted mb : Unspelled.Statement (.commandAccepted mb) := unspelled _
theorem Unspelled.resultWriteFail mb : Unspelled.Statement (.resultWriteFail mb) := unspelled _
theorem Unspelled.journalMirrorRebuilt place : Unspelled.Statement (.journalMirrorRebuilt place) := unspelled _
theorem Unspelled.hello mb : Unspelled.Statement (.hello mb) := unspelled _
theorem Unspelled.goodbye mb : Unspelled.Statement (.goodbye mb) := unspelled _
theorem Unspelled.nop mb : Unspelled.Statement (.nop mb) := unspelled _
theorem Unspelled.ident mb : Unspelled.Statement (.ident mb) := unspelled _
theorem Unspelled.fwImageWrite mb : Unspelled.Statement (.fwImageWrite mb) := unspelled _
theorem Unspelled.fwImageSelect mb : Unspelled.Statement (.fwImageSelect mb) := unspelled _
theorem Unspelled.gridSetColumns mb : Unspelled.Statement (.gridSetColumns mb) := unspelled _
theorem Unspelled.gridGetColumns mb : Unspelled.Statement (.gridGetColumns mb) := unspelled _
theorem Unspelled.angleSetScan mb : Unspelled.Statement (.angleSetScan mb) := unspelled _
theorem Unspelled.angleSetIndex mb : Unspelled.Statement (.angleSetIndex mb) := unspelled _
theorem Unspelled.angleStatus mb : Unspelled.Statement (.angleStatus mb) := unspelled _
theorem Unspelled.shotSetProgram mb : Unspelled.Statement (.shotSetProgram mb) := unspelled _
theorem Unspelled.allocSet mb : Unspelled.Statement (.allocSet mb) := unspelled _
theorem Unspelled.tpmSetWeights mb : Unspelled.Statement (.tpmSetWeights mb) := unspelled _
theorem Unspelled.tpmRead mb : Unspelled.Statement (.tpmRead mb) := unspelled _
theorem Unspelled.shotCourseEnable mb : Unspelled.Statement (.shotCourseEnable mb) := unspelled _
theorem Unspelled.shotScheduler mb : Unspelled.Statement (.shotScheduler mb) := unspelled _
theorem Unspelled.shotStatus mb : Unspelled.Statement (.shotStatus mb) := unspelled _
theorem Unspelled.recvSetCourse mb : Unspelled.Statement (.recvSetCourse mb) := unspelled _
theorem Unspelled.recvSetThresholds mb : Unspelled.Statement (.recvSetThresholds mb) := unspelled _
theorem Unspelled.recvStatus mb : Unspelled.Statement (.recvStatus mb) := unspelled _
theorem Unspelled.histSetCourse mb : Unspelled.Statement (.histSetCourse mb) := unspelled _
theorem Unspelled.histSetWalk mb : Unspelled.Statement (.histSetWalk mb) := unspelled _
theorem Unspelled.histStatus mb : Unspelled.Statement (.histStatus mb) := unspelled _
theorem Unspelled.histCaptureTile mb : Unspelled.Statement (.histCaptureTile mb) := unspelled _
theorem Unspelled.captureTileTimeout : Unspelled.Statement .captureTileTimeout := unspelled _
theorem Unspelled.rejSetCourse mb : Unspelled.Statement (.rejSetCourse mb) := unspelled _
theorem Unspelled.rejSetDevice mb : Unspelled.Statement (.rejSetDevice mb) := unspelled _
theorem Unspelled.rejStatus mb : Unspelled.Statement (.rejStatus mb) := unspelled _
theorem Unspelled.dlvSetRing mb : Unspelled.Statement (.dlvSetRing mb) := unspelled _
theorem Unspelled.dlvStatus mb : Unspelled.Statement (.dlvStatus mb) := unspelled _
theorem Unspelled.freezeHistory mb : Unspelled.Statement (.freezeHistory mb) := unspelled _
theorem Unspelled.readHistory mb : Unspelled.Statement (.readHistory mb) := unspelled _
theorem Unspelled.histInfo mb : Unspelled.Statement (.histInfo mb) := unspelled _
theorem Unspelled.filtConfig mb : Unspelled.Statement (.filtConfig mb) := unspelled _
theorem Unspelled.filtControl mb : Unspelled.Statement (.filtControl mb) := unspelled _
theorem Unspelled.detConfig mb : Unspelled.Statement (.detConfig mb) := unspelled _
theorem Unspelled.loopConfig mb : Unspelled.Statement (.loopConfig mb) := unspelled _
theorem Unspelled.loopLoad mb : Unspelled.Statement (.loopLoad mb) := unspelled _
theorem Unspelled.loopControl mb : Unspelled.Statement (.loopControl mb) := unspelled _
theorem Unspelled.loopStatus mb : Unspelled.Statement (.loopStatus mb) := unspelled _
theorem Unspelled.captConfig mb : Unspelled.Statement (.captConfig mb) := unspelled _
theorem Unspelled.captSetMask mb : Unspelled.Statement (.captSetMask mb) := unspelled _
theorem Unspelled.captControl mb : Unspelled.Statement (.captControl mb) := unspelled _
theorem Unspelled.captRead mb : Unspelled.Statement (.captRead mb) := unspelled _
theorem Unspelled.captStatus mb : Unspelled.Statement (.captStatus mb) := unspelled _
theorem Unspelled.esStatus mb : Unspelled.Statement (.esStatus mb) := unspelled _
theorem Unspelled.esUnlock mb : Unspelled.Statement (.esUnlock mb) := unspelled _
theorem Unspelled.esLock mb : Unspelled.Statement (.esLock mb) := unspelled _
theorem Unspelled.esStage mb : Unspelled.Statement (.esStage mb) := unspelled _
theorem Unspelled.esCommit mb : Unspelled.Statement (.esCommit mb) := unspelled _
theorem Unspelled.esRearm mb : Unspelled.Statement (.esRearm mb) := unspelled _
theorem Unspelled.esConfirm mb : Unspelled.Statement (.esConfirm mb) := unspelled _
theorem Unspelled.esTrip mb : Unspelled.Statement (.esTrip mb) := unspelled _
theorem Unspelled.esSetPassword mb : Unspelled.Statement (.esSetPassword mb) := unspelled _
theorem Unspelled.esChangelogRead mb : Unspelled.Statement (.esChangelogRead mb) := unspelled _
theorem Unspelled.esLedgerRead mb : Unspelled.Statement (.esLedgerRead mb) := unspelled _
theorem Unspelled.ringConfig mb : Unspelled.Statement (.ringConfig mb) := unspelled _
theorem Unspelled.ringStatus mb : Unspelled.Statement (.ringStatus mb) := unspelled _
theorem Unspelled.ringMembers mb : Unspelled.Statement (.ringMembers mb) := unspelled _
theorem Unspelled.ringLeave mb : Unspelled.Statement (.ringLeave mb) := unspelled _
theorem Unspelled.ringSetPhase mb : Unspelled.Statement (.ringSetPhase mb) := unspelled _
theorem Unspelled.ringQuarantineClear mb : Unspelled.Statement (.ringQuarantineClear mb) := unspelled _
theorem Unspelled.ringPeerIdent mb : Unspelled.Statement (.ringPeerIdent mb) := unspelled _
theorem Unspelled.laneEyeScan mb : Unspelled.Statement (.laneEyeScan mb) := unspelled _
theorem Unspelled.laneEyeScanDone counts : Unspelled.Statement (.laneEyeScanDone counts) := unspelled _
theorem Unspelled.laneStatus mb : Unspelled.Statement (.laneStatus mb) := unspelled _
theorem Unspelled.hkConfig mb : Unspelled.Statement (.hkConfig mb) := unspelled _
theorem Unspelled.hkCal mb : Unspelled.Statement (.hkCal mb) := unspelled _
theorem Unspelled.hkCalDone offset gain currents : Unspelled.Statement (.hkCalDone offset gain currents) := unspelled _
theorem Unspelled.hkRead mb : Unspelled.Statement (.hkRead mb) := unspelled _
theorem Unspelled.hkSetSwitch mb : Unspelled.Statement (.hkSetSwitch mb) := unspelled _
theorem Unspelled.thConfig mb : Unspelled.Statement (.thConfig mb) := unspelled _
theorem Unspelled.thStatus mb : Unspelled.Statement (.thStatus mb) := unspelled _
theorem Unspelled.memStatus mb : Unspelled.Statement (.memStatus mb) := unspelled _
theorem Unspelled.eccTableRead mb : Unspelled.Statement (.eccTableRead mb) := unspelled _
theorem Unspelled.eccTableClear mb : Unspelled.Statement (.eccTableClear mb) := unspelled _
theorem Unspelled.eccTest mb : Unspelled.Statement (.eccTest mb) := unspelled _
theorem Unspelled.logSetLimit mb : Unspelled.Statement (.logSetLimit mb) := unspelled _
theorem Unspelled.ledgerRead mb : Unspelled.Statement (.ledgerRead mb) := unspelled _
theorem Unspelled.logHostEvent mb : Unspelled.Statement (.logHostEvent mb) := unspelled _
theorem Unspelled.commit mb : Unspelled.Statement (.commit mb) := unspelled _
theorem Unspelled.commitApplyStopped : Unspelled.Statement .commitApplyStopped := unspelled _
theorem Unspelled.stageDiscard mb : Unspelled.Statement (.stageDiscard mb) := unspelled _
theorem Unspelled.snapshot mb : Unspelled.Statement (.snapshot mb) := unspelled _
theorem Unspelled.runArm mb : Unspelled.Statement (.runArm mb) := unspelled _
theorem Unspelled.runDisarm mb : Unspelled.Statement (.runDisarm mb) := unspelled _
theorem Unspelled.runStatus mb : Unspelled.Statement (.runStatus mb) := unspelled _
theorem Unspelled.hodDoorbell ch : Unspelled.Statement (.hodDoorbell ch) := unspelled _
theorem Unspelled.hodAbort ch : Unspelled.Statement (.hodAbort ch) := unspelled _
theorem Unspelled.hodConfigWrite ch reg value : Unspelled.Statement (.hodConfigWrite ch reg value) := unspelled _
theorem Unspelled.hodDescriptorFetch ch host : Unspelled.Statement (.hodDescriptorFetch ch host) := unspelled _
theorem Unspelled.hodDescriptorComplete ch host refetch :
    Unspelled.Statement (.hodDescriptorComplete ch host refetch) := unspelled _
theorem Unspelled.hodError ch code addr done host :
    Unspelled.Statement (.hodError ch code addr done host) := unspelled _
theorem Unspelled.hodAbortDone ch done host : Unspelled.Statement (.hodAbortDone ch done host) := unspelled _
theorem Unspelled.winBaseLoWrite value hi : Unspelled.Statement (.winBaseLoWrite value hi) := unspelled _
theorem Unspelled.bar2Read offset len : Unspelled.Statement (.bar2Read offset len) := unspelled _
theorem Unspelled.bar2Write offset bytes : Unspelled.Statement (.bar2Write offset bytes) := unspelled _
theorem Unspelled.irqCauseClear mask arriving : Unspelled.Statement (.irqCauseClear mask arriving) := unspelled _
theorem Unspelled.irqEnableWrite value : Unspelled.Statement (.irqEnableWrite value) := unspelled _
theorem Unspelled.irqMapWrite n value : Unspelled.Statement (.irqMapWrite n value) := unspelled _
theorem Unspelled.idBootChunk value : Unspelled.Statement (.idBootChunk value) := unspelled _
theorem Unspelled.idBootReset : Unspelled.Statement .idBootReset := unspelled _
theorem Unspelled.hostLoadVerifyDone : Unspelled.Statement .hostLoadVerifyDone := unspelled _
theorem Unspelled.hkLatch : Unspelled.Statement .hkLatch := unspelled _
theorem Unspelled.timeLoadNow : Unspelled.Statement .timeLoadNow := unspelled _
theorem Unspelled.timeLoadAtPps : Unspelled.Statement .timeLoadAtPps := unspelled _
theorem Unspelled.timeCancelLoad : Unspelled.Statement .timeCancelLoad := unspelled _
theorem Unspelled.twoHalfLowRead pair wide : Unspelled.Statement (.twoHalfLowRead pair wide) := unspelled _
theorem Unspelled.twoHalfHighRead pair : Unspelled.Statement (.twoHalfHighRead pair) := unspelled _
theorem Unspelled.payloadSramRead offset len : Unspelled.Statement (.payloadSramRead offset len) := unspelled _
theorem Unspelled.bar0BadAccess offset size isWrite :
    Unspelled.Statement (.bar0BadAccess offset size isWrite) := unspelled _
theorem Unspelled.registerWrite offset bytes : Unspelled.Statement (.registerWrite offset bytes) := unspelled _
theorem Unspelled.dieBPowerUp training : Unspelled.Statement (.dieBPowerUp training) := unspelled _
theorem Unspelled.bootRomStart sel : Unspelled.Statement (.bootRomStart sel) := unspelled _
theorem Unspelled.fwReady corrected uncorrectable bad :
    Unspelled.Statement (.fwReady corrected uncorrectable bad) := unspelled _
theorem Unspelled.fwReadyTimeout : Unspelled.Statement .fwReadyTimeout := unspelled _
theorem Unspelled.vkaPowerup : Unspelled.Statement .vkaPowerup := unspelled _
theorem Unspelled.vkaLoss : Unspelled.Statement .vkaLoss := unspelled _
theorem Unspelled.esPowerOn selfTestOk crc : Unspelled.Statement (.esPowerOn selfTestOk crc) := unspelled _
theorem Unspelled.railWarning : Unspelled.Statement .railWarning := unspelled _
theorem Unspelled.mainPowerReturn training : Unspelled.Statement (.mainPowerReturn training) := unspelled _
theorem Unspelled.memorySupplyLoss : Unspelled.Statement .memorySupplyLoss := unspelled _
theorem Unspelled.resetN sel training hods : Unspelled.Statement (.resetN sel training hods) := unspelled _
theorem Unspelled.perstN hods : Unspelled.Statement (.perstN hods) := unspelled _
theorem Unspelled.hotReset hods : Unspelled.Statement (.hotReset hods) := unspelled _
theorem Unspelled.functionLevelReset hods : Unspelled.Statement (.functionLevelReset hods) := unspelled _
theorem Unspelled.busMasterEnable msix mask payload read :
    Unspelled.Statement (.busMasterEnable msix mask payload read) := unspelled _
theorem Unspelled.d3hotEntry : Unspelled.Statement .d3hotEntry := unspelled _
theorem Unspelled.d0Return : Unspelled.Statement .d0Return := unspelled _
theorem Unspelled.cpRestart lockstep : Unspelled.Statement (.cpRestart lockstep) := unspelled _
theorem Unspelled.dieAReset cause : Unspelled.Statement (.dieAReset cause) := unspelled _
theorem Unspelled.dieARestored : Unspelled.Statement .dieARestored := unspelled _
theorem Unspelled.dieARestoreTimeout : Unspelled.Statement .dieARestoreTimeout := unspelled _
theorem Unspelled.heartbeatLoss atDieA : Unspelled.Statement (.heartbeatLoss atDieA) := unspelled _
theorem Unspelled.mortarLinkUp : Unspelled.Statement .mortarLinkUp := unspelled _
theorem Unspelled.mortarLaneLoss lane : Unspelled.Statement (.mortarLaneLoss lane) := unspelled _
theorem Unspelled.mortarLaneRegained lane : Unspelled.Statement (.mortarLaneRegained lane) := unspelled _
theorem Unspelled.dramChannelFailed ch cause : Unspelled.Statement (.dramChannelFailed ch cause) := unspelled _
theorem Unspelled.dramRetireDone ch : Unspelled.Statement (.dramRetireDone ch) := unspelled _
theorem Unspelled.dramRetrain ch ok : Unspelled.Statement (.dramRetrain ch ok) := unspelled _
theorem Unspelled.angleUpdate : Unspelled.Statement .angleUpdate := unspelled _
theorem Unspelled.missedUpdate : Unspelled.Statement .missedUpdate := unspelled _
theorem Unspelled.frameBoundary : Unspelled.Statement .frameBoundary := unspelled _
theorem Unspelled.columnBoundary c : Unspelled.Statement (.columnBoundary c) := unspelled _
theorem Unspelled.shotDue course : Unspelled.Statement (.shotDue course) := unspelled _
theorem Unspelled.shotLaunch course startA startB :
    Unspelled.Statement (.shotLaunch course startA startB) := unspelled _
theorem Unspelled.doublePulseSecond course : Unspelled.Statement (.doublePulseSecond course) := unspelled _
theorem Unspelled.lowDiscriminatorEdge ch rise fall high :
    Unspelled.Statement (.lowDiscriminatorEdge ch rise fall high) := unspelled _
theorem Unspelled.windowClose ch : Unspelled.Statement (.windowClose ch) := unspelled _
theorem Unspelled.stampDelivery ch : Unspelled.Statement (.stampDelivery ch) := unspelled _
theorem Unspelled.tdcCalibrationDone ch rise fall :
    Unspelled.Statement (.tdcCalibrationDone ch rise fall) := unspelled _
theorem Unspelled.engineP1Start e : Unspelled.Statement (.engineP1Start e) := unspelled _
theorem Unspelled.engineP1Done e corr uncorr : Unspelled.Statement (.engineP1Done e corr uncorr) := unspelled _
theorem Unspelled.engineP2Done e corr uncorr : Unspelled.Statement (.engineP2Done e corr uncorr) := unspelled _
theorem Unspelled.indexEdge rising ti : Unspelled.Statement (.indexEdge rising ti) := unspelled _
theorem Unspelled.pickCrossing pick t samples : Unspelled.Statement (.pickCrossing pick t samples) := unspelled _
theorem Unspelled.indexMissing : Unspelled.Statement .indexMissing := unspelled _
theorem Unspelled.recordArrival : Unspelled.Statement .recordArrival := unspelled _
theorem Unspelled.recordCommit : Unspelled.Statement .recordCommit := unspelled _
theorem Unspelled.historySlotArrival : Unspelled.Statement .historySlotArrival := unspelled _
theorem Unspelled.palletTimeout r : Unspelled.Statement (.palletTimeout r) := unspelled _
theorem Unspelled.palletWrite r faults : Unspelled.Statement (.palletWrite r faults) := unspelled _
theorem Unspelled.irqHoldoffEnd r : Unspelled.Statement (.irqHoldoffEnd r) := unspelled _
theorem Unspelled.ciPoll r : Unspelled.Statement (.ciPoll r) := unspelled _
theorem Unspelled.ciReadComplete r ci : Unspelled.Statement (.ciReadComplete r ci) := unspelled _
theorem Unspelled.timePpsEdge : Unspelled.Statement .timePpsEdge := unspelled _
theorem Unspelled.chainOutput chain samples : Unspelled.Statement (.chainOutput chain samples) := unspelled _
theorem Unspelled.loopSelftestDone ok : Unspelled.Statement (.loopSelftestDone ok) := unspelled _
theorem Unspelled.loopStartSlow : Unspelled.Statement .loopStartSlow := unspelled _
theorem Unspelled.pwmCycleStart levels : Unspelled.Statement (.pwmCycleStart levels) := unspelled _
theorem Unspelled.hkConversion code overRange brk :
    Unspelled.Statement (.hkConversion code overRange brk) := unspelled _
theorem Unspelled.hkRoundBoundary : Unspelled.Statement .hkRoundBoundary := unspelled _
theorem Unspelled.captureTrigger u t samples : Unspelled.Statement (.captureTrigger u t samples) := unspelled _
theorem Unspelled.shotQualTimeout u : Unspelled.Statement (.shotQualTimeout u) := unspelled _
theorem Unspelled.maskViolation u samples : Unspelled.Statement (.maskViolation u samples) := unspelled _
theorem Unspelled.captureComplete u samples : Unspelled.Statement (.captureComplete u samples) := unspelled _
theorem Unspelled.captureHoldoffEnd u : Unspelled.Statement (.captureHoldoffEnd u) := unspelled _
theorem Unspelled.esPulseCount port : Unspelled.Statement (.esPulseCount port) := unspelled _
theorem Unspelled.ledgerBucketClose k : Unspelled.Statement (.ledgerBucketClose k) := unspelled _
theorem Unspelled.esCauseArises c : Unspelled.Statement (.esCauseArises c) := unspelled _
theorem Unspelled.esCauseClears c : Unspelled.Statement (.esCauseClears c) := unspelled _
theorem Unspelled.esClockCheck ppm railOk : Unspelled.Statement (.esClockCheck ppm railOk) := unspelled _
theorem Unspelled.esSelftest ok : Unspelled.Statement (.esSelftest ok) := unspelled _
theorem Unspelled.esCrcCheck crc : Unspelled.Statement (.esCrcCheck crc) := unspelled _
theorem Unspelled.powerupHoldEnd : Unspelled.Statement .powerupHoldEnd := unspelled _
theorem Unspelled.rearmTimeout : Unspelled.Statement .rearmTimeout := unspelled _
theorem Unspelled.esUnlockTimeout : Unspelled.Statement .esUnlockTimeout := unspelled _
theorem Unspelled.unlockRefusalEnd : Unspelled.Statement .unlockRefusalEnd := unspelled _
theorem Unspelled.safeAckFall : Unspelled.Statement .safeAckFall := unspelled _
theorem Unspelled.safeAckRise : Unspelled.Statement .safeAckRise := unspelled _
theorem Unspelled.esStateMessageSend : Unspelled.Statement .esStateMessageSend := unspelled _
theorem Unspelled.esStateMessage : Unspelled.Statement .esStateMessage := unspelled _
theorem Unspelled.safePathTimeout node ring : Unspelled.Statement (.safePathTimeout node ring) := unspelled _
theorem Unspelled.tempReading ts reading : Unspelled.Statement (.tempReading ts reading) := unspelled _
theorem Unspelled.thRateMark : Unspelled.Statement .thRateMark := unspelled _
theorem Unspelled.thShutdownEntry : Unspelled.Statement .thShutdownEntry := unspelled _
theorem Unspelled.logWrite : Unspelled.Statement .logWrite := unspelled _
theorem Unspelled.logTokenRefill code : Unspelled.Statement (.logTokenRefill code) := unspelled _
theorem Unspelled.hoursTick : Unspelled.Statement .hoursTick := unspelled _
theorem Unspelled.ringJoinTimeout : Unspelled.Statement .ringJoinTimeout := unspelled _
theorem Unspelled.ringIsolatedRetry : Unspelled.Statement .ringIsolatedRetry := unspelled _
theorem Unspelled.ringLeavingDone : Unspelled.Statement .ringLeavingDone := unspelled _
theorem Unspelled.portStateTimeout p : Unspelled.Statement (.portStateTimeout p) := unspelled _
theorem Unspelled.laneTrained lane : Unspelled.Statement (.laneTrained lane) := unspelled _
theorem Unspelled.tsBlock lane damaged trained ratePending :
    Unspelled.Statement (.tsBlock lane damaged trained ratePending) := unspelled _
theorem Unspelled.blockLockAcquired lane : Unspelled.Statement (.blockLockAcquired lane) := unspelled _
theorem Unspelled.blockLockLost lane cut : Unspelled.Statement (.blockLockLost lane cut) := unspelled _
theorem Unspelled.alignBlock lane damaged skew marker :
    Unspelled.Statement (.alignBlock lane damaged skew marker) := unspelled _
theorem Unspelled.capsReceived p caps : Unspelled.Statement (.capsReceived p caps) := unspelled _
theorem Unspelled.ringFrameReceived p stomped frame :
    Unspelled.Statement (.ringFrameReceived p stomped frame) := unspelled _
theorem Unspelled.quarantineRetry p : Unspelled.Statement (.quarantineRetry p) := unspelled _
theorem Unspelled.ackBlock p lseq : Unspelled.Statement (.ackBlock p lseq) := unspelled _
theorem Unspelled.nakBlock p code lseq : Unspelled.Statement (.nakBlock p code lseq) := unspelled _
theorem Unspelled.creditBlock p general reserved : Unspelled.Statement (.creditBlock p general reserved) := unspelled _
theorem Unspelled.replayTimeout p : Unspelled.Statement (.replayTimeout p) := unspelled _
theorem Unspelled.probeSend p : Unspelled.Statement (.probeSend p) := unspelled _
theorem Unspelled.probeBlock p reply number residence :
    Unspelled.Statement (.probeBlock p reply number residence) := unspelled _
theorem Unspelled.restripeBlock p mask : Unspelled.Statement (.restripeBlock p mask) := unspelled _
theorem Unspelled.switchBlock p mask cut : Unspelled.Statement (.switchBlock p mask cut) := unspelled _
theorem Unspelled.leaveBlock p reason : Unspelled.Statement (.leaveBlock p reason) := unspelled _
theorem Unspelled.announceSend : Unspelled.Statement .announceSend := unspelled _
theorem Unspelled.announceReceived : Unspelled.Statement .announceReceived := unspelled _
theorem Unspelled.rosterExpiry node : Unspelled.Statement (.rosterExpiry node) := unspelled _
theorem Unspelled.syncSend : Unspelled.Statement .syncSend := unspelled _
theorem Unspelled.syncReceived : Unspelled.Statement .syncReceived := unspelled _
theorem Unspelled.syncLost : Unspelled.Statement .syncLost := unspelled _
theorem Unspelled.palletReceived : Unspelled.Statement .palletReceived := unspelled _
theorem Unspelled.palletAck : Unspelled.Statement .palletAck := unspelled _
theorem Unspelled.ciReadMessage ci : Unspelled.Statement (.ciReadMessage ci) := unspelled _
theorem Unspelled.e2eResend : Unspelled.Statement .e2eResend := unspelled _
theorem Unspelled.mgmtCommand : Unspelled.Statement .mgmtCommand := unspelled _
theorem Unspelled.mgmtResult : Unspelled.Statement .mgmtResult := unspelled _
theorem Unspelled.remoteTimeout mb : Unspelled.Statement (.remoteTimeout mb) := unspelled _
theorem Unspelled.safetyHeartbeat atDieA : Unspelled.Statement (.safetyHeartbeat atDieA) := unspelled _
theorem Unspelled.readHistoryDone : Unspelled.Statement .readHistoryDone := unspelled _
theorem Unspelled.timeDisciplinedLapse : Unspelled.Statement .timeDisciplinedLapse := unspelled _
theorem Unspelled.busMasterEnableCleared : Unspelled.Statement .busMasterEnableCleared := unspelled _
theorem Unspelled.partnerTerminationSensed p : Unspelled.Statement (.partnerTerminationSensed p) := unspelled _

end Sys2Proof.Laws
end

