-- ==== Sys2Proof/Laws/Runs.lean ====
section
/-! SUPPORT. Laws of the payload checks and of running a mailbox command: what the checks pass, and what a command whose
checks pass does. -/

namespace Sys2Proof

/-! One proof at a time: proofs that wait on one another each hold a thread of their own. -/
set_option Elab.async false

open Sys2Proof.Machine

theorem firstBad_eq_none_iff (l : List (Bool × Nat)) : firstBad l = none ↔ AllGood l := by
  induction l with
  | nil => simp [firstBad, AllGood]
  | cons f l ih =>
    obtain ⟨b, o⟩ := f
    cases b
    · simp [firstBad, AllGood]
    · simpa [firstBad, AllGood] using ih

theorem fixedPayload_eq_none_iff (p : Bytes) (n : Nat) (fs : List (Bool × Nat)) :
    fixedPayload p n fs = none ↔ p.length = n ∧ AllGood fs := by
  unfold fixedPayload
  split
  · next h => simp; omega
  · split
    · next r h =>
      have k : ¬AllGood fs := fun a => by simp [(firstBad_eq_none_iff fs).2 a] at h
      simp [k]
    · next h =>
      have k := (firstBad_eq_none_iff fs).1 h
      split <;> simp_all

theorem varPayload_eq_none_iff (p : Bytes) (n : Nat) (fixed : List (Bool × Nat)) (len : Nat) (fs : List (Bool × Nat)) :
    varPayload p n fixed len fs = none ↔ n ≤ p.length ∧ AllGood fixed ∧ p.length = len ∧ AllGood fs := by
  unfold varPayload
  split
  · next h => simp; omega
  · next h0 =>
    split
    · next r h =>
      have k : ¬AllGood fixed := fun a => by simp [(firstBad_eq_none_iff fixed).2 a] at h
      simp [k]
    · next h =>
      have k := (firstBad_eq_none_iff fixed).1 h
      split
      · next hl =>
        subst hl
        rw [firstBad_eq_none_iff]
        exact ⟨fun a => ⟨by omega, k, rfl, a⟩, fun a => a.2.2.2⟩
      · next hl => simp [hl]

theorem allGood_nil : AllGood [] := by simp [AllGood]

theorem allGood_cons (b : Bool) (o : Nat) (l : List (Bool × Nat)) : AllGood ((b, o) :: l) ↔ b = true ∧ AllGood l := by
  simp [AllGood]

theorem allGood_append (k l : List (Bool × Nat)) : AllGood (k ++ l) ↔ AllGood k ∧ AllGood l := by
  simp [AllGood, or_imp, forall_and]

theorem allGood_map {α : Type} (l : List α) (f : α → Bool × Nat) :
    AllGood (l.map f) ↔ ∀ x ∈ l, (f x).1 = true := by
  simp [AllGood]

theorem allGood_flatMap {α : Type} (l : List α) (f : α → List (Bool × Nat)) :
    AllGood (l.flatMap f) ↔ ∀ x ∈ l, AllGood (f x) := by
  simp only [AllGood, List.mem_flatMap, forall_exists_index, and_imp]
  exact ⟨fun h x hx f hf => h f x hx hf, fun h f x hx hf => h x hx f hf⟩

/-- A payload of the exact length whose every field is good passes. -/
theorem fixedPayload_none {p : Bytes} {n : Nat} {fs : List (Bool × Nat)} (h : p.length = n) (k : AllGood fs) :
    fixedPayload p n fs = none := (fixedPayload_eq_none_iff p n fs).2 ⟨h, k⟩

/-- A payload with a variable part whose length and fields are good passes. -/
theorem varPayload_none {p : Bytes} {n len : Nat} {fixed fs : List (Bool × Nat)} (h : p.length = len) (hn : n ≤ len)
    (k : AllGood fixed) (l : AllGood fs) : varPayload p n fixed len fs = none :=
  (varPayload_eq_none_iff p n fixed len fs).2 ⟨h ▸ hn, k, h, l⟩

/-- A command whose checks pass goes on. -/
theorem checked_none {bad : Option Reply} {s : State} {go : Unit → State × Reply} (h : bad = none) :
    checked bad s go = ((go ()).1, some (go ()).2) := by
  subst h
  rfl

/-- A ready command runs its handler on the state in which it has begun. -/
theorem runCommand_ready {op : Nat} {mb : Fin 8} {h : Handler} {e : JEntry} {s : State} (r : Ready op mb e s) :
    runCommand op mb h s = .next
      (match (h e.origin e.jseq e.payload (begun op e s)).2 with
        | some a => finish e.jseq a (h e.origin e.jseq e.payload (begun op e s)).1
        | none => (h e.origin e.jseq e.payload (begun op e s)).1) := by
  obtain ⟨h1, h2, h3, h4, h5, h6, h7⟩ := r
  unfold runCommand
  rw [h1]
  have hb : (needsDieA op e.payload && !s.power.dieA) = false := by
    cases hn : needsDieA op e.payload
    · rfl
    · simp [h6 hn]
  simp only [h2, h3, h4, h5, h7, decide_true, Bool.and_true, Bool.not_false, Bool.not_true, if_true, hb, Bool.false_eq_true,
    if_false]
  rfl

end Sys2Proof
end

