-- ==== Sys2Proof/Machine/Outputs.lean ====
section
/-! DEFINITION. What the output pins show in a state (19 Table BOOT-2, R427), and how analogue inputs and outputs scale to
codes (03 R74, 20 R454, R455). -/

namespace Sys2Proof.Machine

open Sys2Proof

/-- What a digital output shows: a level, or high impedance. -/
inductive PinLevel where
  | low | high | highZ
  deriving DecidableEq, Repr

/-- A level from a Bool. -/
def pinOf (b : Bool) : PinLevel := if b then .high else .low

/-- FIRE_P and FIRE_N of an idle port (04 R89): both low while die A is down, else P low and N high. -/
def fireIdle (s : State) : PinLevel × PinLevel := (.low, pinOf s.power.dieA)

/-- EMIT_PERMIT_P and EMIT_PERMIT_N (01 R17, 10 R217, R222): both low while the die-B rails are down. -/
def permitPins (s : State) : PinLevel × PinLevel :=
  if s.es.powered then (pinOf s.es.permit, pinOf (!s.es.permit)) else (.low, .low)

/-- Permission is granted only by P high and N low (01 R17). -/
def grants (p : PinLevel × PinLevel) : Bool := decide (p = (.high, .low))

/-- SAFE_FAULT_N (10 R217, R222): released by the grant alone; low while unpowered. -/
def safeFaultPin (s : State) : PinLevel := pinOf (s.es.powered && s.es.permit)

/-- Die B is out of reset. -/
def dieBRuns (s : State) : Bool := s.power.main && decide (s.power.phase ≠ .off)

/-- Codes on DRV0 and DRV1; none is high impedance (die B unpowered). -/
def drvPins (s : State) : Option (Int × Int) :=
  if !s.power.rails then none
  else if dieBRuns s && !(loopCfg s).pwm then some (drv0Now s, s.loop.drv1)
  else some (0, 0)

/-- PWMA, PWMB and PWMC at mid-cycle (03 R75): low in reset, unpowered and with the drive off. -/
def pwmPins (s : State) : BitVec 3 := if dieBRuns s && (loopCfg s).pwm then midLevels s else 0

/-- The slot of the housekeeping round that is being converted (17 R387). -/
def slotNow (s : State) : Nat := (now s - s.hk.roundAt) / 1000 % 36

/-- The excitation current of pair `i` is on (17 R387): from the start of the slot before its own to the end of its own. -/
def excitationOn (s : State) (i : Nat) : Bool :=
  dieBRuns s && s.hk.cal.isNone && decide ((hkChan s i).set.exc ≠ 0) &&
    decide (slotNow s = i ∨ (slotNow s + 1) % 36 = i)

/-- The YLX_ bypass is closed (13 R294, 19 Table BOOT-2). -/
def bypassClosed (s : State) : Bool := !dieBRuns s || s.ring.bypass

/-- What the LPDDR5X interface does: high impedance, self-refresh held, or in use. -/
inductive DramPins where
  | highZ | selfRefresh | inUse
  deriving DecidableEq, Repr

/-- The LPDDR5X interface (19 Table BOOT-2). -/
def dramPins (s : State) : DramPins :=
  if !s.power.rails then .highZ else if dieBRuns s && s.mem.training.isNone then .inUse else .selfRefresh

/-- What the PE_ lanes do: high impedance, electrical idle, or the link. -/
inductive PePins where
  | highZ | idle | link
  deriving DecidableEq, Repr

/-- The PE_ lanes (19 Table BOOT-2). -/
def pePins (s : State) : PePins := if !s.power.rails then .highZ else if dieBRuns s then .link else .idle

/-! #### Scaling (03 R74, 20 Tables ELEC-10, ELEC-11, R454, R455) -/

/-- DRV output voltage in nV of a drive code: -32,768 to 32,767 spans 0.15 V to 1.65 V. -/
def drvNanovolts (code : Int) : Int := 150000000 + (code + 32768) * 1500000000 / 65536

/-- The angle ADC code of a differential input in nV (20 R454): -1.0 V reads -8,192. -/
def angleCode (nanovolts : Int) : Int := max (-8192) (min 8191 (rne (nanovolts * 8192) 1000000000))

/-- The capture digitiser code of an input in µV (20 R455): 0 V reads 0 and 1.0 V reads 1,023. -/
def captureCode (microvolts : Int) : Nat := (max 0 (min 1023 (rne (microvolts * 1023) 1000000))).toNat

/-- VDD_B is below the rail warning, in µV (20 R448). -/
def railWarns (microvolts : Nat) : Bool := decide (microvolts < 785000)

/-- VDD_B is in its operating range, in µV (20 Table ELEC-5, 10 R209). -/
def railInRange (microvolts : Nat) : Bool := within 770000 microvolts 830000

end Sys2Proof.Machine
end

