-- ==== Sys2Proof/Machine/Package.lean ====
section
/-! DEFINITION. Where each signal leaves the package (20 R441 to R445). -/

namespace Sys2Proof.Machine

open Sys2Proof

/-- The nineteen row letters; I, O, Q, R, S, X and Z are not among them (20 R441). -/
def rowLetters : List String :=
  ["A", "B", "C", "D", "E", "F", "G", "H", "J", "K", "L", "M", "N", "P", "T", "U", "V", "W", "Y"]

/-- Name of the row of ordinal `n`, 1 to 48 (20 R441). -/
def rowName (n : Nat) : String :=
  let k := n - 1
  let letter := (rowLetters[k % 19]?).getD ""
  (match k / 19 with
   | 0 => ""
   | 1 => "A"
   | _ => "B") ++ letter

/-- A ball: row ordinal and column, each 1 to 48. -/
structure Ball where
  row : Nat
  col : Nat
  deriving DecidableEq, Repr

/-- Name of a ball (20 R441). -/
def ballName (b : Ball) : String := rowName b.row ++ toString b.col

/-- The balls of a course, in order INA_P, INA_N, VSS, INB_P, INB_N, VSS (20 R443). -/
def courseBalls (c : Nat) : List Ball := (List.range 6).map (fun i => ⟨c / 8 + 1, 6 * (c % 8) + 1 + i⟩)

/-- The balls of a port, in order FIRE_P, FIRE_N, VSS (20 R444). -/
def portBalls (p : Nat) : List Ball := (List.range 3).map (fun i => ⟨39 + p / 16, 3 * (p % 16) + 1 + i⟩)

/-- HK_P, HK_N and VSS of a housekeeping pair (20 Table ELEC-1). -/
def hkBalls (i : Nat) : List Ball := (List.range 3).map (fun k => ⟨20, 3 * i + 1 + k⟩)

/-- MON[k] and its VSS (20 Table ELEC-2). -/
def monBalls (k : Nat) : List Ball := [⟨19, 2 * k + 1⟩, ⟨19, 2 * k + 2⟩]

/-- The twelve signals of a row of an LPDDR5X channel block (20 Table ELEC-3). -/
def dramRow (r : Nat) : List String :=
  let byte (d m : Nat) : List String :=
    (List.range 8).map (fun i => "DQ" ++ toString (d + i)) ++
      ["DMI" ++ toString m, "RDQS_t" ++ toString m, "RDQS_c" ++ toString m, "VSS"]
  let clocks (k : Nat) : List String :=
    ["WCK_t" ++ toString k, "WCK_c" ++ toString k, "WCK_t" ++ toString (k + 1), "WCK_c" ++ toString (k + 1)] ++
      List.replicate 4 "VDDQ" ++ List.replicate 4 "VSS"
  match r with
  | 0 => byte 0 0
  | 1 => byte 8 1
  | 2 => clocks 0
  | 3 => byte 16 2
  | 4 => byte 24 3
  | 5 => clocks 2
  | 6 => (List.range 7).map (fun i => "CA" ++ toString i) ++ ["CS0", "CS1", "CK_t", "CK_c", "VSS"]
  | 7 => ["RESET_N", "ZQ"] ++ List.replicate 5 "VDD2H" ++ List.replicate 5 "VSS"
  | 8 => List.replicate 6 "VDDQ" ++ List.replicate 6 "VSS"
  | _ => []

/-- Ball of position `i` (0 to 11) in row `r` (0 to 8) of LPDDR5X channel `k`: channels 2 and 3 lie at columns 37 to 48
(20 R445). -/
def dramBall (k r i : Nat) : Ball := ⟨(if k % 2 = 0 then 21 else 30) + r, (if k < 2 then 1 else 37) + i⟩

/-- P and N balls of YLX_ lane ID `j`, 0 to 7 (20 Table ELEC-2). -/
def ylxBalls (j : Nat) : List Ball := [⟨47, 3 * j + 2⟩, ⟨47, 3 * j + 3⟩]

/-- P and N balls of a PE_ pair: receive pairs 0 to 3, then transmit pairs (20 Table ELEC-2). -/
def peBalls (j : Nat) : List Ball := [⟨47, 3 * j + 26⟩, ⟨47, 3 * j + 27⟩]

end Sys2Proof.Machine
end

