-- ==== Sys2Proof/Tests/Slice0.lean ====
section
/-! SUPPORT. Own tests. A theorem `met_X` applies statement X to concrete states and operands: its proof discharges every
hypothesis of every clause by evaluation, so no clause is empty. -/

namespace Sys2Proof.Tests

open Sys2Proof Sys2Proof.Machine

/-! One test at a time: the kernel evaluations of these theorems wait on one another. -/
set_option Elab.async false

/-- A device that runs: supplies present, firmware ready, die A and the ES up, the host may be written. -/
def up : State :=
  { State.reset with
    power.vka := true, power.main := true, power.memory := true, power.phase := .ready, power.dieA := true
    power.dieAStarted := true, lanes.mortarUp := true, lanes.maskAB := 255, lanes.maskBA := 15, pcie.bme := true
    mem.inService := 15, es.powered := true }

/-- Both chains configured and running, the loop configured. -/
def looped : State :=
  { up with
    loop.config := some {}
    loop.chains := [(0, { configured := true, running := true }), (1, { configured := true, running := true })] }

/-- An accepted command of mailbox 0 that has not started. -/
def entry (op : Nat) (p : Bytes) : JEntry :=
  { jseq := 1, origin := .mailbox 0, header := b2 op ++ zeros 2 ++ b2 0xFFFF ++ zeros 58, payload := p, room := 0, accepted := true }

/-- A state in which that command is the next to take effect. -/
def cmd (op : Nat) (p : Bytes) (s : State) : State := { s with mbx.journal := [entry op p] }

/-- What the device brings along: die A runs, and no later command of the same block was applied. -/
def serves (op : Nat) (s : State) : Bool := sornor s && s.power.dieA && unapplied op 1 s

theorem ready_cmd (op : Nat) (p : Bytes) (s : State) (h1 : hOp (entry op p).header = op)
    (h2 : forwarded (entry op p) = false) (h3 : serves op s = true) : Ready op 0 (entry op p) (cmd op p s) := by
  simp only [serves, Bool.and_eq_true] at h3
  exact ⟨rfl, h1, rfl, h3.1.1, h2, fun _ => h3.1.2, h3.2⟩

theorem met {op : Nat} {c : Fin 8 → Instr} {good : JEntry → State → Prop} {eff : JEntry → State → State}
    {reply : JEntry → State → Reply} (h : Applies op c good eff reply) (p : Bytes) (s : State)
    (h1 : hOp (entry op p).header = op) (h2 : forwarded (entry op p) = false) (h3 : serves op s = true)
    (g : good (entry op p) (begun op (entry op p) (cmd op p s))) : Completes (c 0) (cmd op p s) :=
  ⟨_, h 0 _ _ (ready_cmd op p s h1 h2 h3) g⟩

theorem met' {op : Nat} {c : Fin 8 → Instr} {good : JEntry → State → Prop} {eff : JEntry → State → State}
    (h : Opens op c good eff) (p : Bytes) (s : State)
    (h1 : hOp (entry op p).header = op) (h2 : forwarded (entry op p) = false) (h3 : serves op s = true)
    (g : good (entry op p) (begun op (entry op p) (cmd op p s))) : Completes (c 0) (cmd op p s) :=
  ⟨_, h 0 _ _ (ready_cmd op p s h1 h2 h3) g⟩

theorem either {i : Instr} {s a : State} {α : Type} {o : Option α} {b : α → State}
    (h : (o = none → exec i s = .next a) ∧ ∀ x, o = some x → exec i s = .next (b x)) : Completes i s := by
  rcases o with _ | x
  · exact ⟨_, h.1 rfl⟩
  · exact ⟨_, h.2 x rfl⟩

theorem allGood_of (l : List (Bool × Nat)) (h : l.all (fun f => f.1) = true) : AllGood l := by
  simpa [AllGood, List.all_eq_true] using h

/-! ### The statements about every command and about the mailbox -/

theorem met_StepRunsHeadOfQueue (h : Obligations.StepRunsHeadOfQueue) :
    step { up with pending := [.hoursTick, .thRateMark] } = exec .hoursTick { up with pending := [.thRateMark] } :=
  h .hoursTick [.thRateMark] up

theorem met_IdleStepTicks (h : Obligations.IdleStepTicks) :
    ∃ t, step up = .next t ∧ t.angle.tb = 1 :=
  (h up rfl).imp fun _ x => ⟨x.1, x.2.1⟩

theorem met_CommandsUphold (h : Obligations.CommandsUphold) :
    ∃ t, exec .hoursTick up = .next t ∧ Upholds up t :=
  ⟨_, rfl, h .hoursTick up _ rfl⟩

theorem met_StepKeepsInvariant (h : Obligations.StepKeepsInvariant) :
    ∃ t, step { up with pending := [.hoursTick] } = .next t ∧ Inv t :=
  ⟨_, rfl, h { up with pending := [.hoursTick] } _ ⟨rfl, rfl, rfl, rfl⟩ rfl⟩

/-- The ES in CLEARED, its acknowledge input low for 10 ms, one acknowledge enough. -/
def cleared : State :=
  { up with
    es.run := .cleared, es.present := 0, es.time := 20000000, es.ack := some false, es.ackLow := some 1, es.tripAt := 1
    es.cfg := { up.es.cfg with rearmPath := 2 } }

theorem met_GrantOnlyByConfirmOrAck (h : Obligations.GrantOnlyByConfirmOrAck) :
    ∃ t, exec .safeAckRise cleared = .next t ∧ t.es.permit = true ∧
      ((∃ mb, Instr.safeAckRise = .esConfirm mb) ∨ Instr.safeAckRise = .safeAckRise) :=
  ⟨_, rfl, by decide, h .safeAckRise cleared _ rfl rfl (by decide)⟩

theorem met_PulsesOnlyAtTheirCommands (h : Obligations.PulsesOnlyAtTheirCommands) :
    ∃ t, exec .hoursTick up = .next t ∧ fires t.out = fires up.out :=
  ⟨_, rfl, h .hoursTick up _ rfl (fun _ _ _ x => Instr.noConfusion x) fun _ x => Instr.noConfusion x⟩

theorem met_DoorbellPosts (h : Obligations.DoorbellPosts) :
    Completes (.mbxDoorbell 7 0) up ∧ Completes (.mbxDoorbell 7 1) up :=
  ⟨⟨_, (h 7 0 up rfl).1 (by decide)⟩, ((h 7 1 up rfl).2 (by decide)).imp fun _ x => x.1⟩

/-- Mailbox 0 with a posted HELLO. -/
def posted : State :=
  modBox 0 (fun b => { b with
    state := .posted
    latched :=
      b2 0x0101 ++ b2 0 ++ b2 0xFFFF ++ zeros 2 ++ b8 1 ++ zeros 8 ++ b4 0 ++ zeros 12 ++ b4 0x100 ++ zeros 20 }) up

theorem met_CheckPutsCommandInJournal (h : Obligations.CheckPutsCommandInJournal) :
    Completes (.commandCheck 0 none) posted :=
  ⟨_, h 0 none posted posted [] rfl rfl rfl rfl rfl (by decide +kernel) (by decide +kernel) (by decide +kernel)
    (by decide +kernel) (by decide +kernel)⟩

theorem met_RefusalLeavesSequence (h : Obligations.RefusalLeavesSequence) :
    Completes (.commandCheck 0 none)
      (modBox 0 (fun b => { b with latched := b2 0x0103 ++ b2 0 ++ b2 0xFFFF ++ zeros 58 }) posted) :=
  (h 0 none (modBox 0 (fun b => { b with latched := b2 0x0103 ++ b2 0 ++ b2 0xFFFF ++ zeros 58 }) posted) ⟨0x20,
    none, 5⟩
    rfl rfl rfl rfl rfl (by decide +kernel)).imp fun _ x => x.1

theorem met_AcceptanceSetsSequence (h : Obligations.AcceptanceSetsSequence) :
    Completes (.commandAccepted 0) { posted with
      mbx.journal := [{ jseq := 1, header := b2 0x0101 ++ zeros 2 ++ b2 0xFFFF ++ zeros 58 }] } :=
  (h 0 _ { jseq := 1, header := b2 0x0101 ++ zeros 2 ++ b2 0xFFFF ++ zeros 58 } rfl rfl rfl).imp
    fun _ x => x.1

theorem met_FinishEndsCommand (h : Obligations.FinishEndsCommand) :
    (box (finish 1 ok (cmd 0x0D05 [] up)) 0).state = .done :=
  (h 1 0 ok (cmd 0x0D05 [] up) (entry 0x0D05 []) rfl rfl rfl (by decide)).1

theorem met_CommandsRunInAcceptanceOrder (h : Obligations.CommandsRunInAcceptanceOrder) :
    Completes (.nop 0) (cmd 0x0102 [] up) :=
  ⟨_, h (0x0103, .nop) (by simp [mailboxOps]) 0 (cmd 0x0102 [] up) fun e x => .inl (by cases x; decide)⟩

theorem met_CommandsForDieAWait (h : Obligations.CommandsForDieAWait) :
    Completes (.captStatus 0) (cmd 0x0705 [] { up with power.dieA := false }) :=
  ⟨_, h (0x0705, .captStatus) (by simp [mailboxOps]) 0 (entry 0x0705 [])
    (cmd 0x0705 [] { up with power.dieA := false }) rfl rfl rfl rfl rfl rfl rfl⟩

theorem met_BareCommandsRefusePayload (h : Obligations.BareCommandsRefusePayload) :
    Completes (.runDisarm 0) (cmd 0x0D05 [0] up) :=
  ⟨_, h (0x0D05, .runDisarm) (by simp [bareOps]) 0 _ _ (ready_cmd 0x0D05 [0] up rfl rfl rfl) (by decide)⟩

theorem met_PayloadIsJudgedInOrder (h : Obligations.PayloadIsJudgedInOrder) :
    fixedPayload [] 4 [] = some { status := 0x11 } ∧
      fixedPayload (zeros 4) 4 [(true, 0), (false, 2)] = some { status := 0x12, detail := 0x20000002 } ∧
      fixedPayload (zeros 5) 4 [(true, 0)] = some { status := 0x11 } ∧ fixedPayload (zeros 4) 4 [(true, 0)] = none :=
  ⟨(h [] 4 []).1 (by decide), (h (zeros 4) 4 [(true, 0), (false, 2)]).2.1 [(true, 0)] [] 2 (by decide) rfl
    (allGood_of _ rfl), (h (zeros 5) 4 [(true, 0)]).2.2.1 (by decide) (allGood_of _ rfl),
    (h (zeros 4) 4 [(true, 0)]).2.2.2.2 ⟨rfl, allGood_of _ rfl⟩⟩

theorem met_SessionAndImageCommands (h : Obligations.SessionAndImageCommands) :
    Completes (.resultWriteFail 7) (modBox 7 (fun b =>
      { b with state := .accepted, latched := zeros 2 ++ b2 8 ++ zeros 60 }) up) ∧
      Completes (.journalMirrorRebuilt .dieA) up ∧ Completes (.journalMirrorRebuilt (.dram 0)) up ∧
      Completes (.journalMirrorRebuilt (.dram 1)) up ∧ Completes (.hello 0) (cmd 0x0101 (b4 4 ++ b4 0) up) ∧
      Completes (.goodbye 0) (cmd 0x0102 [] up) ∧ Completes (.nop 0) (cmd 0x0103 (zeros 256) up) ∧
      Completes (.ident 0) (cmd 0x0104 (zeros 32) up) ∧
      Completes (.fwImageWrite 0) (cmd 0x0105 (b4 1 ++ b4 (2 ^ 23 - 256) ++ b4 1 ++ b4 0 ++ [7]) up) ∧
      Completes (.fwImageSelect 0) (cmd 0x0106 (zeros 4)
        { up with power.slots := [(0, { verified := true })], power.records := [(0, ⟨true, 1, 0⟩)] }) := by
  obtain ⟨h1, h2, h3, h4, h5, h6, h7, h8, h9, h10⟩ := h
  exact ⟨⟨_, h1 7 _ rfl (by decide) rfl⟩, ⟨_, h2 up rfl rfl (by decide)⟩, ⟨_, h3 up rfl⟩, ⟨_, h4 up rfl⟩,
    met h5 _ _ rfl rfl rfl (by decide), met' h6 _ _ rfl rfl rfl rfl, met h7 _ _ rfl rfl rfl (by decide +kernel),
    met h8 _ _ rfl rfl rfl rfl, met h9 _ _ rfl rfl rfl (by unfold AllGood; decide +kernel),
    met h10 _ _ rfl rfl rfl (by decide)⟩
/-! ### The settings and the commands of the mailboxes -/
theorem met_AngleAndGridSettings (h : Obligations.AngleAndGridSettings) :
    Completes (.gridSetColumns 0) (cmd 0x0201 (b4 1 ++ b4 0 ++ b4 (2 ^ 32 - 1)) up) ∧
      Completes (.angleSetScan 0) (cmd 0x0203 (b4 1 ++ b4 0x10000000 ++ b4 1) up) ∧
      Completes (.angleSetIndex 0) (cmd 0x0204
        (b2 2 ++ b2 0x1FFF ++ b4 0 ++ b4 1 ++ b4 1 ++ b4 0x1000000 ++ b4 0) up) := by
  obtain ⟨h1, h2, h3⟩ := h
  exact ⟨met h1 _ _ rfl rfl rfl (by decide +kernel),
    met h2 _ _ rfl rfl rfl (by decide +kernel),
    met h3 _ _ rfl rfl rfl (by decide +kernel)⟩

theorem met_ShotSettings (h : Obligations.ShotSettings) :
    Completes (.shotSetProgram 0) (cmd 0x0206
      (b1 127 ++ zeros 7 ++ b4 0xFFFFFF ++ b2 4096 ++ b2 4095 ++ b2 4095 ++ b1 8 ++ b1 0x8F ++ b1 16 ++ zeros 3) up) ∧
      Completes (.allocSet 0) (cmd 0x0207 (b1 2 ++ b1 32 ++ b1 32 ++ b1 32 ++ zeros 20 ++ (List.replicate 128
        (b4 65536)).flatten) up) ∧
      Completes (.tpmSetWeights 0) (cmd 0x0208 (b4 262143 ++ b4 1 ++ [15]) up) := by
  obtain ⟨h1, h2, h3⟩ := h
  exact ⟨met h1 _ _ rfl rfl rfl (by unfold AllGood; decide +kernel),
    met h2 _ _ rfl rfl rfl (by decide +kernel),
    met h3 _ _ rfl rfl rfl (by decide +kernel)⟩

theorem met_ReceiveSettings (h : Obligations.ReceiveSettings) :
    Completes (.recvSetCourse 0) (cmd 0x0301 (b1 127 ++ zeros 7 ++ [2, 3, 1, 30, 255, 64, 254, 0]) up) ∧
      Completes (.histSetCourse 0) (cmd 0x0304 (b1 127 ++ zeros 7 ++
        [2, 15, 0, 1, 4, 4, 0, 0] ++ b4 0 ++ b4 0x60000000) up) ∧
      Completes (.histSetWalk 0) (cmd 0x0305 (b2 255 ++ b2 1 ++ b4 1 ++ (List.replicate 64 (b2 2047)).flatten) up) ∧
      Completes (.rejSetCourse 0) (cmd 0x0401 (b1 127 ++ zeros 7 ++ b2 1023 ++ [0, 128, 1] ++ zeros 3) up) ∧
      Completes (.rejSetDevice 0) (cmd 0x0402 (b1 1 ++ zeros 7) up) ∧
      Completes (.recvSetThresholds 0) (cmd 0x0302 (b2 255 ++ b2 1 ++ zeros 4 ++ [1, 2, 3, 4]) up) := by
  obtain ⟨h1, h2, h3, h4, h5, h6⟩ := h
  exact ⟨met h1 _ _ rfl rfl rfl (by unfold AllGood; decide +kernel),
    met h2 _ _ rfl rfl rfl (by unfold AllGood; decide +kernel),
    met h3 _ _ rfl rfl rfl (by decide +kernel),
    met h4 _ _ rfl rfl rfl (by decide +kernel),
    met h5 _ _ rfl rfl rfl (by decide +kernel),
    met h6 _ _ rfl rfl rfl (by decide +kernel)⟩

theorem met_RingAndPhaseSettings (h : Obligations.RingAndPhaseSettings) :
    Completes (.dlvSetRing 0) (cmd 0x0501
      ([63, 1, 127, 127, 1, 24, 255, 0] ++ b8 4096 ++ b8 8 ++ b8 16 ++ b2 28 ++ b2 1000 ++ zeros 12) up) ∧
      Completes (.ringSetPhase 0) (cmd 0x0905 (b2 1 ++ b2 1 ++ zeros 4 ++ b2 7 ++ zeros 6) up) := by
  obtain ⟨h1, h2⟩ := h
  exact ⟨met h1 _ _ rfl rfl rfl (by decide +kernel),
    met h2 _ _ rfl rfl rfl (by unfold AllGood; decide +kernel)⟩

/-- A device whose staging set holds one setting. -/
def staged : State := { up with mbx.staging := [(7, .device true)] }

/-- The same setting committed, with no frame in force. -/
def committing : State := { up with mbx.commits := [⟨7, 0, true, [(7, .device true)]⟩] }

theorem met_CommitTakesTheStagingSet (h : Obligations.CommitTakesTheStagingSet) :
    Completes (.commit 0) (cmd 0x0D01 ([]) up) ∧
      Completes (.commit 0) (cmd 0x0D01 ([]) staged) ∧
      Completes (.stageDiscard 0) (cmd 0x0D02 ([]) staged) ∧
      Completes (.snapshot 0) (cmd 0x0D03 (b4 65535 ++ zeros 4) up) ∧
      Completes (.snapshot 0) (cmd 0x0D03 (b4 65535 ++ zeros 4) { up with angle.pred := .locked }) ∧
      Completes .commitApplyStopped committing := by
  obtain ⟨h1, h2, h3, h4, h5, h6⟩ := h
  exact ⟨met h1 _ _ rfl rfl rfl (by decide +kernel),
    met' h2 _ _ rfl rfl rfl (by decide +kernel),
    met h3 _ _ rfl rfl rfl (by decide +kernel),
    met h4 _ _ rfl rfl rfl (by decide +kernel),
    met' h5 _ _ rfl rfl rfl (by decide +kernel),
    either (h6 ⟨7, 0, true, [(7, .device true)]⟩ [] committing rfl rfl)⟩

theorem met_StatusReads (h : Obligations.StatusReads) :
    Completes (.gridGetColumns 0) (cmd 0x0202 ([]) up) ∧
      Completes (.angleStatus 0) (cmd 0x0205 ([]) up) ∧
      Completes (.tpmRead 0) (cmd 0x0209 (b4 (262144 - 65536) ++ b4 65536) up) ∧
      Completes (.dlvStatus 0) (cmd 0x0502 (b4 63) up) ∧
      Completes (.histInfo 0) (cmd 0x0505 ([]) up) ∧
      Completes (.esStatus 0) (cmd 0x0801 ([]) up) ∧
      Completes (.esChangelogRead 0) (cmd 0x080A ([]) up) ∧
      Completes (.esLedgerRead 0) (cmd 0x080B (b8 127) up) ∧
      Completes (.ringStatus 0) (cmd 0x0902 ([]) up) ∧
      Completes (.laneStatus 0) (cmd 0x0909 (b4 19) up) ∧
      Completes (.thStatus 0) (cmd 0x0A06 ([]) up) ∧
      Completes (.memStatus 0) (cmd 0x0B01 ([]) up) ∧
      Completes (.eccTableRead 0) (cmd 0x0B02 ([]) up) ∧
      Completes (.runStatus 0) (cmd 0x0D06 ([]) up) ∧
      Completes (.ledgerRead 0) (cmd 0x0C02 (b4 7 ++ b4 (regionSize 7 - 1) ++ b4 1) up) ∧
      Completes (.shotStatus 0) (cmd 0x020C ([255, 1, 0, 0]) up) ∧
      Completes (.recvStatus 0) (cmd 0x0303 (b2 255 ++ [1, 0]) up) ∧
      Completes (.histStatus 0) (cmd 0x0306 ([31, 1, 0, 0]) up) ∧
      Completes (.rejStatus 0) (cmd 0x0403 ([127, 1, 0, 0]) up) ∧
      Completes (.loopStatus 0) (cmd 0x0607 (b4 1) up) ∧
      settleLoop up = up ∧
      settleLoop looped = looped ∧
      Completes (.captStatus 0) (cmd 0x0705 ([1, 1, 0, 0]) up) := by
  obtain ⟨h1, h2, h3, h4, h5, h6, h7, h8, h9, h10, h11, h12, h13, h14, h15, h16, h17, h18, h19, h20, h21, h22, h23⟩ := h
  exact ⟨met h1 _ _ rfl rfl rfl (by decide +kernel),
    met h2 _ _ rfl rfl rfl (by decide +kernel),
    met h3 _ _ rfl rfl rfl (by decide +kernel),
    met h4 _ _ rfl rfl rfl (by decide +kernel),
    met h5 _ _ rfl rfl rfl (by decide +kernel),
    met h6 _ _ rfl rfl rfl (by decide +kernel),
    met h7 _ _ rfl rfl rfl (by decide +kernel),
    met h8 _ _ rfl rfl rfl (by decide +kernel),
    met h9 _ _ rfl rfl rfl (by decide +kernel),
    met h10 _ _ rfl rfl rfl (by decide +kernel),
    met h11 _ _ rfl rfl rfl (by decide +kernel),
    met h12 _ _ rfl rfl rfl (by decide +kernel),
    met h13 _ _ rfl rfl rfl (by decide +kernel),
    met h14 _ _ rfl rfl rfl (by decide +kernel),
    met h15 _ _ rfl rfl rfl (by decide +kernel),
    met h16 _ _ rfl rfl rfl (by decide +kernel),
    met h17 _ _ rfl rfl rfl (by decide +kernel),
    met h18 _ _ rfl rfl rfl (by decide +kernel),
    met h19 _ _ rfl rfl rfl (by decide +kernel),
    met' h20 _ _ rfl rfl rfl (by decide +kernel),
    h21 up rfl rfl,
    h22 looped rfl,
    met h23 _ _ rfl rfl rfl (by decide +kernel)⟩

/-- Nine planes of history, of which one holds frame 5 whole. -/
def kept5 : State :=
  { up with angle.frame := 5, dlv.depth := 9, dlv.planes := [(0, { frame := some 5, written := List.range 262144 })] }

/-- The READ_HISTORY command of the witness below. -/
def read5 : Bytes := b4 5 ++ b2 1 ++ [7, 7] ++ b4 262143 ++ b4 1 ++ b8 64 ++ zeros 16

theorem kept5_named : ∀ f ∈ namedFrames (begun 0x0504 (entry 0x0504 read5) (cmd 0x0504 read5 kept5)) 5 1,
    ∃ n k, f = some n ∧ planeOf (begun 0x0504 (entry 0x0504 read5) (cmd 0x0504 read5 kept5)) n = some k ∧
      planeClosed (plane (begun 0x0504 (entry 0x0504 read5) (cmd 0x0504 read5 kept5)) k) = true := by
  intro f hf
  have e : namedFrames (begun 0x0504 (entry 0x0504 read5) (cmd 0x0504 read5 kept5)) 5 1 = [some 5] := by decide +kernel
  rw [e, List.mem_singleton] at hf
  exact ⟨5, 0, hf, by decide +kernel, by decide +kernel⟩

theorem met_CourseAndTileCommands (h : Obligations.CourseAndTileCommands) :
    Completes (.shotCourseEnable 0) (cmd 0x020A (b8 1 ++ zeros 15 ++ [128]) up) ∧
      Completes (.shotScheduler 0) (cmd 0x020B (zeros 4) up) ∧
      Completes (.shotScheduler 0) (cmd 0x020B (b4 1) { up with mbx.armed := true }) ∧
      Completes (.shotScheduler 0) (cmd 0x020B (b4 1) { up with mbx.armed := true, shot.enabled := true }) ∧
      Completes (.shotScheduler 0) (cmd 0x020B (b4 1) up) ∧
      Completes (.histCaptureTile 0) (cmd 0x0307 (b4 262143 ++ zeros 4) up) ∧
      Completes (.histCaptureTile 0) (cmd 0x0307 (b4 262143 ++ zeros 4)
        { up with eng.capture := some ⟨1, 0, 0, false⟩ }) ∧
      Completes .captureTileTimeout { up with angle.tb := 1000000000, eng.capture := some ⟨1, 0, 0, false⟩ } ∧
      Completes (.freezeHistory 0) (cmd 0x0503 (zeros 4 ++ b4 1 ++ b4 2)
        { up with angle.frame := 2, dlv.depth := 16 }) ∧
      Completes (.freezeHistory 0) (cmd 0x0503 (b4 1 ++ b4 1 ++ b4 2) { up with dlv.frozen := [(1, 2)] }) ∧
      Completes (.readHistory 0) (cmd 0x0504 (read5) kept5) := by
  obtain ⟨h1, h2, h3, h4, h5, h6, h7, h8, h9, h10, h11⟩ := h
  exact ⟨met h1 _ _ rfl rfl rfl (by decide +kernel),
    met h2 _ _ rfl rfl rfl (by decide +kernel),
    met h3 _ _ rfl rfl rfl (by decide +kernel),
    met h4 _ _ rfl rfl rfl (by decide +kernel),
    met h5 _ _ rfl rfl rfl (by decide +kernel),
    met' h6 _ _ rfl rfl rfl (by decide +kernel),
    met h7 _ _ rfl rfl rfl (by decide +kernel),
    ⟨_, h8 { up with angle.tb := 1000000000, eng.capture := some ⟨1, 0, 0, false⟩ } ⟨1, 0, 0, false⟩ rfl (by decide)⟩,
    met h9 _ _ rfl rfl rfl (by decide +kernel),
    met h10 _ _ rfl rfl rfl (by decide +kernel),
    met' h11 _ _ rfl rfl rfl
      (⟨by decide +kernel, by decide +kernel, by decide +kernel, by decide +kernel, by decide +kernel, by decide +kernel, by decide +kernel, by decide +kernel, by decide +kernel, by decide +kernel, by decide +kernel, by decide +kernel, kept5_named, by decide +kernel⟩)⟩

theorem met_FilterAndLoopCommands (h : Obligations.FilterAndLoopCommands) :
    Completes (.filtConfig 0) (cmd 0x0601 ([1, 2, 0, 32] ++ zeros 68) up) ∧
      Completes (.filtControl 0) (cmd 0x0602 ([2, 0, 2, 15] ++ zeros 4) up) ∧
      Completes (.filtControl 0) (cmd 0x0602 ([2, 1, 2, 15] ++ zeros 4) looped) ∧
      Completes (.filtControl 0) (cmd 0x0602 ([2, 2, 2, 15] ++ zeros 4) looped) ∧
      Completes (.detConfig 0) (cmd 0x0603 ([1, 16, 1, 16] ++ b4 0x7FFFFF ++ b4 0x7FFFFF ++ b4
        (2 ^ 23 - 1) ++ b1 1 ++ zeros 7) up) ∧
      Completes (.loopConfig 0) (cmd 0x0604 ([0, 0, 8, 64, 0, 0, 0, 0] ++ b4 30000 ++ zeros 10 ++
        [0, 64] ++ zeros 4 ++ b4 1 ++ [1, 1] ++ b2 1 ++ zeros 12 ++ b2 32767 ++ zeros 10 ++ b4
        (2 ^ 17 - 1) ++ zeros 16) up) ∧
      Completes (.loopLoad 0) (cmd 0x0605 ([1, 1] ++ zeros 18 ++ b4 (2 ^ 32 - 65536) ++ zeros 176) up) ∧
      Completes (.loopControl 0) (cmd 0x0606 (b8 5) looped) ∧
      Completes (.loopControl 0) (cmd 0x0606 (b8 1) up) := by
  obtain ⟨h1, h2, h3, h4, h5, h6, h7, h8, h9⟩ := h
  exact ⟨met h1 _ _ rfl rfl rfl (by decide +kernel),
    met h2 _ _ rfl rfl rfl (by decide +kernel),
    met h3 _ _ rfl rfl rfl (by decide +kernel),
    met h4 _ _ rfl rfl rfl (by decide +kernel),
    met h5 _ _ rfl rfl rfl (by decide +kernel),
    met h6 _ _ rfl rfl rfl (by unfold AllGood; decide +kernel),
    met h7 _ _ rfl rfl rfl (by unfold AllGood; decide +kernel),
    met' h8 _ _ rfl rfl rfl (by decide +kernel),
    met (h9 notArmed) _ _ rfl rfl rfl (by decide +kernel)⟩

/-- A capture of one sample. -/
def oneSample : Capture :=
  { input := 0, kind := 2, pre := 1, post := 1, preValid := 1, clamped := false, tau := 0, trigTime := 0, shot := none, samples := [1, 2] }

theorem met_CaptureAndSensorCommands (h : Obligations.CaptureAndSensorCommands) :
    Completes (.captConfig 0) (cmd 0x0701 ([1, 0, 1, 1] ++ b2 1022 ++ b2 255 ++ b4 65535 ++ b4 65536 ++
      [1, 127] ++ b2 1023 ++ b4 65535 ++ b8 1) up) ∧
      Completes (.captConfig 0) (cmd 0x0701 ([1, 1, 1, 1] ++ b2 1022 ++ b2 255 ++ b4 65535 ++ b4 65536 ++
        [1, 127] ++ b2 1023 ++ b4 65535 ++ b8 1) up) ∧
      Completes (.captSetMask 0) (cmd 0x0702 ([1, 1, 64] ++ zeros 5 ++ (List.range 64).flatMap
        (fun k => b4 k ++ b4 1023)) up) ∧
      Completes (.captControl 0) (cmd 0x0703 (b8 1) up) ∧
      Completes (.captControl 0) (cmd 0x0703 (b8 1) { up with capt := [(1, { run := .capturing })] }) ∧
      Completes (.captControl 0) (cmd 0x0703 (b8 0x101) { up with capt := [(1, { cfg := some {} })] }) ∧
      Completes (.captControl 0) (cmd 0x0703 (b8 0x201) { up with capt := [(1, { run := .armed })] }) ∧
      Completes (.captRead 0) (cmd 0x0704 (b4 1 ++ b4 65535 ++ b4 1)
        { up with capt := [(1, { run := .done, held := some oneSample })] }) ∧
      Completes (.hkConfig 0) (cmd 0x0A01 ([15, 1, 6] ++ zeros 5 ++ b4 0x40000000 ++ zeros 128) up) ∧
      Completes (.hkSetSwitch 0) (cmd 0x0A04 ([35, 1, 1, 0] ++ b4 0 ++ b4 0x7FFFFFFF) up) ∧
      Completes (.hkRead 0) (cmd 0x0A03 ([35, 1, 1, 0]) up) ∧
      Completes (.hkCal 0) (cmd 0x0A02 ([]) up) ∧
      Completes (.hkCal 0) (cmd 0x0A02 ([]) { up with mbx.armed := true }) ∧
      Completes (.thConfig 0) (cmd 0x0A05 (b2 2320 ++ b2 2432 ++ b2 2592 ++ b2 80 ++ b2 80 ++ zeros 6) up) ∧
      Completes (.laneEyeScan 0) (cmd 0x0908 ([19, 34, 31, 64, 1, 63, 128, 1] ++ zeros 8)
        { up with lanes.lanes := [(19, { locked := true })] }) ∧
      Completes (.laneEyeScanDone [5])
        { up with angle.tb := 2 ^ 63, lanes.scan := some ⟨1, 19, 34, 1, 1, 0, 0, [], none⟩ } := by
  obtain ⟨h1, h2, h3, h4, h5, h6, h7, h8, h9, h10, h11, h12, h13, h14, h15, h16⟩ := h
  exact ⟨met h1 _ _ rfl rfl rfl (by unfold AllGood; decide +kernel),
    met h2 _ _ rfl rfl rfl (by unfold AllGood; decide +kernel),
    met h3 _ _ rfl rfl rfl (by unfold AllGood; decide +kernel),
    met h4 _ _ rfl rfl rfl (by decide +kernel),
    met' h5 _ _ rfl rfl rfl (by decide +kernel),
    met h6 _ _ rfl rfl rfl (by decide +kernel),
    met h7 _ _ rfl rfl rfl (by decide +kernel),
    met (h8 oneSample) _ _ rfl rfl rfl (by decide +kernel),
    met h9 _ _ rfl rfl rfl (by unfold AllGood; decide +kernel),
    met h10 _ _ rfl rfl rfl (by decide +kernel),
    met' h11 _ _ rfl rfl rfl (by decide +kernel),
    met' h12 _ _ rfl rfl rfl (by decide +kernel),
    met h13 _ _ rfl rfl rfl (by decide +kernel),
    met h14 _ _ rfl rfl rfl (by unfold AllGood; decide +kernel),
    met' h15 _ _ rfl rfl rfl (by unfold AllGood; decide +kernel),
    ⟨_, h16 [5] { up with angle.tb := 2 ^ 63, lanes.scan := some ⟨1, 19, 34, 1, 1, 0, 0, [], none⟩ } ⟨1, 19, 34, 1,
      1, 0, 0, [], none⟩ rfl rfl (by decide +kernel)⟩⟩

/-- Password 3 is sixteen zeros. -/
def keyed : State :=
  { up with es.passwords := [(3, some ⟨slotHash (zeros 16) (zeros 16), zeros 16⟩)] }

/-- A re-arm of mailbox 0 that has waited 100 ms. -/
def rearming : State :=
  { up with
    es.run := .rearmPending, es.time := 100000000
    es.rearm := some ⟨originPair up (.mailbox 0), 7, 0⟩ }

theorem met_SupervisorCommands (h : Obligations.SupervisorCommands) :
    Completes (.esUnlock 0) (cmd 0x0802 (b8 3 ++ zeros 16) keyed) ∧
      Completes (.esUnlock 0) (cmd 0x0802 (b8 3 ++ zeros 16) up) ∧
      Completes (.esUnlock 0) (cmd 0x0802 (b8 3 ++ zeros 16) { up with es.refusal := some 0 }) ∧
      Completes (.esLock 0) (cmd 0x0803 ([]) up) ∧
      Completes (.esStage 0) (cmd 0x0804 (b8 7 ++ b4 2 ++ b4 10000) { up with es.unlocked := some 0 }) ∧
      Completes (.esCommit 0) (cmd 0x0805 ([]) up) ∧
      Completes (.esCommit 0) (cmd 0x0805 ([]) { up with es.unlocked := some 0 }) ∧
      Completes (.esRearm 0) (cmd 0x0806 ([]) cleared) ∧
      Completes (.esConfirm 0) (cmd 0x0807 (b8 7) rearming) ∧
      Completes (.esTrip 0) (cmd 0x0808 ([]) up) ∧
      Completes (.esSetPassword 0) (cmd 0x0809 (b8 3 ++ zeros 16) { up with es.unlocked := some 3 }) := by
  obtain ⟨h1, h2, h3, h4, h5, h6, h7, h8, h9, h10, h11⟩ := h
  exact ⟨met h1 _ _ rfl rfl rfl (⟨rfl, by decide, rfl, rfl, decide_eq_true rfl⟩),
    met h2 _ _ rfl rfl rfl (by decide +kernel),
    met h3 _ _ rfl rfl rfl (by decide +kernel),
    met h4 _ _ rfl rfl rfl (by decide +kernel),
    met h5 _ _ rfl rfl rfl (by unfold AllGood; decide +kernel),
    met h6 _ _ rfl rfl rfl (by decide +kernel),
    met h7 _ _ rfl rfl rfl (by decide +kernel),
    met h8 _ _ rfl rfl rfl (by decide +kernel),
    met (h9 ⟨originPair up (.mailbox 0), 7, 0⟩) _ _ rfl rfl rfl (by decide +kernel),
    met h10 _ _ rfl rfl rfl (by decide +kernel),
    met h11 _ _ rfl rfl rfl (by decide +kernel)⟩

/-- Member 5 of a closed ring, which knows member 6. -/
def ringed : State :=
  { up with
    ring.run := .active, ring.bypass := false, ring.cfg := { up.ring.cfg with nodeId := 5, enable := true }
    ring.master := 5, ring.roster := [(6, ⟨1, 0, 0, 5, 5, 9, 0, 1, 1⟩)] }

theorem met_RingCommands (h : Obligations.RingCommands) :
    Completes (.ringConfig 0) (cmd 0x0901 (b2 5 ++ [1, 0, 2, 1, 0, 0] ++ b2 1000 ++ b2 1000 ++ b2 3600 ++ zeros 2) up) ∧
      Completes (.ringMembers 0) (cmd 0x0903 (zeros 8) up) ∧
      Completes (.ringMembers 0) (cmd 0x0903 (b2 1 ++ b2 1 ++ zeros 4 ++ b2 7) up) ∧
      Completes (.ringMembers 0) (cmd 0x0903 (b2 2 ++ b2 1 ++ zeros 4 ++ b2 5) ringed) ∧
      Completes (.ringLeave 0) (cmd 0x0904 ([]) ringed) ∧
      Completes (.ringLeave 0) (cmd 0x0904 ([]) { ringed with ring.run := .leaving }) ∧
      Completes (.ringQuarantineClear 0) (cmd 0x0906 (zeros 4) (modPort .e (fun x =>
        { x with run := .quarantined }) up)) ∧
      Completes (.ringPeerIdent 0) (cmd 0x0907 (b8 5 ++ zeros 32) ringed) ∧
      Completes (.ringPeerIdent 0) (cmd 0x0907 (b8 6 ++ zeros 32) ringed) := by
  obtain ⟨h1, h2, h3, h4, h5, h6, h7, h8, h9⟩ := h
  exact ⟨met h1 _ _ rfl rfl rfl (by unfold AllGood; decide +kernel),
    met h2 _ _ rfl rfl rfl (by decide +kernel),
    met h3 _ _ rfl rfl rfl (by unfold AllGood; decide +kernel),
    met h4 _ _ rfl rfl rfl (by unfold AllGood; decide +kernel),
    met' h5 _ _ rfl rfl rfl (by decide +kernel),
    met' h6 _ _ rfl rfl rfl (by decide +kernel),
    met h7 _ _ rfl rfl rfl (by decide +kernel),
    met h8 _ _ rfl rfl rfl (by decide +kernel),
    met' h9 _ _ rfl rfl rfl (by decide +kernel)⟩

/-- A device with nothing against arming. -/
def calibrated : State :=
  { up with
    hk.uncal := false, es.present := 0, mem.gib := 8
    recv := (List.range 256).map (fun c => (c, { rise := some {}, fall := some {} })) }

theorem met_MemoryLogAndRunCommands (h : Obligations.MemoryLogAndRunCommands) :
    Completes (.eccTableClear 0) (cmd 0x0B03 (b4 1) up) ∧
      Completes (.eccTableClear 0) (cmd 0x0B03 (b4 0) up) ∧
      Completes (.eccTest 0) (cmd 0x0B04 ([3, 0, 31] ++ zeros 5 ++ b8 15 ++ b8 (2 ^ 32 - 1) ++ zeros 8) up) ∧
      Completes (.eccTest 0) (cmd 0x0B04 ([3, 1, 31] ++ zeros 5 ++ b8 15 ++ b8 (2 ^ 32 - 1) ++ b8 127) up) ∧
      Completes (.eccTest 0) (cmd 0x0B04 ([3, 2, 31] ++ zeros 5 ++ b8 15 ++ zeros 16) up) ∧
      Completes (.logSetLimit 0) (cmd 0x0C01 (b2 0x0CFF ++ [1, 1] ++ zeros 4) up) ∧
      Completes (.logHostEvent 0) (cmd 0x0C03 (b2 0x0CFF ++ [3, 0] ++ zeros 12) up) ∧
      Completes (.runArm 0) (cmd 0x0D04 ([]) calibrated) ∧
      Completes (.runArm 0) (cmd 0x0D04 ([]) up) ∧
      Completes (.runArm 0) (cmd 0x0D04 ([]) { up with mbx.armed := true }) ∧
      Completes (.runDisarm 0) (cmd 0x0D05 ([]) up) := by
  obtain ⟨h1, h2, h3, h4, h5, h6, h7, h8, h9, h10, h11⟩ := h
  exact ⟨met h1 _ _ rfl rfl rfl (by decide +kernel),
    met h2 _ _ rfl rfl rfl (by decide +kernel),
    met h3 _ _ rfl rfl rfl (by unfold AllGood; decide +kernel),
    met h4 _ _ rfl rfl rfl (by unfold AllGood; decide +kernel),
    met h5 _ _ rfl rfl rfl (by unfold AllGood; decide +kernel),
    met h6 _ _ rfl rfl rfl (by decide +kernel),
    met h7 _ _ rfl rfl rfl (by decide +kernel),
    met h8 _ _ rfl rfl rfl (by decide +kernel),
    met h9 _ _ rfl rfl rfl (by decide +kernel),
    met h10 _ _ rfl rfl rfl (by decide +kernel),
    met h11 _ _ rfl rfl rfl (by decide +kernel)⟩
/-! ### Registers, windows, copies, power -/
/-- Every cause enabled and mapped to vector 63, whose message may be sent. -/
def armedIrq : State :=
  { up with
    pcie := { up.pcie with
      irqEnable := 2 ^ 22 - 1, irqMap := (List.range 22).map (fun n => (n, 63)), msixEnable := true
      msix := [(63, { masked := false })] } }

theorem met_CauseBitsSetWins (h1 : Obligations.CauseBitsSetWins) :
    Completes (.irqCauseClear 0 0) up ∧
      (∃ t, exec (.irqCauseClear 0x200000 0x200000) armedIrq = .next t ∧ t.out.length = 1) :=
  ⟨(h1 0 0 up rfl).imp fun _ x => x.1,
    (h1 0x200000 0x200000 armedIrq rfl).imp fun _ x => ⟨x.1,
      by rw [x.2.2.2 21 (by decide) rfl rfl rfl (by decide) rfl rfl rfl rfl]; rfl⟩⟩

/-- Cause 21 waits, disabled. -/
def waitingIrq : State := { armedIrq with pcie := { armedIrq.pcie with irqEnable := 0, irqCause := 2 ^ 21 } }

theorem met_EnablingSendsWaitingCauses (h1 : Obligations.EnablingSendsWaitingCauses) :
    (∃ t, exec (.irqEnableWrite 0x3FFFFF) up = .next t ∧ t.out = []) ∧
      (∃ t, exec (.irqEnableWrite 0x3FFFFF) waitingIrq = .next t ∧ t.out.length = 1) :=
  ⟨(h1 0x3FFFFF up rfl).imp fun _ x => ⟨x.1, x.2.2.2.1 (by decide)⟩,
    (h1 0x3FFFFF waitingIrq rfl).imp fun _ x => ⟨x.1,
      by rw [x.2.2.2.2 21 (by decide) rfl rfl rfl (by decide) (by decide) rfl rfl rfl rfl]; rfl⟩⟩

theorem met_MapChangesHoldForLaterMessages (h : Obligations.MapChangesHoldForLaterMessages) :
    (∃ t, exec (.irqMapWrite 5 0x3FFF) up = .next t ∧ irqVector t 20 = 255 ∧ irqVector t 21 = 63) ∧
      (raiseIrq 21 up).out = [] ∧
      raiseIrq 21 { up with pcie.irqCause := 2 ^ 21 } = { up with pcie.irqCause := 2 ^ 21 } ∧
      (raiseIrq 21 armedIrq).out.length = 1 := by
  obtain ⟨h1, h2, h3, h4⟩ := h
  exact ⟨(h1 5 0x3FFF up rfl).imp fun _ x => ⟨x.1, x.2.2.2 0 (by decide) (by decide) (by decide),
    x.2.2.2 1 (by decide) (by decide) (by decide)⟩,
    (h2 21 up (by decide) rfl).1,
    h3 21 { up with pcie.irqCause := 2 ^ 21 } rfl,
    by rw [h4 21 armedIrq (by decide) rfl rfl (by decide) rfl rfl rfl rfl]; rfl⟩

theorem met_TwoHalfReads (h : Obligations.TwoHalfReads) :
    Completes (.twoHalfLowRead .eccCeTotal false) up ∧
      Completes (.twoHalfLowRead (.eccEntryAddr 31) true) up ∧
      Completes (.twoHalfHighRead .eccCeTotal) (setShadow .eccCeTotal (some 7) up) ∧
      Completes (.twoHalfHighRead (.hodDescs 7)) up ∧
      (∃ t, exec (.twoHalfLowRead (.hodBytes 0) false) up = .next t ∧
        Completes (.twoHalfHighRead (.hodBytes 0)) t) := by
  obtain ⟨h1, h2, h3, h4, h5⟩ := h
  exact ⟨⟨_, h1 .eccCeTotal up rfl⟩,
    ⟨_, h2 (.eccEntryAddr 31) up rfl⟩,
    ⟨_, h3 .eccCeTotal 7 (setShadow .eccCeTotal (some 7) up) rfl (by decide +kernel)⟩,
    ⟨_, h4 (.hodDescs 7) up rfl (by decide +kernel)⟩,
    ⟨_, rfl, _, h5 (.hodBytes 0) up _ _ rfl rfl rfl rfl⟩⟩

/-- A device with 8 GiB of DRAM, its host area from address 0. -/
def dram8 : State := { up with mem.gib := 8 }

theorem met_WindowsAndRegisterAccesses (h : Obligations.WindowsAndRegisterAccesses) :
    Completes (.winBaseLoWrite 0xFFFFFFFF none) up ∧
      Completes (.winBaseLoWrite 0xFFFFFFFF (some 0xFFFFFFFF)) up ∧
      Completes (.bar2Read 0 4) dram8 ∧
      Completes (.bar2Write 0 [1]) dram8 ∧
      (Completes (.bar2Read 0 4) up ∧ Completes (.bar2Write 0 [1]) up) ∧
      Completes (.registerWrite 0xFFFFC (zeros 4)) up ∧
      Completes (.registerWrite 0x80000 (zeros 8)) up ∧
      Completes (.registerWrite 0xA0000 (zeros 8)) up ∧
      (Completes (.bar0BadAccess 2 4 true) up ∧ Completes (.bar0BadAccess 0 2 false) up) ∧
      Completes .hkLatch up ∧
      Completes .timeLoadNow up ∧
      Completes .timeLoadAtPps up ∧
      Completes .timeLoadAtPps { ringed with ring.cfg := { timeFromRing := true }, ring.master := 6 } ∧
      Completes .timeCancelLoad up := by
  obtain ⟨h1, h2, h3, h4, h5, h6, h7, h8, h9, h10, h11, h12, h13, h14⟩ := h
  exact ⟨⟨_, h1 0xFFFFFFFF up rfl⟩,
    ⟨_, h2 0xFFFFFFFF 0xFFFFFFFF up rfl⟩,
    ⟨_, h3 0 4 dram8 rfl rfl (by decide +kernel)⟩,
    (if k : allWritable dram8 0 1 = true then ⟨_, (h4 0 [1] dram8 rfl rfl (by decide +kernel)).1 k⟩ else ⟨_,
      (h4 0 [1] dram8 rfl rfl (by decide +kernel)).2 (Bool.eq_false_iff.2 k)⟩),
    ⟨⟨_, (h5 0 4 [1] up rfl).1 (.inr (by decide))⟩, ⟨_, (h5 0 4 [1] up rfl).2 (.inr (by decide))⟩⟩,
    ⟨_, h6 0xFFFFC (zeros 4) up rfl (by decide) rfl rfl (by decide)⟩,
    ⟨_, h7 0x80000 (zeros 8) up rfl (by decide) rfl rfl (by decide) (by decide)⟩,
    ⟨_, h8 (zeros 8) up rfl rfl⟩,
    ⟨⟨_, h9 2 4 true up rfl (by decide) (by decide)⟩, ⟨_, h9 0 2 false up rfl (by decide) (by decide)⟩⟩,
    ⟨_, h10 up rfl⟩,
    ⟨_, h11 up rfl⟩,
    ⟨_, h12 up rfl rfl⟩,
    ⟨_, h13 { ringed with ring.cfg := { timeFromRing := true }, ring.master := 6 } rfl rfl⟩,
    ⟨_, h14 up rfl⟩⟩

theorem sound7 : ∀ x, 7 ≤ x → x < 7 + ([1, 2] : Bytes).length →
    wordSyn (tabGet 0 dram8.mem.dram (x / 8)) = 0 ∧ channelUp dram8 (channelOf x) = true := by
  intro x a b
  rcases (by simp at b; omega : x = 7 ∨ x = 8) with rfl | rfl <;> decide +kernel

theorem met_DramWriteStoresItsBytes (h1 : Obligations.DramWriteStoresItsBytes) :
    dramByte (dramWrite 7 [1, 2] dram8) 8 = 2 ∧
      tabGet 0 (dramWrite 7 [1, 2] dram8).mem.dram 2 = 0 :=
  ⟨((h1 7 [1, 2] dram8).1 sound7).1 1 (by decide),
    ((h1 7 [1, 2] dram8).2 2 (by intro x a b; simp at b; omega)).1⟩

theorem met_PayloadSramReadsAndWrites (h : Obligations.PayloadSramReadsAndWrites) :
    tabGet none (sramWrite 0x3FFFF [9] up).mem.payload 0x3FFFF = some 9 ∧
      Completes (.payloadSramRead 0x3FFFC 4) { up with power.phase := .hostWait } ∧
      Completes (.registerWrite 0x7FFFC (zeros 8)) up := by
  obtain ⟨h1, h2, h3⟩ := h
  exact ⟨(h1 0x3FFFF [9] up (by decide)).1 0 (by decide),
    ⟨_, h2 0x3FFFC 4 _ rfl⟩,
    ⟨_, h3 0x7FFFC (zeros 8) up rfl (by decide) (by decide) (by decide)⟩⟩

/-- Channel 7 in the given state. -/
def hod7 (x : HodChannel) : State := { up with hod := [(7, x)] }

/-- A descriptor of one element, DRAM to DRAM. -/
def oneElement : HodDesc :=
  { ctrl := 3, elemSize := 1, counts := [1, 1, 1], srcSteps := [0, 0, 0], dstSteps := [0, 0, 0] }

theorem hod_completes
    (h : ∀ (ch : Fin 8) (host : List Byte) (re : Option (List Byte)) (s t : State) (d : HodDesc),
      (hod s ch.val).desc = some d → (hod s ch.val).fetch = none → (hod s ch.val).state = .running →
      (hod s ch.val).deviceOwned = false → hodStalled s d = false →
      advance ch.val d (elements d) host s = (none, t) →
        exec (.hodDescriptorComplete ch host re) s =
          .next (afterDone ch.val d re (signalDone ch.val d (flushRead d t)))) :
    Completes (.hodDescriptorComplete 7 [] none) (hod7 { state := .running, desc := some {} }) :=
  ⟨_, h 7 [] none (hod7 { state := .running, desc := some {} }) _ {} rfl rfl rfl rfl rfl rfl⟩

theorem met_HodChannelCommands (h : Obligations.HodChannelCommands) :
    (Completes (.hodDoorbell 7) up ∧ Completes (.hodAbort 7) (hod7 { state := .running }) ∧
      Completes (.hodDoorbell 7) (hod7 { state := .endHalt, haltAddr := 64 }) ∧
      Completes (.hodAbort 7) (hod7 { state := .error })) ∧
      (Completes (.hodDoorbell 7) (hod7 { deviceOwned := true }) ∧
        Completes (.hodAbort 7) (hod7 { state := .aborting })) ∧
      (Completes (.hodConfigWrite 7 .ctrl 0xFFFFFFFF) up ∧ Completes (.hodConfigWrite 7 .skipHi 0xFFFFFFFF) up) ∧
      Completes (.hodConfigWrite 7 .skipHi 1) (hod7 { state := .running }) ∧
      (Completes (.hodDescriptorFetch 7 none) (hod7 { state := .running, ctrl := 1, fetch := some 0 }) ∧
        Completes (.hodDescriptorFetch 7 none) (hod7 { state := .running, fetch := some 0 })) ∧
      Completes (.hodDescriptorComplete 7 [] none) (hod7 { state := .running, desc := some {} }) ∧
      Completes (.hodError 7 .descFetch 0 0 []) (hod7 { state := .running, fetch := some 64 }) ∧
      Completes (.hodAbortDone 7 0 []) (hod7 { state := .aborting }) := by
  obtain ⟨h1, h2, h3, h4, h5, h6, h7, h8⟩ := h
  exact ⟨⟨⟨_, ((h1 7 up rfl rfl).1 rfl).1⟩, ⟨_, ((h1 7 (hod7 { state := .running }) rfl rfl).2.1 rfl).2⟩, ⟨_,
    ((h1 7 (hod7 { state := .endHalt, haltAddr := 64 }) rfl rfl).2.2.1 rfl).1⟩, ⟨_,
    ((h1 7 (hod7 { state := .error }) rfl rfl).2.2.2 rfl).2⟩⟩,
    ⟨⟨_, (h2 7 (hod7 { deviceOwned := true }) rfl (.inl rfl)).1⟩, ⟨_,
      (h2 7 (hod7 { state := .aborting }) rfl (.inr rfl)).2⟩⟩,
    ⟨⟨_, (h3 7 0xFFFFFFFF up rfl rfl).1⟩, ⟨_, (h3 7 0xFFFFFFFF up rfl rfl).2.2.2.2⟩⟩,
    ⟨_, h4 7 .skipHi 1 (hod7 { state := .running }) rfl (by decide)⟩,
    ⟨⟨_,
      h5 7 none (hod7 { state := .running, ctrl := 1, fetch := some 0 }) 0 rfl rfl rfl (fun _ => rfl) (fun _ =>
      rfl)⟩, ⟨_,
      h5 7 none (hod7 { state := .running, fetch := some 0 }) 0 rfl rfl rfl (fun _ => rfl) (fun _ => rfl)⟩⟩,
    hod_completes h6,
    ⟨_, h7 7 0 0 [] (hod7 { state := .running, fetch := some 64 }) 64 rfl rfl rfl rfl rfl⟩,
    ⟨_, h8 7 0 [] (hod7 { state := .aborting }) rfl rfl⟩⟩

/-- The boot ROM looks for an image. -/
def inRom : State := { up with power.phase := .rom }

theorem rom_completes (sel : BitVec 2)
    (h : ∀ (sel : BitVec 2) (s : State), s.power.main = true → s.power.phase = .rom →
      let b := if s.power.selDue then sel.toNat else s.power.bootSel
      let s1 := { s with power.bootSel := b, power.selDue := false }
      (∀ k, chooseImage s1 b = some k → exec (.bootRomStart sel) s = .next { s1 with
        power.phase := .started, power.image := k, power.startedAt := now s, power.loaded := [], power.chunks := 0 }) ∧
      (chooseImage s1 b = none → exec (.bootRomStart sel) s = .next { s1 with
        power.phase := .hostWait, power.loaded := [], power.chunks := 0 })) :
    Completes (.bootRomStart sel) inRom := by
  have k := h sel inRom rfl rfl
  dsimp only at k
  rcases hc : chooseImage { inRom with
    power.bootSel := if inRom.power.selDue then sel.toNat else inRom.power.bootSel, power.selDue := false }
    (if inRom.power.selDue then sel.toNat else inRom.power.bootSel) with _ | x
  · exact ⟨_, k.2 hc⟩
  · exact ⟨_, k.1 x hc⟩

/-- No entry of the journal is bad anywhere. -/
def sound : JournalBad := ⟨[], [], [], []⟩

/-- Firmware started at 0; the instant is 400 ms later. -/
def starting : State := { up with power.phase := .started, angle.tb := 400000000 }

theorem met_BootCommands (h : Obligations.BootCommands) :
    Completes (.bootRomStart 3) inRom ∧
      Completes (.idBootChunk 0x8003FFFF) { up with power.phase := .hostWait } ∧
      Completes .idBootReset { up with power.phase := .hostReject } ∧
      Completes .hostLoadVerifyDone { up with power.phase := .hostVerify } ∧
      (Completes (.fwReady 0 0 sound) starting ∧
        Completes (.fwReady 1 2 sound) { starting with power.restartAt := some 0 } ∧ Completes (.fwReady 0 1 ⟨[0],
        [], [], []⟩) { starting with mbx.journal := [{}] }) ∧
      (Completes .fwReadyTimeout starting ∧ Completes .fwReadyTimeout { starting with power.image := 2 } ∧
        Completes .fwReadyTimeout { starting with power.restartAt := some 0 }) ∧
      Completes (.cpRestart true) up := by
  obtain ⟨h1, h2, h3, h4, h5, h6, h7⟩ := h
  exact ⟨rom_completes 3 h1,
    ⟨_, h2 0x8003FFFF { up with power.phase := .hostWait } rfl rfl (by decide) (by decide +kernel)⟩,
    ⟨_, h3 { up with power.phase := .hostReject } rfl rfl⟩,
    ⟨_, h4 { up with power.phase := .hostVerify } rfl rfl⟩,
    ⟨⟨_, (h5 0 0 sound starting rfl rfl (by decide)).1 rfl rfl⟩, ⟨_,
      (h5 1 2 sound { starting with power.restartAt := some 0 } rfl rfl (by decide)).2.1 rfl rfl⟩, ⟨_, (h5 0 1 ⟨[0],
      [], [], []⟩ { starting with mbx.journal := [{}] } rfl rfl (by decide)).2.2 (by decide)⟩⟩,
    ⟨⟨_, (h6 starting rfl rfl rfl (by decide)).1 rfl (by decide)⟩, ⟨_,
      (h6 { starting with power.image := 2 } rfl rfl rfl (by decide)).2.1 rfl rfl⟩, ⟨_,
      (h6 { starting with power.restartAt := some 0 } rfl rfl rfl (by decide)).2.2 rfl⟩⟩,
    ⟨_, h7 true up rfl⟩⟩

/-- VKA alone is present. -/
def vkaOnly : State := { State.reset with power.vka := true, power.warning := true, power.memory := true }

theorem met_PowerCommands (h : Obligations.PowerCommands) :
    Completes .vkaLoss up ∧
      Completes .vkaPowerup State.reset ∧
      Completes (.esPowerOn true 0) vkaOnly ∧
      Completes (.dieBPowerUp {}) vkaOnly ∧
      Completes (.mainPowerReturn {}) vkaOnly ∧
      Completes .railWarning up ∧
      Completes .railWarning { vkaOnly with power.rails := true } ∧
      Completes .memorySupplyLoss vkaOnly ∧
      Completes (.resetN 3 {} []) up ∧
      (Completes (.perstN []) up ∧ Completes (.hotReset []) up ∧ Completes (.functionLevelReset []) up) ∧
      (Completes (.busMasterEnable true true 2 5) { up with pcie.d3hot := true } ∧
        Completes (.busMasterEnable true true 2 5) { up with pcie.bme := false } ∧
        Completes (.busMasterEnable true true 2 5) up) ∧
      Completes .busMasterEnableCleared up ∧
      Completes .d3hotEntry up ∧
      Completes .d0Return { up with pcie.d3hot := true } ∧
      Completes .d0Return { up with pcie.d3hot := true, pcie.bme := false } := by
  obtain ⟨h1, h2, h3, h4, h5, h6, h7, h8, h9, h10, h11, h12, h13, h14, h15⟩ := h
  exact ⟨⟨_, h1 up rfl⟩,
    (h2 State.reset rfl).imp fun _ x => x.1,
    (h3 true 0 vkaOnly rfl rfl).imp fun _ x => x.1,
    ⟨_, h4 {} vkaOnly rfl rfl⟩,
    ⟨_, h5 {} vkaOnly rfl rfl rfl⟩,
    (h6 up rfl).imp fun _ x => x.1,
    (h7 { vkaOnly with power.rails := true } rfl rfl).imp fun _ x => x.1,
    (h8 vkaOnly rfl rfl).imp fun _ x => x.1,
    ⟨_, h9 3 {} [] up rfl⟩,
    ⟨⟨_, (h10 [] up rfl).1⟩, ⟨_, (h10 [] up rfl).2.1⟩, ⟨_, (h10 [] up rfl).2.2⟩⟩,
    ⟨⟨_, (h11 true true 2 5 { up with pcie.d3hot := true } rfl).1 rfl⟩, ⟨_,
      (h11 true true 2 5 { up with pcie.bme := false } rfl).2.1 rfl rfl⟩, ⟨_,
      (h11 true true 2 5 up rfl).2.2 rfl rfl⟩⟩,
    ⟨_, h12 up rfl⟩,
    ⟨_, h13 up rfl rfl⟩,
    ⟨_, h14 { up with pcie.d3hot := true } rfl rfl⟩,
    ⟨_, h15 { up with pcie.d3hot := true, pcie.bme := false } rfl rfl⟩⟩

/-- Every Mortar lane is locked and deskewed. -/
def trained : State :=
  { up with lanes.lanes := (List.range 12).map (fun i => (8 + i, { locked := true, deskewed := true })) }

/-- Die A is down and was started before; its reset is 100 ms old. -/
def dieADown : State := { up with power.dieA := false, angle.tb := 100000000, power.dieAAttempts := 3 }

theorem met_DieAAndMemoryChannels (h : Obligations.DieAAndMemoryChannels) :
    (Completes (.dieAReset .thermal) { up with th.shut := true } ∧
      Completes (.dieAReset .heartbeat) { up with angle.tb := 3000 }) ∧
      Completes .dieARestored dieADown ∧
      Completes .dieARestoreTimeout dieADown ∧
      (Completes (.heartbeatLoss true) { up with angle.tb := 3000, shot.hold := false } ∧
        Completes (.heartbeatLoss true) { up with angle.tb := 3000, shot.hold := true }) ∧
      Completes (.heartbeatLoss false) { up with angle.tb := 3000 } ∧
      Completes (.safetyHeartbeat true) up ∧
      Completes .mortarLinkUp { trained with lanes.mortarUp := false } ∧
      (Completes (.mortarLaneLoss 7) trained ∧ Completes (.mortarLaneLoss 11) trained) ∧
      (Completes (.mortarLaneRegained 7) { trained with lanes.maskAB := 127 } ∧
        Completes (.mortarLaneRegained 11) { trained with lanes.maskBA := 7 }) ∧
      Completes (.dramChannelFailed 3 0) up ∧
      Completes (.dramRetrain 3 true) up ∧
      Completes (.dramRetireDone 3) { up with mem.failed := 8 } := by
  obtain ⟨h1, h2, h3, h4, h5, h6, h7, h8, h9, h10, h11, h12⟩ := h
  exact ⟨⟨⟨_,
    h1 .thermal { up with th.shut := true } rfl rfl (fun _ => rfl) (fun x => DieAResetCause.noConfusion x)⟩, ⟨_,
    h1 .heartbeat { up with angle.tb := 3000 } rfl rfl (fun x => DieAResetCause.noConfusion x) (fun _ => by decide)⟩⟩,
    (h2 dieADown rfl rfl rfl rfl rfl).imp fun _ x => x.1,
    ⟨_, h3 dieADown rfl rfl rfl rfl rfl (by decide) (by decide)⟩,
    ⟨⟨_, (h4 { up with angle.tb := 3000, shot.hold := false } rfl (by decide)).1 rfl⟩, ⟨_,
      (h4 { up with angle.tb := 3000, shot.hold := true } rfl (by decide)).2 rfl⟩⟩,
    ⟨_, h5 { up with angle.tb := 3000 } rfl (by decide)⟩,
    ⟨_, (h6 up rfl rfl).2⟩,
    (h7 { trained with lanes.mortarUp := false } rfl (by decide) rfl rfl rfl (by decide +kernel)
      (by decide +kernel)).imp fun _ x => x.1,
    ⟨((h8 7 trained rfl (by decide +kernel)).1 (by decide) (by decide)).imp fun _ x => x.1,
      ((h8 11 trained rfl (by decide +kernel)).2 (by decide) (by decide)).imp fun _ x => x.1⟩,
    ⟨((h9 7 { trained with lanes.maskAB := 127 } rfl (by decide +kernel) (by decide +kernel)).1 (by decide)
      (by decide)).imp fun _ x => x.1,
      ((h9 11 { trained with lanes.maskBA := 7 } rfl (by decide +kernel) (by decide +kernel)).2 (by decide)
      (by decide)).imp fun _ x => x.1⟩,
    ⟨_, h10 3 0 up (by decide +kernel) (fun x => absurd x (by decide)) (fun x => absurd x (by decide))⟩,
    ⟨_, h11 3 up (by decide +kernel)⟩,
    (h12 3 { up with mem.failed := 8 } (by decide)).imp fun _ x => x.1⟩
/-! ### What happens by itself -/
theorem met_PredictorAndFrameCommands (h : Obligations.PredictorAndFrameCommands) :
    Completes .angleUpdate { up with loop.sent := [{}] } ∧
      (Completes .missedUpdate { up with angle.pred := .locked, angle.tb := 5000 } ∧
        Completes .missedUpdate { up with angle.pred := .locked, angle.tb := 5000, angle.missed := 2 }) ∧
      Completes (.indexEdge true 0) { up with angle.tb := 40, angle.hist := List.replicate 42 5 } ∧
      Completes .indexMissing { up with angle.pred := .locked, angle.uref := some 0, angle.u := 5 * 2 ^ 30 * 2 ^ 24 } ∧
      Completes (.columnBoundary 0) { up with angle.inFrame := true, angle.nextCol := 0, angle.frame := 0 } ∧
      Completes .frameBoundary { up with angle.pred := .locked, angle.frame := 0, angle.u := 2 ^ 56 } ∧
      Completes (.pickCrossing 1 0 [0]) up := by
  obtain ⟨h1, h2, h3, h4, h5, h6, h7⟩ := h
  exact ⟨⟨_, h1 { up with loop.sent := [{}] } {} [] rfl⟩,
    ⟨⟨_, (h2 { up with angle.pred := .locked, angle.tb := 5000 } (by decide) (by decide)).1 (.inr (by decide))⟩,
      ((h2 { up with angle.pred := .locked, angle.tb := 5000, angle.missed := 2 } (by decide) (by decide)).2 rfl
      (by decide)).imp fun _ x => x.1⟩,
    ⟨_, h3 true 0 320 { up with angle.tb := 40, angle.hist := List.replicate 42 5 } rfl rfl (by decide) rfl⟩,
    ⟨_,
      h4 { up with angle.pred := .locked, angle.uref := some 0, angle.u := 5 * 2 ^ 30 * 2 ^ 24 } 0 rfl rfl
      (by decide +kernel) (by decide)⟩,
    (h5 0 { up with angle.inFrame := true, angle.nextCol := 0, angle.frame := 0 } rfl (by decide +kernel)).imp fun
      _ x => x.1,
    ⟨_, h6 { up with angle.pred := .locked, angle.frame := 0, angle.u := 2 ^ 56 } (by decide +kernel)⟩,
    ⟨_, h7 1 0 [0] up rfl (by decide) (by decide) (by decide +kernel) (.inl (by decide +kernel))⟩⟩

theorem met_NextFrameOpens (h1 : Obligations.NextFrameOpens) :
    Completes .frameBoundary { up with angle.pred := .locked, angle.frame := 0, angle.u := 2 ^ 56 } :=
  (h1 { up with angle.pred := .locked, angle.frame := 0, angle.u := 2 ^ 56 } rfl (by decide)
    (by decide +kernel)).imp fun _ x => x.1

/-- Course 127 with one tile, one shot due now, and permission as given at the sample and now. -/
def due127 (sampled grant : Bool) : State :=
  { up with
    es.permit := grant, shot.granted := grant, shot.hold := false, shot.sampled := sampled
    shot.courses := [(127, { flights := [{}] })], eng.tiles := [{ course := 127 }] }

theorem met_LaunchFiresOrDenies (h1 : Obligations.LaunchFiresOrDenies) :
    (∃ t, exec (.shotLaunch 127 {} {}) (due127 true true) = .next t ∧ (fires t.out).length = 1) ∧
      (∃ t, exec (.shotLaunch 127 {} {}) (due127 true false) = .next t ∧ fires t.out = []) ∧
      (∃ t, exec (.shotLaunch 127 {} {}) (due127 false true) = .next t ∧ t.out = []) :=
  ⟨(h1 127 {} {} (due127 true true) {} { course := 127 } rfl (by decide +kernel) (by decide +kernel)).imp fun _ x =>
    ⟨x.1, by rw [(x.2.1 rfl (by decide +kernel)).1]; rfl⟩,
    (h1 127 {} {} (due127 true false) {} { course := 127 } rfl (by decide +kernel) (by decide +kernel)).imp fun
      _ x => ⟨x.1, (x.2.2.1 rfl (by decide +kernel)).1⟩,
    (h1 127 {} {} (due127 false true) {} { course := 127 } rfl (by decide +kernel) (by decide +kernel)).imp fun
      _ x => ⟨x.1, (x.2.2.2 rfl).1⟩⟩

/-- Channel 255 with the given window, and the tile of its course. -/
def windowed (w : Window) : State :=
  { up with recv := [(255, { windows := [w] })], eng.tiles := [{ course := 127 }], angle.tb := 1000 }

/-- The same course between the pulses of a double pulse. -/
def second127 (sampled : Bool) : State :=
  { due127 sampled true with shot.courses := [(127, { flights := [{ second := true }] })], angle.tb := 1000 }

theorem met_ReceiverCommands (h : Obligations.ReceiverCommands) :
    Completes (.shotDue 127)
      { up with angle.inFrame := true, angle.nextCol := 2049, eng.tiles := [{ course := 127, nOpen := 1 }] } ∧
      (Completes (.doublePulseSecond 127) (second127 true) ∧ Completes (.doublePulseSecond 127) (second127 false)) ∧
      Completes (.windowClose 255) (windowed { len := 1000 }) ∧
      Completes (.stampDelivery 255) (windowed { closed := true }) ∧
      Completes (.tdcCalibrationDone 255 {} {}) { up with angle.tb := 320 } ∧
      Completes (.lowDiscriminatorEdge 255 { n := 50 } none true) (windowed { len := 1000 }) := by
  obtain ⟨h1, h2, h3, h4, h5, h6⟩ := h
  exact ⟨⟨_,
    h1 127 { up with angle.inFrame := true, angle.nextCol := 2049, eng.tiles := [{ course := 127, nOpen := 1 }] }
    { course := 127, nOpen := 1 } rfl rfl (by decide +kernel) (by decide +kernel) (by decide +kernel)
    (by decide +kernel)⟩,
    ⟨((h2 127 (second127 true) { second := true } { course := 127 } (by decide +kernel) (by decide +kernel)
      (by decide +kernel)).1 rfl (by decide +kernel)).imp fun _ x => x.1, ⟨_,
      (h2 127 (second127 false) { second := true } { course := 127 } (by decide +kernel) (by decide +kernel)
      (by decide +kernel)).2 rfl⟩⟩,
    ⟨_, h3 255 (windowed { len := 1000 }) { len := 1000 } (by decide +kernel) (by decide +kernel)⟩,
    ⟨_, h4 255 (windowed { closed := true }) { closed := true } (by decide +kernel)⟩,
    (h5 255 {} {} { up with angle.tb := 320 } 0 (by decide +kernel) rfl (by decide) (by decide) (by decide)).imp fun
      _ x => x.1,
    ⟨_,
      h6 255 { n := 50 } none true (windowed { len := 1000 }) { len := 1000 } { course := 127 } (by decide +kernel)
      (by decide +kernel)⟩⟩

/-- A tile of engine 31. -/
def tile31 (g : TileStage) : Tile := { course := 127, stage := g }

theorem met_EngineCommands (h : Obligations.EngineCommands) :
    Completes (.engineP1Start 31) { up with eng.tiles := [tile31 .ready] } ∧
      Completes (.engineP1Done 31 0 0) { up with eng.tiles := [tile31 .p1] } ∧
      Completes (.engineP2Done 31 0 0) { up with eng.tiles := [tile31 .p2] } := by
  obtain ⟨h1, h2, h3⟩ := h
  exact ⟨⟨_,
    h1 31 { up with eng.tiles := [tile31 .ready] } (tile31 .ready) (by decide +kernel) (by decide +kernel)
    (by decide +kernel)⟩,
    ⟨_, h2 31 0 0 { up with eng.tiles := [tile31 .p1] } (tile31 .p1) (by decide +kernel) (by decide)⟩,
    ⟨_, h3 31 0 0 { up with eng.tiles := [tile31 .p2] } (tile31 .p2) (by decide +kernel) (by decide)⟩⟩

/-- Delivery ring 63 as given. -/
def ring63 (x : DlvRing) : State := { up with dlv.rings := [(63, x)], angle.tb := 16000 }

theorem met_DeliveryCommands (h : Obligations.DeliveryCommands) :
    Completes .recordArrival { up with dlv.link := [⟨0, 0, [], [], [], 0, 0, false⟩] } ∧
      Completes .recordCommit { up with dlv.written := [⟨0, 0, [], 0⟩] } ∧
      Completes .historySlotArrival { up with dlv.slots := [⟨0, 0, [], [], [], 0, 0, false⟩] } ∧
      Completes (.palletTimeout 63) (ring63 { seq := 1 }) ∧
      (Completes (.palletWrite 63 []) (ring63 { seq := 1, closed := [1] }) ∧
        Completes (.palletWrite 63 [])
        { ring63 { seq := 1, closed := [1] } with pcie.bme := false, ring := { ringed.ring with master := 6 } }) ∧
      Completes (.irqHoldoffEnd 63) (ring63 { seq := 1, pi := 1, irqPending := true }) ∧
      Completes (.ciPoll 63) (ring63 { seq := 1 }) ∧
      ((∃ t, exec (.ciReadComplete 63 1) (ring63 { seq := 1, pi := 1, ciRead := some 0 }) = .next t ∧
        (dring t 63).ci = 1) ∧ ∃ t,
        exec (.ciReadComplete 63 2) (ring63 { seq := 1, pi := 1, ciRead := some 0 }) = .next t ∧
        (dring t 63).ci = 0) ∧
      Completes .readHistoryDone { up with dlv.reads := [⟨1, 7, [], 1, 0, 1, 64⟩] } := by
  obtain ⟨h1, h2, h3, h4, h5, h6, h7, h8, h9⟩ := h
  exact ⟨⟨_, h1 { up with dlv.link := [⟨0, 0, [], [], [], 0, 0, false⟩] } ⟨0, 0, [], [], [], 0, 0,
    false⟩ [] rfl rfl rfl⟩,
    ⟨_, h2 { up with dlv.written := [⟨0, 0, [], 0⟩] } ⟨0, 0, [], 0⟩ [] rfl rfl⟩,
    ⟨_, h3 { up with dlv.slots := [⟨0, 0, [], [], [], 0, 0, false⟩] } ⟨0, 0, [], [], [], 0, 0,
      false⟩ [] rfl rfl rfl (by decide)⟩,
    ⟨_, h4 63 (ring63 { seq := 1 }) (by decide +kernel) (by decide +kernel)⟩,
    ⟨⟨_, (h5 63 [] (ring63 { seq := 1, closed := [1] }) rfl (by decide +kernel) (by decide +kernel)).1 rfl⟩, ⟨_,
      (h5 63 []
      { ring63 { seq := 1, closed := [1] } with pcie.bme := false, ring := { ringed.ring with master := 6 } } rfl
      (by decide +kernel) (by decide +kernel)).2 6 rfl⟩⟩,
    ⟨_,
      h6 63 (ring63 { seq := 1, pi := 1, irqPending := true }) rfl (fun _ x => by cases (show
      (none : Option Nat) = some _ from x)) rfl⟩,
    ⟨_, h7 63 (ring63 { seq := 1 }) rfl rfl (by decide +kernel) rfl⟩,
    ⟨(h8 63 1 (ring63 { seq := 1, pi := 1, ciRead := some 0 }) rfl rfl (by decide +kernel)).imp fun _ x => ⟨x.1,
      (x.2.2.1 (by decide +kernel) (by decide +kernel)).1⟩,
      (h8 63 2 (ring63 { seq := 1, pi := 1, ciRead := some 0 }) rfl rfl (by decide +kernel)).imp fun _ x => ⟨x.1,
      (x.2.2.2 (by decide +kernel)).1⟩⟩,
    (h9 { up with dlv.reads := [⟨1, 7, [], 1, 0, 1, 64⟩] } ⟨1, 7, [], 1, 0, 1,
      64⟩ [] rfl rfl rfl rfl).imp fun _ x => x.1⟩

/-- Vehicle time as given. -/
def timed (t : VehicleTime) : State := { up with time := t, angle.tb := 1500000001 }

theorem met_VehicleTimeCommands (h : Obligations.VehicleTimeCommands) :
    Completes .timePpsEdge (timed { loadPending := true }) ∧
      Completes .timePpsEdge (timed {}) ∧
      Completes .timePpsEdge (timed { discipline := true, v := 1000 }) ∧
      Completes .timePpsEdge (timed { discipline := true, v := 1001 }) ∧
      Completes .timeDisciplinedLapse (timed { disciplined := true, lastEdge := some 0 }) ∧
      edgeError 500000000 ≤ 500000000 := by
  obtain ⟨h1, h2, h3, h4, h5, h6⟩ := h
  exact ⟨(h1 (timed { loadPending := true }) rfl rfl rfl).imp fun _ x => x.1,
    ⟨_, h2 (timed {}) rfl rfl rfl rfl⟩,
    (h3 (timed { discipline := true, v := 1000 }) rfl rfl rfl rfl (by decide)).imp fun _ x => x.1,
    (h4 (timed { discipline := true, v := 1001 }) rfl rfl rfl rfl (by decide)).imp fun _ x => x.1,
    ⟨_, h5 (timed { disciplined := true, lastEdge := some 0 }) 0 rfl rfl (by decide)⟩,
    (h6 500000000).2.2⟩

/-- A mirror loop that is stopped, its chains running. -/
def mirror : State := { looped with loop.config := some { mode := 2 } }

/-- The PWM drive of a rotor. -/
def pwm (on : Bool) (n : Nat) : State :=
  { up with loop.config := some { pwm := true }, loop.driveOn := on, loop.pwmCycles := n }

theorem met_FilterAndLoopEvents (h : Obligations.FilterAndLoopEvents) :
    (Completes (.chainOutput 1 [0, 0, 0, 0]) mirror ∧ Completes (.chainOutput 0 [0, 0, 0, 0]) mirror) ∧
      Completes (.loopSelftestDone true) { up with loop.run := .selftest, loop.selftestOf := some 1 } ∧
      Completes .loopStartSlow { up with loop.run := .startup, angle.tb := 10000000000 } ∧
      (Completes (.pwmCycleStart 1) (pwm false 0) ∧ Completes (.pwmCycleStart 0) (pwm true 2) ∧
        Completes (.pwmCycleStart 1) (pwm true 1) ∧ Completes (.pwmCycleStart 1) (pwm true 2)) := by
  obtain ⟨h1, h2, h3, h4⟩ := h
  exact ⟨⟨⟨_, (h1 1 [0, 0, 0, 0] mirror rfl rfl rfl (by decide) rfl).1 (by decide +kernel)⟩, ⟨_,
    (h1 0 [0, 0, 0, 0] mirror rfl rfl rfl (by decide) rfl).2 (by decide +kernel)⟩⟩,
    ⟨_, h2 true 1 { up with loop.run := .selftest, loop.selftestOf := some 1 } rfl rfl⟩,
    ⟨_, h3 { up with loop.run := .startup, angle.tb := 10000000000 } rfl rfl (by decide)⟩,
    ⟨⟨_, (h4 1 (pwm false 0) rfl rfl).1 rfl⟩, ⟨_, (h4 0 (pwm true 2) rfl rfl).2.1 rfl (by decide)⟩, ⟨_,
      (h4 1 (pwm true 1) rfl rfl).2.2.1 rfl (by decide) (by decide)⟩,
      ((h4 1 (pwm true 2) rfl rfl).2.2.2 rfl (by decide) (by decide)).imp fun _ x => x.1⟩⟩

theorem met_SensorAndLogEvents (h : Obligations.SensorAndLogEvents) :
    Completes (.hkConversion 32767 true false) { up with hk.slot := 35, angle.tb := 36000 } ∧
      Completes .hkRoundBoundary { up with hk.slot := 36, angle.tb := 36000 } ∧
      Completes (.hkCalDone 167772 (2 ^ 30 - 21474836) ((List.range 48).map (fun i => nominalCurrent (i % 3 + 1))))
        { up with hk.cal := some (1, 0), angle.tb := 12000000 } ∧
      Completes (.tempReading 11 none) { up with power.dieA := false, angle.tb := 10000000 } ∧
      Completes .thRateMark { up with angle.tb := 10000000 } ∧
      Completes .thShutdownEntry { up with power.dieA := false, th.entry := some ⟨0, 0, 0, 0⟩ } ∧
      Completes .logWrite { up with log.lost := 1 } ∧
      Completes .logWrite { up with log.queue := [{ code := 0x0C01 }] } ∧
      Completes (.logTokenRefill 0x0601) up ∧
      Completes .hoursTick up ∧
      Completes .hoursTick { up with nv.hours := 63 } := by
  obtain ⟨h1, h2, h3, h4, h5, h6, h7, h8, h9, h10, h11⟩ := h
  exact ⟨⟨_, h1 32767 true false { up with hk.slot := 35, angle.tb := 36000 } rfl rfl (by decide) (by decide)⟩,
    ⟨_, h2 { up with hk.slot := 36, angle.tb := 36000 } rfl rfl (by decide) (by decide)⟩,
    (h3 167772 (2 ^ 30 - 21474836) ((List.range 48).map (fun i => nominalCurrent (i % 3 + 1)))
      { up with hk.cal := some (1, 0), angle.tb := 12000000 } 1 0 rfl rfl (by decide) (by decide) (by decide +kernel)
      (by decide +kernel)).imp fun _ x => x.1,
    ⟨_, h4 11 none { up with power.dieA := false, angle.tb := 10000000 } rfl rfl (.inl (by decide +kernel))⟩,
    ⟨_, h5 { up with angle.tb := 10000000 } rfl (by decide)⟩,
    (h6 { up with power.dieA := false, th.entry := some ⟨0, 0, 0, 0⟩ } ⟨0, 0, 0, 0⟩ rfl rfl).imp fun _ x => x.1,
    ⟨_, h7 { up with log.lost := 1 } rfl (by decide) (by decide)⟩,
    ⟨_, h8 { up with log.queue := [{ code := 0x0C01 }] } { code := 0x0C01 } [] rfl rfl rfl (by decide +kernel)⟩,
    ⟨_, h9 0x0601 up⟩,
    ⟨_, h10 up rfl (by decide)⟩,
    ⟨_, h11 { up with nv.hours := 63 } rfl (by decide)⟩⟩

/-- Capture unit 1 as given. -/
def unit1 (x : CaptUnit) : State := { up with capt := [(1, x)], angle.tb := 1000 }

theorem met_CaptureEvents (h : Obligations.CaptureEvents) :
    Completes (.captureTrigger 1 0 [0]) (unit1 { run := .armed, cfg := some { level := 500 } }) ∧
      Completes (.shotQualTimeout 1) (unit1 { run := .armed, quals := [⟨0, 0, 0⟩] }) ∧
      Completes (.maskViolation 1 []) (unit1
        { run := .capturing, held := some { samples := [9] }, upper := [(-64, 0), (64, 0)] }) ∧
      Completes (.captureComplete 1 []) (unit1 { run := .capturing, held := some { samples := [9] } }) ∧
      Completes (.captureHoldoffEnd 1) (unit1 { run := .holdoff }) := by
  obtain ⟨h1, h2, h3, h4, h5⟩ := h
  exact ⟨⟨_,
    h1 1 0 [0] (unit1 { run := .armed, cfg := some { level := 500 } }) rfl (by decide) (by decide)
    (by decide +kernel)⟩,
    ⟨_, h2 1 (unit1 { run := .armed, quals := [⟨0, 0, 0⟩] }) ⟨0, 0, 0⟩ [] rfl rfl (by decide +kernel)⟩,
    (h3 1 [] (unit1 { run := .capturing, held := some { samples := [9] }, upper := [(-64, 0), (64, 0)] })
      { samples := [9] } 0 true rfl rfl rfl (by decide +kernel) (by decide +kernel)).imp fun _ x => x.1,
    (h4 1 [] (unit1 { run := .capturing, held := some { samples := [9] } }) { samples := [9] } rfl rfl rfl
      (by decide) (by decide +kernel) (by decide +kernel)).imp fun _ x => x.1,
    ⟨_, h5 1 (unit1 { run := .holdoff }) rfl (by decide +kernel)⟩⟩
/-! ### The Emission Supervisor, the lanes and the ring -/
theorem met_CausesTripAndClear (h : Obligations.CausesTripAndClear) :
    (Completes (.esCauseArises 3) { cleared with loop.esInput := true } ∧
      Completes (.esCauseArises 3) { up with loop.esInput := true }) ∧
      takeCauses up = up ∧
      Completes (.esCauseClears 12) { up with es.present := 2 ^ 12 } ∧
      Completes .powerupHoldEnd { up with es.selftestOk := true, es.loaded := true, es.present := 1 } ∧
      Completes .safeAckRise cleared ∧
      Completes .safeAckRise up := by
  obtain ⟨h1, h2, h3, h4, h5, h6⟩ := h
  exact ⟨⟨((h1 3 { cleared with loop.esInput := true } rfl (by decide) rfl).1 (by decide)).imp fun _ x => x.1, ⟨_,
    (h1 3 { up with loop.esInput := true } rfl (by decide) rfl).2 rfl⟩⟩,
    h2 up (by decide),
    (h3 12 { up with es.present := 2 ^ 12 } rfl (by decide) rfl).imp fun _ x => x.1,
    (h4 { up with es.selftestOk := true, es.loaded := true, es.present := 1 } rfl rfl rfl (by decide)
      (by decide)).imp fun _ x => x.1,
    (h5 cleared rfl (by decide) (by decide) (by decide) (.inl ⟨by decide, by decide⟩)).imp fun _ x => x.1,
    ⟨_, h6 up rfl (by decide) (by decide)⟩⟩

/-- Limits of 1 on every window of port 127 and its group. -/
def limited : State :=
  { up with es.cfg := { limits := [(381, 1), (382, 1), (383, 1)], glimits := [(45, 1), (46, 1), (47, 1)] } }

/-- Member 5 whose ES receives this message. -/
def told (m : RingMessage) : State := { ringed with es.powered := true, ring.inbox := [m] }

/-- A state message of member 6, with its CRC. -/
def stateOf6 : Bytes := b2 6 ++ zeros 18 ++ b4 (crc32 (b2 6 ++ zeros 18))

/-- The paths of source 6: the secondary heard 1 ms after the primary. -/
def paths6 : State :=
  { ringed with
    es.time := 1000000, es.paths := [(6, { primary := { last := some [] }, secondary := { tick := 1000000 } })] }

theorem met_SupervisorEvents (h : Obligations.SupervisorEvents) :
    (Completes (.esPulseCount 127) limited ∧ Completes (.esPulseCount 127) up) ∧
      Completes (.ledgerBucketClose 2) { up with es.time := 312500000 } ∧
      (Completes (.esClockCheck 30000 true) up ∧ Completes (.esClockCheck 30001 true) up) ∧
      (Completes (.esSelftest false) up ∧ Completes (.esSelftest true) up) ∧
      Completes (.esCrcCheck 7) up ∧
      Completes .rearmTimeout
        { cleared with es.run := .rearmPending, es.time := 2000000000, es.rearm := some ⟨(0, 0), 7, 0⟩ } ∧
      Completes .esUnlockTimeout { up with es.unlocked := some 0, es.time := 60000000000 } ∧
      Completes .unlockRefusalEnd { up with es.refusal := some 0 } ∧
      Completes .safeAckFall up ∧
      Completes .esStateMessageSend { ringed with es.time := 20000 } ∧
      Completes .esStateMessage (told ⟨3, 1, 0, 0, 6, 0, stateOf6, 0⟩) ∧
      Completes .esStateMessage (told ⟨3, 1, 0, 0, 6, 0, [], 0⟩) ∧
      (Completes (.safePathTimeout 6 0) paths6 ∧
        Completes (.safePathTimeout 6 0) { paths6 with es.time := 2000000000 }) := by
  obtain ⟨h1, h2, h3, h4, h5, h6, h7, h8, h9, h10, h11, h12, h13⟩ := h
  exact ⟨⟨⟨_, (h1 127 limited rfl).1 (by decide +kernel)⟩, ⟨_, (h1 127 up rfl).2 0 false (by decide +kernel)⟩⟩,
    ⟨_, h2 2 { up with es.time := 312500000 } rfl (by decide)⟩,
    ⟨⟨_, (h3 30000 true up rfl).1 rfl (by decide)⟩, ((h3 30001 true up rfl).2 (.inr (by decide))).imp fun _ x => x.1⟩,
    ⟨(h4 up rfl).1.imp fun _ x => x.1, (h4 up rfl).2.imp fun _ x => x.1⟩,
    (h5 7 up rfl).imp fun _ x => x.1,
    ⟨_, h6 { cleared with es.run := .rearmPending, es.time := 2000000000, es.rearm := some ⟨(0, 0), 7, 0⟩ } ⟨(0, 0),
      7, 0⟩ rfl (by decide)⟩,
    ⟨_, h7 { up with es.unlocked := some 0, es.time := 60000000000 } rfl (by decide)⟩,
    ⟨_, h8 { up with es.refusal := some 0 } 0 rfl (by decide)⟩,
    ⟨_, h9 up rfl (by decide)⟩,
    ⟨_, h10 { ringed with es.time := 20000 } rfl rfl (by decide)⟩,
    ⟨_, h11 (told ⟨3, 1, 0, 0, 6, 0, stateOf6, 0⟩) _ ⟨3, 1, 0, 0, 6, 0, stateOf6,
      0⟩ rfl rfl rfl (by decide +kernel) (by decide +kernel)⟩,
    ⟨_, h12 (told ⟨3, 1, 0, 0, 6, 0, [], 0⟩) _ ⟨3, 1, 0, 0, 6, 0, [], 0⟩ rfl rfl rfl (.inl (by decide))⟩,
    ⟨⟨_,
      (h13 6 0 paths6 rfl rfl (.inl (by decide +kernel)) (by decide +kernel)).1 (by decide +kernel)
      (by decide +kernel)⟩, ⟨_,
      (h13 6 0 { paths6 with es.time := 2000000000 } rfl rfl (.inl (by decide +kernel)) (by decide +kernel)).2
      (by decide +kernel)⟩⟩⟩

/-- Port E in this state, at instant 4 ms. -/
def portE (x : RingPort) : State := { modPort .e (fun _ => x) up with angle.tb := 4000000000 }

/-- Lane 3, of port E, in lock. -/
def lane3 (x : RingPort) : State := { portE x with lanes.lanes := [(3, { locked := true })] }

/-- Lane 19 as given. -/
def lane19 (x : Lane) : State := { up with lanes.lanes := [(19, x)] }

theorem met_LaneEvents (h : Obligations.LaneEvents) :
    Completes (.portStateTimeout .e) (portE { run := .train }) ∧
      Completes (.portStateTimeout .e) (portE { run := .caps }) ∧
      Completes (.portStateTimeout .e) (portE { run := .detect }) ∧
      Completes (.laneTrained 3) (portE { run := .train }) ∧
      Completes (.laneTrained 8) { up with angle.tb := 10000 } ∧
      (Completes (.blockLockAcquired 19) (lane19 { trained := true }) ∧
        Completes (.blockLockAcquired 3) { portE { run := .lock } with lanes.lanes := [(3, { trained := true })] }) ∧
      (Completes (.tsBlock 3 false true false) (portE { run := .train }) ∧
        Completes (.tsBlock 3 true true false) (portE { run := .train })) ∧
      (Completes (.blockLockLost 3 []) (lane3 { run := .train }) ∧
        Completes (.blockLockLost 3 []) (lane3 { run := .active, rxMask := 2 }) ∧
        Completes (.blockLockLost 19 []) (lane19 { locked := true })) ∧
      (Completes (.alignBlock 3 true 0 7) (lane3 {}) ∧ Completes (.alignBlock 3 false 32 7) (lane3 {}) ∧
        Completes (.alignBlock 3 false 33 7) (lane3 {}) ∧
        Completes (.alignBlock 19 false 4 7) (lane19 { locked := true }) ∧
        Completes (.alignBlock 19 false 5 7) (lane19 { locked := true })) ∧
      Completes (.capsReceived .e (zeros 22 ++ b2 (crc16 (zeros 22)))) (portE { run := .caps }) ∧
      Completes (.partnerTerminationSensed .e) (portE { run := .detect }) ∧
      Completes (.quarantineRetry .e)
        { portE { run := .quarantined } with ring.cfg := { up.ring.cfg with quarRetry := 4 } } := by
  obtain ⟨h1, h2, h3, h4, h5, h6, h7, h8, h9, h10, h11, h12⟩ := h
  exact ⟨⟨_, h1 .e (portE { run := .train }) (by decide +kernel) (by decide +kernel)⟩,
    ⟨_, h2 .e (portE { run := .caps }) (.inr (by decide +kernel)) (by decide +kernel)⟩,
    ⟨_, h3 .e (portE { run := .detect }) (by decide +kernel) (by decide +kernel)⟩,
    ⟨_, h4 3 (portE { run := .train }) (by decide) (by decide +kernel)⟩,
    ⟨_, h5 8 { up with angle.tb := 10000 } (by decide) rfl (by decide +kernel) (by decide +kernel)⟩,
    ⟨⟨_, h6 19 (lane19 { trained := true }) (by decide +kernel) (by decide +kernel) (.inr ⟨by decide, rfl⟩)⟩, ⟨_,
      h6 3 { portE { run := .lock } with lanes.lanes := [(3, { trained := true })] } (by decide +kernel)
      (by decide +kernel) (.inl ⟨by decide, by decide +kernel⟩)⟩⟩,
    (h7 3 true false (portE { run := .train }) (by decide) (by decide +kernel)).imp (fun x => ⟨_, x⟩) (fun x => ⟨_, x⟩),
    ⟨⟨_, (h8 3 [] (lane3 { run := .train }) (by decide +kernel)).1 (by decide) (by decide +kernel)⟩, ⟨_,
      (h8 3 [] (lane3 { run := .active, rxMask := 2 }) (by decide +kernel)).2.1 (by decide) (by decide +kernel)
      (by decide +kernel)⟩, ⟨_, (h8 19 [] (lane19 { locked := true }) (by decide +kernel)).2.2 (by decide)⟩⟩,
    by
      have a := fun k => h9 3 k 7 (lane3 {}) (by decide +kernel) (.inl (by decide))
      have b := fun k => h9 19 k 7 (lane19 { locked := true }) (by decide +kernel) (.inr (by decide))
      exact ⟨⟨_, (a 0).1⟩, ⟨_, ((a 32).2.1 (by decide) (by decide +kernel)).1 (by decide)⟩, ⟨_,
        ((a 33).2.2 (by decide)).1 (by decide)⟩, ⟨_, ((b 4).2.1 (by decide) (by decide +kernel)).2 (by decide)⟩, ⟨_,
        ((b 5).2.2 (by decide)).2 (by decide)⟩⟩,
    ⟨_,
      h10 .e (zeros 22 ++ b2 (crc16 (zeros 22))) (portE { run := .caps }) (by decide +kernel) (by decide +kernel)
      (by decide +kernel)⟩,
    (h11 .e (portE { run := .detect }) (by decide +kernel)).imp fun _ x => x.1,
    (h12 .e { portE { run := .quarantined } with ring.cfg := { up.ring.cfg with quarRetry := 4 } }
      (by decide +kernel) (by decide +kernel) (by decide +kernel)).imp fun _ x => x.1⟩

/-- Port E in service, its lane 0 locked, a frame of 10 µs ago held and a probe out. -/
def linkE : State :=
  { modPort .e (fun _ => { run := .active, rxMask := 1, txMask := 1, replay := [⟨0, [], 0⟩], probe := some (5, 0) }) up with
    angle.tb := 10000, ring.syncPeriod := 10, lanes.lanes :=
      [(rxLane .e 0, { locked := true }), (rxLane .e 1, { locked := true })] }

theorem met_LinkBlocks (h1 : Obligations.LinkBlocks) :
    (Completes (.ackBlock .e 0) linkE ∧ Completes (.nakBlock .e 0 0) linkE ∧ Completes (.nakBlock .e 3 0) linkE ∧
      Completes (.creditBlock .e 960 64) linkE ∧ Completes (.replayTimeout .e) linkE ∧
      Completes (.probeSend .e) linkE ∧ Completes (.probeBlock .e false 127 0) linkE ∧
      Completes (.probeBlock .e true 5 0) linkE ∧ Completes (.restripeBlock .e 3) linkE ∧
      Completes (.restripeBlock .e 2) linkE ∧ Completes (.switchBlock .e 2 []) linkE ∧
      Completes (.leaveBlock .e 255) linkE ∧ Completes (.ringFrameReceived .e false []) linkE ∧
      Completes (.ringFrameReceived .e true []) linkE) :=
  by
    obtain ⟨a, b, c, d, e, f, g, j, k, l, m⟩ := h1 .e linkE (by decide +kernel)
    exact ⟨⟨_, a 0⟩, ⟨_, (b 0 0).1 (by decide)⟩, ⟨_, (b 3 0).2 rfl⟩, ⟨_, c 960 64⟩, ⟨_, d ⟨0, [],
      0⟩ [] (by decide +kernel) (by decide)⟩, ⟨_, e (by decide +kernel)⟩, ⟨_, f 127 0⟩, ⟨_,
      g 5 0 0 (by decide +kernel) (by decide)⟩, ⟨_, (j 3 (by decide) (by decide +kernel)).1 (by decide +kernel)⟩, ⟨_,
      (j 2 (by decide) (by decide +kernel)).2 (by decide +kernel)⟩, (k 2 [] (by decide) (by decide +kernel) ⟨1,
      by decide +kernel, by decide +kernel⟩).imp fun _ x => x.1, ⟨_, l 255 (by decide)⟩, ⟨_, (m []).1⟩, ⟨_, (m []).2⟩⟩

/-- Member 5 receiving this message. -/
def heard (m : RingMessage) : State := { ringed with ring.inbox := [m] }

theorem met_RingMembershipEvents (h : Obligations.RingMembershipEvents) :
    Completes .ringJoinTimeout { ringed with ring.run := .joining, ring.oneSince := some 0, angle.tb := 100000000 } ∧
      Completes .ringJoinTimeout { ringed with ring.run := .joining, angle.tb := 100000000 } ∧
      Completes .ringIsolatedRetry { ringed with ring.run := .isolated, angle.tb := 10000000000 } ∧
      Completes .ringLeavingDone { ringed with ring.run := .leaving } ∧
      Completes .announceSend ringed ∧
      Completes .announceReceived (heard ⟨1, 2, 1, 0, 6, 0, b2 6 ++ zeros 30, 0⟩) ∧
      Completes (.rosterExpiry 6) { ringed with angle.tb := 150000 } ∧
      Completes .syncSend { ringed with ring.sending := true, angle.tb := 50000 } ∧
      (Completes .syncReceived (heard ⟨1, 1, 1, 0, 6, 0, [], 0⟩) ∧
        Completes .syncReceived { heard ⟨1, 1, 1, 0, 5, 0, [], 0⟩ with ring.sending := true }) ∧
      Completes .syncLost { ringed with ring.syncAt := some 0, angle.tb := 200000 } := by
  obtain ⟨h1, h2, h3, h4, h5, h6, h7, h8, h9, h10⟩ := h
  exact ⟨⟨_,
    h1 { ringed with ring.run := .joining, ring.oneSince := some 0, angle.tb := 100000000 } 0 rfl rfl (by decide)⟩,
    (h2 { ringed with ring.run := .joining, angle.tb := 100000000 } rfl rfl (by decide)).imp fun _ x => x.1,
    (h3 { ringed with ring.run := .isolated, angle.tb := 10000000000 } rfl (by decide) (by decide)).imp fun _ x => x.1,
    ⟨_, h4 { ringed with ring.run := .leaving } rfl (.inl rfl)⟩,
    ⟨_, h5 ringed rfl (fun _ x => by cases x)⟩,
    ⟨_, h6 (heard ⟨1, 2, 1, 0, 6, 0, b2 6 ++ zeros 30, 0⟩) _ ⟨1, 2, 1, 0, 6, 0, b2 6 ++ zeros 30,
      0⟩ rfl rfl rfl (by decide +kernel)⟩,
    ⟨_, h7 6 { ringed with angle.tb := 150000 } ⟨1, 0, 0, 5, 5, 9, 0, 1, 1⟩ rfl (by decide +kernel)⟩,
    ⟨_, h8 { ringed with ring.sending := true, angle.tb := 50000 } (by decide) (fun _ => by decide)⟩,
    ⟨⟨_, (h9 (heard ⟨1, 1, 1, 0, 6, 0, [], 0⟩) _ ⟨1, 1, 1, 0, 6, 0, [], 0⟩ rfl rfl).1 (by decide)⟩, ⟨_,
      (h9 { heard ⟨1, 1, 1, 0, 5, 0, [], 0⟩ with ring.sending := true } _ ⟨1, 1, 1, 0, 5, 0, [],
      0⟩ rfl rfl).2 rfl rfl⟩⟩,
    ⟨_, h10 { ringed with ring.syncAt := some 0, angle.tb := 200000 } 0 rfl rfl rfl (by decide)⟩⟩

/-- A pallet of one record from member 6, for vector 0xFF. -/
def pallet6 : RingMessage := ⟨2, 1, 1, 0, 6, 0, zeros 5 ++ [1, 255] ++ zeros 89, 0⟩

/-- The sink receiving it: what it expects of member 6 next is this sequence number. -/
def sink (q : Nat) : State := { heard pallet6 with ring.sinkPi := [(6, 0, 0)], ring.eseqIn := [(6, q)] }

/-- A ring message of member 6 with the payload given. -/
def from6 (cls typ : Nat) (p : Bytes) : RingMessage := ⟨cls, typ, 1, 0, 6, 0, p, 0⟩

theorem met_RingMessages (h : Obligations.RingMessages) :
    (Completes .palletReceived (sink 0) ∧ Completes .palletReceived (sink 1)) ∧
      Completes .palletAck (heard (from6 2 2 (zeros 4))) ∧
      Completes (.ciReadMessage 9) (heard (from6 2 3 (zeros 16))) ∧
      Completes (.ciReadMessage 9)
        { heard (from6 2 3 (zeros 4 ++ [1, 63] ++ zeros 10)) with dlv.rings := [(63, { ciRead := some 0 })] } ∧
      Completes .e2eResend { ringed with ring.unacked := [⟨6, 0, 2, 1, [], 0⟩], angle.tb := 500000 } ∧
      Completes .mgmtCommand (heard (from6 4 1 (zeros 7 ++ [1] ++ zeros 72))) ∧
      Completes .mgmtResult (heard (from6 4 2 (zeros 7 ++ [1] ++ zeros 8))) ∧
      Completes (.remoteTimeout 7) { ringed with ring.remote := [⟨7, 6, 1, 0, 1⟩], angle.tb := 1000000000 } := by
  obtain ⟨h1, h2, h3, h4, h5, h6, h7, h8⟩ := h
  exact ⟨⟨⟨_,
    (h1 (sink 0) _ pallet6 rfl rfl rfl (by decide) (by decide) (by decide) (by decide)).1 (by decide +kernel)⟩, ⟨_,
    (h1 (sink 1) _ pallet6 rfl rfl rfl (by decide) (by decide) (by decide) (by decide)).2 (by decide +kernel)⟩⟩,
    ⟨_, h2 (heard (from6 2 2 (zeros 4))) _ (from6 2 2 (zeros 4)) rfl⟩,
    ⟨_, h3 9 (heard (from6 2 3 (zeros 16))) _ (from6 2 3 (zeros 16)) rfl (by decide) rfl rfl (by decide)⟩,
    ⟨_,
      h4 9 { heard (from6 2 3 (zeros 4 ++ [1, 63] ++ zeros 10)) with dlv.rings := [(63, { ciRead := some 0 })] } _
      (from6 2 3 (zeros 4 ++ [1, 63] ++ zeros 10)) rfl (by decide) (by decide) (by decide) (by decide +kernel)⟩,
    ⟨_, h5 { ringed with ring.unacked := [⟨6, 0, 2, 1, [], 0⟩], angle.tb := 500000 } ⟨⟨6, 0, 2, 1, [], 0⟩, by decide,
      by decide⟩⟩,
    ⟨_,
      h6 (heard (from6 4 1 (zeros 7 ++ [1] ++ zeros 72))) _ (from6 4 1 (zeros 7 ++ [1] ++ zeros 72)) rfl rfl rfl
      (by decide) (by decide) _ _ rfl⟩,
    ⟨_,
      h7 (heard (from6 4 2 (zeros 7 ++ [1] ++ zeros 8))) _ (from6 4 2 (zeros 7 ++ [1] ++ zeros 8)) rfl rfl
      (by decide) (by decide) _ _ rfl⟩,
    ⟨_, h8 7 { ringed with ring.remote := [⟨7, 6, 1, 0, 1⟩], angle.tb := 1000000000 } ⟨7, 6, 1, 0,
      1⟩ rfl rfl rfl rfl (.inl (by decide))⟩⟩

/-! ### Ill-formed commands

One command for each check of WellFormed.lean, which refuses it. -/

theorem test_commandCheck_ill : wellFormed (.commandCheck 0 (some (List.replicate 524289 0))) = false := by
  simp only [wellFormed, List.length_replicate]; decide
theorem test_laneEyeScanDone_ill : wellFormed (.laneEyeScanDone (List.replicate 8193 0)) = false := by
  simp only [wellFormed, List.length_replicate]; decide
theorem test_hkCalDone_ill : wellFormed (.hkCalDone 0 0 []) = false := by decide
theorem test_hodDescriptorFetch_ill : wellFormed (.hodDescriptorFetch 0 (some [1])) = false := by decide
theorem test_hodDescriptorComplete_ill : wellFormed (.hodDescriptorComplete 0 [] (some [1])) = false := by decide
theorem test_bar2Read_ill : wellFormed (.bar2Read 0 0) = false := by decide
theorem test_bar2Write_ill : wellFormed (.bar2Write 0x0FFFFFFF [1, 2]) = false := by decide
theorem test_payloadSramRead_ill : wellFormed (.payloadSramRead 0x3FFFD 4) = false := by decide
theorem test_registerWrite_ill : wellFormed (.registerWrite 0xFFFFF [1, 2]) = false := by decide
theorem test_hkConversion_ill : wellFormed (.hkConversion 32768 false false) = false := by decide
theorem test_dieBPowerUp_ill : wellFormed (.dieBPowerUp ⟨8533, 0, []⟩) = false := by decide
theorem test_mainPowerReturn_ill : wellFormed (.mainPowerReturn ⟨3200, 0, [0, 0, 0, 0]⟩) = false := by decide
theorem test_resetN_ill : wellFormed (.resetN 0 ⟨8533, 0, [0, 0, 0, 0]⟩ [⟨0, 0, []⟩, ⟨0, 1, []⟩]) = false := by decide
theorem test_perstN_ill : wellFormed (.perstN [⟨7, 0, []⟩, ⟨7, 1, []⟩]) = false := by decide
theorem test_hotReset_ill : wellFormed (.hotReset [⟨7, 0, []⟩, ⟨7, 1, []⟩]) = false := by decide
theorem test_functionLevelReset_ill : wellFormed (.functionLevelReset [⟨7, 0, []⟩, ⟨7, 1, []⟩]) = false := by decide
theorem test_blockLockLost_ill : wellFormed (.blockLockLost 0 (List.replicate 4117 0)) = false := by
  simp only [wellFormed, List.length_replicate]; decide
theorem test_switchBlock_ill : wellFormed (.switchBlock .e 1 (List.replicate 4117 0)) = false := by
  simp only [wellFormed, List.length_replicate]; decide
theorem test_maskViolation_ill : wellFormed (.maskViolation 0 [1023, 1024]) = false := by decide
theorem test_captureComplete_ill : wellFormed (.captureComplete 0 [1024]) = false := by decide
theorem test_tempReading_ill : wellFormed (.tempReading 0 (some (-32769))) = false := by decide
theorem test_capsReceived_ill : wellFormed (.capsReceived .e []) = false := by decide
theorem test_ringFrameReceived_ill : wellFormed (.ringFrameReceived .e false (List.replicate 19 0)) = false := by decide
theorem test_probeBlock_ill : wellFormed (.probeBlock .w false 128 0) = false := by decide
theorem test_bar2Write_well : wellFormed (.bar2Write 0x0FFFFFFF [1]) = true := by decide

/-! ### Worked examples of the manual -/

/-- 00: the boundary of column 1024 of an even table of a whole turn stands at 2^31 counts. -/
theorem test_even_table : colEntry (.even 0 0) 1024 = 2 ^ 31 := by decide
/-- 02: the even table of the mirror example has columns of 1,677,721.0 counts. -/
theorem test_mirror_table : colEntry (.even 0 0xCCCCC800) 1 = 1677721 := by decide
/-- 03: the rotor chain has T_out 10,000 ns, a group delay of 266 samples and 7 unsettled outputs. -/
theorem test_rotor_chain :
    let x : Chain := { cicDec := 8, firLen := 64, firDec := 25 }
    tOut x = 10000 ∧ groupDelay x = 266 ∧ unsettledCount x = 7 := by decide
/-- 03: the preset of the integrator keeps the drive at the rail at a swap, and the next period leaves it. -/
theorem test_preset :
    let c : StageCoef := { b0 := 49152, b1 := -32768, a1 := -65536, exp := -2 }
    let a := runStage false c (-2) (some (-131072)) { x1 := -2000, y1 := -131072 } 4000
    a.out = -131072 ∧ (runStage false c (-2) none a.st 4100).out = -129997 := by decide
/-- 04: columns 1 and 3 of Table SHOT-7. -/
theorem test_allocation :
    let t : Tile :=
      { course := 37, column := 1, alloc := { mode := 2 }, cap := 65536, width := 2097152, slotCounts := 232272 }
    let x : AllocSet := { dPrev := 65536, spend := 2 }
    let y : AllocSet := { dPrev := 65536, spend := 17 }
    let r := allocate { t with column := 3 } 6 y
    (allocate t 48 x).1 = 9 ∧ r.1 = 1 ∧ r.2.2.carry = 32768 := by
  decide +kernel
/-- 05: the echo of the worked example is the word 0x1F513730. -/
theorem test_stamp :
    let r : Factors := { k1 := 1048, k2 := 2120 }
    let f : Factors := { k1 := 1032, k2 := 2096 }
    let p := posOf ⟨2002, 180⟩ r
    let d := classify (posSub p (posOf ⟨1000, 200⟩ r))
    stampWord d.2.2 (widthOf p (some ⟨2009, 150⟩) f) false d.2.1 false false = 0x1F513730 := by decide +kernel
/-- 06: walk corrections of the worked example: 152 for width 115, 145 for 120, 150 for 116. -/
theorem test_walk :
    let t : List Int := List.replicate 27 0 ++ [162, 156, 150, 145]
    walkOf t 115 = 152 ∧ walkOf t 120 = 145 ∧ walkOf t 118 = 148 := by decide
/-- 06: the peak of Table HIST-5 lies 5 steps below the middle of fine bin 57. -/
theorem test_vertex :
    let m : Tab Nat := [(55, 2), (56, 3), (57, 6), (58, 2)]
    finePeak m = (57, 6) ∧ vertex m 57 6 = -5 := by decide
/-- 06: TOF 1,022,805 at the default refractive index is RANGE 598,724; x = 9.75 is SNR 79. -/
theorem test_range : rangeOf 1022805 0x40046C76 = 598724 := by decide +kernel
/-- 06: v = 10 over a floor F16 = 4 is SNR 79. -/
theorem test_snr : snrOf 10 4 = 79 := by decide +kernel
/-- 07: sixteen shifts of the first dither, and its spans of 256 and 16 ns. -/
theorem test_dither : ditherStep 1 = 0x7C41 ∧ ditherOf 8 0x7C41 = 124 ∧ ditherOf 4 0x7C41 = 7 := by decide +kernel
/-- 08: bytes 16 to 27 of the record of tile 77,276. -/
theorem test_return_bytes :
    retBytes ⟨0, 10, 1022805, 598724, 11624, 112, 79, 0⟩ =
      [0x55, 0x9B, 0x0F, 0xC4, 0x22, 0x09, 0x68, 0x2D, 0x70, 0x4F, 0, 0] := by decide
/-- 09: samples of 430 and 610 cross 512 at 29/64. -/
theorem test_crossing : crossingOf 430 610 512 = some (true, 29) := by decide
/-- 15: the last element of the history copy. -/
theorem test_last_element :
    let d : HodDesc :=
      descOf (b4 0x17 ++ b4 1024 ++ b8 0x091F4400 ++ b8 0x4012345003 ++ b2 15 ++ b2 3 ++ b2 0 ++ b2 0 ++
      b4 2048 ++ b4 4194304 ++ b4 0 ++ b4 1024 ++ b4 16384 ++ b4 0 ++ b8 0)
    elements d = 64 ∧ srcAddr d 63 = 165657600 ∧ dstAddr d 63 = 0x4012354C03 := by decide +kernel
/-- 15: with a max payload of 512 B, element 0 leaves as a head of 509, 512 and a tail of 3 bytes. -/
theorem test_host_pieces :
    ((hostPieces 512 false 4 0x5003 (zeros 1024)).map (fun x => match x with
      | .hostWrite a bs _ => (a, bs.length)
      | _ => (0, 0))) = [(0x5003, 509), (0x5200, 512), (0x5400, 3)] := by decide +kernel
/-- 00, 16: tile 77,276, which is course 37, column 1500, of plane 37 has its slot at 0x6296EE000, on channel 0. -/
theorem test_slot : slotAddr 37 (2048 * 37 + 1500) = 0x6296EE000 ∧ channelOf 0x6296EE000 = 0 := by decide +kernel
/-- 21: an 8-byte write of 0x0000000629600000 at 0x000A0000 sets the window base. -/
theorem test_window_base :
    (match execRegisterWrite 0xA0000 (b8 0x629600000) up with
      | .next t => t.pcie.winBase
      | _ => 0) = 0x629600000 := by decide +kernel
/-- 17: an NTC of 3,600 Ohm at 100 uA reads 49.91 degrees; binary32 arithmetic moves that by less than 0.001. -/
theorem test_ntc :
    (match curveExact 2 (b4 0x4576E000 ++ b4 0x461C4000) ⟨36, 100⟩ (exInt 0) 100000000 0 0 with
      | some (x, m) => decide (rne (100 * x.num) x.den = 4991 ∧ curveBound m ≤ 64)
      | none => false) = true := by decide +kernel
/-- 20: the balls of course 37 (channels 74 and 75) and of FIRE port 37. -/
theorem test_balls :
    (courseBalls 37).map ballName = ["E31", "E32", "E33", "E34", "E35", "E36"] ∧
      (portBalls 37).map ballName = ["BC16", "BC17", "BC18"] := by decide +kernel

end Sys2Proof.Tests
end

section
/-! Facts about repetition, bitmaps and sparse tables that the proofs below share. -/

namespace Sys2Proof

open Sys2Proof.Machine

/-! ### Repetition -/

/-- A loop whose every turn leaves the state as it is. -/
theorem forUpto_of_idle {σ : Type} {n : Nat} {f : Nat → σ → σ} {s : σ} (h : ∀ k < n, f k s = s) :
    forUpto n f s = s := by
  induction n with
  | zero => rfl
  | succ n ih =>
    rw [forUpto, ih fun k hk => h k (by omega)]
    exact h n (by omega)

/-- A loop in which turn `n` alone does something. -/
theorem forUpto_of_one {σ : Type} {m n : Nat} {f : Nat → σ → σ} {s : σ} (hn : n < m) (before : ∀ k < n, f k s = s)
    (after : ∀ k < m, n < k → f k (f n s) = f n s) : forUpto m f s = f n s := by
  induction m with
  | zero => omega
  | succ m ih =>
    rcases Nat.lt_succ_iff_lt_or_eq.1 hn with h | rfl
    · rw [forUpto, ih h fun k hk => after k (by omega)]
      exact after m (by omega) h
    · rw [forUpto, forUpto_of_idle before]

/-- What every turn of a loop keeps, the loop keeps. -/
theorem forUpto_field {σ α : Type} {n : Nat} {f : Nat → σ → σ} (g : σ → α) (h : ∀ k u, g (f k u) = g u) (s : σ) :
    g (forUpto n f s) = g s := by
  induction n with
  | zero => rfl
  | succ n ih => rw [forUpto, h, ih]

/-- What every visit of a list keeps, the walk over the list keeps. -/
theorem forEach_field {α β σ : Type} {f : α → σ → σ} (g : σ → β) (h : ∀ a u, g (f a u) = g u) (l : List α) (s : σ) :
    g (forEach l f s) = g s := by
  induction l generalizing s with
  | nil => rfl
  | cons a l ih => rw [forEach, ih, h]

/-! ### Bitmaps -/

/-- Bit `k` of a bitmap is its `k`-th flag, and 0 past the last. -/
theorem testBit_bitmap (l : List Bool) (k : Nat) : (bitmap l).testBit k = l.getD k false := by
  induction l generalizing k with
  | nil => simp [bitmap]
  | cons b l ih =>
    cases k with
    | zero => cases b <;> simp [bitmap, b2n, Nat.testBit_zero]
    | succ k =>
      have half : bitmap (b :: l) / 2 = bitmap l := by
        cases b <;> simp only [bitmap, b2n, if_true, Bool.false_eq_true, if_false] <;> omega
      rw [Nat.testBit_succ, half, ih, List.getD_cons_succ]

/-- Bit `k` of the bitmap of a predicate over the indexes below `n`. -/
theorem testBit_bitmapOf (n : Nat) (p : Nat → Bool) (k : Nat) :
    (bitmapOf n p).testBit k = (decide (k < n) && p k) := by
  rw [bitmapOf, testBit_bitmap]
  by_cases h : k < n <;> simp [h]

/-! ### Sparse tables -/

/-- A value that is not the default reads back, in canonical form or not. -/
theorem tabGet_set_of_ne {α : Type} [DecidableEq α] {d x : α} (m : Tab α) (k : Nat) (h : x ≠ d) :
    tabGet d (tabSet d m k x) k = x := by
  rw [tabSet, if_neg h, tabGet_insert, if_pos rfl]

end Sys2Proof
end

section
/-! The invariant along a step (O5) and after reset (O6): what each command can do is said once, by whether it may set the
permit pair or put out a pulse, and a step is a command or a tick. -/

namespace Sys2Proof

open Sys2Proof.Machine

/-- The commands that may set the permit pair (10 R218, R222). -/
def grantsPermit : Instr → Bool
  | .esConfirm _ | .safeAckRise => true
  | _ => false

/-- The commands that may put out a FIRE pulse (04 R86, R88). -/
def firesPulse : Instr → Bool
  | .shotLaunch .. | .doublePulseSecond _ => true
  | _ => false

/-- What each command can do: all but four keep the invariant, put out no pulse and set no permission; two of the four may
set the permission, and two may put out a pulse, where emission is not denied. -/
theorem exec_keeps_or_grants_or_fires (i : Instr) (s : State) :
    KeepsO s (exec i s) ∨ (CalmO s (exec i s) ∧ grantsPermit i = true) ∨ (FiresO s (exec i s) ∧ firesPulse i = true) :=
  match i with
  | .mbxDoorbell mb value => .inl (execMbxDoorbell_keeps mb value s)
  | .commandCheck mb hostPayload => .inl (execCommandCheck_keeps mb hostPayload s)
  | .commandAccepted mb => .inl (execCommandAccepted_keeps mb s)
  | .resultWriteFail mb => .inl (execResultWriteFail_keeps mb s)
  | .journalMirrorRebuilt place => .inl (execJournalMirrorRebuilt_keeps place s)
  | .hello mb => .inl (execHello_keeps mb s)
  | .goodbye mb => .inl (execGoodbye_keeps mb s)
  | .nop mb => .inl (execNop_keeps mb s)
  | .ident mb => .inl (execIdent_keeps mb s)
  | .fwImageWrite mb => .inl (execFwImageWrite_keeps mb s)
  | .fwImageSelect mb => .inl (execFwImageSelect_keeps mb s)
  | .gridSetColumns mb => .inl (execGridSetColumns_keeps mb s)
  | .gridGetColumns mb => .inl (execGridGetColumns_keeps mb s)
  | .angleSetScan mb => .inl (execAngleSetScan_keeps mb s)
  | .angleSetIndex mb => .inl (execAngleSetIndex_keeps mb s)
  | .angleStatus mb => .inl (execAngleStatus_keeps mb s)
  | .shotSetProgram mb => .inl (execShotSetProgram_keeps mb s)
  | .allocSet mb => .inl (execAllocSet_keeps mb s)
  | .tpmSetWeights mb => .inl (execTpmSetWeights_keeps mb s)
  | .tpmRead mb => .inl (execTpmRead_keeps mb s)
  | .shotCourseEnable mb => .inl (execShotCourseEnable_keeps mb s)
  | .shotScheduler mb => .inl (execShotScheduler_keeps mb s)
  | .shotStatus mb => .inl (execShotStatus_keeps mb s)
  | .recvSetCourse mb => .inl (execRecvSetCourse_keeps mb s)
  | .recvSetThresholds mb => .inl (execRecvSetThresholds_keeps mb s)
  | .recvStatus mb => .inl (execRecvStatus_keeps mb s)
  | .histSetCourse mb => .inl (execHistSetCourse_keeps mb s)
  | .histSetWalk mb => .inl (execHistSetWalk_keeps mb s)
  | .histStatus mb => .inl (execHistStatus_keeps mb s)
  | .histCaptureTile mb => .inl (execHistCaptureTile_keeps mb s)
  | .captureTileTimeout => .inl (execCaptureTileTimeout_keeps s)
  | .rejSetCourse mb => .inl (execRejSetCourse_keeps mb s)
  | .rejSetDevice mb => .inl (execRejSetDevice_keeps mb s)
  | .rejStatus mb => .inl (execRejStatus_keeps mb s)
  | .dlvSetRing mb => .inl (execDlvSetRing_keeps mb s)
  | .dlvStatus mb => .inl (execDlvStatus_keeps mb s)
  | .freezeHistory mb => .inl (execFreezeHistory_keeps mb s)
  | .readHistory mb => .inl (execReadHistory_keeps mb s)
  | .histInfo mb => .inl (execHistInfo_keeps mb s)
  | .filtConfig mb => .inl (execFiltConfig_keeps mb s)
  | .filtControl mb => .inl (execFiltControl_keeps mb s)
  | .detConfig mb => .inl (execDetConfig_keeps mb s)
  | .loopConfig mb => .inl (execLoopConfig_keeps mb s)
  | .loopLoad mb => .inl (execLoopLoad_keeps mb s)
  | .loopControl mb => .inl (execLoopControl_keeps mb s)
  | .loopStatus mb => .inl (execLoopStatus_keeps mb s)
  | .captConfig mb => .inl (execCaptConfig_keeps mb s)
  | .captSetMask mb => .inl (execCaptSetMask_keeps mb s)
  | .captControl mb => .inl (execCaptControl_keeps mb s)
  | .captRead mb => .inl (execCaptRead_keeps mb s)
  | .captStatus mb => .inl (execCaptStatus_keeps mb s)
  | .esStatus mb => .inl (execEsStatus_keeps mb s)
  | .esUnlock mb => .inl (execEsUnlock_keeps mb s)
  | .esLock mb => .inl (execEsLock_keeps mb s)
  | .esStage mb => .inl (execEsStage_keeps mb s)
  | .esCommit mb => .inl (execEsCommit_keeps mb s)
  | .esRearm mb => .inl (execEsRearm_keeps mb s)
  | .esConfirm mb => .inr (.inl ⟨execEsConfirm_calm mb s, rfl⟩)
  | .esTrip mb => .inl (execEsTrip_keeps mb s)
  | .esSetPassword mb => .inl (execEsSetPassword_keeps mb s)
  | .esChangelogRead mb => .inl (execEsChangelogRead_keeps mb s)
  | .esLedgerRead mb => .inl (execEsLedgerRead_keeps mb s)
  | .ringConfig mb => .inl (execRingConfig_keeps mb s)
  | .ringStatus mb => .inl (execRingStatus_keeps mb s)
  | .ringMembers mb => .inl (execRingMembers_keeps mb s)
  | .ringLeave mb => .inl (execRingLeave_keeps mb s)
  | .ringSetPhase mb => .inl (execRingSetPhase_keeps mb s)
  | .ringQuarantineClear mb => .inl (execRingQuarantineClear_keeps mb s)
  | .ringPeerIdent mb => .inl (execRingPeerIdent_keeps mb s)
  | .laneEyeScan mb => .inl (execLaneEyeScan_keeps mb s)
  | .laneEyeScanDone counts => .inl (execLaneEyeScanDone_keeps counts s)
  | .laneStatus mb => .inl (execLaneStatus_keeps mb s)
  | .hkConfig mb => .inl (execHkConfig_keeps mb s)
  | .hkCal mb => .inl (execHkCal_keeps mb s)
  | .hkCalDone offset gain currents => .inl (execHkCalDone_keeps offset gain currents s)
  | .hkRead mb => .inl (execHkRead_keeps mb s)
  | .hkSetSwitch mb => .inl (execHkSetSwitch_keeps mb s)
  | .thConfig mb => .inl (execThConfig_keeps mb s)
  | .thStatus mb => .inl (execThStatus_keeps mb s)
  | .memStatus mb => .inl (execMemStatus_keeps mb s)
  | .eccTableRead mb => .inl (execEccTableRead_keeps mb s)
  | .eccTableClear mb => .inl (execEccTableClear_keeps mb s)
  | .eccTest mb => .inl (execEccTest_keeps mb s)
  | .logSetLimit mb => .inl (execLogSetLimit_keeps mb s)
  | .ledgerRead mb => .inl (execLedgerRead_keeps mb s)
  | .logHostEvent mb => .inl (execLogHostEvent_keeps mb s)
  | .commit mb => .inl (execCommit_keeps mb s)
  | .commitApplyStopped => .inl (execCommitApplyStopped_keeps s)
  | .stageDiscard mb => .inl (execStageDiscard_keeps mb s)
  | .snapshot mb => .inl (execSnapshot_keeps mb s)
  | .runArm mb => .inl (execRunArm_keeps mb s)
  | .runDisarm mb => .inl (execRunDisarm_keeps mb s)
  | .runStatus mb => .inl (execRunStatus_keeps mb s)
  | .hodDoorbell ch => .inl (execHodDoorbell_keeps ch s)
  | .hodAbort ch => .inl (execHodAbort_keeps ch s)
  | .hodConfigWrite ch reg value => .inl (execHodConfigWrite_keeps ch reg value s)
  | .hodDescriptorFetch ch host => .inl (execHodDescriptorFetch_keeps ch host s)
  | .hodDescriptorComplete ch host refetch => .inl (execHodDescriptorComplete_keeps ch host refetch s)
  | .hodError ch code addr done host => .inl (execHodError_keeps ch code addr done host s)
  | .hodAbortDone ch done host => .inl (execHodAbortDone_keeps ch done host s)
  | .winBaseLoWrite value hi => .inl (execWinBaseLoWrite_keeps value hi s)
  | .bar2Read offset len => .inl (execBar2Read_keeps offset len s)
  | .bar2Write offset bytes => .inl (execBar2Write_keeps offset bytes s)
  | .irqCauseClear mask arriving => .inl (execIrqCauseClear_keeps mask arriving s)
  | .irqEnableWrite value => .inl (execIrqEnableWrite_keeps value s)
  | .irqMapWrite n value => .inl (execIrqMapWrite_keeps n value s)
  | .idBootChunk value => .inl (execIdBootChunk_keeps value s)
  | .idBootReset => .inl (execIdBootReset_keeps s)
  | .hostLoadVerifyDone => .inl (execHostLoadVerifyDone_keeps s)
  | .hkLatch => .inl (execHkLatch_keeps s)
  | .timeLoadNow => .inl (execTimeLoadNow_keeps s)
  | .timeLoadAtPps => .inl (execTimeLoadAtPps_keeps s)
  | .timeCancelLoad => .inl (execTimeCancelLoad_keeps s)
  | .twoHalfLowRead pair wide => .inl (execTwoHalfLowRead_keeps pair wide s)
  | .twoHalfHighRead pair => .inl (execTwoHalfHighRead_keeps pair s)
  | .payloadSramRead offset len => .inl (execPayloadSramRead_keeps offset len s)
  | .bar0BadAccess offset size isWrite => .inl (execBar0BadAccess_keeps offset size isWrite s)
  | .registerWrite offset bytes => .inl (execRegisterWrite_keeps offset bytes s)
  | .dieBPowerUp training => .inl (execDieBPowerUp_keeps training s)
  | .bootRomStart sel => .inl (execBootRomStart_keeps sel s)
  | .fwReady corrected uncorrectable bad => .inl (execFwReady_keeps corrected uncorrectable bad s)
  | .fwReadyTimeout => .inl (execFwReadyTimeout_keeps s)
  | .vkaPowerup => .inl (execVkaPowerup_keeps s)
  | .vkaLoss => .inl (execVkaLoss_keeps s)
  | .esPowerOn selfTestOk crc => .inl (execEsPowerOn_keeps selfTestOk crc s)
  | .railWarning => .inl (execRailWarning_keeps s)
  | .mainPowerReturn training => .inl (execMainPowerReturn_keeps training s)
  | .memorySupplyLoss => .inl (execMemorySupplyLoss_keeps s)
  | .resetN sel training hods => .inl (execResetN_keeps sel training hods s)
  | .perstN hods => .inl (execPerstN_keeps hods s)
  | .hotReset hods => .inl (execHotReset_keeps hods s)
  | .functionLevelReset hods => .inl (execFunctionLevelReset_keeps hods s)
  | .busMasterEnable msix mask payload read => .inl (execBusMasterEnable_keeps msix mask payload read s)
  | .d3hotEntry => .inl (execD3hotEntry_keeps s)
  | .d0Return => .inl (execD0Return_keeps s)
  | .cpRestart lockstep => .inl (execCpRestart_keeps lockstep s)
  | .dieAReset cause => .inl (execDieAReset_keeps cause s)
  | .dieARestored => .inl (execDieARestored_keeps s)
  | .dieARestoreTimeout => .inl (execDieARestoreTimeout_keeps s)
  | .heartbeatLoss atDieA => .inl (execHeartbeatLoss_keeps atDieA s)
  | .mortarLinkUp => .inl (execMortarLinkUp_keeps s)
  | .mortarLaneLoss lane => .inl (execMortarLaneLoss_keeps lane s)
  | .mortarLaneRegained lane => .inl (execMortarLaneRegained_keeps lane s)
  | .dramChannelFailed ch cause => .inl (execDramChannelFailed_keeps ch cause s)
  | .dramRetireDone ch => .inl (execDramRetireDone_keeps ch s)
  | .dramRetrain ch ok => .inl (execDramRetrain_keeps ch ok s)
  | .angleUpdate => .inl (execAngleUpdate_keeps s)
  | .missedUpdate => .inl (execMissedUpdate_keeps s)
  | .frameBoundary => .inl (execFrameBoundary_keeps s)
  | .columnBoundary c => .inl (execColumnBoundary_keeps c s)
  | .shotDue course => .inl (execShotDue_keeps course s)
  | .shotLaunch course startA startB => .inr (.inr ⟨execShotLaunch_fires course startA startB s, rfl⟩)
  | .doublePulseSecond course => .inr (.inr ⟨execDoublePulseSecond_fires course s, rfl⟩)
  | .lowDiscriminatorEdge ch rise fall high => .inl (execLowDiscriminatorEdge_keeps ch rise fall high s)
  | .windowClose ch => .inl (execWindowClose_keeps ch s)
  | .stampDelivery ch => .inl (execStampDelivery_keeps ch s)
  | .tdcCalibrationDone ch rise fall => .inl (execTdcCalibrationDone_keeps ch rise fall s)
  | .engineP1Start e => .inl (execEngineP1Start_keeps e s)
  | .engineP1Done e corr uncorr => .inl (execEngineP1Done_keeps e corr uncorr s)
  | .engineP2Done e corr uncorr => .inl (execEngineP2Done_keeps e corr uncorr s)
  | .indexEdge rising ti => .inl (execIndexEdge_keeps rising ti s)
  | .pickCrossing pick t samples => .inl (execPickCrossing_keeps pick t samples s)
  | .indexMissing => .inl (execIndexMissing_keeps s)
  | .recordArrival => .inl (execRecordArrival_keeps s)
  | .recordCommit => .inl (execRecordCommit_keeps s)
  | .historySlotArrival => .inl (execHistorySlotArrival_keeps s)
  | .palletTimeout r => .inl (execPalletTimeout_keeps r s)
  | .palletWrite r faults => .inl (execPalletWrite_keeps r faults s)
  | .irqHoldoffEnd r => .inl (execIrqHoldoffEnd_keeps r s)
  | .ciPoll r => .inl (execCiPoll_keeps r s)
  | .ciReadComplete r ci => .inl (execCiReadComplete_keeps r ci s)
  | .timePpsEdge => .inl (execTimePpsEdge_keeps s)
  | .chainOutput chain samples => .inl (execChainOutput_keeps chain samples s)
  | .loopSelftestDone ok => .inl (execLoopSelftestDone_keeps ok s)
  | .loopStartSlow => .inl (execLoopStartSlow_keeps s)
  | .pwmCycleStart levels => .inl (execPwmCycleStart_keeps levels s)
  | .hkConversion code overRange brk => .inl (execHkConversion_keeps code overRange brk s)
  | .hkRoundBoundary => .inl (execHkRoundBoundary_keeps s)
  | .captureTrigger u t samples => .inl (execCaptureTrigger_keeps u t samples s)
  | .shotQualTimeout u => .inl (execShotQualTimeout_keeps u s)
  | .maskViolation u samples => .inl (execMaskViolation_keeps u samples s)
  | .captureComplete u samples => .inl (execCaptureComplete_keeps u samples s)
  | .captureHoldoffEnd u => .inl (execCaptureHoldoffEnd_keeps u s)
  | .esPulseCount port => .inl (execEsPulseCount_keeps port s)
  | .ledgerBucketClose k => .inl (execLedgerBucketClose_keeps k s)
  | .esCauseArises c => .inl (execEsCauseArises_keeps c s)
  | .esCauseClears c => .inl (execEsCauseClears_keeps c s)
  | .esClockCheck ppm railOk => .inl (execEsClockCheck_keeps ppm railOk s)
  | .esSelftest ok => .inl (execEsSelftest_keeps ok s)
  | .esCrcCheck crc => .inl (execEsCrcCheck_keeps crc s)
  | .powerupHoldEnd => .inl (execPowerupHoldEnd_keeps s)
  | .rearmTimeout => .inl (execRearmTimeout_keeps s)
  | .esUnlockTimeout => .inl (execEsUnlockTimeout_keeps s)
  | .unlockRefusalEnd => .inl (execUnlockRefusalEnd_keeps s)
  | .safeAckFall => .inl (execSafeAckFall_keeps s)
  | .safeAckRise => .inr (.inl ⟨execSafeAckRise_calm s, rfl⟩)
  | .esStateMessageSend => .inl (execEsStateMessageSend_keeps s)
  | .esStateMessage => .inl (execEsStateMessage_keeps s)
  | .safePathTimeout node ring => .inl (execSafePathTimeout_keeps node ring s)
  | .tempReading ts reading => .inl (execTempReading_keeps ts reading s)
  | .thRateMark => .inl (execThRateMark_keeps s)
  | .thShutdownEntry => .inl (execThShutdownEntry_keeps s)
  | .logWrite => .inl (execLogWrite_keeps s)
  | .logTokenRefill code => .inl (execLogTokenRefill_keeps code s)
  | .hoursTick => .inl (execHoursTick_keeps s)
  | .ringJoinTimeout => .inl (execRingJoinTimeout_keeps s)
  | .ringIsolatedRetry => .inl (execRingIsolatedRetry_keeps s)
  | .ringLeavingDone => .inl (execRingLeavingDone_keeps s)
  | .portStateTimeout p => .inl (execPortStateTimeout_keeps p s)
  | .laneTrained lane => .inl (execLaneTrained_keeps lane s)
  | .tsBlock lane damaged trained ratePending => .inl (execTsBlock_keeps lane damaged trained ratePending s)
  | .blockLockAcquired lane => .inl (execBlockLockAcquired_keeps lane s)
  | .blockLockLost lane cut => .inl (execBlockLockLost_keeps lane cut s)
  | .alignBlock lane damaged skew marker => .inl (execAlignBlock_keeps lane damaged skew marker s)
  | .capsReceived p caps => .inl (execCapsReceived_keeps p caps s)
  | .ringFrameReceived p stomped frame => .inl (execRingFrameReceived_keeps p stomped frame s)
  | .quarantineRetry p => .inl (execQuarantineRetry_keeps p s)
  | .ackBlock p lseq => .inl (execAckBlock_keeps p lseq s)
  | .nakBlock p code lseq => .inl (execNakBlock_keeps p code lseq s)
  | .creditBlock p general reserved => .inl (execCreditBlock_keeps p general reserved s)
  | .replayTimeout p => .inl (execReplayTimeout_keeps p s)
  | .probeSend p => .inl (execProbeSend_keeps p s)
  | .probeBlock p reply number residence => .inl (execProbeBlock_keeps p reply number residence s)
  | .restripeBlock p mask => .inl (execRestripeBlock_keeps p mask s)
  | .switchBlock p mask cut => .inl (execSwitchBlock_keeps p mask cut s)
  | .leaveBlock p reason => .inl (execLeaveBlock_keeps p reason s)
  | .announceSend => .inl (execAnnounceSend_keeps s)
  | .announceReceived => .inl (execAnnounceReceived_keeps s)
  | .rosterExpiry node => .inl (execRosterExpiry_keeps node s)
  | .syncSend => .inl (execSyncSend_keeps s)
  | .syncReceived => .inl (execSyncReceived_keeps s)
  | .syncLost => .inl (execSyncLost_keeps s)
  | .palletReceived => .inl (execPalletReceived_keeps s)
  | .palletAck => .inl (execPalletAck_keeps s)
  | .ciReadMessage ci => .inl (execCiReadMessage_keeps ci s)
  | .e2eResend => .inl (execE2eResend_keeps s)
  | .mgmtCommand => .inl (execMgmtCommand_keeps s)
  | .mgmtResult => .inl (execMgmtResult_keeps s)
  | .remoteTimeout mb => .inl (execRemoteTimeout_keeps mb s)
  | .safetyHeartbeat atDieA => .inl (execSafetyHeartbeat_keeps atDieA s)
  | .readHistoryDone => .inl (execReadHistoryDone_keeps s)
  | .timeDisciplinedLapse => .inl (execTimeDisciplinedLapse_keeps s)
  | .busMasterEnableCleared => .inl (execBusMasterEnableCleared_keeps s)
  | .partnerTerminationSensed p => .inl (execPartnerTerminationSensed_keeps p s)

/-- No command undoes what `Upholds` names. -/
theorem exec_upholds {i : Instr} {s t : State} (h : exec i s = .next t) : Upholds s t := by
  obtain keeps | ⟨calm, -⟩ | ⟨fires, -⟩ := exec_keeps_or_grants_or_fires i s
  · exact (keeps t h).upholds
  · exact (calm t h).toUpholds
  · exact (fires t h).toUpholds

/-- The queue is no part of the invariant. -/
theorem inv_setPending {s : State} (q : List Instr) (h : Inv s) : Inv { s with pending := q } := h

/-- A step keeps the invariant: an empty queue makes it a tick, else it is the command at the front. -/
theorem step_keeps_inv {s t : State} (hi : Inv s) (h : step s = .next t) : Inv t := by
  unfold step at h
  split at h
  · cases h
    exact (tick_keeps s).inv hi
  · exact (exec_upholds h).inv (inv_setPending _ hi)

/-- Settles O5: each command and the tick keep the invariant. -/
theorem stepKeepsInvariant : Obligations.StepKeepsInvariant := fun _ _ => step_keeps_inv

/-- All storage is empty, every field 0, and the gating closed. -/
theorem inv_reset : Inv State.reset := ⟨rfl, rfl, rfl, rfl⟩

theorem not_mayFire_of_denied {s : State} (h : s.es.permit = false) : ¬mayFire s := by
  simp [mayFire, emitOk, h]

/-- Settles O6: the permit pair denies after reset. -/
theorem resetHasInvariant : Obligations.ResetHasInvariant := ⟨inv_reset, not_mayFire_of_denied rfl⟩

end Sys2Proof
end

section
/-! The 64-bit counters read in halves (O37; 00 R14, 12 R288). -/

namespace Sys2Proof

open Sys2Proof.Machine

/-- Where registers are served, BAR0 answers. -/
theorem bar0Up_of_served {s : State} (h : bar0Served s = true) : bar0Up s = true := by
  simp only [bar0Served, Bool.and_eq_true] at h
  exact h.1

/-- The half that a read of the low half latches is the one held. -/
theorem shadowOf_setShadow_some (p : Pair2H) (v : Nat) (s : State) : shadowOf (setShadow p (some v) s) p = some v :=
  tabGet_set_of_ne s.pcie.shadows (pairOffset p) (Option.some_ne_none v)

/-- A 4-byte read of the low half answers it and latches the high half. -/
theorem exec_twoHalfLowRead_narrow {s : State} (p : Pair2H) (h : bar0Served s = true) :
    exec (.twoHalfLowRead p false) s = .next (emit (.completion (b4 (regRead s (pairOffset p))) false)
      (setShadow p (some (regRead s (pairOffset p + 4))) s)) := by
  simp [exec, execTwoHalfLowRead, h, bar0Up_of_served h]

/-- An 8-byte read answers both halves and latches nothing. -/
theorem exec_twoHalfLowRead_wide {s : State} (p : Pair2H) (h : bar0Served s = true) :
    exec (.twoHalfLowRead p true) s = .next (emit (.completion (b8 (pairValue s p)) false) s) := by
  simp [exec, execTwoHalfLowRead, bar0Up_of_served h]

/-- A high read with a latched half answers it and uses it up. -/
theorem exec_twoHalfHighRead_shadow {s : State} {p : Pair2H} {v : Nat} (h : bar0Served s = true)
    (hv : shadowOf s p = some v) :
    exec (.twoHalfHighRead p) s = .next (emit (.completion (b4 v) false) (setShadow p none s)) := by
  simp [exec, execTwoHalfHighRead, h, bar0Up_of_served h, hv]

/-- A high read without one answers the live half and sets STALE_PAIR. -/
theorem exec_twoHalfHighRead_live {s : State} {p : Pair2H} (h : bar0Served s = true) (hv : shadowOf s p = none) :
    exec (.twoHalfHighRead p) s = .next (emit (.completion (b4 (regRead s (pairOffset p + 4))) false)
      { s with pcie.stalePair := true }) := by
  simp [exec, execTwoHalfHighRead, h, bar0Up_of_served h, hv]

/-- Settles O37: the shadow that the low read latches stands until the high read, whatever the counter does between. -/
theorem twoHalfReads : Obligations.TwoHalfReads := by
  refine ⟨fun p s h => exec_twoHalfLowRead_narrow p h, fun p s h => exec_twoHalfLowRead_wide p h,
    fun p v s h hv => exec_twoHalfHighRead_shadow h hv, fun p s h hv => exec_twoHalfHighRead_live h hv,
    fun p s t u hs low sameShadows hu => exec_twoHalfHighRead_shadow hu ?_⟩
  rw [exec_twoHalfLowRead_narrow p hs] at low
  cases low
  rw [shadowOf, sameShadows]
  exact shadowOf_setShadow_some p _ s

end Sys2Proof
end

section
/-! IRQ_CAUSE and IRQ_ENABLE (O34, O35; 15 R349, R350): what a message needs and changes, what raising a source does, and
the 22 turns of each register write. -/

namespace Sys2Proof

open Sys2Proof.Machine

/-! ### Messages -/

/-- A message of vector `v` leaves when it is sent (15 R349, R351). -/
structure CanSend (s : State) (v : Nat) : Prop where
  /-- the vector stands in the table -/
  inTable : v < 64
  /-- the device may issue messages -/
  master : canMaster s = true
  /-- MSI-X Enable is set -/
  enabled : s.pcie.msixEnable = true
  /-- the function is not masked -/
  functionOpen : s.pcie.functionMask = false
  /-- the vector is not masked -/
  vectorOpen : (tabGet {} s.pcie.msix v).masked = false

/-- The message of a vector, as its table entry gives it. -/
def messageOf (s : State) (v : Nat) : Out :=
  .msix v (tabGet {} s.pcie.msix v).addr (tabGet {} s.pcie.msix v).data

theorem CanSend.ne_unmapped {s : State} {v : Nat} (h : CanSend s v) : v ≠ 0xFF := by
  have := h.inTable
  omega

theorem msixSend_of_canSend {s : State} {v : Nat} (h : CanSend s v) : msixSend v s = emit (messageOf s v) s := by
  obtain ⟨inTable, master, enabled, functionOpen, vectorOpen⟩ := h
  simp [msixSend, messageOf, Nat.not_le.2 inTable, master, enabled, functionOpen, vectorOpen]

/-- Sending changes the pending bits and the outputs alone. -/
theorem msixSend_frame (v : Nat) (s : State) : ∃ pba out, msixSend v s = { s with pcie.pba := pba, out := out } := by
  unfold msixSend
  dsimp only
  split
  · exact ⟨_, _, rfl⟩
  · split
    · exact ⟨_, _, rfl⟩
    · split <;> exact ⟨_, _, rfl⟩

@[simp] theorem msixSend_irqCause (v : Nat) (s : State) : (msixSend v s).pcie.irqCause = s.pcie.irqCause := by
  obtain ⟨pba, out, e⟩ := msixSend_frame v s
  rw [e]

@[simp] theorem msixSend_irqEnable (v : Nat) (s : State) : (msixSend v s).pcie.irqEnable = s.pcie.irqEnable := by
  obtain ⟨pba, out, e⟩ := msixSend_frame v s
  rw [e]

/-! ### Cause bits -/

/-- The state with other cause bits. -/
def setCause (c : Nat) (s : State) : State := { s with pcie.irqCause := c }

@[simp] theorem setCause_irqCause (c : Nat) (s : State) : (setCause c s).pcie.irqCause = c := rfl
@[simp] theorem setCause_irqEnable (c : Nat) (s : State) : (setCause c s).pcie.irqEnable = s.pcie.irqEnable := rfl

theorem CanSend.setCause {s : State} {v : Nat} (c : Nat) (h : CanSend s v) : CanSend (setCause c s) v :=
  ⟨h.inTable, h.master, h.enabled, h.functionOpen, h.vectorOpen⟩

/-- A source whose cause bit goes to 1 sends its message where it is enabled and mapped. -/
theorem raiseIrq_eq {n : Nat} {s : State} (hn : n < 22) (clear : s.pcie.irqCause.testBit n = false) :
    raiseIrq n s =
      if s.pcie.irqEnable.testBit n && irqVector s n != 0xFF then
        msixSend (irqVector s n) (setCause (s.pcie.irqCause ||| 2 ^ n) s)
      else setCause (s.pcie.irqCause ||| 2 ^ n) s :=
  if_neg (by simp [Nat.not_le.2 hn, clear])

/-- A source whose cause bit is 1 does nothing. -/
theorem raiseIrq_of_set {n : Nat} {s : State} (isSet : s.pcie.irqCause.testBit n = true) : raiseIrq n s = s :=
  if_pos (by simp [isSet])

/-- The source's cause bit is 1 after its event, whether or not a message leaves. -/
theorem raiseIrq_testBit {n : Nat} (s : State) (hn : n < 22) (k : Nat) :
    (raiseIrq n s).pcie.irqCause.testBit k = (s.pcie.irqCause.testBit k || decide (n = k)) := by
  cases h : s.pcie.irqCause.testBit n
  · rw [raiseIrq_eq hn h]
    split <;> simp [Nat.testBit_two_pow]
  · rw [raiseIrq_of_set h]
    by_cases e : n = k
    · subst e; simp [h]
    · simp [e]

@[simp] theorem raiseIrq_irqEnable (n : Nat) (s : State) : (raiseIrq n s).pcie.irqEnable = s.pcie.irqEnable := by
  unfold raiseIrq
  dsimp only
  split
  · rfl
  · split
    · rw [msixSend_irqEnable]
    · rfl

/-- A source whose cause bit goes to 1 while it is enabled and its vector may send puts out its message. -/
theorem raiseIrq_out {n : Nat} {s : State} (hn : n < 22) (clear : s.pcie.irqCause.testBit n = false)
    (enabled : s.pcie.irqEnable.testBit n = true) (send : CanSend s (irqVector s n)) :
    (raiseIrq n s).out = messageOf s (irqVector s n) :: s.out := by
  rw [raiseIrq_eq hn clear, if_pos (by simp [enabled, send.ne_unmapped]), msixSend_of_canSend (send.setCause _)]
  rfl

/-! ### IRQ_CAUSE_CLEAR -/

/-- What a clear does for source `n`: its event counts if it arrived with the write. -/
def raiseArriving (arr n : Nat) (s : State) : State := if bit arr n then raiseIrq n s else s

/-- The cause bits that a clear leaves before the arriving events count. -/
def causesKept (mask : Nat) (s : State) : Nat := bitmapOf 22 (fun n => bit s.pcie.irqCause n && !bit mask n)

/-- A clear takes the named bits, then lets the arriving events count, source by source. -/
theorem clearCause_eq (mask arr : Nat) (s : State) :
    clearCause mask arr s = forUpto 22 (raiseArriving arr) (setCause (causesKept mask s) s) := rfl

theorem causesKept_testBit (mask : Nat) (s : State) (k : Nat) : (causesKept mask s).testBit k =
    (decide (k < 22) && (s.pcie.irqCause.testBit k && !mask.testBit k)) := by
  rw [causesKept, testBit_bitmapOf]
  rfl

theorem raiseArriving_idle {arr n : Nat} (h : arr.testBit n = false) (s : State) : raiseArriving arr n s = s := by
  simp [raiseArriving, bit, h]

theorem raiseArriving_of_arrives {arr n : Nat} (h : arr.testBit n = true) (s : State) :
    raiseArriving arr n s = raiseIrq n s := by
  simp [raiseArriving, bit, h]

theorem raiseArriving_irqEnable (arr n : Nat) (s : State) :
    (raiseArriving arr n s).pcie.irqEnable = s.pcie.irqEnable := by
  unfold raiseArriving
  split <;> simp

theorem clearCause_irqEnable (mask arr : Nat) (s : State) :
    (clearCause mask arr s).pcie.irqEnable = s.pcie.irqEnable := by
  rw [clearCause_eq, forUpto_field (fun u : State => u.pcie.irqEnable) (raiseArriving_irqEnable arr), setCause_irqEnable]

theorem raiseArriving_testBit (arr : Nat) {n : Nat} (hn : n < 22) (s : State) (k : Nat) :
    (raiseArriving arr n s).pcie.irqCause.testBit k =
      (s.pcie.irqCause.testBit k || (decide (n = k) && arr.testBit k)) := by
  have atN : (decide (n = k) && arr.testBit k) = (decide (n = k) && arr.testBit n) := by
    by_cases e : n = k <;> simp [e]
  rw [atN]
  cases h : arr.testBit n
  · simp [raiseArriving_idle h]
  · simp [raiseArriving_of_arrives h, raiseIrq_testBit s hn]

/-- After the turns of the sources below `m`, their arrived events have set their bits. -/
theorem forUpto_raiseArriving_testBit (arr : Nat) {m : Nat} (hm : m ≤ 22) (s : State) (k : Nat) :
    (forUpto m (raiseArriving arr) s).pcie.irqCause.testBit k =
      (s.pcie.irqCause.testBit k || (decide (k < m) && arr.testBit k)) := by
  induction m with
  | zero => simp [forUpto]
  | succ m ih =>
    rw [forUpto, raiseArriving_testBit arr (by omega), ih (by omega), Bool.or_assoc,
      ← Bool.and_or_distrib_right, ← Bool.decide_or]
    simp only [Nat.lt_succ_iff_lt_or_eq, eq_comm]

/-- A bit is 1 after a clear when it was 1 and not named, or when its event arrived. -/
theorem clearCause_testBit (mask arr : Nat) (s : State) {k : Nat} (hk : k < 22) :
    (clearCause mask arr s).pcie.irqCause.testBit k =
      ((s.pcie.irqCause.testBit k && !mask.testBit k) || arr.testBit k) := by
  rw [clearCause_eq, forUpto_raiseArriving_testBit arr (Nat.le_refl 22), setCause_irqCause, causesKept_testBit]
  simp [hk]

/-- The clear of one source whose event, alone, arrives with it sends the message of the source. -/
theorem clearCause_single_out {n : Nat} {s : State} (hn : n < 22) (enabled : s.pcie.irqEnable.testBit n = true)
    (send : CanSend s (irqVector s n)) :
    (clearCause (2 ^ n) (2 ^ n) s).out = messageOf s (irqVector s n) :: s.out := by
  have others : ∀ k, k ≠ n → (2 ^ n).testBit k = false := fun k hk => Nat.testBit_two_pow_of_ne hk.symm
  have cleared : (causesKept (2 ^ n) s).testBit n = false := by simp [causesKept_testBit]
  rw [clearCause_eq, forUpto_of_one hn (fun k hk => raiseArriving_idle (others k (by omega)) _)
      (fun k _ hk => raiseArriving_idle (others k (by omega)) _), raiseArriving_of_arrives (by simp)]
  generalize causesKept (2 ^ n) s = c at cleared
  exact raiseIrq_out (s := setCause c s) hn cleared enabled (send.setCause c)

theorem exec_irqCauseClear {s : State} (mask arr : BitVec 32) (h : bar0Served s = true) :
    exec (.irqCauseClear mask arr) s = .next (clearCause mask.toNat arr.toNat s) := by
  simp [exec, execIrqCauseClear, h]

/-! ### IRQ_ENABLE_WRITE -/

/-- What a write of IRQ_ENABLE does for source `n`: a newly enabled waiting cause sends its message. -/
def sendIfNewlyEnabled (v old n : Nat) (s : State) : State :=
  if bit v n && !bit old n && bit s.pcie.irqCause n && irqVector s n != 0xFF then msixSend (irqVector s n) s else s

/-- A write of IRQ_ENABLE stores the bits, then lets the waiting causes send, source by source. -/
theorem writeEnable_eq (v : Nat) (s : State) : writeEnable v s =
    forUpto 22 (sendIfNewlyEnabled v s.pcie.irqEnable) { s with pcie.irqEnable := v % 2 ^ 22 } := rfl

theorem sendIfNewlyEnabled_irqCause (v old n : Nat) (s : State) :
    (sendIfNewlyEnabled v old n s).pcie.irqCause = s.pcie.irqCause := by
  unfold sendIfNewlyEnabled
  split <;> simp

theorem sendIfNewlyEnabled_irqEnable (v old n : Nat) (s : State) :
    (sendIfNewlyEnabled v old n s).pcie.irqEnable = s.pcie.irqEnable := by
  unfold sendIfNewlyEnabled
  split <;> simp

theorem writeEnable_irqCause (v : Nat) (s : State) : (writeEnable v s).pcie.irqCause = s.pcie.irqCause := by
  rw [writeEnable_eq, forUpto_field (fun u : State => u.pcie.irqCause) (sendIfNewlyEnabled_irqCause v _)]

theorem writeEnable_irqEnable (v : Nat) (s : State) : (writeEnable v s).pcie.irqEnable = v % 2 ^ 22 := by
  rw [writeEnable_eq, forUpto_field (fun u : State => u.pcie.irqEnable) (sendIfNewlyEnabled_irqEnable v _)]

/-- Source `n` has nothing to send at a write of `v`: it is not newly enabled, or its cause bit is 0. -/
def NothingWaits (v old : Nat) (cause n : Nat) : Prop :=
  v.testBit n = true → old.testBit n = true ∨ cause.testBit n = false

theorem sendIfNewlyEnabled_idle {v old n : Nat} {s : State} (h : NothingWaits v old s.pcie.irqCause n) :
    sendIfNewlyEnabled v old n s = s := by
  refine if_neg fun sends => ?_
  simp only [bit, Bool.and_eq_true, Bool.not_eq_true'] at sends
  obtain ⟨⟨⟨hv, ho⟩, hc⟩, -⟩ := sends
  rcases h hv with h | h
  · simp [h] at ho
  · simp [h] at hc

theorem sendIfNewlyEnabled_out {v old n : Nat} {s : State} (hv : v.testBit n = true) (ho : old.testBit n = false)
    (hc : s.pcie.irqCause.testBit n = true) (send : CanSend s (irqVector s n)) :
    (sendIfNewlyEnabled v old n s).out = messageOf s (irqVector s n) :: s.out := by
  have sends : sendIfNewlyEnabled v old n s = msixSend (irqVector s n) s :=
    if_pos (by simp [bit, hv, ho, hc, send.ne_unmapped])
  rw [sends, msixSend_of_canSend send]
  rfl

/-- Where no source waits, the write sends nothing. -/
theorem writeEnable_quiet_out {v : Nat} {s : State}
    (h : ∀ n < 22, NothingWaits v s.pcie.irqEnable s.pcie.irqCause n) : (writeEnable v s).out = s.out := by
  rw [writeEnable_eq, forUpto_of_idle]
  exact fun n hn => sendIfNewlyEnabled_idle (h n hn)

/-- Where one source alone waits, the write sends its message. -/
theorem writeEnable_single_out {v n : Nat} {s : State} (hn : n < 22) (hv : v.testBit n = true)
    (ho : s.pcie.irqEnable.testBit n = false) (hc : s.pcie.irqCause.testBit n = true)
    (others : ∀ k < 22, k ≠ n → NothingWaits v s.pcie.irqEnable s.pcie.irqCause k) (send : CanSend s (irqVector s n)) :
    (writeEnable v s).out = messageOf s (irqVector s n) :: s.out := by
  rw [writeEnable_eq, forUpto_of_one hn]
  · exact sendIfNewlyEnabled_out (s := { s with pcie.irqEnable := v % 2 ^ 22 }) hv ho hc
      ⟨send.inTable, send.master, send.enabled, send.functionOpen, send.vectorOpen⟩
  · exact fun k hk => sendIfNewlyEnabled_idle (others k (by omega) (by omega))
  · refine fun k hk hnk => sendIfNewlyEnabled_idle ?_
    rw [sendIfNewlyEnabled_irqCause]
    exact others k hk (by omega)

theorem exec_irqEnableWrite {s : State} (v : BitVec 32) (h : bar0Served s = true) :
    exec (.irqEnableWrite v) s = .next (writeEnable v.toNat s) := by
  simp [exec, execIrqEnableWrite, h]

/-- Settles O34: the arriving events count after the named bits are taken, so a bit set with its clear stays. -/
theorem causeBitsSetWins : Obligations.CauseBitsSetWins := by
  intro mask arr s served
  refine ⟨_, exec_irqCauseClear mask arr served, clearCause_irqEnable .., fun n hn => clearCause_testBit _ _ s hn, ?_⟩
  intro n hn arrives named enabled inTable master msix functionOpen vectorOpen
  rw [arrives, named]
  exact clearCause_single_out hn enabled ⟨inTable, master, msix, functionOpen, vectorOpen⟩

/-- Settles O35: each of the 22 turns sends for a newly enabled source whose cause waits, and changes no register. -/
theorem enablingSendsWaitingCauses : Obligations.EnablingSendsWaitingCauses := by
  intro v s served
  refine ⟨_, exec_irqEnableWrite v served, writeEnable_irqEnable .., writeEnable_irqCause .., writeEnable_quiet_out, ?_⟩
  intro n hn newly wasOff waits others inTable master msix functionOpen vectorOpen
  exact writeEnable_single_out hn newly wasOff waits others ⟨inTable, master, msix, functionOpen, vectorOpen⟩

end Sys2Proof
end

section
/-! The status commands (O27): the shapes in which a handler answers or stays open, what completing a command leaves
unchanged, and the LOOP_STATUS commands that wait. -/

namespace Sys2Proof

open Sys2Proof.Machine

/-! ### Commands whose payload passes -/

/-- A command whose handler answers at once on a good payload has the handler's effect and completes with its answer. -/
theorem applies_of_answered {op : Nat} {c : Fin 8 → Instr} {good : JEntry → State → Prop}
    {eff : JEntry → State → State} {reply : JEntry → State → Reply} {h : Handler}
    (meaning : ∀ mb s, exec (c mb) s = runCommand op mb h s)
    (does : ∀ e s, good e s → h e.origin e.jseq e.payload s = (eff e s, some (reply e s))) :
    Applies op c good eff reply := fun mb e s ready hg => by
  rw [meaning, runCommand_ready ready, does e _ hg]

/-- A command without a payload applies where none is sent. -/
theorem applies_of_bare {op : Nat} {c : Fin 8 → Instr} {eff : State → State} {reply : State → Reply}
    (meaning : ∀ mb s, exec (c mb) s =
      runCommand op mb (fun _ _ p s => checked (fixedPayload p 0 []) s (fun _ => (eff s, reply s))) s) :
    Applies op c (fun e _ => e.payload = []) (fun _ s => eff s) (fun _ s => reply s) :=
  applies_of_answered meaning fun e s h => checked_none (fixedPayload_none (by rw [h]; rfl) allGood_nil)

/-- A command whose handler gives no answer on a good payload has its effect and stays ACCEPTED. -/
theorem opens_of_unanswered {op : Nat} {c : Fin 8 → Instr} {good : JEntry → State → Prop}
    {eff : JEntry → State → State} {h : Handler} (meaning : ∀ mb s, exec (c mb) s = runCommand op mb h s)
    (does : ∀ e s, good e s → h e.origin e.jseq e.payload s = (eff e s, none)) : Opens op c good eff :=
  fun mb e s ready hg => by
    rw [meaning, runCommand_ready ready, does e _ hg]

theorem allGood_rsv (p : Bytes) (off n : Nat) (l : List (Bool × Nat)) :
    AllGood (rsv p off n :: l) ↔ allZero p off n = true ∧ AllGood l := allGood_cons ..

theorem within_iff (lo v hi : Nat) : within lo v hi = true ↔ lo ≤ v ∧ v ≤ hi := decide_eq_true_iff

/-- COURSE and CLEAR, in range. -/
theorem courseClear_none {p : Bytes} (hl : p.length = 4) (hc : u8 p 0 < 128 ∨ u8 p 0 = 0xFF) (hk : u8 p 1 < 2)
    (hz : allZero p 2 2 = true) : courseClear p = none :=
  fixedPayload_none hl (by simp [allGood_cons, allGood_rsv, allGood_nil, hc, hk, hz])

/-- A payload that only selects a unit, in range. -/
theorem selector_none {p : Bytes} {bound : Nat} (hl : p.length = 4) (hs : u8 p 0 < bound)
    (hz : allZero p 1 3 = true) : fixedPayload p 4 [(decide (u8 p 0 < bound), 0), rsv p 1 3] = none :=
  fixedPayload_none hl (by simp [allGood_cons, allGood_rsv, allGood_nil, hs, hz])

/-- A unit and CLEAR, in range. -/
theorem unitClear_none {p : Bytes} {bound : Nat} (hl : p.length = 4) (hs : u8 p 0 < bound) (hk : u8 p 1 < 2)
    (hz : allZero p 2 2 = true) :
    fixedPayload p 4 [(decide (u8 p 0 < bound), 0), (decide (u8 p 1 < 2), 1), rsv p 2 2] = none :=
  fixedPayload_none hl (by simp [allGood_cons, allGood_rsv, allGood_nil, hs, hk, hz])

/-! ### What completing a command leaves unchanged -/

/-- The states differ in the mailboxes, the ring, the memory, the PCI Express interface, the log and the outputs alone. -/
def ReportsOnly (s t : State) : Prop :=
  ∃ mbx ring mem pcie log out,
    t = { s with mbx := mbx, ring := ring, mem := mem, pcie := pcie, log := log, out := out }

namespace ReportsOnly

/-- A change of those fields. -/
theorem upd (s : State) (mbx ring mem pcie log out) : ReportsOnly s
    { s with mbx := mbx, ring := ring, mem := mem, pcie := pcie, log := log, out := out } :=
  ⟨mbx, ring, mem, pcie, log, out, rfl⟩

theorem refl (s : State) : ReportsOnly s s := upd ..

theorem trans {s t u : State} (h : ReportsOnly s t) (k : ReportsOnly t u) : ReportsOnly s u := by
  obtain ⟨_, _, _, _, _, _, rfl⟩ := h
  obtain ⟨_, _, _, _, _, _, rfl⟩ := k
  exact upd ..

theorem loop {s t : State} (h : ReportsOnly s t) : t.loop = s.loop := by
  obtain ⟨_, _, _, _, _, _, rfl⟩ := h
  rfl

/-- The last operation first. -/
theorem after {s t u : State} (k : ReportsOnly t u) (h : ReportsOnly s t) : ReportsOnly s u := h.trans k

/-- Both branches. -/
theorem cond {c : Prop} [Decidable c] {s a b : State} (h : ReportsOnly s a) (k : ReportsOnly s b) :
    ReportsOnly s (if c then a else b) := by
  split
  · exact h
  · exact k

theorem emit (o : Out) (s : State) : ReportsOnly s (emit o s) := upd ..
theorem modEntry (j : Nat) (f : JEntry → JEntry) (s : State) : ReportsOnly s (modEntry j f s) := upd ..
theorem modBox (m : Nat) (f : Mailbox → Mailbox) (s : State) : ReportsOnly s (modBox m f s) := upd ..
theorem sweep (s : State) : ReportsOnly s (sweep s) := upd ..
theorem sramWrite (i : Nat) (bs : Bytes) (s : State) : ReportsOnly s (sramWrite i bs s) := upd ..

theorem modPort (p : Port) (f : RingPort → RingPort) (s : State) : ReportsOnly s (modPort p f s) := by
  unfold Machine.modPort
  cases p <;> exact upd ..

theorem hostWrite (addr : Nat) (bs : Bytes) (s : State) : ReportsOnly s (hostWrite addr bs s) :=
  cond (upd ..) (refl s)

theorem msixSend (v : Nat) (s : State) : ReportsOnly s (msixSend v s) :=
  cond (refl s) (cond (upd ..) (cond (emit ..) (refl s)))

theorem logPush (sev src code p0 p1 p2 : Nat) (s : State) : ReportsOnly s (logPush sev src code p0 p1 p2 s) :=
  cond (refl s) (cond (upd ..) (upd ..))

theorem logEv (code p0 p1 p2 : Nat) (s : State) : ReportsOnly s (logEv code p0 p1 p2 s) := by
  unfold Machine.logEv
  split
  · exact logPush ..
  · exact refl s

theorem writeResult (mb : Nat) (r : Bytes) (s : State) : ReportsOnly s (writeResult mb r s) :=
  cond (hostWrite ..) (sramWrite ..)

theorem mbxMessage (mb n : Nat) (s : State) : ReportsOnly s (mbxMessage mb n s) :=
  cond (msixSend ..) (refl s)

theorem completeBox (mb : Nat) (r : Reply) (lost : Bool) (s : State) : ReportsOnly s (completeBox mb r lost s) := by
  unfold Machine.completeBox
  refine after (mbxMessage ..) ?_
  refine cond (after (logEv ..) (after (upd ..) (after (modBox ..) ?_))) (after (modBox ..) ?_) <;>
  exact cond (refl s) (writeResult ..)

theorem returnCredit (p : Port) (reserved : Bool) (n : Nat) (s : State) :
    ReportsOnly s (returnCredit p reserved n s) :=
  cond (refl s) ((modPort ..).trans (emit ..))

theorem sendOne (p : Port) (s : State) : ReportsOnly s (sendOne p s) := by
  unfold Machine.sendOne
  dsimp only
  split
  · exact refl s
  · split
    · exact after (returnCredit ..) (after (emit ..) (modPort ..))
    · exact after (emit ..) (modPort ..)

theorem drainPort (n : Nat) (p : Port) (s : State) : ReportsOnly s (drainPort n p s) := by
  induction n generalizing s with
  | zero => exact refl s
  | succ n ih => exact (sendOne p s).trans (ih _)

theorem enqueue (p : Port) (f : OutFrame) (s : State) : ReportsOnly s (enqueue p f s) :=
  (modPort ..).trans (drainPort ..)

theorem forwardOn (ring : Nat) (body : Bytes) (own : Bool) (credit : Option (Port × Nat)) (stamp : Option SyncStamp)
    (s : State) : ReportsOnly s (forwardOn ring body own credit stamp s) := by
  unfold Machine.forwardOn
  split
  · split
    · exact returnCredit ..
    · exact refl s
  · exact enqueue ..

theorem e2eSend (cls typ dst : Nat) (body : Bytes) (s : State) : ReportsOnly s (e2eSend cls typ dst body s) :=
  cond (refl s) (trans (upd ..) (forwardOn ..))

theorem sendFragments (n typ dst node mb seq : Nat) (body : Bytes) (s : State) :
    ReportsOnly s (sendFragments n typ dst node mb seq body s) := by
  induction n generalizing body s with
  | zero => exact refl s
  | succ n ih => exact cond (e2eSend ..) ((e2eSend ..).trans (ih _ _))

theorem answerRemote (arrived node mb seq : Nat) (r : Reply) (s : State) :
    ReportsOnly s (answerRemote arrived node mb seq r s) := by
  unfold Machine.answerRemote
  refine cond (after (sendFragments ..) ?_) ?_ <;>
  exact cond (upd ..) (after (logEv ..) (upd ..))

/-- Completing a command reports it: journal, mailbox or originator, its result, its messages and its events. -/
theorem finish (jseq : Nat) (r : Reply) (s : State) : ReportsOnly s (finish jseq r s) := by
  unfold Machine.finish
  split
  · exact refl s
  · refine cond (refl s) ?_
    dsimp only
    split
    · exact after (sweep _) (after (answerRemote ..) (after (modEntry ..) (modEntry ..)))
    · exact cond (after (modBox ..) (modEntry ..))
        (after (sweep _) (after (completeBox ..) (after (modEntry ..) (modEntry ..))))

end ReportsOnly

@[simp] theorem finish_loop (jseq : Nat) (r : Reply) (s : State) : (finish jseq r s).loop = s.loop :=
  (ReportsOnly.finish jseq r s).loop

/-! ### LOOP_STATUS commands that wait -/

/-- Answering the waiting reads takes no action. -/
theorem takeReads_actions (s : State) : (takeReads s).loop.actions = s.loop.actions := by
  have each (r : Reply) (e : Nat × Bool) (u : State) : (finish e.1 r u).loop.actions = u.loop.actions := by
    rw [finish_loop]
  unfold takeReads
  rw [forEach_field (fun u : State => u.loop.actions) (each _)]
  split
  · simp [clearLoopStatus]
  · rfl

theorem takeActions_of_none {s : State} (faulted : Bool) (h : s.loop.actions = []) : takeActions faulted s = s := by
  have same : { s with loop.actions := [] } = s := by rw [← h]
  simp only [takeActions, h, List.filter_nil, forEach, same]

theorem settleLoop_of_periods {s : State} (h : hasPeriods s = true) : settleLoop s = s := if_pos h

/-- Without control periods and waiting actions, only the waiting reads are answered. -/
theorem settleLoop_of_no_actions {s : State} (h : s.loop.actions = []) (hp : hasPeriods s = false) :
    settleLoop s = takeReads s := by
  rw [settleLoop, if_neg (by simp [hp]), takeActions_of_none _ ((takeReads_actions s).trans h)]

/-- Settles O27: each payload passes its checks, and what the handler then does is the stated effect and result. -/
theorem statusReads : Obligations.StatusReads := by
  refine ⟨applies_of_bare fun _ _ => rfl, applies_of_bare fun _ _ => rfl, ?tpmRead, ?dlvStatus,
    applies_of_bare fun _ _ => rfl, applies_of_bare fun _ _ => rfl, applies_of_bare fun _ _ => rfl, ?esLedgerRead,
    applies_of_bare fun _ _ => rfl, ?laneStatus, applies_of_bare fun _ _ => rfl, applies_of_bare fun _ _ => rfl,
    applies_of_bare fun _ _ => rfl, applies_of_bare fun _ _ => rfl, ?ledgerRead, ?shotStatus, ?recvStatus, ?histStatus,
    ?rejStatus, ?loopStatus, fun _ => settleLoop_of_no_actions, fun _ => settleLoop_of_periods, ?captStatus⟩
  case tpmRead =>
    refine applies_of_answered (fun _ _ => by rw [exec, execTpmRead]) fun e s good => ?_
    obtain ⟨length, start, one, most, fits⟩ := good
    exact checked_none (fixedPayload_none length (by
      simp only [allGood_cons, allGood_nil, within_iff, decide_eq_true_eq, and_true]
      omega))
  case dlvStatus =>
    refine applies_of_answered (fun _ _ => by rw [exec, execDlvStatus]) fun e s good => ?_
    obtain ⟨length, ring, reserved⟩ := good
    exact checked_none (selector_none length ring reserved)
  case esLedgerRead =>
    refine applies_of_answered (fun _ _ => by rw [exec, execEsLedgerRead]) fun e s good => ?_
    obtain ⟨length, port, reserved⟩ := good
    exact checked_none (fixedPayload_none length (by simp [allGood_cons, allGood_rsv, allGood_nil, port, reserved]))
  case laneStatus =>
    refine applies_of_answered (fun _ _ => by rw [exec, execLaneStatus]) fun e s good => ?_
    obtain ⟨length, lane, reserved⟩ := good
    exact checked_none (selector_none length lane reserved)
  case ledgerRead =>
    refine applies_of_answered (fun _ _ => by rw [exec, execLedgerRead]) fun e s good => ?_
    obtain ⟨length, region, reserved, start, one, most, fits⟩ := good
    exact checked_none (fixedPayload_none length (by
      simp only [allGood_cons, allGood_rsv, allGood_nil, within_iff, decide_eq_true_eq, reserved, and_true, true_and]
      omega))
  case shotStatus =>
    refine applies_of_answered (fun _ _ => by rw [exec, execShotStatus]) fun e s good => ?_
    obtain ⟨length, course, clear, reserved⟩ := good
    exact checked_none (courseClear_none length course clear reserved)
  case recvStatus =>
    refine applies_of_answered (fun _ _ => by rw [exec, execRecvStatus]) fun e s good => ?_
    obtain ⟨length, channel, clear, reserved⟩ := good
    exact checked_none (fixedPayload_none length (by
      simp [allGood_cons, allGood_rsv, allGood_nil, channel, clear, reserved]))
  case histStatus =>
    refine applies_of_answered (fun _ _ => by rw [exec, execHistStatus]) fun e s good => ?_
    obtain ⟨length, engine, clear, reserved⟩ := good
    exact checked_none (unitClear_none length engine clear reserved)
  case rejStatus =>
    refine applies_of_answered (fun _ _ => by rw [exec, execRejStatus]) fun e s good => ?_
    obtain ⟨length, course, clear, reserved⟩ := good
    exact checked_none (courseClear_none length course clear reserved)
  case loopStatus =>
    refine opens_of_unanswered (fun _ _ => by rw [exec, execLoopStatus]) fun e s good => ?_
    obtain ⟨length, clear, reserved⟩ := good
    simp only [selector_none length clear reserved]
  case captStatus =>
    refine applies_of_answered (fun _ _ => by rw [exec, execCaptStatus]) fun e s good => ?_
    obtain ⟨length, unit, clear, reserved⟩ := good
    exact checked_none (unitClear_none length unit clear reserved)

end Sys2Proof
end

section
/-! No command takes back what `Upholds` names (O4), by the case split over the commands of O5. -/

namespace Sys2Proof

/-- Settles O4: a command keeps all that `Upholds` says, or it is one of those that grant or fire, each of which upholds
it. -/
theorem commandsUphold : Obligations.CommandsUphold := fun _ _ _ => exec_upholds

end Sys2Proof
end

section
/-! The frame boundary (O46; 01 R18, 02 R28 to R30, 04 R92, 10 R222): what the gates of die A are opened by is a view of
the state, which every part of the crossing keeps but `openFrame` and `openGates`. -/

namespace Sys2Proof

open Sys2Proof.Machine

/-! ### DRAM writes report only -/

namespace ReportsOnly

theorem raiseIrq (n : Nat) (s : State) : ReportsOnly s (raiseIrq n s) :=
  cond (refl s) (cond (after (msixSend ..) (upd ..)) (upd ..))

theorem noteCe (w syn bit : Nat) (s : State) : ReportsOnly s (noteCe w syn bit s) :=
  cond (upd ..) (cond (after (logEv ..) (after (raiseIrq ..) (upd ..))) (upd ..))

theorem noteUe (w : Nat) (s : State) : ReportsOnly s (noteUe w s) :=
  after (raiseIrq ..) (after (logEv ..) (upd ..))

theorem storeWord (w v : Nat) (s : State) : ReportsOnly s (storeWord w v s) := upd ..
theorem markWritten (w : Nat) (s : State) : ReportsOnly s (markWritten w s) := upd ..

theorem mergeWord (w off : Nat) (bs : Bytes) (s : State) : ReportsOnly s (mergeWord w off bs s) := by
  unfold Machine.mergeWord
  dsimp only
  split
  · exact after (markWritten ..) (storeWord ..)
  · exact after (markWritten ..) (after (storeWord ..) (noteCe ..))
  · exact after (logEv ..) (after (markWritten ..) (after (upd ..) (noteUe w s)))

theorem dramWriteFrom (n a : Nat) (bs : Bytes) (s : State) : ReportsOnly s (dramWriteFrom n a bs s) := by
  induction n generalizing a bs s with
  | zero => exact refl s
  | succ n ih =>
    exact cond (refl s) (after (ih ..)
      (cond (refl s) (cond (after (markWritten ..) (storeWord ..)) (mergeWord ..))))

theorem dramWrite (a : Nat) (bs : Bytes) (s : State) : ReportsOnly s (dramWrite a bs s) :=
  after (dramWriteFrom ..) (upd ..)

/-! ### A COMMIT taken off its queue -/

theorem unstage (js : List Nat) (s : State) : ReportsOnly s (unstage js s) := by
  unfold Machine.unstage
  induction js generalizing s with
  | nil => exact refl s
  | cons j js ih => exact after (ih _) (modEntry ..)

theorem dropCommit (c : PendingCommit) (s : State) : ReportsOnly s (dropCommit c s) :=
  after (sweep _) (after (unstage ..) (upd ..))

theorem failCommit (c : PendingCommit) (x : CommitFail) (s : State) : ReportsOnly s (failCommit c x s) :=
  after (finish ..) (after (logEv ..) (dropCommit ..))

end ReportsOnly

/-! ### The view -/

/-- What the gates of die A are opened by, and the gates. -/
structure GateView where
  /-- the frame in force -/
  frame : Nat
  /-- the device timebase -/
  tb : Nat
  /-- the Emission Supervisor -/
  es : EsState
  /-- die A has opened its gating -/
  granted : Bool
  /-- the heartbeat hold -/
  hold : Bool
  /-- heartbeats counted -/
  beats : Nat
  /-- the instant of the last heartbeat -/
  lastBeat : Nat

/-- The view of a state. -/
def gateView (s : State) : GateView :=
  ⟨s.angle.frame, s.angle.tb, s.es, s.shot.granted, s.shot.hold, s.shot.beats, s.shot.lastBeat⟩

namespace GateView

/-- The next frame is in force (02 R30). -/
def nextFrame (g : GateView) : GateView := { g with frame := g.frame + 1 }

/-- The gating follows the permit pair, and the hold ends after 64 heartbeats of which the last is fresh (10 R222, 01
R18). -/
def opened (g : GateView) : GateView :=
  { g with
    granted := g.es.permit
    hold := g.hold && !(decide (64 ≤ g.beats) && decide (g.tb < g.lastBeat + 3000)) }

end GateView

theorem ReportsOnly.gateView {s t : State} (h : ReportsOnly s t) : gateView t = gateView s := by
  obtain ⟨_, _, _, _, _, _, rfl⟩ := h
  rfl

@[simp] theorem gateView_openFrame (s : State) : gateView (openFrame s) = (gateView s).nextFrame := rfl

@[simp] theorem gateView_openGates (s : State) : gateView (openGates s) = (gateView s).opened := rfl

/-! ### What the operations of a frame boundary leave unchanged -/

@[simp] theorem gateView_logEv (code p0 p1 p2 : Nat) (s : State) : gateView (logEv code p0 p1 p2 s) = gateView s :=
  (ReportsOnly.logEv ..).gateView

@[simp] theorem gateView_finish (j : Nat) (r : Reply) (s : State) : gateView (finish j r s) = gateView s :=
  (ReportsOnly.finish ..).gateView

@[simp] theorem gateView_dropCommit (c : PendingCommit) (s : State) : gateView (dropCommit c s) = gateView s :=
  (ReportsOnly.dropCommit ..).gateView

@[simp] theorem gateView_failCommit (c : PendingCommit) (x : CommitFail) (s : State) :
    gateView (failCommit c x s) = gateView s :=
  (ReportsOnly.failCommit ..).gateView

@[simp] theorem gateView_setNextCol (n : Nat) (s : State) :
    gateView { s with angle.nextCol := n } = gateView s := rfl

@[simp] theorem gateView_modCourse (c : Nat) (f : CourseShot → CourseShot) (s : State) :
    gateView (modCourse c f s) = gateView s := rfl

@[simp] theorem gateView_modChan (c : Nat) (f : Channel → Channel) (s : State) :
    gateView (modChan c f s) = gateView s := rfl

@[simp] theorem gateView_modEngine (e : Nat) (f : Engine → Engine) (s : State) :
    gateView (modEngine e f s) = gateView s := rfl

@[simp] theorem gateView_modTile (f c j : Nat) (g : Tile → Tile) (s : State) :
    gateView (modTile f c j g s) = gateView s := rfl

@[simp] theorem gateView_modRing (r : Nat) (f : DlvRing → DlvRing) (s : State) :
    gateView (modRing r f s) = gateView s := rfl

theorem gateView_eachCourse {f : Nat → State → State} (h : ∀ c s, gateView (f c s) = gateView s) (s : State) :
    gateView (eachCourse f s) = gateView s :=
  forUpto_field gateView h s

/-! #### Columns and tiles -/

@[simp] theorem gateView_enableCourse (c : Nat) (s : State) : gateView (enableCourse c s) = gateView s := by
  unfold enableCourse
  split <;> rfl

@[simp] theorem gateView_readyTile (f c j : Nat) (s : State) : gateView (readyTile f c j s) = gateView s := by
  unfold readyTile
  split
  · rfl
  · split <;> rfl

@[simp] theorem gateView_countSuspect (f : Nat) (s : State) : gateView (countSuspect f s) = gateView s := by
  unfold countSuspect
  split
  · split <;> rfl
  · rfl

@[simp] theorem gateView_settleTile (f c j : Nat) (s : State) : gateView (settleTile f c j s) = gateView s := by
  unfold settleTile
  split
  · rfl
  · split
    · rw [gateView_readyTile]
      split
      · exact gateView_countSuspect ..
      · rfl
    · rfl

@[simp] theorem gateView_closeTile (f j c : Nat) (s : State) : gateView (closeTile f j c s) = gateView s :=
  gateView_settleTile ..

@[simp] theorem gateView_latchThresholds (f ch j : Nat) (s : State) :
    gateView (latchThresholds f ch j s) = gateView s := by
  unfold latchThresholds
  split
  · split
    · rfl
    · split <;> rfl
  · rfl

@[simp] theorem gateView_openTile (v : State) (j c : Nat) (s : State) : gateView (openTile v j c s) = gateView s :=
  (gateView_latchThresholds ..).trans (gateView_latchThresholds ..)

@[simp] theorem gateView_crossColumn (v : State) (c : Nat) (s : State) : gateView (crossColumn v c s) = gateView s := by
  have enabled : gateView (eachCourse enableCourse s) = gateView s := gateView_eachCourse gateView_enableCourse s
  have closed (u : State) : gateView (eachCourse (closeTile v.angle.frame (c - 1)) u) = gateView u :=
    gateView_eachCourse (gateView_closeTile _ _) u
  have opened (u : State) : gateView (eachCourse (openTile v c) u) = gateView u :=
    gateView_eachCourse (gateView_openTile v c) u
  simp [crossColumn, apply_ite gateView, enabled, closed, opened]

@[simp] theorem gateView_crossLeft (v : State) (k : Nat) (p : Nat → Bool) (s : State) :
    gateView (crossLeft v k p s) = gateView s := by
  refine forUpto_field gateView (fun c u => ?_) s
  split
  · exact gateView_crossColumn ..
  · rfl

/-! #### Records and rings -/

@[simp] theorem gateView_commitGap (r first last n : Nat) (s : State) :
    gateView (commitGap r first last n s) = gateView s :=
  gateView_logEv ..

@[simp] theorem gateView_commitDueGap (r : Nat) (s : State) : gateView (commitDueGap r s) = gateView s := by
  unfold commitDueGap
  split
  · rw [gateView_commitGap, gateView_modRing]
  · rfl

@[simp] theorem gateView_loseSlot (f t : Nat) (s : State) : gateView (loseSlot f t s) = gateView s := by
  unfold loseSlot
  split <;> rfl

@[simp] theorem gateView_arriveRecord (x : TileResult) (s : State) : gateView (arriveRecord x s) = gateView s := by
  have lost : gateView (loseSlot x.frame x.tile (noteArrived x.frame x.tile s)) = gateView s := gateView_loseSlot ..
  unfold arriveRecord
  dsimp only
  split
  · exact lost
  · split <;> exact lost

@[simp] theorem gateView_recordArrival (s : State) : gateView (recordArrival s) = gateView s := by
  unfold recordArrival
  split
  · rfl
  · exact gateView_arriveRecord ..

@[simp] theorem gateView_commitTile (r frame : Nat) (w : Bytes) (born : Nat) (s : State) :
    gateView (commitTile r frame w born s) = gateView s := by
  simp [commitTile, apply_ite gateView]

@[simp] theorem gateView_recordCommit (s : State) : gateView (recordCommit s) = gateView s := by
  unfold recordCommit
  split
  · rfl
  · exact gateView_commitTile ..

@[simp] theorem gateView_flushRecords (s : State) : gateView (flushRecords s) = gateView s :=
  (forUpto_field gateView (fun _ => gateView_recordCommit) _).trans
    (forUpto_field gateView (fun _ => gateView_recordArrival) s)

@[simp] theorem gateView_resumeRing (r : Nat) (s : State) : gateView (resumeRing r s) = gateView s := by
  simp [resumeRing]

@[simp] theorem gateView_commitHeader (step : Bool) (r : Nat) (s : State) :
    gateView (commitHeader step r s) = gateView s := by
  simp [commitHeader, apply_ite gateView]

@[simp] theorem gateView_takePlane (step : Bool) (s : State) : gateView (takePlane step s) = gateView s := by
  unfold takePlane
  dsimp only
  split
  · rfl
  · split
    · rfl
    · exact (ReportsOnly.dramWrite ..).gateView

@[simp] theorem gateView_headFrame (s : State) : gateView (headFrame s) = gateView s := by
  have headers (step : Bool) (u : State) : gateView (commitHeaders step u) = gateView u :=
    forEach_field gateView (gateView_commitHeader step) _ u
  have plane : gateView (takePlane s.time.stepFlag (openArrivals { s with time.stepFlag := false })) = gateView s :=
    gateView_takePlane ..
  simp [headFrame, apply_ite gateView, headers, plane]

@[simp] theorem gateView_setShares (s : State) : gateView (setShares s) = gateView s :=
  forEach_field gateView (fun r u => gateView_modRing r _ u) _ s

@[simp] theorem gateView_ringIrq (r : Nat) (s : State) : gateView (ringIrq r s).2 = gateView s := by
  unfold ringIrq
  dsimp only
  split
  · rfl
  · simp [apply_ite Prod.snd, apply_ite gateView]

@[simp] theorem gateView_applyRing (r f : Nat) (cfg : RingSettings) (s : State) :
    gateView (applyRing r f cfg s) = gateView s := by
  unfold applyRing
  dsimp only
  split
  · have written (a : Nat) (bs : Bytes) (u : State) : gateView (hostWrite a bs u) = gateView u :=
      (ReportsOnly.hostWrite ..).gateView
    have sent (v : Nat) (u : State) : gateView (msixSend v u) = gateView u := (ReportsOnly.msixSend ..).gateView
    simp [apply_ite gateView, sent, written]
  · split
    · rw [gateView_setShares, gateView_modRing]
    · rfl

/-! #### COMMITs, SNAPSHOTs and the predictor -/

@[simp] theorem gateView_setFamilyRange (s : State) : gateView (setFamilyRange s) = gateView s := by
  unfold setFamilyRange
  split
  · split
    · rfl
    · exact gateView_logEv ..
  · rfl

@[simp] theorem gateView_applyPlan (p : Plan) (f : Nat) (s : State) : gateView (applyPlan p f s) = gateView s :=
  (gateView_setFamilyRange _).trans (forEach_field gateView (fun _ _ => gateView_applyRing ..) ..)

@[simp] theorem gateView_passCommit (c : PendingCommit) (p : Plan) (f shown : Nat) (s : State) :
    gateView (passCommit c p f shown s) = gateView s := by
  simp [passCommit]

@[simp] theorem gateView_nextEpoch (s : State) : gateView (nextEpoch s) = gateView s := rfl

@[simp] theorem gateView_applyBlock (s : State) : gateView (applyBlock s) = gateView s := by
  unfold applyBlock
  split
  · exact gateView_logEv ..
  · rfl

@[simp] theorem gateView_clearFamilyRange (s : State) : gateView (clearFamilyRange s) = gateView s := by
  unfold clearFamilyRange
  split <;> rfl

@[simp] theorem gateView_applyBoundary (s : State) : gateView (applyBoundary s) = gateView s := by
  have epoch : gateView (if s.eng.blockNew.isSome then nextEpoch s else s) = gateView s := by
    split <;> rfl
  unfold applyBoundary
  dsimp only
  split
  · simp [epoch]
  · split <;> simp [epoch]

@[simp] theorem gateView_latchSnapshots (valid : Bool) (s : State) :
    gateView (latchSnapshots valid s) = gateView s := by
  unfold latchSnapshots
  split
  · rfl
  · exact forEach_field gateView (fun _ _ => gateView_finish ..) ..

@[simp] theorem gateView_logGoverned (s : State) : gateView (logGoverned s) = gateView s := by
  unfold logGoverned
  split
  · rfl
  · exact (gateView_logEv ..).trans (forEach_field gateView (fun _ => gateView_modCourse _ _) ..)

@[simp] theorem gateView_setPred (p : PredState) (s : State) : gateView (setPred p s) = gateView s := by
  unfold setPred
  split
  · rfl
  · refine (gateView_logEv ..).trans ?_
    split <;> rfl

@[simp] theorem gateView_judgeAngle (s : State) : gateView (judgeAngle s) = gateView s := by
  unfold judgeAngle
  extract_lets a n s1 src s2 s3
  have counted : gateView s1 = gateView s := rfl
  have judged : gateView s2 = gateView s1 := by
    unfold s2
    split
    · exact gateView_setPred ..
    · split
      · exact gateView_setPred ..
      · rfl
  have missed : gateView s3 = gateView s2 := by
    unfold s3
    split
    · exact gateView_setPred ..
    · rfl
  exact missed.trans (judged.trans counted)

@[simp] theorem gateView_openCourse (c : Nat) (s : State) : gateView (openCourse c s) = gateView s :=
  gateView_modCourse ..

@[simp] theorem gateView_judgeLanes (s : State) : gateView (judgeLanes s) = gateView s := rfl

/-! ### The crossing -/

/-- A crossing puts the next frame in force and opens the gates, and changes nothing else of the view. -/
theorem gateView_crossFrame (s : State) : gateView (crossFrame s) = (gateView s).nextFrame.opened := by
  unfold crossFrame
  extract_lets s1 s2 s3 s4 s5 s6 s7
  have crossed : gateView s1 = gateView s := by simp [s1, apply_ite gateView]
  have flushed : gateView s2 = gateView s1 := by simp [s2, apply_ite gateView]
  have judged : gateView s3 = gateView s2 := by simp [s3, apply_ite gateView]
  have framed : gateView s4 = (gateView s3).nextFrame := by rw [gateView_applyBoundary, gateView_openFrame]
  have gated : gateView s5 = (gateView s4).opened := by
    rw [gateView_openGates, gateView_judgeLanes, gateView_eachCourse gateView_openCourse]
  have headed : gateView s6 = gateView s5 := by simp [s6]
  have left : gateView { s7 with angle.nextCol := 0 } = gateView s6 := by
    rw [gateView_setNextCol, gateView_crossLeft]
  have last : gateView s6 = (gateView s).nextFrame.opened := by
    rw [headed, gated, framed, judged, flushed, crossed]
  split
  · exact left.trans last
  · exact last

/-- The boundary of the next frame, reached with die A running and a frame in force, is crossed. -/
theorem exec_frameBoundary {s : State} (h : frameDue s = true) : exec .frameBoundary s = .next (crossFrame s) := by
  simp [exec, execFrameBoundary, h]

/-- The hold stays as long as the heartbeats do not release it (01 R18). -/
theorem GateView.opened_hold_iff (g : GateView) :
    g.opened.hold = true ↔ g.hold = true ∧ (g.beats < 64 ∨ g.lastBeat + 3000 ≤ g.tb) := by
  simp [GateView.opened]

/-- Settles O46: in a crossing `openFrame` alone moves the frame and `openGates` alone the gates. -/
theorem nextFrameOpens : Obligations.NextFrameOpens := by
  intro s dieA framed reached
  have due : frameDue s = true := by simp [frameDue, dieA, framed, reached]
  have view := gateView_crossFrame s
  have frame : (crossFrame s).angle.frame = s.angle.frame + 1 := congrArg GateView.frame view
  have granted : (crossFrame s).shot.granted = s.es.permit := congrArg GateView.granted view
  have es : (crossFrame s).es = s.es := congrArg GateView.es view
  have hold : (crossFrame s).shot.hold = (gateView s).nextFrame.opened.hold := congrArg GateView.hold view
  refine ⟨crossFrame s, exec_frameBoundary due, frame, by rw [granted, es], ?_⟩
  rw [hold]
  exact GateView.opened_hold_iff _

end Sys2Proof
end

section
/-! The angle predictor and the device timebase (O2, O10, O45; 02 R25 to R42, 09 R196): a step on an empty queue, the
state after reset, and the commands of the predictor, the index and the boundaries. -/

namespace Sys2Proof

open Sys2Proof.Machine

/-! ### What reporting and forwarding leave unchanged -/

theorem ReportsOnly.angle {s t : State} (h : ReportsOnly s t) : t.angle = s.angle := by
  obtain ⟨_, _, _, _, _, _, rfl⟩ := h
  rfl

theorem ReportsOnly.time {s t : State} (h : ReportsOnly s t) : t.time = s.time := by
  obtain ⟨_, _, _, _, _, _, rfl⟩ := h
  rfl

theorem ReportsOnly.es {s t : State} (h : ReportsOnly s t) : t.es = s.es := by
  obtain ⟨_, _, _, _, _, _, rfl⟩ := h
  rfl

/-- Forwarding marks the journal entry, notes the command as remote and sends its frames. -/
theorem ReportsOnly.forwardRemote (e : JEntry) (s : State) : ReportsOnly s (forwardRemote e s) :=
  after (sendFragments ..) (upd ..)

theorem ReportsOnly.forwardNext (s : State) : ReportsOnly s (forwardNext s) := by
  unfold Machine.forwardNext
  split
  · exact cond (forwardRemote ..) (refl s)
  · exact refl s

/-- Where the command whose turn has come is not one for another member, nothing is forwarded (11 R239). -/
theorem forwardNext_of_local {s : State} (h : ∀ e, nextEntry s = some e → forwarded e = false) :
    forwardNext s = s := by
  unfold forwardNext
  split
  · next e he => simp [h e he]
  · rfl

/-! ### The step on an empty queue -/

theorem step_of_idle {s : State} (h : s.pending = []) : step s = .next (tick s) := by
  rw [step, h]

/-- Whatever the predictor does, one tick adds 1 to the timebase (02 R32). -/
theorem tickAngle_tb (a : AngleState) : (tickAngle a).tb = (a.tb + 1) % 2 ^ 64 := by
  unfold tickAngle
  split <;> rfl

theorem tick_angle (s : State) : (tick s).angle = tickAngle s.angle :=
  congrArg tickAngle (ReportsOnly.forwardNext s).angle

/-- The Emission Supervisor once its own clock has advanced by `dt`, while it is powered (10 R208, R211). -/
def advanceEs (dt : Nat) (e : EsState) : EsState :=
  { e with time := if e.powered then wrap64 (e.time + dt) else e.time }

theorem advanceEs_of_unpowered {dt : Nat} {e : EsState} (h : e.powered = false) : advanceEs dt e = e := by
  have stands : (if e.powered then wrap64 (e.time + dt) else e.time) = e.time := if_neg (by simp [h])
  exact congrArg (fun t => { e with time := t }) stands

theorem tick_es (s : State) : (tick s).es = advanceEs (Config.esAdvance (forwardNext s).free) s.es :=
  congrArg (advanceEs _) (ReportsOnly.forwardNext s).es

theorem tick_time_of_dark {s : State} (h : s.power.main = false) : (tick s).time = s.time := by
  simp [tick, drawFree, h, (ReportsOnly.forwardNext s).time]

/-- Settles O2: a step on an empty queue is `tick`, and forwarding touches neither clock. -/
theorem idleStepTicks : Obligations.IdleStepTicks := fun s idle =>
  ⟨tick s, step_of_idle idle, by rw [tick_angle, tickAngle_tb],
    fun off => by rw [tick_es, advanceEs_of_unpowered off], tick_time_of_dark, rfl, forwardNext_of_local⟩

/-! ### The state after reset -/

theorem box_reset (m : Nat) : box State.reset m = {} := rfl

theorem irqVector_reset (n : Nat) : irqVector State.reset n = 0xFF := rfl

/-- Settles O10: the tables of mailboxes and vectors are empty, so every entry reads its default. -/
theorem resetState : Obligations.ResetState :=
  ⟨rfl, rfl, rfl, fun m => by simp [box_reset], rfl, rfl, rfl, irqVector_reset, rfl, rfl, rfl, rfl⟩

/-! ### The predictor -/

/-- The angle state in which a predictor state begins: entry into COARSE starts an interval of R476. -/
def enterPred (p : PredState) (a : AngleState) : AngleState :=
  { a with
    pred := p
    ivCount := if p = .coarse then 0 else a.ivCount
    ivBad := if p = .coarse then false else a.ivBad }

/-- Marking the tiles in flight and logging the change leave the angle state as it is (02 Table ANGL-5). -/
theorem setPred_angle (p : PredState) (s : State) :
    (setPred p s).angle = if s.angle.pred = p then s.angle else enterPred p s.angle := by
  unfold setPred
  split
  · rfl
  · extract_lets s0 s1
    have marked : s0.angle = s.angle := by
      unfold s0
      split <;> rfl
    have logged : s1.angle = s.angle := (ReportsOnly.logEv ..).angle.trans marked
    exact congrArg (enterPred p) logged

@[simp] theorem setPred_pred (p : PredState) (s : State) : (setPred p s).angle.pred = p := by
  rw [setPred_angle]
  split
  · assumption
  · rfl

@[simp] theorem setPred_missed (p : PredState) (s : State) : (setPred p s).angle.missed = s.angle.missed := by
  rw [setPred_angle]
  split <;> rfl

/-- The oldest update leaves the link, and die A takes it up while it runs (02 R25, R35). -/
theorem exec_angleUpdate {s : State} {u : AngleUpdate} {rest : List AngleUpdate} (h : s.loop.sent = u :: rest) :
    exec .angleUpdate s = .next (if s.power.dieA then takeUpdate u { s with loop.sent := rest }
      else { s with loop.sent := rest }) := by
  simp only [exec, execAngleUpdate, h]

/-- A missed update is counted (02 R36). -/
def countMissed (s : State) : State :=
  { s with angle.missed := s.angle.missed + 1, angle.missedUpdates := sat32 (s.angle.missedUpdates + 1) }

/-- A missed update that is due is counted, and the third or a later one in LOCKED begins HOLDOVER (02 R36). -/
theorem exec_missedUpdate {s : State} (runs : s.angle.pred ≠ .stopped)
    (due : s.angle.lastArrival + s.angle.tc * (s.angle.missed + 1) + 1000 ≤ now s) :
    exec .missedUpdate s = .next
      (if 2 ≤ s.angle.missed ∧ s.angle.pred = .locked then setPred .holdover (countMissed s) else countMissed s) := by
  simp [exec, execMissedUpdate, countMissed, runs, Nat.not_lt.2 due]

/-! ### The index -/

/-- An edge of the selected source, no more than 40 ns past and within the history, is the index event (02 R37, R38). -/
theorem exec_indexEdge {r : Bool} {ti u : Nat} {s : State} (dieA : s.power.dieA = true)
    (selected : s.set.index.source = (if r then 0 else 1)) (recent : now s ≤ ti + 40)
    (angle : uAt64 s (64 * ti) = some u) : exec (.indexEdge r ti) s = .next (indexEvent (64 * ti) u s) := by
  simp [exec, execIndexEdge, dieA, selected, Nat.not_lt.2 recent, angle]

/-- An index that has not come in a turn and a quarter is counted and logged once (02 R42). -/
theorem exec_indexMissing {s : State} {r : Nat} (last : s.angle.uref = some r)
    (fresh : s.angle.missingLogged = false) (late : r + 5 * 2 ^ 30 ≤ uInt s) (runs : s.angle.pred ≠ .stopped) :
    exec .indexMissing s = .next (logEv 0x0202 (frameNo s) 0 0 { s with
      angle.missingLogged := true, angle.indexMissing := sat32 (s.angle.indexMissing + 1) }) := by
  have awaited : ¬(s.angle.missingLogged = true ∨ uInt s < r + 5 * 2 ^ 30 ∨ s.angle.pred = .stopped) := by
    simp only [fresh, Nat.not_lt.2 late, runs, Bool.false_eq_true, or_self, not_false_eq_true]
  simp only [exec, execIndexMissing, last, if_neg awaited]

/-- Samples of a PICK stream that have been taken and follow those tested before are tested in turn (09 R196). -/
theorem exec_pickCrossing {k : Fin 2} {t : Nat} {l : List (BitVec 14)} {s : State} (main : s.power.main = true)
    (taken : t ≤ now s) (whole : 50 * l.length ≤ t + 50)
    (reaches : t + 50 ≤ (tabGet {} s.loop.picks k.val).next + 50 * l.length)
    (aligned : (tabGet {} s.loop.picks k.val).last = none ∨ t % 50 = (tabGet {} s.loop.picks k.val).next % 50) :
    exec (.pickCrossing k t l) s = .next (pickSamples k.val (t + 50 - 50 * l.length) l s) := by
  have follows : t ≤ now s ∧ 50 * l.length ≤ t + 50 ∧
      t + 50 ≤ (tabGet {} s.loop.picks k.val).next + 50 * l.length ∧
      ((tabGet {} s.loop.picks k.val).last = none ∨ t % 50 = (tabGet {} s.loop.picks k.val).next % 50) :=
    ⟨taken, whole, reaches, aligned⟩
  simp only [exec, execPickCrossing, main, decide_eq_true follows, Bool.and_self, if_true]

/-! ### Column boundaries -/

@[simp] theorem crossColumn_nextCol (v : State) (c : Nat) (s : State) : (crossColumn v c s).angle.nextCol = c + 1 := rfl

/-- The next column boundary, reached in the frame in progress, is crossed (02 R28, 05 R110). -/
theorem exec_columnBoundary {c : Fin 2049} {s : State} (isNext : s.angle.nextCol = c.val)
    (due : columnDue s (if frameDue s then uPrev s else uInt s) = true) :
    exec (.columnBoundary c) s = .next (crossColumn s c.val s) := by
  simp only [exec, execColumnBoundary, isNext, due, decide_true, Bool.and_self, if_true]

/-- Settles O45: each command's meaning, once its tests pass, is the stated effect; of a missed update, whether LOCKED ends
is what the count and the predictor state decide. -/
theorem predictorAndFrameCommands : Obligations.PredictorAndFrameCommands := by
  refine ⟨fun _ _ _ => exec_angleUpdate, ?missed, fun _ _ _ _ => exec_indexEdge, fun _ _ => exec_indexMissing,
    fun _ _ isNext due => ⟨_, exec_columnBoundary isNext due, crossColumn_nextCol .., rfl⟩, fun _ => exec_frameBoundary,
    fun _ _ _ _ main => exec_pickCrossing main⟩
  case missed =>
    intro s runs due
    rw [exec_missedUpdate runs due]
    constructor
    · intro early
      have stays : ¬(2 ≤ s.angle.missed ∧ s.angle.pred = .locked) := fun ⟨third, locked⟩ =>
        early.elim (· locked) (Nat.not_lt.2 third)
      rw [if_neg stays]
      rfl
    · intro locked third
      rw [if_pos ⟨third, locked⟩]
      exact ⟨_, rfl, setPred_pred .., setPred_missed ..⟩

end Sys2Proof
end

section
/-! FILT_CONFIG, FILT_CONTROL, DET_CONFIG and the LOOP commands on a good payload (O29; 03 R53, R55, R57, R59, R66, R71,
R78): what each set of checks passes, and what the effect of each command is once its guards hold. -/

namespace Sys2Proof

open Sys2Proof.Machine

/-! ### FILT_CONFIG and FILT_CONTROL -/

/-- A stopped chain whose decimations multiply to 100 or more takes its settings (03 R52, R55). -/
theorem filtConfig_of_stopped {p : Bytes} {s : State} (slow : 100 ≤ decOf (u8 p 1) * u8 p 3)
    (stopped : (chain s (u8 p 0)).running = false) :
    filtConfig p s = (modChain (u8 p 0) (fun x => { x with
      configured := true, cicDec := decOf (u8 p 1), firLen := lenOf (u8 p 2), firDec := u8 p 3
      taps := (List.range (lenOf (u8 p 2) / 2)).map (fun i => s32 p (8 + 4 * i)) }) s, ok) := by
  simp [filtConfig, Nat.not_lt.2 slow, stopped]

/-- The loop refuses none of the chains that the command names (03 R57). -/
theorem any_loopRefuses_eq_false {s : State} {a n : Nat} (free : ∀ c ∈ chainsOf n, loopRefuses s a c = false) :
    (chainsOf n).any (loopRefuses s a) = false := List.any_eq_false.2 fun c hc => by simp [free c hc]

theorem filtControl_stop {p : Bytes} {s : State} (j : Nat) (action : u8 p 1 = 0)
    (free : ∀ c ∈ chainsOf (u8 p 0), loopRefuses s 0 c = false) :
    filtControl j p s = (forEach (chainsOf (u8 p 0)) (fun c s =>
      modChain c (fun x => { x with running := false, fresh := false, held := [] }) s) s, ok) := by
  simp [filtControl, action, any_loopRefuses_eq_false free]

theorem filtControl_start {p : Bytes} {s : State} (j : Nat) (action : u8 p 1 = 1)
    (free : ∀ c ∈ chainsOf (u8 p 0), loopRefuses s 1 c = false ∧ (chain s c).configured = true) :
    filtControl j p s = (forEach (chainsOf (u8 p 0)) (fun c s =>
      modChain c (startChain (u8 p 2) (u8 p 3) j) s) s, ok) := by
  have configured : (chainsOf (u8 p 0)).all (fun c => (chain s c).configured) = true :=
    List.all_eq_true.2 fun c hc => (free c hc).2
  simp [filtControl, action, any_loopRefuses_eq_false fun c hc => (free c hc).1, configured]

theorem filtControl_source {p : Bytes} {s : State} (j : Nat) (action : u8 p 1 = 2)
    (free : ∀ c ∈ chainsOf (u8 p 0), loopRefuses s 2 c = false) :
    filtControl j p s = (forEach (chainsOf (u8 p 0)) (fun c s =>
      modChain c (fun x => resetDetectors { x with source := u8 p 2, hkCh := u8 p 3 }) s) s, ok) := by
  simp [filtControl, action, any_loopRefuses_eq_false free]

/-- The payload checks of FILT_CONTROL (03 Table LOOP-10). -/
def filtControlFields (p : Bytes) : List (Bool × Nat) :=
  [(decide (u8 p 0 < 3), 0), (decide (u8 p 1 < 3), 1), (decide (u8 p 2 < 3), 2),
    (decide (u8 p 3 < 16 ∧ (u8 p 2 = 2 ∨ u8 p 3 = 0)), 3), rsv p 4 4]

theorem filtControlFields_good {p : Bytes} (chains : u8 p 0 < 3) (action : u8 p 1 < 3) (source : u8 p 2 < 3)
    (hkCh : u8 p 3 < 16) (unused : u8 p 2 = 2 ∨ u8 p 3 = 0) (reserved : allZero p 4 4 = true) :
    AllGood (filtControlFields p) := by
  simp [filtControlFields, allGood_cons, allGood_rsv, allGood_nil, chains, action, source, hkCh, unused, reserved]

/-- Whatever FILT_CONTROL does to the chains, the loop is settled after it (03 R55). -/
theorem applies_filtControl {good : JEntry → State → Prop} {eff : JEntry → State → State}
    (does : ∀ e s, good e s → e.payload.length = 8 ∧ AllGood (filtControlFields e.payload) ∧
      filtControl e.jseq e.payload s = (eff e s, ok)) :
    Applies 0x0602 .filtControl good (fun e s => settleLoop (eff e s)) (fun _ _ => ok) := by
  refine applies_of_answered (fun _ _ => by rw [exec, execFiltControl]) fun e s h => ?_
  obtain ⟨length, fields, effect⟩ := does e s h
  refine (checked_none (fixedPayload_none length fields)).trans ?_
  rw [effect]

/-! ### The loop commands -/

/-- The bank that LOOP_LOAD would fill is not in use: neither the one in force, nor the start-up set in a state that
runs it (03 R66, R71). -/
theorem loadBusy_eq_false {t : Nat} {s : State} (bank : t < 2 → t ≠ s.loop.bank) (h3 : t < 3)
    (startup : t = 2 → s.loop.run ≠ .startup ∧ s.loop.run ≠ .recovery ∧ s.loop.run ≠ .selftest) :
    (if t = 2 then decide (s.loop.run = .startup ∨ s.loop.run = .recovery ∨ s.loop.run = .selftest)
      else decide (t = s.loop.bank)) = false := by
  split
  · next h => simpa using startup h
  · next h => simpa using bank (by omega)

/-- The payload checks of LOOP_CONTROL (03 Table LOOP-13). -/
theorem loopControl_none {p : Bytes} (length : p.length = 8) (action : u8 p 0 < 6) (low : allZero p 1 1 = true)
    (drive : u8 p 0 = 2 ∨ u16 p 2 = 0) (high : allZero p 4 4 = true) :
    fixedPayload p 8 [(decide (u8 p 0 < 6), 0), rsv p 1 1, (decide (u8 p 0 = 2 ∨ u16 p 2 = 0), 2), rsv p 4 4] = none :=
  fixedPayload_none length (by simp [allGood_cons, allGood_rsv, allGood_nil, action, low, drive, high])

/-- Settles O29: each payload passes its checks, and what the handler then does is the stated effect. -/
theorem filterAndLoopCommands : Obligations.FilterAndLoopCommands := by
  refine ⟨?filtConfig, applies_filtControl ?stop, applies_filtControl ?start, applies_filtControl ?source,
    ?detConfig, ?loopConfig, ?loopLoad, ?loopControl, ?refused⟩
  case filtConfig =>
    refine applies_of_answered (fun _ _ => by rw [exec, execFiltConfig]) fun e s good => ?_
    obtain ⟨chainNo, cic, fir, one, most, reserved, length, taps, slow, stopped⟩ := good
    have fixed : AllGood [(decide (u8 e.payload 0 < 2), 0), (decide (u8 e.payload 1 < 3), 1),
        (decide (u8 e.payload 2 < 3), 2), (within 1 (u8 e.payload 3) 32, 3), rsv e.payload 4 4] := by
      simp [allGood_cons, allGood_rsv, allGood_nil, within_iff, chainNo, cic, fir, one, most, reserved]
    have tapsGood : AllGood ((List.range (lenOf (u8 e.payload 2) / 2)).map
        (fun i => (signExt e.payload (8 + 4 * i) 4 18, 8 + 4 * i))) :=
      (allGood_map ..).2 fun i hi => taps i (List.mem_range.1 hi)
    rw [checked_none (varPayload_none length (Nat.le_add_right ..) fixed tapsGood), filtConfig_of_stopped slow stopped]
  case stop =>
    rintro e s ⟨length, chains, action, source, hkCh, unused, reserved, free⟩
    exact ⟨length, filtControlFields_good chains (by omega) source hkCh unused reserved,
      filtControl_stop _ action free⟩
  case start =>
    rintro e s ⟨length, chains, action, source, hkCh, unused, reserved, free⟩
    exact ⟨length, filtControlFields_good chains (by omega) source hkCh unused reserved,
      filtControl_start _ action free⟩
  case source =>
    rintro e s ⟨length, chains, action, source, hkCh, unused, reserved, free⟩
    exact ⟨length, filtControlFields_good chains (by omega) source hkCh unused reserved,
      filtControl_source _ action free⟩
  case detConfig =>
    refine applies_of_answered (fun _ _ => by rw [exec, execDetConfig]) fun e s good => ?_
    obtain ⟨length, chainNo, rms, omega, one, most, center, level, hyst, enable, reserved⟩ := good
    exact checked_none (fixedPayload_none length (by
      simp only [allGood_cons, allGood_rsv, allGood_nil, within_iff, decide_eq_true_eq, chainNo, rms, omega, one, most,
        center, level, hyst, enable, reserved, and_self]))
  case loopConfig =>
    refine applies_of_answered (fun _ _ => by rw [exec, execLoopConfig]) fun e s good => ?_
    obtain ⟨length, fields, idle⟩ := good
    rw [checked_none (fixedPayload_none length fields), if_pos idle]
    rfl
  case loopLoad =>
    refine applies_of_answered (fun _ _ => by rw [exec, execLoopLoad]) fun e s good => ?_
    obtain ⟨length, set, one, most, expIn, reserved, stages, bank, startup⟩ := good
    have fields : AllGood ([(decide (u8 e.payload 0 < 3), 0), (within 1 (u8 e.payload 1) 8, 1),
        (signExt e.payload 2 1 6, 2), rsv e.payload 3 5] ++ (List.range 8).flatMap (stageFields e.payload)) := by
      refine (allGood_append ..).2 ⟨?_, (allGood_flatMap ..).2 fun k hk => stages k (List.mem_range.1 hk)⟩
      simp [allGood_cons, allGood_rsv, allGood_nil, within_iff, set, one, most, expIn, reserved]
    rw [checked_none (fixedPayload_none length fields)]
    dsimp only
    rw [loadBusy_eq_false bank set startup]
    rfl
  case loopControl =>
    refine opens_of_unanswered (fun _ _ => by rw [exec, execLoopControl]) fun e s good => ?_
    obtain ⟨length, action, low, drive, high, passes⟩ := good
    simp only [loopControl_none length action low drive high, passes]
  case refused =>
    intro r
    refine applies_of_answered (fun _ _ => by rw [exec, execLoopControl]) fun e s good => ?_
    obtain ⟨length, action, low, drive, high, fails⟩ := good
    simp only [loopControl_none length action low drive high, fails]

end Sys2Proof
end

section
/-! CHAIN_OUTPUT with the loop stopped, the end of the self-test, a slow start and the PWM cycle (O52; 03 R51, R54, R58,
R60, R69, R75, R76). -/

namespace Sys2Proof

open Sys2Proof.Machine

/-! ### Outputs of a chain -/

/-- A crossing is reported, and changes no chain and nothing of the loop (03 R58). -/
theorem ReportsOnly.thresholdEvent (c : Nat) (was : Bool) (s : State) : ReportsOnly s (thresholdEvent c was s) :=
  cond (refl s) (after (raiseIrq ..) (logEv ..))

@[simp] theorem thresholdEvent_loop (c : Nat) (was : Bool) (s : State) : (thresholdEvent c was s).loop = s.loop :=
  (ReportsOnly.thresholdEvent c was s).loop

/-- A stall is looked for only where its detection is armed (03 Table LOOP-8). -/
theorem stallCheck_of_unarmed {s : State} (c : Nat) (h : stallArmed s.loop.run = false) : stallCheck c s = s := by
  simp [stallCheck, h]

/-- Both outputs are used up by the control period they begin (03 R60). -/
def useOutputs (s : State) : State :=
  modChain 0 (fun y => { y with fresh := false }) (modChain 1 (fun y => { y with fresh := false }) s)

/-- The state in which chain `c` has taken in the samples of an output and a crossing is reported (03 R51, R58). -/
def takeOutput (c : Nat) (l : List (BitVec 14)) (s : State) : State :=
  thresholdEvent c (chain s c).high (modChain c (fun y => chainStep y (inputSamples (chain s c) l)) s)

theorem takeOutput_run (c : Nat) (l : List (BitVec 14)) (s : State) : (takeOutput c l s).loop.run = s.loop.run := by
  simp [takeOutput]

theorem takeOutput_loopCfg (c : Nat) (l : List (BitVec 14)) (s : State) : loopCfg (takeOutput c l s) = loopCfg s := by
  simp [takeOutput, loopCfg]

/-- An output of one chain with the loop stopped: no stall is looked for, and where no control period begins, no output is
used up, since the mode needs one chain alone (03 R54, R60). -/
theorem exec_chainOutput_stopped {c : Fin 2} {l : List (BitVec 14)} {s : State}
    (runs : (chain s c.val).running = true) (main : s.power.main = true)
    (whole : (inputSamples (chain s c.val) l).length = (chain s c.val).cicDec * (chain s c.val).firDec)
    (mode : (loopCfg s).mode ≠ 0) (stopped : s.loop.run = .stopped) :
    exec (.chainOutput c l) s = .next
      (if beginsPeriod c.val (takeOutput c.val l s) then controlPeriod (useOutputs (takeOutput c.val l s))
      else takeOutput c.val l s) := by
  have unarmed : stallArmed (takeOutput c.val l s).loop.run = false := by
    rw [takeOutput_run, stopped]
    rfl
  have one : (loopCfg (takeOutput c.val l s)).mode ≠ 0 := by rwa [takeOutput_loopCfg]
  rw [exec, execChainOutput]
  simp only [runs, main, whole, ne_eq, not_true_eq_false, decide_false, Bool.not_true, Bool.or_self, Bool.false_eq_true,
    if_false]
  rw [← takeOutput]
  simp only [stallCheck_of_unarmed _ unarmed, ite_self, one, false_and, if_false]
  rfl

/-! ### States of the loop -/

/-- In STOPPED no detection is armed, so every counter starts anew (03 R69). -/
theorem enterLoop_stopped (s : State) : enterLoop .stopped s =
    { s with loop.run := .stopped, loop.settle := 0, loop.stall := 0, loop.track := 0, loop.service := 0 } := by
  simp [enterLoop, stallArmed]

theorem exec_loopSelftestDone {good : Bool} {j : Nat} {s : State} (selftest : s.loop.run = .selftest)
    (waits : s.loop.selftestOf = some j) :
    exec (.loopSelftestDone good) s = .next (endControl (if good then 0 else 0x40) j
      { enterLoop .stopped s with loop.selftestFailed := !good, loop.selftestOf := none }) := by
  simp [exec, execLoopSelftestDone, selftest, waits]

theorem exec_loopStartSlow {s : State} (startup : s.loop.run = .startup) (fresh : s.loop.slowLogged = false)
    (old : s.loop.startupAt + 10000000000 ≤ now s) :
    exec .loopStartSlow s = .next (logEv 0x0603 s.loop.period 0 0 { s with loop.slowLogged := true }) := by
  simp [exec, execLoopStartSlow, startup, fresh, old]

/-! ### A loop fault -/

/-- The predictor state beside the loop. -/
def loopView (s : State) : LoopState × PredState := (s.loop, s.angle.pred)

theorem ReportsOnly.loopView {s t : State} (h : ReportsOnly s t) : loopView t = loopView s := by
  obtain ⟨_, _, _, _, _, _, rfl⟩ := h
  rfl

theorem loopView_modCourse (c : Nat) (f : CourseShot → CourseShot) (s : State) :
    loopView (modCourse c f s) = loopView s := rfl

theorem loopView_readyTile (f c j : Nat) (s : State) : loopView (readyTile f c j s) = loopView s := by
  unfold readyTile
  split
  · rfl
  · split <;> rfl

theorem loopView_countSuspect (f : Nat) (s : State) : loopView (countSuspect f s) = loopView s := by
  unfold countSuspect
  split
  · split <;> rfl
  · rfl

theorem loopView_settleTile (f c j : Nat) (s : State) : loopView (settleTile f c j s) = loopView s := by
  unfold settleTile
  split
  · rfl
  · split
    · rw [loopView_readyTile]
      split
      · exact loopView_countSuspect ..
      · rfl
    · rfl

theorem loopView_logGoverned (s : State) : loopView (logGoverned s) = loopView s := by
  unfold logGoverned
  split
  · rfl
  · exact (ReportsOnly.logEv ..).loopView.trans (forEach_field loopView (fun c => loopView_modCourse c _) ..)

/-- Cutting the frame in progress settles its tiles, and changes neither the loop nor the predictor state (02 R44). -/
theorem loopView_cutFrame (s : State) : loopView (cutFrame s) = loopView s :=
  (forEach_field loopView (fun _ _ => loopView_settleTile ..) ..).trans (loopView_logGoverned s)

theorem setPred_loop (p : PredState) (s : State) : (setPred p s).loop = s.loop := by
  unfold setPred
  split
  · rfl
  · refine (ReportsOnly.logEv ..).loop.trans ?_
    split <;> rfl

theorem loopView_stopPredictor (s : State) : loopView (stopPredictor s) = (s.loop, .stopped) := by
  unfold stopPredictor
  split
  · next h => rw [loopView, h]
  · rw [loopView_cutFrame]
    exact Prod.ext (setPred_loop ..) (setPred_pred ..)

/-- A loop fault is counted with its cause and raises the supervisor's input; SERVICE is counted anew, and no angle
update is sent any more (03 R76). -/
theorem loopFault_loop (cause : Nat) (s : State) : (loopFault cause s).loop =
    { s.loop with
      faultNew := some cause, faultCause := cause, faults := sat32 (s.loop.faults + 1), esInput := true
      service := 0, update := none, sent := [] } :=
  (congrArg Prod.fst (loopView_stopPredictor _)).trans (ReportsOnly.logEv ..).loop

theorem loopFault_pred (cause : Nat) (s : State) : (loopFault cause s).angle.pred = .stopped :=
  congrArg Prod.snd (loopView_stopPredictor _)

/-! ### The PWM cycle -/

/-- A PWM cycle takes the new duty where there is one (03 R75). -/
def loadDuty (s : State) : State :=
  { s with loop.duty := s.loop.dutyNew.getD s.loop.duty, loop.dutyNew := none }

theorem exec_pwmCycleStart_off {l : BitVec 3} {s : State} (pwm : (loopCfg s).pwm = true) (main : s.power.main = true)
    (off : s.loop.driveOn = false) : exec (.pwmCycleStart l) s = .next (loadDuty s) := by
  simp [exec, execPwmCycleStart, loadDuty, pwm, main, off]

/-- With the drive on, the levels of the cycle that ended decide: right ones clear the count of wrong cycles, and the
third wrong one in a row is a fault (03 R76, Table LOOP-8). -/
theorem exec_pwmCycleStart_on {l : BitVec 3} {s : State} (pwm : (loopCfg s).pwm = true) (main : s.power.main = true)
    (on : s.loop.driveOn = true) : exec (.pwmCycleStart l) s = .next
      (if l = midLevels s then { loadDuty s with loop.pwmCycles := 0 }
      else if s.loop.pwmCycles < 2 then { loadDuty s with loop.pwmCycles := s.loop.pwmCycles + 1 }
      else loopFault 3 { loadDuty s with loop.pwmCycles := 0 }) := by
  have runs : (!(loopCfg s).pwm || !s.power.main) = false := by simp [pwm, main]
  have driven : (!s.loop.driveOn) = false := by simp [on]
  rw [exec, execPwmCycleStart]
  simp only [runs, driven, Bool.false_eq_true, if_false]
  by_cases right : l = midLevels s
  · simp only [if_pos right]
    rfl
  · by_cases early : s.loop.pwmCycles < 2
    · simp only [if_neg right, if_pos early, if_neg (show ¬3 ≤ s.loop.pwmCycles + 1 by omega)]
      rfl
    · simp only [if_neg right, if_neg early, if_pos (show 3 ≤ s.loop.pwmCycles + 1 by omega)]
      rfl

/-- Settles O52: each event, once its guards hold, is the stated effect; the third wrong PWM cycle is the loop fault 3. -/
theorem filterAndLoopEvents : Obligations.FilterAndLoopEvents := by
  refine ⟨?chainOutput, ?selftest, fun _ => exec_loopStartSlow, ?pwmCycle⟩
  case chainOutput =>
    intro c l s runs main _ whole mode stopped
    rw [exec_chainOutput_stopped runs main whole mode stopped]
    exact ⟨fun none => congrArg Host.Outcome.next (if_neg (Bool.eq_false_iff.1 none)),
      fun begins => congrArg Host.Outcome.next (if_pos begins)⟩
  case selftest =>
    intro good j s selftest waits
    rw [exec_loopSelftestDone selftest waits, enterLoop_stopped]
  case pwmCycle =>
    intro l s pwm main
    refine ⟨exec_pwmCycleStart_off pwm main, fun on right => ?_, fun on wrong early => ?_, fun on wrong third => ?_⟩
    · rw [exec_pwmCycleStart_on pwm main on, if_pos right]
      rfl
    · rw [exec_pwmCycleStart_on pwm main on, if_neg wrong, if_pos early]
      rfl
    · rw [exec_pwmCycleStart_on pwm main on, if_neg wrong, if_neg (Nat.not_lt.2 third)]
      have loop := loopFault_loop 3 { loadDuty s with loop.pwmCycles := 0 }
      exact ⟨_, rfl, congrArg LoopState.faultNew loop, congrArg LoopState.esInput loop, congrArg LoopState.faults loop,
        congrArg LoopState.pwmCycles loop, loopFault_pred ..⟩

end Sys2Proof
end

section
/-! The FIRE pulses (O8; 04 R86, R88): which commands put one out, by the case split over the commands of O5. -/

namespace Sys2Proof

open Sys2Proof.Machine

/-- A command that may put out a pulse is a launch or the second pulse of a double pulse. -/
theorem firesPulse_iff (i : Instr) :
    firesPulse i = true ↔ (∃ c a b, i = .shotLaunch c a b) ∨ ∃ c, i = .doublePulseSecond c := by
  cases i <;> simp [firesPulse]

/-- Settles O8: a command that is neither of the two that may fire keeps the pulses, also where it may grant. -/
theorem pulsesOnlyAtTheirCommands : Obligations.PulsesOnlyAtTheirCommands := by
  intro i s t next notLaunch notSecond
  obtain keeps | ⟨calm, -⟩ | ⟨-, fires⟩ := exec_keeps_or_grants_or_fires i s
  · exact (keeps t next).dark
  · exact (calm t next).noPulse
  · obtain ⟨c, a, b, launch⟩ | ⟨c, second⟩ := (firesPulse_iff i).1 fires
    · exact absurd launch (notLaunch c a b)
    · exact absurd second (notSecond c)

end Sys2Proof
end

section
/-! The launch of a shot (O47; 04 R86 to R88, 05 R113, 09 R197): what it does is seen in the scheduler and
the trace, which the tiles, the windows and the capture units leave as they are. -/

namespace Sys2Proof

open Sys2Proof.Machine

/-! ### What the receive path changes -/

/-- The states differ in the predictor, the channels, the tiles and engines, and the capture units alone. -/
def ReceiveOnly (s t : State) : Prop :=
  ∃ angle recv eng capt, t = { s with angle := angle, recv := recv, eng := eng, capt := capt }

namespace ReceiveOnly

/-- A change of those fields. -/
theorem upd (s : State) (angle recv eng capt) :
    ReceiveOnly s { s with angle := angle, recv := recv, eng := eng, capt := capt } := ⟨angle, recv, eng, capt, rfl⟩

theorem refl (s : State) : ReceiveOnly s s := upd ..

theorem trans {s t u : State} (h : ReceiveOnly s t) (k : ReceiveOnly t u) : ReceiveOnly s u := by
  obtain ⟨_, _, _, _, rfl⟩ := h
  obtain ⟨_, _, _, _, rfl⟩ := k
  exact upd ..

/-- The last operation first. -/
theorem after {s t u : State} (k : ReceiveOnly t u) (h : ReceiveOnly s t) : ReceiveOnly s u := h.trans k

/-- Both branches. -/
theorem cond {c : Prop} [Decidable c] {s a b : State} (h : ReceiveOnly s a) (k : ReceiveOnly s b) :
    ReceiveOnly s (if c then a else b) := by
  split
  · exact h
  · exact k

/-- What every turn of a loop leaves unchanged, the loop does. -/
theorem forUpto {n : Nat} {f : Nat → State → State} (h : ∀ k u, ReceiveOnly u (f k u)) (s : State) :
    ReceiveOnly s (forUpto n f s) := by
  induction n with
  | zero => exact refl s
  | succ n ih => exact (h n _).after ih

theorem out {s t : State} (h : ReceiveOnly s t) : t.out = s.out := by
  obtain ⟨_, _, _, _, rfl⟩ := h
  rfl

theorem course {s t : State} (h : ReceiveOnly s t) (c : Nat) : course t c = course s c := by
  obtain ⟨_, _, _, _, rfl⟩ := h
  rfl

theorem modTile (f c j : Nat) (g : Tile → Tile) (s : State) : ReceiveOnly s (modTile f c j g s) := upd ..
theorem modChan (ch : Nat) (f : Channel → Channel) (s : State) : ReceiveOnly s (modChan ch f s) := upd ..
theorem modEngine (e : Nat) (f : Engine → Engine) (s : State) : ReceiveOnly s (modEngine e f s) := upd ..
theorem modCapt (u : Nat) (f : CaptUnit → CaptUnit) (s : State) : ReceiveOnly s (modCapt u f s) := upd ..

theorem readyTile (f c j : Nat) (s : State) : ReceiveOnly s (readyTile f c j s) := by
  unfold Machine.readyTile
  split
  · exact refl s
  · exact cond (after (modEngine ..) (modTile ..)) (refl s)

theorem countSuspect (f : Nat) (s : State) : ReceiveOnly s (countSuspect f s) := by
  unfold Machine.countSuspect
  split
  · exact cond (refl s) (upd ..)
  · exact upd ..

theorem settleTile (f c j : Nat) (s : State) : ReceiveOnly s (settleTile f c j s) := by
  unfold Machine.settleTile
  split
  · exact refl s
  · exact cond (after (readyTile ..) (cond (after (countSuspect ..) (upd ..)) (upd ..))) (refl s)

theorem openWindow (t : Tile) (fl : Flight) (conv : Conversion) (dead : Bool) (side : Nat) (s : State) :
    ReceiveOnly s (openWindow t fl conv dead side s) :=
  cond (after (modChan ..) (modTile ..)) (after (modChan ..) (modTile ..))

theorem openWindows (t : Tile) (fl : Flight) (a b : Conversion) (s : State) :
    ReceiveOnly s (openWindows t fl a b s) := by
  have first : ReceiveOnly s (if bit t.recv.sides 0 then Machine.openWindow t fl a false 0 s else s) :=
    cond (openWindow ..) (refl s)
  exact cond (openWindow ..) (cond (after (openWindow ..) first) first)

theorem disarm (c : Nat) (fl : Flight) (s : State) : ReceiveOnly s (disarm c fl s) :=
  after (cond (modChan ..) (refl _)) (cond (modChan ..) (refl s))

/-- A launch that reaches the capture units changes neither the scheduler nor the trace (09 R197). -/
theorem captureLaunch (c : Nat) (fl : Flight) (s : State) : ReceiveOnly s (captureLaunch c fl s) :=
  forUpto (fun _ u => cond (refl u) (cond (modCapt ..) (cond (modCapt ..) (refl u)))) s

end ReceiveOnly

/-! ### Courses -/

/-- A course reads back as it was changed, unless the change makes it one that has never been used. -/
theorem course_modCourse {c : Nat} {f : CourseShot → CourseShot} {s : State} (used : f (course s c) ≠ {}) :
    course (modCourse c f s) c = f (course s c) := tabGet_set_of_ne _ c used

theorem ne_unused_of_flights {x : CourseShot} (h : x.flights ≠ []) : x ≠ {} := fun e =>
  h (congrArg CourseShot.flights e)

theorem ne_unused_of_denied {x : CourseShot} (h : x.denied ≠ 0) : x ≠ {} := fun e => h (congrArg CourseShot.denied e)

/-- A course with flights still has them once one is changed, and nothing else of it is. -/
theorem course_modFlight {c : Nat} {s : State} (fl : Flight) (g : Flight → Flight) (h : (course s c).flights ≠ []) :
    course (modFlight c fl g s) c =
      { course s c with flights := (course s c).flights.map (fun y => if y = fl then g y else y) } :=
  course_modCourse (ne_unused_of_flights (by simpa using h))

/-- The flight that waits for its launch is one of the course's. -/
theorem flights_ne_nil_of_launchable {c : Nat} {s : State} {fl : Flight} (h : launchable c s = some fl) :
    (course s c).flights ≠ [] := List.ne_nil_of_mem (List.mem_of_find?_eq_some h)

/-! ### A pulse -/

/-- The pulse leaves where emission is granted, and nothing does where it is denied (04 R88). -/
theorem emitPulse_out (c edge : Nat) (fl : Flight) (t : Tile) (s : State) :
    (emitPulse c edge fl t s).out = if emitOk s then .fire c edge t.prog.pulse :: s.out else s.out := by
  unfold emitPulse
  split <;> rfl

/-- Granted or denied, a pulse counts no shot: the launch does. -/
theorem emitPulse_fired {c : Nat} {s : State} (edge : Nat) (fl : Flight) (t : Tile) (h : (course s c).flights ≠ []) :
    (course (emitPulse c edge fl t s) c).fired = (course s c).fired := by
  unfold emitPulse
  split
  · have marked := course_modFlight fl (fun y => { y with pulses := y.pulses ++ [edge] }) h
    have fired := congrArg CourseShot.fired marked
    exact fired
  · rfl

/-! ### A launch -/

/-- The flight once its shot is launched: a double pulse waits for its second pulse (04 R85). -/
def launchedFlight (fl : Flight) (t : Tile) : Flight := { fl with launched := true, second := t.prog.dpEnable }

/-- The state in which a launched shot's first pulse is put out or ended: the flight is launched, and the shot counts
for its course and its tile (04 R86, R107). -/
def countLaunch (c : Nat) (fl : Flight) (t : Tile) (s : State) : State :=
  modTile fl.frame c fl.column (fun y => { y with fired := y.fired + 1 })
    (modCourse c (fun x => { x with fired := wrap64 (x.fired + 1) })
      (modFlight c fl (fun _ => launchedFlight fl t) s))

theorem launchShot_eq (c : Nat) (fl : Flight) (t : Tile) (a b : Conversion) (s : State) :
    launchShot c fl t a b s =
      openWindows t fl a b (emitPulse c fl.launch (launchedFlight fl t) t (countLaunch c fl t s)) := rfl

/-- Counting a launch leaves the gates as they are. -/
theorem emitOk_countLaunch (c : Nat) (fl : Flight) (t : Tile) (s : State) : emitOk (countLaunch c fl t s) = emitOk s :=
  rfl

theorem course_countLaunch {c : Nat} {s : State} (fl : Flight) (t : Tile) (h : (course s c).flights ≠ []) :
    (course (countLaunch c fl t s) c).fired = wrap64 ((course s c).fired + 1) ∧
      (course (countLaunch c fl t s) c).flights ≠ [] := by
  have launched := course_modFlight fl (fun _ => launchedFlight fl t) h
  have kept : (course (modFlight c fl (fun _ => launchedFlight fl t) s) c).flights ≠ [] := by
    rw [launched]
    simpa using h
  have counted := course_modCourse (f := fun x => { x with fired := wrap64 (x.fired + 1) }) (ne_unused_of_flights kept)
  have fired := congrArg CourseShot.fired counted
  have flights := congrArg CourseShot.flights counted
  exact ⟨fired.trans (by rw [launched]), fun e => kept (flights.symm.trans e)⟩

theorem launchShot_out (c : Nat) (fl : Flight) (t : Tile) (a b : Conversion) (s : State) :
    (launchShot c fl t a b s).out = if emitOk s then .fire c fl.launch t.prog.pulse :: s.out else s.out := by
  rw [launchShot_eq, (ReceiveOnly.openWindows ..).out, emitPulse_out, emitOk_countLaunch]
  rfl

theorem launchShot_fired {c : Nat} {s : State} (fl : Flight) (t : Tile) (a b : Conversion)
    (h : (course s c).flights ≠ []) :
    (course (launchShot c fl t a b s) c).fired = wrap64 ((course s c).fired + 1) := by
  obtain ⟨fired, flights⟩ := course_countLaunch fl t h
  rw [launchShot_eq, (ReceiveOnly.openWindows ..).course, emitPulse_fired _ _ _ flights, fired]

/-! ### A denial -/

/-- A shot that does not launch puts nothing out. -/
theorem unfired_out (c : Nat) (fl : Flight) (s : State) : (unfired c fl s).out = s.out := by
  have disarmed : (disarm c fl s).out = s.out := (ReceiveOnly.disarm ..).out
  rw [unfired, (ReceiveOnly.settleTile ..).out]
  exact disarmed

/-- It leaves flight, and its launch instant is forgotten; of a course that counts a denial nothing else changes. -/
theorem course_unfired {c : Nat} {s : State} (fl : Flight) (h : (course s c).denied ≠ 0) :
    course (unfired c fl s) c =
      { course s c with
        flights := (course s c).flights.filter (fun y => decide (y ≠ fl))
        launches := (course s c).launches.filter (fun p => decide (p ≠ fl.launch)) } := by
  have disarmed : course (disarm c fl s) c = course s c := (ReceiveOnly.disarm ..).course c
  have dropped : course (dropFlight c fl (disarm c fl s)) c =
      { course s c with flights := (course s c).flights.filter (fun y => decide (y ≠ fl)) } :=
    (course_modCourse (ne_unused_of_denied (by rw [disarmed]; exact h))).trans (by rw [disarmed])
  unfold unfired
  rw [(ReceiveOnly.settleTile ..).course, (ReceiveOnly.modTile ..).course,
    course_modCourse (ne_unused_of_denied (by rw [dropped]; exact h)), dropped]

/-- A denial is counted (04 R107). -/
def countDenial (c : Nat) (s : State) : State := modCourse c (fun x => { x with denied := sat32 (x.denied + 1) }) s

theorem sat32_succ_ne_zero (n : Nat) : sat32 (n + 1) ≠ 0 := by
  unfold sat32
  omega

theorem course_countDenial (c : Nat) (s : State) :
    course (countDenial c s) c = { course s c with denied := sat32 ((course s c).denied + 1) } :=
  course_modCourse (ne_unused_of_denied (sat32_succ_ne_zero _))

/-! ### SHOT_LAUNCH -/

/-- The sample of the gates 1 ns before decides between a launch and a denial (04 R88). -/
theorem shotLaunch_eq {c : Nat} {s : State} {fl : Flight} {t : Tile} (a b : Conversion)
    (waits : launchable c s = some fl) (tile : findTile fl.frame c fl.column s = some t) :
    shotLaunch c a b s = if s.shot.sampled then launchShot c fl t a b s else unfired c fl (countDenial c s) := by
  simp only [shotLaunch, waits, tile]
  rfl

/-- Beside the launch or the denial, capture units alone change (09 R197). -/
theorem exec_shotLaunch {c : Fin 128} {s : State} {fl : Flight} (a b : Conversion) (dieA : s.power.dieA = true)
    (waits : launchable c.val s = some fl) :
    ∃ t, exec (.shotLaunch c a b) s = .next t ∧ ReceiveOnly (shotLaunch c.val a b s) t := by
  refine ⟨if (course (shotLaunch c.val a b s) c.val).fired = (course s c.val).fired then shotLaunch c.val a b s
    else captureLaunch c.val fl (shotLaunch c.val a b s), ?_, ?_⟩
  · simp only [exec, execShotLaunch, dieA, waits, Bool.not_true, Bool.false_eq_true, if_false]
  · exact .cond (.refl _) (.captureLaunch ..)

/-- Settles O47: the sample decides between a launch and a denial, and of a launch the gates of the instant decide
whether its pulse leaves. -/
theorem launchFiresOrDenies : Obligations.LaunchFiresOrDenies := by
  intro c a b s fl tl dieA waits tile
  obtain ⟨t, next, rest⟩ := exec_shotLaunch a b dieA waits
  have flights := flights_ne_nil_of_launchable waits
  rw [shotLaunch_eq a b waits tile] at rest
  refine ⟨t, next, fun sampled granted => ?_, fun sampled denied => ?_, fun denied => ?_⟩
  · rw [if_pos sampled] at rest
    refine ⟨?_, by rw [rest.course, launchShot_fired fl tl a b flights]⟩
    rw [rest.out, launchShot_out, if_pos granted]
    rfl
  · rw [if_pos sampled] at rest
    refine ⟨?_, by rw [rest.course, launchShot_fired fl tl a b flights]⟩
    rw [rest.out, launchShot_out, if_neg (by simp [denied])]
  · rw [if_neg (by simp [denied])] at rest
    have counted := course_countDenial c.val s
    have course_t : course t c.val = _ := (rest.course c.val).trans
      (course_unfired fl (by rw [counted]; exact sat32_succ_ne_zero _))
    refine ⟨rest.out.trans (unfired_out ..), ?_, ?_⟩
    · rw [course_t, counted]
    · rw [course_t, counted]
      exact Nat.min_comm _ _

end Sys2Proof
end

section
/-! The shot settings commands (O23) and the course, tile and history commands (O28): 04 R81, R91, R92, R103, R104, 06
R153, 08 R189, R190: what each set of checks passes, and what the effect of each command is once its guards hold. -/

namespace Sys2Proof

open Sys2Proof.Machine

/-! ### Settings -/

/-- A course range from COURSE on, within the 128 courses. -/
theorem courseRange_good {p : Bytes} (range : u8 p 0 + u8 p 1 ≤ 127) (reserved : allZero p 2 6 = true) :
    AllGood (courseRange p) := by
  simp only [courseRange, allGood_cons, allGood_rsv, allGood_nil, decide_eq_true_eq, reserved, and_true]
  omega

/-- The spacing rule holds of every program of a payload (04 R81). -/
theorem spacing_none {p : Bytes} {n : Nat} (h : ∀ i < n, spacingOk (programAt p (8 + 16 * i)) = true) :
    firstBad ((((List.range n).map (fun i => programAt p (8 + 16 * i))).zipIdx).map
      (fun e => (spacingOk e.1, 8 + 16 * e.2 + 11))) = none := by
  refine (firstBad_eq_none_iff _).2 ((allGood_map ..).2 fun e he => ?_)
  obtain ⟨i, hi, program⟩ := List.mem_map.1 (List.fst_mem_of_mem_zipIdx he)
  rw [← program]
  exact h i (List.mem_range.1 hi)

/-- The weights of a payload are 4-bit values (04 R104). -/
theorem weights_good {l : Bytes} (h : ∀ b ∈ l, b.toNat < 16) :
    AllGood (((l.map (fun b => b.toNat)).zipIdx).map (fun e => (decide (e.1 < 16), 8 + e.2))) := by
  refine (allGood_map ..).2 fun e he => ?_
  obtain ⟨b, hb, weight⟩ := List.mem_map.1 (List.fst_mem_of_mem_zipIdx he)
  simpa [← weight] using h b hb

/-- Settles O23: each payload passes its checks, and its settings are staged. -/
theorem shotSettings : Obligations.ShotSettings := by
  refine ⟨?programs, ?alloc, ?weights⟩
  case programs =>
    refine applies_of_answered (fun _ _ => by rw [exec, execShotSetProgram]) fun e s good => ?_
    obtain ⟨range, reserved, length, entries, spacing⟩ := good
    refine checked_none ?_
    rw [varPayload_none length (Nat.le_add_right ..) (courseRange_good range reserved) entries]
    exact spacing_none spacing
  case alloc =>
    refine applies_of_answered (fun _ _ => by rw [exec, execAllocSet]) fun e s good => ?_
    obtain ⟨length, mode, one, most, minOne, ordered, maxMost, reserved, budgets⟩ := good
    refine checked_none (fixedPayload_none length ((allGood_append ..).2 ⟨?_, (allGood_map ..).2 fun c hc => ?_⟩))
    · simp only [allGood_cons, allGood_rsv, allGood_nil, within_iff, decide_eq_true_eq, reserved, and_true]
      omega
    · exact (within_iff ..).2 (budgets c (List.mem_range.1 hc))
  case weights =>
    refine applies_of_answered (fun _ _ => by rw [exec, execTpmSetWeights]) fun e s good => ?_
    obtain ⟨start, one, fits, length, small⟩ := good
    refine checked_none (varPayload_none length (Nat.le_add_right ..) ?_ (weights_good small))
    simp only [allGood_cons, allGood_nil, within_iff, decide_eq_true_eq, and_true]
    omega

/-! ### SHOT_COURSE_ENABLE and SHOT_SCHEDULER -/

/-- The payload check of SHOT_COURSE_ENABLE: an action and at least one course (04 Table SHOT-10). -/
theorem courseEnable_none {p : Bytes} (length : p.length = 24) (action : u8 p 0 < 2) (reserved : allZero p 1 7 = true)
    (courses : allZero p 8 16 = false) :
    fixedPayload p 24 [(decide (u8 p 0 < 2), 0), rsv p 1 7, (!allZero p 8 16, 8)] = none :=
  fixedPayload_none length (by simp [allGood_cons, allGood_rsv, allGood_nil, action, reserved, courses])

/-- What SHOT_SCHEDULER does once its payload has passed (04 R92, 11 R259). -/
def schedulerAction (p : Bytes) (s : State) : State × Reply :=
  if u8 p 0 = 0 then (schedulerOff s, ok) else if s.mbx.armed then (schedulerOn s, ok) else (s, notArmed)

theorem schedulerAction_off {p : Bytes} (s : State) (action : u8 p 0 = 0) :
    schedulerAction p s = (schedulerOff s, ok) := if_pos action

theorem schedulerAction_on {p : Bytes} {s : State} (action : u8 p 0 = 1) (armed : s.mbx.armed = true) :
    schedulerAction p s = (schedulerOn s, ok) := by simp [schedulerAction, action, armed]

theorem schedulerAction_unarmed {p : Bytes} {s : State} (action : u8 p 0 = 1) (unarmed : s.mbx.armed = false) :
    schedulerAction p s = (s, notArmed) := by simp [schedulerAction, action, unarmed]

/-- SHOT_SCHEDULER applies where its payload passes and its action is the stated effect. -/
theorem applies_shotScheduler {good : JEntry → State → Prop} {eff : JEntry → State → State}
    {reply : JEntry → State → Reply}
    (does : ∀ e s, good e s → e.payload.length = 4 ∧ u8 e.payload 0 < 2 ∧ allZero e.payload 1 3 = true ∧
      schedulerAction e.payload s = (eff e s, reply e s)) :
    Applies 0x020B .shotScheduler good eff reply := by
  refine applies_of_answered (fun _ _ => by rw [exec, execShotScheduler]) fun e s h => ?_
  obtain ⟨length, action, reserved, effect⟩ := does e s h
  exact (checked_none (selector_none length action reserved)).trans
    (congrArg (fun r : State × Reply => (r.1, some r.2)) effect)

/-- The scheduler, off and with no ENABLE waiting, is to start at the next frame boundary. -/
theorem schedulerOn_of_off {s : State} (off : s.shot.enabled = false) (idle : s.shot.enablePending = false) :
    schedulerOn s = logEv 0x0206 1 0 0 { s with shot.enablePending := true } := if_neg (by simp [off, idle])

/-- A scheduler that is on, or is to start, stays so. -/
theorem schedulerOn_of_on {s : State} (on : s.shot.enabled = true ∨ s.shot.enablePending = true) :
    schedulerOn s = s := if_pos (by simpa using on)

/-! ### HIST_CAPTURE_TILE -/

/-- The payload check of HIST_CAPTURE_TILE: a tile index. -/
theorem captureTile_none {p : Bytes} (length : p.length = 8) (tile : u32 p 0 < 262144)
    (reserved : allZero p 4 4 = true) : fixedPayload p 8 [(decide (u32 p 0 < 262144), 0), rsv p 4 4] = none :=
  fixedPayload_none length (by simp [allGood_cons, allGood_rsv, allGood_nil, tile, reserved])

/-- The tile has not been processed within 1 s of the command's acceptance (06 R153). -/
theorem exec_captureTileTimeout {s : State} {k : TileCapture} (pending : s.eng.capture = some k)
    (late : k.tick + 1000000000 ≤ now s) :
    exec .captureTileTimeout s = .next (finish k.jseq notArmed { s with
      eng.capture := none, eng.tiles := s.eng.tiles.map (fun t => { t with captured := false }) }) := by
  simp only [exec, execCaptureTileTimeout, pending, late, if_true]

/-! ### FREEZE_HISTORY and READ_HISTORY -/

/-- The payload check of FREEZE_HISTORY: an action and a range in order (08 R189). -/
theorem freezeFields_none {p : Bytes} (length : p.length = 12) (action : u8 p 0 < 2) (reserved : allZero p 1 3 = true)
    (ordered : notBefore (u32 p 8) (u32 p 4) = true) : freezeFields p = none :=
  fixedPayload_none length (by simp [allGood_cons, allGood_rsv, allGood_nil, action, reserved, ordered])

/-- A range that begins no earlier than the oldest frame held is frozen where an eighth range may be and 8 planes stay
free (08 R189). -/
theorem freezeHistory_freeze {p : Bytes} {s : State} (action : u8 p 0 = 0) (few : s.dlv.frozen.length < 8)
    (held : ∀ f, oldestFrame s = some f → notBefore (u32 p 4) f = true)
    (free : keptCount s (s.dlv.frozen ++ [(u32 p 4, u32 p 8)]) (s.dlv.reads.flatMap (fun x => x.frames)) + 8 ≤
      s.dlv.depth) :
    freezeHistory p s = (logEv 0x0505 0 (u32 p 4) (u32 p 8)
      { s with dlv.frozen := s.dlv.frozen ++ [(u32 p 4, u32 p 8)] }, ok) := by
  have room : ¬(8 < (s.dlv.frozen ++ [(u32 p 4, u32 p 8)]).length ∨ s.dlv.depth <
      keptCount s (s.dlv.frozen ++ [(u32 p 4, u32 p 8)]) (s.dlv.reads.flatMap (fun x => x.frames)) + 8) := by
    rw [List.length_append, List.length_singleton]
    omega
  simp only [freezeHistory, action, if_true, if_neg room]
  refine if_neg ?_
  split
  · next f oldest => simp [held f oldest]
  · simp

/-- A frozen range is released (08 R189). -/
theorem freezeHistory_release {p : Bytes} {s : State} (action : u8 p 0 = 1)
    (frozen : s.dlv.frozen.contains (u32 p 4, u32 p 8) = true) :
    freezeHistory p s = (logEv 0x0505 1 (u32 p 4) (u32 p 8)
      { s with dlv.frozen := s.dlv.frozen.erase (u32 p 4, u32 p 8) }, ok) := by
  simp only [freezeHistory, action, frozen, if_true]
  rfl

/-- The payload check of READ_HISTORY (08 Table TILE-10). -/
theorem readHistory_none {p : Bytes} {depth : Nat} (length : p.length = 40) (one : 1 ≤ u16 p 4)
    (most : u16 p 4 ≤ depth) (part : 1 ≤ u8 p 6) (parts : u8 p 6 ≤ 7) (channel : u8 p 7 < 8)
    (start : u32 p 8 < 262144) (tile : 1 ≤ u32 p 12) (fits : u32 p 8 + u32 p 12 ≤ 262144)
    (aligned : u64 p 16 % 64 = 0) (reserved : allZero p 24 16 = true) :
    fixedPayload p 40 [(within 1 (u16 p 4) depth, 4), (within 1 (u8 p 6) 7, 6), (decide (u8 p 7 < 8), 7),
      (decide (u32 p 8 < 262144), 8), (within 1 (u32 p 12) (262144 - u32 p 8), 12), (decide (u64 p 16 % 64 = 0), 16),
      rsv p 24 16] = none := by
  refine fixedPayload_none length ?_
  simp only [allGood_cons, allGood_rsv, allGood_nil, within_iff, decide_eq_true_eq, aligned, reserved, and_true]
  omega

/-- Closed frames are read by a channel that is not busy, where 8 planes stay free (08 R190). -/
theorem readHistory_of_closed {j : Nat} {p : Bytes} {s : State}
    (closed : ∀ f ∈ namedFrames s (u32 p 0) (u16 p 4), ∃ n k, f = some n ∧ planeOf s n = some k ∧
      planeClosed (plane s k) = true)
    (idle : hodBusy (hod s (u8 p 7)) = false)
    (free : keptCount s s.dlv.frozen ((namedFrames s (u32 p 0) (u16 p 4)).filterMap id ++
      s.dlv.reads.flatMap (fun x => x.frames)) + 8 ≤ s.dlv.depth) :
    readHistory j p s = (modHod (u8 p 7) (fun x => { x with deviceOwned := true, state := .running }) { s with
      dlv.reads := s.dlv.reads ++ [⟨j, u8 p 7, (namedFrames s (u32 p 0) (u16 p 4)).filterMap id, u8 p 6, u32 p 8,
        u32 p 12, u64 p 16⟩] }, none) := by
  have found : (namedFrames s (u32 p 0) (u16 p 4)).any (fun f => f.isNone) = false := by
    refine List.any_eq_false.2 fun f hf => ?_
    obtain ⟨n, _, rfl, -, -⟩ := closed f hf
    simp
  have whole : ∀ n ∈ (namedFrames s (u32 p 0) (u16 p 4)).filterMap id, ∃ k, planeOf s n = some k ∧
      planeClosed (plane s k) = true := fun n hn => by
    obtain ⟨f, hf, rfl⟩ := List.mem_filterMap.1 hn
    obtain ⟨m, k, named, held⟩ := closed _ hf
    cases named
    exact ⟨k, held⟩
  unfold readHistory
  simp only [found, Bool.false_eq_true, if_false]
  rw [if_neg, if_neg (by simp [idle]), if_neg (Nat.not_lt.2 free)]
  simp only [Bool.not_eq_true', Bool.not_eq_false, List.all_eq_true]
  intro n hn
  obtain ⟨k, held, shut⟩ := whole n hn
  simp only [held, shut]

/-- Settles O28: each payload passes its checks, and what the handler then does is the stated effect. -/
theorem courseAndTileCommands : Obligations.CourseAndTileCommands := by
  refine ⟨?courseEnable, applies_shotScheduler ?off, applies_shotScheduler ?on, applies_shotScheduler ?stays,
    applies_shotScheduler ?unarmed, ?capture, ?captureBusy, fun _ _ => exec_captureTileTimeout, ?freeze, ?release,
    ?read⟩
  case courseEnable =>
    refine applies_of_answered (fun _ _ => by rw [exec, execShotCourseEnable]) fun e s good => ?_
    obtain ⟨length, action, reserved, courses⟩ := good
    exact checked_none (courseEnable_none length action reserved courses)
  case off =>
    rintro e s ⟨length, action, reserved⟩
    exact ⟨length, by omega, reserved, schedulerAction_off s action⟩
  case on =>
    rintro e s ⟨length, action, reserved, armed, off, idle⟩
    exact ⟨length, by omega, reserved, by rw [schedulerAction_on action armed, schedulerOn_of_off off idle]⟩
  case stays =>
    rintro e s ⟨length, action, reserved, armed, on⟩
    exact ⟨length, by omega, reserved, by rw [schedulerAction_on action armed, schedulerOn_of_on on]⟩
  case unarmed =>
    rintro e s ⟨length, action, reserved, unarmed⟩
    exact ⟨length, by omega, reserved, schedulerAction_unarmed action unarmed⟩
  case capture =>
    refine opens_of_unanswered (fun _ _ => by rw [exec, execHistCaptureTile]) fun e s good => ?_
    obtain ⟨length, tile, reserved, idle⟩ := good
    rw [captureTile_none length tile reserved]
    exact if_neg (by simp [idle])
  case captureBusy =>
    refine applies_of_answered (fun _ _ => by rw [exec, execHistCaptureTile]) fun e s good => ?_
    obtain ⟨length, tile, reserved, pending⟩ := good
    simp only [captureTile_none length tile reserved, pending, if_true]
  case freeze =>
    refine applies_of_answered (fun _ _ => by rw [exec, execFreezeHistory]) fun e s good => ?_
    obtain ⟨length, action, reserved, ordered, few, held, free⟩ := good
    rw [checked_none (freezeFields_none length (by omega) reserved ordered),
      freezeHistory_freeze action few held free]
  case release =>
    refine applies_of_answered (fun _ _ => by rw [exec, execFreezeHistory]) fun e s good => ?_
    obtain ⟨length, action, reserved, ordered, frozen⟩ := good
    rw [checked_none (freezeFields_none length (by omega) reserved ordered), freezeHistory_release action frozen]
  case read =>
    refine opens_of_unanswered (fun _ _ => by rw [exec, execReadHistory]) fun e s good => ?_
    obtain ⟨length, one, most, part, parts, channel, start, tile, fits, aligned, reserved, idle, closed, free⟩ := good
    simp only [readHistory_none length one most part parts channel start tile fits aligned reserved]
    exact readHistory_of_closed closed idle free

end Sys2Proof
end

section
/-! Due shots, second pulses, windows, stamps and converter calibration (O48; 04 R85, R86, R90, 05 R112, R115 to R118,
R120, R124): what each event does once its guards hold. -/

namespace Sys2Proof

open Sys2Proof.Machine

/-! ### Due shots -/

/-- The due shot of the lowest course that has one is decided, in a frame in which no boundary is still to cross (02
R29, 04 R90). -/
theorem exec_shotDue {c : Fin 128} {s : State} {t : Tile} (framed : s.angle.inFrame = true)
    (dieA : s.power.dieA = true) (noFrame : frameDue s = false) (noColumn : columnDue s (uInt s) = false)
    (first : ∀ k < c.val, dueTile k s = none) (due : dueTile c.val s = some t) :
    exec (.shotDue c) s = .next (dueShot t s) := by
  have lowest : (List.range c.val).any (fun k => (dueTile k s).isSome) = false :=
    List.any_eq_false.2 fun k hk => by simp [first k (List.mem_range.1 hk)]
  simp only [exec, execShotDue, framed, dieA, noFrame, noColumn, lowest, due, Bool.not_true, Bool.or_self,
    Bool.false_eq_true, if_false]

/-! ### Second pulses -/

/-- The second pulse rises the coded spacing after the first (04 R85). -/
def secondEdge (fl : Flight) (t : Tile) : Nat := fl.launch + 128 * dpSpacing t.prog.dpIndex

/-- The flight of a shot whose second pulse is no longer awaited. -/
def endSecond (c : Nat) (fl : Flight) (s : State) : State := modFlight c fl (fun _ => { fl with second := false }) s

/-- At the instant of a second pulse the sample decides whether its time has come or it is dropped (04 R88). -/
theorem exec_doublePulseSecond {c : Fin 128} {s : State} {fl : Flight} {t : Tile}
    (waits : (course s c.val).flights.find? (fun f => f.second) = some fl)
    (tile : findTile fl.frame c.val fl.column s = some t) (reached : secondEdge fl t / 128 ≤ now s) :
    exec (.doublePulseSecond c) s = .next
      (if s.shot.sampled then
        emitPulse c.val (secondEdge fl t) { fl with second := false } t (endSecond c.val fl s)
      else modTile fl.frame c.val fl.column (fun y => { y with partialTile := true }) (endSecond c.val fl s)) := by
  rw [exec, execDoublePulseSecond]
  simp only [waits, tile]
  exact congrArg Host.Outcome.next (if_neg (Nat.not_lt.2 reached))

/-! ### Windows and stamps -/

/-- A window that has run its length closes (05 R115). -/
theorem exec_windowClose {ch : Fin 256} {s : State} {w : Window}
    (stands : (chan s ch.val).windows.find? (fun w => !w.closed) = some w) (ran : w.start + w.len ≤ now s) :
    exec (.windowClose ch) s = .next
      (settleTile w.frame (ch.val / 2) w.column (endFlight (ch.val / 2) w (modTile w.frame (ch.val / 2) w.column
        (fun t => { t with openWindows := t.openWindows - 1 }) (modChan ch.val (fun x =>
          let y : Channel :=
            { x with windows := x.windows.map (fun y => if y = w then { y with closed := true } else y) }
          if w.dead then y
          else { y with riseFresh := false, fallFresh := false, calStart := some (now s + 16) }) s)))) := by
  rw [exec, execWindowClose]
  simp only [stands]
  exact congrArg Host.Outcome.next (if_neg (Nat.not_lt.2 ran))

/-- The stamps of a closed window go to the engine, none for a dead one (05 R117). -/
theorem exec_stampDelivery {ch : Fin 256} {s : State} {w : Window}
    (closed : (chan s ch.val).windows.find? (fun w => w.closed) = some w) :
    exec (.stampDelivery ch) s = .next (readyTile w.frame (ch.val / 2) w.column
      (modTile w.frame (ch.val / 2) w.column (fun t =>
        { t with
          undelivered := t.undelivered - 1
          windows := if w.dead then t.windows
            else insertBy (fun v => 2 * v.k + v.side) ⟨w.k, ch.val % 2, w.dither, w.stamps⟩ t.windows })
        (modChan ch.val (fun x => { x with windows := x.windows.filter (fun y => decide (y ≠ w)) }) s))) := by
  rw [exec, execStampDelivery]
  simp only [closed]

/-! ### Calibration -/

/-- The channel whose two converters take good factors (05 R118, R121). -/
def calibrated (r f : Factors) (t : Nat) (x : Channel) : Channel :=
  { x with
    rise := some r, fall := some f, riseFresh := true, fallFresh := true, calRejects := sat32 x.calRejects
    calStart := some t }

/-- Good factors are not logged as rejected (05 R118). -/
theorem logReject_of_ok {f : Factors} (ch conv : Nat) (s : State) (good : calOk f = true) :
    logReject ch conv f s = s := if_pos good

/-- A calibration that has run its 320 ns gives its channel both factor pairs (05 R118). -/
theorem exec_tdcCalibrationDone {ch : Fin 256} {r f : Factors} {s : State} {t0 : Nat}
    (runs : calRunning s ch.val = some t0) (dieA : s.power.dieA = true) (ran : t0 + 320 ≤ now s)
    (rise : calOk r = true) (fall : calOk f = true) :
    exec (.tdcCalibrationDone ch r f) s = .next (modChan ch.val (calibrated r f (now s)) s) := by
  have done : ¬(!s.power.dieA || decide (now s < t0 + 320)) = true := by simp [dieA, ran]
  rw [exec, execTdcCalibrationDone]
  simp only [runs, if_neg done, logReject_of_ok _ _ _ rise, logReject_of_ok _ _ _ fall, rise, fall, if_true,
    Bool.or_true]
  rfl

theorem chan_calibrated (ch : Nat) (r f : Factors) (t : Nat) (s : State) :
    chan (modChan ch (calibrated r f t) s) ch = calibrated r f t (chan s ch) :=
  tabGet_set_of_ne _ ch fun e => Option.some_ne_none r (congrArg Channel.rise e)

/-- Settles O48: each event's meaning, once its guards hold, is the stated effect; of a second pulse, the sample and the
gates decide whether it leaves. -/
theorem receiverCommands : Obligations.ReceiverCommands := by
  refine ⟨fun _ _ _ => exec_shotDue, ?second, fun _ _ _ => exec_windowClose, fun _ _ _ => exec_stampDelivery,
    ?calibration, ?edge⟩
  case second =>
    intro c s fl t waits tile reached
    rw [exec_doublePulseSecond waits tile reached]
    refine ⟨fun sampled granted => ⟨_, rfl, ?_⟩, fun denied => ?_⟩
    · have gates : emitOk (endSecond c.val fl s) = true := granted
      rw [if_pos sampled, emitPulse_out, if_pos gates]
      rfl
    · exact congrArg Host.Outcome.next (if_neg (by simp [denied]))
  case calibration =>
    intro ch r f s t0 runs dieA ran rise fall
    refine ⟨_, exec_tdcCalibrationDone runs dieA ran rise fall, ?_⟩
    rw [chan_calibrated]
    exact ⟨rfl, rfl, rfl, rfl, Nat.min_comm _ _⟩
  case edge =>
    intro ch rise fall high s w tl window tile
    rw [exec, execLowDiscriminatorEdge]
    simp only [window, tile] <;> rfl

end Sys2Proof
end

section
/-! The two passes of an engine (O49; 06 R131, R148): what each stage event does once its unit and its time allow it. -/

namespace Sys2Proof

open Sys2Proof.Machine

/-- Settles O49: a free P1 unit takes the next ready tile, and the tile of a pass whose time has passed leaves that
pass. -/
theorem engineCommands : Obligations.EngineCommands := by
  refine ⟨?start, ?firstPass, ?secondPass⟩
  case start =>
    intro e s t idle noneWaits next
    have free : ¬((inStage e.val .p1 s).isSome = true ∨ (inStage e.val .p1Done s).isSome = true) := by
      simp [idle, noneWaits]
    rw [exec, execEngineP1Start, if_neg free]
    simp only [next]
  case firstPass =>
    intro e n m s t inP1 ended
    rw [exec, execEngineP1Done]
    simp only [inP1, if_neg (Nat.not_lt.2 ended)]
  case secondPass =>
    intro e n m s t inP2 ended
    rw [exec, execEngineP2Done]
    simp only [inP2, if_neg (Nat.not_lt.2 ended)]

end Sys2Proof
end

section
/-! The PPS edges of vehicle time (O51; 08 R182, R183, 21 R472): what an edge notes of itself, the two ways it acts on the
difference it measures, and that difference as the distance from the nearest second. -/

namespace Sys2Proof

open Sys2Proof.Machine

/-! ### The edge -/

/-- What every counted edge notes: its number, V at the edge, its instant, and what the last difference that was
evaluated says of TIME_DISCIPLINED (08 R183). -/
def stampEdge (s : State) : State :=
  { s with
    time.edges := sat32 (s.time.edges + 1)
    time.ppsAt := s.time.v
    time.disciplined := s.time.evaluated && decide (s.time.lastE.natAbs ≤ 1000)
    time.lastEdge := some (now s) }

/-- What an edge does to vehicle time once it is stamped: a waiting load, else discipline where it is enabled. -/
def actOnEdge (s : State) : State :=
  if s.time.loadPending then { s with time := loadTime s.time.set s.time }
  else if s.time.discipline then discipline (edgeError s.time.v) s
  else s

/-- Under main power and while ring time does not rule, an edge is stamped and then acted on. -/
theorem exec_timePpsEdge {s : State} (own : fromRing s = false) (powered : s.power.main = true) :
    exec .timePpsEdge s = .next (actOnEdge (stampEdge s)) := by
  have counts : ¬((fromRing s || !s.power.main) = true) := by simp [own, powered]
  rw [exec, execTimePpsEdge, if_neg counts]
  rfl

theorem actOnEdge_of_load {s : State} (load : s.time.loadPending = true) :
    actOnEdge s = { s with time := loadTime s.time.set s.time } := if_pos load

theorem actOnEdge_of_discipline {s : State} (load : s.time.loadPending = false) (on : s.time.discipline = true) :
    actOnEdge s = discipline (edgeError s.time.v) s := by
  rw [actOnEdge, if_neg (by simp [load]), if_pos on]

theorem actOnEdge_of_free {s : State} (load : s.time.loadPending = false) (off : s.time.discipline = false) :
    actOnEdge s = s := by
  rw [actOnEdge, if_neg (by simp [load]), if_neg (by simp [off])]

/-! ### Discipline -/

/-- A difference of at most 1 µs is slewed away, and V stays. -/
theorem discipline_slews {e : Int} (s : State) (small : e.natAbs ≤ 1000) :
    (discipline e s).time.v = s.time.v ∧ (discipline e s).time.disciplined = true ∧
      (discipline e s).time.slewTotal = -e := by
  rw [discipline, if_pos small]
  exact ⟨rfl, rfl, rfl⟩

/-- A larger difference is taken off V at once; the logged TIME_STEP changes no time. -/
theorem discipline_steps {e : Int} (s : State) (large : 1000 < e.natAbs) :
    (discipline e s).time.v = (((s.time.v : Int) - e) % 2 ^ 64).toNat ∧
      (discipline e s).time.disciplined = false ∧ (discipline e s).time.stepped = true ∧
      (discipline e s).time.stepFlag = true := by
  rw [discipline, if_neg (Nat.not_le.2 large), (ReportsOnly.logEv ..).time]
  exact ⟨rfl, rfl, rfl, rfl⟩

/-- TIME_DISCIPLINED lapses once the last edge lies more than 1.5 s back. -/
theorem exec_timeDisciplinedLapse {s : State} {x : Nat} (disciplined : s.time.disciplined = true)
    (last : s.time.lastEdge = some x) (late : x + 1500000000 < now s) :
    exec .timeDisciplinedLapse s = .next { s with time.disciplined := false } := by
  simp only [exec, execTimeDisciplinedLapse, last, disciplined, late, decide_true, Bool.and_self, if_true]

/-! ### The difference -/

/-- V less the difference is a whole number of seconds. -/
theorem edgeError_whole (v : Nat) : ((v : Int) - edgeError v) % 1000000000 = 0 := by
  unfold edgeError
  dsimp only
  split <;> omega

/-- That second is the nearest one, and of two equally near the lower. -/
theorem edgeError_nearest (v : Nat) : -500000000 < edgeError v ∧ edgeError v ≤ 500000000 := by
  unfold edgeError
  dsimp only
  split <;> omega

/-- Settles O51: an edge is stamped and then acted on, by a load, a slew, a step or not at all; the lapse and the bounds
of the difference stand on their own. -/
theorem vehicleTimeCommands : Obligations.VehicleTimeCommands := by
  refine ⟨?load, ?free, ?slew, ?step, fun _ _ => exec_timeDisciplinedLapse,
    fun v => ⟨edgeError_whole v, edgeError_nearest v⟩⟩
  case load =>
    intro s own powered load
    refine ⟨_, exec_timePpsEdge own powered, ?_⟩
    rw [actOnEdge_of_load (s := stampEdge s) load]
    exact ⟨rfl, rfl, rfl, rfl, Nat.min_comm _ _⟩
  case free =>
    intro s own powered load off
    rw [exec_timePpsEdge own powered, actOnEdge_of_free (s := stampEdge s) load off]
    rfl
  case slew =>
    intro s own powered load on small
    refine ⟨_, exec_timePpsEdge own powered, ?_⟩
    rw [actOnEdge_of_discipline (s := stampEdge s) load on]
    exact discipline_slews (stampEdge s) small
  case step =>
    intro s own powered load on large
    refine ⟨_, exec_timePpsEdge own powered, ?_⟩
    rw [actOnEdge_of_discipline (s := stampEdge s) load on]
    exact discipline_steps (stampEdge s) large

end Sys2Proof
end

section
/-! The capture units on their events (O54; 09 R195 to R203): samples to test, qualifications that run out, captures that
end, and the hold-off. -/

namespace Sys2Proof

open Sys2Proof.Machine

/-! ### Reading a unit back -/

theorem ReportsOnly.capt {s t : State} (h : ReportsOnly s t) (u : Nat) : capt t u = capt s u := by
  obtain ⟨_, _, _, _, _, _, rfl⟩ := h
  rfl

/-- A unit reads back as it was changed where the change leaves it in a state other than STOPPED, so that it cannot be a
unit never used. -/
theorem capt_modCapt_of_run {u : Nat} {f : CaptUnit → CaptUnit} {s : State} (used : (f (capt s u)).run ≠ .stopped) :
    capt (modCapt u f s) u = f (capt s u) := tabGet_set_of_ne _ u fun unused => used (congrArg CaptUnit.run unused)

/-! ### The end of a capture -/

/-- With no STOP waiting, a capture that ends is counted, and nothing else of the unit as given changes (09 R200). -/
theorem capt_endCaptureUnit {u : Nat} {x : CaptUnit} {s : State} (noStop : x.stops = []) (used : x.run ≠ .stopped) :
    capt (endCaptureUnit u x s) u = { x with captures := wrap64 (x.captures + 1) } := by
  have noneWaits : x.stops.isEmpty = true := by rw [noStop, List.isEmpty_nil]
  rw [endCaptureUnit, if_pos noneWaits, (ReportsOnly.raiseIrq ..).capt]
  exact capt_modCapt_of_run used

/-- The capture that a violation at index `i` ends (09 R203). -/
def failedCapture (i : Nat) (up : Bool) (c : Capture) : Capture :=
  { c with samples := c.samples.take (max (i + 1) (c.pre + 1)), fail := some i, upper := up, lower := !up }

/-- With no STOP waiting, a violation leaves the unit in DONE with the capture it ends, its line asserted, and counts
both the failure and the capture (09 R203). -/
theorem capt_violate {u : Nat} {s : State} (i : Nat) (up : Bool) (c : Capture) (noStop : (capt s u).stops = []) :
    capt (violate u i up c s) u =
      { capt s u with
        run := .done, held := some (failedCapture i up c), line := true
        maskFails := sat32 ((capt s u).maskFails + 1), captures := wrap64 ((capt s u).captures + 1) } := by
  have noneWaits : (capt s u).stops.isEmpty = true := by rw [noStop, List.isEmpty_nil]
  have logged : capt (logEv 0x0701 u i (b2n (!up)) s) u = capt s u := (ReportsOnly.logEv ..).capt u
  simp only [violate, noneWaits, Bool.true_or, if_true, logged]
  exact capt_endCaptureUnit noStop (by simp)

/-- The unit once its capture is complete: it waits to be armed again where it repeats (09 R200, R201). -/
def completedUnit (x : CaptUnit) (c : Capture) : CaptUnit :=
  { x with run := if (captCfg x).repeats then .holdoff else .done, held := some c }

theorem completedUnit_run_ne_stopped (x : CaptUnit) (c : Capture) : (completedUnit x c).run ≠ .stopped := by
  rw [completedUnit]
  split <;> simp

/-! ### The events -/

/-- Samples up to one that is due, which reach back to the first untested one, are tested in turn (09 R195). -/
theorem exec_captureTrigger {u : Fin 2} {t : Nat} {l : List (BitVec 10)} {s : State} (dieA : s.power.dieA = true)
    (due : t ≤ 2 * now s + 1) (fit : l.length ≤ t + 1) (reach : t + 1 ≤ (capt s u.val).storeFrom + l.length) :
    exec (.captureTrigger u t l) s = .next (captureSamples u.val (t + 1 - l.length) l s) := by
  simp [exec, execCaptureTrigger, dieA, due, fit, reach]

/-- The oldest qualification of an armed unit runs out and is counted (09 R197). -/
theorem exec_shotQualTimeout {u : Fin 2} {s : State} {w : QualWindow} {rest : List QualWindow}
    (oldest : (capt s u.val).quals = w :: rest) (armed : (capt s u.val).run = .armed)
    (late : w.launch + 128 * (captCfg (capt s u.val)).qualNs ≤ 128 * now s) :
    exec (.shotQualTimeout u) s = .next (modCapt u.val (fun x =>
      { x with quals := rest, timeouts := sat32 (x.timeouts + 1) }) s) := by
  simp only [exec, execShotQualTimeout, oldest, armed, late, and_self, if_true]

/-- The first violation of the samples so far ends the capture, once the sample it ends with is taken (09 R203). -/
theorem exec_maskViolation {u : Fin 2} {x : List Nat} {s : State} {c : Capture} {i : Nat} {up : Bool}
    (held : (capt s u.val).held = some c) (capturing : (capt s u.val).run = .capturing)
    (first : firstViolation (c.pre - c.preValid) (capt s u.val) (withSamples c x) 0 (withSamples c x).samples =
      some (i, up)) (taken : sampled c (max i c.pre) s = true) :
    exec (.maskViolation u x) s = .next (violate u.val i up (withSamples c x) s) := by
  simp only [exec, execMaskViolation, held, capturing, first, taken, ne_eq, not_true_eq_false, if_false, if_true]

/-- A capture whose POST samples are in and inside the mask ends, once the last of them is taken (09 R200). -/
theorem exec_captureComplete {u : Fin 2} {x : List Nat} {s : State} {c : Capture}
    (held : (capt s u.val).held = some c) (capturing : (capt s u.val).run = .capturing) (whole : c.post ≤ x.length + 1)
    (inside : firstViolation (c.pre - c.preValid) (capt s u.val) (withSamples c x) 0 (withSamples c x).samples = none)
    (taken : sampled c (c.pre + c.post - 1) s = true) :
    exec (.captureComplete u x) s = .next
      (endCaptureUnit u.val (completedUnit (capt s u.val) (withSamples c x)) s) := by
  simp only [exec, execCaptureComplete, held, capturing, Nat.not_lt.2 whole, inside, taken, ne_eq, not_true_eq_false,
    or_self, if_false, if_true]
  rfl

theorem exec_captureHoldoffEnd {u : Fin 2} {s : State} (holdoff : (capt s u.val).run = .holdoff)
    (elapsed : holdoffOver (capt s u.val) s = true) :
    exec (.captureHoldoffEnd u) s = .next (modCapt u.val (arm (2 * now s)) s) := by
  simp only [exec, execCaptureHoldoffEnd, holdoff, elapsed, and_self, if_true]

/-- Settles O54: each event, once its guards hold, is the stated effect; of a capture that ends, the unit is read back. -/
theorem captureEvents : Obligations.CaptureEvents := by
  refine ⟨fun _ _ _ _ => exec_captureTrigger, fun _ _ _ _ => exec_shotQualTimeout, ?violation, ?complete,
    fun _ _ => exec_captureHoldoffEnd⟩
  case violation =>
    intro u x s c i up held capturing noStop first taken
    refine ⟨_, exec_maskViolation held capturing first taken, ?_⟩
    rw [capt_violate i up _ noStop]
    exact ⟨rfl, rfl, Nat.min_comm _ _, rfl⟩
  case complete =>
    intro u x s c held capturing noStop whole inside taken
    refine ⟨_, exec_captureComplete held capturing whole inside taken, ?_⟩
    rw [capt_endCaptureUnit (x := completedUnit ..) noStop (completedUnit_run_ne_stopped _ _)]
    exact ⟨rfl, rfl, rfl⟩

end Sys2Proof
end

section
/-! The capture, housekeeping and thermal commands and the eye scan (O30; 09 R199, R200, R204, R205, 14 R341, 17 R389,
R394, R395, R400, R408): what each set of checks passes, and what the effect of each command is once its guards hold. -/

namespace Sys2Proof

open Sys2Proof.Machine

/-! ### CAPT_CONFIG -/

/-- What CAPT_CONFIG answers: POST in force, and CLAMPED where it was cut (09 R199). -/
def captConfigReply (c : CaptConfig) : Reply :=
  { status := if c.clamped then 0x16 else 0, result := b4 c.post ++ b4 0 }

theorem captConfigReply_eq (c : CaptConfig) :
    (if c.clamped then clampedWith (b4 c.post ++ b4 0) else okWith (b4 c.post ++ b4 0)) = captConfigReply c := by
  rw [captConfigReply]
  split <;> rfl

/-- An idle unit whose input stays takes its settings alone (09 R204). -/
theorem captConfig_of_sameInput {p : Bytes} {s : State} (idle : captIdle (capt s (u8 p 0)) = true)
    (same : (captCfg (capt s (u8 p 0))).input = u8 p 1) :
    captConfig p s = (modCapt (u8 p 0) (fun x => { x with cfg := some (captConfigOf p) }) s,
      captConfigReply (captConfigOf p)) := by
  have stays : (captCfg (capt s (u8 p 0))).input = (captConfigOf p).input := same
  simp [captConfig, idle, stays, captConfigReply_eq]

/-- An idle unit whose input changes also notes the change and its instant (09 R194). -/
theorem captConfig_of_newInput {p : Bytes} {s : State} (idle : captIdle (capt s (u8 p 0)) = true)
    (new : (captCfg (capt s (u8 p 0))).input ≠ u8 p 1) :
    captConfig p s = (modCapt (u8 p 0) (fun x =>
      { x with cfg := some (captConfigOf p), changed := true, changedAt := now s }) s,
      captConfigReply (captConfigOf p)) := by
  have moves : (captCfg (capt s (u8 p 0))).input ≠ (captConfigOf p).input := new
  simp [captConfig, idle, moves, captConfigReply_eq]

/-! ### CAPT_CONTROL -/

/-- The payload checks of CAPT_CONTROL (09 R204). -/
theorem captControl_none {p : Bytes} (length : p.length = 8) (unit : u8 p 0 < 2) (action : u8 p 1 < 3)
    (reserved : allZero p 2 6 = true) :
    fixedPayload p 8 [(decide (u8 p 0 < 2), 0), (decide (u8 p 1 < 3), 1), rsv p 2 6] = none :=
  fixedPayload_none length (by simp [allGood_cons, allGood_rsv, allGood_nil, unit, action, reserved])

/-- CAPT_CONTROL applies where its payload passes and its action answers. -/
theorem applies_captControl {good : JEntry → State → Prop} {eff : JEntry → State → State}
    (does : ∀ e s, good e s → e.payload.length = 8 ∧ u8 e.payload 0 < 2 ∧ u8 e.payload 1 < 3 ∧
      allZero e.payload 2 6 = true ∧ captControl e.jseq (u8 e.payload 0) (u8 e.payload 1) s = (eff e s, some ok)) :
    Applies 0x0703 .captControl good eff (fun _ _ => ok) := by
  refine applies_of_answered (fun _ _ => by rw [exec, execCaptControl]) fun e s h => ?_
  obtain ⟨length, unit, action, reserved, effect⟩ := does e s h
  simp only [captControl_none length unit action reserved, effect]

theorem captControl_stop {s : State} {u : Nat} (j : Nat) (run : (capt s u).run ≠ .capturing) :
    captControl j u 0 s =
      (modCapt u (fun x => { x with run := .stopped, line := false, quals := [], force := none }) s, some ok) :=
  if_neg run

theorem captControl_stop_capturing {s : State} {u : Nat} (j : Nat) (run : (capt s u).run = .capturing) :
    captControl j u 0 s = (modCapt u (fun x => { x with stops := x.stops ++ [j] }) s, none) := if_pos run

theorem captControl_arm {s : State} {u : Nat} (j : Nat) (configured : (capt s u).cfg.isSome = true)
    (idle : captIdle (capt s u) = true) : captControl j u 1 s = (armUnit u s, some ok) := by
  have known : ¬(capt s u).cfg.isNone = true := by rw [Option.isNone_eq_false_iff.2 configured]; simp
  exact (if_neg known).trans (if_pos idle)

theorem captControl_force {s : State} {u : Nat} (j : Nat) (armed : (capt s u).run = .armed) :
    captControl j u 2 s =
      (modCapt u (fun x => { x with force := some (max x.storeFrom (2 * now s + 1)) }) s, some ok) := if_pos armed

/-! ### LANE_EYE_SCAN_DONE -/

/-- The result of LANE_EYE_SCAN (14 R340, R341). -/
def eyeResult (s : State) (x : EyeScan) (counts : List Nat) : Bytes :=
  b1 x.lane ++ b1 (b2n ((List.range (x.phases * x.volts)).any (pointLost s x))) ++ b1 x.phases ++ b1 x.volts ++
    b1 x.rate ++ zeros 3 ++ b8 (2 ^ x.dwell) ++
      (List.range (x.phases * x.volts)).flatMap (fun k => b4 (eyeCount (pointLost s x k) (nth counts k)))

/-- With a count for each point and all of them dwelt on, the scan ends and its command completes (14 R341). -/
theorem exec_laneEyeScanDone {counts : List Nat} {s : State} {x : EyeScan} (runs : s.lanes.scan = some x)
    (whole : counts.length = x.phases * x.volts)
    (dwelt : 66000 * x.start + x.phases * x.volts * dwellTime x ≤ 66000 * now s) :
    exec (.laneEyeScanDone counts) s =
      .next (finish x.jseq (okWith (eyeResult s x counts)) { s with lanes.scan := none }) := by
  have done : ¬(counts.length ≠ x.phases * x.volts ∨
      66000 * now s < 66000 * x.start + x.phases * x.volts * dwellTime x) := by
    rintro (few | early)
    · exact few whole
    · exact Nat.not_lt.2 dwelt early
  rw [exec, execLaneEyeScanDone]
  simp only [runs]
  exact congrArg Host.Outcome.next (if_neg done)

/-- Settles O30: each payload passes its checks, and what the handler then does is the stated effect. -/
theorem captureAndSensorCommands : Obligations.CaptureAndSensorCommands := by
  refine ⟨?sameInput, ?newInput, ?mask, applies_captControl ?stop, ?stopCapturing, applies_captControl ?arm,
    applies_captControl ?force, ?read, ?hkConfig, ?hkSwitch, ?hkRead, ?hkCal, ?hkCalArmed, ?thConfig, ?eyeScan,
    fun _ _ _ => exec_laneEyeScanDone⟩
  case sameInput =>
    refine applies_of_answered (fun _ _ => by rw [exec, execCaptConfig]) fun e s good => ?_
    obtain ⟨length, fields, idle, same⟩ := good
    rw [checked_none (fixedPayload_none length fields), captConfig_of_sameInput idle same]
    rfl
  case newInput =>
    refine applies_of_answered (fun _ _ => by rw [exec, execCaptConfig]) fun e s good => ?_
    obtain ⟨length, fields, idle, new⟩ := good
    rw [checked_none (fixedPayload_none length fields), captConfig_of_newInput idle new]
    rfl
  case mask =>
    refine applies_of_answered (fun _ _ => by rw [exec, execCaptSetMask]) fun e s good => ?_
    obtain ⟨length, unit, envelope, most, notOne, reserved, points, idle⟩ := good
    have fields : AllGood ([(decide (u8 e.payload 0 < 2), 0), (decide (u8 e.payload 1 < 2), 1),
        (decide (u8 e.payload 2 ≤ 64 ∧ u8 e.payload 2 ≠ 1), 2), rsv e.payload 3 5] ++
        (List.range 64).flatMap (pointFields e.payload)) := by
      refine (allGood_append ..).2 ⟨?_, (allGood_flatMap ..).2 fun k hk => points k (List.mem_range.1 hk)⟩
      simp [allGood_cons, allGood_rsv, allGood_nil, unit, envelope, most, notOne, reserved]
    rw [checked_none (fixedPayload_none length fields), if_neg (by simp [idle])]
  case stop =>
    rintro e s ⟨length, unit, action, reserved, run⟩
    exact ⟨length, unit, by omega, reserved, by rw [action, captControl_stop _ run]⟩
  case stopCapturing =>
    refine opens_of_unanswered (fun _ _ => by rw [exec, execCaptControl]) fun e s good => ?_
    obtain ⟨length, unit, action, reserved, run⟩ := good
    rw [captControl_none length unit (by omega) reserved, action]
    exact captControl_stop_capturing _ run
  case arm =>
    rintro e s ⟨length, unit, action, reserved, configured, idle⟩
    exact ⟨length, unit, by omega, reserved, by rw [action, captControl_arm _ configured idle]⟩
  case force =>
    rintro e s ⟨length, unit, action, reserved, armed⟩
    exact ⟨length, unit, by omega, reserved, by rw [action, captControl_force _ armed]⟩
  case read =>
    intro c
    refine applies_of_answered (fun _ _ => by rw [exec, execCaptRead]) fun e s good => ?_
    obtain ⟨length, unit, reserved, first, one, fits, idle, held⟩ := good
    have fields : AllGood [(decide (u8 e.payload 0 < 2), 0), rsv e.payload 1 3, (decide (u32 e.payload 4 < 65536), 4),
        (within 1 (u32 e.payload 8) (65536 - u32 e.payload 4), 8)] := by
      simp only [allGood_cons, allGood_rsv, allGood_nil, within_iff, decide_eq_true_eq, reserved, true_and, and_true]
      omega
    rw [checked_none (fixedPayload_none length fields)]
    simp only [idle, held, Bool.not_true, Bool.false_eq_true, if_false]
  case hkConfig =>
    refine applies_of_answered (fun _ _ => by rw [exec, execHkConfig]) fun e s good => ?_
    obtain ⟨length, fields, unlocked⟩ := good
    rw [checked_none (fixedPayload_none length fields), if_neg (by simp [unlocked])]
  case hkSwitch =>
    refine applies_of_answered (fun _ _ => by rw [exec, execHkSetSwitch]) fun e s good => ?_
    obtain ⟨length, channel, switch, enable, reserved, hyst, unlocked⟩ := good
    have fields : AllGood [(decide (u8 e.payload 0 < 36), 0), (decide (u8 e.payload 1 < 2), 1),
        (decide (u8 e.payload 2 < 2), 2), rsv e.payload 3 1, (decide (u32 e.payload 8 ≤ 0x7FFFFFFF), 8)] := by
      simp only [allGood_cons, allGood_rsv, allGood_nil, decide_eq_true_eq, channel, switch, enable, reserved, hyst,
        and_self]
    rw [checked_none (fixedPayload_none length fields), if_neg (by simp [unlocked])]
  case hkRead =>
    refine opens_of_unanswered (fun _ _ => by rw [exec, execHkRead]) fun e s good => ?_
    obtain ⟨length, first, one, fits, held, reserved⟩ := good
    have fields : AllGood [(decide (u8 e.payload 0 < 36), 0), (within 1 (u8 e.payload 1) (36 - u8 e.payload 0), 1),
        (decide (u8 e.payload 2 < 2), 2), rsv e.payload 3 1] := by
      simp only [allGood_cons, allGood_rsv, allGood_nil, within_iff, decide_eq_true_eq, reserved, and_true]
      omega
    rw [fixedPayload_none length fields]
  case hkCal =>
    refine opens_of_unanswered (fun _ _ => by rw [exec, execHkCal]) fun e s good => ?_
    obtain ⟨bare, unarmed, idle⟩ := good
    rw [fixedPayload_none (by rw [bare]; rfl) allGood_nil]
    exact if_neg (by simp [unarmed, idle])
  case hkCalArmed =>
    refine applies_of_answered (fun _ _ => by rw [exec, execHkCal]) fun e s good => ?_
    obtain ⟨bare, armed⟩ := good
    rw [fixedPayload_none (by rw [bare]; rfl) allGood_nil]
    exact if_pos (by simp [armed])
  case thConfig =>
    refine applies_of_answered (fun _ _ => by rw [exec, execThConfig]) fun e s good => ?_
    obtain ⟨length, fields⟩ := good
    exact checked_none (fixedPayload_none length fields)
  case eyeScan =>
    refine opens_of_unanswered (fun _ _ => by rw [exec, execLaneEyeScan]) fun e s good => ?_
    obtain ⟨length, fields, locked, idle⟩ := good
    rw [fixedPayload_none length fields]
    simp only [locked, idle, Bool.not_true, Bool.false_eq_true, Option.isSome_none, if_false]

end Sys2Proof
end

section
/-! The permit pair (O7; 10 R218, R220, R222): which commands may set it, by the case split over the commands of O5. -/

namespace Sys2Proof

open Sys2Proof.Machine

/-- A command that may grant is ES_CONFIRM or a rise of SAFE_ACK. -/
theorem grantsPermit_iff (i : Instr) : grantsPermit i = true ↔ (∃ mb, i = .esConfirm mb) ∨ i = .safeAckRise := by
  cases i <;> simp [grantsPermit]

/-- Settles O7: a command that is neither of the two that may grant keeps a denial, also where it may fire. -/
theorem grantOnlyByConfirmOrAck : Obligations.GrantOnlyByConfirmOrAck := by
  intro i s t next denied granted
  have notDenied : t.es.permit ≠ false := by simp [granted]
  obtain keeps | ⟨-, grants⟩ | ⟨fires, -⟩ := exec_keeps_or_grants_or_fires i s
  · exact absurd ((keeps t next).denied denied) notDenied
  · exact (grantsPermit_iff i).1 grants
  · exact absurd ((fires t next).denied denied) notDenied

end Sys2Proof
end

section
/-! The causes of the Emission Supervisor (O55; 10 R215, R217, R218, R219, R223): what a trip leaves of the supervisor
and of die A's gating, what causes that arise and causes that clear do, and the rise of SAFE_ACK. -/

namespace Sys2Proof

open Sys2Proof.Machine

/-! ### Bits of a bitmap -/

@[simp] theorem bit_setBit (v i k : Nat) : bit (setBit v i) k = (bit v k || decide (i = k)) := by
  simp only [bit, setBit, Nat.testBit_or, Nat.testBit_two_pow]

theorem bit_foldl_setBit (l : List Nat) (v k : Nat) : bit (l.foldl setBit v) k = (bit v k || decide (k ∈ l)) := by
  induction l generalizing v with
  | nil => simp
  | cons i l ih => simp only [List.foldl_cons, ih, bit_setBit, List.mem_cons, Bool.or_assoc, Bool.decide_or, eq_comm]

@[simp] theorem bit_clrBit_self (v i : Nat) : bit (clrBit v i) i = false := by
  unfold clrBit
  split
  · next isSet =>
    obtain ⟨w, rfl⟩ := Nat.exists_eq_add_of_le (Nat.ge_two_pow_of_testBit isSet)
    rw [bit, Nat.testBit_two_pow_add_eq] at isSet
    rw [bit, Nat.add_sub_cancel_left]
    simpa using isSet
  · next clear => simpa using clear

/-! ### The trip -/

@[simp] theorem gateView_emit (o : Out) (s : State) : gateView (emit o s) = gateView s := rfl

@[simp] theorem gateView_modFlight (c : Nat) (fl : Flight) (g : Flight → Flight) (s : State) :
    gateView (modFlight c fl g s) = gateView s := rfl

/-- Cutting the pulses concerns flights and tiles alone. -/
@[simp] theorem gateView_cutPulses (s : State) : gateView (cutPulses s) = gateView s := by
  refine gateView_eachCourse (fun c u => forEach_field gateView (fun fl v => ?_) _ u) s
  split
  · rfl
  · dsimp only
    split <;> rfl

/-- A denial takes the permission, and the gating of die A closes (10 R217). -/
theorem gateView_esDeny (s : State) :
    gateView (esDeny s) = { gateView s with es := { s.es with permit := false }, granted := false } := by
  unfold esDeny
  dsimp only
  split
  · rw [gateView_cutPulses]
    rfl
  · rfl

/-- The supervisor after a trip whose lowest cause is `c` (10 R215, R217). -/
def trippedEs (c hours : Nat) (e : EsState) : EsState :=
  { e with
    run := .tripped, permit := false, rearm := none, trips := sat32 (e.trips + 1), latched := e.present, first := 2 ^ c
    tripHours := hours, tripAt := e.time }

theorem gateView_esTrip (c : Nat) (s : State) :
    gateView (esTrip c s) = { gateView s with es := trippedEs c s.nv.hours s.es, granted := false } := by
  unfold esTrip
  rw [(ReportsOnly.raiseIrq ..).gateView, gateView_logEv, gateView_esDeny]
  rfl

@[simp] theorem esTrip_es (c : Nat) (s : State) : (esTrip c s).es = trippedEs c s.nv.hours s.es :=
  congrArg GateView.es (gateView_esTrip c s)

theorem esTrip_granted (c : Nat) (s : State) : (esTrip c s).shot.granted = false :=
  congrArg GateView.granted (gateView_esTrip c s)

/-! ### Causes that arise -/

/-- The state with these causes present. -/
def withCauses (cs : List Nat) (s : State) : State := { s with es.present := cs.foldl setBit s.es.present }

/-- Outside TRIPPED, an absent cause trips, together with every raised input. -/
theorem esArise_of_untripped {c : Nat} {s : State} (powered : s.es.powered = true) (absent : bit s.es.present c = false)
    (run : s.es.run ≠ .tripped) :
    esArise c s = esTrip ((c :: raisedInputs s).foldl min c) (withCauses (c :: raisedInputs s) s) := by
  rw [esArise, if_neg (by simp [powered, absent]), if_neg run]
  rfl

/-- In TRIPPED, an absent cause is latched, together with every raised input. -/
theorem esArise_of_tripped {c : Nat} {s : State} (powered : s.es.powered = true) (absent : bit s.es.present c = false)
    (run : s.es.run = .tripped) :
    esArise c s = { s with
      es.present := (c :: raisedInputs s).foldl setBit s.es.present
      es.latched := (c :: raisedInputs s).foldl setBit s.es.latched
      es.first := firstCause (c :: raisedInputs s) s } := by
  rw [esArise, if_neg (by simp [powered, absent]), if_pos run]
  rfl

/-- A cause that arises is present. -/
theorem bit_esArise (c : Nat) {s : State} (powered : s.es.powered = true) : bit (esArise c s).es.present c = true := by
  by_cases absent : bit s.es.present c = false
  · have arisen : bit ((c :: raisedInputs s).foldl setBit s.es.present) c = true := by simp [bit_foldl_setBit]
    by_cases run : s.es.run = .tripped
    · rwa [esArise_of_tripped powered absent run]
    · rw [esArise_of_untripped powered absent run, esTrip_es]
      exact arisen
  · have isPresent := Bool.eq_true_of_not_eq_false absent
    rw [esArise, if_pos (by simp [isPresent])]
    exact isPresent

theorem takeCauses_of_none {s : State} (h : raisedInputs s = []) : takeCauses s = s := by
  rw [takeCauses, h]

theorem exec_esCauseArises {c : Cause} {s : State} (raised : causeInput c.val s = true) :
    exec (.esCauseArises c) s = .next (esArise c.val s) := by
  rw [exec, execEsCauseArises, if_pos raised]

/-! ### Causes that clear -/

/-- The supervisor once cause `c` is absent: the last one leads from TRIPPED to CLEARED (10 Table SAFE-3). -/
def clearedEs (c : Nat) (e : EsState) : EsState :=
  { e with
    present := clrBit e.present c
    run := if e.run = .tripped ∧ clrBit e.present c = 0 then .cleared else e.run }

theorem esClear_es {c : Nat} {s : State} (powered : s.es.powered = true) (isPresent : bit s.es.present c = true) :
    (esClear c s).es = clearedEs c (takeCauses s).es := by
  rw [esClear, if_neg (by simp [powered, isPresent]), clearedEs]
  dsimp only
  split
  · rw [((ReportsOnly.raiseIrq ..).after (ReportsOnly.logEv ..)).es]
  · rfl

/-- A cause that clears is absent. -/
theorem bit_esClear (c : Nat) {s : State} (powered : s.es.powered = true) : bit (esClear c s).es.present c = false := by
  by_cases isPresent : bit s.es.present c = true
  · rw [esClear_es powered isPresent]
    exact bit_clrBit_self ..
  · rw [esClear, if_pos (by simp [isPresent])]
    simpa using isPresent

/-! ### The rise of SAFE_ACK -/

/-- The state once a rise of SAFE_ACK is noted, causes tested first (10 R218, R219). -/
def noteRise (s : State) : State := { takeCauses s with es.ack := some true, es.ackLow := none }

theorem exec_safeAckRise_grants {s : State} (powered : s.es.powered = true) (new : s.es.ack ≠ some true)
    (qualified : ackQualified (takeCauses s) = true) (clear : (takeCauses s).es.present = 0)
    (path : ((takeCauses s).es.run = .cleared ∧ s.es.cfg.rearmPath ≠ 1) ∨
      ((takeCauses s).es.run = .rearmPending ∧ s.es.cfg.rearmPath = 2)) :
    exec .safeAckRise s = .next (esGrant 0 (noteRise s)) := by
  rw [exec, execSafeAckRise, if_neg (by simp [powered, new])]
  exact congrArg _ (if_pos (by simp [qualified, clear, path]))

theorem exec_safeAckRise_unqualified {s : State} (powered : s.es.powered = true) (new : s.es.ack ≠ some true)
    (unqualified : ackQualified (takeCauses s) = false) : exec .safeAckRise s = .next (noteRise s) := by
  rw [exec, execSafeAckRise, if_neg (by simp [powered, new])]
  exact congrArg _ (if_neg (by simp [unqualified]))

/-- The grant as the gates see it (10 R222). -/
theorem gateView_esGrant (path : Nat) (s : State) :
    gateView (esGrant path s) =
      { gateView s with es := { s.es with run := .permit, permit := true, rearm := none } } := by
  rw [esGrant, gateView_logEv]
  rfl

/-- Settles O55: each clause is what the causes' own lemma says; the FIRE pulses stay by `Keeps` and `Calm`. -/
theorem causesTripAndClear : Obligations.CausesTripAndClear := by
  refine ⟨fun c s powered absent raised => ⟨fun run => ?trips, fun run => ?latches⟩, fun s => takeCauses_of_none,
    fun c s powered isPresent gone => ?clears, fun s powered selftest loaded isPresent held => ?holdEnds,
    fun s powered new clear qualified path => ?grants, fun s => exec_safeAckRise_unqualified⟩
  case trips =>
    have trip := esArise_of_untripped powered absent run
    refine ⟨_, exec_esCauseArises raised, ?_⟩
    have dark := (esArise_keeps c.val s).dark
    rw [trip] at dark ⊢
    rw [esTrip_es]
    exact ⟨rfl, rfl, esTrip_granted .., rfl, rfl, rfl, Nat.min_comm .., rfl, rfl, dark⟩
  case latches => rw [exec_esCauseArises raised, esArise_of_tripped powered absent run]
  case clears =>
    refine ⟨esClear c.val s, by rw [exec, execEsCauseClears, if_pos gone], ?_⟩
    rw [esClear_es powered isPresent]
    exact ⟨rfl, rfl, rfl, rfl, rfl⟩
  case holdEnds =>
    have gone : causeGone 0 s = true := by simp [causeGone, selftest, loaded, held]
    refine ⟨esClear 0 s, by rw [exec, execPowerupHoldEnd, if_pos gone], ?_⟩
    rw [esClear_es powered isPresent]
    exact ⟨rfl, rfl⟩
  case grants =>
    have next := exec_safeAckRise_grants powered new qualified clear path
    have view := gateView_esGrant 0 (noteRise s)
    have es : (esGrant 0 (noteRise s)).es = _ := congrArg GateView.es view
    refine ⟨_, next, ?_, ?_, congrArg GateView.granted view, (execSafeAckRise_calm s _ next).noPulse⟩ <;> rw [es]

end Sys2Proof
end

section
/-! The commands of the Emission Supervisor (O31; 10 R215, R217, R220, R222, R224, R225, R227): what each handler does
once its guards hold, and the payload checks that precede it. -/

namespace Sys2Proof

open Sys2Proof.Machine

/-! ### ES_UNLOCK and ES_SET_PASSWORD -/

/-- The payload checks of a password's slot (10 Table SAFE-8). -/
theorem passwordSlot_none {p : Bytes} (length : p.length = 24) (slot : u8 p 0 < 4) (reserved : allZero p 1 7 = true) :
    fixedPayload p 24 [(decide (u8 p 0 < 4), 0), rsv p 1 7] = none :=
  fixedPayload_none length (by simp [allGood_cons, allGood_rsv, allGood_nil, slot, reserved])

theorem unlock_of_fitting {slot : Nat} {pw : Bytes} {s : State} (allowed : s.es.refusal = none)
    (fits : passwordFits slot pw s = true) :
    unlock slot pw s = ({ s with es.unlocked := some slot, es.wrong := 0, es.unlockAt := s.es.time }, ok) := by
  rw [unlock, if_neg (by simp [allowed]), if_pos fits]

theorem unlock_of_wrong {slot : Nat} {pw : Bytes} {s : State} (allowed : s.es.refusal = none)
    (wrong : passwordFits slot pw s = false) :
    unlock slot pw s = (logEv 0x0804 slot 0 0 { s with
      es.unlocked := none, es.wrong := s.es.wrong + 1, es.unlockFails := sat32 (s.es.unlockFails + 1)
      es.refusal := if 3 ≤ s.es.wrong + 1 then some (s.es.time + 60000000000) else none }, locked) := by
  rw [unlock, if_neg (by simp [allowed]), if_neg (by simp [wrong])]

theorem unlock_of_refused {slot : Nat} {pw : Bytes} {s : State} (refused : s.es.refusal.isSome = true) :
    unlock slot pw s = (s, locked) := if_pos refused

/-- The three cases of ES_UNLOCK share its payload checks. -/
theorem applies_esUnlock {good : JEntry → State → Prop} {eff : JEntry → State → State} {reply : Reply}
    (does : ∀ e s, good e s → e.payload.length = 24 ∧ u8 e.payload 0 < 4 ∧ allZero e.payload 1 7 = true ∧
      unlock (u8 e.payload 0) (slice e.payload 8 16) s = (eff e s, reply)) :
    Applies 0x0802 .esUnlock good eff (fun _ _ => reply) :=
  applies_of_answered (fun _ _ => by rw [exec, execEsUnlock]) fun e s h => by
    obtain ⟨length, slot, reserved, action⟩ := does e s h
    rw [checked_none (passwordSlot_none length slot reserved), action]

/-! ### ES_REARM and ES_CONFIRM -/

theorem rearm_of_cleared {o : Nat × Nat} {j : Nat} {s : State} (powered : (takeCauses s).es.powered = true)
    (run : (takeCauses s).es.run = .cleared) (path : (takeCauses s).es.cfg.rearmPath ≠ 0) :
    rearm o j s = ({ takeCauses s with
      free := (takeCauses s).free + 1, es.run := .rearmPending
      es.rearm := some ⟨o, Config.rearmToken (takeCauses s).free % 2 ^ 32, acceptedEs j (takeCauses s)⟩ },
      okWith (b4 (Config.rearmToken (takeCauses s).free % 2 ^ 32) ++ b4 0)) := by
  unfold rearm
  dsimp only
  rw [if_neg (by simp [run]), if_pos ⟨powered, run, path⟩]
  rfl

/-- ES_CONFIRM of the pending token, in its time and by its pair, grants (10 R220). -/
theorem confirm_of_pending {r : Rearm} {j : Nat} {s : State} (run : (takeCauses s).es.run = .rearmPending)
    (pending : (takeCauses s).es.rearm = some r) (early : r.tick + 100000000 ≤ acceptedEs j (takeCauses s))
    (late : acceptedEs j (takeCauses s) ≤ r.tick + 2000000000) :
    confirm r.origin r.token j s = (esGrant 1 (takeCauses s), ok) := by
  simp only [confirm, pending, run, ne_eq, not_true_eq_false, if_false]
  rw [if_neg (by omega), if_neg (by omega)]

/-! ### The commands -/

/-- Settles O31: each payload passes its checks, and what the handler then does is the stated effect and result. -/
theorem supervisorCommands : Obligations.SupervisorCommands := by
  refine ⟨applies_esUnlock ?fits, applies_esUnlock ?wrong, applies_esUnlock ?refused, applies_of_bare fun _ _ => rfl,
    ?stage, ?commitLocked, ?commit, ?rearm, fun r => ?confirm, applies_of_bare fun _ _ => rfl, ?setPassword⟩
  case fits =>
    rintro e s ⟨length, slot, reserved, allowed, fits⟩
    exact ⟨length, slot, reserved, unlock_of_fitting allowed fits⟩
  case wrong =>
    rintro e s ⟨length, slot, reserved, allowed, wrong⟩
    exact ⟨length, slot, reserved, unlock_of_wrong allowed wrong⟩
  case refused =>
    rintro e s ⟨length, slot, reserved, refused⟩
    exact ⟨length, slot, reserved, unlock_of_refused refused⟩
  case stage =>
    refine applies_of_answered (fun _ _ => by rw [exec, execEsStage]) fun e s good => ?_
    obtain ⟨first, last, reserved, length, fields, unlocked⟩ := good
    obtain ⟨slot, isSlot⟩ := Option.isSome_iff_exists.1 unlocked
    have fixed : AllGood [(within 1 (u16 e.payload 0) 7, 0), rsv e.payload 2 6] := by
      simp [allGood_cons, allGood_rsv, allGood_nil, within_iff, first, last, reserved]
    rw [checked_none (varPayload_none length (by omega) fixed fields), if_neg (by simp [isSlot])]
  case commitLocked =>
    refine applies_of_answered (fun _ _ => by rw [exec, execEsCommit]) fun e s good => ?_
    obtain ⟨bare, isLocked⟩ := good
    rw [checked_none (fixedPayload_none (by rw [bare]; rfl) allGood_nil), commitConfig, if_pos (by simp [isLocked])]
    rfl
  case commit =>
    refine applies_of_answered (fun _ _ => by rw [exec, execEsCommit]) fun e s good => ?_
    obtain ⟨bare, -⟩ := good
    exact checked_none (fixedPayload_none (by rw [bare]; rfl) allGood_nil)
  case rearm =>
    refine applies_of_answered (fun _ _ => by rw [exec, execEsRearm]) fun e s good => ?_
    obtain ⟨bare, powered, run, path⟩ := good
    rw [checked_none (fixedPayload_none (by rw [bare]; rfl) allGood_nil), rearm_of_cleared powered run path]
  case confirm =>
    refine applies_of_answered (fun _ _ => by rw [exec, execEsConfirm]) fun e s good => ?_
    obtain ⟨length, reserved, run, pending, pair, token, early, late⟩ := good
    have fields : AllGood [rsv e.payload 4 4] := by simp [allGood_rsv, allGood_nil, reserved]
    rw [checked_none (fixedPayload_none length fields), ← pair, ← token, confirm_of_pending run pending early late]
    rfl
  case setPassword =>
    refine applies_of_answered (fun _ _ => by rw [exec, execEsSetPassword]) fun e s good => ?_
    obtain ⟨length, slot, reserved, -⟩ := good
    exact checked_none (passwordSlot_none length slot reserved)

end Sys2Proof
end

section
/-! The events of the Emission Supervisor (O56; 10 R209, R211 to R213, R216, R218, R219, R225, R226, R229, R230): pulses
and buckets of the ledgers, its checks, its timeouts, the fall of SAFE_ACK and the messages of the safety path. -/

namespace Sys2Proof

open Sys2Proof.Machine

/-! ### Ledgers -/

/-- The weight of a pulse of port `p` stands in the buckets of the port and of its group (10 R212). -/
def weighPulse (p : Nat) (s : State) : State :=
  forUpto 3 (fun k x => { x with
    es.ports := tabMod [] x.es.ports (3 * p + k) (addBucket (tabGet 1 s.es.cfg.weights p))
    es.groups := tabMod [] x.es.groups (3 * (p / 8) + k) (addBucket (tabGet 1 s.es.cfg.weights p)) }) s

theorem exec_esPulseCount_within {p : Fin 128} {s : State} (powered : s.es.powered = true)
    (within : overLimit (weighPulse p.val s) p.val = none) :
    exec (.esPulseCount p) s = .next (weighPulse p.val s) := by
  rw [exec, execEsPulseCount, if_pos powered, countPulse]
  simp only [weighPulse] at within ⊢
  rw [within]

theorem exec_esPulseCount_over {p : Fin 128} {s : State} {k : Nat} {g : Bool} (powered : s.es.powered = true)
    (exceeded : overLimit (weighPulse p.val s) p.val = some (k, g)) :
    exec (.esPulseCount p) s =
      .next (esLedger p.val k (if g then p.val / 8 else 0xFF) (weighPulse p.val s)) := by
  rw [exec, execEsPulseCount, if_pos powered, countPulse]
  simp only [weighPulse] at exceeded ⊢
  rw [exceeded]

theorem exec_ledgerBucketClose {k : Fin 3} {s : State} (powered : s.es.powered = true)
    (due : (nth s.es.closedTo k.val / bucketNs s.es.cfg k.val + 1) * bucketNs s.es.cfg k.val ≤ s.es.time) :
    exec (.ledgerBucketClose k) s = .next { s with
      es.closedTo := s.es.closedTo.set k.val
        ((nth s.es.closedTo k.val / bucketNs s.es.cfg k.val + 1) * bucketNs s.es.cfg k.val)
      es.ports := mapWindow k.val closeBucket s.es.ports
      es.groups := mapWindow k.val closeBucket s.es.groups } := by
  rw [exec, execLedgerBucketClose]
  dsimp only
  rw [if_neg (by simpa [powered] using due)]

/-! ### Checks -/

theorem exec_esClockCheck_good {ppm : Int} {s : State} (powered : s.es.powered = true) (small : ppm.natAbs ≤ 30000) :
    exec (.esClockCheck ppm true) s = .next { s with
      es.clockDev := ppm
      es.clockOkSince := some (s.es.clockOkSince.getD s.es.time) } := by
  rw [exec, execEsClockCheck, if_neg (by simp [powered])]
  dsimp only
  rw [if_pos (by simpa using small)]

theorem exec_esClockCheck_bad {ppm : Int} {railOk : Bool} {s : State} (powered : s.es.powered = true)
    (bad : railOk = false ∨ 30000 < ppm.natAbs) :
    exec (.esClockCheck ppm railOk) s =
      .next (esArise 9 { s with es.clockDev := ppm, es.clockOkSince := none }) := by
  rw [exec, execEsClockCheck, if_neg (by simp [powered])]
  dsimp only
  rw [if_neg (by
    simp only [Bool.and_eq_true, decide_eq_true_eq, not_and, not_le]
    exact fun isOk => bad.resolve_left (by simp [isOk]))]

theorem exec_esSelftest {s : State} (good : Bool) (powered : s.es.powered = true) :
    exec (.esSelftest good) s = .next
      (if good then esClear 7 { s with es.selftestOk := good } else esArise 7 { s with es.selftestOk := good }) := by
  rw [exec, execEsSelftest, if_neg (by simp [powered])]

theorem exec_esCrcCheck {s : State} (crc : BitVec 32) (powered : s.es.powered = true) :
    exec (.esCrcCheck crc) s =
      .next (if crc.toNat = s.es.crc then esClear 6 { s with es.loaded := true } else esArise 6 s) := by
  rw [exec, execEsCrcCheck, if_neg (by simp [powered])]

/-! ### Timeouts and the fall of SAFE_ACK -/

theorem exec_rearmTimeout {s : State} {r : Rearm} (pending : s.es.rearm = some r)
    (due : r.tick + 2000000000 ≤ s.es.time) : exec .rearmTimeout s = .next (cancelRearm 2 s) := by
  simp only [exec, execRearmTimeout, pending, due, if_true]

theorem exec_esUnlockTimeout {s : State} (unlocked : s.es.unlocked.isSome = true)
    (due : s.es.unlockAt + 60000000000 ≤ s.es.time) : exec .esUnlockTimeout s = .next (esLock s) := by
  rw [exec, execEsUnlockTimeout, if_pos (by simp [unlocked, due])]

theorem exec_unlockRefusalEnd {s : State} {x : Nat} (refusal : s.es.refusal = some x) (due : x ≤ s.es.time) :
    exec .unlockRefusalEnd s = .next { s with es.refusal := none, es.wrong := 0 } := by
  simp only [exec, execUnlockRefusalEnd, refusal, due, if_true]

theorem exec_safeAckFall {s : State} (powered : s.es.powered = true) (new : s.es.ack ≠ some false) :
    exec .safeAckFall s = .next { s with
      es.ack := some false, es.ackLow := if s.es.ack = some true then some s.es.time else none } := by
  rw [exec, execSafeAckFall, if_neg (by simp [powered, new])]

/-! ### The safety path -/

theorem exec_esStateMessageSend {s : State} (powered : s.es.powered = true) (isMember : ringMember s = true)
    (due : s.es.sentAt + 20000 ≤ s.es.time) :
    exec .esStateMessageSend s = .next (broadcast 3 1 (stateMessage 0 s) (stateMessage 1 s) { s with
      es.seq := (s.es.seq + 1) % 2 ^ 32, es.sentAt := s.es.time }) := by
  rw [exec, execEsStateMessageSend, if_neg (by simpa [powered, isMember] using due)]

/-- A state message has its length and its CRC, which is computed with the ring number 0 (10 R230, Table SAFE-6). -/
def stateMessageGood (m : Bytes) : Bool :=
  decide (m.length = 24) && decide (crc32 (overwrite (m.take 20) 3 (zeros 1)) = u32 m 20)

theorem exec_esStateMessage {s s1 : State} {m : RingMessage} (arrived : takeInbox 3 1 s = some (m, s1))
    (powered : s.es.powered = true) (isMember : ringMember s = true) :
    exec .esStateMessage s = .next (if stateMessageGood m.payload then takeStateMessage m.payload s1
      else { s1 with es.pathMismatches := sat32 (s1.es.pathMismatches + 1) }) := by
  rw [exec, execEsStateMessage, arrived]
  dsimp only
  rw [if_neg (by simp [powered, isMember])]
  rfl

/-- What ring `r` last brought from a source (10 R230). -/
def copyOf (r : Fin 2) (x : PathSource) : PathCopy := if r.val = 0 then x.primary else x.secondary

/-- What the other ring last brought from it. -/
def otherCopy (r : Fin 2) (x : PathSource) : PathCopy := if r.val = 0 then x.secondary else x.primary

/-- The source with its copy of ring `r` timed out. -/
def timeOut (r : Fin 2) (x : PathSource) : PathSource :=
  if r.val = 0 then { x with primary := { copyOf r x with timedOut := true } }
  else { x with secondary := { copyOf r x with timedOut := true } }

/-- A source that ring `r` no longer brings is silent where the other ring brings nothing either; else it is degraded,
once per timeout (10 R230). -/
theorem exec_safePathTimeout {n : BitVec 16} {r : Fin 2} {s : State} {x : PathSource}
    (source : tabGet {} s.es.paths n.toNat = x) (powered : s.es.powered = true) (isMember : ringMember s = true)
    (heard : x.primary.last.isSome = true ∨ x.secondary.last.isSome = true)
    (due : (copyOf r x).tick + 1000 * s.es.cfg.pathTimeout ≤ s.es.time) :
    exec (.safePathTimeout n r) s = .next (
      if (otherCopy r x).tick + 1000 * s.es.cfg.pathTimeout ≤ s.es.time then
        { s with es.paths := tabSet {} s.es.paths n.toNat { x with silent := true } }
      else if (copyOf r x).timedOut then s
      else degradePath n.toNat { s with
        es.paths := tabSet {} s.es.paths n.toNat (timeOut r x)
        es.pathTimeouts := sat32 (s.es.pathTimeouts + 1) }) := by
  have isHeard : (x.primary.last.isSome || x.secondary.last.isSome) = true := by simpa using heard
  have elapsed : ¬s.es.time < (if r.val = 0 then x.primary else x.secondary).tick + 1000 * s.es.cfg.pathTimeout :=
    Nat.not_lt.2 due
  rw [exec, execSafePathTimeout]
  dsimp only
  rw [source, if_neg (by
    rw [powered, isMember, isHeard, decide_eq_false elapsed]
    decide)]
  rfl

/-! ### The events -/

/-- Settles O56: each clause is what the event's own lemma says. -/
theorem supervisorEvents : Obligations.SupervisorEvents := by
  refine ⟨fun p s powered => ⟨exec_esPulseCount_within powered, fun k g => exec_esPulseCount_over powered⟩,
    fun k s => exec_ledgerBucketClose, fun ppm railOk s powered => ⟨?clockGood, fun bad => ?clockBad⟩,
    fun s powered => ⟨⟨_, exec_esSelftest false powered, ?failed⟩, _, exec_esSelftest true powered, ?passed⟩,
    fun crc s powered => ⟨_, exec_esCrcCheck crc powered, ?crc⟩, fun s r => exec_rearmTimeout,
    fun s => exec_esUnlockTimeout, fun s x => exec_unlockRefusalEnd, fun s => exec_safeAckFall,
    fun s => exec_esStateMessageSend, fun s s1 m arrived powered isMember length crc => ?taken,
    fun s s1 m arrived powered isMember bad => ?dropped, fun n r s => ?path⟩
  case clockGood =>
    rintro rfl small
    exact exec_esClockCheck_good powered small
  case clockBad => exact ⟨_, exec_esClockCheck_bad powered bad, bit_esArise 9 powered⟩
  case failed => exact bit_esArise 7 powered
  case passed => exact bit_esClear 7 powered
  case crc =>
    split
    · next same => simpa [same] using bit_esClear 6 (s := { s with es.loaded := true }) powered
    · next differs => simpa [differs] using bit_esArise 6 powered
  case taken =>
    rw [exec_esStateMessage arrived powered isMember, if_pos (by simp [stateMessageGood, length, crc])]
  case dropped =>
    rw [exec_esStateMessage arrived powered isMember, if_neg (by
      simp only [stateMessageGood, Bool.and_eq_true, decide_eq_true_eq, not_and_or]
      exact bad)]
  case path =>
    intro x mine other powered isMember heard due
    have next := exec_safePathTimeout (n := n) (r := r) rfl powered isMember heard due
    refine ⟨fun live first => next.trans (congrArg _ ?_), fun quiet => next.trans (congrArg _ (if_pos quiet))⟩
    exact (if_neg (Nat.not_le.2 live)).trans (if_neg (Bool.eq_false_iff.1 first))

end Sys2Proof
end

section
/-! Mailboxes and the journal (O1, O3, O9, O11 to O15; 11 R236 to R245, 12 R266, R267): which operations touch no mailbox,
what a mailbox reads after a write, and what posting, checking, accepting and completing a command do. -/

namespace Sys2Proof

open Sys2Proof.Machine

/-! ### Commands and their queue -/

/-- Settles O1: `step` hands the front of the queue to `exec`. -/
theorem stepRunsHeadOfQueue : Obligations.StepRunsHeadOfQueue := fun _ _ _ => rfl

/-- Settles O3: of each command, the meaning wraps every branch in a next state. -/
theorem everyCommandAnswers : Obligations.EveryCommandAnswers := by
  intro i s
  cases i <;> exact ⟨_, rfl⟩

/-- Settles O9: the table has no bits, so decoding finds nothing to put into the queue. -/
theorem tableGivesNoBits : Obligations.TableGivesNoBits := fun _ _ _ => ⟨rfl, rfl⟩

/-! ### Operations that touch no mailbox and no journal -/

@[simp] theorem logPush_mbx (sev src code p0 p1 p2 : Nat) (s : State) :
    (logPush sev src code p0 p1 p2 s).mbx = s.mbx := by
  unfold logPush
  split
  · rfl
  · split <;> rfl

@[simp] theorem logEv_mbx (code p0 p1 p2 : Nat) (s : State) : (logEv code p0 p1 p2 s).mbx = s.mbx := by
  unfold logEv
  split
  · exact logPush_mbx ..
  · rfl

@[simp] theorem misuse_mbx (mb case : Nat) (s : State) : (misuse mb case s).mbx = s.mbx := logEv_mbx ..

@[simp] theorem msixSend_mbx (v : Nat) (s : State) : (msixSend v s).mbx = s.mbx := by
  obtain ⟨pba, out, sent⟩ := msixSend_frame v s
  rw [sent]

@[simp] theorem mbxMessage_mbx (mb bitNo : Nat) (s : State) : (mbxMessage mb bitNo s).mbx = s.mbx := by
  unfold mbxMessage
  dsimp only
  split
  · exact msixSend_mbx ..
  · rfl

@[simp] theorem hostWrite_mbx (addr : Nat) (bs : Bytes) (s : State) : (hostWrite addr bs s).mbx = s.mbx := by
  unfold hostWrite hostWriteEp
  split <;> rfl

@[simp] theorem writeResult_mbx (mb : Nat) (r : Bytes) (s : State) : (writeResult mb r s).mbx = s.mbx := by
  unfold writeResult
  split
  · exact hostWrite_mbx ..
  · rfl

@[simp] theorem returnCredit_mbx (p : Port) (reserved : Bool) (n : Nat) (s : State) :
    (returnCredit p reserved n s).mbx = s.mbx := by
  unfold returnCredit
  split <;> rfl

@[simp] theorem sendOne_mbx (p : Port) (s : State) : (sendOne p s).mbx = s.mbx := by
  unfold sendOne
  dsimp only
  split
  · rfl
  · split <;> simp

@[simp] theorem drainPort_mbx (n : Nat) (p : Port) (s : State) : (drainPort n p s).mbx = s.mbx := by
  induction n generalizing s with
  | zero => rfl
  | succ n ih => rw [drainPort, ih, sendOne_mbx]

@[simp] theorem enqueue_mbx (p : Port) (f : OutFrame) (s : State) : (enqueue p f s).mbx = s.mbx := by
  rw [enqueue, drain, drainPort_mbx, modPort_mbx]

@[simp] theorem sendOn_mbx (ring cls typ dst : Nat) (payload : Bytes) (s : State) :
    (sendOn ring cls typ dst payload s).mbx = s.mbx := by
  unfold sendOn forwardOn
  split
  · rfl
  · exact enqueue_mbx ..

@[simp] theorem e2eSend_mbx (cls typ dst : Nat) (body : Bytes) (s : State) :
    (e2eSend cls typ dst body s).mbx = s.mbx := by
  unfold e2eSend
  dsimp only
  split
  · rfl
  · rw [sendOn_mbx]

@[simp] theorem sendFragments_mbx (n typ dst node mb seq : Nat) (body : Bytes) (s : State) :
    (sendFragments n typ dst node mb seq body s).mbx = s.mbx := by
  induction n generalizing body s with
  | zero => rfl
  | succ n ih =>
    unfold sendFragments
    dsimp only
    split
    · exact e2eSend_mbx ..
    · rw [ih, e2eSend_mbx]

/-- Forwarding a command only marks its entry started (11 R246). -/
theorem forwardRemote_mbx (e : JEntry) (s : State) :
    (forwardRemote e s).mbx = (modEntry e.jseq (fun x => { x with started := true }) s).mbx := by
  rw [forwardRemote, sendMgmt, sendFragments_mbx]

/-! ### Reading a mailbox -/

theorem box_congr {s t : State} (h : t.mbx = s.mbx) (m : Nat) : box t m = box s m := by rw [box, box, h]

@[simp] theorem box_sweep (s : State) (m : Nat) : box (sweep s) m = box s m := rfl

theorem box_modBox_other {m k : Nat} (f : Mailbox → Mailbox) (s : State) (h : k ≠ m) :
    box (modBox m f s) k = box s k := tabGet_set_other _ _ _ _ _ h

/-- A mailbox that is not left FREE reads back as it was written: it is not the table's default. -/
theorem box_modBox_same {m : Nat} {f : Mailbox → Mailbox} {s : State} (h : (f (box s m)).state ≠ .free) :
    box (modBox m f s) m = f (box s m) :=
  tabGet_set_of_ne _ _ fun free => h (congrArg Mailbox.state free)

/-- Only what is made of the mailbox as it stands counts. -/
theorem modBox_congr {m : Nat} {f g : Mailbox → Mailbox} {s : State} (h : f (box s m) = g (box s m)) :
    modBox m f s = modBox m g s :=
  congrArg (fun b => { s with mbx.boxes := tabSet {} s.mbx.boxes m b }) h

/-! ### Posting -/

theorem exec_mbxDoorbell {s : State} (mb : Fin 8) (v : BitVec 32) (served : bar0Served s = true) :
    exec (.mbxDoorbell mb v) s = .next (doorbell mb.val v.toNat s) := by
  rw [exec, execMbxDoorbell, if_pos served]

/-- A mailbox is FREE or DONE unless a command of its own is in hand. -/
theorem idle_iff_not_busy (st : MbxStatus) : (st = .free ∨ st = .done) ↔ ¬(st = .posted ∨ st = .accepted) := by
  cases st <;> decide

/-- Settles O11: a doorbell posts where its mailbox is idle and its value matches; else it is a misuse, whose case is 2
exactly where the mailbox is busy. -/
theorem doorbellPosts : Obligations.DoorbellPosts := by
  intro mb v s served b idle
  have isIdle : idle ↔ ¬(b.state = .posted ∨ b.state = .accepted) := idle_iff_not_busy b.state
  refine ⟨fun rung => ?posts, fun misused => ?ignored⟩
  case posts =>
    obtain ⟨free, value⟩ := rung
    have kept : ¬(decide (b.state = .posted ∨ b.state = .accepted) ||
        decide (v.toNat ≠ u64 b.hdr 8 % 2 ^ 32)) = true := by simp [isIdle.1 free, value]
    rw [exec_mbxDoorbell mb v served, doorbell, if_neg kept]
    exact congrArg _ (modBox_congr rfl)
  case ignored =>
    have bad : (decide (b.state = .posted ∨ b.state = .accepted) ||
        decide (v.toNat ≠ u64 b.hdr 8 % 2 ^ 32)) = true := by
      rw [Bool.or_eq_true, decide_eq_true_eq, decide_eq_true_eq]
      exact (not_and_or.1 misused).imp (fun busy => not_not.1 fun free => busy (isIdle.2 free)) id
    have caseOf : (if decide (b.state = .posted ∨ b.state = .accepted) = true then 2 else 1) =
        if idle then 1 else 2 := by
      by_cases free : idle
      · simp [free, isIdle.1 free]
      · simp [free, not_not.1 fun busy => free (isIdle.2 busy)]
    refine ⟨_, exec_mbxDoorbell mb v served, ?_⟩
    rw [doorbell, if_pos bad, misuse, caseOf]
    exact ⟨by rw [logEv_mbx], by rw [logEv_mbx]; exact Nat.min_comm .., by rw [logEv_mbx]⟩

/-! ### Checking -/

/-- A POSTED command is taken up unless acceptance is suspended (11 R237, 12 R268, R280, R283). -/
theorem exec_commandCheck {s : State} (mb : Fin 8) (host : Option (List Byte)) (posted : (box s mb.val).state = .posted)
    (takes : sornor s = true) (rails : s.power.warning = false) (channels : s.mem.failed = 0)
    (alone : unaccepted s mb.val = false) :
    exec (.commandCheck mb host) s = .next (commandCheck mb.val host s) := by
  rw [exec, execCommandCheck, if_pos (by simp [posted, takes, rails, channels, alone])]

theorem commandCheck_of_early {s : State} {m : Nat} {r : Refuse} (host : Option Bytes)
    (fails : earlyChecks s (box s m) (box s m).latched = some r) : commandCheck m host s = refuse m r s := by
  simp only [commandCheck, fails]

theorem commandCheck_of_passed {s t : State} {m : Nat} {host : Option Bytes} {p : Bytes}
    (early : earlyChecks s (box s m) (box s m).latched = none)
    (new : isRepost (box s m) (box s m).latched = false) (middle : middleChecks s (box s m).latched = none)
    (read : readPayload m (box s m).latched host s = (some p, t)) (late : lateChecks t (box s m).latched p = none) :
    commandCheck m host s = journalEntry m (box s m).latched p t := by
  simp only [commandCheck, early, new, middle, read, late, Bool.false_eq_true, if_false]

/-- Settles O12: with every check passed, `journalEntry` is all that is left to do. -/
theorem checkPutsCommandInJournal : Obligations.CheckPutsCommandInJournal := by
  intro mb host s t p b h posted takes rails channels alone early new middle read late
  rw [exec_commandCheck mb host posted takes rails channels alone, commandCheck_of_passed early new middle read late]
  rfl

/-- Refusing changes the mailbox and counts; the misuse event and the message change neither (11 R237, R243, R245). -/
theorem refuse_mbx (m : Nat) (r : Refuse) (s : State) :
    (refuse m r s).mbx = (modBox m (fun b => { b with
      state := .done, status := r.status, cflags := b.cflags ||| 1, detail := refuseDetail r, epoch := epochNo s
      frame := frameNo s, acceptTb := 0, waiting := none })
      { s with mbx.refused := sat32 (s.mbx.refused + 1) }).mbx := by
  unfold refuse
  dsimp only
  rw [mbxMessage_mbx]
  split
  · rfl
  · rw [misuse_mbx]

theorem box_refuse (m : Nat) (r : Refuse) (s : State) :
    box (refuse m r s) m = { box s m with
      state := .done, status := r.status, cflags := (box s m).cflags ||| 1, detail := refuseDetail r
      epoch := epochNo s, frame := frameNo s, acceptTb := 0, waiting := none } := by
  rw [box_congr (refuse_mbx m r s), box_modBox_same (by simp)]
  rfl

/-- Settles O13: the check of R237 that fails is answered by `refuse`, which touches neither LAST_SEQ nor the journal. -/
theorem refusalLeavesSequence : Obligations.RefusalLeavesSequence := by
  intro mb host s r b posted takes rails channels alone fails
  have refused : exec (.commandCheck mb host) s = .next (refuse mb.val r s) := by
    rw [exec_commandCheck mb host posted takes rails channels alone, commandCheck_of_early host fails]
  have count : (refuse mb.val r s).mbx.refused = min (2 ^ 32 - 1) (s.mbx.refused + 1) := by
    rw [refuse_mbx]
    exact Nat.min_comm ..
  refine ⟨_, refused, ?_⟩
  rw [box_refuse]
  exact ⟨rfl, rfl, rfl, rfl, rfl, by rw [refuse_mbx]; rfl, count⟩

/-! ### Acceptance -/

/-- Every entry of the journal under this JSEQ has its ACCEPTED mark. -/
def AcceptedIn (j : Nat) (s : State) : Prop := ∀ x ∈ s.mbx.journal, x.jseq = j → x.accepted = true

theorem acceptedIn_congr {j : Nat} {s t : State} (h : t.mbx = s.mbx) (a : AcceptedIn j s) : AcceptedIn j t := by
  rw [AcceptedIn, h]
  exact a

/-- Marking an entry accepted marks every entry under its JSEQ. -/
theorem acceptedIn_modEntry_same {j : Nat} {f : JEntry → JEntry} (s : State) (marks : ∀ e, (f e).accepted = true) :
    AcceptedIn j (modEntry j f s) := by
  intro x hx same
  obtain ⟨e, -, rfl⟩ := List.mem_map.1 hx
  by_cases at_j : e.jseq = j
  · rw [if_pos at_j]
    exact marks e
  · rw [if_neg at_j] at same
    exact absurd same at_j

/-- A change of entries that touches neither their JSEQ nor their mark. -/
theorem AcceptedIn.modEntry {j k : Nat} {f : JEntry → JEntry} {s : State} (a : AcceptedIn j s)
    (marks : ∀ e, (f e).accepted = e.accepted) (keeps : ∀ e, (f e).jseq = e.jseq) :
    AcceptedIn j (modEntry k f s) := by
  intro x hx same
  obtain ⟨e, he, rfl⟩ := List.mem_map.1 hx
  split at same
  · rw [if_pos ‹_›, marks]
    exact a e he ((keeps e).symm.trans same)
  · rw [if_neg ‹_›]
    exact a e he same

/-- Freeing entries leaves the marks of the others. -/
theorem AcceptedIn.sweep {j : Nat} {s : State} (a : AcceptedIn j s) : AcceptedIn j (sweep s) :=
  fun x hx => a x (List.mem_of_mem_filter hx)

/-- What accepting a command makes of its mailbox (11 R238). -/
def acceptedBox (e : JEntry) (s : State) (b : Mailbox) : Mailbox :=
  { b with
    state := .accepted
    status := 1
    lastSeq := if decide (hOp e.header = 0x0101) then b.lastSeq else hSeq e.header
    lastOp := if decide (hOp e.header = 0x0101) then b.lastOp else hOp e.header
    cflags := if hTarget e.header = 0xFFFF then b.cflags else b.cflags ||| 4
    epoch := epochNo s
    frame := frameNo s
    acceptTb := now s }

theorem acceptEntry_mbx (e : JEntry) (m : Nat) (s : State) :
    (acceptEntry e m s).mbx = (sweep (modBox m (acceptedBox e s)
      { placeEntry e.jseq (modEntry e.jseq (fun x => { x with accepted := true, acceptedAt := now s }) s) with
        mbx.acceptedTotal := wrap64 (s.mbx.acceptedTotal + 1) })).mbx :=
  mbxMessage_mbx ..

theorem box_acceptEntry (e : JEntry) (m : Nat) (s : State) :
    box (acceptEntry e m s) m = acceptedBox e s (box s m) := by
  rw [box_congr (acceptEntry_mbx e m s), box_sweep, box_modBox_same (by simp [acceptedBox])]
  rfl

theorem acceptEntry_acceptedTotal (e : JEntry) (m : Nat) (s : State) :
    (acceptEntry e m s).mbx.acceptedTotal = wrap64 (s.mbx.acceptedTotal + 1) := by
  rw [acceptEntry_mbx]
  rfl

theorem acceptedIn_acceptEntry (e : JEntry) (m : Nat) (s : State) : AcceptedIn e.jseq (acceptEntry e m s) := by
  have marked : AcceptedIn e.jseq (modEntry e.jseq (fun x => { x with accepted := true, acceptedAt := now s }) s) :=
    acceptedIn_modEntry_same s fun _ => rfl
  exact acceptedIn_congr (acceptEntry_mbx e m s) (AcceptedIn.sweep marked)

/-- What forwarding the next command leaves of the mailboxes and the journal: at most one entry is marked started. -/
theorem forwardNext_mbx (s : State) : (forwardNext s).mbx = s.mbx ∨
    ∃ j, (forwardNext s).mbx = (modEntry j (fun x => { x with started := true }) s).mbx := by
  unfold forwardNext
  split
  · split
    · exact .inr ⟨_, forwardRemote_mbx ..⟩
    · exact .inl rfl
  · exact .inl rfl

theorem box_forwardNext (s : State) (m : Nat) : box (forwardNext s) m = box s m := by
  obtain same | ⟨j, marked⟩ := forwardNext_mbx s
  · exact box_congr same m
  · exact box_congr marked m

theorem forwardNext_acceptedTotal (s : State) : (forwardNext s).mbx.acceptedTotal = s.mbx.acceptedTotal := by
  obtain same | ⟨j, marked⟩ := forwardNext_mbx s
  · rw [same]
  · rw [marked]
    rfl

theorem AcceptedIn.forwardNext {j : Nat} {s : State} (a : AcceptedIn j s) : AcceptedIn j (forwardNext s) := by
  obtain same | ⟨k, marked⟩ := forwardNext_mbx s
  · exact acceptedIn_congr same a
  · exact acceptedIn_congr marked (a.modEntry (fun _ => rfl) fun _ => rfl)

theorem exec_commandAccepted {mb : Fin 8} {s : State} {e : JEntry}
    (oldest : s.mbx.journal.find? (fun e => !e.accepted) = some e) (origin : e.origin = .mailbox mb.val)
    (takes : sornor s = true) :
    exec (.commandAccepted mb) s = .next (forwardNext (acceptEntry e mb.val s)) := by
  simp [exec, execCommandAccepted, oldest, origin, takes]

/-- Settles O14: `acceptEntry` sets the mailbox and the mark, and forwarding the next command afterwards keeps them. -/
theorem acceptanceSetsSequence : Obligations.AcceptanceSetsSequence := by
  intro mb s e oldest origin takes
  refine ⟨_, exec_commandAccepted oldest origin takes, ?_⟩
  rw [box_forwardNext, box_acceptEntry, forwardNext_acceptedTotal, acceptEntry_acceptedTotal]
  exact ⟨rfl, rfl, rfl, rfl, by simp [acceptedBox], (acceptedIn_acceptEntry e mb.val s).forwardNext⟩

/-! ### Completion -/

/-- What completing a command makes of its mailbox, its result not lost (11 R241). -/
def completedBox (r : Reply) (b : Mailbox) : Mailbox :=
  { b with
    state := .done, status := r.status, origStatus := r.orig, resultLen := r.result.length, detail := r.detail
    cflags := b.cflags ||| 0, waiting := none, writeFails := false }

/-- The result and the message change no mailbox (11 R241, R243). -/
theorem completeBox_mbx (m : Nat) (r : Reply) (s : State) :
    (completeBox m r false s).mbx = (modBox m (completedBox r) s).mbx := by
  refine (mbxMessage_mbx ..).trans ?_
  simp only [Bool.false_eq_true, if_false, modBox_mbx, writeResult_mbx]
  rfl

/-- A command of a mailbox whose result stays in payload SRAM completes at once (11 R241). -/
theorem finish_of_sram {j m : Nat} {r : Reply} {s : State} {e : JEntry} (found : entryOf s j = some e)
    (unfinished : e.done = false) (origin : e.origin = .mailbox m) (sram : resultToHost s m r.result = false) :
    ∃ u, (∀ k, box u k = box s k) ∧ finish j r s = sweep (completeBox m r false u) := by
  refine ⟨modEntry j (fun e => { e with done := true }) (modEntry j (fun e => { e with
    started := true, status := r.status, orig := r.orig, detail := r.detail, result := r.result }) s),
    fun _ => rfl, ?_⟩
  have stays (f : JEntry → JEntry) : resultToHost (modEntry j f s) m r.result = false := sram
  simp [finish, found, unfinished, origin, stays]

/-- Settles O15: `completeBox` writes the reply into the mailbox of the command and into no other. -/
theorem finishEndsCommand : Obligations.FinishEndsCommand := by
  intro j m r s e found unfinished origin sram t
  obtain ⟨u, same, done⟩ := finish_of_sram found unfinished origin sram
  have boxes (k : Nat) : box t k = box (modBox m (completedBox r) u) k := by
    rw [← box_congr (completeBox_mbx m r u), ← box_sweep (completeBox m r false u), ← done]
  have own : box t m = completedBox r (box s m) := by
    rw [boxes, box_modBox_same (by simp [completedBox]), same]
  rw [own]
  exact ⟨rfl, rfl, rfl, rfl, rfl, rfl, fun k other => by rw [boxes, box_modBox_other _ _ other, same]⟩

end Sys2Proof
end

section
/-! Running a mailbox command (O16, O18) and judging its payload (O19): 11 R239, R474. -/

namespace Sys2Proof

open Sys2Proof.Machine

/-! ### Every mailbox command runs its handler in its turn -/

/-- The meaning of a command is the running of this handler under this opcode. -/
def RunsHandler (op : Nat) (c : Fin 8 → Instr) (h : Handler) : Prop :=
  ∀ (mb : Fin 8) (s : State), exec (c mb) s = runCommand op mb h s

/-- Each row of Table MBOX-13 runs a handler of its own under the opcode of the row. -/
theorem mailboxOps_run : ∀ x ∈ mailboxOps, ∃ h, RunsHandler x.1 x.2 h := by
  simp only [mailboxOps, List.flatten_cons, List.flatten_nil, List.forall_mem_append, List.forall_mem_cons,
    List.not_mem_nil, false_imp_iff, implies_true, and_true]
  and_intros
  all_goals exact ⟨_, fun _ _ => by rw [exec]; exact rfl⟩

/-- Where the command whose turn has come is another one, nothing runs (11 R239). -/
theorem runCommand_of_other {op : Nat} {mb : Fin 8} {s : State} (h : Handler)
    (other : ∀ e, nextEntry s = some e → hOp e.header ≠ op ∨ originBox e.origin ≠ mb.val ∨ sornor s = false ∨
      forwarded e = true) : runCommand op mb h s = .next s := by
  unfold runCommand
  split
  · rfl
  · next e isNext =>
    rw [if_neg]
    simp only [Bool.and_eq_true, decide_eq_true_eq, Bool.not_eq_true', not_and, Bool.not_eq_false]
    rintro ⟨⟨opcode, origin⟩, takes⟩
    simpa [opcode, origin, takes] using other e isNext

/-- Settles O16: whatever its handler, a command runs only where the entry whose turn has come is its own. -/
theorem commandsRunInAcceptanceOrder : Obligations.CommandsRunInAcceptanceOrder := by
  intro x row mb s other
  obtain ⟨h, runs⟩ := mailboxOps_run x row
  rw [runs, runCommand_of_other h other]

/-! ### Commands without a payload -/

theorem fixedPayload_of_short {p : Bytes} {n : Nat} (fs : List (Bool × Nat)) (short : p.length < n) :
    fixedPayload p n fs = some badLength := if_pos short

theorem fixedPayload_of_bad {p : Bytes} {n : Nat} {fs : List (Bool × Nat)} {r : Reply} (long : n ≤ p.length)
    (bad : firstBad fs = some r) : fixedPayload p n fs = some r := by
  rw [fixedPayload, if_neg (Nat.not_lt.2 long), bad]

theorem fixedPayload_of_long {p : Bytes} {n : Nat} {fs : List (Bool × Nat)} (long : n < p.length) (good : AllGood fs) :
    fixedPayload p n fs = some badLength := by
  rw [fixedPayload, if_neg (Nat.lt_asymm long), (firstBad_eq_none_iff fs).2 good]
  exact if_neg (Nat.ne_of_gt long)

/-- A payload that is to be empty and is not fails by its length. -/
theorem fixedPayload_bare {p : Bytes} (given : p ≠ []) : fixedPayload p 0 [] = some badLength :=
  fixedPayload_of_long (List.length_pos_of_ne_nil given) allGood_nil

/-- The handler answers every payload but the empty one with BAD_LENGTH and does nothing else. -/
def TakesNoPayload (h : Handler) : Prop := ∀ o j p s, p ≠ [] → h o j p s = (s, some badLength)

/-- Each command without a payload runs a handler that takes none. -/
theorem bareOps_takeNoPayload : ∀ x ∈ bareOps, ∃ h, RunsHandler x.1 x.2 h ∧ TakesNoPayload h := by
  simp only [bareOps, List.forall_mem_cons, List.not_mem_nil, false_imp_iff, implies_true, and_true]
  and_intros
  all_goals
    refine ⟨_, fun _ _ => by rw [exec]; exact rfl, fun _ _ _ _ given => ?_⟩
    simp only [fixedPayload_bare given, checked]

/-- Settles O18: in its turn the command runs its handler, which answers the payload with BAD_LENGTH. -/
theorem bareCommandsRefusePayload : Obligations.BareCommandsRefusePayload := by
  intro x row mb e s ready given
  obtain ⟨h, runs, refuses⟩ := bareOps_takeNoPayload x row
  rw [runs, runCommand_ready ready, refuses _ _ _ _ given]

/-! ### The order of the payload checks -/

/-- The first field that fails, behind fields that hold, names its offset (11 R474). -/
theorem firstBad_of_first {l : List (Bool × Nat)} (r : List (Bool × Nat)) (off : Nat) (good : AllGood l) :
    firstBad (l ++ (false, off) :: r) = some (badField off) := by
  induction l with
  | nil => rfl
  | cons f l ih =>
    obtain ⟨holds, rest⟩ := (allGood_cons f.1 f.2 l).1 good
    rw [List.cons_append, firstBad, if_pos holds, ih rest]

/-- Settles O19: the length of the fixed part is judged first, then the fields in order, then the exact length. -/
theorem payloadIsJudgedInOrder : Obligations.PayloadIsJudgedInOrder := by
  refine fun p n fs => ⟨fixedPayload_of_short fs, fun l r off long parts good => ?_, fixedPayload_of_long,
    fixedPayload_eq_none_iff p n fs⟩
  rw [parts]
  exact fixedPayload_of_bad long (firstBad_of_first r off good)

end Sys2Proof
end

section
/-! The settings that are staged for a COMMIT (O21, O22, O24, O25; 02 R46, R48, 05 R110, R127, 06 R149, R151, 07 R166,
08 R188, 11 R247, 13 R323): what staging changes, and that each payload in range passes its checks. -/

namespace Sys2Proof

open Sys2Proof.Machine

/-! ### Staging -/

/-- Settles O21: `stage` writes the staging set and the journal mark and no other field. -/
theorem stagingChangesNothingInForce : Obligations.StagingChangesNothingInForce := fun _ _ _ => ⟨rfl, rfl, rfl⟩

/-! ### The angle and the grid -/

/-- The field checks of ANGLE_SET_SCAN: a rotor turns fully, a mirror by its two spans (02 Table ANGL-7). -/
theorem scanFields_good {p : Bytes} (h : (u32 p 0 = 0 ∧ u32 p 4 = 0 ∧ u32 p 8 = 360000000) ∨
    (u32 p 0 = 1 ∧ 0x10000000 ≤ u32 p 4 ∧ u32 p 4 ≤ 0xFFFFF000 ∧ 1 ≤ u32 p 8 ∧ u32 p 8 ≤ 360000000)) :
    AllGood (scanFields p) := by
  obtain ⟨rotor, span, mech⟩ | ⟨mirror, spanLow, spanHigh, mechLow, mechHigh⟩ := h
  · simp [scanFields, allGood_cons, allGood_nil, rotor, span, mech]
  · simp [scanFields, allGood_cons, allGood_nil, within_iff, mirror, spanLow, spanHigh, mechLow, mechHigh]

/-- Settles O22: each payload passes its checks, and its settings are staged. -/
theorem angleAndGridSettings : Obligations.AngleAndGridSettings := by
  refine ⟨?columns, ?scan, ?index⟩
  case columns =>
    refine applies_of_answered (fun _ _ => by rw [exec, execGridSetColumns]) fun e s good => ?_
    obtain ⟨kind, length, rising⟩ := good
    have long : 4 ≤ if u32 e.payload 0 = 1 then 12 else 8200 := by split <;> decide
    refine checked_none ?_
    rw [varPayload_none length long (by simp [allGood_cons, allGood_nil, kind]) allGood_nil]
    exact rising
  case scan =>
    refine applies_of_answered (fun _ _ => by rw [exec, execAngleSetScan]) fun e s good => ?_
    obtain ⟨length, spans⟩ := good
    exact checked_none (fixedPayload_none length (scanFields_good spans))
  case index =>
    refine applies_of_answered (fun _ _ => by rw [exec, execAngleSetIndex]) fun e s good => ?_
    obtain ⟨length, source, reserved, level, pick, one, suspect, relock, most, holdoff, longest, last⟩ := good
    refine checked_none (fixedPayload_none length ?_)
    simp only [allGood_cons, allGood_rsv, allGood_nil, within_iff, Bool.and_eq_true, decide_eq_true_eq, source, reserved,
      level, pick, one, suspect, relock, most, holdoff, longest, last, and_self]

/-! ### Receive, histograms and rejection -/

/-- A channel range from FIRST_CH on, within the 256 channels. -/
theorem channelRange_good {p : Bytes} (one : 1 ≤ u16 p 2) (fits : u16 p 0 + u16 p 2 ≤ 256) :
    AllGood (channelRange p) := by
  simp only [channelRange, allGood_cons, allGood_nil, within_iff, decide_eq_true_eq, and_true]
  omega

/-- The entries of a payload pass where each of them does. -/
theorem entryFields_good {n w : Nat} {f : Nat → List (Bool × Nat)} (h : ∀ i < n, AllGood (f (8 + w * i))) :
    AllGood (entryFields n w f) :=
  (allGood_flatMap ..).2 fun i hi => h i (List.mem_range.1 hi)

theorem withinI_iff (lo v hi : Int) : withinI lo v hi = true ↔ lo ≤ v ∧ v ≤ hi := decide_eq_true_iff

/-- Settles O24: each payload passes its checks; the thresholds act at once, channel by channel. -/
theorem receiveSettings : Obligations.ReceiveSettings := by
  refine ⟨?recv, ?hist, ?walk, ?rej, ?device, ?thresholds⟩
  case recv =>
    refine applies_of_answered (fun _ _ => by rw [exec, execRecvSetCourse]) fun e s good => ?_
    obtain ⟨range, reserved, length, entries⟩ := good
    exact checked_none (varPayload_none length (Nat.le_add_right ..) (courseRange_good range reserved) entries)
  case hist =>
    refine applies_of_answered (fun _ _ => by rw [exec, execHistSetCourse]) fun e s good => ?_
    obtain ⟨range, reserved, length, entries⟩ := good
    exact checked_none (varPayload_none length (Nat.le_add_right ..) (courseRange_good range reserved) entries)
  case walk =>
    refine applies_of_answered (fun _ _ => by rw [exec, execHistSetWalk]) fun e s good => ?_
    obtain ⟨one, fits, gain, reserved, length, offsets⟩ := good
    have range : AllGood (channelRange e.payload ++ [(decide (u8 e.payload 4 < 2), 4), rsv e.payload 5 3]) := by
      refine (allGood_append ..).2 ⟨channelRange_good one fits, ?_⟩
      simp [allGood_cons, allGood_rsv, allGood_nil, gain, reserved]
    exact checked_none (varPayload_none length (Nat.le_add_right ..) range
      ((allGood_map ..).2 fun i hi => (withinI_iff ..).2 (offsets i (List.mem_range.1 hi))))
  case rej =>
    refine applies_of_answered (fun _ _ => by rw [exec, execRejSetCourse]) fun e s good => ?_
    obtain ⟨range, reserved, length, entries⟩ := good
    refine checked_none (varPayload_none length (Nat.le_add_right ..) (courseRange_good range reserved)
      (entryFields_good fun i hi => ?_))
    obtain ⟨near, one, most, skip, last⟩ := entries i hi
    simp [allGood_cons, allGood_rsv, allGood_nil, within_iff, near, one, most, skip, last]
  case device =>
    refine applies_of_answered (fun _ _ => by rw [exec, execRejSetDevice]) fun e s good => ?_
    obtain ⟨length, codes, reserved⟩ := good
    exact checked_none (fixedPayload_none length (by simp [allGood_cons, allGood_rsv, allGood_nil, codes, reserved]))
  case thresholds =>
    refine applies_of_answered (fun _ _ => by rw [exec, execRecvSetThresholds]) fun e s good => ?_
    obtain ⟨one, fits, reserved, length⟩ := good
    have range : AllGood (channelRange e.payload ++ [rsv e.payload 4 4]) :=
      (allGood_append ..).2 ⟨channelRange_good one fits, (allGood_rsv ..).2 ⟨reserved, allGood_nil⟩⟩
    exact checked_none (varPayload_none length (Nat.le_add_right ..) range allGood_nil)

/-! ### Delivery rings and the ring phase -/

/-- Settles O25: each payload passes its checks, and its settings are staged. -/
theorem ringAndPhaseSettings : Obligations.RingAndPhaseSettings := by
  refine ⟨?ring, ?phase⟩
  case ring =>
    refine applies_of_answered (fun _ _ => by rw [exec, execDlvSetRing]) fun e s good => ?_
    obtain ⟨length, ring, enable, first, ordered, last, suppress, small, large, vector, reserved, base, pi, ci, one,
      most, holdoff, tail⟩ := good
    refine checked_none (fixedPayload_none length ?_)
    simp only [allGood_cons, allGood_rsv, allGood_nil, within_iff, decide_eq_true_eq, ring, enable, first, ordered, last,
      suppress, small, large, vector, reserved, base, pi, ci, one, most, holdoff, tail, and_self]
  case phase =>
    refine applies_of_answered (fun _ _ => by rw [exec, execRingSetPhase]) fun e s good => ?_
    obtain ⟨mode, low, most, table, high, length, entries⟩ := good
    refine checked_none (varPayload_none length (Nat.le_add_right ..) ?_ entries)
    simp only [allGood_cons, allGood_rsv, allGood_nil, decide_eq_true_eq, mode, low, most, table, high, and_self]

end Sys2Proof
end

section
/-! COMMIT, STAGE_DISCARD, SNAPSHOT and what happens without frames (O26; 11 R247 to R253, 12 R277). -/

namespace Sys2Proof

open Sys2Proof.Machine

/-! ### COMMIT -/

/-- The COMMIT of an empty staging set has nothing to apply. -/
theorem commitHandler_of_empty {s : State} (j : Nat) (empty : s.mbx.staging = []) :
    commitHandler j s = (s, some (okWith (commitResult (epochNo s) (frameNo s) 0))) := by
  rw [commitHandler, empty]

/-- The staging set becomes one pending commit. -/
theorem commitHandler_of_staged {s : State} (j : Nat) (staged : s.mbx.staging ≠ []) (inTime : dieAOverdue s = false) :
    commitHandler j s = ({ forEach (s.mbx.staging.map (fun x => x.1))
        (fun j => modEntry j (fun x => { x with stage := .covered })) s with
      mbx.staging := []
      mbx.commits := s.mbx.commits ++ [⟨j, acceptedOf s j, unframed s && s.power.dieA, s.mbx.staging⟩] }, none) := by
  unfold commitHandler
  split
  · next empty => exact absurd empty staged
  · rw [if_neg (by simp [inTime])]

theorem bare_none {p : Bytes} (empty : p = []) : fixedPayload p 0 [] = none :=
  fixedPayload_none (by rw [empty]; rfl) allGood_nil

/-! ### SNAPSHOT -/

/-- The payload checks of SNAPSHOT: its sections and a reserved word (11 Table MBOX-12). -/
theorem snapshotFields_none {p : Bytes} (length : p.length = 8) (sections : u32 p 0 < 65536)
    (reserved : allZero p 4 4 = true) : fixedPayload p 8 [(decide (u32 p 0 < 65536), 0), rsv p 4 4] = none :=
  fixedPayload_none length (by simp [allGood_cons, allGood_rsv, allGood_nil, sections, reserved])

/-- A running die A is not overdue. -/
theorem dieAOverdue_of_running {s : State} (runs : s.power.dieA = true) : dieAOverdue s = false := by
  simp [dieAOverdue, runs]

/-! ### COMMIT_APPLY_STOPPED -/

/-- The state once the waiting SNAPSHOTs have been answered, where no frame is in force and die A runs (11 R249). -/
def snapshotsAnswered (s : State) : State := if unframed s && s.power.dieA then latchSnapshots false s else s

/-- The oldest pending commit that may apply outside a frame is put to its checks. -/
theorem exec_commitApplyStopped {s : State} {c : PendingCommit} {rest : List PendingCommit}
    (oldest : (snapshotsAnswered s).mbx.commits = c :: rest) (may : appliesUnframed (snapshotsAnswered s) c = true) :
    exec .commitApplyStopped s = .next (applyUnframed c (snapshotsAnswered s)) := by
  simp only [snapshotsAnswered] at oldest may ⊢
  simp only [exec, execCommitApplyStopped, oldest, may, if_true]

theorem applyUnframed_of_passed {c : PendingCommit} {s : State} (passes : commitCheck s (planOf s c) = none) :
    applyUnframed c s = passCommit c (planOf s c) (s.angle.frame + 1) (frameNo s) (nextEpoch s) := by
  simp only [applyUnframed, passes]

theorem applyUnframed_of_failed {c : PendingCommit} {x : CommitFail} {s : State}
    (fails : commitCheck s (planOf s c) = some x) : applyUnframed c s = failCommit c x s := by
  simp only [applyUnframed, fails]

/-- Settles O26: each payload passes its checks, and what the handler then does is the stated effect. -/
theorem commitTakesTheStagingSet : Obligations.CommitTakesTheStagingSet := by
  refine ⟨?empty, ?staged, applies_of_bare fun _ _ => rfl, ?read, ?waits, ?stopped⟩
  case empty =>
    refine applies_of_answered (fun _ _ => by rw [exec, execCommit]) fun e s good => ?_
    obtain ⟨bare, empty⟩ := good
    simp only [bare_none bare, commitHandler_of_empty _ empty]
  case staged =>
    refine opens_of_unanswered (fun _ _ => by rw [exec, execCommit]) fun e s good => ?_
    obtain ⟨bare, staged, inTime⟩ := good
    simp only [bare_none bare, commitHandler_of_staged _ staged inTime]
  case read =>
    refine applies_of_answered (fun _ _ => by rw [exec, execSnapshot]) fun e s good => ?_
    obtain ⟨length, sections, reserved, still, runs⟩ := good
    simp [snapshotFields_none length sections reserved, dieAOverdue_of_running runs, still, runs]
  case waits =>
    refine opens_of_unanswered (fun _ _ => by rw [exec, execSnapshot]) fun e s good => ?_
    obtain ⟨length, sections, reserved, inTime, framed⟩ := good
    have notNow : (unframed s && s.power.dieA) = false := Bool.and_eq_false_iff.2 framed
    simp [snapshotFields_none length sections reserved, inTime, notNow]
  case stopped =>
    intro c rest s s1 oldest may
    have applied : exec .commitApplyStopped s = .next (applyUnframed c s1) := exec_commitApplyStopped oldest may
    exact ⟨fun passes => by rw [applied, applyUnframed_of_passed passes],
      fun x fails => by rw [applied, applyUnframed_of_failed fails]⟩

end Sys2Proof
end

section
/-! The session and image commands, RESULT_WRITE_FAIL and JOURNAL_MIRROR_REBUILT (O20; 11 R242, R254 to R257, 12 R268,
19 R436, R437, R439). -/

namespace Sys2Proof

open Sys2Proof.Machine

/-! ### Results and places of the journal -/

/-- The result of an ACCEPTED command, which goes to host memory and does not wait yet, will be lost (11 R242). -/
theorem exec_resultWriteFail {mb : Fin 8} {s : State} (accepted : (box s mb.val).state = .accepted)
    (toHost : bit (hFlags (box s mb.val).latched) 3 = true) (writing : (box s mb.val).waiting = none) :
    exec (.resultWriteFail mb) s = .next (modBox mb.val (fun b => { b with writeFails := true }) s) := by
  simp only [exec, execResultWriteFail, accepted, toHost, writing, true_or, and_self, if_true]

/-- The copy of die A returns to service while the link is up on two lanes or more (12 R268). -/
theorem exec_journalMirrorRebuilt_dieA {s : State} (runs : s.power.dieA = true) (linked : s.lanes.mortarUp = true)
    (lanes : 2 ≤ ((List.range 4).filter (fun i => s.lanes.maskBA.testBit i)).length) :
    exec (.journalMirrorRebuilt .dieA) s = .next { s with
      mbx.mirrorA := true, mbx.heldA := (s.mbx.journal.filter (fun e => e.accepted)).map (fun e => e.jseq) } :=
  congrArg _ (if_pos (by rw [runs, linked, decide_eq_true lanes]; rfl))

/-! ### HELLO -/

/-- The payload check of HELLO: interface level 4 (11 Table MBOX-14a). -/
theorem helloFields_none {p : Bytes} (length : p.length = 8) (level : u8 p 0 = 4) (reserved : allZero p 1 3 = true) :
    fixedPayload p 8 [(decide (u8 p 0 = 4), 0), rsv p 1 3] = none :=
  fixedPayload_none length (by simp [allGood_cons, allGood_rsv, allGood_nil, level, reserved])

theorem hello_of_good {p : Bytes} (o : Origin) (s : State) (length : p.length = 8) (level : u8 p 0 = 4)
    (reserved : allZero p 1 3 = true) :
    hello o p s = (logEv 0x0103 (u32 p 4) (originBox o) 0 { s with mbx.session := true, power.resets := 0 },
      some (okWith (helloResult s))) := by
  rw [hello, helloFields_none length level reserved]

/-! ### Images -/

/-- A part that neither erases nor verifies, in the slot that is not running, joins the parts of its slot (19 R436). -/
theorem writeImage_of_part {p : Bytes} {s : State} (spare : u8 p 0 ≠ s.power.image) (fits : u32 p 4 + u32 p 8 ≤ 2 ^ 23)
    (notFirst : bit (u8 p 1) 0 = false) (notLast : bit (u8 p 1) 1 = false) :
    writeImage p s = ({ s with
      power.slots := tabSet {} s.power.slots (u8 p 0)
        { parts := (u32 p 4, slice p 16 (u32 p 8)) :: (slotOf s (u8 p 0)).parts, verified := false } }, ok) := by
  rw [writeImage]
  dsimp only
  rw [if_neg spare, if_neg (Nat.not_lt.2 fits), notFirst, notLast]
  rfl

/-- A verified image is selected in the boot record that does not count, with the next generation (19 R437). -/
theorem selectImage_of_first {p : Bytes} {s : State} (verified : (slotOf s (u8 p 0)).verified = true)
    (keepSvn : u8 p 1 = 0) (first : activeRecord s = some 0) :
    selectImage p s = ({ s with
      power.records := tabSet {} s.power.records 1 ⟨true, wrap32 ((bootRecord s 0).generation + 1), u8 p 0⟩ },
      okWith (b4 (wrap32 ((bootRecord s 0).generation + 1)))) := by
  have noRaise : bit 0 0 = false := rfl
  simp [selectImage, verified, keepSvn, first, noRaise]

/-- Settles O20: each payload passes its checks, and what the handler then does is the stated effect and result. -/
theorem sessionAndImageCommands : Obligations.SessionAndImageCommands := by
  refine ⟨fun mb s => exec_resultWriteFail, fun s => exec_journalMirrorRebuilt_dieA,
    fun s inService => congrArg _ (if_pos inService), fun s inService => congrArg _ (if_pos inService), ?hello, ?goodbye,
    ?nop, ?ident, ?write, ?select⟩
  case hello =>
    refine applies_of_answered (fun _ _ => by rw [exec, execHello]) fun e s good => ?_
    obtain ⟨length, level, reserved⟩ := good
    exact hello_of_good _ _ length level reserved
  case goodbye =>
    refine opens_of_unanswered (fun _ _ => by rw [exec, execGoodbye]) fun e s bare => ?_
    simp only [bare_none bare]
  case nop =>
    refine applies_of_answered (fun _ _ => by rw [exec, execNop]) fun e s short => ?_
    rw [if_pos short]
  case ident =>
    refine applies_of_answered (fun _ _ => by rw [exec, execIdent]) fun e s length => ?_
    exact checked_none (fixedPayload_none length allGood_nil)
  case write =>
    refine applies_of_answered (fun _ _ => by rw [exec, execFwImageWrite]) fun e s good => ?_
    obtain ⟨length, fields, spare, fits, notFirst, notLast⟩ := good
    rw [checked_none (varPayload_none length (Nat.le_add_right ..) fields allGood_nil),
      writeImage_of_part spare fits notFirst notLast]
  case select =>
    refine applies_of_answered (fun _ _ => by rw [exec, execFwImageSelect]) fun e s good => ?_
    obtain ⟨length, slot, keepSvn, reserved, verified, first⟩ := good
    have fields : AllGood [(decide (u8 e.payload 0 ≤ 1), 0), (decide (u8 e.payload 1 ≤ 1), 1), rsv e.payload 2 2] := by
      simp [allGood_cons, allGood_rsv, allGood_nil, slot, keepSvn, reserved]
    rw [checked_none (fixedPayload_none length fields), selectImage_of_first verified keepSvn first]

end Sys2Proof
end

section
/-! The RECORDS and MGMT messages of the ring (O60; 13 R300, R311 to R314): where the fields of a message's body stand in
its payload, what a new and a repeated message are, and what each message brings. -/

namespace Sys2Proof

open Sys2Proof.Machine

/-! ### The body of an end-to-end message, behind its ESEQ -/

theorem u8_drop (p : Bytes) (k off : Nat) : u8 (p.drop k) off = u8 p (k + off) := by
  rw [u8, u8, le, le, List.drop_drop]

theorem u16_drop (p : Bytes) (k off : Nat) : u16 (p.drop k) off = u16 p (k + off) := by
  rw [u16, u16, le, le, List.drop_drop]

theorem u64_drop (p : Bytes) (k off : Nat) : u64 (p.drop k) off = u64 p (k + off) := by
  rw [u64, u64, le, le, List.drop_drop]

/-- The message is the next in order from its source (13 R300). -/
theorem e2eAccept_of_next {m : RingMessage} {s : State} (next : u32 m.payload 0 = tabGet 0 s.ring.eseqIn m.src) :
    (e2eAccept m s).1 = true := congrArg Prod.fst (if_pos next)

/-! ### Pallets -/

/-- The sink takes a pallet of 1 to 32 records of a source it serves while it may master the bus (13 R312): a new one is
written and interrupts, and each is acknowledged. -/
theorem exec_palletReceived {s s1 : State} {m : RingMessage} (arrived : takeInbox 2 1 s = some (m, s1))
    (isMember : ringMember s = true) (master : canMaster s = true) (source : m.src ∈ served s)
    (one : 0 < u8 m.payload 5) (most : u8 m.payload 5 ≤ 32) (length : m.payload.length = 32 + 64 * u8 m.payload 5) :
    exec .palletReceived s = .next (
      if u32 m.payload 0 = tabGet 0 s1.ring.eseqIn m.src then
        if u8 m.payload 6 = 0xFF then (e2eAccept m (writePallet m.src (m.payload.drop 4) s1)).2
        else msixSend (u8 m.payload 6) (e2eAccept m (writePallet m.src (m.payload.drop 4) s1)).2
      else (e2eAccept m s1).2) := by
  have serves : (served s).contains m.src = true := List.contains_iff_mem.2 source
  have whole : ¬(u8 m.payload 5 = 0 ∨ 32 < u8 m.payload 5 ∨ m.payload.length ≠ 32 + 64 * u8 m.payload 5) := by omega
  simp only [exec, execPalletReceived, arrived, isMember, master, serves, u8_drop, Nat.reduceAdd, if_neg whole,
    Bool.not_true, Bool.false_and, Bool.or_self, Bool.false_eq_true, if_false]
  by_cases next : u32 m.payload 0 = tabGet 0 s1.ring.eseqIn m.src
  · by_cases mapped : u8 m.payload 6 = 0xFF <;> simp [next, mapped]
  · simp [next]

/-! ### Reads of a consumer index -/

/-- A new request to read a consumer index is acknowledged, performed and answered (13 R311). -/
theorem exec_ciReadMessage_request {ci : BitVec 64} {s s1 : State} {m : RingMessage}
    (arrived : takeInbox 2 3 s = some (m, s1)) (request : u8 m.payload 4 = 0) (isMember : ringMember s = true)
    (master : canMaster s = true) (next : u32 m.payload 0 = tabGet 0 s1.ring.eseqIn m.src) :
    exec (.ciReadMessage ci) s = .next (e2eSend 2 3 m.src (b1 1 ++ b1 (u8 m.payload 5) ++ b2 0 ++ b8 ci.toNat)
      (emit (.hostRead (u64 m.payload 8) 8) (e2eAccept m s1).2)) := by
  simp only [exec, execCiReadMessage, arrived, isMember, master, u8_drop, u64_drop, Nat.reduceAdd, request,
    e2eAccept_of_next next, Bool.not_true, Bool.or_self, Bool.false_eq_true, if_true, if_false]

/-- A new reply moves the consumer index of the ring that awaits it (13 R311). -/
theorem exec_ciReadMessage_reply {ci : BitVec 64} {s s1 : State} {m : RingMessage}
    (arrived : takeInbox 2 3 s = some (m, s1)) (reply : u8 m.payload 4 = 1)
    (next : u32 m.payload 0 = tabGet 0 s1.ring.eseqIn m.src) (ring : u8 m.payload 5 < 64)
    (awaited : (dring (e2eAccept m s1).2 (u8 m.payload 5)).ciRead.isSome = true) :
    exec (.ciReadMessage ci) s = .next (takeCi (u8 m.payload 5) (u64 m.payload 8) (e2eAccept m s1).2) := by
  simp only [exec, execCiReadMessage, arrived, u8_drop, u64_drop, Nat.reduceAdd, reply, e2eAccept_of_next next, awaited,
    ring, Nat.one_ne_zero, and_self, if_true, if_false]

/-! ### Acknowledgements and what is sent again -/

theorem exec_palletAck {s s1 : State} {m : RingMessage} (arrived : takeInbox 2 2 s = some (m, s1)) :
    exec .palletAck s = .next (e2eAcked m.src (u32 m.payload 0) s1) := by
  simp only [exec, execPalletAck, arrived]

/-- Where a message is 500 us unacknowledged, what its destination holds is sent again (13 R300). -/
theorem exec_e2eResend {s : State} (late : ∃ m ∈ s.ring.unacked, m.sentAt + 500000 ≤ now s) :
    exec .e2eResend s = .next (e2eResend (s.ring.unacked.filter (fun m =>
      ((s.ring.unacked.filter (fun x => decide (x.sentAt + 500000 ≤ now s))).map (fun x => x.dst)).dedup.contains
        m.dst)) s) := by
  obtain ⟨m, held, due⟩ := late
  refine congrArg _ (if_neg ?_)
  rw [List.isEmpty_iff]
  exact List.ne_nil_of_mem (List.mem_filter.2 ⟨held, decide_eq_true due⟩)

/-! ### Remote commands and their results -/

/-- The last fragment of a new forwarded command brings it whole (13 R314). -/
theorem exec_mgmtCommand {s s1 t : State} {m : RingMessage} {b : Bytes} (arrived : takeInbox 4 1 s = some (m, s1))
    (isMember : ringMember s = true) (takes : sornor s = true)
    (next : u32 m.payload 0 = tabGet 0 s1.ring.eseqIn m.src) (last : u8 m.payload 7 = 1)
    (whole : gather m.src (u8 m.payload 6) (u64 m.payload 8) true (m.payload.drop 16) (e2eAccept m s1).2 = (some b, t)) :
    exec .mgmtCommand s = .next (remoteCommand (u16 m.payload 4) (u8 m.payload 6) (u64 m.payload 8) b t) := by
  simp only [exec, execMgmtCommand, arrived, isMember, takes, u8_drop, u16_drop, u64_drop, List.drop_drop, Nat.reduceAdd,
    e2eAccept_of_next next, last, decide_true, whole, Bool.not_true, Bool.or_self, Bool.false_eq_true, if_false]

/-- The last fragment of a new result brings it whole (13 R314). -/
theorem exec_mgmtResult {s s1 t : State} {m : RingMessage} {b : Bytes} (arrived : takeInbox 4 2 s = some (m, s1))
    (takes : sornor s = true) (next : u32 m.payload 0 = tabGet 0 s1.ring.eseqIn m.src) (last : u8 m.payload 7 = 1)
    (whole : gather m.src (16 + u8 m.payload 6) (u64 m.payload 8) true (m.payload.drop 16) (e2eAccept m s1).2 =
      (some b, t)) :
    exec .mgmtResult s = .next (remoteResult m.src (u8 m.payload 6) (u64 m.payload 8) b t) := by
  simp only [exec, execMgmtResult, arrived, takes, u8_drop, u64_drop, List.drop_drop, Nat.reduceAdd,
    e2eAccept_of_next next, last, decide_true, whole, Bool.not_true, Bool.false_eq_true, if_false]

/-- The only remote command of a mailbox, unanswered for 1 s or of a node out of the roster, ends with FAULT (13 R314). -/
theorem exec_remoteTimeout {mb : Fin 8} {s : State} {x : RemoteCommand} (only : s.ring.remote = [x])
    (noIdents : s.ring.idents = []) (takes : sornor s = true) (origin : x.box = mb.val)
    (lost : x.sentAt + 1000000000 ≤ now s ∨ inRoster s x.node = false) :
    exec (.remoteTimeout mb) s = .next (finish x.jseq faulted { s with ring.remote := [] }) := by
  have isLost : (!inRoster s x.node || decide (x.sentAt + 1000000000 ≤ now s)) = true := by
    simpa using lost.symm
  have same : { s with ring.remote := [], ring.idents := [] } = { s with ring.remote := [] } := by rw [← noIdents]
  simp [exec, execRemoteTimeout, only, noIdents, takes, origin, isLost, forEach, same]

/-- Settles O60: each clause is what the message's own lemma says; a pallet is new exactly where its ESEQ is the next. -/
theorem ringMessages : Obligations.RingMessages := by
  refine ⟨fun s s1 m arrived isMember master source one most length => ?pallet, fun s s1 m => exec_palletAck,
    fun ci s s1 m => exec_ciReadMessage_request, fun ci s s1 m => exec_ciReadMessage_reply, fun s => exec_e2eResend,
    fun s s1 m arrived isMember takes next last b t => exec_mgmtCommand arrived isMember takes next last,
    fun s s1 m arrived takes next last b t => exec_mgmtResult arrived takes next last,
    fun mb s x => exec_remoteTimeout⟩
  case pallet =>
    have taken := exec_palletReceived arrived isMember master source one most length
    exact ⟨fun new => by rw [taken, if_pos new], fun repeated => by rw [taken, if_neg repeated]⟩

end Sys2Proof
end

section
/-! Die A, the Mortar link and the failing DRAM channels (O17, O44; 01 R18, 12 R274 to R280, 14 R337 to R339, 16 R380):
the commands that wait for die A, its resets, restores and heartbeats, the lanes in the stripe, and the channels that
leave service. -/

namespace Sys2Proof

open Sys2Proof.Machine

/-! ### Commands for die A while it is down -/

theorem dieAOverdue_iff_of_down {s : State} (down : s.power.dieA = false) :
    dieAOverdue s = true ↔ s.power.dieAStarted = true ∧ s.power.dieAResetAt + 100000000 ≤ now s := by
  simp [dieAOverdue, down]

/-- In its turn, a command for a die A that is down waits, and fails once die A is overdue; its handler does not run (12
R277). -/
theorem runCommand_of_dieA_down {op : Nat} {mb : Fin 8} {e : JEntry} {s : State} (h : Handler)
    (isNext : nextEntry s = some e) (needs : needsDieA op e.payload = true) (opcode : hOp e.header = op)
    (origin : originBox e.origin = mb.val) (takes : sornor s = true) (isLocal : forwarded e = false)
    (down : s.power.dieA = false) :
    runCommand op mb h s = .next (if dieAOverdue s then finish e.jseq faulted s else s) := by
  simp only [runCommand, isNext, needs, opcode, origin, takes, isLocal, down, decide_true, Bool.not_false, Bool.and_self,
    if_true]

/-- Settles O17: whatever its handler, a command for die A does not get to it while die A is down. -/
theorem commandsForDieAWait : Obligations.CommandsForDieAWait := by
  intro x row mb e s isNext needs opcode origin takes isLocal down
  obtain ⟨h, runs⟩ := mailboxOps_run x row
  rw [runs, runCommand_of_dieA_down h isNext needs opcode origin takes isLocal down]
  simp only [dieAOverdue_iff_of_down down]

/-! ### What reporting leaves unchanged -/

theorem ReportsOnly.power {s t : State} (h : ReportsOnly s t) : t.power = s.power := by
  obtain ⟨_, _, _, _, _, _, rfl⟩ := h
  rfl

theorem ReportsOnly.shot {s t : State} (h : ReportsOnly s t) : t.shot = s.shot := by
  obtain ⟨_, _, _, _, _, _, rfl⟩ := h
  rfl

theorem ReportsOnly.lanes {s t : State} (h : ReportsOnly s t) : t.lanes = s.lanes := by
  obtain ⟨_, _, _, _, _, _, rfl⟩ := h
  rfl

theorem ReportsOnly.logLane (code lane p1 : Nat) (s : State) : ReportsOnly s (logLane code lane p1 s) := by
  unfold Machine.logLane
  split
  · exact logPush ..
  · exact refl s

/-- A source event of Table HOST-2 concerns the PCI Express interface alone (15 R350). -/
theorem raiseIrq_mem (n : Nat) (s : State) : (raiseIrq n s).mem = s.mem := by
  unfold raiseIrq
  split
  · rfl
  · dsimp only
    split
    · obtain ⟨pba, out, sent⟩ := msixSend_frame (irqVector s n)
        { s with pcie.irqCause := s.pcie.irqCause ||| 2 ^ n }
      rw [sent]
    · rfl

/-! ### Reset of die A -/

/-- A running die A under main power is reset by any cause whose condition holds (12 R274). -/
theorem exec_dieAReset {c : DieAResetCause} {s : State} (runs : s.power.dieA = true) (main : s.power.main = true)
    (hot : c = .thermal → s.th.shut = true) (silent : c = .heartbeat → s.lanes.beatAt + 3000 ≤ now s) :
    exec (.dieAReset c) s = .next (resetDieA (dieACause c) s) := by
  cases c with
  | watchdog | rail => simp [exec, execDieAReset, runs, main]
  | thermal => simp [exec, execDieAReset, runs, main, hot rfl]
  | heartbeat => simp [exec, execDieAReset, runs, main, silent rfl]

/-! ### Restore of die A -/

theorem setPred_power (p : PredState) (s : State) : (setPred p s).power = s.power := by
  unfold setPred
  split
  · rfl
  · refine (ReportsOnly.logEv ..).power.trans ?_
    split <;> rfl

theorem setPred_shot (p : PredState) (s : State) : (setPred p s).shot = s.shot := by
  unfold setPred
  split
  · rfl
  · refine (ReportsOnly.logEv ..).shot.trans ?_
    split <;> rfl

theorem restorePredictor_power (s : State) : (restorePredictor s).power = s.power := by
  unfold restorePredictor
  split
  · rfl
  · exact setPred_power ..

theorem restorePredictor_shot (s : State) : (restorePredictor s).shot = s.shot := by
  unfold restorePredictor
  split
  · rfl
  · exact setPred_shot ..

/-- Die A once it is out of reset: it runs from now on with its emission held, no heartbeat counted, the master copies of
its thresholds latched and its FIRE ports powered (01 R18, 12 R276). -/
def startDieA (s : State) : State :=
  emit (.firePorts true) { s with
    power.dieA := true
    power.dieAAt := now s
    power.dieAStarted := true
    shot.lastBeat := now s
    shot.beats := 0
    shot.hold := true
    lanes.beatAt := now s
    angle.gen := s.loop.gen
    angle.genAdds := []
    recv := tabMap {} (fun x => { x with latched := x.copy }) s.recv }

/-- A die A that was started before also restores its predictor and reports the restore (12 R276). -/
def restoreDieA (s : State) : State :=
  if s.power.dieAStarted then
    raiseIrq 20 (logEv 0x0109 ((s.angle.frame + 1) % turn) 0 0 (restorePredictor (startDieA s)))
  else startDieA s

theorem exec_dieARestored {s : State} (down : s.power.dieA = false) (main : s.power.main = true)
    (unfailed : s.power.dieAFailed = false) (ungated : s.th.gated = false) (linked : s.lanes.mortarUp = true) :
    exec .dieARestored s = .next (restoreDieA s) :=
  congrArg _ (if_neg (by simp [down, main, unfailed, ungated, linked]))

theorem restoreDieA_power (s : State) : (restoreDieA s).power = (startDieA s).power := by
  unfold restoreDieA
  split
  · rw [(ReportsOnly.raiseIrq ..).power, (ReportsOnly.logEv ..).power, restorePredictor_power]
  · rfl

theorem restoreDieA_shot (s : State) : (restoreDieA s).shot = (startDieA s).shot := by
  unfold restoreDieA
  split
  · rw [(ReportsOnly.raiseIrq ..).shot, (ReportsOnly.logEv ..).shot, restorePredictor_shot]
  · rfl

/-- The start's outputs stay in the trace. -/
theorem startDieA_out_suffix (s : State) : (startDieA s).out <:+ (restoreDieA s).out := by
  unfold restoreDieA
  split
  · exact (((restorePredictor_keeps _).trans (logEv_keeps ..)).trans (raiseIrq_keeps ..)).out
  · exact List.suffix_rfl

/-- At the fourth attempt, 100 ms after the last reset, die A has failed (12 R276, R277). -/
theorem exec_dieARestoreTimeout_failed {s : State} (down : s.power.dieA = false) (main : s.power.main = true)
    (started : s.power.dieAStarted = true) (unfailed : s.power.dieAFailed = false) (cool : s.th.shut = false)
    (due : s.power.dieAResetAt + 100000000 ≤ now s) (last : 3 ≤ s.power.dieAAttempts) :
    exec .dieARestoreTimeout s = .next (logEv 0x010A (s.power.dieAAttempts + 1) 0 0
      { failWaiting s with power.dieAFailed := true }) := by
  have waited : ¬now s < s.power.dieAResetAt + 100000000 := Nat.not_lt.2 due
  refine congrArg _ ((if_neg ?_).trans (if_neg (Nat.not_lt.2 last)))
  simp [down, main, started, unfailed, cool, waited]

/-! ### Heartbeats -/

/-- Without a fresh heartbeat, die A cuts its pulses and holds its emission, or restarts the count under a hold (01
R18). -/
theorem exec_heartbeatLoss_dieA {s : State} (runs : s.power.dieA = true) (silent : s.shot.lastBeat + 3000 ≤ now s) :
    exec (.heartbeatLoss true) s = .next (if s.shot.hold then { s with shot.beats := 0 }
      else cutPulses { s with shot.hold := true, shot.beats := 0 }) := by
  simp [exec, execHeartbeatLoss, runs, beatFresh, silent]

/-- Without heartbeats at die B, die B resets die A (12 R274). -/
theorem exec_heartbeatLoss_dieB {s : State} (runs : s.power.dieA = true) (silent : s.lanes.beatAt + 3000 ≤ now s) :
    exec (.heartbeatLoss false) s = .next (resetDieA 3 s) := by
  simp [exec, execHeartbeatLoss, runs, silent]

theorem exec_safetyHeartbeat_dieB {s : State} (runs : s.power.dieA = true) (linked : s.lanes.mortarUp = true) :
    exec (.safetyHeartbeat false) s = .next { s with lanes.beatAt := now s } := by
  simp [exec, execSafetyHeartbeat, runs, linked]

theorem exec_safetyHeartbeat_dieA {s : State} (runs : s.power.dieA = true) (linked : s.lanes.mortarUp = true) :
    exec (.safetyHeartbeat true) s = .next { s with
      shot.lastBeat := now s
      shot.beats := if now s < s.shot.lastBeat + 3000 then min 64 (s.shot.beats + 1) else 1 } := by
  simp [exec, execSafetyHeartbeat, runs, linked]

/-! ### The stripe of the Mortar link -/

/-- The masks of the lanes in the stripe, from die A to die B and from die B to die A (14 R338). -/
def stripe (s : State) : Nat × Nat := (s.lanes.maskAB, s.lanes.maskBA)

theorem stripe_modLane (i : Nat) (f : Lane → Lane) (s : State) : stripe (modLane i f s) = stripe s := rfl

theorem mortarUp_modLane (i : Nat) (f : Lane → Lane) (s : State) :
    (modLane i f s).lanes.mortarUp = s.lanes.mortarUp := rfl

theorem ReportsOnly.stripe {s t : State} (h : ReportsOnly s t) : stripe t = stripe s := by
  rw [Sys2Proof.stripe, Sys2Proof.stripe, h.lanes]

/-- What the lanes left have as effect concerns the link as a whole, the frame in progress and the mirror (14 R339). -/
theorem stripe_lanesLeft (before : Nat) (s : State) : stripe (lanesLeft before s) = stripe s := by
  unfold lanesLeft
  extract_lets ab cut s1 s2
  have cutKeeps (u : State) : stripe (cut u) = stripe u := by
    unfold cut
    split <;> rfl
  have logged : stripe s1 = stripe s := by
    unfold s1
    split
    · exact (ReportsOnly.logEv ..).stripe.trans (cutKeeps s)
    · rfl
  have mirrored : stripe s2 = stripe s1 := by
    unfold s2
    split <;> rfl
  rw [← logged, ← mirrored]
  split <;> rfl

/-- The mask of the direction of Mortar lane `i` (14 R337). -/
def maskOf (i : Nat) (s : State) : Nat := if i < 8 then s.lanes.maskAB else s.lanes.maskBA

/-- The bit of Mortar lane `i` in the mask of its direction. -/
def maskBit (i : Nat) : Nat := if i < 8 then i else i - 8

/-- The mask of the direction of Mortar lane `i` replaced. -/
def restripe (i m : Nat) (s : State) : State :=
  if i < 8 then { s with lanes.maskAB := m } else { s with lanes.maskBA := m }

theorem stripe_restripe (i m : Nat) (s : State) :
    stripe (restripe i m s) = if i < 8 then (m, (stripe s).2) else ((stripe s).1, m) := by
  unfold restripe
  split <;> rfl

/-- A lane of the stripe that loses block lock leaves the mask of its direction (14 R339). -/
theorem stripe_mortarLaneLoss {i : Nat} {s : State} (hunt : Bool) (linked : s.lanes.mortarUp = true)
    (used : (maskOf i s).testBit (maskBit i) = true) :
    stripe (mortarLaneLoss i hunt s) = stripe (restripe i (clrBit (maskOf i s) (maskBit i)) s) := by
  unfold maskOf maskBit at used
  simp only [mortarLaneLoss, maskOf, maskBit, decide_eq_true_eq, linked, used, Bool.and_self, Bool.not_true,
    Bool.false_eq_true, if_false]
  rw [stripe_lanesLeft, (ReportsOnly.raiseIrq ..).stripe, (ReportsOnly.logLane ..).stripe, stripe_modLane]
  refine (stripe_restripe i _ _).trans ?_
  rw [(ReportsOnly.logLane ..).stripe, stripe_modLane, stripe_restripe]

theorem exec_mortarLaneLoss {i : Fin 12} {s : State} (linked : s.lanes.mortarUp = true)
    (locked : (lane s (8 + i.val)).locked = true) (used : (maskOf i s).testBit (maskBit i) = true) :
    ∃ t, exec (.mortarLaneLoss i) s = .next t ∧
      stripe t = stripe (restripe i (clrBit (maskOf i s) (maskBit i)) s) :=
  ⟨_, congrArg Host.Outcome.next (if_pos locked), stripe_mortarLaneLoss true linked used⟩

/-- A locked and deskewed lane outside the stripe enters the mask of its direction (14 R337). -/
theorem exec_mortarLaneRegained {i : Fin 12} {s : State} (linked : s.lanes.mortarUp = true)
    (locked : (lane s (8 + i.val)).locked = true) (deskewed : (lane s (8 + i.val)).deskewed = true)
    (outside : (maskOf i s).testBit (maskBit i) = false) : ∃ t, exec (.mortarLaneRegained i) s = .next t ∧
      stripe t = stripe (restripe i (setBit (maskOf i s) (maskBit i)) s) := by
  unfold maskOf maskBit at outside
  refine ⟨_, congrArg Host.Outcome.next (if_neg ?_), ?_⟩
  · simp [linked, locked, deskewed, outside]
  · rw [(ReportsOnly.raiseIrq ..).stripe, (ReportsOnly.logLane ..).stripe, stripe_modLane]
    simp only [maskOf, maskBit, restripe, decide_eq_true_eq]

/-- A change of the mask of a lane's own direction, read off in either direction: lanes 0 to 7 run from die A to die B,
lanes 8 to 11 back, and the other mask stays (14 R337). -/
theorem masks_of_restriped {i : Nat} {s : State} {o : Host.Outcome State Fault Refusal} {b : Bool}
    {change : Nat → Nat → Nat}
    (h : (maskOf i s).testBit (maskBit i) = b →
      ∃ t, o = .next t ∧ stripe t = stripe (restripe i (change (maskOf i s) (maskBit i)) s)) :
    (i < 8 → s.lanes.maskAB.testBit i = b → ∃ t, o = .next t ∧ t.lanes.maskAB = change s.lanes.maskAB i ∧
      t.lanes.maskBA = s.lanes.maskBA) ∧
    (8 ≤ i → s.lanes.maskBA.testBit (i - 8) = b → ∃ t, o = .next t ∧ t.lanes.maskBA = change s.lanes.maskBA (i - 8) ∧
      t.lanes.maskAB = s.lanes.maskAB) := by
  simp only [stripe_restripe, maskOf, maskBit] at h
  refine ⟨fun ab now => ?_, fun ba now => ?_⟩
  · simp only [if_pos ab] at h
    obtain ⟨t, effect, masks⟩ := h now
    exact ⟨t, effect, congrArg Prod.fst masks, congrArg Prod.snd masks⟩
  · simp only [if_neg (Nat.not_lt.2 ba)] at h
    obtain ⟨t, effect, masks⟩ := h now
    exact ⟨t, effect, congrArg Prod.snd masks, congrArg Prod.fst masks⟩

/-- Changing lanes takes none into the stripe or out of it. -/
theorem stripe_modLanes (n : Nat) (i : Nat → Nat) (f : Nat → Lane → Lane) (s : State) :
    stripe (forUpto n (fun k => modLane (i k) (f k)) s) = stripe s :=
  forUpto_field stripe (fun k => stripe_modLane (i k) (f k)) s

theorem mortarUp_modLanes (n : Nat) (i : Nat → Nat) (f : Nat → Lane → Lane) (s : State) :
    (forUpto n (fun k => modLane (i k) (f k)) s).lanes.mortarUp = s.lanes.mortarUp :=
  forUpto_field (fun u : State => u.lanes.mortarUp) (fun k => mortarUp_modLane (i k) (f k)) s

/-- The link comes up over the lanes that are locked and deskewed, where each direction has one (14 R338). -/
theorem exec_mortarLinkUp {s : State} (main : s.power.main = true) (started : s.power.phase ≠ .off)
    (ungated : s.th.gated = false) (unfailed : s.power.dieAFailed = false) (down : s.lanes.mortarUp = false)
    (ab : lockedMask s 8 8 ≠ 0) (ba : lockedMask s 16 4 ≠ 0) : ∃ t, exec .mortarLinkUp s = .next t ∧
      t.lanes.mortarUp = true ∧ stripe t = (lockedMask s 8 8, lockedMask s 16 4) := by
  have runs : mortarRuns s = true := by simp [mortarRuns, main, started, ungated, unfailed]
  refine ⟨_, congrArg Host.Outcome.next (if_neg ?_), ?_, ?_⟩
  · simp [runs, down, ab, ba]
  · exact mortarUp_modLanes ..
  · exact stripe_modLanes ..

/-! ### Failing DRAM channels -/

/-- A channel that can fail is declared failed by a cause whose count is reached (16 R380). -/
theorem exec_dramChannelFailed {ch : Fin 4} {c : Fin 3} {s : State} (may : canFail s ch.val = true)
    (retrains : c.val = 1 → 2 ≤ tabGet 0 s.mem.retrainFails ch.val) (reads : c.val = 2 → 16 ≤ recentUes s ch.val) :
    exec (.dramChannelFailed ch c) s = .next (declareFailed ch.val c.val s) := by
  match c with
  | 0 => simp [exec, execDramChannelFailed, may]
  | 1 => simp [exec, execDramChannelFailed, may, retrains rfl]
  | 2 => simp [exec, execDramChannelFailed, may, reads rfl]

theorem exec_dramRetrain_good {ch : Fin 4} {s : State} (may : canFail s ch.val = true) :
    exec (.dramRetrain ch true) s = .next { s with
      mem.retrainFails := tabSet 0 s.mem.retrainFails ch.val 0 } := by
  simp [exec, execDramRetrain, may]

theorem loseBuffer_mem (last : Nat) (s : State) : (loseBuffer last s).mem = s.mem := by
  refine forUpto_field (fun u : State => u.mem) (fun r u => ?_) s
  split <;> rfl

/-- What is lost with the delivery buffer is in its rings (12 R281). -/
theorem bufferAfter_mem (before s : State) : (bufferAfter before s).mem = s.mem := by
  simp only [bufferAfter, apply_ite State.mem, loseBuffer_mem, ite_self]

/-- A failed channel is failed no longer, leaves service and is retired (12 R280). -/
theorem exec_dramRetireDone {ch : Fin 4} {s : State} (failed : s.mem.failed.testBit ch.val = true) :
    ∃ t, exec (.dramRetireDone ch) s = .next t ∧ t.mem = { s.mem with
      failed := clrBit s.mem.failed ch.val
      inService := clrBit s.mem.inService ch.val
      retired := setBit s.mem.retired ch.val } := by
  refine ⟨_, congrArg Host.Outcome.next (if_neg (by simp [failed])), ?_⟩
  rw [raiseIrq_mem, bufferAfter_mem]
  rfl

/-- Settles O44: each clause is what its command's own lemma says; the clauses of the lanes are said per direction. -/
theorem dieAAndMemoryChannels : Obligations.DieAAndMemoryChannels := by
  refine ⟨fun c s => exec_dieAReset, ?restored, fun s => exec_dieARestoreTimeout_failed, ?silentA,
    fun s => exec_heartbeatLoss_dieB,
    fun s runs linked => ⟨exec_safetyHeartbeat_dieB runs linked, exec_safetyHeartbeat_dieA runs linked⟩, ?linkUp,
    fun i s linked locked => masks_of_restriped (exec_mortarLaneLoss linked locked),
    fun i s linked locked deskewed => masks_of_restriped (exec_mortarLaneRegained linked locked deskewed),
    fun ch c s => exec_dramChannelFailed, fun ch s => exec_dramRetrain_good, ?retired⟩
  case restored =>
    intro s down main unfailed ungated linked
    refine ⟨_, exec_dieARestored down main unfailed ungated linked, ?_⟩
    rw [restoreDieA_power, restoreDieA_shot]
    exact ⟨rfl, rfl, rfl, rfl, rfl, rfl, (startDieA_out_suffix s).subset List.mem_cons_self⟩
  case silentA =>
    intro s runs silent
    rw [exec_heartbeatLoss_dieA runs silent]
    exact ⟨fun free => by rw [free]; rfl, fun held => by rw [if_pos held]⟩
  case linkUp =>
    intro s main started ungated unfailed down ab ba
    obtain ⟨t, effect, up, masks⟩ := exec_mortarLinkUp main started ungated unfailed down ab ba
    exact ⟨t, effect, up, congrArg Prod.fst masks, congrArg Prod.snd masks⟩
  case retired =>
    intro ch s failed
    obtain ⟨t, effect, mem⟩ := exec_dramRetireDone failed
    refine ⟨t, effect, ?_⟩
    rw [mem]
    exact ⟨bit_clrBit_self .., bit_clrBit_self .., by simpa [bit] using bit_setBit s.mem.retired ch ch,
      fun k other => by simpa [bit, other.symm] using bit_setBit s.mem.retired ch k⟩

end Sys2Proof
end

section
/-! The commands of the ring (O32; 13 R319, R321, R322, R324, R325): what each handler does once its guards hold, and the
payload checks that precede it. -/

namespace Sys2Proof

open Sys2Proof.Machine

/-! ### RING_CONFIG -/

/-- The state with new ring settings in force (13 R319). -/
def configuredRing (c : RingConfig) (s : State) : State :=
  { s with
    ring.cfg := c, ring.duplicateId := s.ring.duplicateId && decide (c.nodeId = s.ring.cfg.nodeId)
    time.loadPending := s.time.loadPending && !c.timeFromRing }

/-- Off the ring, or where node and rate stay and the ring stays enabled, RING_CONFIG takes its settings. -/
theorem ringConfig_of_free {p : Bytes} {s : State}
    (free : (s.ring.run = .bypass ∨ s.ring.run = .isolated) ∨ ((ringConfigOf p).nodeId = s.ring.cfg.nodeId ∧
      (ringConfigOf p).rate = s.ring.cfg.rate ∧ (ringConfigOf p).enable = true)) :
    ringConfig p s = (tryJoin (if (ringConfigOf p).persist || s.ring.cfg.persist then
      persistRing (configuredRing (ringConfigOf p) s) else configuredRing (ringConfigOf p) s), ok) := by
  refine if_neg ?_
  rcases free with stopped | ⟨node, rate, enabled⟩
  · simp [stopped]
  · simp [node, rate, enabled]

/-! ### RING_MEMBERS -/

/-- The fixed fields of RING_MEMBERS: an action, whose count of nodes is `counted`, and reserved bytes (13 R321). -/
theorem membersFields_good {p : Bytes} {action : Nat} {counted : Bool} (known : action < 3) (gap : allZero p 1 1 = true)
    (count : counted = true) (unused : allZero p 4 4 = true) :
    AllGood [(decide (action < 3), 0), rsv p 1 1, (counted, 2), rsv p 4 4] := by
  simp [allGood_cons, allGood_rsv, allGood_nil, known, gap, count, unused]

/-- Where no node is named there is no node to check. -/
theorem nodeFields_of_none {p : Bytes} (s : State) (none : namedNodes p = []) : AllGood (nodeFields s p) := by
  simp [nodeFields, none, allGood_nil]

/-! ### The commands -/

/-- Settles O32: each payload passes its checks, and what the handler then does is the stated effect and result. -/
theorem ringCommands : Obligations.RingCommands := by
  refine ⟨?config, ?report, ?expect, ?acknowledge, ?leave, ?leaveAgain, ?quarantine, ?ownIdent, ?peerIdent⟩
  case config =>
    refine applies_of_answered (fun _ _ => by rw [exec, execRingConfig]) fun e s good => ?_
    obtain ⟨length, fields, free⟩ := good
    rw [checked_none (fixedPayload_none length fields), ringConfig_of_free free]
    rfl
  case report =>
    refine applies_of_answered (fun _ _ => by rw [exec, execRingMembers]) fun e s good => ?_
    obtain ⟨kind, gap, none, unused, length⟩ := good
    simp only [kind]
    exact checked_none (varPayload_none (by rw [length, none]) (Nat.le_add_right ..)
      (membersFields_good (by decide) gap (by simp [none]) unused) (nodeFields_of_none s (by simp [namedNodes, none])))
  case expect =>
    refine applies_of_answered (fun _ _ => by rw [exec, execRingMembers]) fun e s good => ?_
    obtain ⟨kind, gap, most, unused, length, nodes⟩ := good
    simp only [kind]
    exact checked_none (varPayload_none length (Nat.le_add_right ..)
      (membersFields_good (by decide) gap (by simp [most]) unused) nodes)
  case acknowledge =>
    refine applies_of_answered (fun _ _ => by rw [exec, execRingMembers]) fun e s good => ?_
    obtain ⟨kind, gap, one, most, unused, length, nodes⟩ := good
    simp only [kind]
    exact checked_none (varPayload_none length (Nat.le_add_right ..)
      (membersFields_good (by decide) gap ((within_iff ..).2 ⟨one, most⟩) unused) nodes)
  case leave =>
    refine opens_of_unanswered (fun _ _ => by rw [exec, execRingLeave]) fun e s good => ?_
    obtain ⟨bare, bypassed, isolated, leaving⟩ := good
    simp only [bare_none bare, bypassed, isolated, leaving, or_self, if_false]
  case leaveAgain =>
    refine opens_of_unanswered (fun _ _ => by rw [exec, execRingLeave]) fun e s good => ?_
    obtain ⟨bare, leaving⟩ := good
    simp [bare_none bare, leaving]
  case quarantine =>
    refine applies_of_answered (fun _ _ => by rw [exec, execRingQuarantineClear]) fun e s good => ?_
    obtain ⟨length, ports, unused⟩ := good
    exact checked_none (selector_none length ports unused)
  case ownIdent =>
    refine applies_of_answered (fun _ _ => by rw [exec, execRingPeerIdent]) fun e s good => ?_
    obtain ⟨length, unused, own, isMember⟩ := good
    rw [fixedPayload_none length (by simp [allGood_rsv, allGood_nil, unused])]
    simp only [own, isMember, and_self, if_true]
    rfl
  case peerIdent =>
    refine opens_of_unanswered (fun _ _ => by rw [exec, execRingPeerIdent]) fun e s good => ?_
    obtain ⟨length, unused, other, known⟩ := good
    rw [fixedPayload_none length (by simp [allGood_rsv, allGood_nil, unused])]
    simp only [other, false_and, if_false, Option.isNone_eq_false_iff.2 known, Bool.false_eq_true]

end Sys2Proof
end

section
/-! Payload SRAM (O40; 16 R371, 21 R461, R466): a write stores its bytes at their offsets and keeps every other offset, and
how BAR0 reaches it. -/

namespace Sys2Proof

open Sys2Proof.Machine

/-! ### The bytes written -/

/-- A byte stored reads back, and every other offset reads as before. -/
theorem tabGet_storeByte (m : Tab (Option Nat)) (k : Nat) (b : Byte) (x : Nat) :
    tabGet none (tabSet none m k (some b.toNat)) x = if x = k then some b.toNat else tabGet none m x := by
  rw [tabSet, if_neg (by simp), tabGet_insert]

/-- `sramWrite`'s loop over the bytes from the `n`-th on. -/
theorem tabGet_storeBytes {i n : Nat} {bs : Bytes} (m : Tab (Option Nat)) (fits : i + n + bs.length ≤ 0x40000)
    (x : Nat) :
    tabGet none ((bs.zipIdx n).foldl (fun m e =>
      if i + e.2 < 0x40000 then tabSet none m (i + e.2) (some e.1.toNat) else m) m) x =
        if i + n ≤ x ∧ x < i + n + bs.length then some (bs.getD (x - (i + n)) 0).toNat else tabGet none m x := by
  induction bs generalizing n m with
  | nil => rw [if_neg (by simp only [List.length_nil]; omega)]; rfl
  | cons b bs ih =>
    rw [List.length_cons] at fits ⊢
    rw [List.zipIdx_cons, List.foldl_cons, if_pos (by simp only; omega), ih _ (by omega), tabGet_storeByte]
    rcases Nat.lt_trichotomy x (i + n) with before | rfl | after
    · rw [if_neg (by omega), if_neg (by omega), if_neg (by omega)]
    · rw [if_neg (by omega), if_pos rfl, if_pos (by omega), Nat.sub_self, List.getD_cons_zero]
    · have next : x - (i + n) = x - (i + (n + 1)) + 1 := by omega
      rw [if_neg (by omega : ¬x = i + n), next, List.getD_cons_succ]
      exact if_congr (by omega) rfl rfl

/-- What payload SRAM holds after a write that ends inside it (16 R371). -/
theorem tabGet_sramWrite {i : Nat} {bs : Bytes} (s : State) (fits : i + bs.length ≤ 0x40000) (x : Nat) :
    tabGet none (sramWrite i bs s).mem.payload x =
      if i ≤ x ∧ x < i + bs.length then some (bs.getD (x - i) 0).toNat else tabGet none s.mem.payload x :=
  tabGet_storeBytes (n := 0) s.mem.payload fits x

/-! ### Accesses to BAR0 -/

theorem exec_payloadSramRead {s : State} (off n : Nat) (answers : bar0Up s = true) :
    exec (.payloadSramRead off n) s =
      .next (emit (.completion (sramRead n off s).1 (sramRead n off s).2.1) (sramRead n off s).2.2) :=
  congrArg _ (if_neg (by simp [answers]))

/-- A write that starts in the payload window goes to payload SRAM, whatever its size and alignment (21 R466). -/
theorem exec_registerWrite_payload {s : State} {off : Nat} {bs : List Byte} (answers : bar0Up s = true)
    (low : 0x40000 ≤ off) (high : off < 0x80000) (fits : off + bs.length ≤ 2 ^ 20) :
    exec (.registerWrite off bs) s = .next (sramWrite (off - 0x40000) bs s) := by
  have inside : inPayload off = true := decide_eq_true ⟨low, high⟩
  have served : ¬(!bar0Up s || decide (2 ^ 20 < off + bs.length)) = true := by
    simpa [answers] using fits
  exact congrArg _ ((if_neg served).trans (if_pos inside))

/-- Settles O40: the bytes stored are read off `tabGet_sramWrite`, offset by offset. -/
theorem payloadSramReadsAndWrites : Obligations.PayloadSramReadsAndWrites := by
  refine ⟨fun i bs s fits => ⟨fun k hk => ?stored, fun x outside => ?kept⟩, fun off n s => exec_payloadSramRead off n,
    fun off bs s => exec_registerWrite_payload⟩
  case stored => rw [tabGet_sramWrite s fits, if_pos (by omega), Nat.add_sub_cancel_left]
  case kept => rw [tabGet_sramWrite s fits, if_neg (by omega)]

end Sys2Proof
end

section
/-! Ports of the ring (for O57 to O59; 13 R293, R296, 14 R328 to R330): what a change of one port reads back as, and which
operations leave the state of Table LANE-2 of a port that has one as it is. -/

namespace Sys2Proof

open Sys2Proof.Machine

/-! ### Reading a port after a change -/

/-- A port that its change does not leave at its reset value reads as changed. -/
theorem port_modPort_self {p : Port} {f : RingPort → RingPort} {s : State} (left : f (port s p) ≠ {}) :
    port (modPort p f s) p = f (port s p) := tabGet_set_of_ne _ _ left

theorem port_modPort_other {p q : Port} (f : RingPort → RingPort) (s : State) (other : q ≠ p) :
    port (modPort p f s) q = port s q :=
  tabGet_set_other _ _ _ _ _ (by cases p <;> cases q <;> simp_all [portIx])

/-- A port in a state of Table LANE-2 is not at its reset value. -/
theorem ne_reset_of_run {x : RingPort} (on : x.run ≠ .off) : x ≠ {} := fun h => on (congrArg RingPort.run h)

/-! ### Operations that keep the state of a port -/

/-- The port, where it is on, keeps its state of Table LANE-2. -/
structure KeepsRun (q : Port) (s t : State) : Prop where
  /-- the state stays -/
  run : (port s q).run ≠ .off → (port t q).run = (port s q).run

namespace KeepsRun

theorem of_ring {q : Port} {s t : State} (same : t.ring = s.ring) : KeepsRun q s t :=
  ⟨fun _ => by rw [port, port, same]⟩

theorem trans {q : Port} {s t u : State} (h : KeepsRun q s t) (k : KeepsRun q t u) : KeepsRun q s u :=
  ⟨fun on => by rw [k.run (by rwa [h.run on]), h.run on]⟩

theorem cond {q : Port} {c : Prop} [Decidable c] {s a b : State} (h : KeepsRun q s a) (k : KeepsRun q s b) :
    KeepsRun q s (if c then a else b) := by
  split
  · exact h
  · exact k

theorem modPort (q p : Port) {f : RingPort → RingPort} (keeps : ∀ x, (f x).run = x.run) (s : State) :
    KeepsRun q s (modPort p f s) := ⟨fun on => by
  by_cases other : q = p
  · subst other
    rw [port_modPort_self (ne_reset_of_run (by rwa [keeps])), keeps]
  · rw [port_modPort_other f s other]⟩

theorem forEach {α : Type} {q : Port} {f : α → State → State} (keeps : ∀ a s, KeepsRun q s (f a s)) (l : List α)
    (s : State) : KeepsRun q s (forEach l f s) := by
  induction l generalizing s with
  | nil => exact of_ring rfl
  | cons a l ih => exact (keeps a s).trans (ih _)

theorem returnCredit (q p : Port) (reserved : Bool) (n : Nat) (s : State) :
    KeepsRun q s (returnCredit p reserved n s) :=
  cond (of_ring rfl) ((modPort q p (fun x => by cases reserved <;> rfl) s).trans (of_ring rfl))

theorem dropHeld (q p : Port) (s : State) : KeepsRun q s (dropHeld p s) := by
  unfold Machine.dropHeld
  refine trans (modPort q p (fun _ => ?_) s) (forEach (fun _ _ => returnCredit ..) _ _)
  rfl

theorem idleLanes (q p : Port) (s : State) : KeepsRun q s (idleLanes p s) :=
  forEach (f := fun i u => modLane i (idleLane (port u p).rate (now u)) u) (fun _ _ => of_ring rfl) _ _

/-- A link that is dropped leaves the other port's state as it is. -/
theorem dropLink_other {q p : Port} (run : PortRun) (s : State) (other : q ≠ p) : KeepsRun q s (dropLink p run s) :=
  ((dropHeld q p s).trans (idleLanes q p _)).trans ⟨fun _ => by rw [dropLink, port_modPort_other _ _ other]⟩

theorem useCredits (q p : Port) (f : Bytes) (s : State) : KeepsRun q s (useCredits p f s) :=
  modPort q p (fun _ => by cases usesReserved f <;> rfl) s

theorem dropFrame (q p : Port) (f : Bytes) (s : State) : KeepsRun q s (dropFrame p f s) :=
  (useCredits ..).trans (returnCredit ..)

theorem stompCopy (q p : Port) (f : Bytes) (s : State) : KeepsRun q s (stompCopy p f s) := by
  unfold Machine.stompCopy
  split
  · exact of_ring rfl
  · exact cond (of_ring rfl) ((modPort q _ (fun _ => by cases h : usesReserved f <;> simp [spend, h]) s).trans
      (of_ring rfl))

theorem cutReception (q p : Port) (cut : Bytes) (s : State) : KeepsRun q s (cutReception p cut s) :=
  cond (of_ring rfl) ((stompCopy ..).trans (dropFrame ..))

end KeepsRun

/-! ### A port that falls to another state -/

theorem run_dropLink {p : Port} {run : PortRun} (s : State) (on : run ≠ .off) : (port (dropLink p run s) p).run = run := by
  rw [dropLink, port_modPort_self (ne_reset_of_run on)]
  rfl

/-- A port in training reads as the bare link that its drop has left, at its rate. -/
theorem port_trainPort (p : Port) (rate : Nat) (s : State) :
    port (trainPort p rate s) p = { port (dropLink p .train s) p with rate := rate } := by
  have on : (port (dropLink p .train s) p).run ≠ .off := by rw [run_dropLink s (by decide)]; decide
  unfold trainPort
  refine (forEach_field (fun u => port u p) (fun _ _ => ?_) _ _).trans
    (port_modPort_self (f := fun x => { x with rate := rate }) (ne_reset_of_run on))
  rfl

theorem run_trainPort (p : Port) (rate : Nat) (s : State) : (port (trainPort p rate s) p).run = .train := by
  rw [port_trainPort]
  exact run_dropLink s (by decide)

/-! ### Interrupts and events of the log touch no port -/

@[simp] theorem raiseIrq_ring (n : Nat) (s : State) : (raiseIrq n s).ring = s.ring := by
  unfold raiseIrq
  split
  · rfl
  · dsimp only
    split
    · obtain ⟨pba, out, sent⟩ := msixSend_frame (irqVector s n)
        { s with pcie.irqCause := s.pcie.irqCause ||| 2 ^ n }
      rw [sent]
    · rfl

@[simp] theorem logPush_ring (sev src code p0 p1 p2 : Nat) (s : State) :
    (logPush sev src code p0 p1 p2 s).ring = s.ring := by
  simp only [logPush, apply_ite State.ring, ite_self]

@[simp] theorem logLane_ring (code lane p1 : Nat) (s : State) : (logLane code lane p1 s).ring = s.ring := by
  unfold logLane
  split
  · exact logPush_ring ..
  · rfl

end Sys2Proof
end

section
/-! The events of lanes and ports (O57; 13 R302, 14 R327, R330 to R333): what each event does once its guards hold. -/

namespace Sys2Proof

open Sys2Proof.Machine

/-! ### Ports -/

theorem exec_portStateTimeout_train {p : Port} {s : State} (run : (port s p).run = .train)
    (due : (port s p).since + 4000000 ≤ now s) :
    exec (.portStateTimeout p) s = .next (forEach (portLanes p) (fun i s =>
      modLane i (fun l => { l with retrains := sat32 (l.retrains + 1) }) s) (dropLink p .detect s)) := by
  simp [exec, execPortStateTimeout, run, portWait, due]

theorem exec_portStateTimeout_lock {p : Port} {s : State} (run : (port s p).run = .lock ∨ (port s p).run = .caps)
    (due : (port s p).since + 1000000 ≤ now s) :
    exec (.portStateTimeout p) s = .next (trainPort p (port s p).rate s) := by
  rcases run with run | run <;> simp [exec, execPortStateTimeout, run, portWait, due]

theorem exec_portStateTimeout_detect {p : Port} {s : State} (run : (port s p).run = .detect)
    (due : (port s p).since + 1000000 ≤ now s) :
    exec (.portStateTimeout p) s = .next (modPort p (fun x => { x with since := now s }) s) := by
  simp [exec, execPortStateTimeout, run, portWait, due]

theorem exec_capsReceived {p : Port} {c : List Byte} {s : State} (run : (port s p).run = .caps) (length : c.length = 24)
    (crc : crc16 (c.take 22) = u16 c 22) : exec (.capsReceived p c) s = .next (takeCaps p c s) :=
  congrArg _ (if_pos ⟨run, length, crc⟩)

theorem exec_partnerTerminationSensed {p : Port} {s : State} (run : (port s p).run = .detect) :
    exec (.partnerTerminationSensed p) s = .next (trainPort p 2 s) := congrArg _ (if_pos run)

theorem exec_quarantineRetry {p : Port} {s : State} (run : (port s p).run = .quarantined) (retries : quarWait s p ≠ 0)
    (due : (port s p).since + 1000000000 * quarWait s p ≤ now s) :
    exec (.quarantineRetry p) s =
      .next (modPort p (fun x => { x with retriedAt := some (now s) }) (trainPort p 2 s)) :=
  congrArg _ (if_pos ⟨run, retries, due⟩)

/-- A port whose retry has begun trains and remembers when it began (13 R302). -/
theorem port_retried (p : Port) (rate : Nat) (at_ : Option Nat) (s : State) :
    port (modPort p (fun x => { x with retriedAt := at_ }) (trainPort p rate s)) p =
      { port (trainPort p rate s) p with retriedAt := at_ } := by
  have on : (port (trainPort p rate s) p).run ≠ .off := by rw [run_trainPort]; decide
  exact port_modPort_self (f := fun x => { x with retriedAt := at_ }) (ne_reset_of_run on)

/-! ### Training and block lock -/

theorem exec_laneTrained_ring {i : Fin 20} {s : State} (ring : i.val < 4) (run : (port s (lanePort i.val)).run = .train) :
    exec (.laneTrained i) s =
      .next (trainToLock (lanePort i.val) (modLane i.val (fun l => { l with trained := true }) s)) := by
  simp [exec, execLaneTrained, mayTrain, ring, run]

theorem exec_laneTrained_mortar {i : Fin 20} {s : State} (mortar : 8 ≤ i.val) (runs : mortarRuns s = true)
    (unlocked : (lane s i.val).locked = false) (due : (lane s i.val).since + 10000 ≤ now s) :
    exec (.laneTrained i) s = .next (modLane i.val (fun l => { l with trained := true }) s) := by
  have outside : ¬i.val < 4 := by omega
  simp [exec, execLaneTrained, mayTrain, outside, mortar, runs, unlocked, due]

theorem exec_blockLockAcquired {i : Fin 20} {s : State} (trained : (lane s i.val).trained = true)
    (unlocked : (lane s i.val).locked = false)
    (carries : i.val < 4 ∧ pastTrain s i.val = true ∨ 8 ≤ i.val ∧ mortarRuns s = true) :
    exec (.blockLockAcquired i) s =
      .next (modLane i.val (fun l => { (startCount (now s) l) with locked := true }) s) := by
  rcases carries with ⟨ring, past⟩ | ⟨mortar, runs⟩
  · simp [exec, execBlockLockAcquired, trained, unlocked, ring, past]
  · have outside : ¬i.val < 4 := by omega
    simp [exec, execBlockLockAcquired, trained, unlocked, outside, mortar, runs]

theorem exec_tsBlock_whole {i : Fin 20} {s : State} (d r : Bool) (ring : i.val < 4)
    (run : (port s (lanePort i.val)).run = .train) :
    exec (.tsBlock i false d r) s = .next (trainToLock (lanePort i.val)
      (modLane (txLane (lanePort i.val) (i.val % 2)) (fun l => { l with partnerTrained := d }) s)) := by
  simp [exec, execTsBlock, run, ring]

/-- A block damaged on the line is counted and does nothing else (14 R327). -/
theorem exec_tsBlock_damaged {i : Fin 20} {s : State} (d r : Bool) (ring : i.val < 4)
    (run : (port s (lanePort i.val)).run = .train) :
    exec (.tsBlock i true d r) s =
      .next (modLane i.val (fun l => { l with ctrlErrors := sat32 (l.ctrlErrors + 1) }) s) := by
  simp [exec, execTsBlock, run, ring, damagedBlock]

/-! ### Loss of block lock -/

theorem exec_blockLockLost_ring {i : Fin 20} {s : State} (cut : List Byte) (locked : (lane s i.val).locked = true)
    (ring : i.val < 4) :
    exec (.blockLockLost i cut) s = .next (loseLock i.val true
      (if decide ((port s (lanePort i.val)).run = .active) && (port s (lanePort i.val)).rxMask.testBit (i.val % 2)
        then cutReception (lanePort i.val) cut s else s)) := by
  have known : ¬(4 ≤ i.val ∧ i.val < 8) := by omega
  simp only [exec, execBlockLockLost, locked, known, ring, decide_false, Bool.not_true, Bool.or_self, if_true,
    Bool.false_eq_true, if_false]

theorem exec_blockLockLost_mortar {i : Fin 20} {s : State} (cut : List Byte) (locked : (lane s i.val).locked = true)
    (mortar : 8 ≤ i.val) : exec (.blockLockLost i cut) s = .next (mortarLaneLoss (i.val - 8) true s) := by
  have known : ¬(4 ≤ i.val ∧ i.val < 8) := by omega
  have outside : ¬i.val < 4 := by omega
  simp only [exec, execBlockLockLost, locked, known, outside, decide_false, Bool.not_true, Bool.or_self,
    Bool.false_eq_true, if_false]

/-! ### Alignment -/

/-- The skew that the lanes of a link may show, in blocks (14 R332). -/
def skewLimit (i : Nat) : Nat := if i < 8 then 32 else 4

/-- The rate that counts the blocks of a lane; the Mortar lanes have one of their own. -/
def laneRate (i : Nat) (s : State) : Nat := if i < 8 then (port s (lanePort i)).rate else 0

/-- The lane with a marker in bounds: deskewed, with the marker and its instant. -/
def keepMarker (i skew marker : Nat) (s : State) : State :=
  modLane i (fun l => { l with deskewed := true, deskew := skew, marker := marker, markerAt := now s }) s

/-- The lane with one more failure of its alignment. -/
def failMarker (i : Nat) (s : State) : State :=
  modLane i (fun l => { l with deskewFails := sat32 (l.deskewFails + 1) }) s

theorem exec_alignBlock {i : Fin 20} {s : State} (damaged : Bool) (skew marker : Nat)
    (locked : (lane s i.val).locked = true) (receives : i.val < 4 ∨ 8 ≤ i.val) :
    exec (.alignBlock i damaged skew marker) s = .next (
      if damaged then damagedBlock i.val s
      else if skewLimit i.val < skew ∨
          (alignedWith i.val s).any (fun k => decide (marker ≠ markerNow s (laneRate i.val s) (lane s k))) then
        if i.val < 4 then loseLock i.val false (failMarker i.val s)
        else mortarLaneLoss (i.val - 8) false (failMarker i.val s)
      else if i.val < 4 then lanesAligned i.val (keepMarker i.val skew marker s)
      else keepMarker i.val skew marker s) := by
  have known : ¬(4 ≤ i.val ∧ i.val < 8) := by omega
  exact congrArg _ (if_neg (by simp [locked, known]))

/-- With a skew in bounds, the lanes aligned already expect the marker (14 R332). -/
theorem aligned_of_expected {i skew marker : Nat} {s : State} (small : skew ≤ skewLimit i)
    (expected : ∀ k ∈ alignedWith i s, markerNow s (laneRate i s) (lane s k) = marker) :
    ¬(skewLimit i < skew ∨
      (alignedWith i s).any (fun k => decide (marker ≠ markerNow s (laneRate i s) (lane s k))) = true) := by
  rintro (large | other)
  · omega
  · obtain ⟨k, aligned, differs⟩ := List.any_eq_true.1 other
    exact of_decide_eq_true differs (expected k aligned).symm

/-- Settles O57: each clause is what the event's own lemma says. -/
theorem laneEvents : Obligations.LaneEvents := by
  refine ⟨fun p s => exec_portStateTimeout_train, fun p s => exec_portStateTimeout_lock,
    fun p s => exec_portStateTimeout_detect, fun i s => exec_laneTrained_ring, fun i s => exec_laneTrained_mortar,
    fun i s => exec_blockLockAcquired,
    fun i d r s ring run => ⟨exec_tsBlock_whole d r ring run, exec_tsBlock_damaged d r ring run⟩,
    fun i c s locked => ⟨fun ring off => ?cut, fun ring active uses => ?cutActive, exec_blockLockLost_mortar c locked⟩,
    fun i skew m s locked receives => ?align, fun p c s => exec_capsReceived, fun p s run => ?sensed,
    fun p s run retries due => ?retry⟩
  case cut => rw [exec_blockLockLost_ring c locked ring, if_neg (by simp [off])]
  case cutActive => rw [exec_blockLockLost_ring c locked ring, if_pos (by simp [active, uses])]
  case align =>
    refine ⟨exec_alignBlock true skew m locked receives, fun small expected => ?_, fun large => ?_⟩
    · have kept := (exec_alignBlock false skew m locked receives).trans
        (congrArg _ ((if_neg Bool.false_ne_true).trans (if_neg (aligned_of_expected small expected))))
      exact ⟨fun ring => kept.trans (congrArg _ (if_pos ring)), fun mortar => kept.trans (congrArg _ (if_neg (by omega)))⟩
    · have failed := (exec_alignBlock false skew m locked receives).trans
        (congrArg _ ((if_neg Bool.false_ne_true).trans (if_pos (.inl large))))
      exact ⟨fun ring => failed.trans (congrArg _ (if_pos ring)),
        fun mortar => failed.trans (congrArg _ (if_neg (by omega)))⟩
  case sensed =>
    refine ⟨_, exec_partnerTerminationSensed run, run_trainPort p 2 s, ?_⟩
    rw [port_trainPort]
  case retry =>
    refine ⟨_, exec_quarantineRetry run retries due, ?_⟩
    rw [port_retried]
    refine ⟨run_trainPort p 2 s, ?_, rfl⟩
    rw [port_trainPort]

end Sys2Proof
end

section
/-! The blocks of an ACTIVE port (O58; 13 R298, R299, 14 R329, R330, R334 to R336): what each does to the frames held, the
credits, the probe and the lanes in use. -/

namespace Sys2Proof

open Sys2Proof.Machine

theorem linkUp_of_active {p : Port} {s : State} (active : (port s p).run = .active) : linkUp s p = true :=
  decide_eq_true active

/-! ### Frames held and credits -/

theorem exec_ackBlock {p : Port} {s : State} (q : BitVec 32) (active : (port s p).run = .active) :
    exec (.ackBlock p q) s = .next (pump p (modPort p (fun x =>
      { x with replay := x.replay.filter (lseqFrom ((q.toNat + 1) % 2 ^ 32)) }) s)) :=
  congrArg _ (if_pos (linkUp_of_active active))

/-- The port has counted a NAK that it received (14 Table LANE-7). -/
def nakCounted (p : Port) (s : State) : State :=
  modPort p (fun x => { x with nakReceived := sat32 (x.nakReceived + 1) }) s

/-- A NAK resends from its LSEQ; code 3 waits for credits first (14 R334). -/
theorem exec_nakBlock {p : Port} {s : State} (n : Nat) (q : BitVec 32) (active : (port s p).run = .active) :
    exec (.nakBlock p n q) s = .next (
      if n = 3 then modPort p (fun x => { x with resendAt := some q.toNat }) (nakCounted p s)
      else resendFrom p q.toNat (nakCounted p s)) := congrArg _ (if_pos (linkUp_of_active active))

theorem exec_creditBlock {p : Port} {s : State} (g r : Nat) (active : (port s p).run = .active) :
    exec (.creditBlock p g r) s = .next (pump p (modPort p (fun x =>
      { x with general := min 960 (x.general + g), reserved := min 64 (x.reserved + r) }) s)) :=
  congrArg _ (if_pos (linkUp_of_active active))

theorem exec_replayTimeout {p : Port} {s : State} {h : HeldFrame} {l : List HeldFrame}
    (active : (port s p).run = .active) (held : (port s p).replay = h :: l) (due : h.sentAt + 10000 ≤ now s) :
    exec (.replayTimeout p) s = .next (resendFrom p h.lseq s) := by
  simp [exec, execReplayTimeout, held, linkUp_of_active active, due]

/-! ### Probes -/

theorem exec_probeSend {p : Port} {s : State} (active : (port s p).run = .active)
    (due : (port s p).probeAt + 1000 * s.ring.syncPeriod ≤ now s) :
    exec (.probeSend p) s = .next (sendBlock p 0xCC (b1 (2 * (port s p).probeNext)) (modPort p (fun x =>
      { x with probe := some (x.probeNext, now s), probeAt := now s, probeNext := (x.probeNext + 1) % 128 }) s)) :=
  congrArg _ (if_pos (by simp [linkUp_of_active active, due]))

theorem exec_probeBlock_request {p : Port} {s : State} (n r : Nat) (active : (port s p).run = .active) :
    exec (.probeBlock p false n r) s = .next (sendBlock p 0xCC (b1 (2 * (n % 128) + 1) ++ leBytes 5 0) s) :=
  congrArg _ (if_neg (by simp [linkUp_of_active active]))

theorem exec_probeBlock_reply {p : Port} {s : State} {n at_ : Nat} (r : Nat) (active : (port s p).run = .active)
    (asked : (port s p).probe = some (n, at_)) (early : now s ≤ at_ + 10000) :
    exec (.probeBlock p true n r) s = .next (modPort p (fun x =>
      { x with probe := none, delay := (16 * (now s - at_) - r) / 2 }) s) := by
  simp [exec, execProbeBlock, linkUp_of_active active, asked, early]

/-! ### Lanes in use -/

/-- A new transmit mask is used and answered; what was sent on a lane it leaves out is sent again (14 R336). -/
theorem exec_restripeBlock {p : Port} {s : State} {m : BitVec 2} (active : (port s p).run = .active) (some : m ≠ 0)
    (new : m.toNat ≠ (port s p).txMask) :
    exec (.restripeBlock p m) s = .next (
      if (digits (port s p).txMask).all (fun d => m.toNat.testBit d) then
        setTxMask p m.toNat (sendBlock p 0xE1 (b1 m.toNat) s)
      else resendAll p (setTxMask p m.toNat (sendBlock p 0xE1 (b1 m.toNat) s))) := by
  have nonzero : m.toNat ≠ 0 := fun zero => some (BitVec.eq_of_toNat_eq zero)
  exact congrArg _ (if_neg (by simp [linkUp_of_active active, nonzero, new]))

/-- The state with a new receive mask, whose lanes' changes are logged and raise their interrupt (14 R336, R337). -/
def switchedLanes (p : Port) (m was : Nat) (s : State) : State :=
  forUpto 2 (fun d s =>
    if was.testBit d = m.testBit d then s else raiseIrq 19 (logLane 0x090C (rxLane p d) m s))
    (modPort p (fun x => { x with rxMask := m }) s)

/-- What has come of a frame that the loss of a lane leaves incomplete is dropped (14 R336). -/
def cutBySwitch (p : Port) (m : Nat) (cut : Bytes) (s : State) : State :=
  if (digits (port s p).rxMask).all (fun d => m.testBit d) then s else cutReception p cut s

theorem cutReception_reports (p : Port) (cut : Bytes) (s : State) : ReportsOnly s (cutReception p cut s) := by
  have stomps (s : State) : ReportsOnly s (stompCopy p cut s) := by
    unfold stompCopy
    split
    · exact .refl s
    · exact .cond (.refl s) (.after (.emit ..) (.modPort ..))
  exact .cond (.refl s) (.after (.returnCredit ..) (.after (.modPort ..) (stomps s)))

theorem switchedLanes_ring (p : Port) (m was : Nat) (s : State) :
    (switchedLanes p m was s).ring = (modPort p (fun x => { x with rxMask := m }) s).ring :=
  forUpto_field (fun u : State => u.ring) (fun d u => by split <;> simp) _

theorem switchedLanes_lanes (p : Port) (m was : Nat) (s : State) : (switchedLanes p m was s).lanes = s.lanes := by
  refine (forUpto_field (fun u : State => u.lanes) (fun d u => ?_) _).trans (modPort_lanes ..)
  split
  · rfl
  · exact ((ReportsOnly.logLane ..).trans (.raiseIrq ..)).lanes

/-- An ACTIVE port stays ACTIVE with its new receive mask. -/
theorem port_switchedLanes {p : Port} {m was : Nat} {s : State} (active : (port s p).run = .active) :
    port (switchedLanes p m was s) p = { port s p with rxMask := m } := by
  have on : (port s p).run ≠ .off := by rw [active]; decide
  rw [port, switchedLanes_ring]
  exact port_modPort_self (f := fun x => { x with rxMask := m }) (ne_reset_of_run on)

theorem cutBySwitch_reports (p : Port) (m : Nat) (cut : Bytes) (s : State) : ReportsOnly s (cutBySwitch p m cut s) :=
  .cond (.refl s) (cutReception_reports p cut s)

/-- Switching lanes locks and unlocks none. -/
theorem lane_switched (p : Port) (m was : Nat) (cut : Bytes) (s : State) (i : Nat) :
    lane (switchedLanes p m was (cutBySwitch p m cut s)) i = lane s i := by
  rw [lane, lane, switchedLanes_lanes, (cutBySwitch_reports p m cut s).lanes]

theorem exec_switchBlock {p : Port} {s : State} {m : BitVec 2} {d : Nat} (cut : List Byte)
    (active : (port s p).run = .active) (some : m ≠ 0) (new : m.toNat ≠ (port s p).rxMask) (used : d ∈ digits m.toNat)
    (locked : (lane s (rxLane p d)).locked = true) :
    exec (.switchBlock p m cut) s =
      .next (switchedLanes p m.toNat (port s p).rxMask (cutBySwitch p m.toNat cut s)) := by
  have nonzero : m.toNat ≠ 0 := fun zero => some (BitVec.eq_of_toNat_eq zero)
  have stays : (digits m.toNat).any (fun d => (lane (switchedLanes p m.toNat (port s p).rxMask
      (cutBySwitch p m.toNat cut s)) (rxLane p d)).locked) = true :=
    List.any_eq_true.2 ⟨d, used, by rw [lane_switched, locked]⟩
  exact congrArg _ ((if_neg (by simp [linkUp_of_active active, nonzero, new])).trans (if_pos stays))

/-! ### Frames and the end of the link -/

theorem exec_leaveBlock {p : Port} {s : State} {n : Nat} (active : (port s p).run = .active) (known : n < 256) :
    exec (.leaveBlock p n) s = .next (losePort p s) := congrArg _ (if_pos ⟨linkUp_of_active active, known⟩)

theorem exec_ringFrameReceived_whole {p : Port} {s : State} (f : List Byte) (active : (port s p).run = .active) :
    exec (.ringFrameReceived p false f) s = .next (takeFrame p f s) := by
  rw [exec, execRingFrameReceived, if_neg (by simp [linkUp_of_active active]), if_neg Bool.false_ne_true]

theorem exec_ringFrameReceived_stomped {p : Port} {s : State} (f : List Byte) (active : (port s p).run = .active) :
    exec (.ringFrameReceived p true f) s =
      .next (modPort p (fun x => { x with stomped := sat32 (x.stomped + 1) }) (dropFrame p f s)) := by
  rw [exec, execRingFrameReceived, if_neg (by simp [linkUp_of_active active]), if_pos rfl, stompedFrame]

/-- Settles O58: each clause is what the block's own lemma says; a port that switches lanes is read back. -/
theorem linkBlocks : Obligations.LinkBlocks := by
  intro p s active
  refine ⟨fun q => exec_ackBlock q active, fun n q => ⟨fun other => ?resends, fun waits => ?waits⟩,
    fun g r => exec_creditBlock g r active, fun h l => exec_replayTimeout active, exec_probeSend active,
    fun n r => exec_probeBlock_request n r active, fun n r at_ => exec_probeBlock_reply r active,
    fun m some new => ⟨fun keeps => ?keeps, fun leaves => ?leaves⟩, fun m c some new used => ?switch,
    fun n => exec_leaveBlock active,
    fun f => ⟨exec_ringFrameReceived_whole f active, exec_ringFrameReceived_stomped f active⟩⟩
  case resends => exact (exec_nakBlock n q active).trans (congrArg _ (if_neg other))
  case waits => exact (exec_nakBlock n q active).trans (congrArg _ (if_pos waits))
  case keeps => exact (exec_restripeBlock active some new).trans (congrArg _ (if_pos keeps))
  case leaves =>
    exact (exec_restripeBlock active some new).trans (congrArg _ (if_neg (Bool.eq_false_iff.1 leaves)))
  case switch =>
    obtain ⟨d, used, locked⟩ := used
    have cutActive : (port (cutBySwitch p m.toNat c s) p).run = .active := by
      have keeps : KeepsRun p s (cutBySwitch p m.toNat c s) := .cond (.of_ring rfl) (.cutReception ..)
      rw [keeps.run (by rw [active]; decide), active]
    refine ⟨_, exec_switchBlock c active some new used locked, ?_⟩
    rw [port_switchedLanes cutActive]
    exact ⟨rfl, cutActive⟩

end Sys2Proof
end

section
/-! Membership of the ring (O59; 13 R293, R294, R304 to R306): the timeouts of Table RING-2, announcements, and SYNC. -/

namespace Sys2Proof

open Sys2Proof.Machine

/-! ### What keeps the ring state and the bypass -/

/-- Where the device stands on the ring: its ring state and its bypass (13 R293). -/
def ringPlace (s : State) : RingRun × Bool := (s.ring.run, s.ring.bypass)

theorem ringPlace_of_ring {s t : State} (same : t.ring = s.ring) : ringPlace t = ringPlace s := by
  rw [ringPlace, ringPlace, same]

theorem ringPlace_cond {c : Prop} [Decidable c] {a b : State} {x : RingRun × Bool} (h : ringPlace a = x)
    (k : ringPlace b = x) : ringPlace (if c then a else b) = x := by
  split
  · exact h
  · exact k

@[simp] theorem ringPlace_modPort (p : Port) (f : RingPort → RingPort) (s : State) :
    ringPlace (modPort p f s) = ringPlace s := rfl

@[simp] theorem ringPlace_emit (o : Out) (s : State) : ringPlace (emit o s) = ringPlace s := rfl

@[simp] theorem ringPlace_modLane (i : Nat) (f : Lane → Lane) (s : State) : ringPlace (modLane i f s) = ringPlace s := rfl

@[simp] theorem ringPlace_raiseIrq (n : Nat) (s : State) : ringPlace (raiseIrq n s) = ringPlace s :=
  ringPlace_of_ring (raiseIrq_ring n s)

@[simp] theorem ringPlace_logEv (code p0 p1 p2 : Nat) (s : State) : ringPlace (logEv code p0 p1 p2 s) = ringPlace s := by
  unfold logEv
  split
  · exact ringPlace_of_ring (logPush_ring ..)
  · rfl

@[simp] theorem ringPlace_returnCredit (p : Port) (reserved : Bool) (n : Nat) (s : State) :
    ringPlace (returnCredit p reserved n s) = ringPlace s := by
  simp [returnCredit, sendBlock, apply_ite ringPlace]

@[simp] theorem ringPlace_dropLink (p : Port) (run : PortRun) (s : State) :
    ringPlace (dropLink p run s) = ringPlace s := by
  simp only [dropLink, idleLanes, dropHeld, ringPlace_modPort]
  rw [forEach_field ringPlace fun _ _ => ringPlace_modLane .., forEach_field ringPlace fun _ _ => ringPlace_returnCredit ..,
    ringPlace_modPort]

@[simp] theorem ringPlace_dropMember (n : Nat) (s : State) : ringPlace (dropMember n s) = ringPlace s := by
  unfold dropMember
  split <;> rfl

@[simp] theorem ringPlace_pauseDelivery (s : State) : ringPlace (pauseDelivery s) = ringPlace s := by
  refine forUpto_field ringPlace (fun _ _ => ?_) s
  exact ringPlace_cond rfl rfl

/-! #### Sending -/

theorem ringPlace_sendOne (p : Port) (s : State) : ringPlace (sendOne p s) = ringPlace s := by
  unfold sendOne
  dsimp only
  split
  · rfl
  · split <;> simp

theorem ringPlace_drainPort (n : Nat) (p : Port) (s : State) : ringPlace (drainPort n p s) = ringPlace s := by
  induction n generalizing s with
  | zero => rfl
  | succ n ih => rw [drainPort, ih, ringPlace_sendOne]

@[simp] theorem ringPlace_forwardOn (ring : Nat) (body : Bytes) (own : Bool) (credit : Option (Port × Nat))
    (stamp : Option SyncStamp) (s : State) : ringPlace (forwardOn ring body own credit stamp s) = ringPlace s := by
  unfold forwardOn
  split
  · split <;> simp
  · simp [enqueue, drain, ringPlace_drainPort]

@[simp] theorem ringPlace_e2ePathChange (s : State) : ringPlace (e2ePathChange s) = ringPlace s := by
  refine (forEach_field ringPlace (fun _ _ => ?_) _ _).trans rfl
  exact ringPlace_forwardOn ..

/-- A new master is logged and raises its interrupt (13 R293). -/
theorem ringPlace_masterChanged (old new : Nat) (s : State) :
    ringPlace (raiseIrq 13 (logEv 0x0903 old new 0 (e2ePathChange s))) = ringPlace s := by
  rw [ringPlace_raiseIrq, ringPlace_logEv, ringPlace_e2ePathChange]

/-- Judging the master anew moves the device nowhere on the ring. -/
@[simp] theorem ringPlace_updateMaster (s : State) : ringPlace (updateMaster s) = ringPlace s := by
  unfold updateMaster
  refine ringPlace_cond rfl (ringPlace_cond ?_ ((ringPlace_pauseDelivery _).trans ?_)) <;>
  exact ringPlace_masterChanged ..

/-! ### The ring state -/

/-- With both ports off and no member known, the device stands where `setRing` has put it. -/
theorem ringPlace_portsOff (r : RingRun) (l : List Nat) (s : State) :
    ringPlace (forEach l dropMember (dropLink .w .off (dropLink .e .off (setRing r s)))) = (r, s.ring.bypass) := by
  rw [forEach_field ringPlace ringPlace_dropMember, ringPlace_dropLink, ringPlace_dropLink]
  rfl

theorem ringPlace_standAlone (r : RingRun) (s : State) : ringPlace (standAlone r s) = (r, true) := by
  unfold standAlone
  rw [ringPlace_updateMaster]
  have off := ringPlace_portsOff r ((dropLink .w .off (dropLink .e .off (setRing r s))).ring.roster.map (fun e => e.1)) s
  generalize forEach _ dropMember _ = u at off ⊢
  have run : u.ring.run = r := congrArg Prod.fst off
  exact Prod.ext run rfl

theorem ringPlace_openBypass (s : State) : ringPlace (openBypass s) = (.joining, false) := by
  rw [openBypass, ringPlace_dropLink, ringPlace_dropLink]
  rfl

/-- JOINING begins with both ports in DETECT. -/
theorem run_openBypass (p : Port) (s : State) : (port (openBypass s) p).run = .detect := by
  cases p with
  | w => exact run_dropLink _ (by decide)
  | e =>
    have east := run_dropLink (p := .e) (run := .detect) { (setRing .joining s) with ring.bypass := false } (by decide)
    rw [openBypass, (KeepsRun.dropLink_other (q := .e) (p := .w) _ _ (by decide)).run (by rw [east]; decide), east]

theorem exec_ringJoinTimeout_one {s : State} {x : Nat} (joins : s.ring.run = .joining) (one : s.ring.oneSince = some x)
    (due : x + 100000000 ≤ now s) :
    exec .ringJoinTimeout s = .next (updateMaster (wrapAt (if inService s .e then .w else .e) s)) := by
  simp [exec, execRingJoinTimeout, joins, one, due]

theorem exec_ringJoinTimeout_none {s : State} (joins : s.ring.run = .joining) (none : s.ring.oneSince = none)
    (due : s.ring.since + 100000000 ≤ now s) : exec .ringJoinTimeout s = .next (standAlone .isolated s) := by
  simp [exec, execRingJoinTimeout, joins, none, due]

theorem exec_ringIsolatedRetry {s : State} (isolated : s.ring.run = .isolated)
    (due : s.ring.since + 10000000000 ≤ now s) (may : mayJoin s = true) :
    exec .ringIsolatedRetry s = .next (openBypass s) := by
  rw [exec, execRingIsolatedRetry, if_pos (by simp [isolated, due, may])]

theorem exec_ringLeavingDone {s : State} (leaves : s.ring.run = .leaving)
    (done : s.ring.unacked = [] ∨ s.ring.since + 10000000 ≤ now s) :
    exec .ringLeavingDone s = .next (
      let leave (p : Port) (s : State) : State :=
        if (port s p).run = .active then sendBlockAll p 0xF0 (b1 0) s else s
      endLeaving (leave .w (leave .e s))) := by
  refine congrArg _ (if_neg ?_)
  rintro (other | ⟨waits, early⟩)
  · exact other leaves
  · exact done.elim waits (Nat.not_le.2 early)

/-! ### The roster -/

theorem exec_announceSend {s : State} (isMember : ringMember s = true)
    (due : ∀ x, s.ring.announcedAt = some x → x + syncNs s ≤ now s) :
    exec .announceSend s = .next (broadcast 1 2 (announcePayload s) (announcePayload s) { s with
      ring.announcedAt := some (now s), ring.aseq := (s.ring.aseq + 1) % 2 ^ 32 }) := by
  rw [exec, execAnnounceSend]
  cases last : s.ring.announcedAt with
  | none => simp [isMember]
  | some x => simp [isMember, due x last]

theorem exec_announceReceived {s s1 : State} {m : RingMessage} (arrived : takeInbox 1 2 s = some (m, s1))
    (isMember : ringMember s = true) (length : m.payload.length = 32) (other : u16 m.payload 0 ≠ ownNode s) :
    exec .announceReceived s = .next (takeAnnounce m s1) := by
  simp [exec, execAnnounceReceived, arrived, isMember, length, other]

theorem exec_rosterExpiry {n : BitVec 16} {s : State} {m : Member} (known : member s n.toNat = some m)
    (silent : m.seenAt + 3 * syncNs s ≤ now s) :
    exec (.rosterExpiry n) s = .next (rosterChanged (dropMember n.toNat s)) := by
  simp [exec, execRosterExpiry, known, silent]

/-! ### SYNC -/

theorem exec_syncSend {s : State} (may : maySync s = true)
    (due : s.ring.sending = true → s.ring.syncSentAt + 1000 * s.ring.cfg.syncPeriod ≤ now s) :
    exec .syncSend s = .next (
      let es := syncEntries s
      let p := masterPhase (match ownEntry s es with
        | some e => e.keepOut
        | none => 0) s
      let s1 : State :=
        { s with
          ring.sseqSent := nextSseq s
          ring.phase := some p
          ring.entries := es
          ring.sending := true
          ring.syncSentAt := now s
          ring.syncPeriod := s.ring.cfg.syncPeriod
          ring.rateMismatch := false }
      sendSync 1 (syncPayload s1 es p) p (sendSync 0 (syncPayload s1 es p) p (takeBlock es s1))) := by
  refine congrArg _ (if_neg ?_)
  cases sends : s.ring.sending with
  | false => simp [may]
  | true => simp [may, due sends]

theorem exec_syncReceived_other {s s1 : State} {m : RingMessage} (arrived : takeInbox 1 1 s = some (m, s1))
    (isMember : ringMember s = true) (other : m.src ≠ ownNode s) : exec .syncReceived s = .next (takeSync m s1) := by
  simp [exec, execSyncReceived, arrived, isMember, other]

theorem exec_syncReceived_own {s s1 : State} {m : RingMessage} (arrived : takeInbox 1 1 s = some (m, s1))
    (isMember : ringMember s = true) (own : m.src = ownNode s) (sends : s.ring.sending = true) :
    exec .syncReceived s = .next (syncReturned m s1) := by
  simp [exec, execSyncReceived, arrived, isMember, own, sends]

theorem exec_syncLost {s : State} {x : Nat} (heard : s.ring.syncAt = some x) (isMember : ringMember s = true)
    (listens : s.ring.sending = false) (silent : x + 4 * syncNs s ≤ now s) :
    exec .syncLost s = .next (logEv 0x0904 s.ring.master 0 0 { s with
      ring.syncAt := none, ring.syncRun := 0, ring.syncLost := sat32 (s.ring.syncLost + 1) }) := by
  simp [exec, execSyncLost, heard, isMember, listens, silent]

/-- Settles O59: each clause is what the event's own lemma says; where the device then stands is read off `ringPlace`. -/
theorem ringMembershipEvents : Obligations.RingMembershipEvents := by
  refine ⟨fun s x => exec_ringJoinTimeout_one, fun s joins none due => ?isolated, fun s isolated due may => ?retry,
    fun s => exec_ringLeavingDone, fun s => exec_announceSend, fun s s1 m => exec_announceReceived,
    fun n s m => exec_rosterExpiry, fun s may due => ?send,
    fun s s1 m arrived isMember => ⟨exec_syncReceived_other arrived isMember, exec_syncReceived_own arrived isMember⟩,
    fun s x => exec_syncLost⟩
  case isolated =>
    obtain ⟨run, bypass⟩ := Prod.mk.inj (ringPlace_standAlone .isolated s)
    exact ⟨_, exec_ringJoinTimeout_none joins none due, run, bypass⟩
  case retry =>
    obtain ⟨run, bypass⟩ := Prod.mk.inj (ringPlace_openBypass s)
    exact ⟨_, exec_ringIsolatedRetry isolated due may, run, bypass, run_openBypass .w s, run_openBypass .e s⟩
  case send => exact exec_syncSend may due

end Sys2Proof
end

section
/-! The commands of a Hod channel (O41; 15 R353, R354, R359, R362, R363, 21 R467): the registers the host writes, by the
channel's state, and the descriptors of a running channel. -/

namespace Sys2Proof

open Sys2Proof.Machine

/-! ### Registers of a channel -/

theorem exec_hodDoorbell {ch : Fin 8} {s : State} (served : bar0Served s = true) :
    exec (.hodDoorbell ch) s = .next (hodDoorbell ch.val s) := congrArg Host.Outcome.next (if_pos served)

theorem exec_hodAbort {ch : Fin 8} {s : State} (served : bar0Served s = true) :
    exec (.hodAbort ch) s = .next (hodAbort ch.val s) := congrArg Host.Outcome.next (if_pos served)

/-- The device's own channel counts the host's doorbells and aborts and does nothing else (15 R353). -/
theorem hodDoorbell_of_owned {ch : Nat} {s : State} (owned : (hod s ch).deviceOwned = true) :
    hodDoorbell ch s = hodIgnore ch s := if_pos owned

theorem hodAbort_of_owned {ch : Nat} {s : State} (owned : (hod s ch).deviceOwned = true) :
    hodAbort ch s = hodIgnore ch s := if_pos owned

theorem hodDoorbell_of_aborting {ch : Nat} {s : State} (state : (hod s ch).state = .aborting) :
    hodDoorbell ch s = hodIgnore ch s := by
  simp only [hodDoorbell, state, ite_self]

theorem hodAbort_of_aborting {ch : Nat} {s : State} (state : (hod s ch).state = .aborting) :
    hodAbort ch s = hodIgnore ch s := by
  simp only [hodAbort, state, ite_self]

/-- The registers of an idle channel take what is written; those of another keep their values (21 R467). -/
theorem exec_hodConfigWrite {ch : Fin 8} {s : State} (reg : HodReg) (v : BitVec 32) (served : bar0Served s = true) :
    exec (.hodConfigWrite ch reg v) s = .next (hodConfigWrite ch.val reg v.toNat s) :=
  congrArg Host.Outcome.next (if_pos served)

theorem hodConfigWrite_of_busy {ch v : Nat} {s : State} (reg : HodReg) (busy : (hod s ch).state ≠ .idle) :
    hodConfigWrite ch reg v s = s := if_pos busy

theorem hodConfigWrite_of_idle {ch : Nat} {s : State} (reg : HodReg) (v : Nat) (idle : (hod s ch).state = .idle) :
    hodConfigWrite ch reg v s = match reg with
      | .ctrl => modHod ch (fun x => { x with ctrl := v % 4 }) s
      | .firstLo => modHod ch (fun x => { x with first := x.first / 2 ^ 32 * 2 ^ 32 + v / 64 * 64 }) s
      | .firstHi => modHod ch (fun x => { x with first := x.first % 2 ^ 32 + 2 ^ 32 * v }) s
      | .skipLo => modHod ch (fun x => { x with skip := x.skip / 2 ^ 32 * 2 ^ 32 + v }) s
      | .skipHi => modHod ch (fun x => { x with skip := x.skip % 2 ^ 32 + 2 ^ 32 * v }) s := by
  unfold hodConfigWrite
  rw [if_neg (by simp [idle])]
  cases reg <;> rfl

/-! ### Descriptors -/

theorem hodActive_of_running {x : HodChannel} (running : x.state = .running) (host : x.deviceOwned = false) :
    hodActive x = true := by
  simp [hodActive, running, host]

theorem exec_hodDescriptorFetch {ch : Fin 8} {host : Option (List Byte)} {s : State} {a : Nat}
    (due : (hod s ch.val).fetch = some a) (running : (hod s ch.val).state = .running)
    (hosts : (hod s ch.val).deviceOwned = false) (inDram : bit (hod s ch.val).ctrl 0 = true → s.power.fatal = false)
    (inHost : bit (hod s ch.val).ctrl 0 = false → canMaster s = true) :
    exec (.hodDescriptorFetch ch host) s = .next (fetchDesc ch.val a host s) := by
  simp only [exec, execHodDescriptorFetch, due, hodActive_of_running running hosts]
  cases source : bit (hod s ch.val).ctrl 0 with
  | true => simp [inDram source]
  | false => simp [inHost source]

theorem exec_hodDescriptorComplete {ch : Fin 8} {host : List Byte} {re : Option (List Byte)} {s t : State} {d : HodDesc}
    (works : (hod s ch.val).desc = some d) (fetched : (hod s ch.val).fetch = none)
    (running : (hod s ch.val).state = .running) (hosts : (hod s ch.val).deviceOwned = false)
    (moves : hodStalled s d = false) (passes : advance ch.val d (elements d) host s = (none, t)) :
    exec (.hodDescriptorComplete ch host re) s =
      .next (afterDone ch.val d re (signalDone ch.val d (flushRead d t))) := by
  simp [exec, execHodDescriptorComplete, works, fetched, hodActive_of_running running hosts, moves, passes]

theorem exec_hodError_fetch {ch : Fin 8} {s : State} {a : Nat} (addr done : Nat) (host : List Byte)
    (due : (hod s ch.val).fetch = some a) (running : (hod s ch.val).state = .running)
    (hosts : (hod s ch.val).deviceOwned = false) (inHost : bit (hod s ch.val).ctrl 0 = false)
    (master : canMaster s = true) :
    exec (.hodError ch .descFetch addr done host) s = .next (hodFail ch.val .descFetch a s) := by
  simp [exec, execHodError, due, hodActive_of_running running hosts, inHost, master]

theorem exec_hodAbortDone_bare {ch : Fin 8} {s : State} (done : Nat) (host : List Byte)
    (aborting : (hod s ch.val).state = .aborting) (bare : (hod s ch.val).desc = none) :
    exec (.hodAbortDone ch done host) s = .next (modHod ch.val (fun x =>
      { x with state := .idle, fetch := none, desc := none, ordered := false, pending := false, startSkip := 0 }) s) := by
  simp [exec, execHodAbortDone, aborting, bare]

/-- Settles O41: each clause is its command's own lemma; what a doorbell or an abort does is read off the channel's state. -/
theorem hodChannelCommands : Obligations.HodChannelCommands := by
  refine ⟨fun ch s served host => ⟨fun state => ?idle, fun state => ?running, fun state => ?endHalt, fun state => ?error⟩,
    fun ch s served refuses => ?ignored, fun ch v s served idle => ?config, fun ch r v s served busy => ?kept,
    fun ch host s a => exec_hodDescriptorFetch, fun ch host re s t d => exec_hodDescriptorComplete,
    fun ch addr done host s a => exec_hodError_fetch addr done host, fun ch done host s => exec_hodAbortDone_bare done host⟩
  case idle | running | endHalt | error =>
    simp only [exec_hodDoorbell served, exec_hodAbort served, hodDoorbell, hodAbort, hodIgnore, host, state,
      Bool.false_eq_true, if_false, and_self]
  case ignored =>
    rw [exec_hodDoorbell served, exec_hodAbort served]
    rcases refuses with owned | aborting
    · rw [hodDoorbell_of_owned owned, hodAbort_of_owned owned]
      exact ⟨rfl, rfl⟩
    · rw [hodDoorbell_of_aborting aborting, hodAbort_of_aborting aborting]
      exact ⟨rfl, rfl⟩
  case config =>
    simp only [exec_hodConfigWrite _ v served, hodConfigWrite_of_idle _ v.toNat idle, and_self]
  case kept => rw [exec_hodConfigWrite r v served, hodConfigWrite_of_busy r busy]

end Sys2Proof
end

section
/-! The memory, log and run commands (O33; 11 R258, R259, 16 R381, R385, 18 R422): what each handler does once its guards
hold, and the payload checks that precede it. -/

namespace Sys2Proof

open Sys2Proof.Machine

/-! ### ECC_TABLE_CLEAR -/

theorem eccClear_all (s : State) :
    eccClear 1 s = ({ s with mem.ce := [], mem.overflow := 0 }, okWith (b4 s.mem.ce.length)) := rfl

/-- MODE 0 keeps what has not been cleared or has reappeared, and the overflow count (16 R385). -/
theorem eccClear_cleared (s : State) :
    eccClear 0 s = ({ s with mem.ce := s.mem.ce.filter (fun x => !(x.cleared && !x.reappeared)) },
      okWith (b4 (s.mem.ce.length - (s.mem.ce.filter (fun x => !(x.cleared && !x.reappeared))).length))) := rfl

/-- Both modes share their payload checks. -/
theorem applies_eccTableClear {good : JEntry → State → Prop} {eff : JEntry → State → State}
    {reply : JEntry → State → Reply} {mode : Nat} (known : mode < 2)
    (payload : ∀ e s, good e s → e.payload.length = 4 ∧ u8 e.payload 0 = mode ∧ allZero e.payload 1 3 = true)
    (does : ∀ e s, eccClear mode s = (eff e s, reply e s)) : Applies 0x0B03 .eccTableClear good eff reply := by
  refine applies_of_answered (fun _ _ => by rw [exec, execEccTableClear]) fun e s h => ?_
  obtain ⟨length, kind, reserved⟩ := payload e s h
  rw [checked_none (selector_none length (by omega) reserved), kind, does e s]

/-! ### ECC_TEST -/

theorem eccTest_encode {o : Origin} {p : Bytes} {s : State} (action : u8 p 1 = 0) :
    eccTest o p s =
      (s, okWith (b8 (u64 p 16) ++ b1 (encodeCheck (u8 p 0) (u64 p 16)) ++ b1 0 ++ b1 0 ++ b1 0xFF ++ b4 0)) := by
  simp only [eccTest, action]

theorem eccTest_write {o : Origin} {p : Bytes} {s : State} (action : u8 p 1 = 1) (target : u8 p 0 ≠ 1) :
    eccTest o p s = (writeTest (u8 p 0) (u8 p 2) (u64 p 8) (u64 p 16) (u8 p 24) s,
      okWith (b8 (u64 p 16) ++ b1 (u8 p 24) ++ b1 0 ++ b1 0 ++ b1 0xFF ++ b4 0)) := by
  simp only [eccTest, action, target, decide_false, Bool.false_and, Bool.false_eq_true, if_false]

theorem eccTest_read {o : Origin} {p : Bytes} {s : State} (action : u8 p 1 = 2) :
    eccTest o p s = readTest (u8 p 0) (u8 p 2) (u64 p 8) s := by
  simp only [eccTest, action]

/-- The three actions share their payload checks (16 Table MEM-6). -/
theorem applies_eccTest {good : JEntry → State → Prop} {eff : JEntry → State → State} {reply : JEntry → State → Reply}
    (does : ∀ e s, good e s → e.payload.length = 32 ∧ AllGood (eccTestFields s e.payload) ∧
      eccTest e.origin e.payload s = (eff e s, reply e s)) : Applies 0x0B04 .eccTest good eff reply := by
  refine applies_of_answered (fun _ _ => by rw [exec, execEccTest]) fun e s h => ?_
  obtain ⟨length, fields, action⟩ := does e s h
  rw [checked_none (fixedPayload_none length fields), action]

/-! ### RUN_ARM -/

theorem armRun_of_ready {s : State} (unarmed : s.mbx.armed = false) (free : blockers s = 0) :
    armRun s = (logEv 0x0D03 1 0 0 { s with mbx.armed := true }, okWith (blockersResult s)) :=
  (if_neg (by simp [unarmed])).trans (if_pos free)

theorem armRun_of_blocked {s : State} (unarmed : s.mbx.armed = false) (blocked : blockers s ≠ 0) :
    armRun s = (s, { status := 0x20, result := blockersResult s }) :=
  (if_neg (by simp [unarmed])).trans (if_neg blocked)

theorem armRun_of_armed {s : State} (armed : s.mbx.armed = true) : armRun s = (s, okWith (blockersResult s)) :=
  if_pos armed

theorem applies_runArm {good : JEntry → State → Prop} {eff : JEntry → State → State} {reply : JEntry → State → Reply}
    (does : ∀ e s, good e s → e.payload = [] ∧ armRun s = (eff e s, reply e s)) :
    Applies 0x0D04 .runArm good eff reply := by
  refine applies_of_answered (fun _ _ => by rw [exec, execRunArm]) fun e s h => ?_
  obtain ⟨bare, effect⟩ := does e s h
  rw [checked_none (bare_none bare), effect]

/-- Settles O33: each payload passes its checks, and what the handler then does is the stated effect and result. -/
theorem memoryLogAndRunCommands : Obligations.MemoryLogAndRunCommands := by
  refine ⟨applies_eccTableClear (by decide) (fun _ _ => id) fun _ => eccClear_all,
    applies_eccTableClear (by decide) (fun _ _ => id) fun _ => eccClear_cleared, applies_eccTest ?encode,
    applies_eccTest ?write, applies_eccTest ?read, ?setLimit, ?hostEvent, applies_runArm ?ready, applies_runArm ?blocked,
    applies_runArm ?armed, applies_of_bare fun _ _ => rfl⟩
  case encode =>
    rintro e s ⟨length, fields, action⟩
    exact ⟨length, fields, eccTest_encode action⟩
  case write =>
    rintro e s ⟨length, fields, action, target⟩
    exact ⟨length, fields, eccTest_write action target⟩
  case read =>
    rintro e s ⟨length, fields, action⟩
    exact ⟨length, fields, eccTest_read action⟩
  case setLimit =>
    refine applies_of_answered (fun _ _ => by rw [exec, execLogSetLimit]) fun e s good => ?_
    obtain ⟨length, known, rate, burst, reserved⟩ := good
    exact checked_none (fixedPayload_none length (by
      simp [allGood_cons, allGood_rsv, allGood_nil, known, rate, burst, reserved]))
  case hostEvent =>
    refine applies_of_answered (fun _ _ => by rw [exec, execLogHostEvent]) fun e s good => ?_
    obtain ⟨length, first, last, severity, reserved⟩ := good
    exact checked_none (fixedPayload_none length (by
      simp [allGood_cons, allGood_rsv, allGood_nil, within_iff, first, last, severity, reserved]))
  case ready =>
    rintro e s ⟨bare, unarmed, free⟩
    exact ⟨bare, armRun_of_ready unarmed free⟩
  case blocked =>
    rintro e s ⟨bare, unarmed, blocked⟩
    exact ⟨bare, armRun_of_blocked unarmed blocked⟩
  case armed =>
    rintro e s ⟨bare, armed⟩
    exact ⟨bare, armRun_of_armed armed⟩

end Sys2Proof
end

section
/-! The BAR2 window and register accesses (O38; 00 R11, 15 R344, R346, R347, 16 R368, R375, 21 R460, R470, R472): what each
access does once its guards hold. -/

namespace Sys2Proof

open Sys2Proof.Machine

/-! ### The window -/

theorem exec_winBaseLoWrite_narrow {s : State} (v : BitVec 32) (served : bar0Served s = true) :
    exec (.winBaseLoWrite v none) s = .next (writeWinLo v.toNat s) :=
  congrArg Host.Outcome.next (if_neg (by simp [served]))

/-- An 8-byte write sets both halves at once (15 R346). -/
theorem exec_winBaseLoWrite_wide {s : State} (v h : BitVec 32) (served : bar0Served s = true) :
    exec (.winBaseLoWrite v (some h)) s = .next (writeWinLo v.toNat (writeWinHi h.toNat s)) :=
  congrArg Host.Outcome.next (if_neg (by simp [served]))

/-- The window reaches no DRAM: past the usable capacity, or under a fatal fault (12 R286, 15 R347). -/
theorem refused_iff (a n : Nat) (s : State) :
    (s.power.fatal || decide (usable s < a + n)) = true ↔ s.power.fatal = true ∨ usable s < a + n := by
  simp

theorem exec_bar2Read {s : State} (off n : Nat) (served : bar0Served s = true) :
    exec (.bar2Read off n) s = .next (
      if s.power.fatal || decide (usable s < s.pcie.winBase + off + n) then emit .unsupported s
      else emit (.completion (dramRead (s.pcie.winBase + off) n s).1 (dramRead (s.pcie.winBase + off) n s).2.1)
        (dramRead (s.pcie.winBase + off) n s).2.2) := congrArg Host.Outcome.next (if_neg (by simp [served]))

theorem exec_bar2Write {s : State} (off : Nat) (bs : List Byte) (served : bar0Served s = true) :
    exec (.bar2Write off bs) s = .next (
      if s.power.fatal || decide (usable s < s.pcie.winBase + off + bs.length) then emit .aerUnsupported s
      else if allWritable s (s.pcie.winBase + off) bs.length then dramWrite (s.pcie.winBase + off) bs s
      else logEv 0x0B05 ((s.pcie.winBase + off) % 2 ^ 32) ((s.pcie.winBase + off) / 2 ^ 32) 0 { s with
        pcie.winProtected := sat32 (s.pcie.winProtected + 1) }) :=
  congrArg Host.Outcome.next (if_neg (by simp [served]))

/-! ### Registers -/

/-- A write outside payload SRAM is refused, or is one or two writes of 4 bytes (00 R11). -/
theorem exec_registerWrite_register {s : State} {off : Nat} {bs : List Byte} (answers : bar0Up s = true)
    (fits : off + bs.length ≤ 2 ^ 20) (outside : off < 0x40000 ∨ 0x80000 ≤ off)
    (shape : (bs.length = 4 ∨ bs.length = 8) ∧ off % bs.length = 0) :
    exec (.registerWrite off bs) s = .next (
      if bs.length = 4 then regWrite off (u32 bs 0) s
      else if off = 0xA0000 then regWrite off (u32 bs 0) (regWrite (off + 4) (u32 bs 4) s)
      else regWrite (off + 4) (u32 bs 4) (regWrite off (u32 bs 0) s)) := by
  have notSram : inPayload off = false := decide_eq_false (by omega)
  have good : badShape off bs.length = false := by
    have size : ¬(bs.length ≠ 4 ∧ bs.length ≠ 8) := by omega
    simp only [badShape, notSram, decide_eq_false size, shape.2, ne_eq, not_true_eq_false, decide_false, Bool.or_self,
      Bool.and_false]
  have taken : (!bar0Up s || decide (2 ^ 20 < off + bs.length)) = false := by
    rw [answers, decide_eq_false (Nat.not_lt.2 fits)]
    rfl
  simp only [exec, execRegisterWrite, taken, notSram, good, Bool.false_eq_true, if_false]

theorem exec_registerWrite_narrow {s : State} {off : Nat} {bs : List Byte} (answers : bar0Up s = true)
    (fits : off + 4 ≤ 2 ^ 20) (length : bs.length = 4) (aligned : off % 4 = 0)
    (outside : off < 0x40000 ∨ 0x80000 ≤ off) :
    exec (.registerWrite off bs) s = .next (regWrite off (u32 bs 0) s) := by
  rw [exec_registerWrite_register answers (by rwa [length]) outside ⟨.inl length, by rwa [length]⟩, if_pos length]

/-- The two halves of an 8-byte write, the lower address first (00 R11). -/
theorem exec_registerWrite_wide {s : State} {off : Nat} {bs : List Byte} (answers : bar0Up s = true)
    (fits : off + 8 ≤ 2 ^ 20) (length : bs.length = 8) (aligned : off % 8 = 0)
    (outside : off < 0x40000 ∨ 0x80000 ≤ off) (window : off ≠ 0xA0000) :
    exec (.registerWrite off bs) s = .next (regWrite (off + 4) (u32 bs 4) (regWrite off (u32 bs 0) s)) := by
  rw [exec_registerWrite_register answers (by rwa [length]) outside ⟨.inr length, by rwa [length]⟩,
    if_neg (by omega), if_neg window]

/-- Of WIN_BASE the high half goes first, so that both apply together (21 R461). -/
theorem exec_registerWrite_window {s : State} {bs : List Byte} (answers : bar0Up s = true) (length : bs.length = 8) :
    exec (.registerWrite 0xA0000 bs) s =
      .next (regWrite 0xA0000 (u32 bs 0) (regWrite 0xA0004 (u32 bs 4) s)) := by
  rw [exec_registerWrite_register answers (by omega) (by omega) ⟨.inr length, by rw [length]⟩, if_neg (by omega),
    if_pos rfl]

theorem exec_bar0BadAccess {s : State} {off n : Nat} (isWrite : Bool) (answers : bar0Up s = true)
    (outside : off < 0x40000 ∨ 0x80000 ≤ off) (bad : (n ≠ 4 ∧ n ≠ 8) ∨ off % n ≠ 0) :
    exec (.bar0BadAccess off n isWrite) s =
      .next (emit (if isWrite then .aerUnsupported else .unsupported) { s with pcie.badAccess := true }) := by
  have notSram : inPayload off = false := decide_eq_false (by omega)
  have refused : badShape off n = true := by simpa [badShape, notSram] using bad
  exact congrArg Host.Outcome.next (if_pos (by rw [answers, refused]; rfl))

/-! ### The latch and the time commands -/

theorem exec_hkLatch {s : State} (served : bar0Served s = true) :
    exec .hkLatch s = .next { s with hk.latchPending := true } := congrArg Host.Outcome.next (if_pos served)

theorem exec_timeLoadNow {s : State} (served : bar0Served s = true) :
    exec .timeLoadNow s = .next { s with time := loadTime s.time.set s.time } :=
  congrArg Host.Outcome.next (if_pos served)

theorem exec_timeLoadAtPps {s : State} (served : bar0Served s = true) :
    exec .timeLoadAtPps s = .next (
      if fromRing s then { s with pcie.timeCmdIgnored := true } else { s with time.loadPending := true }) :=
  congrArg Host.Outcome.next (if_neg (by simp [served]))

theorem exec_timeCancelLoad {s : State} (served : bar0Served s = true) :
    exec .timeCancelLoad s = .next { s with time.loadPending := false } := congrArg Host.Outcome.next (if_pos served)

/-- Settles O38: each clause is what the access's own lemma says; a BAR2 access reaches DRAM or is refused. -/
theorem windowsAndRegisterAccesses : Obligations.WindowsAndRegisterAccesses := by
  refine ⟨fun v s => exec_winBaseLoWrite_narrow v, fun v h s => exec_winBaseLoWrite_wide v h,
    fun off n s served sound fits => ?read, fun off bs s served sound fits => ⟨fun may => ?write, fun mayNot => ?kept⟩,
    fun off n bs s served => ⟨fun refused => ?noRead, fun refused => ?noWrite⟩,
    fun off bs s => exec_registerWrite_narrow, fun off bs s => exec_registerWrite_wide,
    fun bs s => exec_registerWrite_window, fun off n w s => exec_bar0BadAccess w, fun s => exec_hkLatch,
    fun s => exec_timeLoadNow, fun s served own => ?waits, fun s served ring => ?ignored, fun s => exec_timeCancelLoad⟩
  case read => rw [exec_bar2Read off n served, if_neg (by simp [sound, fits])]
  case write => rw [exec_bar2Write off bs served, if_neg (by simp [sound, fits]), if_pos may]
  case kept => rw [exec_bar2Write off bs served, if_neg (by simp [sound, fits]), if_neg (by simp [mayNot])]
  case noRead => rw [exec_bar2Read off n served, if_pos ((refused_iff ..).2 refused)]
  case noWrite => rw [exec_bar2Write off bs served, if_pos ((refused_iff ..).2 refused)]
  case waits => rw [exec_timeLoadAtPps served, if_neg (by simp [own])]
  case ignored => rw [exec_timeLoadAtPps served, if_pos ring]

end Sys2Proof
end

section
/-! The events of sensors and the log (O53; 17 R387, R390 to R392, R395, R398, R399, R405, 18 R412, R414, R415, R419, 21
R470): what each event does once its guards hold, and what a write of the NV ledger leaves unchanged. -/

namespace Sys2Proof

open Sys2Proof.Machine

/-! ### Writes of the NV ledger -/

/-- The states differ in the ledger's regions and wear, in the log and in the free values drawn alone. -/
def LedgerOnly (s t : State) : Prop :=
  ∃ regions wear wearLogged log free, t = { s with
    nv.regions := regions, nv.wear := wear, nv.wearLogged := wearLogged, log := log, free := free }

namespace LedgerOnly

theorem upd (s : State) (regions wear wearLogged log free) : LedgerOnly s { s with
    nv.regions := regions, nv.wear := wear, nv.wearLogged := wearLogged, log := log, free := free } :=
  ⟨regions, wear, wearLogged, log, free, rfl⟩

theorem refl (s : State) : LedgerOnly s s := upd ..

theorem trans {s t u : State} (h : LedgerOnly s t) (k : LedgerOnly t u) : LedgerOnly s u := by
  obtain ⟨_, _, _, _, _, rfl⟩ := h
  obtain ⟨_, _, _, _, _, rfl⟩ := k
  exact upd ..

theorem cond {c : Prop} [Decidable c] {s a b : State} (h : LedgerOnly s a) (k : LedgerOnly s b) :
    LedgerOnly s (if c then a else b) := by
  split
  · exact h
  · exact k

theorem logEv (code p0 p1 p2 : Nat) (s : State) : LedgerOnly s (logEv code p0 p1 p2 s) := by
  unfold Machine.logEv
  split
  · exact cond (refl s) (cond (upd ..) (upd ..))
  · exact refl s

theorem nvCycle (region : Nat) (s : State) : LedgerOnly s (nvCycle region s) :=
  cond (trans (t := nvStore 7 (4 * region) (b4 (tabGet 0 s.nv.wear region + 1)) { s with
    nv.wear := tabSet 0 s.nv.wear region (tabGet 0 s.nv.wear region + 1) }) (upd ..) (trans (upd ..) (logEv ..))) (upd ..)

theorem nvProgram (region off : Nat) (bs : Bytes) (s : State) : LedgerOnly s (nvProgram region off bs s).2 := by
  have drawn : LedgerOnly s (drawFree (Machine.nvCycle region s)).2 := (nvCycle region s).trans (upd ..)
  unfold Machine.nvProgram
  dsimp only
  split
  · exact drawn
  · exact drawn.trans (upd ..)

theorem nvWrite (region off : Nat) (bs : Bytes) (s : State) : LedgerOnly s (nvWrite region off bs s).2 := by
  have first := nvProgram region off bs s
  have second := first.trans (nvProgram region off bs _)
  unfold Machine.nvWrite
  dsimp only
  split
  · exact first
  · split
    · exact second
    · dsimp only
      exact second.trans (logEv ..)

end LedgerOnly

/-! ### Housekeeping -/

theorem exec_hkConversion {s : State} (code : Int) (ov brk : Bool) (powered : s.power.main = true)
    (idle : s.hk.cal = none) (slot : s.hk.slot < 36) (due : s.hk.roundAt + 1000 * (s.hk.slot + 1) ≤ now s) :
    exec (.hkConversion code ov brk) s = .next (feedHk s.hk.slot (satS 16 code)
      (convertSlot s.hk.slot (satS 16 code) ov brk { s with hk.slot := s.hk.slot + 1 })) :=
  congrArg Host.Outcome.next (if_neg (by simp [powered, idle, slot, due]))

theorem exec_hkRoundBoundary {s : State} (powered : s.power.main = true) (idle : s.hk.cal = none)
    (whole : 36 ≤ s.hk.slot) (due : s.hk.roundAt + 36000 ≤ now s) :
    exec .hkRoundBoundary s = .next (forUpto 36 applyHk (latchReads { s with
      hk.round := (s.hk.round + 1) % 2 ^ 32, hk.slot := 0, hk.roundAt := s.hk.roundAt + 36000 })) :=
  congrArg Host.Outcome.next (if_neg (by simp [powered, idle, whole, due]))

/-- The calibration has ended with factors in its bounds, which replace the old (17 R395). -/
def recalibrated (o : Int) (g : Nat) (cs : List Nat) (began : Nat) (s : State) : State :=
  { s with
    hk.cal := none, hk.roundAt := s.hk.roundAt + (now s - began)
    hk.uncal := false, hk.offset := o, hk.gain := g, hk.currents := (List.range 48).map (nth cs) }

theorem exec_hkCalDone_good {s : State} {o : Int} {g : Nat} {cs : List Nat} {j x : Nat} (runs : s.hk.cal = some (j, x))
    (powered : s.power.main = true) (due : x + 12000000 ≤ now s) (zero : 50 * o.natAbs ≤ 32768 * 256)
    (gain : 50 * ((g : Int) - 2 ^ 30).natAbs ≤ 2 ^ 30) (currents : currentsOk cs = true) :
    ∃ r, exec (.hkCalDone o g cs) s = .next (finish j r (recalibrated o g cs x s)) := by
  have good : (decide (50 * o.natAbs ≤ 32768 * 256) && decide (50 * ((g : Int) - 2 ^ 30).natAbs ≤ 2 ^ 30) &&
      currentsOk cs) = true := by
    rw [decide_eq_true zero, decide_eq_true gain, currents]
    rfl
  have ended : (!s.power.main || decide (now s < x + 12000000)) = false := by
    rw [powered, decide_eq_false (Nat.not_lt.2 due)]
    rfl
  simp only [exec, execHkCalDone, runs, ended, good, Bool.false_eq_true, if_true, if_false]
  exact ⟨_, rfl⟩

theorem ReportsOnly.hk {s t : State} (h : ReportsOnly s t) : t.hk = s.hk := by
  obtain ⟨_, _, _, _, _, _, rfl⟩ := h
  rfl

/-! ### Temperatures -/

theorem exec_tempReading {ts : Fin 12} {s : State} (r : Option Int) (powered : s.power.main = true)
    (read : notRead s ts.val = false) (due : (sensor s ts.val).readAt = 0 ∨
      (sensor s ts.val).readAt + (if (sensor s ts.val).fast then 250000 else 10000000) ≤ now s) :
    exec (.tempReading ts r) s = .next (readSensor ts.val r s) := by
  refine congrArg Host.Outcome.next ((if_neg (by simp [powered, read])).trans (if_neg ?_))
  rintro ⟨notFirst, early⟩
  exact due.elim notFirst (Nat.not_le.2 early)

theorem exec_thRateMark {s : State} (powered : s.power.main = true) (due : s.th.markAt + 10000000 ≤ now s) :
    exec .thRateMark s = .next (forUpto 12 rateMark { s with th.markAt := now s }) :=
  congrArg Host.Outcome.next (if_neg (by simp [powered, due]))

/-- With die A down the shutdown entry is written at the next of its places (17 R405). -/
theorem exec_thShutdownEntry {s : State} {e : ShutdownEntry} (waits : s.th.entry = some e)
    (down : s.power.dieA = false) :
    ∃ t, exec .thShutdownEntry s = .next t ∧ t.th.entry = none ∧ t.nv.thermalNext = (s.nv.thermalNext + 1) % 128 := by
  obtain ⟨_, _, _, _, _, written⟩ := LedgerOnly.nvWrite 5 (16 * (s.nv.thermalNext % 128)) (shutdownBytes e s)
    { s with th.entry := none }
  simp only [exec, execThShutdownEntry, waits, down, Bool.false_eq_true, if_false, written]
  exact ⟨_, rfl, rfl, rfl⟩

/-! ### The log -/

theorem exec_logWrite {s : State} (powered : s.power.main = true) : exec .logWrite s = .next (writeNext s) :=
  congrArg Host.Outcome.next (if_pos powered)

/-- The loss of events is noted first, once the queue has room (18 R412). -/
theorem writeNext_of_lost {s : State} (lost : 0 < s.log.lost) (room : s.log.queue.length < 64) :
    writeNext s = storeRecord (queueLost s) 0 { s with log.lost := 0 } := if_pos ⟨lost, room⟩

theorem writeNext_of_queued {s : State} {e : LogEvent} {rest : List LogEvent} (kept : s.log.lost = 0)
    (queued : s.log.queue = e :: rest) : writeNext s = storeEvent e { s with log.queue := rest } := by
  rw [writeNext, if_neg (by simp [kept]), queued]

theorem storeEvent_of_unlimited {e : LogEvent} {s : State} (free : unlimited e.code = true) :
    storeEvent e s = storeRecord e 0 s := if_pos free

theorem exec_hoursTick {s : State} (powered : s.power.main = true) :
    exec .hoursTick s = .next (
      if (s.nv.hours + 1) % 2 ^ 32 % 64 = 0 then writeCounters { s with nv.hours := (s.nv.hours + 1) % 2 ^ 32 }
      else { s with nv.hours := (s.nv.hours + 1) % 2 ^ 32 }) := congrArg Host.Outcome.next (if_neg (by simp [powered]))

/-- Settles O53: each clause is what the event's own lemma says; what completing a calibration leaves, `ReportsOnly`. -/
theorem sensorAndLogEvents : Obligations.SensorAndLogEvents := by
  refine ⟨fun code ov brk s => exec_hkConversion code ov brk, fun s => exec_hkRoundBoundary,
    fun o g cs s j x runs powered due zero gain currents => ?calibrated, fun ts r s => exec_tempReading r,
    fun s => exec_thRateMark, fun s e => exec_thShutdownEntry, fun s powered lost room => ?lost,
    fun s e rest powered kept queued free => ?stored, fun c s => rfl, fun s powered other => ?hour,
    fun s powered sixtyFourth => ?saved⟩
  case calibrated =>
    obtain ⟨r, effect⟩ := exec_hkCalDone_good runs powered due zero gain currents
    refine ⟨_, effect, ?_⟩
    rw [(ReportsOnly.finish ..).hk]
    exact ⟨rfl, rfl, rfl, rfl, rfl⟩
  case lost => rw [exec_logWrite powered, writeNext_of_lost lost room]
  case stored =>
    rw [exec_logWrite powered, writeNext_of_queued kept queued, storeEvent_of_unlimited free]
    rfl
  case hour => rw [exec_hoursTick powered, if_neg (by omega)]
  case saved => rw [exec_hoursTick powered, if_pos (by omega)]

end Sys2Proof
end

section
/-! The boot of die B (O42; 12 R273, 19 R430 to R433, R435): the ROM's choice of an image, host load, and the first report of
Sornor. -/

namespace Sys2Proof

open Sys2Proof.Machine

/-! ### The boot ROM -/

/-- The straps as the ROM finds them (19 R430). -/
def bootStraps (sel : BitVec 2) (s : State) : Nat := if s.power.selDue then sel.toNat else s.power.bootSel

/-- The state with its straps taken. -/
def strapped (sel : BitVec 2) (s : State) : State :=
  { s with power.bootSel := bootStraps sel s, power.selDue := false }

theorem exec_bootRomStart {s : State} (sel : BitVec 2) (powered : s.power.main = true) (rom : s.power.phase = .rom) :
    exec (.bootRomStart sel) s = .next (
      match chooseImage (strapped sel s) (bootStraps sel s) with
      | some k => { strapped sel s with
          power.phase := .started, power.image := k, power.startedAt := now s, power.loaded := [], power.chunks := 0 }
      | none => enterHostLoad (strapped sel s)) := by
  rw [exec, execBootRomStart, if_neg (by simp [powered, rom])]
  rfl

theorem exec_bootRomStart_image {s : State} {sel : BitVec 2} {k : Nat} (powered : s.power.main = true)
    (rom : s.power.phase = .rom) (chosen : chooseImage (strapped sel s) (bootStraps sel s) = some k) :
    exec (.bootRomStart sel) s = .next { strapped sel s with
      power.phase := .started, power.image := k, power.startedAt := now s, power.loaded := [], power.chunks := 0 } := by
  rw [exec_bootRomStart sel powered rom, chosen]

theorem exec_bootRomStart_none {s : State} {sel : BitVec 2} (powered : s.power.main = true) (rom : s.power.phase = .rom)
    (none : chooseImage (strapped sel s) (bootStraps sel s) = none) :
    exec (.bootRomStart sel) s = .next (enterHostLoad (strapped sel s)) := by
  rw [exec_bootRomStart sel powered rom, none]

/-! ### Host load -/

/-- A chunk that fits is taken from the start of payload SRAM (19 R433). -/
theorem bootChunk_of_fitting {s : State} {v : Nat} (waits : s.power.phase = .hostWait) (some : v % 2 ^ 18 ≠ 0)
    (fits : s.power.loaded.length + v % 2 ^ 18 ≤ 2 ^ 23) :
    bootChunk v s = { (sramRead (v % 2 ^ 18) 0 s).2.2 with
      power.loaded := s.power.loaded ++ (sramRead (v % 2 ^ 18) 0 s).1, power.chunks := min 255 (s.power.chunks + 1)
      power.phase := if bit v 31 then .hostVerify else .hostWait } := by
  unfold bootChunk
  dsimp only
  rw [if_neg (not_or.2 ⟨not_not.2 waits, some⟩), if_neg (Nat.not_lt.2 fits)]

theorem exec_idBootChunk {s : State} (v : BitVec 32) (answers : bar0Up s = true) :
    exec (.idBootChunk v) s = .next (bootChunk v.toNat s) := congrArg Host.Outcome.next (if_pos answers)

theorem exec_idBootReset {s : State} (answers : bar0Up s = true) (hostLoad : inHostLoad s = true) :
    exec .idBootReset s = .next { s with power.loaded := [], power.chunks := 0, power.phase := .hostWait } :=
  congrArg Host.Outcome.next ((if_pos answers).trans (if_pos hostLoad))

theorem exec_hostLoadVerifyDone {s : State} (answers : bar0Up s = true) (verifies : s.power.phase = .hostVerify) :
    exec .hostLoadVerifyDone s = .next
      (if verdict (Config.imageVerdict s.power.loaded) (Config.imageSvn s.power.loaded) s.power.minSvn = 0 then
        { s with power.phase := .started, power.image := 2, power.startedAt := now s }
      else { s with power.phase := .hostReject }) :=
  congrArg Host.Outcome.next (if_neg (by simp [answers, verifies]))

/-! ### The first report of Sornor -/

theorem exec_fwReady {s : State} (a b : Nat) (x : JournalBad) (powered : s.power.main = true)
    (started : s.power.phase = .started) (inTime : now s ≤ s.power.startedAt + 400000000) :
    exec (.fwReady a b x) s = .next (
      if !journalHeld x s then fatalFault 1 (readJournal a b s)
      else if s.power.restartAt.isSome then restartDone (readJournal a b s)
      else bootDone (readJournal a b s)) := by
  rw [exec, execFwReady, if_neg (by simp [powered, started, inTime])]

theorem exec_fwReadyTimeout {s : State} (powered : s.power.main = true) (sound : s.power.fatal = false)
    (started : s.power.phase = .started) (due : s.power.startedAt + 400000000 ≤ now s) :
    exec .fwReadyTimeout s = .next (
      if s.power.restartAt.isSome then fatalFault 3 s
      else if s.power.image = 2 then enterHostLoad s
      else { s with power.failed := setBit s.power.failed s.power.image, power.phase := .rom }) := by
  rw [exec, execFwReadyTimeout, if_neg (by simp [powered, sound, started, due])]

theorem exec_cpRestart {s : State} (lock : Bool) (runs : sornor s = true) :
    exec (.cpRestart lock) s = .next (restartCp lock s) := by
  rw [exec, execCpRestart, if_pos runs]

/-- Settles O42: each clause is what the command's own lemma says, by whether Sornor has started anew or restarted. -/
theorem bootCommands : Obligations.BootCommands := by
  refine ⟨fun sel s powered rom => ⟨fun k => exec_bootRomStart_image powered rom, exec_bootRomStart_none powered rom⟩,
    fun v s answers waits some fits => ?chunk, fun s => exec_idBootReset, fun s => exec_hostLoadVerifyDone,
    fun a b x s powered started inTime => ⟨fun held boots => ?booted, fun held restarts => ?restarted, fun lost => ?lost⟩,
    fun s powered sound started due => ⟨fun boots flash => ?failed, fun boots loaded => ?askAgain, fun restarts => ?fatal⟩,
    fun lock s => exec_cpRestart lock⟩
  case chunk =>
    rw [exec_idBootChunk v answers, bootChunk_of_fitting waits some fits]
    rfl
  case booted => rw [exec_fwReady a b x powered started inTime, if_neg (by simp [held]), if_neg (by simp [boots])]
  case restarted => rw [exec_fwReady a b x powered started inTime, if_neg (by simp [held]), if_pos restarts]
  case lost => rw [exec_fwReady a b x powered started inTime, if_pos (by simp [lost])]
  case failed =>
    rw [exec_fwReadyTimeout powered sound started due, if_neg (by simp [boots]), if_neg flash]
  case askAgain =>
    rw [exec_fwReadyTimeout powered sound started due, if_neg (by simp [boots]), if_pos loaded]
    rfl
  case fatal => rw [exec_fwReadyTimeout powered sound started due, if_pos restarts]

end Sys2Proof
end

section
/-! Supplies and resets (O43; 08 R176, 10 R223, 12 R278, R279, R283 to R285, 15 R351, 19 R424, R425): what each command does
once its guards hold, what a loss of power leaves of die A, and what a power-up finds in the Emission Supervisor. -/

namespace Sys2Proof

open Sys2Proof.Machine

/-! ### What keeps the power state -/

theorem power_cond {c : Prop} [Decidable c] {a b : State} {x : PowerState} (h : a.power = x) (k : b.power = x) :
    (if c then a else b).power = x := by
  split
  · exact h
  · exact k

theorem LedgerOnly.power {s t : State} (h : LedgerOnly s t) : t.power = s.power := by
  obtain ⟨_, _, _, _, _, rfl⟩ := h
  rfl

theorem cutPulses_power (s : State) : (cutPulses s).power = s.power := by
  refine forUpto_field State.power (fun c u => forEach_field State.power (fun fl v => ?_) _ u) s
  split
  · rfl
  · exact power_cond rfl rfl

theorem esDeny_power (s : State) : (esDeny s).power = s.power := power_cond (cutPulses_power _) rfl

theorem pauseDelivery_power (s : State) : (pauseDelivery s).power = s.power := by
  refine forUpto_field State.power (fun _ _ => ?_) s
  exact power_cond rfl rfl

/-! #### The ring -/

theorem dropLink_power (p : Port) (run : PortRun) (s : State) : (dropLink p run s).power = s.power := by
  unfold dropLink idleLanes dropHeld
  dsimp only
  rw [modPort_power, forEach_field State.power fun _ _ => modLane_power ..,
    forEach_field State.power fun _ _ => (ReportsOnly.returnCredit ..).power, modPort_power]

theorem dropMember_power (n : Nat) (s : State) : (dropMember n s).power = s.power := by
  unfold dropMember
  split <;> rfl

/-- A new master is logged and raises its interrupt (13 R293). -/
theorem masterChanged_power (old new : Nat) (s : State) :
    (raiseIrq 13 (logEv 0x0903 old new 0 (e2ePathChange s))).power = s.power := by
  have sent : (e2ePathChange s).power = s.power := by
    refine (forEach_field State.power (fun _ _ => ?_) _ _).trans rfl
    exact (ReportsOnly.forwardOn ..).power
  exact ((ReportsOnly.logEv ..).trans (.raiseIrq ..)).power.trans sent

theorem updateMaster_power (s : State) : (updateMaster s).power = s.power := by
  unfold updateMaster
  refine power_cond rfl (power_cond ?_ ((pauseDelivery_power _).trans ?_)) <;>
  exact masterChanged_power ..

theorem standAlone_power (r : RingRun) (s : State) : (standAlone r s).power = s.power := by
  unfold standAlone
  dsimp only
  rw [updateMaster_power]
  dsimp only
  rw [forEach_field State.power dropMember_power, dropLink_power, dropLink_power]
  rfl

theorem persistRing_power (s : State) : (persistRing s).power = s.power := (LedgerOnly.nvWrite ..).power

theorem resetRing_power (s : State) : (resetRing s).power = s.power :=
  power_cond (power_cond ((persistRing_power _).trans (standAlone_power ..)) (standAlone_power ..)) (standAlone_power ..)

/-! ### Die A without power -/

theorem resetCapture_power (s : State) : (resetCapture s).power = s.power := by
  refine forUpto_field State.power (fun u v => ?_) s
  refine (forEach_field State.power (fun _ _ => ?_) _ _).trans rfl
  exact (ReportsOnly.finish ..).power

theorem failCapture_power (s : State) : (failCapture s).power = s.power := by
  unfold failCapture
  split
  · exact (ReportsOnly.finish ..).power
  · rfl

theorem mortarDown_power (s : State) : (mortarDown s).power = s.power := by
  refine (forUpto_field State.power (fun _ _ => ?_) _).trans rfl
  rfl

/-- Die A is down once it has lost its power (12 R275). -/
theorem unpowerDieA_dieA (s : State) : (unpowerDieA s).power.dieA = false := by
  unfold unpowerDieA
  dsimp only
  rw [mortarDown_power, mirrorDown, resetCapture_power, failCapture_power]
  rfl

theorem freshDieA_dieA (s : State) : (freshDieA s).power.dieA = s.power.dieA := rfl

theorem resetDieB_dieA (s : State) : (resetDieB s).power.dieA = s.power.dieA := by
  unfold resetDieB
  dsimp only
  rw [resetRing_power, parkDram, pauseDelivery_power]
  rfl

/-! ### Denial -/

theorem esDeny_es (s : State) : (esDeny s).es = { s.es with permit := false } := congrArg GateView.es (gateView_esDeny s)

theorem esDeny_granted (s : State) : (esDeny s).shot.granted = false := congrArg GateView.granted (gateView_esDeny s)

theorem exec_railWarning_main {s : State} (powered : s.power.main = true) : exec .railWarning s = .next (loseMain s) :=
  congrArg Host.Outcome.next (if_pos powered)

theorem exec_railWarning_rails {s : State} (lost : s.power.main = false) (rails : s.power.rails = true) :
    exec .railWarning s = .next (loseRails s) :=
  congrArg Host.Outcome.next ((if_neg (by simp [lost])).trans (if_pos rails))

/-- Main power is gone: die A and the Emission Supervisor are down, and emission is denied (12 R283). -/
theorem loseMain_denies (s : State) :
    (loseMain s).power.main = false ∧ (loseMain s).power.rails = false ∧ (loseMain s).power.warning = true ∧
      (loseMain s).power.dieA = false ∧ (loseMain s).es.permit = false ∧ (loseMain s).es.powered = false ∧
        (loseMain s).shot.granted = false := by
  unfold loseMain
  dsimp only
  rw [esDeny_power, esDeny_es, esDeny_granted, resetDieB_dieA, freshDieA_dieA, unpowerDieA_dieA]
  exact ⟨rfl, rfl, rfl, rfl, rfl, rfl, rfl⟩

theorem loseRails_denies (s : State) :
    (loseRails s).power.rails = false ∧ (loseRails s).es.permit = false ∧ (loseRails s).es.powered = false ∧
      (loseRails s).shot.granted = false := by
  unfold loseRails
  dsimp only
  rw [esDeny_es, esDeny_granted]
  exact ⟨rfl, rfl, rfl, rfl⟩

/-! ### VKA -/

theorem exec_vkaLoss {s : State} (powered : s.power.vka = true) : exec .vkaLoss s = .next (vkaDefaults (cutPulses s)) :=
  congrArg Host.Outcome.next (if_pos powered)

/-- An event waits alone in a log writer's queue that was empty. -/
theorem logPush_of_empty {sev src code p0 p1 p2 : Nat} {s : State} (powered : s.power.main = true)
    (empty : s.log.queue = []) : (logPush sev src code p0 p1 p2 s).log.queue.length = 1 := by
  rw [logPush, if_neg (by simp [powered]), if_neg (by simp [empty]), empty]
  rfl

/-- The device as VKA finds it: at its defaults, with the first event of its log to come (12 R285). -/
def poweredUp (s : State) : State :=
  { loadCounters (vkaDefaults s) with power.vka := true, power.resets := 1, power.main := true }

theorem exec_vkaPowerup {s : State} (absent : s.power.vka = false) :
    exec .vkaPowerup s = .next { logEv 0x0101 (loadCounters (vkaDefaults s)).nv.pcycles 0 0 (poweredUp s) with
      power.main := false } := by
  rw [exec, execVkaPowerup, if_neg (by simp [absent])]
  rfl

theorem vkaDefaults_out {s : State} (down : s.power.dieA = false) : (vkaDefaults s).out = s.out := by
  simp only [vkaDefaults, down, Bool.false_eq_true, if_false]

theorem logPush_out (sev src code p0 p1 p2 : Nat) (s : State) : (logPush sev src code p0 p1 p2 s).out = s.out := by
  simp only [logPush, apply_ite State.out, ite_self]

/-- The event VKA_POWERUP waits alone; what the log writer's queue has no part of is as the defaults leave it. -/
theorem vkaPowerup_spec {s : State} (absent : s.power.vka = false) :
    ∃ t, exec .vkaPowerup s = .next t ∧ t.power.vka = true ∧ t.power.main = false ∧ t.power.resets = 1 ∧
      t.es = { s.es with unlocked := none } ∧ (s.power.dieA = false → t.out = s.out) ∧ t.mbx.session = false ∧
        t.log.queue.length = 1 := by
  have logged := ReportsOnly.logEv 0x0101 (loadCounters (vkaDefaults s)).nv.pcycles 0 0 (poweredUp s)
  refine ⟨_, exec_vkaPowerup absent, ?_, rfl, ?_, logged.es.trans rfl, fun down => ?_, ?_,
    logPush_of_empty (s := poweredUp s) rfl rfl⟩
  · dsimp only
    rw [logged.power]
    rfl
  · dsimp only
    rw [logged.power]
    rfl
  · exact (logPush_out ..).trans (vkaDefaults_out down)
  · dsimp only
    rw [logEv_mbx]
    rfl

/-! ### The Emission Supervisor at its power-on -/

/-- In TRIPPED more causes may come, and nothing else changes; none goes. -/
def CausesAdded (s t : State) : Prop :=
  ∃ present latched first, t = { s with es.present := present, es.latched := latched, es.first := first } ∧
    ∀ k, bit s.es.present k = true → bit present k = true

theorem CausesAdded.refl (s : State) : CausesAdded s s := ⟨_, _, _, rfl, fun _ => id⟩

theorem CausesAdded.trans {s t u : State} (h : CausesAdded s t) (k : CausesAdded t u) : CausesAdded s u := by
  obtain ⟨_, _, _, rfl, keeps⟩ := h
  obtain ⟨present, latched, first, rfl, keepsToo⟩ := k
  exact ⟨present, latched, first, rfl, fun i held => keepsToo i (keeps i held)⟩

theorem CausesAdded.esArise {s : State} (c : Nat) (powered : s.es.powered = true) (run : s.es.run = .tripped) :
    CausesAdded s (esArise c s) := by
  by_cases absent : bit s.es.present c = false
  · rw [esArise_of_tripped powered absent run]
    exact ⟨_, _, _, rfl, fun k held => by rw [bit_foldl_setBit, held, Bool.true_or]⟩
  · rw [Machine.esArise, if_pos (by simp [Bool.eq_true_of_not_eq_false absent])]
    exact .refl s

theorem CausesAdded.bit {s t : State} {k : Nat} (h : CausesAdded s t) (held : Machine.bit s.es.present k = true) :
    Machine.bit t.es.present k = true := by
  obtain ⟨_, _, _, rfl, keeps⟩ := h
  exact keeps k held

/-- What is no cause stays (10 R215). -/
theorem CausesAdded.frame {s t : State} (h : CausesAdded s t) :
    t.es.powered = s.es.powered ∧ t.es.run = s.es.run ∧ t.es.permit = s.es.permit ∧ t.es.cfg = s.es.cfg ∧
      t.es.changelog = s.es.changelog ∧ t.es.unlocked = s.es.unlocked ∧ t.shot = s.shot := by
  obtain ⟨_, _, _, rfl, -⟩ := h
  exact ⟨rfl, rfl, rfl, rfl, rfl, rfl, rfl⟩

/-- A cause that is raised or not. -/
theorem CausesAdded.cond {s : State} {good : Prop} [Decidable good] (c : Nat) (powered : s.es.powered = true)
    (run : s.es.run = .tripped) : CausesAdded s (if good then s else Machine.esArise c s) := by
  split
  · exact refl s
  · exact esArise c powered run

/-- The supervisor as its power-on leaves it: all afresh but what the NV ledger holds, with POWERUP present, and
UNCONFIGURED where nothing is committed (10 R223). -/
def freshEs (selfTestOk valid : Bool) (e : EsState) : EsState :=
  { powered := true, present := bitmap [true, !e.committed], cfg := e.cfg, crc := crc32 (configBytes e.cfg)
    committed := e.committed, nvCopy := e.nvCopy, selftestOk := selfTestOk, loaded := valid
    passwords := e.passwords, firstSet := e.firstSet, changelog := e.changelog, entry := e.entry, permit := e.permit }

/-- The state with a supervisor that has just been powered and denies. -/
def deniedFresh (ok valid : Bool) (s : State) : State := esDeny { s with es := freshEs ok valid s.es }

/-- The same with CRC_FAIL where the configuration's CRC differs from the one stored. -/
def crcChecked (ok valid : Bool) (s : State) : State :=
  if valid then deniedFresh ok valid s else esArise 6 (deniedFresh ok valid s)

theorem exec_esPowerOn {s : State} (ok : Bool) (crc : BitVec 32) (vka : s.power.vka = true)
    (off : s.es.powered = false) :
    exec (.esPowerOn ok crc) s = .next (
      if ok then crcChecked ok (decide (crc.toNat = crc32 (configBytes s.es.cfg))) s
      else esArise 7 (crcChecked ok (decide (crc.toNat = crc32 (configBytes s.es.cfg))) s)) := by
  rw [exec, execEsPowerOn, if_neg (by simp [vka, off])]
  rfl

theorem deniedFresh_es (ok valid : Bool) (s : State) :
    (deniedFresh ok valid s).es = { freshEs ok valid s.es with permit := false } := esDeny_es _

theorem crcChecked_added (ok valid : Bool) (s : State) : CausesAdded (deniedFresh ok valid s) (crcChecked ok valid s) :=
  .cond 6 (congrArg EsState.powered (deniedFresh_es ok valid s)) (congrArg EsState.run (deniedFresh_es ok valid s))

theorem crcChecked_powered (ok valid : Bool) (s : State) : (crcChecked ok valid s).es.powered = true :=
  (crcChecked_added ok valid s).frame.1.trans (congrArg EsState.powered (deniedFresh_es ok valid s))

theorem crcChecked_run (ok valid : Bool) (s : State) : (crcChecked ok valid s).es.run = .tripped :=
  (crcChecked_added ok valid s).frame.2.1.trans (congrArg EsState.run (deniedFresh_es ok valid s))

/-- A supervisor that is powered is TRIPPED, denies and is locked, with its causes present (10 R223). -/
theorem esPowerOn_spec {s : State} (ok : Bool) (crc : BitVec 32) (vka : s.power.vka = true)
    (off : s.es.powered = false) :
    ∃ t, exec (.esPowerOn ok crc) s = .next t ∧ t.es.powered = true ∧ t.es.permit = false ∧ t.shot.granted = false ∧
      t.es.run = .tripped ∧ bit t.es.present 0 = true ∧ (s.es.committed = false → bit t.es.present 1 = true) ∧
      (crc.toNat ≠ crc32 (configBytes s.es.cfg) → bit t.es.present 6 = true) ∧
      (ok = false → bit t.es.present 7 = true) ∧
      t.es.cfg = s.es.cfg ∧ t.es.changelog = s.es.changelog ∧ t.es.unlocked = none := by
  refine ⟨_, exec_esPowerOn ok crc vka off, ?_⟩
  generalize isValid : decide (crc.toNat = crc32 (configBytes s.es.cfg)) = valid
  have tested : CausesAdded (crcChecked ok valid s)
      (if ok then crcChecked ok valid s else esArise 7 (crcChecked ok valid s)) :=
    .cond 7 (crcChecked_powered ok valid s) (crcChecked_run ok valid s)
  have all := (crcChecked_added ok valid s).trans tested
  have present : (deniedFresh ok valid s).es.present = bitmap [true, !s.es.committed] := by rw [deniedFresh_es]; rfl
  obtain ⟨powered, run, permit, cfg, changelog, unlocked, shot⟩ := all.frame
  rw [deniedFresh_es] at powered run permit cfg changelog unlocked
  refine ⟨powered, permit, ?_, run, all.bit ?_, fun none => all.bit ?_, fun differs => tested.bit ?_, fun failed => ?_,
    cfg, changelog, unlocked⟩
  · rw [shot]
    exact esDeny_granted _
  · rw [present, bit, testBit_bitmap]
    rfl
  · rw [present, bit, testBit_bitmap, none]
    rfl
  · rw [crcChecked, if_neg (by simp [← isValid, differs])]
    exact bit_esArise 6 (congrArg EsState.powered (deniedFresh_es ok valid s))
  · rw [if_neg (by simp [failed])]
    exact bit_esArise 7 (crcChecked_powered ok valid s)

/-! ### Memory and the interface -/

/-- Without main power DRAM and the planes of the stacks are lost with their supply (12 R284). -/
theorem memorySupplyLoss_spec {s : State} (lost : s.power.main = false) (supplied : s.power.memory = true) :
    ∃ t, exec .memorySupplyLoss s = .next t ∧ t.mem.dram = [] ∧ t.mem.kept = [] ∧ t.dlv.planes = [] ∧
      t.dlv.frozen = [] ∧ t.power.memory = false := by
  rw [exec, execMemorySupplyLoss, if_neg (by simp [lost, supplied])]
  exact ⟨_, rfl, rfl, rfl, rfl, rfl, rfl⟩

/-- The function's control registers as the host programs them, Bus Master Enable being set (08 R176). -/
def mastering (msix mask : Bool) (pl : Fin 3) (rd : Fin 6) (s : State) : State :=
  { s with
    pcie.bme := true, pcie.msixEnable := msix, pcie.functionMask := mask
    pcie.maxPayload := 128 * 2 ^ pl.val, pcie.maxRead := 128 * 2 ^ rd.val }

theorem exec_busMasterEnable {s : State} (msix mask : Bool) (pl : Fin 3) (rd : Fin 6) (answers : bar0Up s = true) :
    exec (.busMasterEnable msix mask pl rd) s = .next (
      if s.pcie.d3hot then mastering msix mask pl rd s
      else if s.pcie.bme then forUpto 64 sendPending (mastering msix mask pl rd s)
      else resumeMastering (mastering msix mask pl rd s)) := by
  rw [exec, execBusMasterEnable, if_neg (by simp [answers])]
  rfl

theorem exec_busMasterEnableCleared {s : State} (master : s.pcie.bme = true) :
    exec .busMasterEnableCleared s = .next (updateMaster (pauseDelivery { s with pcie.bme := false })) := by
  rw [exec, execBusMasterEnableCleared, if_pos master]

theorem exec_d3hotEntry {s : State} (answers : bar0Up s = true) (awake : s.pcie.d3hot = false) :
    exec .d3hotEntry s = .next (updateMaster (pauseDelivery { s with pcie.d3hot := true })) := by
  rw [exec, execD3hotEntry, if_pos (by simp [answers, awake])]

theorem exec_d0Return {s : State} (sleeps : s.pcie.d3hot = true) :
    exec .d0Return s = .next (
      if s.pcie.bme then resumeMastering { s with pcie.d3hot := false } else { s with pcie.d3hot := false }) := by
  rw [exec, execD0Return, if_pos sleeps]

/-- Settles O43: each clause is what its command's own lemma says; what a loss of power leaves, `loseMain_denies`. -/
theorem powerCommands : Obligations.PowerCommands := by
  refine ⟨fun s => exec_vkaLoss, fun s => vkaPowerup_spec, fun ok crc s => esPowerOn_spec ok crc,
    fun d s vka lost => ?powerUp, fun d s vka lost warned => ?returns,
    fun s powered => ⟨_, exec_railWarning_main powered, loseMain_denies s⟩,
    fun s lost rails => ⟨_, exec_railWarning_rails lost rails, loseRails_denies s⟩, fun s => memorySupplyLoss_spec,
    fun sel d h s powered => ?resetN, fun h s answers => ⟨?perst, ?hot, ?function⟩,
    fun msix mask pl rd s answers => ⟨fun sleeps => ?held, fun awake idle => ?resumed, fun awake master => ?sent⟩,
    fun s => exec_busMasterEnableCleared, fun s => exec_d3hotEntry, fun s sleeps master => ?wakes,
    fun s sleeps idle => ?stays⟩
  case powerUp => rw [exec, execDieBPowerUp, if_pos (by simp [vka, lost])]
  case returns => rw [exec, execMainPowerReturn, if_pos (by simp [vka, lost, warned])]
  case resetN => rw [exec, execResetN, if_pos powered]
  case perst => rw [exec, execPerstN, if_pos answers]
  case hot => rw [exec, execHotReset, if_pos answers]
  case function => rw [exec, execFunctionLevelReset, if_pos answers]
  case held =>
    rw [exec_busMasterEnable msix mask pl rd answers, if_pos sleeps]
    rfl
  case resumed =>
    rw [exec_busMasterEnable msix mask pl rd answers, if_neg (by simp [awake]), if_neg (by simp [idle])]
    rfl
  case sent =>
    rw [exec_busMasterEnable msix mask pl rd answers, if_neg (by simp [awake]), if_pos master]
    rfl
  case wakes => rw [exec_d0Return sleeps, if_pos master]
  case stays => rw [exec_d0Return sleeps, if_neg (by simp [idle])]

end Sys2Proof
end
